-- ==== Sys2Proof/Word.lean ====
section
/-! DEFINITION. The word types of the machine (00 R3, 02 R12): scalars, 32-bit words, 192-byte rows, bytes. -/

namespace Sys2Proof

/-- A 64-bit scalar, address or system register. -/
abbrev Word := BitVec 64

/-- A 32-bit word: a lane of a row, an immediate, a CRC. -/
abbrev W32 := BitVec 32

/-- A byte. -/
abbrev Byte := BitVec 8

/-- A row of 192 bytes: a grid row, a queue slot, an operand latch, an accumulator row (R89). -/
abbrev Row := BitVec 1536

/-- A register number field. -/
abbrev Reg := BitVec 6

end Sys2Proof
end

