-- ==== Sys2Proof/Syntax.lean ====
section
/-! DEFINITION. The syntax of the machine's steps: one constructor of `Instr` for each row of spec/opcode_table.json
(the encoded instructions of 03 R45, with the operand types the formats of R32 to R47 give them, and the events of
the device, host and links, whose operands the machine's state holds). -/

namespace Sys2Proof

/-- The guard of a word (R29): the predicate number and its negation. -/
structure Guard where
  pn : Bool
  pr : BitVec 3
deriving DecidableEq, Repr

/-- The scope of a publishing event (R169). -/
inductive Scope where
  | cell | part | sys
deriving DecidableEq, Repr

/-- The element types of R38, in the order of their codes. -/
inductive ETy where
  | f32 | f16 | bf16 | e4m3 | e5m2 | i32 | i16 | i8 | u32 | u16 | u8 | mxi8 | mxf8e4 | mxf8e5 | mxf4 | pni
deriving DecidableEq, Repr

/-- The operand formats of `MMA` (R40), in the order of their codes. -/
inductive MFmt where
  | bf16 | e4m3 | e5m2 | mxf8e4 | mxf8e5 | mxi8 | mxf4 | pni
deriving DecidableEq, Repr

/-- The rounding modes of R39. -/
inductive RM where
  | rne | rz | rdn | rup
deriving DecidableEq, Repr

/-- A source operand of an execute instruction (R35, R36). -/
inductive Src where
  | row (i : Reg)
  | col (i : Reg)
  | diag (i : Reg)
  | queue (q k : BitVec 2) (pop : Bool)
  | bcast (r : BitVec 5)
deriving DecidableEq, Repr

/-- A source slot: the operand latch (R37) or an operand field. -/
inductive Opnd where
  | held
  | from (x : Src)
deriving DecidableEq, Repr

/-- A destination operand of an execute instruction (R36). -/
inductive Dst where
  | row (i : Reg)
  | col (i : Reg)
  | diag (i : Reg)
  | queue (q : BitVec 2)
deriving DecidableEq, Repr

/-- Two sources, rounded (VADD, VSUB, VMUL, VFMA, VFNMA, VDIV). -/
structure VBin where
  od : Dst
  a : Opnd
  b : Opnd
  ty : ETy
  rm : RM
  sat : Bool
deriving DecidableEq, Repr

/-- One source, rounded (VRCP, VRSQ, VEXP2, VLOG2, VSQRT, VSUM). -/
structure VUn where
  od : Dst
  a : Opnd
  ty : ETy
  rm : RM
  sat : Bool
deriving DecidableEq, Repr

/-- Two sources, never rounded (VMAX, VMIN, the bitwise, shift and order forms of VINT, VPERM). -/
structure VMov2 where
  od : Dst
  a : Opnd
  b : Opnd
  ty : ETy
deriving DecidableEq, Repr

/-- One source, never rounded (VABS, VNEG, VCPY, VRMAX, VRMIN). -/
structure VMov1 where
  od : Dst
  a : Opnd
  ty : ETy
deriving DecidableEq, Repr

/-- Integer add, subtract and multiply (R125). -/
structure VIntF where
  od : Dst
  a : Opnd
  b : Opnd
  ty : ETy
  sat : Bool
deriving DecidableEq, Repr

/-- A compare into a mask (R126). -/
structure VCmpF where
  m : BitVec 3
  a : Opnd
  b : Opnd
  ty : ETy
deriving DecidableEq, Repr

/-- `VCVT` (R128). -/
structure VCvtF where
  od : Dst
  a : Opnd
  dst : ETy
  src : ETy
  rm : RM
  sat : Bool
deriving DecidableEq, Repr

/-- `VQNT` (R129); HA on it is ILLEGAL (R119). -/
structure VQntF where
  od : Dst
  a : Src
  dst : ETy
  src : ETy
deriving DecidableEq, Repr

/-- `VDQ` (R130). -/
structure VDqF where
  od : Dst
  a : Opnd
  b : Opnd
  dst : ETy
  src : ETy
  pd : BitVec 3
  pf : Bool
  rm : RM
  sat : Bool
deriving DecidableEq, Repr

/-- `VROT` and `VBCAST` (R133). -/
structure VImmF where
  od : Dst
  a : Opnd
  ty : ETy
  n : BitVec 8
deriving DecidableEq, Repr

/-- `VSEL` (R134). -/
structure VSelF where
  od : Dst
  a : Opnd
  b : Opnd
  ty : ETy
  m : BitVec 3
deriving DecidableEq, Repr

/-- The A operand of `MMA` (R137): `t` is AT. -/
inductive ASrc where
  | grid
  | desc (ad : Reg) (t : Bool)
  | arrv (t : Bool)
deriving DecidableEq, Repr

/-- The B operand of `MMA` (R137): `t` is BT. -/
inductive BSrc where
  | flying (t : Bool)
  | desc (bd : Reg) (t : Bool)
  | spare (t : Bool)
  | ver (t : Bool)
deriving DecidableEq, Repr

/-- The fields of `MMA` (R147). -/
structure MmaF where
  acc : BitVec 2
  a : ASrc
  b : BSrc
  af : MFmt
  bf : MFmt
  ks : BitVec 8
  pd : BitVec 3
  pf : Bool
  ck : Bool
  z : Bool
deriving DecidableEq, Repr

/-- Where `EPI` sends its rows (R154). -/
inductive EpiDest where
  | spad (a : Reg)
  | sq (q : BitVec 2)
  | pass
deriving DecidableEq, Repr

/-- The fields of `EPI` (R154). -/
structure EpiF where
  dest : EpiDest
  b : Reg
  c : Reg
  acc : BitVec 2
  ty : ETy
  act : BitVec 4
  deriv : Bool
  sat : Bool
  rm : RM
  rv : Bool
  watch : Bool
deriving DecidableEq, Repr

/-- A queue named by a QOP (R75). -/
structure QSel where
  store : Bool
  q : BitVec 2
deriving DecidableEq, Repr

/-- A count held in a register or given as an immediate. -/
inductive Count (n : Nat) where
  | reg (r : Reg)
  | imm (c : BitVec n)
deriving DecidableEq, Repr

/-- The fields of a scratchpad stream (R78). -/
structure StreamF where
  q : BitVec 2
  a : Reg
  s : Reg
  n : Count 16
  es : BitVec 3
deriving DecidableEq, Repr

/-- The fields of a memory stream (R78). -/
structure MStreamF where
  q : BitVec 2
  th : BitVec 4
  a : Reg
  s : Reg
  n : Count 16
  es : BitVec 3
deriving DecidableEq, Repr

/-- The fields of a handle stream (R78). -/
structure HStreamF where
  q : BitVec 2
  mh : BitVec 4
  a : Reg
  n : Count 16
  es : BitVec 3
deriving DecidableEq, Repr

/-- The fields of `LDS` (R76). -/
structure LdsF where
  d : Reg
  a : Reg
  sz : BitVec 2
  sx : Bool
  disp : W32
deriving DecidableEq, Repr

/-- The fields of `STS` (R76). -/
structure StsF where
  d : Reg
  a : Reg
  sz : BitVec 2
  disp : W32
deriving DecidableEq, Repr

/-- The fields of `LDM` (R82). -/
structure LdmF where
  d : Reg
  th : BitVec 4
  x : Reg
  sc : BitVec 2
  sz : BitVec 2
  disp : BitVec 24
  sx : Bool
deriving DecidableEq, Repr

/-- The fields of `STM` (R82, R85). -/
structure StmF where
  d : Reg
  th : BitVec 4
  x : Reg
  sc : BitVec 2
  sz : BitVec 2
  disp : BitVec 24
  pub : Option Scope
deriving DecidableEq, Repr

/-- The fields of an atomic through a tether (R46, R86). -/
structure AmoF where
  d : Reg
  th : BitVec 4
  a : Reg
  b : Reg
  wide : Bool
  scope : Scope
  pb : Bool
  sp : Bool
deriving DecidableEq, Repr

/-- The fields of an atomic on the scratchpad (R46, R86). -/
structure AmosF where
  d : Reg
  a : Reg
  b : Reg
  wide : Bool
  pb : Bool
  sp : Bool
deriving DecidableEq, Repr

/-- The intent of `TETH` (R47). -/
inductive Intent where
  | read | write | exec
deriving DecidableEq, Repr

/-- The condition of `FLAGW` (R181). -/
inductive FlagCond where
  | eq | geu | ne
deriving DecidableEq, Repr

/-- The count that `WWAIT` and `WCNT` name (R363). -/
inductive WinSel where
  | iss | cmp | arr
deriving DecidableEq, Repr

/-- The access mode of a mooring handle (R283). -/
inductive HMode where
  | r | w | rw
deriving DecidableEq, Repr

/-- The fields of `PREF` (R248). -/
structure PrefF where
  th : BitVec 4
  x : Reg
  sc : BitVec 2
  disp : BitVec 24
  w : Bool
deriving DecidableEq, Repr

/-- A DATA flit as it arrives (R357): `ok` says that its CRC held. -/
structure DataFlit where
  ok : Bool
  seq : BitVec 16
  ack : BitVec 16
  wid : BitVec 12
  off : Word
  last : Bool
  bytes : List Byte
deriving DecidableEq, Repr

/-- A DONE, NAK or IDLE flit as it arrives (R357). -/
structure CtlFlit where
  ok : Bool
  seq : BitVec 16
  ack : BitVec 16
  off : Word
  err : Bool
deriving DecidableEq, Repr

/-- A SYNC flit as it arrives (R357, R359). -/
structure SyncFlit where
  ok : Bool
  ack : BitVec 16
  time : Word
  echo : Word
  hold : Word
deriving DecidableEq, Repr

/-- Where an error appears (R333): one 32-byte granule, `pub` of the publish-buffer entry of store `seq`; or the second datapath of a thread's next compared K-step (R152); or
word `w` of a queue slot, in more bits than the code detects (R153), which changes it by `x`. -/
inductive ErrAt where
  | spad (cell g : Nat)
  | bank (cell : Nat) (second : Bool) (g : Nat)
  | mem (g : Nat)
  | grid (src : Nat) (row : Reg) (g : BitVec 3)
  | slot (src : Nat) (q : QSel) (i : BitVec 3) (g : BitVec 3)
  | acc (src : Nat) (a : BitVec 2) (row : Reg) (g : BitVec 3)
  | pub (seq g : Nat)
  | check (src : Nat)
  | silent (src : Nat) (q : QSel) (i : BitVec 3) (w : Reg) (x : W32)
deriving DecidableEq, Repr

/-- A management request over MCTP (R413). -/
inductive PldmReq where
  | readSensor (sensor : BitVec 8)
  | readPower
  | readCap
  | setCap (w : Nat)
  | readErrors
  | raiseMinimum (v : W32) (signature : List Byte)
deriving DecidableEq, Repr

/-- The steps of the machine: one constructor per row of spec/opcode_table.json. -/
inductive Instr where
  -- scalar arithmetic (R52 to R55)
  | nop
  | add (d a b : Reg) | sub (d a b : Reg) | mul (d a b : Reg) | mulh (d a b : Reg) | mulhu (d a b : Reg)
  | div (d a b : Reg) | divu (d a b : Reg) | rem (d a b : Reg) | remu (d a b : Reg)
  | and (d a b : Reg) | or (d a b : Reg) | xor (d a b : Reg) | andn (d a b : Reg)
  | shl (d a b : Reg) | shr (d a b : Reg) | sra (d a b : Reg) | rot (d a b : Reg)
  | min (d a b : Reg) | max (d a b : Reg) | minu (d a b : Reg) | maxu (d a b : Reg)
  | clz (d a : Reg) | popc (d a : Reg)
  | madd (d a b c : Reg) | sel (d a b : Reg) (p : BitVec 3) | addx (d a b : Reg) (n : BitVec 2)
  | addi (d a : Reg) (i : W32) | andi (d a : Reg) (i : W32) | ori (d a : Reg) (i : W32) | xori (d a : Reg) (i : W32)
  | shli (d a : Reg) (i : BitVec 6) | shri (d a : Reg) (i : BitVec 6) | srai (d a : Reg) (i : BitVec 6)
  | roti (d a : Reg) (i : BitVec 6)
  | li (d : Reg) (i : W32) | lih (d : Reg) (i : W32) | liz (d : Reg) (i : W32)
  -- compares and predicate logic (R56, R57)
  | cmpEq (p : BitVec 3) (a b : Reg) | cmpNe (p : BitVec 3) (a b : Reg) | cmpLt (p : BitVec 3) (a b : Reg)
  | cmpLe (p : BitVec 3) (a b : Reg) | cmpLtu (p : BitVec 3) (a b : Reg) | cmpLeu (p : BitVec 3) (a b : Reg)
  | pand (p a b : BitVec 3) | por (p a b : BitVec 3) | pxor (p a b : BitVec 3) | pandn (p a b : BitVec 3)
  | cmpiEq (p : BitVec 3) (a : Reg) (i : W32) | cmpiNe (p : BitVec 3) (a : Reg) (i : W32)
  | cmpiLt (p : BitVec 3) (a : Reg) (i : W32) | cmpiLe (p : BitVec 3) (a : Reg) (i : W32)
  | cmpiLtu (p : BitVec 3) (a : Reg) (i : W32) | cmpiLeu (p : BitVec 3) (a : Reg) (i : W32)
  -- moves (R58 to R60)
  | mov (d a : Reg) | pget (d : Reg) | pput (a : Reg)
  | vget (d : Reg) (g lane : Reg) | vput (g : Reg) (a : Reg) (lane : Reg) | keel (d : Reg)
  -- branches (R61)
  | br (off : W32) | call (off : W32) | jmp (a : Reg) | callr (a : Reg) | ret (a : Reg)
  -- hardware loops (R63 to R69)
  | loop (a : Reg) (off : W32) | loopp (a : Reg) (stages : BitVec 3) (off : W32) | lbrk | lnext
  -- thread control (R71 to R74)
  | exit | yield | sleept (a : Reg) | sleepd (a : Reg)
  -- queues (R75)
  | qadv (q : QSel) (n : Count 8) | qstat (d : Reg) (q : QSel) | qcfg (a : Reg) (q : QSel) | qclr (q : QSel)
  -- streams (R78 to R81)
  | ldq (f : StreamF) | stq (f : StreamF) | ldmq (f : MStreamF) | stmq (f : MStreamF)
  | ldrq (f : HStreamF) | strq (f : HStreamF)
  -- scalar accesses (R76, R77, R82 to R85)
  | lds (f : LdsF) | sts (f : StsF) | ldm (f : LdmF) | stm (f : StmF)
  -- atomics (R86, R87)
  | amoAdd (f : AmoF) | amoMin (f : AmoF) | amoMax (f : AmoF) | amoMinu (f : AmoF) | amoMaxu (f : AmoF)
  | amoAnd (f : AmoF) | amoOr (f : AmoF) | amoXor (f : AmoF) | amoSwap (f : AmoF) | amoCas (f : AmoF) (c : Reg)
  | amosAdd (f : AmosF) | amosMin (f : AmosF) | amosMax (f : AmosF) | amosMinu (f : AmosF) | amosMaxu (f : AmosF)
  | amosAnd (f : AmosF) | amosOr (f : AmosF) | amosXor (f : AmosF) | amosSwap (f : AmosF)
  | amosCas (f : AmosF) (c : Reg)
  -- translation (R259 to R266, R414)
  | teth (th : BitVec 4) (a : Reg) (intent : Intent) | trenew (th : BitVec 4)
  | trel (th : BitVec 4) | tstat (d : Reg) (th : BitVec 4) | rprobe (a b : Reg) (w : Bool)
  -- floating-point vectors (R124)
  | vadd (f : VBin) | vsub (f : VBin) | vmul (f : VBin) | vfma (f : VBin) | vfnma (f : VBin)
  | vmax (f : VMov2) | vmin (f : VMov2) | vabs (f : VMov1) | vneg (f : VMov1) | vcpy (f : VMov1)
  | vrcp (f : VUn) | vrsq (f : VUn) | vexp2 (f : VUn) | vlog2 (f : VUn) | vsqrt (f : VUn) | vdiv (f : VBin)
  -- integer vectors (R125)
  | viadd (f : VIntF) | visub (f : VIntF) | vimul (f : VIntF)
  | vand (f : VMov2) | vor (f : VMov2) | vxor (f : VMov2) | vshl (f : VMov2) | vshr (f : VMov2) | vsra (f : VMov2)
  | vimin (f : VMov2) | vimax (f : VMov2)
  -- vector compares (R126)
  | vcmpEq (f : VCmpF) | vcmpNe (f : VCmpF) | vcmpLt (f : VCmpF) | vcmpLe (f : VCmpF) | vcmpUn (f : VCmpF)
  | vcmpIeq (f : VCmpF) | vcmpIlt (f : VCmpF) | vcmpIltu (f : VCmpF)
  -- conversions, reductions, moves (R127 to R135)
  | vcvt (f : VCvtF) | vqnt (f : VQntF) | vdq (f : VDqF)
  | vsum (f : VUn) | vrmax (f : VMov1) | vrmin (f : VMov1)
  | vperm (f : VMov2) | vrot (f : VImmF) | vbcast (f : VImmF) | vsel (f : VSelF)
  | vldi (d : Reg) (ty : ETy) (i : W32)
  -- prefixes and hints (R42 to R44, R49)
  | xtnd (i : W32) | lane (m : BitVec 3) (merge : Bool)
  | pref (f : PrefF) | prio (p : BitVec 3) | emptyHint (op : BitVec 8)
  -- the tensor unit (09)
  | mma (f : MmaF)
  | mzero (acc : BitVec 2) | mlda (acc : BitVec 2) (a : Reg) | msta (acc : BitVec 2) (a : Reg)
  | mprog (d : Reg) (acc : BitVec 2) | mrst (acc : BitVec 2) (off : BitVec 18)
  | epi (f : EpiF)
  -- the wave array (11)
  | rig (a : Reg) (n : BitVec 8) | unrig (n : BitVec 8) | admitTile (n : BitVec 8) (a b c : Reg) | arrv (d : Reg)
  | pass (a : Reg) (up : Bool) | meet (d : Reg) | wver (d : Reg) | wswap
  | wstat (d : Reg) (n : BitVec 8) (sel : BitVec 4)
  -- phases (10, 13 R246)
  | phase (sc : Scope) | phaseb (sc : Scope)
  | fencex (frm dst : BitVec 6)
  | flagset (th : BitVec 4) (a b : Reg) (sc : Scope)
  | flagw (d : Reg) (th : BitVec 4) (a b c : Reg) (sc : Scope) (cond : FlagCond)
  | join (d a : Reg) | leave (a : Reg) | teamq (d a : Reg) (sel : BitVec 4)
  -- task graphs (12)
  | glaunch (d a : Reg) (q : BitVec 10) | gsig | gdone | gadd (d a : Reg) | gqry (d a : Reg) (sel : BitVec 4)
  -- copy (18)
  | copy (d b a : Reg) (ch : BitVec 2) | copyf (d b a c : Reg) (ch : BitVec 2) | cwait (ch : BitVec 2) (a : Reg)
  | cstat (d : Reg) (ch : BitVec 2) | cchk (ch : BitVec 2) (a : Reg)
  -- windows (21)
  | wreg (d : Reg) (th : BitVec 4) (a b : Reg) | wdereg (a : Reg)
  | put (th : BitVec 4) (a b c : Reg) (wid : BitVec 16)
  | wwait (sel : WinSel) (a b : Reg) | wcnt (sel : WinSel) (d a : Reg)
  -- relay (18)
  | rstart (a : Reg) (e : BitVec 3) | rwait (a : Reg) (e : BitVec 3) | rstat (d : Reg) (e : BitVec 3)
  | rarbHbm (a : Reg) | rarbLink (a : Reg)
  -- the Mooring Directory (16)
  | mopen (mh : BitVec 4) (c a : Reg) (mode : HMode) | mopenw (mh : BitVec 4) (c a b : Reg) (mode : HMode)
  | mclose (mh : BitVec 4) | mbind (d a b : Reg) | munbind (d a b : Reg) | mqry (d a : Reg) (sel : BitVec 4)
  -- containment and system (19, 25, 21 R356)
  | dropen (off : BitVec 20) | drclose | tell (n : BitVec 4) | errq (d : Reg) (sel : BitVec 4)
  | trap (code : BitVec 20) | rfe | rdsys (d : Reg) (r : BitVec 12) | wrsys (r : BitVec 12) (a : Reg)
  | brk (code : BitVec 20) | evt (a : Reg) (code : BitVec 16) | blst (d : Reg)
  -- an opcode of no group (R45)
  | undefinedOpcode (op : BitVec 8)
  -- events: their operands stand in the state (`EvArg`)
  -- the pipeline and memory of a context (04, 13)
  | instructionFetch | sleepWake | loadStreamRow | storeStreamRow | streamRowGrant | memoryLoadLands
  | memoryStorePerformed | renewalAnswer
  -- the tensor unit and the wave array (09, 11)
  | kStep | handlerEnd | arrivalDelivery | tileSend | tileIntoInbox | bankExchange
  -- phases and graphs (10, 12, 13)
  | barrierRelease | flagwWake | publishTakesEffect | publishEntryMerge | horizonAging | promiseTimeReached
  | launchAdmit | nodeDispatch | nodeCompletion
  -- copy and relay engines (18)
  | copyPacketTake | copyPacketStep | copyTransferComplete | cqnoteWrite | cqwidxWrite | cfailstClear
  | relayStep
  -- directory and translation (14, 16)
  | mopenwWake | leaseCacheExpiry | leaseExpiryPublish | changeRecordLapse | leafUpdateStart | leafUpdateCommit
  | migrationAssist
  -- links (21)
  | syncBeat | inboundDataFlit | doneFlit | nakFlit | idleFlit | linkDown
  | linkRetrain | syncFlitSend | peerCounterRead | windowLeaseRenewal
  -- host queues and scheduler (19, 24)
  | qnoteWrite | hostFetchAdd | launchPacket | copyreqPacket | signalPacket | fencePacket
  | badpkt | queueSlotMap | sliceEnd | preqWrite | preemptionStop | drainWindowEnd
  | smallStateExchange | lazyRegionSave | lazyRegionReload | prresRestore | prresDiscard | prresFlush
  | contextRestore | saveAreaWriteback
  -- debugger (25)
  | halt | resume | step | attach | release | holdTimeExpiry
  | ddataWrite | breakpointMatch
  -- host and firmware (13, 24, 26)
  | hostWrite | hostRead | registerWrite | partitionConfigure | coldReset | warmReset
  | rateUpdate | powerMeasurement | spdmRequest | pldmRequest | flashUpdate | softError
deriving DecidableEq, Repr

end Sys2Proof
end

