-- ==== Sys2Proof/WellFormed.lean ====
section
/-! DEFINITION. Which terms of `Instr` are instructions: the range of every operand and the combinations that
03 R33 to R50, 04 R63, 07 R127 to R135 and 09 R138, R141 allow. Every other encoding is ILLEGAL. -/

namespace Sys2Proof

/-- Types 0 to 2 of R39. -/
def ETy.isFp : ETy → Bool
  | .f32 | .f16 | .bf16 => true
  | _ => false

/-- Types 5 to 10 of R39. -/
def ETy.isInt : ETy → Bool
  | .i32 | .i16 | .i8 | .u32 | .u16 | .u8 => true
  | _ => false

/-- Types 11 to 15 of R39. -/
def ETy.isBlock : ETy → Bool
  | .mxi8 | .mxf8e4 | .mxf8e5 | .mxf4 | .pni => true
  | _ => false

/-- Types 0 to 10 of R39. -/
def ETy.isPlain (t : ETy) : Bool := !t.isBlock

/-- Width in bits of an element (R38, R89); MXFP4 elements are 4 bits, the other block types 8. -/
def ETy.width : ETy → Nat
  | .f32 | .i32 | .u32 => 32
  | .f16 | .bf16 | .i16 | .u16 => 16
  | .mxf4 => 4
  | _ => 8

/-- Elements in a row (R89). -/
def ETy.count (t : ETy) : Nat := 1536 / t.width

/-- The K per step of a tensor format (R40). -/
def MFmt.k : MFmt → Nat
  | .bf16 => 96
  | .mxf4 => 384
  | _ => 192

/-- Formats 0 to 2, which carry no block scales (R138, R141). -/
def MFmt.isUnscaled : MFmt → Bool
  | .bf16 | .e4m3 | .e5m2 => true
  | _ => false

/-- A row number or lane number of the grid (R35, R58). -/
def gridOk (i : Reg) : Bool := i.toNat < 48

def Src.wf : Src → Bool
  | .row i | .col i | .diag i => gridOk i
  | .queue _ _ _ | .bcast _ => true

def Opnd.wf : Opnd → Bool
  | .held => true
  | .from x => x.wf

def Dst.wf : Dst → Bool
  | .row i | .col i | .diag i => gridOk i
  | .queue _ => true

/-- A destination that is also a source (R36). -/
def Dst.isGrid : Dst → Bool
  | .queue _ => false
  | _ => true

/-- A destination that is a row or a store queue (R36, R127). -/
def Dst.isRowOrQueue : Dst → Bool
  | .row _ | .queue _ => true
  | _ => false

def Count.wf {n : Nat} : Count n → Bool
  | .reg r => r ≠ 0
  | .imm _ => true

def VBin.wf (f : VBin) : Bool := f.od.wf && f.a.wf && f.b.wf && f.ty.isFp
def VUn.wf (f : VUn) : Bool := f.od.wf && f.a.wf && f.ty.isFp
def VMov2.wf (f : VMov2) (ok : ETy → Bool) : Bool := f.od.wf && f.a.wf && f.b.wf && ok f.ty
def VMov1.wf (f : VMov1) (ok : ETy → Bool) : Bool := f.od.wf && f.a.wf && ok f.ty
def VIntF.wf (f : VIntF) : Bool := f.od.wf && f.a.wf && f.b.wf && f.ty.isInt
def VCmpF.wf (f : VCmpF) (ok : ETy → Bool) : Bool := f.a.wf && f.b.wf && ok f.ty
def VCvtF.wf (f : VCvtF) : Bool := f.od.wf && f.a.wf && f.dst.isPlain && f.src.isPlain

/-- Source vectors of a `VQNT`, or destination vectors of a `VDQ` (R129, R130): `blk` is the block type. -/
def groupSize (blk plain : ETy) : Nat :=
  (if blk = .mxf4 then 384 else 192) / (if plain = .f32 then 48 else 96)

def VQntF.wf (f : VQntF) : Bool :=
  f.dst.isBlock && f.src.isFp &&
  (match f.od with
   | .row i => i.toNat < 47
   | .queue _ => true
   | _ => false) &&
  (match f.a with
   | .row i => i.toNat + groupSize f.dst f.src ≤ 48
   | .queue _ k _ => k = 0
   | .bcast _ => true
   | _ => false)

def VDqF.wf (f : VDqF) : Bool :=
  f.dst.isFp && f.src.isBlock && f.b.wf &&
  (match f.od with
   | .row i => i.toNat + groupSize f.src f.dst ≤ 48
   | .queue _ => true
   | _ => false) &&
  (match f.a with
   | .held => true
   | .from (.row i) => gridOk i
   | .from (.queue _ _ _) => true
   | _ => false) &&
  (if f.src = .pni then f.pd ≠ 7 else f.pd = 0 && !f.pf)

def VImmF.wf (f : VImmF) : Bool := f.od.wf && f.a.wf && f.ty.isPlain && f.n.toNat < f.ty.count
def VSelF.wf (f : VSelF) : Bool := f.od.wf && f.a.wf && f.b.wf && f.ty.isPlain

/-- An even register names a descriptor pair (R41). -/
def evenReg (r : Reg) : Bool := r.getLsbD 0 = false

/-- R40, R41, R138, R141. -/
def MmaF.wf (f : MmaF) : Bool :=
  f.pd ≠ 7 && f.af.k = f.bf.k &&
  (match f.a with
   | .grid => f.af.isUnscaled
   | .desc ad t => evenReg ad && (!t || f.af.isUnscaled)
   | .arrv t => !t || f.af.isUnscaled) &&
  (match f.b with
   | .desc bd t => evenReg bd && (!t || f.bf.isUnscaled)
   | .flying t | .spare t | .ver t => !t || f.bf.isUnscaled)

/-- The output types of `EPI` (R39). -/
def ETy.isEpi (t : ETy) : Bool := t.isFp || t = .e4m3 || t = .e5m2 || t.isBlock

def EpiF.wf (f : EpiF) : Bool := f.ty.isEpi && f.act.toNat < 7

/-- The system registers of R397. -/
def sysRegOk (r : BitVec 12) : Bool :=
  r.toNat < 5 || (8 ≤ r.toNat && r.toNat ≤ 0xB) || (0x10 ≤ r.toNat && r.toNat ≤ 0x13) ||
  r.toNat = 0x18 || r.toNat = 0x19 || (0x100 ≤ r.toNat && r.toNat ≤ 0x10F)

/-- The selectors of `MQRY` (R293). -/
def mqrySelOk (s : BitVec 4) : Bool := s.toNat < 5 || (8 ≤ s.toNat && s.toNat < 12)

/-- A body offset of `LOOP` and `LOOPP`: at least one word (R63). -/
def loopOffOk (off : W32) : Bool := decide (0 < off.toInt)

/-- Major opcodes of the map (R45): the groups, the two words before a target (R42) and the hints (R49). -/
def opcodeKnown (op : BitVec 8) : Bool :=
  op.toNat ∈ [0x00, 0x01, 0x02, 0x03, 0x04, 0x05, 0x10, 0x11, 0x12, 0x13, 0x14, 0x20, 0x21, 0x22, 0x23, 0x24,
    0x25, 0x26, 0x27, 0x30, 0x40, 0x41, 0x42, 0x43, 0x44, 0x45, 0x46, 0x47, 0x50, 0x51, 0x52, 0x58, 0x60, 0x61,
    0x68, 0x69, 0x6A, 0x70, 0x78, 0x79, 0xE0, 0xE1] || 0xF0 ≤ op.toNat

/-- Well-formed steps: what `decode` can answer; the events have no encoding and are all well formed. -/
def Instr.wf : Instr → Bool
  | .vget _ g l => gridOk g && gridOk l
  | .vput g _ l => gridOk g && gridOk l
  | .loop _ off => loopOffOk off
  | .loopp _ st off => loopOffOk off && st ≠ 7
  | .qadv _ n => n.wf
  | .ldq f | .stq f => f.n.wf
  | .ldmq f | .stmq f => f.n.wf
  | .ldrq f | .strq f => f.n.wf
  | .lds f => !(f.sz = 3 && f.sx)
  | .vadd f | .vsub f | .vmul f | .vdiv f => f.wf
  | .vfma f | .vfnma f => f.wf && f.od.isGrid
  | .vmax f | .vmin f => f.wf ETy.isFp
  | .vabs f | .vneg f | .vcpy f => f.wf ETy.isFp
  | .vrcp f | .vrsq f | .vexp2 f | .vlog2 f | .vsqrt f => f.wf
  | .viadd f | .visub f | .vimul f => f.wf
  | .vand f | .vor f | .vxor f | .vshl f | .vshr f | .vsra f | .vimin f | .vimax f => f.wf ETy.isInt
  | .vcmpEq f | .vcmpNe f | .vcmpLt f | .vcmpLe f | .vcmpUn f => f.wf ETy.isFp
  | .vcmpIeq f | .vcmpIlt f | .vcmpIltu f => f.wf ETy.isInt
  | .vcvt f => f.wf
  | .vqnt f => f.wf
  | .vdq f => f.wf
  | .vsum f => f.wf && f.od.isRowOrQueue
  | .vrmax f | .vrmin f => f.wf ETy.isPlain && f.od.isRowOrQueue
  | .vperm f => f.wf ETy.isPlain
  | .vrot f | .vbcast f => f.wf
  | .vsel f => f.wf
  | .vldi d ty _ => gridOk d && ty.isPlain
  | .emptyHint op => 0xF2 ≤ op.toNat
  | .mma f => f.wf
  | .epi f => f.wf
  | .wstat _ _ s => s.toNat < 5
  | .fencex a b => a ≠ 0 && b ≠ 0
  | .teamq _ _ s => s.toNat < 5
  | .gqry _ _ s => s.toNat < 5
  | .mqry _ _ s => mqrySelOk s
  | .errq _ s => s.toNat < 8
  | .rdsys _ r | .wrsys r _ => sysRegOk r
  | .undefinedOpcode op => !opcodeKnown op
  | _ => true

end Sys2Proof
end

