-- ==== Sys2Proof/Decode.lean ====
section
/-! DEFINITION. The decoder, total on any 64-bit word, and after it the encoder, from the same layouts of
spec/03_encoding.md. A word whose fields R31 to R50 make ILLEGAL is rejected by name; the machine raises the fatal
ILLEGAL for it. Reserved fields are ignored (R48). -/

namespace Sys2Proof

/-- Why an encoding is ILLEGAL (R50). -/
inductive Illegal where
  | unlistedFn | badScope | badIndex | badType | badSelector | badQueue | badPair | badFormat | badSize | badGroup
  | badImmediate
deriving DecidableEq, Repr

abbrev Dec := Except Illegal Instr

/-- Answer `i` where it is well formed, else refuse by name. -/
def check (e : Illegal) (i : Instr) : Dec := if i.wf then .ok i else .error e

def orBad {α : Type} (e : Illegal) : Option α → Except Illegal α
  | some x => .ok x
  | none => .error e

-- Field codes.

def Scope.ofCode (c : BitVec 2) : Option Scope :=
  match c.toNat with
  | 0 => some .cell
  | 1 => some .part
  | 2 => some .sys
  | _ => none

def Scope.code : Scope → BitVec 2
  | .cell => 0
  | .part => 1
  | .sys => 2

def ETy.ofCode (c : BitVec 4) : ETy :=
  match c.toNat with
  | 0 => .f32 | 1 => .f16 | 2 => .bf16 | 3 => .e4m3 | 4 => .e5m2 | 5 => .i32 | 6 => .i16 | 7 => .i8
  | 8 => .u32 | 9 => .u16 | 10 => .u8 | 11 => .mxi8 | 12 => .mxf8e4 | 13 => .mxf8e5 | 14 => .mxf4 | _ => .pni

def ETy.code : ETy → BitVec 4
  | .f32 => 0 | .f16 => 1 | .bf16 => 2 | .e4m3 => 3 | .e5m2 => 4 | .i32 => 5 | .i16 => 6 | .i8 => 7
  | .u32 => 8 | .u16 => 9 | .u8 => 10 | .mxi8 => 11 | .mxf8e4 => 12 | .mxf8e5 => 13 | .mxf4 => 14 | .pni => 15

def MFmt.ofCode (c : BitVec 4) : Option MFmt :=
  match c.toNat with
  | 0 => some .bf16 | 1 => some .e4m3 | 2 => some .e5m2 | 3 => some .mxf8e4 | 4 => some .mxf8e5 | 5 => some .mxi8
  | 6 => some .mxf4 | 7 => some .pni | _ => none

def MFmt.code : MFmt → BitVec 4
  | .bf16 => 0 | .e4m3 => 1 | .e5m2 => 2 | .mxf8e4 => 3 | .mxf8e5 => 4 | .mxi8 => 5 | .mxf4 => 6 | .pni => 7

def RM.ofCode (c : BitVec 2) : RM :=
  match c.toNat with
  | 0 => .rne | 1 => .rz | 2 => .rdn | _ => .rup

def RM.code : RM → BitVec 2
  | .rne => 0 | .rz => 1 | .rdn => 2 | .rup => 3

def Intent.ofCode (c : BitVec 2) : Option Intent :=
  match c.toNat with
  | 0 => some .read | 1 => some .write | 2 => some .exec | _ => none

def Intent.code : Intent → BitVec 2
  | .read => 0 | .write => 1 | .exec => 2

def FlagCond.ofCode (c : BitVec 2) : Option FlagCond :=
  match c.toNat with
  | 0 => some .eq | 1 => some .geu | 2 => some .ne | _ => none

def FlagCond.code : FlagCond → BitVec 2
  | .eq => 0 | .geu => 1 | .ne => 2

def WinSel.ofCode (c : BitVec 2) : Option WinSel :=
  match c.toNat with
  | 0 => some .iss | 1 => some .cmp | 2 => some .arr | _ => none

def WinSel.code : WinSel → BitVec 2
  | .iss => 0 | .cmp => 1 | .arr => 2

def HMode.ofCode (c : BitVec 2) : Option HMode :=
  match c.toNat with
  | 0 => some .r | 1 => some .w | 2 => some .rw | _ => none

def HMode.code : HMode → BitVec 2
  | .r => 0 | .w => 1 | .rw => 2

/-- One bit as a field. -/
def bit (b : Bool) : BitVec 1 := BitVec.ofBool b

/-- Bit `n` of a field. -/
def flag {w : Nat} (b : BitVec w) (n : Nat) : Bool := b.getLsbD n

/-- The source form of R35. -/
def Src.ofField (f : BitVec 8) : Src :=
  let i := f.extractLsb' 0 6
  match (f.extractLsb' 6 2).toNat with
  | 0 => .row i
  | 1 => .col i
  | 2 => .diag i
  | _ => if flag f 5 then .bcast (f.extractLsb' 0 5) else .queue (f.extractLsb' 3 2) (f.extractLsb' 1 2) (flag f 0)

def Src.field : Src → BitVec 8
  | .row i => 0#2 ++ i
  | .col i => 1#2 ++ i
  | .diag i => 2#2 ++ i
  | .queue q k p => 3#2 ++ 0#1 ++ q ++ k ++ bit p
  | .bcast r => 3#2 ++ 1#1 ++ r

/-- The destination form of R35 and R22: a queue with k = 0 and the push bit set. -/
def Dst.ofField (f : BitVec 8) : Option Dst :=
  let i := f.extractLsb' 0 6
  match (f.extractLsb' 6 2).toNat with
  | 0 => some (.row i)
  | 1 => some (.col i)
  | 2 => some (.diag i)
  | _ => if flag f 5 then none
         else if f.extractLsb' 0 3 = 1 then some (.queue (f.extractLsb' 3 2)) else none

def Dst.field : Dst → BitVec 8
  | .row i => 0#2 ++ i
  | .col i => 1#2 ++ i
  | .diag i => 2#2 ++ i
  | .queue q => 3#2 ++ 0#1 ++ q ++ 0#2 ++ 1#1

/-- A source slot: the hold bit of R37 makes the field unread. -/
def Opnd.ofField (hold : Bool) (f : BitVec 8) : Opnd := if hold then .held else .from (Src.ofField f)

def Opnd.field : Opnd → BitVec 8
  | .held => 0
  | .from x => x.field

def Opnd.hold : Opnd → Bool
  | .held => true
  | .from _ => false

def Count.ofFields {n : Nat} (r : Reg) (c : BitVec n) : Count n := if r = 0 then .imm c else .reg r

def Count.regField {n : Nat} : Count n → Reg
  | .reg r => r
  | .imm _ => 0

def Count.immField {n : Nat} : Count n → BitVec n
  | .reg _ => 0
  | .imm c => c

-- The formats of R32 as the 52 bits [51:0] of a word.

/-- F0 and F7: D, A, B, C, FN, the low 20 bits. -/
def packF0 (d a b c : Reg) (fn : BitVec 8) (lo : BitVec 20) : BitVec 52 := d ++ a ++ b ++ c ++ fn ++ lo
/-- F1 and F2: D (or A), A (or B), FN, 32 bits. -/
def packF1 (d a : Reg) (fn : BitVec 8) (i : W32) : BitVec 52 := d ++ a ++ fn ++ i
/-- F3. -/
def packF3 (d : Reg) (th : BitVec 4) (x : Reg) (sc sz : BitVec 2) (disp : BitVec 24) (fn : BitVec 8) : BitVec 52 :=
  d ++ th ++ x ++ sc ++ sz ++ disp ++ fn
/-- F4. -/
def packF4 (a : Reg) (th : BitVec 4) (n s : Reg) (q : BitVec 2) (es : BitVec 4) (fn : BitVec 8) (i : BitVec 16) :
    BitVec 52 := a ++ th ++ n ++ s ++ q ++ es ++ fn ++ i
/-- F5. -/
def packF5 (od oa ob : BitVec 8) (ty : BitVec 4) (fn : BitVec 8) (rm : BitVec 2) (sat ha hb : Bool)
    (i : BitVec 8) : BitVec 52 := od ++ oa ++ ob ++ ty ++ fn ++ rm ++ bit sat ++ bit ha ++ bit hb ++ 0#3 ++ i
/-- F6. -/
def packF6 (acc : BitVec 2) (ad : Reg) (asrc : BitVec 2) (aT : Bool) (bd : Reg) (bsrc : BitVec 2) (bT : Bool)
    (af bf : BitVec 4) (ks : BitVec 8) (pd : BitVec 3) (ck z pf : Bool) (fn : BitVec 8) : BitVec 52 :=
  acc ++ ad ++ asrc ++ bit aT ++ bd ++ bsrc ++ bit bT ++ af ++ bf ++ ks ++ pd ++ bit ck ++ bit z ++ bit pf ++
    0#2 ++ fn

-- Fields of F0 and F7.
def fD (w : BitVec 52) : Reg := w.extractLsb' 46 6
def fA (w : BitVec 52) : Reg := w.extractLsb' 40 6
def fB (w : BitVec 52) : Reg := w.extractLsb' 34 6
def fC (w : BitVec 52) : Reg := w.extractLsb' 28 6
def fFn0 (w : BitVec 52) : BitVec 8 := w.extractLsb' 20 8
def fImm20 (w : BitVec 52) : BitVec 20 := w.extractLsb' 0 20
-- Fields of F1 and F2.
def fFn1 (w : BitVec 52) : BitVec 8 := w.extractLsb' 32 8
def fImm32 (w : BitVec 52) : W32 := w.extractLsb' 0 32
-- Low parts.
def fLow (w : BitVec 52) (n : Nat) : BitVec n := w.extractLsb' 0 n
def low3 (r : Reg) : BitVec 3 := r.extractLsb' 0 3

-- The groups of R45.

def decodeAlu (w : BitVec 52) : Dec :=
  let d := fD w; let a := fA w; let b := fB w; let c := fC w
  match (fFn0 w).toNat with
  | 0x00 => .ok (.add d a b) | 0x01 => .ok (.sub d a b) | 0x02 => .ok (.mul d a b) | 0x03 => .ok (.mulh d a b)
  | 0x04 => .ok (.mulhu d a b) | 0x05 => .ok (.div d a b) | 0x06 => .ok (.divu d a b) | 0x07 => .ok (.rem d a b)
  | 0x08 => .ok (.remu d a b) | 0x10 => .ok (.and d a b) | 0x11 => .ok (.or d a b) | 0x12 => .ok (.xor d a b)
  | 0x13 => .ok (.andn d a b) | 0x18 => .ok (.shl d a b) | 0x19 => .ok (.shr d a b) | 0x1A => .ok (.sra d a b)
  | 0x1B => .ok (.rot d a b) | 0x20 => .ok (.min d a b) | 0x21 => .ok (.max d a b) | 0x22 => .ok (.minu d a b)
  | 0x23 => .ok (.maxu d a b) | 0x28 => .ok (.clz d a) | 0x29 => .ok (.popc d a) | 0x30 => .ok (.madd d a b c)
  | 0x31 => .ok (.sel d a b (low3 c)) | 0x38 => .ok (.addx d a b (c.extractLsb' 0 2))
  | _ => .error .unlistedFn

def decodeAlui (w : BitVec 52) : Dec :=
  let d := fD w; let a := fA w; let i := fImm32 w; let sh := i.extractLsb' 0 6
  match (fFn1 w).toNat with
  | 0x00 => .ok (.addi d a i) | 0x10 => .ok (.andi d a i) | 0x11 => .ok (.ori d a i) | 0x12 => .ok (.xori d a i)
  | 0x18 => .ok (.shli d a sh) | 0x19 => .ok (.shri d a sh) | 0x1A => .ok (.srai d a sh) | 0x1B => .ok (.roti d a sh)
  | 0x40 => .ok (.li d i) | 0x41 => .ok (.lih d i) | 0x42 => .ok (.liz d i)
  | _ => .error .unlistedFn

def decodeCmp (w : BitVec 52) : Dec :=
  let p := low3 (fD w); let a := fA w; let b := fB w
  match (fFn0 w).toNat with
  | 0x00 => .ok (.cmpEq p a b) | 0x01 => .ok (.cmpNe p a b) | 0x02 => .ok (.cmpLt p a b) | 0x03 => .ok (.cmpLe p a b)
  | 0x04 => .ok (.cmpLtu p a b) | 0x05 => .ok (.cmpLeu p a b)
  | 0x20 => .ok (.pand p (low3 a) (low3 b)) | 0x21 => .ok (.por p (low3 a) (low3 b))
  | 0x22 => .ok (.pxor p (low3 a) (low3 b)) | 0x23 => .ok (.pandn p (low3 a) (low3 b))
  | _ => .error .unlistedFn

def decodeCmpi (w : BitVec 52) : Dec :=
  let p := low3 (fD w); let a := fA w; let i := fImm32 w
  match (fFn1 w).toNat with
  | 0x00 => .ok (.cmpiEq p a i) | 0x01 => .ok (.cmpiNe p a i) | 0x02 => .ok (.cmpiLt p a i)
  | 0x03 => .ok (.cmpiLe p a i) | 0x04 => .ok (.cmpiLtu p a i) | 0x05 => .ok (.cmpiLeu p a i)
  | _ => .error .unlistedFn

def decodeMovx (w : BitVec 52) : Dec :=
  let d := fD w; let a := fA w; let c := fC w
  match (fFn0 w).toNat with
  | 0x00 => .ok (.mov d a) | 0x01 => .ok (.pget d) | 0x02 => .ok (.pput a)
  | 0x03 => check .badIndex (.vget d a c) | 0x04 => check .badIndex (.vput d a c) | 0x05 => .ok (.keel d)
  | _ => .error .unlistedFn

/-- BR: F2, whose A field stands where F1 has D. -/
def decodeBr (w : BitVec 52) : Dec :=
  let a := fD w; let i := fImm32 w
  match (fFn1 w).toNat with
  | 0x00 => .ok (.br i) | 0x01 => .ok (.call i) | 0x02 => .ok (.jmp a) | 0x03 => .ok (.callr a) | 0x04 => .ok (.ret a)
  | _ => .error .unlistedFn

def decodeLoop (w : BitVec 52) : Dec :=
  match (fFn1 w).toNat with
  | 0 => check .badImmediate (.loop (fD w) (fImm32 w))
  | _ => .error .unlistedFn

def decodeLoopp (w : BitVec 52) : Dec :=
  match (fFn1 w).toNat with
  | 0 => check .badImmediate (.loopp (fD w) (low3 (fA w)) (fImm32 w))
  | _ => .error .unlistedFn

def decodeLctl (w : BitVec 52) : Dec :=
  match (fFn1 w).toNat with
  | 0 => .ok .lbrk | 1 => .ok .lnext
  | _ => .error .unlistedFn

def decodeThrd (w : BitVec 52) : Dec :=
  match (fFn0 w).toNat with
  | 0 => .ok .exit | 1 => .ok .yield | 2 => .ok (.sleept (fA w)) | 3 => .ok (.sleepd (fA w))
  | _ => .error .unlistedFn

def decodeQop (w : BitVec 52) : Dec :=
  let i := fImm20 w; let q : QSel := ⟨flag i 2, i.extractLsb' 0 2⟩
  match (fFn0 w).toNat with
  | 0 => .ok (.qadv q (Count.ofFields (fA w) (i.extractLsb' 8 8))) | 1 => .ok (.qstat (fD w) q)
  | 2 => .ok (.qcfg (fA w) q) | 3 => .ok (.qclr q)
  | _ => .error .unlistedFn

def decodeStream (w : BitVec 52) : Dec :=
  let a : Reg := w.extractLsb' 46 6; let th : BitVec 4 := w.extractLsb' 42 4
  let n : Reg := w.extractLsb' 36 6; let s : Reg := w.extractLsb' 30 6; let q : BitVec 2 := w.extractLsb' 28 2
  let es4 : BitVec 4 := w.extractLsb' 24 4; let es := es4.extractLsb' 0 3
  let cnt := Count.ofFields n (fLow w 16)
  if 8 ≤ es4.toNat then .error .badSize
  else match (w.extractLsb' 16 8).toNat with
  | 0 => .ok (.ldq ⟨q, a, s, cnt, es⟩) | 1 => .ok (.stq ⟨q, a, s, cnt, es⟩)
  | 2 => .ok (.ldmq ⟨q, th, a, s, cnt, es⟩) | 3 => .ok (.stmq ⟨q, th, a, s, cnt, es⟩)
  | 4 => .ok (.ldrq ⟨q, s.extractLsb' 0 4, a, cnt, es⟩) | 5 => .ok (.strq ⟨q, s.extractLsb' 0 4, a, cnt, es⟩)
  | _ => .error .unlistedFn

def decodeLds (w : BitVec 52) : Dec :=
  let fn := fFn1 w
  if 8 ≤ fn.toNat then .error .unlistedFn
  else check .badSize (.lds ⟨fD w, fA w, fn.extractLsb' 0 2, flag fn 2, fImm32 w⟩)

def decodeSts (w : BitVec 52) : Dec :=
  let fn := fFn1 w
  if 4 ≤ fn.toNat then .error .unlistedFn
  else .ok (.sts ⟨fD w, fA w, fn.extractLsb' 0 2, fImm32 w⟩)

def decodeLdm (w : BitVec 52) : Dec := do
  let fn := fLow w 8
  let _ ← orBad .badScope (Scope.ofCode (fn.extractLsb' 1 2))
  .ok (.ldm ⟨fD w, w.extractLsb' 42 4, w.extractLsb' 36 6, w.extractLsb' 34 2, w.extractLsb' 32 2,
    w.extractLsb' 8 24, flag fn 0⟩)

def decodeStm (w : BitVec 52) : Dec := do
  let fn := fLow w 8
  let sc ← orBad .badScope (Scope.ofCode (fn.extractLsb' 1 2))
  .ok (.stm ⟨fD w, w.extractLsb' 42 4, w.extractLsb' 36 6, w.extractLsb' 34 2, w.extractLsb' 32 2,
    w.extractLsb' 8 24, if flag fn 3 then some sc else none⟩)

/-- The operand size of an atomic (R46): `some true` for 8 bytes. -/
def amoSize (c : BitVec 2) : Option Bool :=
  match c.toNat with
  | 2 => some false | 3 => some true | _ => none

def decodeAmo (w : BitVec 52) : Dec := do
  let c := fC w
  let wide ← orBad .badSize (amoSize (w.extractLsb' 22 2))
  let sc ← orBad .badScope (Scope.ofCode (w.extractLsb' 20 2))
  let f : AmoF := ⟨fD w, w.extractLsb' 16 4, fA w, fB w, wide, sc, flag w 15, flag w 14⟩
  match (w.extractLsb' 24 4).toNat with
  | 0 => .ok (.amoAdd f) | 1 => .ok (.amoMin f) | 2 => .ok (.amoMax f) | 3 => .ok (.amoMinu f) | 4 => .ok (.amoMaxu f)
  | 5 => .ok (.amoAnd f) | 6 => .ok (.amoOr f) | 7 => .ok (.amoXor f) | 8 => .ok (.amoSwap f) | 9 => .ok (.amoCas f c)
  | _ => .error .unlistedFn

def decodeAmos (w : BitVec 52) : Dec := do
  let c := fC w
  let wide ← orBad .badSize (amoSize (w.extractLsb' 22 2))
  let f : AmosF := ⟨fD w, fA w, fB w, wide, flag w 15, flag w 14⟩
  if (w.extractLsb' 20 2 : BitVec 2) ≠ 0 then .error .badScope
  else match (w.extractLsb' 24 4).toNat with
  | 0 => .ok (.amosAdd f) | 1 => .ok (.amosMin f) | 2 => .ok (.amosMax f) | 3 => .ok (.amosMinu f)
  | 4 => .ok (.amosMaxu f) | 5 => .ok (.amosAnd f) | 6 => .ok (.amosOr f) | 7 => .ok (.amosXor f)
  | 8 => .ok (.amosSwap f) | 9 => .ok (.amosCas f c)
  | _ => .error .unlistedFn

def decodeXlat (w : BitVec 52) : Dec :=
  let i := fImm20 w; let th : BitVec 4 := i.extractLsb' 0 4
  match (fFn0 w).toNat with
  | 0 => do
    let it ← orBad .badSelector (Intent.ofCode (i.extractLsb' 4 2))
    .ok (.teth th (fA w) it)
  | 1 => .ok (.trenew th) | 2 => .ok (.trel th) | 3 => .ok (.tstat (fD w) th)
  | 4 => .ok (.rprobe (fA w) (fB w) (flag i 0))
  | _ => .error .unlistedFn

/-- The fields of F5 (R122). -/
structure F5 where
  od : BitVec 8
  oa : BitVec 8
  ob : BitVec 8
  ty : ETy
  fn : BitVec 8
  rm : RM
  sat : Bool
  ha : Bool
  hb : Bool
  imm : BitVec 8
deriving DecidableEq, Repr

def F5.of (w : BitVec 52) : F5 :=
  ⟨w.extractLsb' 44 8, w.extractLsb' 36 8, w.extractLsb' 28 8, ETy.ofCode (w.extractLsb' 24 4), w.extractLsb' 16 8,
    RM.ofCode (w.extractLsb' 14 2), flag w 13, flag w 12, flag w 11, w.extractLsb' 0 8⟩

def F5.a (f : F5) : Opnd := Opnd.ofField f.ha f.oa
def F5.b (f : F5) : Opnd := Opnd.ofField f.hb f.ob

def decodeVfp (w : BitVec 52) : Dec := do
  let f := F5.of w
  let od ← orBad .badQueue (Dst.ofField f.od)
  let bin : VBin := ⟨od, f.a, f.b, f.ty, f.rm, f.sat⟩
  let un : VUn := ⟨od, f.a, f.ty, f.rm, f.sat⟩
  let m2 : VMov2 := ⟨od, f.a, f.b, f.ty⟩
  let m1 : VMov1 := ⟨od, f.a, f.ty⟩
  match f.fn.toNat with
  | 0x00 => check .badType (.vadd bin) | 0x01 => check .badType (.vsub bin) | 0x02 => check .badType (.vmul bin)
  | 0x03 => check .badType (.vfma bin) | 0x04 => check .badType (.vfnma bin)
  | 0x08 => check .badType (.vmax m2) | 0x09 => check .badType (.vmin m2)
  | 0x0A => check .badType (.vabs m1) | 0x0B => check .badType (.vneg m1) | 0x0C => check .badType (.vcpy m1)
  | 0x10 => check .badType (.vrcp un) | 0x11 => check .badType (.vrsq un) | 0x12 => check .badType (.vexp2 un)
  | 0x13 => check .badType (.vlog2 un) | 0x14 => check .badType (.vsqrt un) | 0x15 => check .badType (.vdiv bin)
  | _ => .error .unlistedFn

def decodeVint (w : BitVec 52) : Dec := do
  let f := F5.of w
  let od ← orBad .badQueue (Dst.ofField f.od)
  let ar : VIntF := ⟨od, f.a, f.b, f.ty, f.sat⟩
  let m2 : VMov2 := ⟨od, f.a, f.b, f.ty⟩
  match f.fn.toNat with
  | 0x00 => check .badType (.viadd ar) | 0x01 => check .badType (.visub ar) | 0x02 => check .badType (.vimul ar)
  | 0x10 => check .badType (.vand m2) | 0x11 => check .badType (.vor m2) | 0x12 => check .badType (.vxor m2)
  | 0x18 => check .badType (.vshl m2) | 0x19 => check .badType (.vshr m2) | 0x1A => check .badType (.vsra m2)
  | 0x20 => check .badType (.vimin m2) | 0x21 => check .badType (.vimax m2)
  | _ => .error .unlistedFn

def decodeVcmp (w : BitVec 52) : Dec :=
  let f := F5.of w
  let c : VCmpF := ⟨f.od.extractLsb' 0 3, f.a, f.b, f.ty⟩
  match f.fn.toNat with
  | 0x00 => check .badType (.vcmpEq c) | 0x01 => check .badType (.vcmpNe c) | 0x02 => check .badType (.vcmpLt c)
  | 0x03 => check .badType (.vcmpLe c) | 0x04 => check .badType (.vcmpUn c) | 0x08 => check .badType (.vcmpIeq c)
  | 0x09 => check .badType (.vcmpIlt c) | 0x0A => check .badType (.vcmpIltu c)
  | _ => .error .unlistedFn

def decodeVconv (w : BitVec 52) : Dec := do
  let f := F5.of w
  let od ← orBad .badQueue (Dst.ofField f.od)
  let src := ETy.ofCode (f.imm.extractLsb' 0 4)
  match f.fn.toNat with
  | 0x00 => check .badType (.vcvt ⟨od, f.a, f.ty, src, f.rm, f.sat⟩)
  | 0x01 => if f.ha then .error .badGroup else check .badGroup (.vqnt ⟨od, Src.ofField f.oa, f.ty, src⟩)
  | 0x02 =>
    let pni := src = .pni
    check .badGroup (.vdq ⟨od, f.a, f.b, f.ty, src, if pni then f.imm.extractLsb' 4 3 else 0,
      if pni then flag f.imm 7 else false, f.rm, f.sat⟩)
  | _ => .error .unlistedFn

def decodeVred (w : BitVec 52) : Dec := do
  let f := F5.of w
  let od ← orBad .badQueue (Dst.ofField f.od)
  match f.fn.toNat with
  | 0x00 => check .badType (.vsum ⟨od, f.a, f.ty, f.rm, f.sat⟩)
  | 0x01 => check .badType (.vrmax ⟨od, f.a, f.ty⟩) | 0x02 => check .badType (.vrmin ⟨od, f.a, f.ty⟩)
  | _ => .error .unlistedFn

def decodeVmove (w : BitVec 52) : Dec := do
  let f := F5.of w
  let od ← orBad .badQueue (Dst.ofField f.od)
  match f.fn.toNat with
  | 0x00 => check .badType (.vperm ⟨od, f.a, f.b, f.ty⟩)
  | 0x01 => check .badImmediate (.vrot ⟨od, f.a, f.ty, f.imm⟩)
  | 0x02 => check .badImmediate (.vbcast ⟨od, f.a, f.ty, f.imm⟩)
  | _ => .error .unlistedFn

def decodeVsel (w : BitVec 52) : Dec := do
  let f := F5.of w
  let od ← orBad .badQueue (Dst.ofField f.od)
  match f.fn.toNat with
  | 0x00 => check .badType (.vsel ⟨od, f.a, f.b, f.ty, f.imm.extractLsb' 0 3⟩)
  | _ => .error .unlistedFn

def decodeVldi (w : BitVec 52) : Dec :=
  let fn := fFn1 w
  if 16 ≤ fn.toNat then .error .unlistedFn
  else check .badType (.vldi (fD w) (ETy.ofCode (fn.extractLsb' 0 4)) (fImm32 w))

def decodeMma (w : BitVec 52) : Dec := do
  let aT := flag w 41; let bT := flag w 32
  let ad : Reg := w.extractLsb' 44 6; let bd : Reg := w.extractLsb' 35 6
  let af ← orBad .badFormat (MFmt.ofCode (w.extractLsb' 28 4))
  let bf ← orBad .badFormat (MFmt.ofCode (w.extractLsb' 24 4))
  let a ← match (w.extractLsb' 42 2).toNat with
    | 0 => if aT then .error .badFormat else .ok ASrc.grid
    | 1 => .ok (.desc ad aT)
    | 2 => .ok (.arrv aT)
    | _ => .error .badFormat
  let b := match (w.extractLsb' 33 2).toNat with
    | 0 => BSrc.flying bT
    | 1 => .desc bd bT
    | 2 => .spare bT
    | _ => .ver bT
  match (fLow w 8).toNat with
  | 0 => check .badPair (.mma ⟨w.extractLsb' 50 2, a, b, af, bf, w.extractLsb' 16 8, w.extractLsb' 13 3,
      flag w 10, flag w 12, flag w 11⟩)
  | _ => .error .unlistedFn

def decodeMacc (w : BitVec 52) : Dec :=
  let i := fImm20 w; let acc : BitVec 2 := i.extractLsb' 0 2
  match (fFn0 w).toNat with
  | 0 => .ok (.mzero acc) | 1 => .ok (.mlda acc (fA w)) | 2 => .ok (.msta acc (fA w)) | 3 => .ok (.mprog (fD w) acc)
  | 4 => .ok (.mrst acc (i.extractLsb' 2 18))
  | _ => .error .unlistedFn

def decodeEpi (w : BitVec 52) : Dec := do
  let i := fImm20 w
  let dest ← match (i.extractLsb' 6 2).toNat with
    | 0 => .ok (EpiDest.spad (fA w))
    | 1 => .ok (.sq (i.extractLsb' 8 2))
    | 2 => .ok .pass
    | _ => .error Illegal.badSelector
  match (fFn0 w).toNat with
  | 0 => check .badType (.epi ⟨dest, fB w, fC w, i.extractLsb' 0 2, ETy.ofCode (i.extractLsb' 2 4),
      i.extractLsb' 10 4, flag i 14, flag i 15, RM.ofCode (i.extractLsb' 16 2), flag i 18, flag i 19⟩)
  | _ => .error .unlistedFn

def decodeWave (w : BitVec 52) : Dec :=
  let i := fImm20 w; let n : BitVec 8 := i.extractLsb' 0 8; let d := fD w; let a := fA w
  match (fFn0 w).toNat with
  | 0 => .ok (.rig a n) | 1 => .ok (.unrig n) | 2 => .ok (.admitTile n a (fB w) (fC w)) | 3 => .ok (.arrv d)
  | 4 => .ok (.pass a (flag i 0)) | 5 => .ok (.meet d) | 6 => .ok (.wver d) | 7 => .ok .wswap
  | 8 => check .badSelector (.wstat d n (i.extractLsb' 8 4))
  | _ => .error .unlistedFn

def decodeSync (w : BitVec 52) : Dec :=
  let i := fImm20 w; let d := fD w; let a := fA w; let b := fB w; let c := fC w
  let th : BitVec 4 := i.extractLsb' 0 4
  match (fFn0 w).toNat with
  | 0 => do
    let s ← orBad .badScope (Scope.ofCode (i.extractLsb' 0 2))
    .ok (.phase s)
  | 1 => do
    let s ← orBad .badScope (Scope.ofCode (i.extractLsb' 0 2))
    .ok (.phaseb s)
  | 2 => check .badSelector (.fencex (i.extractLsb' 0 6) (i.extractLsb' 6 6))
  | 3 => do
    let s ← orBad .badScope (Scope.ofCode (i.extractLsb' 4 2))
    .ok (.flagset th a b s)
  | 4 => do
    let s ← orBad .badScope (Scope.ofCode (i.extractLsb' 4 2))
    let k ← orBad .badSelector (FlagCond.ofCode (i.extractLsb' 6 2))
    .ok (.flagw d th a b c s k)
  | 5 => .ok (.join d a) | 6 => .ok (.leave a) | 7 => check .badSelector (.teamq d a (i.extractLsb' 0 4))
  | _ => .error .unlistedFn

def decodeGraph (w : BitVec 52) : Dec :=
  let i := fImm20 w; let d := fD w; let a := fA w
  match (fFn0 w).toNat with
  | 0 => .ok (.glaunch d a (i.extractLsb' 0 10)) | 1 => .ok .gsig | 2 => .ok .gdone | 3 => .ok (.gadd d a)
  | 4 => check .badSelector (.gqry d a (i.extractLsb' 0 4))
  | _ => .error .unlistedFn

def decodeCopy (w : BitVec 52) : Dec :=
  let ch : BitVec 2 := fLow w 2; let d := fD w; let a := fA w; let b := fB w
  match (fFn0 w).toNat with
  | 0 => .ok (.copy d b a ch) | 1 => .ok (.copyf d b a (fC w) ch) | 2 => .ok (.cwait ch a) | 3 => .ok (.cstat d ch)
  | 4 => .ok (.cchk ch a)
  | _ => .error .unlistedFn

def decodeWin (w : BitVec 52) : Dec :=
  let i := fImm20 w; let d := fD w; let a := fA w; let b := fB w; let th : BitVec 4 := i.extractLsb' 0 4
  match (fFn0 w).toNat with
  | 0 => .ok (.wreg d th a b) | 1 => .ok (.wdereg a) | 2 => .ok (.put th a b (fC w) (i.extractLsb' 4 16))
  | 3 => do
    let s ← orBad .badSelector (WinSel.ofCode (i.extractLsb' 0 2))
    .ok (.wwait s a b)
  | 4 => do
    let s ← orBad .badSelector (WinSel.ofCode (i.extractLsb' 0 2))
    .ok (.wcnt s d a)
  | _ => .error .unlistedFn

def decodeRelay (w : BitVec 52) : Dec :=
  let e : BitVec 3 := fLow w 3; let d := fD w; let a := fA w
  match (fFn0 w).toNat with
  | 0 => .ok (.rstart a e) | 1 => .ok (.rwait a e) | 2 => .ok (.rstat d e)
  | 3 => match (fLow w 2).toNat with
    | 0 => .ok (.rarbHbm a) | 1 => .ok (.rarbLink a) | _ => .error .badSelector
  | _ => .error .unlistedFn

/-- The handle number of the opens (R47): 16 to 63 is ILLEGAL. -/
def handleField (d : Reg) : Option (BitVec 4) := if 16 ≤ d.toNat then none else some (d.extractLsb' 0 4)

def decodeMoor (w : BitVec 52) : Dec :=
  let i := fImm20 w; let d := fD w; let a := fA w; let b := fB w; let c := fC w
  match (fFn0 w).toNat with
  | 0 => do
    let h ← orBad .badIndex (handleField d)
    let m ← orBad .badSelector (HMode.ofCode (i.extractLsb' 0 2))
    .ok (.mopen h c a m)
  | 1 => do
    let h ← orBad .badIndex (handleField d)
    let m ← orBad .badSelector (HMode.ofCode (i.extractLsb' 0 2))
    .ok (.mopenw h c a b m)
  | 2 => do
    let h ← orBad .badIndex (handleField d)
    .ok (.mclose h)
  | 3 => .ok (.mbind d a b) | 4 => .ok (.munbind d a b) | 5 => check .badSelector (.mqry d a (i.extractLsb' 0 4))
  | _ => .error .unlistedFn

def decodeRel (w : BitVec 52) : Dec :=
  let i := fImm20 w
  match (fFn0 w).toNat with
  | 0 => .ok (.dropen i) | 1 => .ok .drclose | 2 => .ok (.tell (i.extractLsb' 0 4))
  | 3 => check .badSelector (.errq (fD w) (i.extractLsb' 0 4))
  | _ => .error .unlistedFn

def decodeSys (w : BitVec 52) : Dec :=
  let i := fImm20 w; let d := fD w; let a := fA w
  match (fFn0 w).toNat with
  | 0 => .ok (.trap i) | 1 => check .badSelector (.rdsys d (i.extractLsb' 0 12))
  | 2 => check .badSelector (.wrsys (i.extractLsb' 0 12) a) | 3 => .ok (.brk i)
  | 4 => .ok (.evt a (i.extractLsb' 0 16)) | 5 => .ok .rfe | 6 => .ok (.blst d)
  | _ => .error .unlistedFn

def decodePref (w : BitVec 52) : Dec :=
  .ok (.pref ⟨w.extractLsb' 42 4, w.extractLsb' 36 6, w.extractLsb' 34 2, w.extractLsb' 8 24, flag w 0⟩)

/-- The opcode map of R45: the major opcode and bits [51:0]. Bits [55:52] hold the guard. -/
def decodeBody (op : BitVec 8) (w : BitVec 52) : Dec :=
  match op.toNat with
  | 0x00 => .ok .nop
  | 0x01 => decodeAlu w | 0x02 => decodeAlui w | 0x03 => decodeCmp w | 0x04 => decodeCmpi w | 0x05 => decodeMovx w
  | 0x10 => decodeBr w | 0x11 => decodeLoop w | 0x12 => decodeLoopp w | 0x13 => decodeLctl w | 0x14 => decodeThrd w
  | 0x20 => decodeQop w | 0x21 => decodeStream w | 0x22 => decodeLds w | 0x23 => decodeSts w
  | 0x24 => decodeLdm w | 0x25 => decodeStm w | 0x26 => decodeAmo w | 0x27 => decodeAmos w | 0x30 => decodeXlat w
  | 0x40 => decodeVfp w | 0x41 => decodeVint w | 0x42 => decodeVcmp w | 0x43 => decodeVconv w | 0x44 => decodeVred w
  | 0x45 => decodeVmove w | 0x46 => decodeVsel w | 0x47 => decodeVldi w
  | 0x50 => decodeMma w | 0x51 => decodeMacc w | 0x52 => decodeEpi w | 0x58 => decodeWave w
  | 0x60 => decodeSync w | 0x61 => decodeGraph w | 0x68 => decodeCopy w | 0x69 => decodeWin w | 0x6A => decodeRelay w
  | 0x70 => decodeMoor w | 0x78 => decodeRel w | 0x79 => decodeSys w
  | 0xE0 => .ok (.xtnd (fImm32 w))
  | 0xE1 => .ok (.lane (fLow w 3) (flag w 3))
  | 0xF0 => decodePref w
  | 0xF1 => .ok (.prio (fLow w 3))
  | n => if 0xF2 ≤ n then .ok (.emptyHint op) else .ok (.undefinedOpcode op)

/-- Major opcode, bits [63:56] (R29). -/
def opcodeOf (w : Word) : BitVec 8 := w.extractLsb' 56 8

/-- The guard, bits [55:52] (R29). -/
def guardOf (w : Word) : Guard := ⟨flag w 55, w.extractLsb' 52 3⟩

/-- Bits [51:0]. -/
def bodyOf (w : Word) : BitVec 52 := w.extractLsb' 0 52

/-- What a 64-bit word stands for, or why it is ILLEGAL. -/
def decode (w : Word) : Dec := decodeBody (opcodeOf w) (bodyOf w)

-- The encoder.

def encF0 (op : BitVec 8) (fn : BitVec 8) (d a b c : Reg) (lo : BitVec 20) : Option (BitVec 8 × BitVec 52) :=
  some (op, packF0 d a b c fn lo)

def encF1 (op : BitVec 8) (fn : BitVec 8) (d a : Reg) (i : W32) : Option (BitVec 8 × BitVec 52) :=
  some (op, packF1 d a fn i)

def reg3 (p : BitVec 3) : Reg := 0#3 ++ p
def reg2 (n : BitVec 2) : Reg := 0#4 ++ n
def reg4 (n : BitVec 4) : Reg := 0#2 ++ n
def imm6 (n : BitVec 6) : W32 := 0#26 ++ n

def encBin (op fn : BitVec 8) (f : VBin) : Option (BitVec 8 × BitVec 52) :=
  some (op, packF5 f.od.field f.a.field f.b.field f.ty.code fn f.rm.code f.sat f.a.hold f.b.hold 0)
def encUn (op fn : BitVec 8) (f : VUn) : Option (BitVec 8 × BitVec 52) :=
  some (op, packF5 f.od.field f.a.field 0 f.ty.code fn f.rm.code f.sat f.a.hold false 0)
def encMov2 (op fn : BitVec 8) (f : VMov2) : Option (BitVec 8 × BitVec 52) :=
  some (op, packF5 f.od.field f.a.field f.b.field f.ty.code fn 0 false f.a.hold f.b.hold 0)
def encMov1 (op fn : BitVec 8) (f : VMov1) : Option (BitVec 8 × BitVec 52) :=
  some (op, packF5 f.od.field f.a.field 0 f.ty.code fn 0 false f.a.hold false 0)
def encVint (fn : BitVec 8) (f : VIntF) : Option (BitVec 8 × BitVec 52) :=
  some (0x41, packF5 f.od.field f.a.field f.b.field f.ty.code fn 0 f.sat f.a.hold f.b.hold 0)
def encVcmp (fn : BitVec 8) (f : VCmpF) : Option (BitVec 8 × BitVec 52) :=
  some (0x42, packF5 (0#5 ++ f.m) f.a.field f.b.field f.ty.code fn 0 false f.a.hold f.b.hold 0)
def encVimm (fn : BitVec 8) (f : VImmF) : Option (BitVec 8 × BitVec 52) :=
  some (0x45, packF5 f.od.field f.a.field 0 f.ty.code fn 0 false f.a.hold false f.n)

def encStream (fn : BitVec 8) (f : StreamF) : Option (BitVec 8 × BitVec 52) :=
  some (0x21, packF4 f.a 0 f.n.regField f.s f.q (0#1 ++ f.es) fn f.n.immField)
def encMStream (fn : BitVec 8) (f : MStreamF) : Option (BitVec 8 × BitVec 52) :=
  some (0x21, packF4 f.a f.th f.n.regField f.s f.q (0#1 ++ f.es) fn f.n.immField)
def encHStream (fn : BitVec 8) (f : HStreamF) : Option (BitVec 8 × BitVec 52) :=
  some (0x21, packF4 f.a 0 f.n.regField (reg4 f.mh) f.q (0#1 ++ f.es) fn f.n.immField)

def sizeCode (wide : Bool) : BitVec 2 := if wide then 3 else 2

def encAmo (opn : BitVec 4) (f : AmoF) (c : Reg) : Option (BitVec 8 × BitVec 52) :=
  some (0x26, f.d ++ f.a ++ f.b ++ c ++ opn ++ sizeCode f.wide ++ f.scope.code ++ f.th ++ bit f.pb ++ bit f.sp ++ 0#14)
def encAmos (opn : BitVec 4) (f : AmosF) (c : Reg) : Option (BitVec 8 × BitVec 52) :=
  some (0x27, f.d ++ f.a ++ f.b ++ c ++ opn ++ sizeCode f.wide ++ 0#2 ++ 0#4 ++ bit f.pb ++ bit f.sp ++ 0#14)

def ASrc.code : ASrc → BitVec 2
  | .grid => 0 | .desc _ _ => 1 | .arrv _ => 2
def ASrc.regField : ASrc → Reg
  | .desc r _ => r
  | _ => 0
def ASrc.tBit : ASrc → Bool
  | .grid => false | .desc _ t | .arrv t => t
def BSrc.code : BSrc → BitVec 2
  | .flying _ => 0 | .desc _ _ => 1 | .spare _ => 2 | .ver _ => 3
def BSrc.regField : BSrc → Reg
  | .desc r _ => r
  | _ => 0
def BSrc.tBit : BSrc → Bool
  | .flying t | .desc _ t | .spare t | .ver t => t

def EpiDest.code : EpiDest → BitVec 2
  | .spad _ => 0 | .sq _ => 1 | .pass => 2
def EpiDest.regField : EpiDest → Reg
  | .spad a => a
  | _ => 0
def EpiDest.qField : EpiDest → BitVec 2
  | .sq q => q
  | _ => 0

/-- IMM20 of `EPI` (R154). -/
def EpiF.imm20 (f : EpiF) : BitVec 20 :=
  bit f.watch ++ bit f.rv ++ f.rm.code ++ bit f.sat ++ bit f.deriv ++ f.act ++ f.dest.qField ++ f.dest.code ++
    f.ty.code ++ f.acc

def qImm (q : QSel) (n : BitVec 8) : BitVec 20 := 0#4 ++ n ++ 0#5 ++ bit q.store ++ q.q

/-- The opcode and bits [51:0] of an instruction, reserved fields zero (R48); none for an event, which has no word. -/
def encodeBody : Instr → Option (BitVec 8 × BitVec 52)
  | .nop => some (0x00, 0)
  | .add d a b => encF0 0x01 0x00 d a b 0 0 | .sub d a b => encF0 0x01 0x01 d a b 0 0
  | .mul d a b => encF0 0x01 0x02 d a b 0 0 | .mulh d a b => encF0 0x01 0x03 d a b 0 0
  | .mulhu d a b => encF0 0x01 0x04 d a b 0 0 | .div d a b => encF0 0x01 0x05 d a b 0 0
  | .divu d a b => encF0 0x01 0x06 d a b 0 0 | .rem d a b => encF0 0x01 0x07 d a b 0 0
  | .remu d a b => encF0 0x01 0x08 d a b 0 0 | .and d a b => encF0 0x01 0x10 d a b 0 0
  | .or d a b => encF0 0x01 0x11 d a b 0 0 | .xor d a b => encF0 0x01 0x12 d a b 0 0
  | .andn d a b => encF0 0x01 0x13 d a b 0 0 | .shl d a b => encF0 0x01 0x18 d a b 0 0
  | .shr d a b => encF0 0x01 0x19 d a b 0 0 | .sra d a b => encF0 0x01 0x1A d a b 0 0
  | .rot d a b => encF0 0x01 0x1B d a b 0 0 | .min d a b => encF0 0x01 0x20 d a b 0 0
  | .max d a b => encF0 0x01 0x21 d a b 0 0 | .minu d a b => encF0 0x01 0x22 d a b 0 0
  | .maxu d a b => encF0 0x01 0x23 d a b 0 0 | .clz d a => encF0 0x01 0x28 d a 0 0 0
  | .popc d a => encF0 0x01 0x29 d a 0 0 0 | .madd d a b c => encF0 0x01 0x30 d a b c 0
  | .sel d a b p => encF0 0x01 0x31 d a b (reg3 p) 0 | .addx d a b n => encF0 0x01 0x38 d a b (reg2 n) 0
  | .addi d a i => encF1 0x02 0x00 d a i | .andi d a i => encF1 0x02 0x10 d a i
  | .ori d a i => encF1 0x02 0x11 d a i | .xori d a i => encF1 0x02 0x12 d a i
  | .shli d a i => encF1 0x02 0x18 d a (imm6 i) | .shri d a i => encF1 0x02 0x19 d a (imm6 i)
  | .srai d a i => encF1 0x02 0x1A d a (imm6 i) | .roti d a i => encF1 0x02 0x1B d a (imm6 i)
  | .li d i => encF1 0x02 0x40 d 0 i | .lih d i => encF1 0x02 0x41 d 0 i | .liz d i => encF1 0x02 0x42 d 0 i
  | .cmpEq p a b => encF0 0x03 0x00 (reg3 p) a b 0 0 | .cmpNe p a b => encF0 0x03 0x01 (reg3 p) a b 0 0
  | .cmpLt p a b => encF0 0x03 0x02 (reg3 p) a b 0 0 | .cmpLe p a b => encF0 0x03 0x03 (reg3 p) a b 0 0
  | .cmpLtu p a b => encF0 0x03 0x04 (reg3 p) a b 0 0 | .cmpLeu p a b => encF0 0x03 0x05 (reg3 p) a b 0 0
  | .pand p a b => encF0 0x03 0x20 (reg3 p) (reg3 a) (reg3 b) 0 0
  | .por p a b => encF0 0x03 0x21 (reg3 p) (reg3 a) (reg3 b) 0 0
  | .pxor p a b => encF0 0x03 0x22 (reg3 p) (reg3 a) (reg3 b) 0 0
  | .pandn p a b => encF0 0x03 0x23 (reg3 p) (reg3 a) (reg3 b) 0 0
  | .cmpiEq p a i => encF1 0x04 0x00 (reg3 p) a i | .cmpiNe p a i => encF1 0x04 0x01 (reg3 p) a i
  | .cmpiLt p a i => encF1 0x04 0x02 (reg3 p) a i | .cmpiLe p a i => encF1 0x04 0x03 (reg3 p) a i
  | .cmpiLtu p a i => encF1 0x04 0x04 (reg3 p) a i | .cmpiLeu p a i => encF1 0x04 0x05 (reg3 p) a i
  | .mov d a => encF0 0x05 0x00 d a 0 0 0 | .pget d => encF0 0x05 0x01 d 0 0 0 0 | .pput a => encF0 0x05 0x02 0 a 0 0 0
  | .vget d g l => encF0 0x05 0x03 d g 0 l 0 | .vput g a l => encF0 0x05 0x04 g a 0 l 0
  | .keel d => encF0 0x05 0x05 d 0 0 0 0
  | .br off => encF1 0x10 0x00 0 0 off | .call off => encF1 0x10 0x01 0 0 off
  | .jmp a => encF1 0x10 0x02 a 0 0 | .callr a => encF1 0x10 0x03 a 0 0 | .ret a => encF1 0x10 0x04 a 0 0
  | .loop a off => encF1 0x11 0x00 a 0 off | .loopp a st off => encF1 0x12 0x00 a (reg3 st) off
  | .lbrk => encF1 0x13 0x00 0 0 0 | .lnext => encF1 0x13 0x01 0 0 0
  | .exit => encF0 0x14 0x00 0 0 0 0 0 | .yield => encF0 0x14 0x01 0 0 0 0 0
  | .sleept a => encF0 0x14 0x02 0 a 0 0 0 | .sleepd a => encF0 0x14 0x03 0 a 0 0 0
  | .qadv q n => encF0 0x20 0x00 0 n.regField 0 0 (qImm q n.immField)
  | .qstat d q => encF0 0x20 0x01 d 0 0 0 (qImm q 0) | .qcfg a q => encF0 0x20 0x02 0 a 0 0 (qImm q 0)
  | .qclr q => encF0 0x20 0x03 0 0 0 0 (qImm q 0)
  | .ldq f => encStream 0x00 f | .stq f => encStream 0x01 f | .ldmq f => encMStream 0x02 f
  | .stmq f => encMStream 0x03 f | .ldrq f => encHStream 0x04 f | .strq f => encHStream 0x05 f
  | .lds f => encF1 0x22 (0#5 ++ bit f.sx ++ f.sz) f.d f.a f.disp
  | .sts f => encF1 0x23 (0#6 ++ f.sz) f.d f.a f.disp
  | .ldm f => some (0x24, packF3 f.d f.th f.x f.sc f.sz f.disp (0#7 ++ bit f.sx))
  | .stm f => some (0x25, packF3 f.d f.th f.x f.sc f.sz f.disp
      (match f.pub with
       | some s => 0#4 ++ 1#1 ++ s.code ++ 0#1
       | none => 0))
  | .amoAdd f => encAmo 0 f 0 | .amoMin f => encAmo 1 f 0 | .amoMax f => encAmo 2 f 0 | .amoMinu f => encAmo 3 f 0
  | .amoMaxu f => encAmo 4 f 0 | .amoAnd f => encAmo 5 f 0 | .amoOr f => encAmo 6 f 0 | .amoXor f => encAmo 7 f 0
  | .amoSwap f => encAmo 8 f 0 | .amoCas f c => encAmo 9 f c
  | .amosAdd f => encAmos 0 f 0 | .amosMin f => encAmos 1 f 0 | .amosMax f => encAmos 2 f 0
  | .amosMinu f => encAmos 3 f 0 | .amosMaxu f => encAmos 4 f 0 | .amosAnd f => encAmos 5 f 0
  | .amosOr f => encAmos 6 f 0 | .amosXor f => encAmos 7 f 0 | .amosSwap f => encAmos 8 f 0
  | .amosCas f c => encAmos 9 f c
  | .teth th a it => encF0 0x30 0x00 0 a 0 0 (0#14 ++ it.code ++ th)
  | .trenew th => encF0 0x30 0x01 0 0 0 0 (0#16 ++ th) | .trel th => encF0 0x30 0x02 0 0 0 0 (0#16 ++ th)
  | .tstat d th => encF0 0x30 0x03 d 0 0 0 (0#16 ++ th) | .rprobe a b w => encF0 0x30 0x04 0 a b 0 (0#19 ++ bit w)
  | .vadd f => encBin 0x40 0x00 f | .vsub f => encBin 0x40 0x01 f | .vmul f => encBin 0x40 0x02 f
  | .vfma f => encBin 0x40 0x03 f | .vfnma f => encBin 0x40 0x04 f | .vmax f => encMov2 0x40 0x08 f
  | .vmin f => encMov2 0x40 0x09 f | .vabs f => encMov1 0x40 0x0A f | .vneg f => encMov1 0x40 0x0B f
  | .vcpy f => encMov1 0x40 0x0C f | .vrcp f => encUn 0x40 0x10 f | .vrsq f => encUn 0x40 0x11 f
  | .vexp2 f => encUn 0x40 0x12 f | .vlog2 f => encUn 0x40 0x13 f | .vsqrt f => encUn 0x40 0x14 f
  | .vdiv f => encBin 0x40 0x15 f
  | .viadd f => encVint 0x00 f | .visub f => encVint 0x01 f | .vimul f => encVint 0x02 f
  | .vand f => encMov2 0x41 0x10 f | .vor f => encMov2 0x41 0x11 f | .vxor f => encMov2 0x41 0x12 f
  | .vshl f => encMov2 0x41 0x18 f | .vshr f => encMov2 0x41 0x19 f | .vsra f => encMov2 0x41 0x1A f
  | .vimin f => encMov2 0x41 0x20 f | .vimax f => encMov2 0x41 0x21 f
  | .vcmpEq f => encVcmp 0x00 f | .vcmpNe f => encVcmp 0x01 f | .vcmpLt f => encVcmp 0x02 f
  | .vcmpLe f => encVcmp 0x03 f | .vcmpUn f => encVcmp 0x04 f | .vcmpIeq f => encVcmp 0x08 f
  | .vcmpIlt f => encVcmp 0x09 f | .vcmpIltu f => encVcmp 0x0A f
  | .vcvt f => some (0x43, packF5 f.od.field f.a.field 0 f.dst.code 0x00 f.rm.code f.sat f.a.hold false (0#4 ++ f.src.code))
  | .vqnt f => some (0x43, packF5 f.od.field f.a.field 0 f.dst.code 0x01 0 false false false (0#4 ++ f.src.code))
  | .vdq f => some (0x43, packF5 f.od.field f.a.field f.b.field f.dst.code 0x02 f.rm.code f.sat f.a.hold f.b.hold
      (bit f.pf ++ f.pd ++ f.src.code))
  | .vsum f => encUn 0x44 0x00 f | .vrmax f => encMov1 0x44 0x01 f | .vrmin f => encMov1 0x44 0x02 f
  | .vperm f => encMov2 0x45 0x00 f | .vrot f => encVimm 0x01 f | .vbcast f => encVimm 0x02 f
  | .vsel f => some (0x46, packF5 f.od.field f.a.field f.b.field f.ty.code 0x00 0 false f.a.hold f.b.hold (0#5 ++ f.m))
  | .vldi d ty i => encF1 0x47 (0#4 ++ ty.code) d 0 i
  | .xtnd i => some (0xE0, 0#20 ++ i) | .lane m mg => some (0xE1, 0#48 ++ bit mg ++ m)
  | .pref f => some (0xF0, packF3 0 f.th f.x f.sc 0 f.disp (0#7 ++ bit f.w))
  | .prio p => some (0xF1, 0#49 ++ p) | .emptyHint op => some (op, 0)
  | .mma f => some (0x50, packF6 f.acc f.a.regField f.a.code f.a.tBit f.b.regField f.b.code f.b.tBit f.af.code f.bf.code
      f.ks f.pd f.ck f.z f.pf 0)
  | .mzero acc => encF0 0x51 0x00 0 0 0 0 (0#18 ++ acc) | .mlda acc a => encF0 0x51 0x01 0 a 0 0 (0#18 ++ acc)
  | .msta acc a => encF0 0x51 0x02 0 a 0 0 (0#18 ++ acc) | .mprog d acc => encF0 0x51 0x03 d 0 0 0 (0#18 ++ acc)
  | .mrst acc off => encF0 0x51 0x04 0 0 0 0 (off ++ acc)
  | .epi f => encF0 0x52 0x00 0 f.dest.regField f.b f.c f.imm20
  | .rig a n => encF0 0x58 0x00 0 a 0 0 (0#12 ++ n) | .unrig n => encF0 0x58 0x01 0 0 0 0 (0#12 ++ n)
  | .admitTile n a b c => encF0 0x58 0x02 0 a b c (0#12 ++ n) | .arrv d => encF0 0x58 0x03 d 0 0 0 0
  | .pass a up => encF0 0x58 0x04 0 a 0 0 (0#19 ++ bit up) | .meet d => encF0 0x58 0x05 d 0 0 0 0
  | .wver d => encF0 0x58 0x06 d 0 0 0 0 | .wswap => encF0 0x58 0x07 0 0 0 0 0
  | .wstat d n s => encF0 0x58 0x08 d 0 0 0 (0#8 ++ s ++ n)
  | .phase s => encF0 0x60 0x00 0 0 0 0 (0#18 ++ s.code) | .phaseb s => encF0 0x60 0x01 0 0 0 0 (0#18 ++ s.code)
  | .fencex a b => encF0 0x60 0x02 0 0 0 0 (0#8 ++ b ++ a)
  | .flagset th a b s => encF0 0x60 0x03 0 a b 0 (0#14 ++ s.code ++ th)
  | .flagw d th a b c s k => encF0 0x60 0x04 d a b c (0#12 ++ k.code ++ s.code ++ th)
  | .join d a => encF0 0x60 0x05 d a 0 0 0 | .leave a => encF0 0x60 0x06 0 a 0 0 0
  | .teamq d a s => encF0 0x60 0x07 d a 0 0 (0#16 ++ s)
  | .glaunch d a q => encF0 0x61 0x00 d a 0 0 (0#10 ++ q) | .gsig => encF0 0x61 0x01 0 0 0 0 0
  | .gdone => encF0 0x61 0x02 0 0 0 0 0 | .gadd d a => encF0 0x61 0x03 d a 0 0 0
  | .gqry d a s => encF0 0x61 0x04 d a 0 0 (0#16 ++ s)
  | .copy d b a ch => encF0 0x68 0x00 d a b 0 (0#18 ++ ch) | .copyf d b a c ch => encF0 0x68 0x01 d a b c (0#18 ++ ch)
  | .cwait ch a => encF0 0x68 0x02 0 a 0 0 (0#18 ++ ch) | .cstat d ch => encF0 0x68 0x03 d 0 0 0 (0#18 ++ ch)
  | .cchk ch a => encF0 0x68 0x04 0 a 0 0 (0#18 ++ ch)
  | .wreg d th a b => encF0 0x69 0x00 d a b 0 (0#16 ++ th) | .wdereg a => encF0 0x69 0x01 0 a 0 0 0
  | .put th a b c wid => encF0 0x69 0x02 0 a b c (wid ++ th)
  | .wwait s a b => encF0 0x69 0x03 0 a b 0 (0#18 ++ s.code) | .wcnt s d a => encF0 0x69 0x04 d a 0 0 (0#18 ++ s.code)
  | .rstart a e => encF0 0x6A 0x00 0 a 0 0 (0#17 ++ e) | .rwait a e => encF0 0x6A 0x01 0 a 0 0 (0#17 ++ e)
  | .rstat d e => encF0 0x6A 0x02 d 0 0 0 (0#17 ++ e)
  | .rarbHbm a => encF0 0x6A 0x03 0 a 0 0 0 | .rarbLink a => encF0 0x6A 0x03 0 a 0 0 1
  | .mopen h c a m => encF0 0x70 0x00 (reg4 h) a 0 c (0#18 ++ m.code)
  | .mopenw h c a b m => encF0 0x70 0x01 (reg4 h) a b c (0#18 ++ m.code)
  | .mclose h => encF0 0x70 0x02 (reg4 h) 0 0 0 0
  | .mbind d a b => encF0 0x70 0x03 d a b 0 0 | .munbind d a b => encF0 0x70 0x04 d a b 0 0
  | .mqry d a s => encF0 0x70 0x05 d a 0 0 (0#16 ++ s)
  | .dropen off => encF0 0x78 0x00 0 0 0 0 off | .drclose => encF0 0x78 0x01 0 0 0 0 0
  | .tell n => encF0 0x78 0x02 0 0 0 0 (0#16 ++ n) | .errq d s => encF0 0x78 0x03 d 0 0 0 (0#16 ++ s)
  | .trap c => encF0 0x79 0x00 0 0 0 0 c | .rdsys d r => encF0 0x79 0x01 d 0 0 0 (0#8 ++ r)
  | .wrsys r a => encF0 0x79 0x02 0 a 0 0 (0#8 ++ r) | .brk c => encF0 0x79 0x03 0 0 0 0 c
  | .evt a c => encF0 0x79 0x04 0 a 0 0 (0#4 ++ c) | .rfe => encF0 0x79 0x05 0 0 0 0 0
  | .blst d => encF0 0x79 0x06 d 0 0 0 0
  | .undefinedOpcode op => some (op, 0)
  | _ => none

/-- The word of an instruction under a guard; none for an event. -/
def encode (g : Guard) (i : Instr) : Option Word :=
  (encodeBody i).map fun p => p.1 ++ bit g.pn ++ g.pr ++ p.2

/-- What the decoder reads from an instruction of `nbits` bits numbered as spec/opcode_table.json numbers them, the
bits above them zero; one 64-bit word is the longest instruction (R29). -/
def decodeTableWord (nbits w : Nat) : Option Instr :=
  match decode (BitVec.ofNat 64 (w % 2 ^ nbits)) with
  | .ok i => some i
  | .error _ => none

end Sys2Proof
end

