-- ==== Sys2Proof/Config.lean ====
section
/-! DEFINITION. What the device fixes once (sizes, limits) and the FREE VALUES: constants without a body, so that
nothing proved here can rest on the value the manual leaves open. -/

namespace Sys2Proof.Config

/-- Scratchpad bytes per cell (R77, R231). -/
def spadBytes : Nat := 0x180000

/-- Bytes of one weight bank (R235). -/
def bankBytes : Nat := 0x200000

/-- Lease-cache entries per cell (R256). -/
def leaseEntries : Nat := 512

/-- The horizon limit of R174, in ns. -/
def horizonLimit : Nat := 2 ^ 20

/-- Ready-pool entries (R218). -/
def poolEntries : Nat := 4096

/-- Change records a partition may hold (R268). -/
def changeRecords : Nat := 4096

/-- Limits of names and objects in a partition (R281). -/
def dirLimit : Nat := 1048576

/-- FREE VALUE (log 10): which of several possible internal steps happens next. -/
opaque schedule : Nat → Nat

/-- FREE VALUE (log 11): which of the free contexts allowed by its placement a node takes (R219). -/
opaque placement : Nat → Nat

/-- FREE VALUE (log 13): the publish stamp's Keel the device chooses for a write of class X, R or H (R243), as a delay in
ns after the write. -/
opaque publishDelay : Nat → Nat

/-- FREE VALUE (log 14): the RSASSA-PSS check, against the fused key, of a signature over the first 80 bytes of a firmware image's
trailer (R409): those bytes, the signature. -/
opaque imageSigned : List Byte → List Byte → Bool

/-- FREE VALUE (log 14): SHA-512 of a list of bytes (R409, R410 name the function and do not define it). -/
opaque sha512 : List Byte → BitVec 512

/-- FREE VALUE (log 14): the device's RSA-4096 signature over an attestation (R410). -/
opaque attestSign : List Byte → List Byte

/-- FREE VALUE (log 14): the security version number fused in the part when it is built (R409). -/
opaque fusedMinimum : Nat

/-- FREE VALUE (log 14): the check of the signature of a request to raise the fused minimum (R409): the new minimum, the signature. -/
opaque requestSigned : Nat → List Byte → Bool

/-- FREE VALUE (log 37): whether the trace port takes a record (R404). -/
opaque traceTakes : Nat → Bool

/-- FREE VALUE (log 15): which value an element takes that a relay step's overlapping output may or may not have
replaced before it is read (R368), or a granule of an overlapped copy (R308). `true` takes the old value. -/
opaque overlapOld : Nat → Bool

/-- FREE VALUE (log 15): the turn in which an element of a relay step is read and written where its output overlaps an input (R368). -/
opaque overlapTurn : Nat → Nat → Nat

/-- FREE VALUE (log 20): whether a read of a scratchpad or bank granule shows a write of another class that nothing orders before
it (R235, R245), by choice, granule and position of the write. -/
opaque showsLate : Nat → Nat → Nat → Bool

/-- FREE VALUE (log 20): how many unordered writes of other classes a write to a granule lands before (R245). -/
opaque landsBefore : Nat → Nat → Nat

/-- FREE VALUE (log 50): the index of an object's record in the directory (R283, R395). -/
opaque recordIndex : Nat → BitVec 20

/-- FREE VALUE (log 42): where a device in recovery shows its status word to the host, and the word for a failure by its code (R407). -/
opaque statusAddr : Nat
opaque statusWord : Nat → Word

/-- FREE VALUE (log 42): whether root firmware grants a request of service firmware (R408). -/
opaque mailboxGrants : Nat → Bool

/-- FREE VALUE (log 62): the port that root firmware of the Keel root has made this device's upstream port; none on the root (R359). -/
opaque upstream : Option Nat

/-- FREE VALUE (log 16): the firmware images the package flash holds when the part is built (R407). -/
opaque factoryImage : Bool → List Byte

/-- FREE VALUE (log 17): the bytes of a peer's window counter page that a load of the thread finds (R362): ARRIVED and the
window length of a block, for each read. -/
opaque peerArrived : Nat → Nat → BitVec 48
opaque peerLength : Nat → Nat → BitVec 64

/-- FREE VALUE (log 18): the launch id in the kind-4 record of a failed COPYREQ, which is part of no launch (R388). -/
opaque copyreqId : Nat → Word

end Sys2Proof.Config
end

