-- ==== Sys2Proof/Machine/State.lean ====
section
/-! DEFINITION. The state of the machine as plain data: every context, cell, engine, queue, table and memory that the
manual names (INVENTORY.md, State), the outcome types, and the state after reset. Default values are the reset values. -/

namespace Sys2Proof.Machine

/-- Reasons a run can end. -/
inductive Fault where
  /-- Raised by `step` alone: the device is in recovery (R407), the Keel does not run and no input waits. Safe. -/
  | inRecovery
deriving DecidableEq, Repr

/-- Reasons an instruction is not executed. -/
inductive Refusal where
  /-- Raised by an arm of `exec` whose instruction has no meaning in the model. Safe. -/
  | notModelled (mnemonic : String)
deriving DecidableEq, Repr

/-- A stamp (R165). Keel values are natural numbers of ns. -/
structure Stamp where
  keel : Nat := 0
  src : Nat := 0
deriving DecidableEq, Repr

/-- The units of R13. -/
inductive Unit4 where
  | c | a | e | t
deriving DecidableEq, Repr

/-- One slot of a queue (R22, R26): `crc` is the sideband of R153 and the PC of the `EPI` that wrote it (R336). -/
structure Slot where
  data : Row := 0
  fin : Bool := false
  crc : Option (W32 × Nat × Word) := none
  poison : Bool := false
  /-- the Keel from which an access-unit consumer sees the slot as filled (R24) -/
  at_ : Nat := 0
deriving DecidableEq, Repr

/-- A load or store queue (R22 to R26, R75). `popped` counts the slots consumed: the head is physical slot `popped mod 8`.
`prods` are the tickets of the dispatched producers, in dispatch order (R25). -/
structure Queue where
  slots : List Slot := []
  popped : Nat := 0
  depth : Nat := 8
  prods : List Nat := []
  /-- one more than the Keel of the last pops, and how many slots they freed (R136) -/
  pops : Nat × Nat := (0, 0)
deriving DecidableEq, Repr

/-- An operand hold latch that is not empty (R37): `org` is the queue and the absolute slot it was read from. -/
structure Latch where
  row : Row
  org : Option (BitVec 2 × Nat) := none
deriving DecidableEq, Repr

/-- An accumulator (R148). `steps` are the K-steps since its last `MRST` or zeroing (R346). -/
structure Acc where
  rows : Vector Row 48 := Vector.replicate 48 0
  prog : Nat := 0
  cnt : Nat := 0
  begun : Bool := false
  restart : Option Word := none
  steps : Nat := 0
deriving DecidableEq, Repr

/-- STAT of a tether (R258). -/
inductive TStat where
  | ok | miss | noperm | skewed | released | none | stale
deriving DecidableEq, Repr

/-- A tether (R258). -/
structure Tether where
  vanc : Word := 0
  pbase : Nat := 0
  sz : BitVec 2 := 0
  gen : BitVec 16 := 0
  w : Bool := false
  x : Bool := false
  lc : BitVec 2 := 0
  ord : Bool := false
  cnt : Bool := false
  exp : Nat := 0
  stat : TStat := .none
  rdenied : Bool := false
  rpend : Bool := false
  /-- the Keel by which the renewal is answered; 0 where the device does not bound it (R262) -/
  rdue : Nat := 0
deriving DecidableEq, Repr

/-- A mooring handle (R283): `lrec` is LREC, the index of the object's copy of its layout record (R395). -/
structure Handle where
  isOpen : Bool := false
  obj : Nat := 0
  lrec : Nat := 0
  vers : W32 := 0
  mode : BitVec 2 := 0
  stamp : Stamp := {}
deriving DecidableEq, Repr

/-- An entry of the loop stack (R64): `stages` is S - 1 of a `LOOPP`. -/
structure LoopE where
  start : Word
  last : Word
  count : Nat
  id : BitVec 12
  stages : Option Nat := none
  /-- the count it began with (R404) -/
  total : Nat := 0
deriving DecidableEq, Repr

/-- Scalars, predicates, RRB and loop stack as a drogue entry or `ARRV` keeps them (R334, R208). -/
structure Snap where
  regs : Vector Word 64 := Vector.replicate 64 0
  preds : BitVec 8 := 1
  rrb : BitVec 4 := 0
  loops : List LoopE := []
  pc : Word := 0
deriving DecidableEq, Repr

/-- An entry of the drogue stack (R334). -/
structure DrogueE where
  handler : Word
  snap : Snap
  depth : Nat
deriving DecidableEq, Repr

/-- `LANE` (R44): merge bit and mask number. -/
structure LaneP where
  merge : Bool
  m : BitVec 3
deriving DecidableEq, Repr

/-- A dispatch buffer entry (R16, R68): the instruction, its word, PC and prefixes, RRB and the scalars as captured, and
the horizon of its phase. `wake` is the transfer a `COPYF` follow-on waits for (R316); `prog` the rows or slots done. -/
structure Entry where
  id : Nat
  instr : Instr
  word : Word
  pc : Word
  xtnd : Option W32 := none
  lane : Option LaneP := none
  rrb : BitVec 4 := 0
  capt : List (Reg × Word) := []
  wboff : BitVec 18 := 0
  rvm : BitVec 48 := 0
  hzn : Stamp := {}
  phase : Nat := 0
  wake : Option (Nat × Nat) := none
  prog : Nat := 0
  /-- the bias row an `EPI` read as it began (R160) -/
  bias : Option Row := none
  /-- the first Keel at which it may issue on its unit (R16) -/
  at_ : Nat := 0
  /-- nothing answers its access: the Keel at which the device completes it with poison (R240); 0 for none -/
  lateAt : Nat := 0
deriving DecidableEq, Repr

/-- An active stream (R80): its entry (whose `prog` counts the rows moved), base, stride and count. -/
structure Stream where
  ent : Entry
  base : Word
  stride : Word
  count : Nat
deriving DecidableEq, Repr

/-- A memory load whose data have not landed (R18, R83): its entry, the value read when it was performed, the bound of its class and
the Keel by which it lands (R240); `late` where nothing answers it. -/
structure PLoad where
  ent : Entry
  dest : Reg
  value : Word
  poison : Bool := false
  due : Nat := 0
  bound : Nat := 0
  late : Bool := false
deriving DecidableEq, Repr

/-- A prefix chain being issued (R42): its first word's PC and the prefixes seen. -/
structure Pfx where
  pc0 : Word
  xtnd : Option W32 := none
  lane : Option LaneP := none
deriving DecidableEq, Repr

/-- A wait (R405): when it began, its deadline as a Keel value, KIND, and ID; the last value a `FLAGW` read; and, when its
condition has ended and only its boundary is to come, its SETTER and OUTCOME. `mark` are the writes to the word that a `FLAGW` has
read (R181); `idle` says that a stop has ended the wait and the instruction has not been issued again. -/
structure Wait where
  since : Nat := 0
  deadline : Option Nat := none
  kind : Nat := 0
  obj : Nat := 0
  last : Option Word := none
  mark : List Nat := []
  ended : Option (Nat × Nat) := none
  idle : Bool := false
deriving DecidableEq, Repr

/-- The tag of a wavefront (R188), with its direction. -/
structure Tag where
  kind : BitVec 3 := 0
  mb : BitVec 16 := 0
  ver : BitVec 8 := 0
  mask : BitVec 48 := 0
  up : Bool := false
deriving DecidableEq, Repr

/-- The current arrival of a handler (R191, R202). -/
structure Arrival where
  str : Nat
  pos : Nat
  slot : Nat
  addr : Nat
  tag : Tag
  passed : Bool := false
  meet : Option Nat := none
deriving DecidableEq, Repr

/-- Unit state parked by a trap (R330). -/
structure Parked where
  a : List Entry := []
  e : List Entry := []
  t : List Entry := []
  streams : List Stream := []
  wait : Option Wait := none
  /-- the deadline of a sleep that the trap interrupted (R74) -/
  sleep : Option Nat := none
  /-- the entry or stream that raised the cause (R339) -/
  fault : Option Nat := none
deriving DecidableEq, Repr

/-- The record `ERRQ` reads (R344). -/
structure ErrRec where
  cause : BitVec 8 := 0
  unit : BitVec 2 := 0
  depth : Nat := 0
  pc : Word := 0
  prodPc : Word := 0
  keel : Nat := 0
deriving DecidableEq, Repr

/-- A slot of a queue that a waiting `GLAUNCH` at `pc` has claimed, and the packet it read (R226, R386). -/
structure Claim where
  pc : Word
  queue : Nat
  slot : Nat
  lid : Nat
  pkt : List Byte
deriving DecidableEq, Repr

/-- What a context is doing: `stopped` is stopped for pre-emption (R347). -/
inductive Status where
  | free | run | sleeping | halted | frozen | attached | stopped
deriving DecidableEq, Repr

/-- A thread context (R12) with the registers of R397. -/
structure Ctx where
  status : Status := .free
  /-- what a halted or stopped context goes on as: running or sleeping -/
  resumeTo : Status := .run
  pc : Word := 0
  regs : Vector Word 64 := Vector.replicate 64 0
  preds : BitVec 8 := 1
  masks : Vector (BitVec 48) 8 := Vector.replicate 8 0
  grid : Vector Row 48 := Vector.replicate 48 0
  latchA : Option Latch := none
  latchB : Option Latch := none
  lqs : Vector Queue 4 := Vector.replicate 4 {}
  sqs : Vector Queue 4 := Vector.replicate 4 {}
  accs : Vector Acc 4 := Vector.replicate 4 {}
  teths : Vector Tether 16 := Vector.replicate 16 {}
  mhs : Vector Handle 16 := Vector.replicate 16 {}
  loops : List LoopE := []
  rrb : BitVec 4 := 0
  drogue : List DrogueE := []
  cur : Option Arrival := none
  snap : Option Snap := none
  bufA : List Entry := []
  bufE : List Entry := []
  bufT : List Entry := []
  streams : List Stream := []
  loads : List PLoad := []
  parked : Option Parked := none
  tvec : Word := 0
  epc : Word := 0
  tval : Word := 0
  cause : Word := 0
  tstate : BitVec 4 := 0
  xfault : Word := 0
  nflags : BitVec 3 := 0
  hzn : Stamp := {}
  aged : Bool := false
  wboff : BitVec 18 := 0
  rvm : BitVec 48 := 0xFFFFFFFFFFFF#48
  wcommit : BitVec 27 := 0
  drhint : Word := 0
  prio : BitVec 3 := 0
  ceiling : BitVec 3 := 7
  team : Option Nat := none
  node : Option Nat := none
  phase : Nat := 0
  /-- one more than the Keel of the last boundary (R165); 0 before the first -/
  lastB : Nat := 0
  pfx : Option Pfx := none
  wait : Option Wait := none
  /-- waits of entries and streams, by entry number (R405) -/
  qwaits : List (Nat × Wait) := []
  /-- the sleep deadline of `SLEEPT`, `SLEEPD` (R74) -/
  wakeAt : Nat := 0
  /-- 1: has arrived at `PHASEB`; 2: its episode has been released (R179) -/
  arrived : Nat := 0
  err : ErrRec := {}
  unwinds : Nat := 0
  /-- copies issued and not known complete: channel and id (R227); `true` if issued in the current handler (R191) -/
  copies : List (Nat × Nat × Bool) := []
  /-- `PUT`s issued: outbound id and issue number (R227) -/
  puts : List (Nat × Nat) := []
  /-- failed transfers to deliver at a `CWAIT`, `CCHK`, `GDONE` or follow-on: channel, id, failure code, row (R310) -/
  deliver : List (Nat × Nat × Nat × Nat) := []
  /-- pre-emption in progress: 1 drain, 2 discard, 3 save (R345) -/
  preempt : Nat := 0
  /-- one more than the Keel of the last failed attempt to issue, per unit; 0 for none -/
  tried : Nat × Nat × Nat × Nat := (0, 0, 0, 0)
  /-- the word at the PC, where it has taken its issue slot and waits at the control core (R168) -/
  busy : Option Word := none
  /-- store streams that wrote their last row: one more than the Keel, and how many (R88) -/
  ended : Nat × Nat := (0, 0)
  /-- the next issue matches no breakpoint (R403) -/
  bpSkip : Bool := false
  /-- a `STEP` is in progress (R401); a HALT waits for a kernel-iteration boundary (R70) -/
  stepping : Bool := false
  haltWait : Bool := false
  bpWait : Option (BitVec 2) := none
  /-- an error waits in the second datapath of its K-steps (R152, R333) -/
  checkErr : Bool := false
  claims : List Claim := []
  /-- the model's own: the instruction at the control core, and the head of the access buffer, wait for a publishing event of a scope,
  which takes effect in the first cycle in which it can (R168) -/
  pubWait : Option Scope × Option Scope := (none, none)
  /-- nothing answers the access of the instruction that waits at the control core: as `Entry.lateAt` (R240) -/
  lateAt : Nat := 0
  /-- one more than the Keel at which the thread last took a trap or an unwind (R328) -/
  causeAt : Nat := 0
deriving DecidableEq, Repr

/-- A lease in a cell's cache (R255, R256): `count` is the access count of R274, `leaf` the PA of the leaf, `pin` the threads whose
`RPROBE` has pinned it. -/
structure Lease where
  va : Nat
  sz : BitVec 2
  pbase : Nat
  gen : BitVec 16
  w : Bool
  x : Bool
  lc : BitVec 2
  ord : Bool
  cnt : Bool
  exp : Nat
  leaf : Nat
  count : Nat := 0
  pin : List Nat := []
  used : Nat := 0
deriving DecidableEq, Repr

/-- A cell: bank roles and tags (R192), lease cache (R256), error counts (R344), region owners (R348: region 0 to 23 of the
scratchpad, 24 and 25 the two banks; an owner is a team key), arbitration (R14, R17) and the reloads still to come. -/
structure CellSt where
  second : Bool := false
  verF : BitVec 8 := 0
  verS : BitVec 8 := 0
  valF : Bool := false
  valS : Bool := false
  leases : List Lease := []
  corrected : Word := 0
  consumed : Word := 0
  owners : List (Nat × Nat) := []
  reload : List (Nat × Nat × Nat) := []
  rr : Nat × Nat × Nat × Nat := (3, 3, 3, 3)
  /-- one more than the Keel of the last issue, per unit -/
  last : Nat × Nat × Nat × Nat := (0, 0, 0, 0)
  /-- the Keel at which the access unit has a row cycle free, and the stream whose row moved last, by thread and number (R80) -/
  rowAt : Nat := 0
  rowLast : Nat × Nat := (0, 0)
deriving DecidableEq, Repr

/-- A write to one 64-byte granule of a scratchpad or bank that some access class need not see yet (R245): its bytes from `off`,
its class (the mask bit of R242), the thread or channel that caused it and that thread's node. `seen` are the classes whose
accesses see it (R247), `seers` the agents that see it. -/
structure LateW where
  off : Nat
  bytes : List Byte
  cls : Nat
  src : Nat
  node : Option Nat := none
  seen : BitVec 6 := 0
  seers : List Nat := []
deriving DecidableEq, Repr

/-- A granule with such writes, oldest first: its bytes before them. -/
structure Gran where
  base : List Byte
  ws : List LateW
deriving DecidableEq, Repr

/-- A store, atomic, flag write or device write to memory (R171, R172, R174, R243). `pubs` are its publications, narrowest
first, each a scope and a stamp; `src` is the thread or agent, `part` its partition, `cell` its cell. `own` is the phase of a
thread's store; `due` the Keel at which its lease ends (R270). -/
structure Ver where
  cells : List Host.Cell
  src : Nat
  part : Nat
  cell : Nat
  seq : Nat
  own : Nat
  pubs : List (Scope × Stamp) := []
  done : Bool := true
  due : Nat := 0
  /-- the Keel by which a store not yet performed is, the bound of its class, and whether nothing answers it (R240) -/
  perf : Nat := 0
  bound : Nat := 0
  lost : Bool := false
  /-- the tether through which the thread stored (R270) -/
  th : Option (BitVec 4) := none
  /-- where the store stands in the thread's program order: the number of its entry, for the control core the next number (R170) -/
  prog : Nat := 0
  /-- acts at memory: an atomic, a flag write or a store of an ORD page (R172, R173) -/
  atm : Bool := false
  /-- a store of an ORD page: every later load sees it (R173) -/
  ord : Bool := false
  /-- a line of a host page that the device does not hold writable (R239) -/
  away : Bool := false
  /-- its publish-buffer entry has merged (R174) -/
  merged : Bool := false
  /-- poisoned 32-byte granules of the entry (R333) -/
  psn : List Nat := []
  /-- the causing thread of a class X or R write, and its class mask bit (R242) -/
  by_ : Option (Nat × Nat) := none
  /-- the graph node that a class X or R write works for (R224) -/
  work : Option Nat := none
  /-- its thread has ended -/
  dead : Bool := false
deriving DecidableEq, Repr

/-- An open barrier episode (R178). -/
structure Episode where
  waiting : List Nat
  arrived : List Nat
deriving DecidableEq, Repr

/-- A team (R164): members as (index, source). -/
structure Team where
  part : Nat
  id : Nat
  members : List (Nat × Nat)
  done : Nat := 0
  ep : Option Episode := none
deriving DecidableEq, Repr

/-- A tile in flight or kept (R188, R189, R198). -/
structure Tile where
  tag : Tag
  bytes : List Byte
  crcs : List W32
deriving DecidableEq, Repr

/-- A tile in a link buffer with the position and retain slot that keep it. -/
structure Flight where
  tile : Tile
  frm : Nat
  keep : Nat
deriving DecidableEq, Repr

/-- An arrival in an inbox slot, in delivery order (R190); `at_` is the Keel at which its last row was written. -/
structure Inbox where
  slot : Nat
  fl : Flight
  at_ : Nat := 0
  current : Bool := false
deriving DecidableEq, Repr

/-- A meet entry (R210). -/
structure MeetE where
  idx : Nat
  mb : BitVec 16
  bound : Bool := false
  crcs : List W32 := []
deriving DecidableEq, Repr

/-- One position of a string (R186): retained tiles as (slot, tile); link buffers into this cell. -/
structure Pos where
  cell : Nat
  slot : Nat
  inbox : Nat
  retain : Nat
  meetb : Nat
  box : List Inbox := []
  meets : List MeetE := []
  kept : List (Nat × Tile) := []
  linkDown : List Flight := []
  linkUp : List Flight := []
  meetDup : Bool := false
  /-- its handler thread has ended: what runs in the context later is no handler -/
  gone : Bool := false
deriving DecidableEq, Repr

/-- The header of a rig record (R185). -/
structure RigHdr where
  n : Nat
  ni : Nat
  nr : Nat
  nm : Nat
  tr : Nat
  rb : Nat
  rp : Nat
  rot : Nat
  v0 : BitVec 8
  tpitch : Nat
  adm : Nat
  ltrip : Nat
  mbmax : Nat
deriving DecidableEq, Repr

/-- A rigged string (R184, R192, R213): `frozen` are the threads that froze it (R200). -/
structure Str where
  part : Nat
  id : Nat
  hdr : RigHdr
  pos : List Pos
  u : BitVec 8
  liveCur : Nat := 0
  livePrev : Nat := 0
  mbc : Nat := 0
  marksDown : Nat := 0
  marksUp : Nat := 0
  team : Option Nat
  rigger : Nat
  frozen : List Nat := []
deriving DecidableEq, Repr

/-- A node record (R215). -/
structure NodeRec where
  kind : Nat
  pri : Nat
  tclass : Nat
  tsize : Nat
  target : Nat
  preds : Nat
  entry : Word
  arg : Word
  deadline : Nat
  ops : List (Word × Nat)
  succ : List Nat
deriving DecidableEq, Repr

/-- A node of the ready pool (R218 to R224). `state` is that of R229. -/
structure Node where
  idx : Nat
  rec_ : NodeRec
  rem : Nat
  state : Nat := 0
  threads : List Nat := []
  fin : List Nat := []
  sigd : List Nat := []
  released : Bool := false
  /-- it released its successors by signal (R224) -/
  signalled : Bool := false
  doneAt : Nat := 0
  /-- the Keel at which it was admitted or last released by a predecessor: it is dispatched later -/
  relAt : Nat := 0
  /-- the Keel since which it is ready and an engine of its kind free (R219) -/
  freeFrom : Option Nat := none
  /-- failure code of a COPY or RELAY node (R219) -/
  code : Nat := 0
  held : List Nat := []
  team : Option Nat := none
  xfer : Option (Nat × Nat) := none
  /-- copies and `PUT`s that threads ended by `EXIT` still owe (R222): source, copies, `PUT`s -/
  owed : List (Nat × List (Nat × Nat) × List (Nat × Nat)) := []
deriving DecidableEq, Repr

/-- A launch (R216, R217). -/
structure Launch where
  id : Nat
  part : Nat
  queue : Nat
  flag : Option (Word × Word)
  nodes : List Node
  ended : Bool := false
deriving DecidableEq, Repr

/-- A user queue: control block, notify page, mapper and scheduler state (R385 to R391). -/
structure UQueue where
  base : Nat := 0
  len : Nat := 0
  weight : Nat := 0
  ceiling : BitVec 3 := 0
  deficit : Int := 0
  waitFrom : Option Nat := none
  slot : Option Nat := none
  widx : Nat := 0
  ridx : Nat := 0
  look : Bool := false
  seq : Nat := 0
  fence : List Nat := []
  slicing : Bool := false
  /-- a launch packet taken and not yet admitted (R218) -/
  hand : Option (List Byte) := none
  /-- launch ids that `GLAUNCH` gave to slots it claimed, until they are taken (R226) -/
  ids : List (Nat × Nat) := []
deriving DecidableEq, Repr

/-- A lease that an engine holds for an endpoint (R311): the page, its physical base, write permission, expiry and length. -/
structure Held where
  ep : Nat
  va : Nat
  sz : BitVec 2
  pbase : Nat
  w : Bool
  exp : Nat
  len : Nat
deriving DecidableEq, Repr

/-- A transfer (R308): its packet, rows moved and bytes of the row moved, and the bank roles resolved when it began (R303).
`by_` is the causing thread, `node` the COPY node's id, `work` the node it works for, that of its thread or its own (R245), `obj` the
object a GATHER opened, `code` the failure found and `chk` the
check block; `old` are the source rows as they stood at its start where source and destination overlap (R308). -/
structure Xfer where
  id : Nat
  pkt : List Byte
  row : Nat := 0
  off : Nat := 0
  begun : Bool := false
  secS : Bool := false
  secD : Bool := false
  by_ : Option Nat := none
  node : Option Nat := none
  work : Option Nat := none
  obj : Option Nat := none
  follow : Bool := false
  code : Nat := 0
  chk : List Byte := []
  old : List (List Byte) := []
  /-- the model's own: its choice of old or new where they overlap -/
  seed : Nat := 0
deriving DecidableEq, Repr

/-- What the device knows of a claimed transfer: the causing thread, the node, and whether a `COPYF` reserved a follow-on. -/
structure Sub where
  id : Nat
  by_ : Option Nat
  node : Option Nat
  work : Option Nat := none
  follow : Bool
deriving DecidableEq, Repr

/-- A copy channel (R300, R306 to R308). `early` are ids complete above CDONE, `proms` the recorded promises, `fails` the
failure codes of transfers with a follow-on, `taken` the next id the engine takes. -/
structure Chan where
  base : Nat := 0
  len : Nat := 0
  widx : Nat := 0
  done : Nat := 0
  failId : Nat := 0
  failV : Bool := false
  failCode : Nat := 0
  prom : Nat := 0
  proms : List (Nat × Nat) := []
  look : Bool := false
  cur : Option Xfer := none
  shadow : Option Xfer := none
  subs : List Sub := []
  taken : Nat := 0
  early : List Nat := []
  fails : List (Nat × Nat) := []
  held : Bool := false
  /-- how long the thread of its transfer has stood halted with HALTENG (R313, R402) -/
  stood : Nat := 0
deriving DecidableEq, Repr

/-- A relay engine (R319 to R325). `put` is the outbound id and issue number its step waits for. -/
structure Relay where
  active : Bool := false
  prog : Nat := 0
  nstep : Nat := 0
  t0 : Nat := 0
  done : Nat := 0
  state : Nat := 0
  code : Nat := 0
  late : Nat := 0
  /-- the record of the step that has begun, and its output once computed -/
  step : List Byte := []
  out : Option (List Byte) := none
  put : Option (Nat × Nat) := none
  by_ : Option Nat := none
  node : Option Nat := none
  ever : Bool := false
  /-- its `PUT` completed with ERR (R322) -/
  putErr : Bool := false
  /-- the number of the first version that can be the program's (R369) -/
  first : Nat := 0
  /-- the graph node it works for: its own, or that of the thread that started it -/
  work : Option Nat := none
deriving DecidableEq, Repr

/-- A count that flag writes raise (R360, R361): its value, the source of the last write, and the latest writes as stamp and amount:
a reader of an earlier stamp does not see them yet (R172). -/
structure Tally where
  n : Nat := 0
  by_ : Nat := 0xFFF
  fresh : List (Stamp × Nat) := []
deriving DecidableEq, Repr

/-- A window entry (R360): its virtual and physical base, its length, ARRIVED, and its lease. -/
structure Window where
  part : Nat
  va : Nat
  base : Nat
  len : Nat
  arrived : Tally := {}
  exp : Nat := 0
  /-- the length of its lease -/
  lease : Nat := 0
deriving DecidableEq, Repr

/-- A flit as it is sent (R357). -/
structure OutFlit where
  type_ : Nat
  flg : Bool := false
  seq : Nat := 0
  wid : Nat := 0
  off : Nat := 0
  bytes : List Byte := []
  ack : Nat := 0
deriving DecidableEq, Repr

/-- An outbound pair (R360). -/
structure Pair where
  issued : Tally := {}
  completed : Tally := {}
  err : Bool := false
deriving DecidableEq, Repr

/-- An outbound `PUT` not complete: its window id, issue number and bytes (R361, R365). -/
structure OPut where
  wid : Nat
  num : Nat
deriving DecidableEq, Repr

/-- Where the bytes of a `PUT`'s flit come from (R365): the thread and physical address, the model's own choice for the `PUT`, and how
many of the flit's first bytes have already been read, with the granule that begins in the flit before. -/
structure PutSrc where
  src : Nat
  pa : Nat
  seed : Nat
  fixed : Nat := 0
deriving DecidableEq, Repr

/-- A Spar port (R357 to R361): flits kept, with the number of times each was resent, and flits that wait for a replay entry, the
latter with the source of bytes still to be read; `inq` are accepted DATA flits (window, offset, bytes, LAST) not yet performed.
`offset` is twice the offset of R359. -/
structure Port where
  up : Bool := true
  sendq : List (OutFlit × Option PutSrc) := []
  inq : List (Nat × Nat × List Byte × Bool) := []
  ackAt : Nat := 0
  sentAt : Nat := 0
  offset : Int := 0
  txSeq : Nat := 0
  rxSeq : Nat := 0
  replay : List (OutFlit × Nat) := []
  /-- the last ACK sent, and the flits of an unknown TYPE (R357) -/
  ackTx : Nat := 65535
  errors : Nat := 0
  pairs : List (Nat × Pair) := []
  puts : List OPut := []
  doneRx : Nat := 0
  doneTx : Nat := 0
  inWid : Option Nat := none
  inLen : Nat := 0
  inDrop : Bool := false
  echo : Nat := 0
  echoAt : Nat := 0
  sync : Bool := true
deriving DecidableEq, Repr

/-- An object of the directory (R281, R282): base, version, copy of the layout record, open count. -/
structure Obj where
  base : Nat
  vers : W32
  layout : List Byte
  opens : Nat := 0
deriving DecidableEq, Repr

/-- A partition's directory (R281, R284): names with object, and the stamp of each name's last change. -/
structure Dir where
  names : List (Nat × Nat) := []
  objs : List (Nat × Obj) := []
  next : Nat := 1
  changed : List (Nat × Stamp) := []
deriving DecidableEq, Repr

/-- A change that a leaf update port carries out, as its registers stood at the start (R268). -/
structure LeafJob where
  leaf : Nat := 0
  expGen : BitVec 16 := 0
  newLo : Word := 0
  newHi : Word := 0
  resetCnt : Bool := false
deriving DecidableEq, Repr

/-- One source's instance of the leaf update port (R268): `job` is the change in progress. -/
structure LeafPort where
  leaf : Nat := 0
  expGen : BitVec 16 := 0
  newLo : Word := 0
  newHi : Word := 0
  lstat : Nat := 0
  tcommit : Nat := 0
  reuse : Nat := 0
  job : LeafJob := {}
  /-- one more than the Keel of the last commit (R271); 0 for none -/
  last : Nat := 0
deriving DecidableEq, Repr

/-- A change record (R269). -/
structure ChangeRec where
  part : Nat
  leaf : Nat
  till : Nat
deriving DecidableEq, Repr

/-- A migration the assist carries out (R278): stage of R277, leaf, its address, old and new page. -/
structure Assist where
  stage : Nat
  leaf : Nat
  va : Nat
  newPa : Nat
  gen : BitVec 16
  after : Nat
  copied : Nat := 0
  /-- the assist set the leaf's WB (R271) -/
  own : Bool := false
deriving DecidableEq, Repr

/-- A counting region (R275). -/
structure CRegion where
  base : Nat := 0
  lim : Nat := 0
  thr : Nat := 0
  auto : Bool := false
  en : Bool := false
deriving DecidableEq, Repr

/-- A pre-emption in progress (R345 to R349, R391, R392): the members as (source, node), the mode asked for and, when it is
chosen, the mode carried out; `late` says that no slot was there at the end of the drain window (R393). -/
structure Preempt where
  members : List (Nat × Option Nat)
  team : Option Nat
  t0 : Nat
  rd : Nat
  want : Nat
  mode : Nat := 0
  slot : Option Nat := none
  host : Bool
  queue : Option Nat
  stopped : Bool := false
  /-- the Keel at which every member was stopped -/
  stopAt : Nat := 0
  late : Bool := false
deriving DecidableEq, Repr

/-- Bank roles and tags of a cell, as a save slot keeps them (R202, R394). -/
structure BankTags where
  second : Bool
  verF : BitVec 8
  verS : BitVec 8
  valF : Bool
  valS : Bool
deriving DecidableEq, Repr

/-- A partition: register page (R384), directory, windsock control block (R405), arbitration weights (R326). -/
structure Part where
  ptroot : Nat := 0
  stvec : Nat := 0
  pdisc : Nat := 512
  dirbase : Nat := 0
  nrbase : Nat := 0
  nrlen : Nat := 0
  nrcnt : Nat := 0
  nridx : Nat := 0
  nrridx : Nat := 0
  nrlost : Nat := 0
  /-- notification records that wait for the walkers, oldest first (R280, R311) -/
  notes : List (Stamp × List Byte) := []
  fpbase : Nat := 0
  fplen : Nat := 0
  fpridx : Nat := 0
  fpwidx : Nat := 0
  sabase : Nat := 0
  sasz : Nat := 0
  sanum : Nat := 0
  prdl : Nat := 0
  prstat : Nat := 0
  prtime : Nat := 0
  regions : Vector CRegion 8 := Vector.replicate 8 {}
  dir : Dir := {}
  /-- the latest stamp of a directory operation or a team change: an operation of an earlier stamp waits (R182, R284) -/
  ops : Stamp := {}
  wsbase : Nat := 0
  wslen : Nat := 0
  wsidx : Nat := 0
  wsmin : Nat := 0
  /-- WX and WR on the HBM stacks and on the links (R326) -/
  wHbm : Nat × Nat := (1, 1)
  wLink : Nat × Nat := (1, 1)
  assist : Option Assist := none
  pres : List Preempt := []
  /-- deadlines by which the team that takes over issues its first instruction (R349) -/
  swaps : List Nat := []
  /-- the status of the last `RIG`, by string id (R213) -/
  rigStat : List (Nat × Nat) := []
deriving DecidableEq, Repr

/-- A stack column: ballast (R355) in sixteenths of a token at Keel `at_`, and its steps that wait for tokens. -/
structure Column where
  tok : Nat := 1048576
  at_ : Nat := 0
  rate : Nat := 256
  waiting : List Nat := []
  /-- one more than the Keel of the last step that asked, and the highest tier that asked then (R355) -/
  asked : Nat × Nat := (0, 0)
deriving DecidableEq, Repr

/-- A debug block (R401) with its trace state (R404) and hold timer (R406). -/
structure Dbg where
  halteng : Bool := false
  dsel : Nat := 0
  bps : Vector Word 4 := Vector.replicate 4 0
  trbase : Nat := 0
  trlen : Nat := 0
  tridx : Nat := 0
  lcomp : Bool := false
  trPc : Word := 0
  trKeel : Nat := 0
  trRecs : Nat := 0
  /-- records that the trace port has not taken since the last one written (R404) -/
  trLost : Nat := 0
  holdTill : Nat := 0
  fatal : Nat := 0
  edits : List (Nat × Word) := []
deriving DecidableEq, Repr

/-- A save slot in use (R348, R394): the shadow of each member, and the strings and channels saved with the team; `regions` are
the (cell, region) pairs written to it; `boxes` are the tiles its strings hold in inbox slots, meet entries and retain slots, by cell and
address (R202). `vers` numbers the members' stores; `psnG` and `psnA` are the poisoned granules of their registers. A slot without members
waits for its last regions to be reloaded. -/
structure SaveSlot where
  part : Nat
  slot : Nat
  team : Option Nat
  members : List (Nat × Ctx)
  cells : List Nat
  mode : Nat
  host : Bool
  queue : Option Nat
  at_ : Nat
  written : Bool := false
  flushed : Bool := false
  chans : List (Nat × Chan) := []
  strs : List Str := []
  restoring : Bool := false
  teamSt : Option Team := none
  regions : List (Nat × Nat) := []
  tags : List (Nat × BankTags) := []
  vers : List Nat := []
  psnG : List (Nat × Nat × Nat) := []
  psnA : List (Nat × Nat × Nat) := []
  boxes : List (Nat × Nat × List Byte) := []
  /-- the key by which the team owns regions while it is not saved -/
  okey : Nat := 0
deriving DecidableEq, Repr

/-- Why a firmware image does not pass its check (R409). -/
inductive ImageFault where
  | trailer | signature | hash | version
deriving DecidableEq, Repr

/-- The image of a firmware file: all but its trailer of 1,024 bytes (R409). -/
def imageOf (f : List Byte) : List Byte := f.take (f.length - 1024)

/-- Firmware, sensors and measurements (R407 to R413). `temps` are the die sensors, by column * 4 + tier, and `wishes` the RATE that root
firmware means to set in a column where it may (R412). -/
structure Firmware where
  recovery : Bool := false
  service : Bool := true
  rootFlash : List Byte := Config.factoryImage false
  serviceFlash : List Byte := Config.factoryImage true
  stagedRoot : Option (List Byte) := none
  stagedService : Option (List Byte) := none
  cap : Nat := 2400
  power : Nat := 0
  temps : List (Nat × Nat) := []
  wishes : List (Nat × Nat) := []
  coolantLost : Bool := false
  /-- why the device is in recovery, which its status word gives (R407) -/
  failure : Option ImageFault := none
  /-- the way in which the clock is trimmed toward the upstream neighbour: the sign of the offset measured last (R359) -/
  trim : Int := 0
  cfgChanges : Nat := 0
  /-- the fused minimum of the security version number (R409), and as it was when the boot ROM read it (R410) -/
  minVer : Nat := Config.fusedMinimum
  minSeen : Nat := Config.fusedMinimum
  hashRoot : BitVec 512 := Config.sha512 (imageOf (Config.factoryImage false))
  hashService : BitVec 512 := Config.sha512 (imageOf (Config.factoryImage true))
  log : List (Nat × Nat) := []
deriving DecidableEq, Repr

/-- An answer of the device to the outside (hosts, links, management). -/
inductive Answer where
  | data (bytes : List Byte)
  | poison
  | unsupported
  | flit (port : Nat) (f : OutFlit)
  | report (bytes : List Byte)
  | value (v : Nat)
deriving DecidableEq, Repr

/-- The operands of an event (the rows of the opcode table that have no encoding). -/
structure EvArg where
  a : Nat := 0
  b : Nat := 0
  c : Nat := 0
  w : Word := 0
  flg : Bool := false
  bytes : List Byte := []
  data : Option DataFlit := none
  ctl : Option CtlFlit := none
  sync : Option SyncFlit := none
  err : Option ErrAt := none
  pldm : Option PldmReq := none
deriving DecidableEq, Repr

/-- How the issue of an instruction ended: the PC advances; the instruction has set the PC itself; it waits; it is held before
it issues (R14); a unit has done one granule of it and has more to do (R20). -/
inductive Flow where
  | fall | moved | stalled | held | again
deriving DecidableEq, Repr

/-- The instruction being executed: its thread, its entry (for unit C made when it issues), its unit, and how it ends. -/
structure Issue where
  src : Nat := 0
  unit : Unit4 := .c
  pc : Word := 0
  word : Word := 0
  xtnd : Option W32 := none
  lane : Option LaneP := none
  rrb : BitVec 4 := 0
  /-- captured scalars of an entry; none for an instruction of unit C, which reads the registers -/
  capt : Option (List (Reg × Word)) := none
  wboff : BitVec 18 := 0
  rvm : BitVec 48 := 0
  hzn : Stamp := {}
  phase : Nat := 0
  id : Nat := 0
  prog : Nat := 0
  bias : Option Row := none
  /-- the instruction has had its issue slot in an earlier nanosecond -/
  waited : Bool := false
  /-- the word lies in a loop body after its first iteration (R404) -/
  rep : Bool := false
  /-- the model's own: it waits for its publishing event, of this scope (R168) -/
  pub : Option Scope := none
  flow : Flow := .fall
deriving DecidableEq, Repr

/-- The whole device. Tables are lists of (key, value) with a default for the keys not listed: contexts by source number,
cells, channels (cell*4 + channel), engines, ports, columns, partitions, queues, leaf port instances and debug blocks by
their number. Scratchpads and banks are keyed cell*2^21 + address and cell*2^22 + bank*2^21 + offset. -/
structure State where
  keel : Nat := 0
  iss : Issue := {}
  arg : EvArg := {}
  agenda : List (Instr × EvArg) := []
  choices : Nat := 0
  /-- the model's own: for each coming dispatch to an idle unit, whether the entry waits in its buffer; at its end, none does
  (log 41) -/
  lags : List Bool := []
  outbox : List Answer := []
  /-- the next ticket, store number or entry number -/
  seq : Nat := 1
  nparts : Nat := 1
  /-- owner of each of the 64 queue groups not owned by partition 0 (R383) -/
  qowner : List (Nat × Nat) := []
  ctxs : List (Nat × Ctx) := []
  cells : List (Nat × CellSt) := []
  spad : List Host.Cell := []
  banks : List Host.Cell := []
  /-- granules of scratchpads and of banks with writes not ordered before every access class (R245), by key / 64 -/
  late : List (Nat × Gran) := []
  lateB : List (Nat × Gran) := []
  mem : List Host.Cell := []
  /-- the walkers' view of page-table entries, by physical address: changed only through the leaf update port (R268) -/
  pt : List (Nat × BitVec 128) := []
  /-- poisoned 32-byte granules of scratchpads, banks and memory (R333) -/
  psnSpad : List Nat := []
  psnBank : List Nat := []
  psnMem : List Nat := []
  /-- poisoned granules of registers: grid (source, row, granule) and accumulators (source*4+acc, row, granule) -/
  psnGrid : List (Nat × Nat × Nat) := []
  psnAcc : List (Nat × Nat × Nat) := []
  vers : List Ver := []
  /-- the atomics made at memory in this nanosecond: stamps and bytes (R172) -/
  atoms : List (Stamp × List Nat) := []
  teams : List Team := []
  strs : List Str := []
  launches : List Launch := []
  queues : List (Nat × UQueue) := []
  chans : List (Nat × Chan) := []
  relays : List (Nat × Relay) := []
  /-- the leases that copy channels and relay engines hold, by their source numbers (R311) -/
  held : List (Nat × List Held) := []
  windows : List (Nat × Window) := []
  ports : List (Nat × Port) := []
  parts : List (Nat × Part) := []
  lports : List (Nat × LeafPort) := []
  changes : List ChangeRec := []
  skew : Bool := false
  cols : List (Nat × Column) := []
  dbgs : List (Nat × Dbg) := []
  slots : List SaveSlot := []
  holdlim : Nat := 60000000000
  fw : Firmware := {}
deriving DecidableEq, Repr

/-- The machine right after reset (R407): the Keel at 0, memory and scratchpads zero, no context running. -/
def State.reset : State := {}

end Sys2Proof.Machine
end

