-- ==== Sys2Proof/Machine/Table.lean ====
section
/-! DEFINITION. Tables with a default, the byte memories in canonical form (addresses rising, no entry that reads zero),
and the little-endian helpers (00 R3). -/

namespace Sys2Proof.Machine

/-- The value of a key, `d` where it is not listed. -/
def tget {α : Type} (d : α) : List (Nat × α) → Nat → α
  | [], _ => d
  | (k, v) :: t, n => if k = n then v else tget d t n

/-- Set a key, keeping a rising list rising. -/
def tput {α : Type} : List (Nat × α) → Nat → α → List (Nat × α)
  | [], n, v => [(n, v)]
  | (k, w) :: t, n, v =>
    if k = n then (n, v) :: t else if n < k then (n, v) :: (k, w) :: t else (k, w) :: tput t n v

/-- The entry of a key, if listed. -/
def tfind {α : Type} : List (Nat × α) → Nat → Option α
  | [], _ => none
  | (k, v) :: t, n => if k = n then some v else tfind t n

def tdel {α : Type} (t : List (Nat × α)) (n : Nat) : List (Nat × α) := t.filter (fun e => e.1 ≠ n)

/-- A byte of a memory: an unlisted address reads zero (R407). -/
def mread (m : List Host.Cell) (a : Nat) : Byte := tget 0 m a

/-- Write a byte: writing zero removes the entry. -/
def mwrite (m : List Host.Cell) (a : Nat) (v : Byte) : List Host.Cell := if v = 0 then tdel m a else tput m a v

/-- The addresses rise strictly. -/
def rising : List Host.Cell → Bool
  | [] => true
  | [_] => true
  | a :: b :: t => decide (a.1 < b.1) && rising (b :: t)

/-- The canonical form of a memory. -/
def Memory.wf (m : List Host.Cell) : Bool := rising m && m.all (fun c => c.2 ≠ 0)

/-- `n` bytes from `a`. -/
def mreads (m : List Host.Cell) (a : Nat) : Nat → List Byte
  | 0 => []
  | n + 1 => mread m a :: mreads m (a + 1) n

/-- Write bytes from `a` up. -/
def mwrites (m : List Host.Cell) (a : Nat) : List Byte → List Host.Cell
  | [] => m
  | b :: bs => mwrites (mwrite m a b) (a + 1) bs

/-- The little-endian value of bytes. -/
def leVal : List Byte → Nat
  | [] => 0
  | b :: bs => b.toNat + 256 * leVal bs

/-- The `n` little-endian bytes of a value. -/
def leBytes : Nat → Nat → List Byte
  | 0, _ => []
  | n + 1, v => BitVec.ofNat 8 v :: leBytes n (v / 256)

/-- Bytes `a` to `a + n - 1` of a list, zero beyond its end. -/
def slice (l : List Byte) (a n : Nat) : List Byte := ((l.drop a).take n) ++ List.replicate (n - (l.length - a)) 0

/-- The little-endian field of `n` bytes at `a`. -/
def fieldAt (l : List Byte) (a n : Nat) : Nat := leVal (slice l a n)

/-- Bits `[lo + n - 1 : lo]` of a number. -/
def bitsOf (v lo n : Nat) : Nat := v / 2 ^ lo % 2 ^ n

/-- Replace bits `[lo + n - 1 : lo]`. -/
def setBits (v lo n x : Nat) : Nat := v - bitsOf v lo n * 2 ^ lo + x % 2 ^ n * 2 ^ lo

def b2n (b : Bool) : Nat := if b then 1 else 0

/-- A number as a word, modulo 2^64. -/
def w64 (n : Nat) : Word := BitVec.ofNat 64 n

/-- All ones. -/
def allOnes : Word := BitVec.allOnes 64

/-- The 192 bytes of a row. -/
def rowBytes (r : Row) : List Byte := (List.range 192).map fun i => r.extractLsb' (8 * i) 8

/-- The row of at most 192 bytes, zero above (R34). -/
def rowOf (l : List Byte) : Row := BitVec.ofNat 1536 (leVal l)

/-- Word `i` of a row. -/
def rowWord (r : Row) (i : Nat) : W32 := r.extractLsb' (32 * i) 32

/-- The row of 48 words. -/
def rowOfWords (l : List W32) : Row := BitVec.ofNat 1536 (l.foldr (fun w acc => w.toNat + 2 ^ 32 * acc) 0)

/-- A row with word `i` replaced. -/
def rowSetWord (r : Row) (i : Nat) (w : W32) : Row :=
  rowOfWords ((List.range 48).map fun k => if k = i then w else rowWord r k)

/-- CRC-32C of R153, bit by bit. -/
def crcBits : Nat → Nat → Nat
  | 0, c => c
  | n + 1, c => crcBits n (if c % 2 = 1 then (c / 2) ^^^ 0x82F63B78 else c / 2)

def crc32c (l : List Byte) : W32 :=
  BitVec.ofNat 32 ((l.foldl (fun c b => crcBits 8 (c ^^^ b.toNat)) 0xFFFFFFFF) ^^^ 0xFFFFFFFF)

/-- The first position at which a list holds an element satisfying `p`. -/
def indexOf? {α : Type} (p : α → Bool) : List α → Nat → Option Nat
  | [], _ => none
  | x :: xs, i => if p x then some i else indexOf? p xs (i + 1)

/-- Change the first element satisfying `p`. -/
def modFirst {α : Type} (p : α → Bool) (f : α → α) : List α → List α
  | [] => []
  | x :: xs => if p x then f x :: xs else x :: modFirst p f xs

end Sys2Proof.Machine
end

