-- ==== Sys2Proof/Machine/Ops.lean ====
section
/-! DEFINITION. The named operations over a context's registers, the flow of an issue, the causes of R327, taking a trap
(R330), fatal freezes (R332), unwinding a drogue region (R334), and the return from a trap (R339). -/

namespace Sys2Proof.Machine

abbrev Out := Host.Outcome State Fault Refusal

-- Contexts, cells and other tables.

def State.ctx (s : State) (n : Nat) : Ctx := tget {} s.ctxs n
def State.setCtx (s : State) (n : Nat) (c : Ctx) : State := { s with ctxs := tput s.ctxs n c }
def State.modCtx (s : State) (n : Nat) (f : Ctx → Ctx) : State := s.setCtx n (f (s.ctx n))
/-- The context of the thread whose instruction is being executed. -/
def State.me (s : State) : Ctx := s.ctx s.iss.src
def State.modMe (s : State) (f : Ctx → Ctx) : State := s.modCtx s.iss.src f
def State.cell (s : State) (n : Nat) : CellSt := tget {} s.cells n
def State.modCell (s : State) (n : Nat) (f : CellSt → CellSt) : State := { s with cells := tput s.cells n (f (s.cell n)) }
def State.chan (s : State) (n : Nat) : Chan := tget {} s.chans n
def State.modChan (s : State) (n : Nat) (f : Chan → Chan) : State := { s with chans := tput s.chans n (f (s.chan n)) }
def State.relay (s : State) (n : Nat) : Relay := tget {} s.relays n
def State.modRelay (s : State) (n : Nat) (f : Relay → Relay) : State := { s with relays := tput s.relays n (f (s.relay n)) }
def State.queue (s : State) (n : Nat) : UQueue := tget {} s.queues n
def State.modQueue (s : State) (n : Nat) (f : UQueue → UQueue) : State := { s with queues := tput s.queues n (f (s.queue n)) }
def State.port (s : State) (n : Nat) : Port := tget {} s.ports n
def State.modPort (s : State) (n : Nat) (f : Port → Port) : State := { s with ports := tput s.ports n (f (s.port n)) }
def State.part (s : State) (n : Nat) : Part := tget {} s.parts n
def State.modPart (s : State) (n : Nat) (f : Part → Part) : State := { s with parts := tput s.parts n (f (s.part n)) }
def State.dbg (s : State) (n : Nat) : Dbg := tget {} s.dbgs n
def State.modDbg (s : State) (n : Nat) (f : Dbg → Dbg) : State := { s with dbgs := tput s.dbgs n (f (s.dbg n)) }
def State.lport (s : State) (n : Nat) : LeafPort := tget {} s.lports n
def State.modLport (s : State) (n : Nat) (f : LeafPort → LeafPort) : State := { s with lports := tput s.lports n (f (s.lport n)) }
def State.col (s : State) (n : Nat) : Column := tget {} s.cols n
def State.modCol (s : State) (n : Nat) (f : Column → Column) : State := { s with cols := tput s.cols n (f (s.col n)) }

/-- Queue an event for a following step. -/
def State.post (s : State) (i : Instr) (a : EvArg) : State := { s with agenda := s.agenda ++ [(i, a)] }
/-- Events that follow at once, before what already waits. -/
def State.postNow (s : State) (l : List (Instr × EvArg)) : State := { s with agenda := l ++ s.agenda }
/-- Give an answer to the outside. -/
def State.emit (s : State) (a : Answer) : State := { s with outbox := s.outbox ++ [a] }

-- Geometry (R163, R353, R383).

def cellOf (src : Nat) : Nat := src / 4
/-- The stack column of a cell. -/
def columnOf (cell : Nat) : Nat := cell % 64
/-- The column group and HBM stack of a cell. -/
def groupOf (cell : Nat) : Nat := columnOf cell / 8
def State.stacksPer (s : State) : Nat := 8 / s.nparts
def State.partOfCell (s : State) (cell : Nat) : Nat := groupOf cell / s.stacksPer
def State.partOfSrc (s : State) (src : Nat) : Nat := s.partOfCell (cellOf src)
def State.myPart (s : State) : Nat := s.partOfSrc s.iss.src
def State.myCell (s : State) : Nat := cellOf s.iss.src
/-- The partition that owns relay engine or HBM stack `e` (R319). -/
def State.partOfStack (s : State) (e : Nat) : Nat := e / s.stacksPer
/-- The partition that owns queue `q` (R383). -/
def State.partOfQueue (s : State) (q : Nat) : Nat := tget 0 s.qowner (q / 16)
/-- The partition of an agent (R166); none for the host and the firmware. -/
def State.partOfAgent (s : State) (src : Nat) : Option Nat :=
  if src < 1024 then some (s.partOfSrc src)
  else if src < 2048 then some (s.partOfCell ((src - 1024) / 4))
  else if src < 2056 then some (s.partOfStack (src - 2048))
  else if 2064 ≤ src && src < 2080 then some (s.partOfStack ((src - 2064) / 2))
  else none

-- Register renaming (R68).

def rotates (r : Reg) : Bool := 40 ≤ r.toNat && r.toNat ≤ 55
/-- The physical scalar a field names. -/
def physReg (rrb : BitVec 4) (r : Reg) : Reg :=
  if rotates r then 40#6 + ((r - 40#6).setWidth 4 + rrb).setWidth 6 else r
/-- The physical grid row a row field names. -/
def physRow (rrb : BitVec 4) (r : Reg) : Reg :=
  if 32 ≤ r.toNat && r.toNat < 48 then 32#6 + ((r - 32#6).setWidth 4 + rrb).setWidth 6 else r

-- Scalars, predicates, masks, grid.

/-- A scalar of a context by physical number: `s0` reads 0 (R12). -/
def Ctx.reg (c : Ctx) (r : Reg) : Word := if r = 0 then 0 else c.regs[r.toNat]'r.isLt
def Ctx.setReg (c : Ctx) (r : Reg) (v : Word) : Ctx :=
  if r = 0 then c else { c with regs := c.regs.set r.toNat v r.isLt }
def Ctx.pred (c : Ctx) (p : BitVec 3) : Bool := p = 0 || c.preds.getLsbD p.toNat
/-- Write a predicate; a write to `p0` is discarded (R57). -/
def Ctx.setPred (c : Ctx) (p : BitVec 3) (v : Bool) : Ctx :=
  if p = 0 then c
  else { c with preds := if v then c.preds ||| (1#8 <<< p.toNat) else c.preds &&& ~~~(1#8 <<< p.toNat) }
def Ctx.mask (c : Ctx) (m : BitVec 3) : BitVec 48 := c.masks[m.toNat]'m.isLt
def Ctx.setMask (c : Ctx) (m : BitVec 3) (v : BitVec 48) : Ctx := { c with masks := c.masks.set m.toNat v m.isLt }
def Ctx.row (c : Ctx) (i : Nat) : Row := c.grid.getD i 0
def Ctx.setRow (c : Ctx) (i : Nat) (v : Row) : Ctx := { c with grid := c.grid.setIfInBounds i v }
def Ctx.acc (c : Ctx) (a : BitVec 2) : Acc := c.accs[a.toNat]'a.isLt
def Ctx.setAcc (c : Ctx) (a : BitVec 2) (v : Acc) : Ctx := { c with accs := c.accs.set a.toNat v a.isLt }
def Ctx.teth (c : Ctx) (t : BitVec 4) : Tether := c.teths[t.toNat]'t.isLt
def Ctx.setTeth (c : Ctx) (t : BitVec 4) (v : Tether) : Ctx := { c with teths := c.teths.set t.toNat v t.isLt }
def Ctx.mh (c : Ctx) (t : BitVec 4) : Handle := c.mhs[t.toNat]'t.isLt
def Ctx.setMh (c : Ctx) (t : BitVec 4) (v : Handle) : Ctx := { c with mhs := c.mhs.set t.toNat v t.isLt }
def Ctx.lq (c : Ctx) (q : BitVec 2) : Queue := c.lqs[q.toNat]'q.isLt
def Ctx.setLq (c : Ctx) (q : BitVec 2) (v : Queue) : Ctx := { c with lqs := c.lqs.set q.toNat v q.isLt }
def Ctx.sq (c : Ctx) (q : BitVec 2) : Queue := c.sqs[q.toNat]'q.isLt
def Ctx.setSq (c : Ctx) (q : BitVec 2) (v : Queue) : Ctx := { c with sqs := c.sqs.set q.toNat v q.isLt }
def Ctx.queue (c : Ctx) (q : QSel) : Queue := if q.store then c.sq q.q else c.lq q.q
def Ctx.setQueue (c : Ctx) (q : QSel) (v : Queue) : Ctx := if q.store then c.setSq q.q v else c.setLq q.q v

/-- The value of a scalar field: as captured for an entry (R16), else the register under RRB (R68). -/
def State.scalar (s : State) (r : Reg) : Word :=
  if r = 0 then 0
  else match s.iss.capt with
    | some l => (l.find? fun e => e.1 = r).elim 0 (·.2)
    | none => s.me.reg (physReg s.iss.rrb r)

/-- Write the scalar a field names. -/
def State.setScalar (s : State) (d : Reg) (v : Word) : State :=
  if d = 0 then s else s.modMe fun c => c.setReg (physReg s.iss.rrb d) v

def State.setPred (s : State) (p : BitVec 3) (v : Bool) : State := s.modMe fun c => c.setPred p v

-- The flow of an issue.

/-- The instruction waits: it is tried again (R17, R21). -/
def State.stall (s : State) : State := { s with iss := { s.iss with flow := .stalled } }
/-- The control core holds the thread: the instruction has not issued (R14). -/
def State.hold (s : State) : State := { s with iss := { s.iss with flow := .held } }
/-- A granule of the instruction is done and more are to come (R20). -/
def State.again (s : State) : State := { s with iss := { s.iss with flow := .again } }
/-- The instruction has set the PC. -/
def State.moved (s : State) : State := { s with iss := { s.iss with flow := .moved } }
def State.goto (s : State) (pc : Word) : State := (s.modMe fun c => { c with pc := pc }).moved

/-- The immediate of R55. -/
def State.imm (s : State) (i : W32) : Word :=
  match s.iss.xtnd with
  | some h => h ++ i
  | none => i.signExtend 64

-- Physical addresses (R236, R237).

inductive PaKind where
  | hbm | inter | notify | device | peer | host | nothing
deriving DecidableEq, Repr

def paKind (pa : Nat) : PaKind :=
  if pa < 0x8000000000 then .hbm
  else if pa < 0x10000000000 then .inter
  else if 0xF00000000000 ≤ pa && pa < 0xF00000400000 then .notify
  else if 0xF00001000000 ≤ pa && pa < 0xF00002000000 then .device
  else if 0xF10000000000 ≤ pa && pa < 0xF20000000000 then .peer
  else if 0x8000000000000 ≤ pa && pa < 0x10000000000000 then .host
  else .nothing

/-- The linear address an interleaved one names for a partition (R237). -/
def State.canon (s : State) (part pa : Nat) : Nat :=
  if paKind pa = .inter then
    let o := pa - 0x8000000000
    let k := s.stacksPer
    let g := o / 4096
    (part * k + g % k) * 2 ^ 36 + g / k * 4096 + o % 4096
  else pa

/-- The addresses of `n` bytes. -/
def State.addrs (s : State) (part pa n : Nat) : List Nat := (List.range n).map fun i => s.canon part (pa + i)

/-- Granules that bytes `a` to `a + n - 1` cover whole. -/
def covers (a n g : Nat) : Bool := a ≤ 32 * g && 32 * (g + 1) ≤ a + n

/-- The latest publish stamp of a source's writes that meet some addresses: its later writes are not published before them
(R308). -/
def State.latestOwn (s : State) (src : Nat) (as_ : List Nat) : Nat :=
  (s.vers.filter fun v => v.src = src && v.cells.any fun c => as_.contains c.1).foldl
    (fun m v => v.pubs.foldl (fun m p => max m p.2.keel) m) 0

/-- A write of class X, R or H (R243) to some addresses: the device chooses its publish stamp within 2^20 ns. -/
def State.devWriteAt (s : State) (src part : Nat) (sc : Scope) (as_ : List Nat) (bs : List Byte) (by_ : Option (Nat × Nat))
    (work : Option Nat := none) : State :=
  let k := max (s.keel + Config.publishDelay s.choices % (Config.horizonLimit + 1)) (s.latestOwn src as_)
  { s with
    seq := s.seq + 1
    choices := s.choices + 1
    vers := s.vers ++ [{
      cells := as_.zip bs, src := src, part := part, cell := 0, seq := s.seq
      own := 0, pubs := [(sc, ⟨k, src⟩)], by_ := by_, work := work, dead := decide (src < 1024) }] }
/-- The same to the bytes from an address on. -/
def State.devWrite (s : State) (src part : Nat) (sc : Scope) (pa : Nat) (bs : List Byte) (by_ : Option (Nat × Nat))
    (work : Option Nat := none) : State := s.devWriteAt src part sc (s.addrs part pa bs.length) bs by_ work

-- Tail trace (R404).

/-- Append a record to the thread's ring, which wraps at its end; `field` is the PC that the record gives. -/
def State.traceBytes (s : State) (src : Nat) (bs : List Byte) (field : Option Word) : State :=
  let d := s.dbg src
  let as_ := (List.range bs.length).map fun i => s.canon (s.partOfSrc src) (d.trbase + (d.tridx + i) % d.trlen)
  (s.devWriteAt src (s.partOfSrc src) .part as_ bs none).modDbg src fun d => { d with
    tridx := d.tridx + bs.length, trRecs := d.trRecs + 1, trKeel := s.keel, trPc := field.getD d.trPc }

/-- A long record. -/
def longRec (kind f15 f63 f127 : Nat) : List Byte :=
  leBytes 16 (1 + 2 * kind + 16 * (f15 % 4096) + 65536 * (f63 % 2 ^ 48) + 2 ^ 64 * (f127 % 2 ^ 64))

/-- The record that gives the PC and the Keel. -/
def syncRec (keel : Nat) (pc : Word) : List Byte := longRec 0 0 keel pc.toNat

/-- A traced thread writes a record `bs`, if the trace port takes it. A LOST record comes before the first one taken after some that
were not, and a SYNC before a long one that would be the first of 4,096. `pc` is where the thread is. -/
def State.traceRec (s : State) (src : Nat) (pc : Word) (bs : Dbg → List Byte × Option Word) (long : Bool) : State :=
  let d := s.dbg src
  if d.trlen = 0 then s
  else
    let s := { s with choices := s.choices + 1 }
    if !(Config.traceTakes (s.choices - 1)) then s.modDbg src fun d => { d with trLost := d.trLost + 1 }
    else
      let s := if d.trLost = 0 then s
        else (s.traceBytes src (longRec 4 0 d.trLost s.keel) none).modDbg src fun d => { d with trLost := 0 }
      let s := if long && d.trRecs % 4096 = 0 then s.traceBytes src (syncRec s.keel pc) (some pc) else s
      s.traceBytes src (bs d).1 (bs d).2

/-- The STOP record of a thread that stops at `pc`: for a cause, or with 0 for a halt (log 37). -/
def State.traceStop (s : State) (src cause : Nat) (pc : Word) : State :=
  s.traceRec src pc (fun _ => (longRec 3 cause s.keel pc.toNat, some pc)) true

-- Windsock (R405).

/-- Write a windsock record; `setter` 0xFFF is none. -/
def State.windsock (s : State) (part waiter kind setter outcome waited id : Nat) : State :=
  let p := s.part part
  if p.wslen = 0 || waited < p.wsmin then s
  else
    let bs := leBytes 5 s.keel ++ leBytes 2 (waiter % 4096 + kind * 4096) ++ leBytes 2 (setter % 4096 + outcome * 4096) ++
      leBytes 3 (min waited (2 ^ 24 - 1)) ++ leBytes 4 id
    let s := s.devWrite waiter part .part (p.wsbase + 16 * p.wsidx % p.wslen) bs none
    s.modPart part fun p => { p with wsidx := p.wsidx + 1 }

/-- The record of a wait. -/
def State.recordWait (s : State) (src : Nat) (w : Wait) (setter outcome : Nat) : State :=
  s.windsock (s.partOfSrc src) src w.kind setter outcome (if w.idle then 0 else s.keel - w.since) w.obj

/-- The wait of a thread's control core ends. -/
def State.endWaitOf (s : State) (src setter outcome : Nat) : State :=
  match (s.ctx src).wait with
  | none => s
  | some w => (s.recordWait src w setter outcome).modCtx src fun c => { c with wait := none }
def State.endWait (s : State) (setter outcome : Nat) : State := s.endWaitOf s.iss.src setter outcome

/-- The wait of the instruction that completes ends as it was found to end, or satisfied by none. -/
def State.endWaitDone (s : State) : State :=
  let e := (s.me.wait.bind (·.ended)).getD (0xFFF, 0)
  s.endWait e.1 e.2

/-- The wait of an entry or stream of a thread's units ends: a queue's is ended by the thread itself. -/
def State.endUnitWait (s : State) (src id : Nat) : State :=
  match tfind (s.ctx src).qwaits id with
  | none => s
  | some w =>
    (s.recordWait src w (if w.kind = 0 then src else 0xFFF) 0).modCtx src fun c => { c with qwaits := tdel c.qwaits id }

/-- A wait of the control core as a stop leaves it: the instruction has not issued and reads again from the start, with its
deadline (R181). A participant of a barrier keeps its release (R179); so does an `ARRV` that `UNRIG` has ended (R206), and a `MOPENW`
that has opened its handle keeps its boundary (R288). -/
def Wait.stopped (w : Wait) : Wait :=
  if w.kind = 2 || ((w.kind = 5 || w.kind = 6) && w.ended.isSome) then { w with idle := true }
  else { since := w.since, deadline := w.deadline, kind := w.kind, obj := w.obj, idle := true }

/-- The wait of an instruction that is tried: one that a stop ended begins anew (R405). -/
def Wait.begun (w : Wait) (keel : Nat) : Wait := if w.idle then { w with since := keel, idle := false } else w

/-- An entry as a stop leaves it: an `RPROBE` that has begun is begun anew (R264), and what nothing answered is tried again. -/
def Entry.stopped (e : Entry) : Entry :=
  match e.instr with
  | .rprobe _ _ _ => { e with prog := 0, lateAt := 0 }
  | _ => { e with lateAt := 0 }

/-- An active stream as a stop leaves it: what nothing answered is tried again. -/
def Stream.stopped (t : Stream) : Stream := { t with ent := { t.ent with lateAt := 0 } }

/-- A stop, halt or freeze reaches a thread: its waits are recorded, and the instruction that waits at its control core is saved
as not yet issued; so is an `RPROBE` whose walks run. -/
def State.stopWaits (s : State) (src : Nat) : State :=
  let c := s.ctx src
  let s := match c.wait with
    | some w => if w.idle then s else s.recordWait src w 0xFFF 3
    | none => s
  (c.qwaits.foldl (fun s q => s.recordWait src q.2 0xFFF 3) s).modCtx src fun c => { c with
    qwaits := [], busy := none, wait := c.wait.map Wait.stopped, bufA := c.bufA.map Entry.stopped,
    streams := c.streams.map Stream.stopped, pubWait := (none, none), lateAt := 0 }

/-- Stall as a wait of the windsock: the first attempt records when it began, its deadline, KIND and ID (R405). -/
def State.waitOn (s : State) (kind obj : Nat) (deadline : Option Nat) : State :=
  let w : Wait := { since := s.keel, deadline := deadline, kind := kind, obj := obj }
  (s.modMe fun c =>
    if s.iss.unit = .c then { c with wait := some ((c.wait.getD w).begun s.keel) }
    else { c with qwaits := tput c.qwaits s.iss.id ((tfind c.qwaits s.iss.id).getD w) }).stall

-- Causes (R327).

/-- The causes of R327, in the order of their codes. -/
inductive Cause where
  | swtrap | brk | numeric | promiseMissed | versionLost | pageFault | skew
  | illegal | badTether | spadRange | badHandle
  | uncorrectable | carriedCheck | kstepCheck | telltale | doubleTrap | unhandled
deriving DecidableEq, Repr

def Cause.code : Cause → BitVec 8
  | .swtrap => 1 | .brk => 2 | .numeric => 3 | .promiseMissed => 4 | .versionLost => 5 | .pageFault => 6 | .skew => 7
  | .illegal => 16 | .badTether => 17 | .spadRange => 18 | .badHandle => 19
  | .uncorrectable => 20 | .carriedCheck => 21 | .kstepCheck => 22 | .telltale => 23
  | .doubleTrap => 24 | .unhandled => 25

/-- The three kinds of R327. -/
inductive CauseKind where
  | recoverable | fatal | unwinds
deriving DecidableEq, Repr

def Cause.kind : Cause → CauseKind
  | .swtrap | .brk | .numeric | .promiseMissed | .versionLost | .pageFault | .skew => .recoverable
  | .illegal | .badTether | .spadRange | .badHandle | .doubleTrap | .unhandled => .fatal
  | .uncorrectable | .carriedCheck | .kstepCheck | .telltale => .unwinds

/-- Entered through STVEC (R330). -/
def Cause.sys : Cause → Bool
  | .pageFault | .skew => true
  | _ => false

def Unit4.code : Unit4 → BitVec 2
  | .c => 0 | .a => 1 | .e => 2 | .t => 3

/-- CAUSE of R329. -/
def causeWord (c : Cause) (u : Unit4) (info : W32) : Word := info ++ 0#22 ++ u.code ++ c.code

-- Strings of a thread (R200).

/-- The string whose handler thread is `src`. -/
def Str.handles (r : Str) (src : Nat) : Bool := r.pos.any fun p => !p.gone && p.cell * 4 + p.slot = src
/-- The position of a handler thread in its string. -/
def Str.posOf (r : Str) (src : Nat) : Nat := (indexOf? (fun p => p.cell * 4 + p.slot = src) r.pos 0).getD 0
def State.strOf (s : State) (src : Nat) : Option Str := s.strs.find? fun r => r.handles src
/-- The thread is stopped by a freeze that another thread caused. -/
def State.strFrozen (s : State) (src : Nat) : Bool :=
  s.strs.any fun r => r.handles src && r.frozen.any fun f => f ≠ src
/-- Freeze the string of a thread that stops: its other handler threads stop (R200), and their waits are recorded (R405). -/
def State.freezeStr (s : State) (src : Nat) : State :=
  let strs := s.strs.map fun r => if r.handles src && !(r.frozen.contains src) then { r with frozen := src :: r.frozen } else r
  let t : State := { s with strs := strs }
  (s.ctxs.map (·.1)).foldl (fun u m => if t.strFrozen m && !(s.strFrozen m) then u.stopWaits m else u) t
/-- Thaw what a thread froze (R201). -/
def State.thawStr (s : State) (src : Nat) : State :=
  { s with strs := s.strs.map fun r => if r.handles src then { r with frozen := r.frozen.filter (· ≠ src) } else r }

/-- A node whose thread suffers a fatal error becomes FAILED (R223). -/
def Node.fail (n : Node) : Node := if n.state = 4 then n else { n with state := 5 }
def State.failNode (s : State) (nid : Nat) : State :=
  ({ s with launches := s.launches.map fun (l : Launch) =>
      if l.id = nid / 4096 * 4096 then
        { l with nodes := l.nodes.map fun n => if n.idx = nid % 4096 then n.fail else n }
      else l } : State).post .nodeCompletion { a := nid, flg := true }

/-- Freeze a context by a fatal cause (R327, R332, R406): CAUSE, TVAL and the `ERRQ` record are set, its string freezes
and its node fails. -/
def State.fatalAt (s : State) (src : Nat) (u : Unit4) (pc : Word) (c : Cause) (info : W32) : State :=
  let s := s.stopWaits src
  let x := s.ctx src
  let s := s.setCtx src { x with
    status := .frozen, cause := causeWord c u info, tval := pc,
    pc := (match x.pfx with | some p => p.pc0 | none => x.pc), pfx := none,
    err := ⟨c.code, u.code, x.drogue.length, pc, pc, s.keel⟩ }
  let s := (s.freezeStr src).modDbg src fun d => { d with fatal := c.code.toNat, holdTill := s.keel + s.holdlim }
  let s := s.traceStop src c.code.toNat pc
  match x.node with
  | some n => s.failNode n
  | none => s

/-- A fatal cause at the instruction being executed. -/
def State.fatal (s : State) (c : Cause) (info : W32 := 0) : State :=
  (s.fatalAt s.iss.src s.iss.unit s.iss.pc c info).moved

/-- Queue tickets (R25) do not outlive the entries that hold them. -/
def Queue.idle (q : Queue) : Queue := { q with prods := [] }

/-- Taking a recoverable trap (R330): EPC and TVAL are saved, CAUSE and TSTATE set, unit state parked, and the PC is the
handler's address. A second cause while INH is 1 is DOUBLE_TRAP; no vector is UNHANDLED (R332). -/
def State.trapAt (s : State) (src : Nat) (u : Unit4) (fpc : Word) (c : Cause) (info : W32) : State :=
  let s := s.stopWaits src
  let x := s.ctx src
  let v : Word := if c.sys then w64 (s.part (s.partOfSrc src)).stvec else x.tvec
  if x.tstate.getLsbD 0 then s.fatalAt src u fpc .doubleTrap (c.code.setWidth 32)
  else if v = 0 then s.fatalAt src u fpc .unhandled (c.code.setWidth 32)
  else
    let nextPc := match x.pfx with | some p => p.pc0 | none => x.pc
    let s := s.setCtx src { x with
      parked := some {
        a := x.bufA, e := x.bufE, t := x.bufT, streams := x.streams, wait := x.wait
        sleep := if x.status = .sleeping then some x.wakeAt else none
        fault := if u = .c then none else some s.iss.id }
      -- a parked producer takes no turn at a queue before it is back (R331)
      lqs := x.lqs.map Queue.idle, sqs := x.sqs.map Queue.idle
      bufA := [], bufE := [], bufT := [], streams := [], wait := none, pfx := none
      epc := if u = .c then (if c = .swtrap then fpc + 8 else fpc) else nextPc
      tval := fpc
      cause := causeWord c u info
      tstate := (bit c.sys ++ bit (u ≠ .c) ++ 1#1).setWidth 4
      status := .run
      causeAt := s.keel + 1
      pc := v }
    (s.freezeStr src).traceStop src c.code.toNat fpc

def State.trap (s : State) (c : Cause) (info : W32 := 0) : State :=
  (s.trapAt s.iss.src s.iss.unit s.iss.pc c info).moved

/-- What an unwind and a discard do to an accumulator (R162, R334): the restart address is kept. -/
def Acc.cleared (a : Acc) : Acc := { a with rows := Vector.replicate 48 0, prog := 0, cnt := 0, begun := false, steps := 0 }
/-- What a restore and a restart of a handler do to an accumulator (R203): its count of K-steps goes on (R346). -/
def Acc.zeroed (a : Acc) : Acc := { a.cleared with steps := a.steps }
/-- A queue emptied, its depth kept. -/
def Queue.emptied (q : Queue) : Queue := { q with slots := [], popped := q.popped + q.slots.length, prods := [] }

/-- Scalars, predicates and RRB back from a snapshot; `p0` stays 1 (R334, R203). -/
def Ctx.restore (c : Ctx) (e : Snap) : Ctx := { c with regs := e.regs, preds := e.preds ||| 1, rrb := e.rrb }

/-- Poisoned granules of a thread's accumulators are poisoned no longer: the accumulators are zeroed. -/
def State.cleanAccs (s : State) (src : Nat) : State := { s with psnAcc := s.psnAcc.filter fun p => p.1 / 4 ≠ src }

/-- Unwind to the innermost drogue entry (R334), which stays open. A thread that waits in `PHASEB` keeps its arrival (log 54). -/
def State.unwindAt (s : State) (src : Nat) (u : Unit4) (pc prod : Word) (c : Cause) : State :=
  let s := s.stopWaits src
  let x := s.ctx src
  match x.drogue with
  | [] => s.fatalAt src u pc c 0
  | e :: _ =>
    let x := { x with
      bufA := [], bufE := [], bufT := [], streams := [], loads := [], pfx := none, wait := none
      lqs := x.lqs.map Queue.emptied, sqs := x.sqs.map Queue.emptied
      latchA := none, latchB := none
      accs := x.accs.map Acc.cleared
      loops := x.loops.drop (x.loops.length - e.depth)
      parked := if x.tstate.getLsbD 0 then none else x.parked
      tstate := if x.tstate.getLsbD 0 then 0 else x.tstate
      err := ⟨c.code, u.code, x.drogue.length, pc, prod, s.keel⟩
      unwinds := x.unwinds + 1
      causeAt := s.keel + 1 }
    let s := if (s.ctx src).tstate.getLsbD 0 then s.thawStr src else s
    (s.cleanAccs src).setCtx src { x.restore e.snap with pc := e.handler, status := .run }

/-- A cause of codes 20 to 23: unwind where a region is open, else fatal (R327). `prod` is the PC of `ERRQ` selector 2. -/
def State.damageAt (s : State) (src : Nat) (u : Unit4) (pc prod : Word) (c : Cause) (info : W32) : State :=
  if (s.ctx src).drogue = [] then
    (s.fatalAt src u pc c info).modCtx src fun x => { x with err := { x.err with prodPc := prod } }
  else s.unwindAt src u pc prod c

def State.damage (s : State) (c : Cause) (info : W32) (prod : Option Word := none) : State :=
  (s.damageAt s.iss.src s.iss.unit s.iss.pc (prod.getD s.iss.pc) c info).moved

/-- Poison is consumed (R333): UNCORRECTABLE, counted for the cell. -/
def State.poisoned (s : State) : State :=
  (s.modCell s.myCell fun c => { c with consumed := if c.consumed = allOnes then c.consumed else c.consumed + 1 }).damage
    .uncorrectable 0

/-- Every unit of the thread is at rest: buffers and streams empty, no load in flight (R264, R339, R341). -/
def Ctx.quiet (c : Ctx) : Bool :=
  c.bufA.isEmpty && c.bufE.isEmpty && c.bufT.isEmpty && c.streams.isEmpty && c.loads.isEmpty

/-- Store streams that wrote their last row in this nanosecond: they are active until the next (R88). -/
def Ctx.endedNow (c : Ctx) (keel : Nat) : Nat := if c.ended.1 = keel + 1 then c.ended.2 else 0

/-- Every instruction that the thread has dispatched has completed, and no stream of it is active (R264, R339, R341). -/
def State.quiet (s : State) : Bool :=
  s.me.quiet && s.me.endedNow s.keel = 0 && s.vers.all fun v => v.src ≠ s.iss.src || v.dead || v.done

/-- The queue a dispatched instruction pushes to, by its ticket (R25): `VQNT`, and `EPI` of a scaled type, push to two. -/
def produces : Instr → List QSel
  | .ldq f => [⟨false, f.q⟩] | .ldmq f => [⟨false, f.q⟩] | .ldrq f => [⟨false, f.q⟩]
  | .vadd f | .vsub f | .vmul f | .vdiv f | .vfma f | .vfnma f => ofDst f.od
  | .vmax f | .vmin f | .vand f | .vor f | .vxor f | .vshl f | .vshr f | .vsra f | .vimin f | .vimax f | .vperm f => ofDst f.od
  | .vabs f | .vneg f | .vcpy f | .vrmax f | .vrmin f => ofDst f.od
  | .vrcp f | .vrsq f | .vexp2 f | .vlog2 f | .vsqrt f | .vsum f => ofDst f.od
  | .viadd f | .visub f | .vimul f => ofDst f.od
  | .vcvt f => ofDst f.od | .vdq f => ofDst f.od | .vrot f | .vbcast f => ofDst f.od | .vsel f => ofDst f.od
  | .vqnt f => match f.od with | .queue q => [⟨true, q⟩, ⟨true, q + 1⟩] | _ => []
  | .epi f => match f.dest with
    | .sq q => if f.ty.isBlock then [⟨true, q⟩, ⟨true, q + 1⟩] else [⟨true, q⟩]
    | _ => []
  | _ => []
where
  ofDst : Dst → List QSel
    | .queue q => [⟨true, q⟩]
    | _ => []

/-- Register a producer's ticket with the queues it pushes to (R25). -/
def Ctx.ticket (c : Ctx) (id : Nat) (qs : List QSel) : Ctx :=
  qs.foldl (fun c q => c.setQueue q { c.queue q with prods := (c.queue q).prods ++ [id] }) c

/-- Insert an entry into a list in dispatch order. -/
def Entry.insert (e : Entry) : List Entry → List Entry
  | [] => [e]
  | x :: xs => if e.id ≤ x.id then e :: x :: xs else x :: e.insert xs

/-- Entries that come back take their tickets again, in the order in which they were dispatched. -/
def Ctx.retake (c : Ctx) (l : List Entry) : Ctx :=
  (l.foldr Entry.insert []).foldl (fun c e => c.ticket e.id (produces e.instr)) c

/-- Parked unit state without the faulting entry or stream, where `RFE` drops it. -/
def Parked.kept (p : Parked) (skip : Bool) : Parked :=
  let keep (e : Entry) : Bool := !skip || p.fault ≠ some e.id
  { p with a := p.a.filter keep, e := p.e.filter keep, t := p.t.filter keep, streams := p.streams.filter fun t => keep t.ent }

/-- Every entry of parked unit state. -/
def Parked.all (p : Parked) : List Entry := p.a ++ p.e ++ p.t ++ p.streams.map (·.ent)

/-- Return from a trap (R339), when INH is 1 and the units are at rest. -/
def State.rfe (s : State) : State :=
  let skip := s.me.tstate.getLsbD 3
  let onC := s.me.cause.extractLsb' 8 2 = 0
  let p := (s.me.parked.getD {}).kept skip
  let s := s.modMe fun x => { x with
    bufA := p.a, bufE := p.e, bufT := p.t, streams := p.streams
    wait := if skip && onC then none else p.wait, parked := none, tstate := 0
    status := if p.sleep.isSome then .sleeping else .run, wakeAt := p.sleep.getD x.wakeAt
    pc := if skip && onC then x.epc + 8 else x.epc }.retake p.all
  (s.thawStr s.iss.src).moved

-- Waits on the units (R18, R59).

/-- The scalars that dispatched instructions have still to write. -/
def destReg : Instr → Option Reg
  | .lds f => some f.d
  | .ldm f => some f.d
  | .amoAdd f | .amoMin f | .amoMax f | .amoMinu f | .amoMaxu f | .amoAnd f | .amoOr f | .amoXor f | .amoSwap f => some f.d
  | .amoCas f _ => some f.d
  | .amosAdd f | .amosMin f | .amosMax f | .amosMinu f | .amosMaxu f | .amosAnd f | .amosOr f | .amosXor f
  | .amosSwap f => some f.d
  | .amosCas f _ => some f.d
  | .tstat d _ | .qstat d _ | .mprog d _ => some d
  | _ => none

/-- The physical scalars with a write pending (R14, R18). -/
def Ctx.pending (c : Ctx) : List Reg :=
  (c.bufA ++ c.bufE ++ c.bufT).filterMap (fun e => (destReg e.instr).map (physReg e.rrb)) ++ c.loads.map (·.dest)

end Sys2Proof.Machine
end

