-- ==== Sys2Proof/Machine/Memory.lean ====
section
/-! DEFINITION. Memory: physical addresses (R236, R237), the versions that stores make and what a load sees of them
(R165 to R174), publishing, atomics at memory (R172), scratchpads and banks with their region owners (R233, R348),
page-table walks (R250 to R255), device writes (R243). -/

namespace Sys2Proof.Machine

-- Stamps and reach.

def Stamp.lt (a b : Stamp) : Bool := a.keel < b.keel || (a.keel = b.keel && a.src < b.src)

/-- Who reads (R169, R244): a thread with its horizon and phase, an engine of a partition, or the host. -/
structure Viewer where
  src : Nat
  part : Option Nat
  cell : Option Nat
  hzn : Stamp
  phase : Option Nat
  /-- where the load stands in its thread's program order: own stores from here on follow it; none for an access made now -/
  upto : Option Nat
deriving DecidableEq, Repr

/-- A publication of `v` reaches the viewer (R169, R244). -/
def Ver.reaches (v : Ver) (vw : Viewer) : Scope → Bool
  | .cell => vw.cell = some v.cell
  | .part => vw.part = some v.part
  | .sys => true

/-- The stamp at which `v` became visible in the viewer's reach. -/
def Ver.stampFor (v : Ver) (vw : Viewer) : Option Stamp := (v.pubs.find? fun p => v.reaches vw p.1).map (·.2)

/-- Rank of a version for a load (R171): own stores of the current phase that precede the load, by program order, then own unpublished
stores, then visible stores by stamp; none where the load does not see it. A store of an ORD page is visible at once (R173). -/
def Ver.rank (v : Ver) (vw : Viewer) : Option (Nat × Nat × Nat) :=
  let own := vw.phase.isSome && v.src = vw.src && !v.dead && vw.upto.all (decide <| v.prog < ·)
  if own && vw.phase = some v.own then some (2, v.prog, v.seq)
  else match v.stampFor vw with
    | some st => if st.lt vw.hzn || own || v.ord then some (0, st.keel, st.src) else none
    | none => if own then some (1, v.prog, v.seq) else none

def rankLe (a b : Nat × Nat × Nat) : Bool :=
  a.1 < b.1 || (a.1 = b.1 && (a.2.1 < b.2.1 || (a.2.1 = b.2.1 && a.2.2 ≤ b.2.2)))

/-- The best-ranked version that holds the byte. -/
def bestVer (rank : Ver → Option (Nat × Nat × Nat)) (a : Nat) :
    List Ver → Option ((Nat × Nat × Nat) × Ver) → Option ((Nat × Nat × Nat) × Ver)
  | [], b => b
  | v :: vs, b =>
    match tfind v.cells a, rank v with
    | some _, some r =>
      match b with
      | some (r0, v0) => bestVer rank a vs (if rankLe r0 r then some (r, v) else some (r0, v0))
      | none => bestVer rank a vs (some (r, v))
    | _, _ => bestVer rank a vs b

/-- The version a load's byte comes from; none where it comes from memory. -/
def State.loadVer (s : State) (vw : Viewer) (a : Nat) : Option Ver := (bestVer (fun v => v.rank vw) a s.vers none).map (·.2)

/-- A byte of a version, else of memory. -/
def State.byteOf (s : State) (v : Option Ver) (a : Nat) : Byte :=
  match v with
  | some v => (tfind v.cells a).getD 0
  | none => mread s.mem a

/-- A byte as a load sees it (R171). -/
def State.loadByte (s : State) (vw : Viewer) (a : Nat) : Byte := s.byteOf (s.loadVer vw a) a

/-- Rank at memory (R172): an atomic, flag write or ORD store of any scope, else the first publication at partition or system
scope or from the reader's cell, up to the stamp `vw.hzn`; `flagRd`, a `FLAGW`'s read, counts only scopes that reach the reader
and stamps before its refresh (R181). An engine that sees its own writes sees them at any stamp (R369). -/
def Ver.rankAt (v : Ver) (vw : Viewer) (flagRd : Bool) : Option (Nat × Nat × Nat) :=
  let st := if v.atm && !flagRd then v.pubs.head?.map (·.2)
    else if flagRd then v.stampFor vw
    else (v.pubs.find? fun p => p.1 ≠ .cell || vw.cell = some v.cell).map (·.2)
  match st with
  | some t => if t.lt vw.hzn || (!flagRd && t = vw.hzn) || (vw.phase.isSome && v.src = vw.src && !v.dead) then some (0, t.keel, t.src) else none
  | none => none

/-- The version that gives a byte at memory, with its rank. -/
def State.atVer (s : State) (vw : Viewer) (flagRd : Bool) (a : Nat) : Option ((Nat × Nat × Nat) × Ver) :=
  bestVer (fun v => v.rankAt vw flagRd) a s.vers none

/-- A byte as an atomic, a `FLAGW` or an ORD access reads it, up to the stamp `vw.hzn`. -/
def State.byteAt (s : State) (vw : Viewer) (flagRd : Bool) (a : Nat) : Byte := s.byteOf ((s.atVer vw flagRd a).map (·.2)) a

/-- The stamp of the write that gives a byte at memory; none where it stands merged. -/
def State.stampAt (s : State) (vw : Viewer) (flagRd : Bool) (a : Nat) : Option Stamp :=
  (s.atVer vw flagRd a).map fun p => ⟨p.1.2.1, p.1.2.2⟩

/-- Where the instruction being executed stands in its thread's program order: entries are numbered as they are dispatched, and the
control core takes its instructions in that order. -/
def State.progNo (s : State) : Nat := if s.iss.id = 0 then s.seq else s.iss.id

/-- The viewer of the instruction being executed: the horizon in force when it was dispatched (R168). -/
def State.viewer (s : State) : Viewer := ⟨s.iss.src, some s.myPart, some s.myCell, s.iss.hzn, some s.iss.phase, some s.progNo⟩
/-- The thread at memory, now: up to its own stamp, at which a publishing atomic publishes first (R86, R172). -/
def State.viewerNow (s : State) : Viewer := ⟨s.iss.src, some s.myPart, some s.myCell, ⟨s.keel, s.iss.src⟩, none, none⟩
/-- An engine of a partition, reading now (R244). The stamp of its read has a Keel and no source: the model lets it see every publication
of its nanosecond (log 63). -/
def State.engineView (s : State) (src part : Nat) : Viewer := ⟨src, some part, none, ⟨s.keel, 4096⟩, none, none⟩
/-- The thread at an ORD page: every write performed at memory so far (R173). -/
def State.ordView (s : State) : Viewer := ⟨s.iss.src, some s.myPart, some s.myCell, ⟨s.keel, 4096⟩, none, none⟩
/-- The host, reading now (R239). -/
def State.hostView (s : State) : Viewer := ⟨2056, none, none, ⟨s.keel, 4096⟩, none, none⟩

def State.loadBytes (s : State) (vw : Viewer) (part pa n : Nat) : List Byte := (s.addrs part pa n).map (s.loadByte vw)
def State.bytesAt (s : State) (vw : Viewer) (flagRd : Bool) (part pa n : Nat) : List Byte :=
  (s.addrs part pa n).map (s.byteAt vw flagRd)

/-- A byte of a version is poisoned in its entry, else in memory (R333). -/
def State.psnOf (s : State) (v : Option Ver) (a : Nat) : Bool :=
  match v with
  | some v => v.psn.contains (a / 32)
  | none => s.psnMem.contains (a / 32)

/-- A poisoned granule among the bytes as a load sees them (R333). -/
def State.loadPoisoned (s : State) (vw : Viewer) (part pa n : Nat) : Bool :=
  (s.addrs part pa n).any fun a => s.psnOf (s.loadVer vw a) a
/-- A poisoned granule among the bytes as they stand at memory. -/
def State.poisonAt (s : State) (vw : Viewer) (flagRd : Bool) (part pa n : Nat) : Bool :=
  (s.addrs part pa n).any fun a => s.psnOf ((s.atVer vw flagRd a).map (·.2)) a

/-- The interleaved address of a linear HBM byte of the partition (R237). -/
def State.interOf (s : State) (part a : Nat) : Nat :=
  let k := s.stacksPer
  let g := a % 2 ^ 36 / 4096 * k + (a / 2 ^ 36 - part * k)
  0x8000000000 + g * 4096 + a % 4096

-- Stores and publishing.

/-- The lease under which a thread stores, the tether if there is one, and the bound of the page's latency class (R240, R270). -/
structure StoreBy where
  due : Nat
  bound : Nat
  th : Option (BitVec 4)
deriving DecidableEq, Repr

/-- The Keel by which an access of a class that is performed now completes (R240): class 3 has no bound. -/
def State.doneBy (s : State) (bound : Nat) : Nat := if bound = 0 then s.keel + 2 ^ 64 else s.keel + bound

/-- A store of the thread (R85, R171), still to be performed, whole (log 58). -/
def State.addStore (s : State) (pa : Nat) (bs : List Byte) (b : StoreBy) : State :=
  { s with
    seq := s.seq + 1
    vers := s.vers ++ [{
      cells := (s.addrs s.myPart pa bs.length).zip bs, src := s.iss.src, part := s.myPart, cell := s.myCell
      seq := s.seq, own := s.iss.phase, done := false, due := b.due, perf := s.doneBy b.bound, bound := b.bound, th := b.th
      prog := s.progNo }] }

/-- A write at memory by an agent (R172): published at `sc` from its stamp; `psn` are its poisoned granules, `th` the tether of a
thread's. -/
def State.addAt (s : State) (src part cell : Nat) (st : Stamp) (sc : Scope) (pa : Nat) (bs : List Byte) (due own : Nat)
    (psn : List Nat := []) (th : Option (BitVec 4) := none) : State :=
  { s with
    seq := s.seq + 1
    vers := s.vers ++ [{
      cells := (s.addrs part pa bs.length).zip bs, src := src, part := part, cell := cell, seq := s.seq
      own := own, pubs := [(sc, st)], due := due, atm := true, psn := psn, th := th, prog := s.progNo }] }

/-- A store of the thread to an ORD page: at memory, now (R85, R173). -/
def State.ordStore (s : State) (pa : Nat) (bs : List Byte) : State :=
  { s with
    seq := s.seq + 1
    vers := s.vers ++ [{
      cells := (s.addrs s.myPart pa bs.length).zip bs, src := s.iss.src, part := s.myPart, cell := s.myCell, seq := s.seq
      own := s.iss.phase, pubs := [(.sys, ⟨s.keel, s.iss.src⟩)], atm := true, ord := true, prog := s.progNo }] }

/-- A write that the device makes in a thread's name, no store of that thread (R280, R405): published to the partition from its
stamp. -/
def State.noteAt (s : State) (src part : Nat) (st : Stamp) (pa : Nat) (bs : List Byte) : State :=
  { s with
    seq := s.seq + 1
    vers := s.vers ++ [{
      cells := (s.addrs part pa bs.length).zip bs, src := src, part := part, cell := 0, seq := s.seq
      own := 0, pubs := [(.part, st)], atm := true, dead := true }] }

/-- A write of the host (R239), published at system scope when it is observed. -/
def State.hostWriteMem (s : State) (pa : Nat) (bs : List Byte) : State :=
  { s with
    seq := s.seq + 1
    vers := s.vers ++ [{
      cells := (s.addrs 0 pa bs.length).zip bs, src := 2056, part := 0, cell := 0, seq := s.seq, own := 0
      pubs := [(.sys, ⟨s.keel, 2056⟩)] }] }

/-- A publication at `b` makes one at `a` needless. -/
def scopeLe : Scope → Scope → Bool
  | .cell, _ => true
  | .part, .cell => false
  | .part, _ => true
  | .sys, .sys => true
  | .sys, _ => false

/-- Publish a version at a scope, unless it is already published as widely (R169). -/
def Ver.publish (v : Ver) (sc : Scope) (st : Stamp) : Ver :=
  if v.pubs.any fun p => scopeLe sc p.1 then v else { v with pubs := v.pubs ++ [(sc, st)], merged := false }

/-- Publish(scope): every store of the thread (R168). -/
def State.publish (s : State) (src : Nat) (sc : Scope) : State :=
  { s with vers := s.vers.map fun v => if v.src = src && !v.dead then v.publish sc ⟨s.keel, src⟩ else v }

/-- Slice of the publish buffer (R238). -/
def sliceOf (a : Nat) : Nat := if a < 0x8000000000 then a / 2 ^ 36 else a / 4096 % 8

/-- The 64-byte granules of a version in slice `n`. -/
def Ver.granules (v : Ver) (n : Nat) : Nat :=
  (((v.cells.map (·.1)).filter fun a => sliceOf a = n).map (· / 64)).eraseDups.length

/-- A full slice for what a thread would publish at a scope (R174): one entry holds one granule. What has merged and goes to a wider
scope takes its entries again. -/
def State.fullSlice (s : State) (src : Nat) (sc : Scope) : Option Nat :=
  let new := s.vers.filter fun v => v.src = src && !v.dead && (v.pubs = [] || v.merged) && !(v.pubs.any fun p => scopeLe sc p.1)
  let old := s.vers.filter fun v => v.pubs ≠ [] && !v.merged
  if (s.vers.map fun v => v.cells.length).sum ≤ 65536 then none
  else (List.range 8).find? fun n =>
    let need := (new.map fun v => v.granules n).sum
    0 < need && 65536 < need + (old.map fun v => v.granules n).sum

/-- An instruction that makes stores, atomics or flag writes of the thread (R168). -/
def storesMem : Instr → Bool
  | .stm _ | .stmq _ | .strq _ => true
  | .amoAdd _ | .amoMin _ | .amoMax _ | .amoMinu _ | .amoMaxu _ | .amoAnd _ | .amoOr _ | .amoXor _ | .amoSwap _
  | .amoCas _ _ => true
  | _ => false

/-- Every store of the thread dispatched earlier has been performed (R168). `id` is the entry of the publishing instruction. What a trap
has parked is no part of it: a publishing event in a handler takes effect without (log 52). -/
def State.storesDone (s : State) (id : Nat) : Bool :=
  let c := s.me
  !((c.bufA.takeWhile fun e => e.id ≠ id).any fun e => storesMem e.instr) &&
  !(c.streams.any fun t => storesMem t.ent.instr) &&
  s.vers.all fun v => v.src ≠ s.iss.src || v.dead || v.done

/-- An atomic of a later stamp has been made in this nanosecond over bytes that the thread would publish: it must not have read
past them (R172; log 46). -/
def State.atomHolds (s : State) (src : Nat) : Bool :=
  s.atoms.any fun p => (⟨s.keel, src⟩ : Stamp).lt p.1 && s.vers.any fun v =>
    v.src = src && !v.dead && !(v.pubs.any fun q => q.1 = .sys) && v.cells.any fun c => p.2.contains c.1

/-- The device holds every line of a host page that the thread would publish in a writable state (R239). -/
def State.linesHeld (s : State) (src : Nat) : Bool := s.vers.all fun v => v.src ≠ src || v.dead || !v.away

/-- The host has accessed lines of its memory: what is stored there and not published to it has to be held writable again (R239). -/
def State.loseLines (s : State) (pa n due : Nat) : State :=
  if paKind pa ≠ .host then s
  else { s with vers := s.vers.map fun v =>
    if v.src < 1024 && !(v.pubs.any fun p => p.1 = .sys) && v.cells.any (fun c => pa / 64 ≤ c.1 / 64 && c.1 / 64 ≤ (pa + n - 1) / 64) then
      { v with away := true, perf := if v.done then due else v.perf }
    else v }

/-- A publishing event may take effect (R168): the stores are done, their lines held and the buffer has room. -/
def State.mayPublish (s : State) (sc : Scope) : Bool :=
  s.storesDone s.iss.id && s.linesHeld s.iss.src && s.fullSlice s.iss.src sc = none && !(s.atomHolds s.iss.src)

/-- Publish now: a boundary of the thread that starts no phase (R165, R167). -/
def State.publishNow (s : State) (sc : Scope) : State :=
  (s.publish s.iss.src sc).modMe fun c => { c with lastB := s.keel + 1 }

/-- Start a new phase stamped now (R167). -/
def State.refresh (s : State) : State :=
  s.modMe fun c => { c with hzn := ⟨s.keel, s.iss.src⟩, phase := c.phase + 1, lastB := s.keel + 1 }

/-- Boundary(scope): publish, then refresh (R167). -/
def State.boundary (s : State) (sc : Scope) : State := (s.publish s.iss.src sc).refresh

/-- A boundary may take effect: the stores are done, the buffer has room, and the previous boundary lies in an earlier
nanosecond (R165, R168). -/
def State.mayBound (s : State) (sc : Scope) : Bool := s.mayPublish sc && s.me.lastB ≤ s.keel

/-- The instruction has been dispatched and the thread's control core waits for its publishing event or new phase (R168). -/
def publishes : Instr → Bool
  | .stm f => f.pub.isSome
  | .amoAdd f | .amoMin f | .amoMax f | .amoMinu f | .amoMaxu f | .amoAnd f | .amoOr f | .amoXor f | .amoSwap f
  | .amoCas f _ => f.pb || f.sp
  | .amosAdd f | .amosMin f | .amosMax f | .amosMinu f | .amosMaxu f | .amosAnd f | .amosOr f | .amosXor f | .amosSwap f
  | .amosCas f _ => f.pb || f.sp
  | _ => false

/-- Wait for a publishing event to be possible: KIND 8 where the buffer is full. -/
def State.waitPublish (s : State) (sc : Scope) : State :=
  let t := match s.fullSlice s.iss.src sc with
    | some n => s.waitOn 8 n none
    | none => s.stall
  { t with iss := { t.iss with pub := some sc } }

/-- Run `k` once the publishing event can take effect. -/
def State.afterPublish (s : State) (sc : Scope) (k : State → State) : State :=
  if s.mayBound sc then k (s.publishNow sc) else s.waitPublish sc

/-- Every horizon of the threads in a reach, running or saved, has passed a stamp (R174). -/
def State.passed (s : State) (reach : Nat → Bool) (st : Stamp) : Bool :=
  s.ctxs.all (fun c => c.2.status = .free || !(reach c.1) || st.lt c.2.hzn) &&
  s.slots.all fun k => k.members.all fun m => !(reach m.1) || st.lt m.2.hzn

/-- The threads that a version's publication at a scope reaches (R169). -/
def State.reachOf (s : State) (v : Ver) (sc : Scope) (src : Nat) : Bool :=
  match sc with
  | .cell => cellOf src = v.cell
  | .part => s.partOfSrc src = v.part
  | .sys => true

/-- An entry of the publish buffer may merge (R174): the horizon of every thread in its reach has passed its stamp. -/
def State.merges (s : State) (v : Ver) : Bool :=
  !v.merged && match v.pubs.getLast? with
    | some (sc, st) => st.keel < s.keel && s.passed (s.reachOf v sc) st
    | none => false

/-- The accesses dispatched and not yet performed, or performed and perhaps to be made again after a stop (R168, R347). -/
def Ctx.accesses (c : Ctx) : List Entry :=
  c.loads.map (·.ent) ++ c.bufA ++ c.streams.map (·.ent) ++ (c.parked.elim [] fun p => p.a ++ p.streams.map (·.ent))

/-- Every access still to be performed reads under a horizon past a stamp. -/
def State.readsPassed (s : State) (st : Stamp) : Bool :=
  s.ctxs.all (fun c => c.2.accesses.all fun e => st.lt e.hzn) &&
  s.slots.all fun k => k.members.all fun m => m.2.accesses.all fun e => st.lt e.hzn

/-- The stamp of a version published at system scope. -/
def Ver.sysStamp (v : Ver) : Option Stamp := (v.pubs.find? fun p => p.1 = .sys).map (·.2)

/-- `w` can never again be seen instead of a system-scope version `v` of stamp `st` (R171). -/
def Ver.under (w v : Ver) (st : Stamp) : Bool :=
  w.sysStamp.isSome && w.pubs.all fun p => p.2.lt st || (p.2 = st && w.seq < v.seq)
/-- `w` is seen instead of `v` by every reader that sees it. -/
def Ver.over (w v : Ver) (st : Stamp) : Bool :=
  w.pubs.all fun p => st.lt p.2 || (p.2 = st && v.seq < w.seq)

/-- A version of system scope is what every reader finds below the versions that follow it: it may stand in memory. -/
def State.settles (s : State) (v : Ver) : Bool :=
  match v.sysStamp with
  | none => false
  | some st => st.keel < s.keel && v.done && s.passed (fun _ => true) st && s.readsPassed st &&
      s.vers.all fun w => w.seq = v.seq || !(w.cells.any fun c => (tfind v.cells c.1).isSome) || w.under v st || w.over v st

/-- A merge of the version would change something. -/
def State.mergeable (s : State) (v : Ver) : Bool := s.merges v || s.settles v

def writeCells : List Host.Cell → List Host.Cell → List Host.Cell
  | m, [] => m
  | m, c :: cs => writeCells (mwrite m c.1 c.2) cs

/-- The cells cover a 32-byte granule whole. -/
def coversGran (cs : List Host.Cell) (g : Nat) : Bool := (List.range 32).all fun i => (tfind cs (32 * g + i)).isSome

/-- Drop the bytes of `v` from a version under it. -/
def Ver.without (w v : Ver) : Ver := { w with cells := w.cells.filter fun c => (tfind v.cells c.1).isNone }

/-- A settled version goes into memory; what lies under it can no longer be seen. -/
def State.settleVer (s : State) (v : Ver) : State :=
  let st := v.sysStamp.getD {}
  { s with
    mem := writeCells s.mem v.cells
    psnMem := v.psn ++ s.psnMem.filter fun g => !(v.psn.contains g || coversGran v.cells g)
    vers := ((s.vers.filter fun w => w.seq ≠ v.seq).map fun w => if w.under v st then w.without v else w).filter
      fun w => !w.cells.isEmpty }

-- Scratchpads and weight banks.

def spadKey (cell a : Nat) : Nat := cell * 2 ^ 21 + a
def bankKey (cell : Nat) (second : Bool) (off : Nat) : Nat := cell * 2 ^ 22 + b2n second * 2 ^ 21 + off

/-- In range under R77. -/
def spadOk (x n : Nat) : Bool := x + n ≤ Config.spadBytes

/-- Who accesses a scratchpad or bank (R242): the class's mask bit, the thread or channel, and the graph node it works for. -/
structure Path where
  cls : Nat
  src : Nat
  node : Option Nat := none
  /-- the dispatched entry that accesses -/
  ent : Nat := 0
deriving DecidableEq, Repr

/-- The paths of the instruction being executed. -/
def State.pathL (s : State) : Path := ⟨0, s.iss.src, s.me.node, 0⟩
def State.pathK (s : State) : Path := ⟨1, s.iss.src, s.me.node, s.iss.id⟩
/-- The V path of a cell's handler. -/
def State.pathV (s : State) (src : Nat) : Path := ⟨4, src, (s.ctx src).node, 0⟩

/-- The number by which `LateW.seers` names one dispatched entry (R316). -/
def entryAgent (id : Nat) : Nat := 65536 + id
/-- The number by which `LateW.src` names one transfer of a channel. -/
def xferAgent (ch id : Nat) : Nat := 1024 + ch + 4096 * (id + 1)

/-- The number by which `LateW.seers` names every access of one graph node (R224). -/
def nodeAgent (nid : Nat) : Nat := 2 ^ 70 + nid

/-- Something orders the write before the accesses of a path (R233, R245). -/
def LateW.shown (w : LateW) (p : Path) : Bool :=
  w.cls = p.cls || w.seen.getLsbD p.cls || w.seers.contains p.src || w.seers.contains (entryAgent p.ent) ||
    p.node.any fun n => w.seers.contains (nodeAgent n)

/-- Bytes with others written over them from `off`. -/
def patch (l : List Byte) (off : Nat) (bs : List Byte) : List Byte :=
  l.take off ++ List.replicate (off - l.length) 0 ++ bs ++ l.drop (off + bs.length)

/-- A granule after its writes in their order. -/
def Gran.now (g : Gran) : List Byte := g.ws.foldl (fun l w => patch l w.off w.bytes) g.base

/-- A granule as a path reads it: each write that nothing orders before the path is shown whole or not at all (R245). -/
def Gran.seen (g : Gran) (p : Path) (free : Nat → Bool) : List Byte :=
  g.ws.zipIdx.foldl (fun l w => if w.1.shown p || free w.2 then patch l w.1.off w.1.bytes else l) g.base

/-- The granules of `n` bytes. -/
def granulesOf (a n : Nat) : List Nat := if n = 0 then [] else (List.range ((a + n - 1) / 64 + 1 - a / 64)).map (· + a / 64)

/-- Read `n` bytes of a memory with unordered writes. -/
def seeBytes (m : List Host.Cell) (late : List (Nat × Gran)) (p : Path) (c a n : Nat) : List Byte :=
  if late.all fun g => g.2.ws.all fun w => w.shown p then mreads m a n
  else
    let one (k : Nat) : List Byte := match tfind late k with
      | some g => g.seen p (Config.showsLate c k)
      | none => mreads m (64 * k) 64
    slice ((granulesOf a n).flatMap one) (a % 64) n

/-- The place of a new write among a granule's writes: after those ordered before it, and before some of the others (R245). -/
def LateW.insert (w : LateW) (ws : List LateW) (free : Nat) : List LateW :=
  let p : Path := { cls := w.cls, src := w.src, node := w.node }
  let tail := (ws.reverse.takeWhile fun x => !(x.shown p)).length
  let at_ := if tail = 0 then ws.length else ws.length - free % (tail + 1)
  ws.take at_ ++ [w] ++ ws.drop at_

/-- Write bytes, granule by granule. -/
def lateWrite (m : List Host.Cell) (late : List (Nat × Gran)) (p : Path) (c a : Nat) (bs : List Byte) :
    List Host.Cell × List (Nat × Gran) :=
  (granulesOf a bs.length).foldl (fun acc k =>
    let lo := max a (64 * k)
    let hi := min (a + bs.length) (64 * k + 64)
    let g := (tfind acc.2 k).getD ⟨mreads acc.1 (64 * k) 64, []⟩
    let w : LateW := { off := lo - 64 * k, bytes := (bs.drop (lo - a)).take (hi - lo), cls := p.cls, src := p.src, node := p.node }
    let g := { g with ws := w.insert g.ws (Config.landsBefore c k) }
    (mwrites acc.1 lo (slice g.now (lo - 64 * k) (hi - lo)), tput acc.2 k g)) (m, late)

/-- Mark the writes `f` names; a write at the front that every class sees joins the granule's bytes. -/
def lateMark (f : LateW → LateW) (late : List (Nat × Gran)) : List (Nat × Gran) :=
  (late.map fun e =>
    let ws := e.2.ws.map f
    let old := ws.takeWhile fun w => (w.seen ||| (1#6 <<< w.cls)) = BitVec.allOnes 6
    (e.1, ({ base := ({ base := e.2.base, ws := old } : Gran).now, ws := ws.drop old.length } : Gran))).filter
    fun e => !e.2.ws.isEmpty

/-- The write is ordered before every later access of some classes, and of an agent. -/
def LateW.order (w : LateW) (cls : BitVec 6) (ags : List Nat) : LateW :=
  { w with seen := w.seen ||| cls, seers := w.seers ++ ags.filter fun t => !(w.seers.contains t) }

def State.spadRead (s : State) (p : Path) (cell a n : Nat) : List Byte := seeBytes s.spad s.late p s.choices (spadKey cell a) n
def State.spadWrite (s : State) (p : Path) (cell a : Nat) (bs : List Byte) : State :=
  let r := lateWrite s.spad s.late p s.choices (spadKey cell a) bs
  { s with
    spad := r.1, late := r.2
    psnSpad := s.psnSpad.filter fun g => !(covers (spadKey cell a) bs.length g) }
def State.spadPoisoned (s : State) (cell a n : Nat) : Bool :=
  s.psnSpad.any fun g => decide (32 * g < spadKey cell a + n) && decide (spadKey cell a < 32 * (g + 1))
def State.bankRead (s : State) (p : Path) (cell : Nat) (second : Bool) (a n : Nat) : List Byte :=
  seeBytes s.banks s.lateB p s.choices (bankKey cell second a) n
def State.bankWrite (s : State) (p : Path) (cell : Nat) (second : Bool) (a : Nat) (bs : List Byte) : State :=
  let r := lateWrite s.banks s.lateB p s.choices (bankKey cell second a) bs
  { s with
    banks := r.1, lateB := r.2
    psnBank := s.psnBank.filter fun g => !(covers (bankKey cell second a) bs.length g) }
def State.bankPoisoned (s : State) (cell : Nat) (second : Bool) (a n : Nat) : Bool :=
  s.psnBank.any fun g => decide (32 * g < bankKey cell second a + n) && decide (bankKey cell second a < 32 * (g + 1))

/-- The contents as they stand, and whole contents put in place: the save and the reload of a region (R348). -/
def State.spadNow (s : State) (cell a n : Nat) : List Byte := mreads s.spad (spadKey cell a) n
def State.bankNow (s : State) (cell : Nat) (second : Bool) (a n : Nat) : List Byte := mreads s.banks (bankKey cell second a) n
def dropLate (late : List (Nat × Gran)) (a n : Nat) : List (Nat × Gran) :=
  late.filter fun e => !(decide (a < 64 * e.1 + 64) && decide (64 * e.1 < a + n))
def State.spadPut (s : State) (cell a : Nat) (bs : List Byte) : State :=
  { s with
    spad := mwrites s.spad (spadKey cell a) bs, late := dropLate s.late (spadKey cell a) bs.length
    psnSpad := s.psnSpad.filter fun g => !(covers (spadKey cell a) bs.length g) }
def State.bankPut (s : State) (cell : Nat) (second : Bool) (a : Nat) (bs : List Byte) : State :=
  { s with
    banks := mwrites s.banks (bankKey cell second a) bs, lateB := dropLate s.lateB (bankKey cell second a) bs.length
    psnBank := s.psnBank.filter fun g => !(covers (bankKey cell second a) bs.length g) }

/-- The writes that a condition names, in granules of some keys, are ordered before some classes and agents (R245, R247). -/
def orderKeys (lo hi : Nat) (q : LateW → Bool) (cls : BitVec 6) (ags : List Nat) (late : List (Nat × Gran)) : List (Nat × Gran) :=
  late.flatMap fun e =>
    if 64 * e.1 < hi && lo < 64 * e.1 + 64 then lateMark (fun w => if q w then w.order cls ags else w) [e] else [e]
def State.orderSpad (s : State) (cell a n : Nat) (q : LateW → Bool) (cls : BitVec 6) (ags : List Nat) : State :=
  { s with late := orderKeys (spadKey cell a) (spadKey cell a + n) q cls ags s.late }
def State.orderBanks (s : State) (cell : Nat) (q : LateW → Bool) (cls : BitVec 6) (ags : List Nat) : State :=
  { s with lateB := orderKeys (bankKey cell false 0) (bankKey (cell + 1) false 0) q cls ags s.lateB }
/-- The same of a cell's scratchpad and banks. -/
def State.orderLate (s : State) (cell : Nat) (q : LateW → Bool) (cls : BitVec 6) (ags : List Nat) : State :=
  (s.orderSpad cell 0 Config.spadBytes q cls ags).orderBanks cell q cls ags
/-- The same of the whole device. -/
def State.orderAll (s : State) (q : LateW → Bool) (cls : BitVec 6) (ags : List Nat) : State :=
  { s with
    late := lateMark (fun w => if q w then w.order cls ags else w) s.late
    lateB := lateMark (fun w => if q w then w.order cls ags else w) s.lateB }

/-- The key of a thread's team, or of the thread alone (R348). -/
def State.teamKey (s : State) (src : Nat) : Nat :=
  s.partOfSrc src * 2 ^ 20 + (s.ctx src).team.elim (2 ^ 17 + src % 2 ^ 17) (· % 2 ^ 17)
/-- The key by which a saved team owns regions. -/
def SaveSlot.key (k : SaveSlot) : Nat := k.part * 2 ^ 20 + 2 ^ 18 + k.slot % 2 ^ 18

/-- The regions of bytes of the scratchpad. -/
def regionsOf (a n : Nat) : List Nat := if n = 0 then [] else (List.range ((a + n - 1) / 65536 + 1 - a / 65536)).map (· + a / 65536)

/-- A region cannot be used yet (R348): a saved team other than `key` owns it, or its reload is to come. -/
def State.regionBusy (s : State) (cell key r : Nat) : Option Instr :=
  if (s.cell cell).reload.any fun e => e.1 = r then some .lazyRegionReload
  else match tfind (s.cell cell).owners r with
    | some k => if k ≠ key && s.slots.any (fun x => !x.members.isEmpty && x.key = k) then some .lazyRegionSave else none
    | none => none

/-- Make `key` the owner of those regions that are free: a region that another running team owns stays that team's (R348). -/
def State.own (s : State) (cell key : Nat) (rs : List Nat) : State :=
  if rs.all fun r => (tfind (s.cell cell).owners r).isSome then s
  else s.modCell cell fun c => { c with owners := rs.foldl (fun o r => if (tfind o r).isSome then o else tput o r key) c.owners }

/-- Run `k` on regions of a cell when all may be used; else the region's event comes first and the access waits (R348). -/
def State.withRegions (s : State) (cell key : Nat) (rs : List Nat) (k : State → State) : State :=
  match rs.findSome? fun r => (s.regionBusy cell key r).map fun i => (r, i) with
  | some (r, i) => (s.post i { a := cell, b := r }).stall
  | none => k (s.own cell key rs)

/-- An access of the thread to its scratchpad (R77): out of range is fatal and nothing is done. -/
def State.withSpad (s : State) (x n : Nat) (k : State → State) : State :=
  if spadOk x n then s.withRegions s.myCell (s.teamKey s.iss.src) (regionsOf x n) k else s.fatal .spadRange

-- Page tables (R250 to R255).

/-- Reasons a walk fails (R265), in the order of their codes. -/
inductive Why where
  | notMapped | noWrite | owner | badTable | badLeaf | stale | noExec
deriving DecidableEq, Repr

def Why.code : Why → BitVec 4
  | .notMapped => 0 | .noWrite => 1 | .owner => 2 | .badTable => 3 | .badLeaf => 4 | .stale => 5 | .noExec => 6

/-- Failure code of R309 for a walk's reason. -/
def Why.copyCode (w : Why) : Nat := 3 + w.code.toNat

/-- A leaf entry (R252) with its address. -/
structure Leaf where
  addr : Nat
  e : BitVec 128
deriving DecidableEq, Repr

def Leaf.f (l : Leaf) (lo n : Nat) : Nat := bitsOf l.e.toNat lo n
def Leaf.b (l : Leaf) (i : Nat) : Bool := l.e.getLsbD i
def Leaf.pa (l : Leaf) : Nat := l.f 16 36 * 65536
def Leaf.sz (l : Leaf) : BitVec 2 := l.e.extractLsb' 2 2
def Leaf.w (l : Leaf) : Bool := l.b 4
def Leaf.x (l : Leaf) : Bool := l.b 5
def Leaf.wb (l : Leaf) : Bool := l.b 6
def Leaf.ord (l : Leaf) : Bool := l.b 7
def Leaf.lc (l : Leaf) : BitVec 2 := l.e.extractLsb' 8 2
def Leaf.cnt (l : Leaf) : Bool := l.b 14
def Leaf.gen (l : Leaf) : BitVec 16 := l.e.extractLsb' 64 16
/-- Lease(L) = 2^(L+8) ns. -/
def Leaf.lease (l : Leaf) : Nat := 2 ^ (l.f 10 4 + 8)

def pageSize (sz : BitVec 2) : Nat :=
  match sz.toNat with
  | 0 => 65536 | 1 => 2 ^ 20 | 2 => 2 ^ 24 | _ => 2 ^ 28

/-- An HBM address in a stack the partition owns. -/
def State.ownsHbm (s : State) (part pa : Nat) : Bool := paKind pa = .hbm && s.partOfStack (pa / 2 ^ 36) = part

/-- The page is one the walkers may lease to the partition (R236, R383, R401, R405). -/
def State.leafOk (s : State) (part : Nat) (l : Leaf) : Bool :=
  let n := pageSize l.sz
  let last := l.pa + n - 1
  match paKind l.pa with
  | .hbm => last < 0x8000000000 && l.lc = 0 && s.ownsHbm part l.pa && s.ownsHbm part last
  | .inter => last < 0x8000000000 + s.stacksPer * 2 ^ 36 && l.lc = 0
  | .notify =>
    last < 0xF00000400000 && l.lc = 0 && l.ord &&
    (List.range (n / 65536)).all fun i => s.partOfQueue ((l.pa - 0xF00000000000) / 4096 + 16 * i) = part
  | .device =>
    last < 0xF00002000000 && l.lc = 0 && l.ord &&
    -- partition pages of others, debug blocks, windsock and hold-limit registers
    !(l.pa < 0xF00001900000 && 0xF00001800000 ≤ last &&
      !(0xF00001800000 + part * 0x20000 ≤ l.pa && last < 0xF00001800000 + (part + 1) * 0x20000)) &&
    !(l.pa < 0xF00001C41000 && 0xF00001C00000 ≤ last)
  | .peer => last < 0xF20000000000 && l.lc = 1 && l.ord
  | .host => last < 0x10000000000000 && (l.lc = 2 || l.lc = 3) && !l.ord
  | .nothing => false

/-- A page-table entry as the walkers see it. -/
def State.pte (s : State) (pa : Nat) : BitVec 128 := tget 0 s.pt pa

/-- The checks of a leaf that a walk found (R252, R253, R255). -/
def State.checkLeaf (s : State) (part : Nat) (l : Leaf) : Except Why Leaf :=
  if l.f 96 8 ≠ part then .error .owner
  else if l.pa % pageSize l.sz ≠ 0 then .error .badTable
  else if s.leafOk part l then .ok l else .error .badLeaf

/-- An entry is a valid leaf of a size. -/
def leafOf (sz : BitVec 2) (e : BitVec 128) : Bool := e.getLsbD 0 && e.getLsbD 1 && e.extractLsb' 2 2 = sz

/-- The entry that serves index `idx` of a level-3 table (R253): the first of the group of 256 or 16 that holds the index, every
other member of which must be like it, or the entry itself. -/
def State.leaf3 (s : State) (part tbl idx : Nat) : Except Why Leaf :=
  let e := s.pte (tbl + 16 * idx)
  let head (g : Nat) : Leaf := ⟨tbl + 16 * (idx / g * g), s.pte (tbl + 16 * (idx / g * g))⟩
  let member (sz : BitVec 2) (h : Leaf) : Except Why Leaf := if leafOf sz e then s.checkLeaf part h else .error .badTable
  if leafOf 2 (head 256).e then member 2 (head 256)
  else if leafOf 1 (head 16).e then member 1 (head 16)
  else if !(e.getLsbD 0) then .error .notMapped
  else if !(e.getLsbD 1) then (if bitsOf e.toNat 96 8 ≠ part then .error .owner else .error .badTable)
  else match (e.extractLsb' 2 2).toNat with
    | 0 => s.checkLeaf part ⟨tbl + 16 * idx, e⟩
    | 1 => if (head 16).e.getLsbD 0 then .error .badTable else .error .notMapped
    | 2 => if (head 256).e.getLsbD 0 then .error .badTable else .error .notMapped
    | _ => .error .badTable

/-- The walk from a table at a level (R250 to R253). -/
def State.walkFrom (s : State) (part va : Nat) : Nat → Nat → Nat → Except Why Leaf
  | 0, _, _ => .error .badTable
  | fuel + 1, lvl, tbl =>
    if lvl = 3 then s.leaf3 part tbl (bitsOf va 16 12)
    else
      let a := tbl + 16 * (match lvl with
        | 0 => bitsOf va 52 4 | 1 => bitsOf va 40 12 | _ => bitsOf va 28 12)
      let e := s.pte a
      if !(e.getLsbD 0) then .error .notMapped
      else if e.getLsbD 1 then
        if lvl = 2 && e.extractLsb' 2 2 = 3 then s.checkLeaf part ⟨a, e⟩ else .error .badTable
      else if bitsOf e.toNat 96 8 ≠ part then .error .owner
      else
        let t := bitsOf e.toNat 16 36 * 65536
        if s.ownsHbm part t then s.walkFrom part va fuel (lvl + 1) t else .error .badTable

/-- A walk of the partition's page table. -/
def State.walk (s : State) (part va : Nat) : Except Why Leaf :=
  if 2 ^ 56 ≤ va then .error .notMapped
  else
    let root := (s.part part).ptroot
    if s.ownsHbm part root then s.walkFrom part va 4 0 root else .error .badTable

/-- The base of the page that holds `va`. -/
def pageBase (l : Leaf) (va : Nat) : Nat := va / pageSize l.sz * pageSize l.sz
/-- The physical address of `va` under a leaf. -/
def Leaf.addrOf (l : Leaf) (va : Nat) : Nat := l.pa + va % pageSize l.sz

/-- No change record of the leaf is held (R269). -/
def State.writeLeaseAllowed (s : State) (l : Leaf) : Bool := s.changes.all fun c => c.leaf ≠ l.addr || c.till ≤ s.keel

/-- An engine's translation of one byte (R311): `none` waits (skew, a write-block, a change record). -/
def State.engineWalk (s : State) (part va : Nat) (write : Bool) : Option (Except Why Nat) :=
  if s.skew then none
  else match s.walk part va with
    | .error w => some (.error w)
    | .ok l =>
      if !write then some (.ok (l.addrOf va))
      else if !l.w then some (.error .noWrite)
      else if l.wb || !(s.writeLeaseAllowed l) then none
      else some (.ok (l.addrOf va))

end Sys2Proof.Machine
end

