-- ==== Sys2Proof/Machine/Issue.lean ====
section
/-! DEFINITION. Fetching, issuing and dispatching (02 R13 to R21, 03 R42 to R44, 04 R65 to R68, 14 R414): what the control
core and the units do around the meaning of an instruction. -/

namespace Sys2Proof.Machine

/-- The unit of R13. -/
def unitOf : Instr → Unit4
  | .ldq _ | .stq _ | .ldmq _ | .stmq _ | .ldrq _ | .strq _ | .lds _ | .sts _ | .ldm _ | .stm _ => .a
  | .amoAdd _ | .amoMin _ | .amoMax _ | .amoMinu _ | .amoMaxu _ | .amoAnd _ | .amoOr _ | .amoXor _ | .amoSwap _
  | .amoCas _ _ => .a
  | .amosAdd _ | .amosMin _ | .amosMax _ | .amosMinu _ | .amosMaxu _ | .amosAnd _ | .amosOr _ | .amosXor _ | .amosSwap _
  | .amosCas _ _ => .a
  | .teth _ _ _ | .trenew _ | .trel _ | .tstat _ _ | .rprobe _ _ _ => .a
  | .qadv q _ | .qstat _ q | .qcfg _ q | .qclr q => if q.store then .a else .e
  | .vadd _ | .vsub _ | .vmul _ | .vfma _ | .vfnma _ | .vmax _ | .vmin _ | .vabs _ | .vneg _ | .vcpy _ | .vrcp _ | .vrsq _
  | .vexp2 _ | .vlog2 _ | .vsqrt _ | .vdiv _ | .viadd _ | .visub _ | .vimul _ | .vand _ | .vor _ | .vxor _ | .vshl _
  | .vshr _ | .vsra _ | .vimin _ | .vimax _ | .vcmpEq _ | .vcmpNe _ | .vcmpLt _ | .vcmpLe _ | .vcmpUn _ | .vcmpIeq _
  | .vcmpIlt _ | .vcmpIltu _ | .vcvt _ | .vqnt _ | .vdq _ | .vsum _ | .vrmax _ | .vrmin _ | .vperm _ | .vrot _ | .vbcast _
  | .vsel _ | .vldi _ _ _ => .e
  | .mma _ | .mzero _ | .mlda _ _ | .msta _ _ | .mprog _ _ | .mrst _ _ | .epi _ | .pass _ _ | .tell _ => .t
  | _ => .c

/-- An atomic through a tether. -/
def isAmo : Instr → Bool
  | .amoAdd _ | .amoMin _ | .amoMax _ | .amoMinu _ | .amoMaxu _ | .amoAnd _ | .amoOr _ | .amoXor _ | .amoSwap _
  | .amoCas _ _ => true
  | _ => false

def Src.regs : Src → List Reg
  | .bcast r => [r.setWidth 6]
  | _ => []
def Opnd.regs : Opnd → List Reg
  | .held => []
  | .from x => Src.regs x
def Count.regs {n : Nat} : Count n → List Reg
  | .reg r => [r]
  | .imm _ => []

/-- The scalars an instruction of units A, E and T captures when it issues (R16). -/
def captures : Instr → List Reg
  | .ldq f | .stq f => [f.a, f.s] ++ Count.regs f.n
  | .ldmq f | .stmq f => [f.a, f.s] ++ Count.regs f.n
  | .ldrq f | .strq f => [f.a] ++ Count.regs f.n
  | .lds f => [f.a] | .sts f => [f.d, f.a] | .ldm f => [f.x] | .stm f => [f.d, f.x]
  | .amoAdd f | .amoMin f | .amoMax f | .amoMinu f | .amoMaxu f | .amoAnd f | .amoOr f | .amoXor f | .amoSwap f => [f.a, f.b]
  | .amoCas f c => [f.a, f.b, c]
  | .amosAdd f | .amosMin f | .amosMax f | .amosMinu f | .amosMaxu f | .amosAnd f | .amosOr f | .amosXor f
  | .amosSwap f => [f.a, f.b]
  | .amosCas f c => [f.a, f.b, c]
  | .teth _ a _ => [a] | .rprobe a b _ => [a, b]
  | .qadv _ n => Count.regs n | .qcfg a _ => [a]
  | .vadd f | .vsub f | .vmul f | .vfma f | .vfnma f | .vdiv f => Opnd.regs f.a ++ Opnd.regs f.b
  | .vmax f | .vmin f | .vand f | .vor f | .vxor f | .vshl f | .vshr f | .vsra f | .vimin f | .vimax f | .vperm f =>
    Opnd.regs f.a ++ Opnd.regs f.b
  | .vabs f | .vneg f | .vcpy f | .vrmax f | .vrmin f => Opnd.regs f.a
  | .vrcp f | .vrsq f | .vexp2 f | .vlog2 f | .vsqrt f | .vsum f => Opnd.regs f.a
  | .viadd f | .visub f | .vimul f => Opnd.regs f.a ++ Opnd.regs f.b
  | .vcmpEq f | .vcmpNe f | .vcmpLt f | .vcmpLe f | .vcmpUn f | .vcmpIeq f | .vcmpIlt f | .vcmpIltu f =>
    Opnd.regs f.a ++ Opnd.regs f.b
  | .vcvt f => Opnd.regs f.a | .vqnt f => Src.regs f.a | .vdq f => Opnd.regs f.a ++ Opnd.regs f.b
  | .vrot f | .vbcast f => Opnd.regs f.a | .vsel f => Opnd.regs f.a ++ Opnd.regs f.b
  | .mma f =>
    (match f.a with | .desc r _ => [r, r + 1] | _ => []) ++ (match f.b with | .desc r _ => [r, r + 1] | _ => []) ++
    (if f.ks = 0 then [1] else [])
  | .mlda _ a | .msta _ a | .pass a _ => [a]
  | .epi f => (match f.dest with | .spad a => [a] | _ => []) ++ [f.b, f.c]
  | _ => []

/-- The scalars an instruction names, read or written (R14). -/
def names : Instr → List Reg
  | .add d a b | .sub d a b | .mul d a b | .mulh d a b | .mulhu d a b | .div d a b | .divu d a b | .rem d a b
  | .remu d a b | .and d a b | .or d a b | .xor d a b | .andn d a b | .shl d a b | .shr d a b | .sra d a b | .rot d a b
  | .min d a b | .max d a b | .minu d a b | .maxu d a b => [d, a, b]
  | .clz d a | .popc d a | .mov d a => [d, a]
  | .madd d a b c => [d, a, b, c] | .sel d a b _ => [d, a, b] | .addx d a b _ => [d, a, b]
  | .addi d a _ | .andi d a _ | .ori d a _ | .xori d a _ => [d, a]
  | .shli d a _ | .shri d a _ | .srai d a _ | .roti d a _ => [d, a]
  | .li d _ | .lih d _ | .liz d _ => [d]
  | .cmpEq _ a b | .cmpNe _ a b | .cmpLt _ a b | .cmpLe _ a b | .cmpLtu _ a b | .cmpLeu _ a b => [a, b]
  | .cmpiEq _ a _ | .cmpiNe _ a _ | .cmpiLt _ a _ | .cmpiLe _ a _ | .cmpiLtu _ a _ | .cmpiLeu _ a _ => [a]
  | .pget d | .keel d => [d] | .pput a => [a] | .vget d _ _ => [d] | .vput _ a _ => [a]
  | .call _ => [62] | .jmp a | .ret a => [a] | .callr a => [a, 62]
  | .loop a _ | .loopp a _ _ => [a] | .sleept a | .sleepd a => [a]
  | .pref f => [f.x]
  | .rig a _ => [a] | .admitTile _ a b c => [a, b, c] | .arrv d | .meet d | .wver d | .wstat d _ _ => [d]
  | .flagset _ a b _ => [a, b] | .flagw d _ a b c _ _ => [d, a, b, c]
  | .join d a | .teamq d a _ => [d, a] | .leave a => [a]
  | .glaunch d a _ | .gadd d a | .gqry d a _ => [d, a]
  | .copy d b a _ => [d, b, a] | .copyf d b a c _ => [d, b, a, c] | .cwait _ a | .cchk _ a => [a] | .cstat d _ => [d]
  | .wreg d _ a b => [d, a, b] | .wdereg a => [a] | .put _ a b c _ => [a, b, c] | .wwait _ a b => [a, b]
  | .wcnt _ d a => [d, a]
  | .rstart a _ | .rwait a _ | .rarbHbm a | .rarbLink a => [a] | .rstat d _ => [d]
  | .mopen _ c a _ => [c, a] | .mopenw _ c a b _ => [c, a, b] | .mbind d a b | .munbind d a b => [d, a, b]
  | .mqry d a _ => [d, a]
  | .errq d _ | .rdsys d _ | .blst d => [d] | .wrsys _ a | .evt a _ => [a]
  | i => captures i ++ (destReg i).toList

-- Fetch (R414).

/-- The lease of a cell's cache that holds `va` and has not lapsed (R256, R257, R260). -/
def State.lease (s : State) (cell va : Nat) : Option Lease :=
  (s.cell cell).leases.find? fun l => l.va ≤ va && va < l.va + pageSize l.sz && s.keel < l.exp

/-- A fetch sees what the thread's loads see, but none of its own stores that are not published and refreshed (R414). -/
def State.fetchView (s : State) (src : Nat) : Viewer :=
  ⟨src, some (s.partOfSrc src), some (cellOf src), (s.ctx src).hzn, none, none⟩

/-- The word at a virtual PC, as a load of the thread at its horizon; none on a miss or without X. -/
def State.fetch (s : State) (src : Nat) (pc : Word) : Option Word :=
  match s.lease (cellOf src) pc.toNat with
  | some l =>
    if l.x && pc.toNat < 2 ^ 56 then
      some (w64 (leVal (s.loadBytes (s.fetchView src) (s.partOfSrc src) (l.pbase + pc.toNat % pageSize l.sz) 8)))
    else none
  | none => none

def State.fetchPoisoned (s : State) (src : Nat) (pc : Word) : Bool :=
  match s.lease (cellOf src) pc.toNat with
  | some l => s.loadPoisoned (s.fetchView src) (s.partOfSrc src) (l.pbase + pc.toNat % pageSize l.sz) 8
  | none => false

-- Prefix chains (R42 to R44).

/-- A target that can take the prefixes of its chain. -/
def chainOk (p : Pfx) : Instr → Bool
  | .addi .. | .andi .. | .ori .. | .xori .. | .shli .. | .shri .. | .srai .. | .roti .. | .li ..
  | .cmpiEq .. | .cmpiNe .. | .cmpiLt .. | .cmpiLe .. | .cmpiLtu .. | .cmpiLeu .. | .tell .. | .evt .. => p.lane.isNone
  | .vldi .. => true
  | .vqnt _ | .vdq _ => false
  | i => p.xtnd.isNone && unitOf i = .e && (match i with
    | .qadv .. | .qstat .. | .qcfg .. | .qclr .. => false
    | _ => true)

/-- The PC is the last word of a body on the loop stack. -/
def Ctx.isLast (c : Ctx) (pc : Word) : Bool := c.loops.any fun l => l.last = pc

-- Loops (R65 to R67).

/-- Rotate of R67: the stage predicates and RRB. -/
def Ctx.rotate (c : Ctx) (sm1 count : Nat) : Ctx :=
  -- p1..pS take the values of p0..p(S-1) shifted up, and p1 the new value
  let lowMask : BitVec 8 := BitVec.ofNat 8 (2 ^ (sm1 + 2) - 2)
  let shifted := (c.preds &&& (lowMask >>> 1)) <<< 1
  let new : BitVec 8 := if sm1 < count then 2 else 0
  { c with preds := (c.preds &&& ~~~lowMask) ||| (shifted &&& lowMask &&& ~~~2#8) ||| new, rrb := c.rrb + 15 }

/-- The back-edge decision of R65 for the top entry, whose end has issued. Answers the entries that exited and whether a
`LOOPP` turned. -/
def backEdge : Nat → Ctx → Ctx × List LoopE × Bool
  | 0, c => (c, [], false)
  | fuel + 1, c =>
    match c.loops with
    | [] => (c, [], false)
    | e :: rest =>
      let n := e.count - 1
      if 0 < n then
        let c := { c with loops := { e with count := n } :: rest, pc := e.start }
        match e.stages with
        | some sm1 => (c.rotate sm1 n, [], true)
        | none => (c, [], false)
      else
        let c := { c with loops := rest, pc := e.last + 8 }
        match rest with
        | o :: _ =>
          if o.last = e.last then
            let (c, ex, t) := backEdge fuel c
            (c, e :: ex, t)
          else (c, [e], e.stages.isSome)
        | [] => (c, [e], e.stages.isSome)

/-- The PC after an instruction that does not transfer control (R65). -/
def Ctx.advance (c : Ctx) : Ctx × List LoopE × Bool :=
  match c.loops with
  | e :: _ => if e.last = c.pc then backEdge 5 c else ({ c with pc := c.pc + 8 }, [], false)
  | [] => ({ c with pc := c.pc + 8 }, [], false)

/-- A `LOOPP` entry is on the stack (R70). -/
def Ctx.inLoopp (c : Ctx) : Bool := c.loops.any fun l => l.stages.isSome

-- Tail trace (R404).

/-- The plain record of a word that went to a unit, or the SYNC record in its place. -/
def plainRec (keel : Nat) (pc : Word) (u : Unit4) (d : Dbg) : List Byte :=
  let delta := (pc.toNat : Int) - d.trPc.toNat
  let fits := delta % 8 = 0 && -65536 ≤ delta && delta < 65536
  if !fits || d.trRecs % 4096 = 0 then syncRec keel pc
  else leBytes 4 (2 * u.code.toNat + 8 * ((delta / 8) % 16384).toNat + 2 ^ 17 * min (keel - d.trKeel) 32767)

/-- The record of one issued word. -/
def State.traceIssue (s : State) (src : Nat) (pc : Word) (u : Unit4) (isRet : Bool) (target : Word) : State :=
  if (s.dbg src).lcomp && s.iss.rep then s
  else if isRet then s.traceRec src pc (fun _ => (longRec 2 0 s.keel target.toNat, some target)) true
  else s.traceRec src pc (fun d => (plainRec s.keel pc u d, some pc)) false

/-- The LOOP records of loop exits. -/
def State.traceExits (s : State) (src : Nat) (es : List LoopE) : State :=
  es.foldl (fun s e =>
    s.traceRec src s.iss.pc (fun _ => (longRec 1 e.id.toNat ((e.total % 2 ^ 32) + 2 ^ 32 * (e.stages.elim 0 (· + 1)) +
      2 ^ 35 * (s.ctx src).rrb.toNat) e.last.toNat, some e.last)) true) s

/-- A word lies in a loop body after its first iteration (R404). -/
def Ctx.repeats (c : Ctx) (pc : Word) : Bool :=
  c.loops.any fun e => e.start.toNat ≤ pc.toNat && pc.toNat ≤ e.last.toNat && e.count < e.total

-- Stops (R402).

/-- Halt a context: its string freezes, its wait is recorded, the trace gets a STOP record. -/
def State.haltCtx (s : State) (src : Nat) : State :=
  let c := s.ctx src
  match c.status with
  | .run | .sleeping =>
    let s := (s.stopWaits src).modCtx src fun c => { c with
      status := .halted, resumeTo := c.status, haltWait := false, stepping := false, pc := (c.pfx.map (·.pc0)).getD c.pc, pfx := none }
    (s.freezeStr src).traceStop src 0 (s.ctx src).pc
  | _ => s

-- Issue at the control core.

/-- A thread that may issue (R14): running, not frozen with its string, not being stopped. -/
def State.runnable (s : State) (src : Nat) : Bool :=
  let c := s.ctx src
  c.status = .run && !(s.strFrozen src)

/-- Units of a thread may issue its entries. -/
def State.unitRuns (s : State) (src : Nat) : Bool :=
  let c := s.ctx src
  (c.status = .run || c.status = .sleeping) && !(s.strFrozen src)

/-- The PC reported for the word at the PC: the first prefix of its chain (R42). -/
def Ctx.chainPc (c : Ctx) : Word := (c.pfx.map (·.pc0)).getD c.pc

/-- A use of the page that holds `va`: it is the most recently used one of the cell (R256). -/
def State.touch (s : State) (cell va : Nat) : State :=
  { (s.modCell cell fun c => { c with
      leases := modFirst (fun l => l.va ≤ va && va < l.va + pageSize l.sz && s.keel < l.exp) (fun l => { l with used := s.seq }) c.leases })
    with seq := s.seq + 1 }

/-- Start the issue of an instruction of unit C. -/
def State.beginC (s : State) (src : Nat) (w : Word) : State :=
  let c := s.ctx src
  { s with
    choices := s.choices + 1
    iss := {
      src := src, unit := .c, pc := c.chainPc, word := w, xtnd := c.pfx.bind (·.xtnd), lane := c.pfx.bind (·.lane)
      rrb := c.rrb, wboff := c.wboff, rvm := c.rvm, hzn := c.hzn, phase := c.phase, id := 0, rep := c.repeats c.pc, flow := .fall } }

/-- A kernel-iteration boundary, or an instruction boundary outside `LOOPP` bodies: a deferred halt or breakpoint is taken
(R70, R403). -/
def State.loopBoundary (s : State) (src : Nat) : State :=
  let c := s.ctx src
  let s := if c.haltWait || c.stepping then s.haltCtx src else s
  match c.bpWait with
  | some n => (s.modCtx src fun c => { c with bpWait := none }).post .breakpointMatch { a := src, b := n.toNat, flg := true }
  | none => s

/-- Finish an issue whose PC advances (R20, R65): loops are decided, deferred stops taken (R70, R403). -/
def State.advanceC (s : State) (src : Nat) (pc : Word) (u : Unit4) (keepPfx isRet moved : Bool) : State :=
  let c := s.ctx src
  let (c', exits, turned) := if moved then (c, [], false) else c.advance
  let c' := if keepPfx then c' else { c' with pfx := none }
  let c' := { c' with bpSkip := false }
  let s := (s.setCtx src c').traceIssue src pc u isRet c'.pc
  let s := s.traceExits src exits
  if (turned || !c'.inLoopp) && !keepPfx then s.loopBoundary src else s

/-- Mark the control core of a cell as having issued for a slot in this nanosecond. -/
def State.issued (s : State) (src : Nat) : State :=
  s.modCell (cellOf src) fun c => { c with last := (s.keel + 1, c.last.2), rr := (src % 4, c.rr.2) }

def isPrefix : Instr → Bool
  | .xtnd _ | .lane _ _ => true
  | _ => false
def isRet : Instr → Bool
  | .ret _ => true
  | _ => false
/-- After a return from a trap the next issue matches no breakpoint (R403). -/
def isRfe : Instr → Bool
  | .rfe => true
  | _ => false

/-- Finish the issue of an instruction of unit C: a wait leaves the PC, and the thread is not tried again this nanosecond. An
instruction that waits has issued (R168); one that is held has not (R14). -/
def State.finishC (s : State) (i : Instr) (pc : Word) : State :=
  let src := s.iss.src
  let slot (s : State) : State := if s.iss.waited then s else s.issued src
  let tried (c : Ctx) : Ctx := { c with tried := (s.keel + 1, c.tried.2) }
  -- what follows an instruction that waited comes in the next nanosecond, as it does after an issue
  let done (c : Ctx) : Ctx := { (if s.iss.waited then tried c else c) with busy := none, pubWait := (none, c.pubWait.2), lateAt := 0 }
  match s.iss.flow with
  | .held => s.modCtx src tried
  | .stalled | .again => (slot s).modCtx src fun c => { tried c with busy := some s.iss.word, pubWait := (s.iss.pub, c.pubWait.2) }
  | .moved => (((slot s).modCtx src done).advanceC src pc (unitOf i) false (isRet i) true).modCtx src fun c =>
      { c with bpSkip := c.bpSkip || isRfe i }
  | .fall => ((slot s.endWaitDone).modCtx src done).advanceC src pc (unitOf i) (isPrefix i) false false

/-- Depth of a dispatch buffer (R16). -/
def depthOf : Unit4 → Nat
  | .t => 4
  | _ => 8

def Ctx.buf (c : Ctx) : Unit4 → List Entry
  | .a => c.bufA | .e => c.bufE | .t => c.bufT | .c => []
def Ctx.setBuf (c : Ctx) (u : Unit4) (l : List Entry) : Ctx :=
  match u with
  | .a => { c with bufA := l } | .e => { c with bufE := l } | .t => { c with bufT := l } | .c => c

/-- Drop a ticket. -/
def Ctx.unticket (c : Ctx) (id : Nat) : Ctx :=
  let f (q : Queue) : Queue := { q with prods := q.prods.filter (· ≠ id) }
  { c with lqs := c.lqs.map f, sqs := c.sqs.map f }

/-- The dispatch entry of an instruction that issues at the control core with its guard true (R16, R68). -/
def State.entryOf (s : State) (i : Instr) : Entry :=
  let c := s.me
  { id := s.seq, instr := i, word := s.iss.word, pc := s.iss.pc, xtnd := s.iss.xtnd, lane := s.iss.lane, rrb := c.rrb
    capt := (captures i).map fun r => (r, s.scalar r)
    wboff := c.wboff, rvm := c.rvm, hzn := c.hzn, phase := c.phase, at_ := s.keel + 1 }

/-- Dispatch to a unit (R16): the entry joins its buffer and its ticket its queues. -/
def State.dispatch (s : State) (i : Instr) (u : Unit4) : State :=
  let e := s.entryOf i
  { (s.modMe fun c => (c.setBuf u (c.buf u ++ [e])).ticket e.id (produces i)) with seq := s.seq + 1 }

-- Issue on a unit.

/-- Start an entry on its unit. -/
def State.beginU (s : State) (src : Nat) (u : Unit4) (e : Entry) : State :=
  { s with
    choices := s.choices + 1
    iss := {
      src := src, unit := u, pc := e.pc, word := e.word, xtnd := e.xtnd, lane := e.lane, rrb := e.rrb, capt := some e.capt
      wboff := e.wboff, rvm := e.rvm, hzn := e.hzn, phase := e.phase, id := e.id, prog := e.prog, bias := e.bias, flow := .fall } }

def setTried (t : Nat × Nat × Nat × Nat) (u : Unit4) (k : Nat) : Nat × Nat × Nat × Nat :=
  match u with
  | .c => (k, t.2) | .a => (t.1, k, t.2.2) | .e => (t.1, t.2.1, k, t.2.2.2) | .t => (t.1, t.2.1, t.2.2.1, k)
def getTried (t : Nat × Nat × Nat × Nat) : Unit4 → Nat
  | .c => t.1 | .a => t.2.1 | .e => t.2.2.1 | .t => t.2.2.2

/-- Mark a unit of a cell as having issued for a slot in this nanosecond. -/
def State.unitIssued (s : State) (src : Nat) (u : Unit4) : State :=
  s.modCell (cellOf src) fun c => { c with last := setTried c.last u (s.keel + 1), rr := setTried c.rr u (src % 4) }

/-- Keep the entry being executed in its buffer, with its progress. -/
def State.keepEntry (s : State) (u : Unit4) : State :=
  s.modCtx s.iss.src fun c => c.setBuf u
    (modFirst (fun e => e.id = s.iss.id) (fun e => { e with prog := s.iss.prog, bias := s.iss.bias }) (c.buf u))

/-- Finish an entry: a wait, or a granule that is not the last, keeps it at the head with its progress; completion removes it, and
its ticket unless it became an active stream (R17, R20, R80). -/
def State.finishU (s : State) (u : Unit4) : State :=
  let src := s.iss.src
  match s.iss.flow with
  | .stalled | .held => (s.keepEntry u).modCtx src fun c => { c with
      tried := setTried c.tried u (s.keel + 1), pubWait := if u = .a then (c.pubWait.1, s.iss.pub) else c.pubWait }
  | .again => (s.keepEntry u).unitIssued src u
  | .moved => s
  | .fall =>
    ((s.endUnitWait src s.iss.id).unitIssued src u).modCtx src fun c =>
      let c := c.setBuf u ((c.buf u).filter fun e => e.id ≠ s.iss.id)
      let c := if u = .a then { c with pubWait := (c.pubWait.1, none) } else c
      if c.streams.any fun t => t.ent.id = s.iss.id then c else c.unticket s.iss.id

/-- What the control core does with a thread's next word before any meaning: `fetchMiss` asks the walkers (R414); `fault` is
a state in which a trap has been taken; `wait` is held back (R14); `skip` is a guard that is false (R15); `run` issues on
unit C; `send` dispatches. -/
inductive Ready where
  | fetchMiss
  | brk (n : Nat)
  | fault (s : State)
  | wait
  | skip (s : State)
  | run (i : Instr) (s : State)
  | send (i : Instr) (u : Unit4) (s : State)
deriving DecidableEq

/-- ILLEGAL found at the control core (R31): reported at the first prefix of the chain. -/
def State.illegalAtIssue (s : State) : State := s.fatal .illegal

/-- The breakpoint that matches (R403). -/
def State.bpMatch (s : State) (src : Nat) : Option Nat :=
  let c := s.ctx src
  if c.bpSkip || c.pfx.isSome || c.bpWait.isSome then none
  else indexOf? (fun b => b.getLsbD 0 && b.extractLsb' 3 53 = c.pc.extractLsb' 3 53) (s.dbg src).bps.toList 0

/-- `RPROBE` holds the thread at the control core: before it, until the units are at rest, and then while its walks run (R264). -/
def holdsForRest : Instr → Bool
  | .rprobe _ _ _ => true
  | _ => false

/-- The scalars that an instruction names as it issues: a `COPYF` reads those of its follow-on (R316). -/
def State.namesNow (s : State) : Instr → List Reg
  | .copyf d b a c ch => names (.copyf d b a c ch) ++ match decode (s.scalar c) with
    | .ok (.mma f) => captures (.mma f)
    | _ => []
  | i => names i

/-- The instruction that waits at a thread's control core, begun again. -/
def State.goOn (s : State) (src : Nat) : Option (Instr × State) :=
  (s.ctx src).busy.bind fun w => match decode w with
    | .ok i =>
      let t := s.beginC src w
      some (i, { t with iss := { t.iss with waited := true } })
    | .error _ => none

/-- Decide what a runnable thread's next word does (R14, R15, R31, R44). A publishing store or atomic that has been dispatched
holds the control core (R168), and so does an `RPROBE` (R264). -/
def State.ready (s : State) (src : Nat) : Ready :=
  let c := s.ctx src
  if c.bufA.any fun e => publishes e.instr || holdsForRest e.instr then .wait
  else match s.fetch src c.pc with
  | none => .fetchMiss
  | some w =>
    match s.bpMatch src with
    | some n => .brk n
    | none =>
      let s := (s.touch (cellOf src) c.pc.toNat).beginC src w
      if s.fetchPoisoned src c.pc then .fault s.poisoned
      else match decode w with
      | .error _ => .fault s.illegalAtIssue
      | .ok i =>
        let bad := match c.pfx with
          | some p => !(isPrefix i) && (!(chainOk p i) || c.isLast c.pc)
          | none => match i with | .tell _ => true | _ => false
        if bad || (isPrefix i && c.isLast c.pc) then .fault s.illegalAtIssue
        else
          match i with
          | .undefinedOpcode _ => .run i s
          | .nop => .run i s
          | _ =>
            let g := guardOf w
            if !(isPrefix i) && (c.pred g.pr == g.pn) then .skip s
            else
              let pend := c.pending
              if pend ≠ [] && (s.namesNow i).any fun r => r ≠ 0 && pend.contains (physReg c.rrb r) then .wait
              else if holdsForRest i && !s.quiet then .wait
              else match unitOf i with
                | .c => .run i s
                | u => if (c.buf u).length < depthOf u then .send i u s else .wait

end Sys2Proof.Machine
end

