-- ==== Sys2Proof/Machine/Record.lean ====
section
/-! DEFINITION. The context record of R395, which save slots hold and DDATA reads and writes: its bytes from a context, and a
context from its bytes. -/

namespace Sys2Proof.Machine

/-- An instruction with its register fields replaced by the physical numbers (R68): its scalars and its rows. -/
def physSrc (k : BitVec 4) : Src → Src
  | .row i => .row (physRow k i)
  | x => x
def physOpnd (k : BitVec 4) : Opnd → Opnd
  | .held => .held
  | .from x => .from (physSrc k x)
def physDst (k : BitVec 4) : Dst → Dst
  | .row i => .row (physRow k i)
  | x => x
def physBin (k : BitVec 4) (f : VBin) : VBin := { f with od := physDst k f.od, a := physOpnd k f.a, b := physOpnd k f.b }
def physUn (k : BitVec 4) (f : VUn) : VUn := { f with od := physDst k f.od, a := physOpnd k f.a }
def physM2 (k : BitVec 4) (f : VMov2) : VMov2 := { f with od := physDst k f.od, a := physOpnd k f.a, b := physOpnd k f.b }
def physM1 (k : BitVec 4) (f : VMov1) : VMov1 := { f with od := physDst k f.od, a := physOpnd k f.a }
def physInt (k : BitVec 4) (f : VIntF) : VIntF := { f with od := physDst k f.od, a := physOpnd k f.a, b := physOpnd k f.b }
def physCmp (k : BitVec 4) (f : VCmpF) : VCmpF := { f with a := physOpnd k f.a, b := physOpnd k f.b }
def physImm (k : BitVec 4) (f : VImmF) : VImmF := { f with od := physDst k f.od, a := physOpnd k f.a }
def physAmo (k : BitVec 4) (f : AmoF) : AmoF := { f with d := physReg k f.d, a := physReg k f.a, b := physReg k f.b }
def physAmos (k : BitVec 4) (f : AmosF) : AmosF := { f with d := physReg k f.d, a := physReg k f.a, b := physReg k f.b }
def physCount {n : Nat} (k : BitVec 4) : Count n → Count n
  | .reg r => .reg (physReg k r)
  | c => c
def physStream (k : BitVec 4) (f : StreamF) : StreamF := { f with a := physReg k f.a, s := physReg k f.s, n := physCount k f.n }
def physMStream (k : BitVec 4) (f : MStreamF) : MStreamF := { f with a := physReg k f.a, s := physReg k f.s, n := physCount k f.n }
def physHStream (k : BitVec 4) (f : HStreamF) : HStreamF := { f with a := physReg k f.a, n := physCount k f.n }

def physInstr (k : BitVec 4) : Instr → Instr
  | .ldq f => .ldq (physStream k f) | .stq f => .stq (physStream k f)
  | .ldmq f => .ldmq (physMStream k f) | .stmq f => .stmq (physMStream k f)
  | .ldrq f => .ldrq (physHStream k f) | .strq f => .strq (physHStream k f)
  | .lds f => .lds { f with d := physReg k f.d, a := physReg k f.a } | .sts f => .sts { f with d := physReg k f.d, a := physReg k f.a }
  | .ldm f => .ldm { f with d := physReg k f.d, x := physReg k f.x } | .stm f => .stm { f with d := physReg k f.d, x := physReg k f.x }
  | .teth t a i => .teth t (physReg k a) i | .rprobe a b w => .rprobe (physReg k a) (physReg k b) w
  | .qadv q n => .qadv q (physCount k n) | .qcfg a q => .qcfg (physReg k a) q
  | .mma f => .mma { f with
      a := match f.a with | .desc r t => .desc (physReg k r) t | x => x
      b := match f.b with | .desc r t => .desc (physReg k r) t | x => x }
  | .mlda c a => .mlda c (physReg k a) | .msta c a => .msta c (physReg k a) | .pass a u => .pass (physReg k a) u
  | .epi f => .epi { f with
      dest := match f.dest with | .spad a => .spad (physReg k a) | x => x
      b := physReg k f.b, c := physReg k f.c }
  | .amoAdd f => .amoAdd (physAmo k f) | .amoMin f => .amoMin (physAmo k f) | .amoMax f => .amoMax (physAmo k f)
  | .amoMinu f => .amoMinu (physAmo k f) | .amoMaxu f => .amoMaxu (physAmo k f) | .amoAnd f => .amoAnd (physAmo k f)
  | .amoOr f => .amoOr (physAmo k f) | .amoXor f => .amoXor (physAmo k f) | .amoSwap f => .amoSwap (physAmo k f)
  | .amoCas f c => .amoCas (physAmo k f) (physReg k c)
  | .amosAdd f => .amosAdd (physAmos k f) | .amosMin f => .amosMin (physAmos k f) | .amosMax f => .amosMax (physAmos k f)
  | .amosMinu f => .amosMinu (physAmos k f) | .amosMaxu f => .amosMaxu (physAmos k f)
  | .amosAnd f => .amosAnd (physAmos k f) | .amosOr f => .amosOr (physAmos k f) | .amosXor f => .amosXor (physAmos k f)
  | .amosSwap f => .amosSwap (physAmos k f) | .amosCas f c => .amosCas (physAmos k f) (physReg k c)
  | .tstat d t => .tstat (physReg k d) t | .qstat d q => .qstat (physReg k d) q | .mprog d a => .mprog (physReg k d) a
  | .vadd f => .vadd (physBin k f) | .vsub f => .vsub (physBin k f) | .vmul f => .vmul (physBin k f)
  | .vdiv f => .vdiv (physBin k f) | .vfma f => .vfma (physBin k f) | .vfnma f => .vfnma (physBin k f)
  | .vmax f => .vmax (physM2 k f) | .vmin f => .vmin (physM2 k f) | .vand f => .vand (physM2 k f)
  | .vor f => .vor (physM2 k f) | .vxor f => .vxor (physM2 k f) | .vshl f => .vshl (physM2 k f)
  | .vshr f => .vshr (physM2 k f) | .vsra f => .vsra (physM2 k f) | .vimin f => .vimin (physM2 k f)
  | .vimax f => .vimax (physM2 k f) | .vperm f => .vperm (physM2 k f)
  | .vabs f => .vabs (physM1 k f) | .vneg f => .vneg (physM1 k f) | .vcpy f => .vcpy (physM1 k f)
  | .vrmax f => .vrmax (physM1 k f) | .vrmin f => .vrmin (physM1 k f)
  | .vrcp f => .vrcp (physUn k f) | .vrsq f => .vrsq (physUn k f) | .vexp2 f => .vexp2 (physUn k f)
  | .vlog2 f => .vlog2 (physUn k f) | .vsqrt f => .vsqrt (physUn k f) | .vsum f => .vsum (physUn k f)
  | .viadd f => .viadd (physInt k f) | .visub f => .visub (physInt k f) | .vimul f => .vimul (physInt k f)
  | .vcmpEq f => .vcmpEq (physCmp k f) | .vcmpNe f => .vcmpNe (physCmp k f) | .vcmpLt f => .vcmpLt (physCmp k f)
  | .vcmpLe f => .vcmpLe (physCmp k f) | .vcmpUn f => .vcmpUn (physCmp k f) | .vcmpIeq f => .vcmpIeq (physCmp k f)
  | .vcmpIlt f => .vcmpIlt (physCmp k f) | .vcmpIltu f => .vcmpIltu (physCmp k f)
  | .vcvt f => .vcvt { f with od := physDst k f.od, a := physOpnd k f.a }
  | .vqnt f => .vqnt { f with od := physDst k f.od, a := physSrc k f.a }
  | .vdq f => .vdq { f with od := physDst k f.od, a := physOpnd k f.a, b := physOpnd k f.b }
  | .vrot f => .vrot (physImm k f) | .vbcast f => .vbcast (physImm k f)
  | .vsel f => .vsel { f with od := physDst k f.od, a := physOpnd k f.a, b := physOpnd k f.b }
  | .vldi d ty i => .vldi (physRow k d) ty i
  | i => i

/-- The word an entry is saved as: one that a debugger or the owner of a slot left there and that decodes to nothing stands as it was. -/
def Entry.savedWord (e : Entry) : Nat :=
  match e.instr with
  | .undefinedOpcode _ => e.word.toNat
  | i => ((encode (guardOf e.word) (physInstr e.rrb i)).getD e.word).toNat

/-- The scalar that an execute instruction broadcasts as OA, or captures as its only one. -/
def firstCapt : Instr → List Reg
  | .vadd f | .vsub f | .vmul f | .vfma f | .vfnma f | .vdiv f => Opnd.regs f.a
  | .vmax f | .vmin f | .vand f | .vor f | .vxor f | .vshl f | .vshr f | .vsra f | .vimin f | .vimax f | .vperm f => Opnd.regs f.a
  | .viadd f | .visub f | .vimul f => Opnd.regs f.a
  | .vcmpEq f | .vcmpNe f | .vcmpLt f | .vcmpLe f | .vcmpUn f | .vcmpIeq f | .vcmpIlt f | .vcmpIltu f => Opnd.regs f.a
  | .vdq f => Opnd.regs f.a | .vsel f => Opnd.regs f.a
  | i => captures i

def Entry.capAt (e : Entry) (i : Nat) : Nat := ((e.capt[i]?).map (·.2.toNat)).getD 0

def padTo {α : Type} (n : Nat) (d : α) (l : List α) : List α := l.take n ++ List.replicate (n - l.length) d

def TStat.code : TStat → Nat
  | .ok => 0 | .miss => 1 | .noperm => 2 | .skewed => 3 | .released => 4 | .none => 5 | .stale => 6
def TStat.ofCode : Nat → TStat
  | 0 => .ok | 1 => .miss | 2 => .noperm | 3 => .skewed | 4 => .released | 6 => .stale | _ => .none

def loopParts (l : List LoopE) : List Byte :=
  let es := padTo 4 none (l.map some)
  (es.flatMap fun e => match e with
    | some e => leBytes 8 e.start.toNat ++
        leBytes 8 (e.last.toNat % 2 ^ 56 + 2 ^ 56 * e.stages.getD 0 + 2 ^ 59 * b2n e.stages.isSome + 2 ^ 63)
    | none => leBytes 16 0) ++
  es.flatMap fun e => leBytes 4 (e.elim 0 (·.count))

def regParts (r : Vector Word 64) : List Byte := (r.toList.drop 1).flatMap fun v => leBytes 8 v.toNat
def predRrb (p : BitVec 8) (k : BitVec 4) : Nat := p.toNat / 2 + 2 ^ 7 * k.toNat

def aEntry (e : Entry) : List Byte :=
  leBytes 8 e.savedWord ++ leBytes 8 e.pc.toNat ++ leBytes 8 (e.capAt 0) ++ leBytes 8 (e.capAt 1) ++ leBytes 8 (e.capAt 2)
def eEntry (e : Entry) : List Byte :=
  let n := (firstCapt e.instr).length
  let x := e.xtnd.elim (if n = 0 then 0 else e.capAt 0) (·.toNat)
  leBytes 8 e.savedWord ++
  leBytes 8 (e.pc.toNat % 2 ^ 58 + 2 ^ 58 * b2n e.xtnd.isSome + 2 ^ 59 * b2n e.lane.isSome +
    2 ^ 60 * b2n (e.lane.elim false (·.merge)) + 2 ^ 61 * (e.lane.elim 0 (·.m.toNat))) ++
  leBytes 4 x ++ leBytes 4 (e.capAt n)

/-- The six captured words of a T entry. -/
def tWords (e : Entry) : List Nat :=
  match e.instr with
  | .mma f =>
    let get (r : Reg) : Nat := ((e.capt.find? fun p => p.1 = r).map (·.2.toNat)).getD 0
    let a := match f.a with | .desc r _ => [get r, get (r + 1)] | _ => [0, 0]
    let b := match f.b with | .desc r _ => [get r, get (r + 1)] | _ => [0, 0]
    a ++ b ++ [(if f.ks = 0 then get 1 % 65536 else 0) + 65536 * (8 * e.wboff.toNat), (e.wake.map (·.2)).getD 0]
  | .epi f =>
    let off := match f.dest with | .spad _ => 1 | _ => 0
    [if off = 1 then e.capAt 0 else 0, e.capAt off, e.capAt (off + 1), e.rvm.toNat, 0, 0]
  | .pass _ _ => [e.capAt 0, e.rvm.toNat, 0, 0, 0, 0]
  | .tell _ => [e.xtnd.elim 0 (·.toNat), 0, 0, 0, 0, 0]
  | _ => [e.capAt 0, 0, 0, 0, 0, 0]
def tEntry (e : Entry) : List Byte :=
  leBytes 8 e.savedWord ++
  leBytes 8 (e.pc.toNat % 2 ^ 56 + 2 ^ 56 * ((e.wake.map fun w => w.1 % 4).getD 0) + 2 ^ 58 * b2n e.wake.isSome) ++
  (tWords e).flatMap fun v => leBytes 8 v
def streamPart (t : Stream) : List Byte :=
  leBytes 8 t.ent.savedWord ++ leBytes 8 t.ent.pc.toNat ++ leBytes 8 t.base.toNat ++ leBytes 8 t.stride.toNat ++
  leBytes 4 t.count ++ leBytes 4 t.ent.prog

def queueWord (q : Queue) : Nat :=
  q.popped % 8 + 8 * q.slots.length + 128 * q.depth +
  2 ^ 11 * ((List.range q.slots.length).foldl (fun acc i => acc + 2 ^ ((q.popped + i) % 8) * b2n (((q.slots[i]?).map (·.fin)).getD false)) 0)
/-- Physical slot `i` of a queue. -/
def Queue.phys (q : Queue) (i : Nat) : Slot := (q.slots[(i + 8 - q.popped % 8) % 8]?).getD {}

def tethWords (t : Tether) : List Nat :=
  [t.vanc.toNat % 2 ^ 56 + 2 ^ 56 * b2n t.rpend,
   t.sz.toNat + 4 * b2n t.w + 8 * b2n t.x + 16 * t.lc.toNat + 64 * b2n t.ord + 128 * b2n t.cnt + 256 * t.stat.code +
     2048 * b2n t.rdenied + 2 ^ 12 * (t.pbase / 65536) + 2 ^ 48 * t.gen.toNat,
   t.exp]
def mhWords (h : Handle) : List Nat :=
  [h.obj % 2 ^ 48 + 2 ^ 48 * h.mode.toNat + 2 ^ 50 * b2n h.isOpen, h.vers.toNat + 2 ^ 32 * (h.lrec % 2 ^ 20), h.stamp.keel]

/-- The bits of an arrival descriptor (R208). -/
def descOf (str slot addr : Nat) (t : Tag) : Nat :=
  2 ^ 56 * str + 2 ^ 32 * addr + 2 ^ 28 * slot + 2 ^ 27 * b2n t.up + 2 ^ 24 * t.kind.toNat + 2 ^ 16 * t.ver.toNat + t.mb.toNat

/-- The parts of a context record (R395), as offset and bytes. `idx` is the member index in its team. -/
def Ctx.parts (c : Ctx) (idx : Nat) : List (Nat × List Byte) :=
  let stat := match c.status, c.resumeTo with
    | .sleeping, _ => 1
    | .halted, .sleeping => 1
    | .stopped, .sleeping => 1
    | _, _ => if c.arrived = 0 then 0 else 2
  let p := c.parked.getD {}
  -- parked unit state is saved with the rest (R347)
  let bufA := c.bufA ++ p.a; let bufE := c.bufE ++ p.e; let bufT := c.bufT ++ p.t; let streams := c.streams ++ p.streams
  [(0x0000, leBytes 8 c.pc.toNat),
   (0x0008, leBytes 8 (c.team.getD 0 + 2 ^ 16 * b2n c.team.isSome + 2 ^ 17 * idx + 2 ^ 27 * c.drogue.length +
      2 ^ 30 * b2n c.latchA.isNone + 2 ^ 31 * b2n c.latchB.isNone + 2 ^ 32 * (c.preds.toNat / 2) + 2 ^ 39 * c.rrb.toNat +
      2 ^ 43 * c.prio.toNat + 2 ^ 48 * stat + 2 ^ 50 * min bufA.length 8 + 2 ^ 54 * min bufE.length 8 +
      2 ^ 58 * min bufT.length 4 + 2 ^ 61 * min streams.length 4)),
   (0x0010, leBytes 8 c.wakeAt),
   (0x0018, leBytes 8 c.hzn.keel),
   (0x0020, c.masks.toList.flatMap fun m => leBytes 6 m.toNat),
   (0x0050, leBytes 8 c.tvec.toNat ++ leBytes 8 c.epc.toNat ++ leBytes 8 c.tval.toNat ++
      leBytes 8 (setBits (c.cause.toNat) 16 8 (c.tstate.toNat + 16 * c.nflags.toNat + 128 * b2n c.aged)) ++
      leBytes 8 (c.wcommit.toNat + 2 ^ 27 * c.wboff.toNat) ++ leBytes 8 c.rvm.toNat ++ leBytes 8 c.drhint.toNat ++
      leBytes 8 c.xfault.toNat),
   (0x0090, match c.cur with
      | some r => leBytes 8 (descOf r.str r.slot r.addr r.tag) ++ leBytes 8 (r.str + 256 * b2n r.passed + 512)
      | none => leBytes 16 0),
   (0x00A0, loopParts c.loops),
   (0x00F0, (c.lqs.toList ++ c.sqs.toList).flatMap fun q => leBytes 4 (queueWord q)),
   (0x0110, c.accs.toList.flatMap fun a =>
      leBytes 8 (a.prog + 65536 * a.cnt + 2 ^ 32 * b2n a.begun) ++ leBytes 8 ((a.restart.map (·.toNat)).getD 0)),
   (0x0150, c.sqs.toList.flatMap fun q => (List.range 8).flatMap fun i => leBytes 4 (((q.phys i).crc.map (·.1.toNat)).getD 0)),
   (0x01D0, (padTo 4 (leBytes 40 0) (streams.map streamPart)).flatten),
   (0x0270, regParts c.regs),
   (0x0468, c.teths.toList.flatMap fun t => (tethWords t).flatMap fun v => leBytes 8 v),
   (0x05E8, c.mhs.toList.flatMap fun h => (mhWords h).flatMap fun v => leBytes 8 v),
   (0x0768, (padTo 8 (leBytes 40 0) (bufA.map aEntry)).flatten),
   (0x08A8, (padTo 8 (leBytes 24 0) (bufE.map eEntry)).flatten),
   (0x0968, (padTo 4 (leBytes 64 0) (bufT.map tEntry)).flatten),
   (0x0A68, (c.latchA.elim (List.replicate 192 0xFF#8) fun l => rowBytes l.row) ++
      (c.latchB.elim (List.replicate 192 0xFF#8) fun l => rowBytes l.row)),
   (0x0C00, c.grid.toList.flatMap rowBytes),
   (0x3000, (c.lqs.toList ++ c.sqs.toList).flatMap fun q => (List.range 8).flatMap fun i => rowBytes (q.phys i).data),
   (0x6000, c.accs.toList.flatMap fun a => a.rows.toList.flatMap rowBytes),
   (0xF000, c.drogue.flatMap fun e => leBytes 8 e.handler.toNat ++ leBytes 8 e.depth ++ regParts e.snap.regs ++
      leBytes 8 (predRrb e.snap.preds e.snap.rrb)),
   (0xF840, match c.snap with
      | some e => regParts e.regs ++ leBytes 8 (predRrb e.preds e.rrb) ++ loopParts e.loops
      | none => [])]

/-- A byte of the record: 0 where no part holds it. -/
def recByte (parts : List (Nat × List Byte)) (off : Nat) : Byte :=
  match parts.find? fun p => p.1 ≤ off && off < p.1 + p.2.length with
  | some p => (p.2[off - p.1]?).getD 0
  | none => 0

/-- The member index of a thread (R182). -/
def State.memberIdx (s : State) (src : Nat) : Nat :=
  match s.teams.findSome? fun t => (t.members.find? fun m => m.2 = src).map (·.1) with
  | some i => i
  | none => 0

-- A context from a record. `g n off` is the little-endian field of `n` bytes at `off`.

/-- A PC from a record: its bits [2:0] are 0 (R30). -/
def pcOf (n : Nat) : Word := w64 (n / 8 * 8)

/-- The loop stack of a record. The iterations that a loop began with are not in it: a loop that still stands keeps them. -/
def loopsFrom (g : Nat → Nat → Nat) (off : Nat) (old : List LoopE) : List LoopE :=
  (List.range 4).filterMap fun i =>
    let hi := g 8 (off + 16 * i + 8)
    if bitsOf hi 63 1 = 1 then
      let st := pcOf (g 8 (off + 16 * i))
      let n := g 4 (off + 64 + 4 * i)
      let was := (old[i]?).filter fun e => e.start = st && e.last = pcOf (hi % 2 ^ 56)
      some { start := st, last := pcOf (hi % 2 ^ 56), count := n, id := was.elim ((st - 8).extractLsb' 3 12) (·.id),
             stages := if bitsOf hi 59 1 = 1 then some (bitsOf hi 56 3) else none, total := max n (was.elim n (·.total)) }
    else none

def regsFrom (g : Nat → Nat → Nat) (off : Nat) : Vector Word 64 :=
  Vector.ofFn fun i => if i.val = 0 then 0 else w64 (g 8 (off + 8 * (i.val - 1)))

def rowFrom (g : Nat → Nat → Nat) (off : Nat) : Row := BitVec.ofNat 1536 (g 192 off)

/-- An entry from its saved word: the registers are physical, so it is renamed no more. A word that stands as the entry `old` left it is
that entry, whose rows are renamed one by one (R68, R129, R130). A word that decodes to nothing stands as it is, and is ILLEGAL when it
issues. -/
def entryFrom (old : Option Entry) (w pc : Nat) (caps : Instr → List Nat) : Option Entry :=
  match old.filter fun o => o.savedWord = w with
  | some o => some { o with pc := w64 pc, xtnd := none, lane := none, wake := none, capt := (captures o.instr).zip ((caps o.instr).map w64) }
  | none =>
    match decode (w64 w) with
    | .ok i => some { id := 0, instr := i, word := w64 w, pc := w64 pc, capt := (captures i).zip ((caps i).map w64) }
    | .error _ => some { id := 0, instr := .undefinedOpcode ((w64 w).extractLsb' 56 8), word := w64 w, pc := w64 pc }

def tEntryFrom (old : Option Entry) (g : Nat → Nat → Nat) (off cell : Nat) : Option Entry :=
  let c (i : Nat) : Nat := g 8 (off + 16 + 8 * i)
  let pcw := g 8 (off + 8)
  (entryFrom old (g 8 off) (pcw % 2 ^ 56) fun i => match i with
    | .mma f => (match f.a with | .desc _ _ => [c 0, c 1] | _ => []) ++ (match f.b with | .desc _ _ => [c 2, c 3] | _ => []) ++
        [c 4 % 65536]
    | .epi f => (match f.dest with | .spad _ => [c 0] | _ => []) ++ [c 1, c 2]
    | _ => [c 0]).map fun e => { e with
      wboff := BitVec.ofNat 18 (match e.instr with | .mma _ => c 4 / 65536 / 8 | _ => 0)
      rvm := BitVec.ofNat 48 (match e.instr with | .epi _ => c 3 | .pass _ _ => c 1 | _ => 0)
      xtnd := match e.instr with | .tell _ => some (BitVec.ofNat 32 (c 0)) | _ => none
      wake := if bitsOf pcw 58 1 = 1 then some (4 * cell + bitsOf pcw 56 2, c 5) else none }

/-- The current arrival from its descriptor (R208) and the word after it. The row mask of its tag and its meet entry are not in the
record. -/
def arrivalFrom (c : Ctx) (d w pos : Nat) : Arrival :=
  { str := w % 256, pos := pos, slot := bitsOf d 28 3, addr := bitsOf d 32 24, passed := bitsOf w 8 1 = 1
    meet := c.cur.bind (·.meet)
    tag := {
      kind := BitVec.ofNat 3 (bitsOf d 24 3), mb := BitVec.ofNat 16 d, ver := BitVec.ofNat 8 (bitsOf d 16 8)
      mask := c.cur.elim c.rvm (·.tag.mask), up := bitsOf d 27 1 = 1 } }

/-- The team and the member index that a record gives (R395). -/
def recTeam (st : Nat) : Option Nat × Nat := (if bitsOf st 16 1 = 1 then some (st % 65536) else none, bitsOf st 17 10)

/-- What the record's bytes give; what it does not hold is kept from `c`. `pos` is the thread's position in its string. -/
def Ctx.ofRecord (c : Ctx) (g : Nat → Nat → Nat) (cell : Nat) (oldHeld : Bool) (pos : Nat) : Ctx :=
  let st := g 8 8
  let cs := g 8 0x68
  let nA := bitsOf st 50 4; let nE := bitsOf st 54 4; let nT := bitsOf st 58 3; let nS := bitsOf st 61 3
  -- the entries of a buffer, `n` counted in the record, which holds `cap`: those before `k` are its own, the rest parked; what the
  -- record has no room for stands as it was
  let split (old : List Entry) (cap n k : Nat) (rd : Option Entry → Nat → Option Entry) : List Entry × List Entry :=
    let l := (List.range (min n cap)).map fun i => (i, (rd old[i]? i).map fun e => match old[i]? with
      | some o => { e with id := o.id, hzn := o.hzn, phase := o.phase, prog := o.prog }
      | none => e)
    let l := l ++ if cap ≤ n then (old.zipIdx.drop cap).map fun e => (e.2, some e.1) else []
    ((l.filter fun e => decide (e.1 < k) || !oldHeld).filterMap (·.2), (l.filter fun e => decide (k ≤ e.1) && oldHeld).filterMap (·.2))
  let p := c.parked.getD {}
  let (ents, pa) := split (c.bufA ++ p.a) 8 nA c.bufA.length fun old i =>
    let o := 0x768 + 40 * i
    entryFrom old (g 8 o) (g 8 (o + 8)) fun _ => [g 8 (o + 16), g 8 (o + 24), g 8 (o + 32)]
  let (ente, pe) := split (c.bufE ++ p.e) 8 nE c.bufE.length fun old i =>
    let o := 0x8A8 + 24 * i
    let pw := g 8 (o + 8)
    (entryFrom old (g 8 o) (pw % 2 ^ 58) fun i =>
      if firstCapt i = [] then [g 4 (o + 20)] else [g 4 (o + 16), g 4 (o + 20)]).map fun e => { e with
      xtnd := if bitsOf pw 58 1 = 1 then some (BitVec.ofNat 32 (g 4 (o + 16))) else none
      lane := if bitsOf pw 59 1 = 1 then some ⟨bitsOf pw 60 1 = 1, BitVec.ofNat 3 (bitsOf pw 61 3)⟩ else none }
  let (entt, pt) := split (c.bufT ++ p.t) 4 nT c.bufT.length fun old i => tEntryFrom old g (0x968 + 64 * i) cell
  let olds := c.streams ++ p.streams
  let strs := (List.range (min nS 4)).map fun i =>
    let o := 0x1D0 + 40 * i
    (i, (entryFrom (olds[i]?.map (·.ent)) (g 8 o) (g 8 (o + 8)) fun _ => [g 8 (o + 16), g 8 (o + 24), g 4 (o + 32)]).map fun e =>
      let e := match olds[i]? with
        | some t => { e with id := t.ent.id, hzn := t.ent.hzn, phase := t.ent.phase }
        | none => e
      ({ ent := { e with prog := g 4 (o + 36) }, base := w64 (g 8 (o + 16)), stride := w64 (g 8 (o + 24)), count := g 4 (o + 32) } : Stream))
  let strs := strs ++ if 4 ≤ nS then (olds.zipIdx.drop 4).map fun t => (t.2, some t.1) else []
  let k := c.streams.length
  let queueFrom (q : Queue) (k : Nat) : Queue :=
    let w := g 4 (0xF0 + 4 * k)
    let head := w % 8
    let fill := min (bitsOf w 3 4) 8
    { q with
      popped := q.popped / 8 * 8 + head
      depth := bitsOf w 7 4
      slots := (List.range fill).map fun i =>
        let ph := (head + i) % 8
        let old := (q.slots[i]?).getD {}
        { old with
          data := rowFrom g (0x3000 + 1536 * k + 192 * ph)
          fin := bitsOf w (11 + ph) 1 = 1
          crc := if k < 4 then none else old.crc.map fun x => (BitVec.ofNat 32 (g 4 (0x150 + 32 * (k - 4) + 4 * ph)), x.2) } }
  { c with
    pc := pcOf (g 8 0)
    preds := BitVec.ofNat 8 (2 * bitsOf st 32 7 + 1)
    rrb := BitVec.ofNat 4 (bitsOf st 39 4)
    resumeTo := if bitsOf st 48 2 = 1 then .sleeping else .run
    prio := BitVec.ofNat 3 (bitsOf st 43 3)
    team := (recTeam st).1
    wakeAt := g 8 0x10
    hzn := { c.hzn with keel := g 8 0x18 }
    masks := Vector.ofFn fun i => BitVec.ofNat 48 (g 6 (0x20 + 6 * i.val))
    tvec := pcOf (g 8 0x50), epc := w64 (g 8 0x58), tval := w64 (g 8 0x60)
    cause := w64 (setBits cs 16 8 0)
    tstate := BitVec.ofNat 4 (bitsOf cs 16 4)
    nflags := BitVec.ofNat 3 (bitsOf cs 20 3)
    aged := bitsOf cs 23 1 = 1
    wcommit := BitVec.ofNat 27 (g 8 0x70), wboff := BitVec.ofNat 18 (g 8 0x70 / 2 ^ 27)
    rvm := BitVec.ofNat 48 (g 8 0x78), drhint := w64 (g 8 0x80), xfault := w64 (g 8 0x88)
    cur := if bitsOf (g 8 0x98) 9 1 = 1 then some (arrivalFrom c (g 8 0x90) (g 8 0x98) pos) else none
    arrived := if bitsOf st 48 2 = 2 then max c.arrived 1 else 0
    loops := loopsFrom g 0xA0 c.loops
    lqs := Vector.ofFn fun i => queueFrom (c.lqs.get i) i.val
    sqs := Vector.ofFn fun i => queueFrom (c.sqs.get i) (4 + i.val)
    accs := Vector.ofFn fun i =>
      let w := g 8 (0x110 + 16 * i.val)
      let r := g 8 (0x118 + 16 * i.val)
      { c.accs.get i with
        prog := w % 65536, cnt := bitsOf w 16 16, begun := bitsOf w 32 1 = 1
        restart := if r = 0 then none else some (pcOf r)
        rows := Vector.ofFn fun k => rowFrom g (0x6000 + 9216 * i.val + 192 * k.val) }
    regs := regsFrom g 0x270
    teths := Vector.ofFn fun i =>
      let a := g 8 (0x468 + 24 * i.val); let b := g 8 (0x470 + 24 * i.val)
      { vanc := w64 (a % 2 ^ 56), rpend := bitsOf a 56 1 = 1, sz := BitVec.ofNat 2 b, w := bitsOf b 2 1 = 1
        x := bitsOf b 3 1 = 1, lc := BitVec.ofNat 2 (bitsOf b 4 2), ord := bitsOf b 6 1 = 1, cnt := bitsOf b 7 1 = 1
        stat := TStat.ofCode (bitsOf b 8 3), rdenied := bitsOf b 11 1 = 1, pbase := bitsOf b 12 36 * 65536
        gen := BitVec.ofNat 16 (bitsOf b 48 16), exp := g 8 (0x478 + 24 * i.val), rdue := (c.teths.get i).rdue }
    mhs := Vector.ofFn fun i =>
      let a := g 8 (0x5E8 + 24 * i.val)
      { isOpen := bitsOf a 50 1 = 1, obj := a % 2 ^ 48, lrec := bitsOf (g 8 (0x5F0 + 24 * i.val)) 32 20
        vers := BitVec.ofNat 32 (g 4 (0x5F0 + 24 * i.val))
        mode := BitVec.ofNat 2 (bitsOf a 48 2), stamp := { (c.mhs.get i).stamp with keel := g 8 (0x5F8 + 24 * i.val) } }
    bufA := ents, bufE := ente, bufT := entt
    streams := (strs.filter fun t => decide (t.1 < k) || !oldHeld).filterMap (·.2)
    parked := if oldHeld then
        some { p with a := pa, e := pe, t := pt, streams := (strs.filter fun t => decide (k ≤ t.1)).filterMap (·.2) }
      else c.parked
    latchA := if bitsOf st 30 1 = 1 then none else some { row := rowFrom g 0xA68, org := c.latchA.bind (·.org) }
    latchB := if bitsOf st 31 1 = 1 then none else some { row := rowFrom g 0xB28, org := c.latchB.bind (·.org) }
    grid := Vector.ofFn fun i => rowFrom g (0xC00 + 192 * i.val)
    drogue := (List.range (min (bitsOf st 27 3) 4)).map fun i =>
      let o := 0xF000 + 528 * i
      let old := c.drogue[i]?
      { handler := pcOf (g 8 o), depth := g 8 (o + 8)
        snap := { (old.elim {} (·.snap)) with
          regs := regsFrom g (o + 16), preds := BitVec.ofNat 8 (2 * (g 8 (o + 520) % 128) + 1)
          rrb := BitVec.ofNat 4 (bitsOf (g 8 (o + 520)) 7 4) } }
    snap := c.snap.map fun e => { e with
      regs := regsFrom g 0xF840, preds := BitVec.ofNat 8 (2 * (g 8 0xFA38 % 128) + 1)
      rrb := BitVec.ofNat 4 (bitsOf (g 8 0xFA38) 7 4), loops := loopsFrom g 0xFA40 e.loops } }

/-- A thread stands in the team, and under the index, that its record gives (R395, R396, R401). -/
def State.setMember (s : State) (src : Nat) (m : Option Nat × Nat) : State :=
  let part := s.partOfSrc src
  let was := (s.teams.find? fun t => t.part = part && t.members.any fun x => x.2 = src).map (·.id)
  if was = m.1 && (m.1.isNone || s.memberIdx src = m.2) then s
  else { s with teams := (s.teams.map fun t =>
    if t.part ≠ part then t
    else
      let l := t.members.filter fun x => x.2 ≠ src
      { t with members := if some t.id = m.1 then l ++ [(m.2, src)] else l }).filter fun t => !t.members.isEmpty }

/-- The 8 bytes at an offset of a context's record. -/
def State.recWord (s : State) (src off : Nat) : Nat :=
  let p := (s.ctx src).parts (s.memberIdx src)
  leVal ((List.range 8).map fun i => recByte p (off + i))

/-- Apply edits (offset, 8 bytes) to a context (R401, R396). -/
def State.patchRec (s : State) (src : Nat) (edits : List (Nat × Word)) : State :=
  if edits = [] then s
  else
    let c := s.ctx src
    let p := c.parts (s.memberIdx src)
    let byte (off : Nat) : Byte :=
      match edits.reverse.find? fun e => e.1 ≤ off && off < e.1 + 8 with
      | some e => e.2.extractLsb' (8 * (off - e.1)) 8
      | none => recByte p off
    let g (n off : Nat) : Nat := leVal ((List.range n).map fun i => byte (off + i))
    (s.setCtx src (c.ofRecord g (cellOf src) c.parked.isSome ((s.strOf src).elim 0 (·.posOf src)))).setMember src (recTeam (g 8 8))

end Sys2Proof.Machine
end

