-- ==== Sys2Proof/Machine/DevRegs.lean ====
section
/-! DEFINITION. The device's registers (13 R236, R241): notify pages and queue control blocks (24 R385), copy channels (18
R300), partition pages (24 R384), debug blocks (25 R401), windsock blocks (25 R405), leaf update ports (14 R268); the notification ring
(14 R280). -/

namespace Sys2Proof.Machine

/-- A value kept to bits `[lo + n - 1 : lo]`, the other bits 0. -/
def keep (v lo n : Nat) : Nat := bitsOf v lo n * 2 ^ lo

/-- A power of two from 2 to 4,096; any other value is stored as 0. -/
def ringLen (v : Nat) : Nat := if (List.range 12).any (fun i => v % 8192 = 2 ^ (i + 1)) then v % 8192 else 0

/-- Transfers claimed and not complete (R300). -/
def Chan.pend (c : Chan) : Nat := c.widx - c.done - c.early.length

def chanRead (c : Chan) (off : Nat) : Nat :=
  match off with
  | 0x00 => c.base | 0x08 => c.len | 0x10 => c.widx | 0x20 => c.done | 0x28 => c.failId
  | 0x30 => 256 * b2n c.failV + c.failCode | 0x38 => c.prom | 0x40 => c.pend % 8192 | _ => 0

/-- A write of CQWIDX (R300): software's write also sets CDONE and is ignored while transfers are pending; an atomic claims. -/
def Chan.writeWidx (c : Chan) (v : Nat) (atomic : Bool) : Chan :=
  if atomic then { c with widx := v }
  else if c.pend = 0 then { c with widx := v, done := v, taken := v, subs := [], proms := [], early := [], fails := [] } else c

def chanWrite (c : Chan) (off v : Nat) (atomic : Bool) : Chan :=
  match off with
  | 0x00 => if c.pend = 0 then { c with base := keep v 6 50 } else c
  | 0x08 => if c.pend = 0 then { c with len := ringLen v } else c
  | 0x10 => c.writeWidx v atomic
  | 0x18 => { c with look := true }
  | 0x30 => if v / 256 % 2 = 0 then { c with failV := false } else c
  | _ => c

def log2 (n : Nat) : Nat := if n = 1 then 0 else if n = 2 then 1 else if n = 4 then 2 else 3

/-- PCFG (R384). -/
def State.pcfg (s : State) (p : Nat) : Nat :=
  (2 ^ s.stacksPer - 1) * 2 ^ (p * s.stacksPer) * 256 + log2 s.nparts * 16 + p

/-- Save slots in use, one bit each. -/
def State.sause (s : State) (p : Nat) : Nat :=
  (s.slots.filter fun k => k.part = p).foldl (fun acc k => acc ||| 2 ^ k.slot) 0

/-- QSTATE of R385. -/
def UQueue.qstate (q : UQueue) : Nat :=
  b2n (q.waitFrom.isSome && q.slot.isNone) * 256 + 2 * q.slot.getD 0 + b2n q.slot.isSome

def State.qcbRead (s : State) (q off : Nat) : Nat :=
  let u := s.queue q
  match off with
  | 0x00 => u.base | 0x08 => u.len | 0x10 => u.ceiling.toNat * 256 + u.weight
  | 0x18 => (BitVec.ofInt 64 u.deficit).toNat | 0x20 => u.qstate | _ => 0

def qcbWrite (u : UQueue) (off v : Nat) : UQueue :=
  match off with
  | 0x00 => { u with base := keep v 6 50 }
  | 0x08 => { u with len := ringLen v }
  | 0x10 => { u with weight := v % 256, ceiling := BitVec.ofNat 3 (bitsOf v 8 3) }
  | _ => u

/-- The queue from which a thread of a graph was launched. -/
def State.queueOf (s : State) (c : Ctx) : Option Nat :=
  c.node.bind fun n => (s.launches.find? fun l => l.id = n / 4096 * 4096).map (·.queue)

/-- A thread held within a ceiling (R49, R385). -/
def Ctx.within (c : Ctx) (m : BitVec 3) : Ctx := { c with ceiling := m, prio := if m < c.prio then m else c.prio }

/-- The ceiling of a queue holds its threads, running or saved (R49, R385). -/
def State.withinQueue (s : State) (q : Nat) : State :=
  let m := (s.queue q).ceiling
  let f (e : Nat × Ctx) : Nat × Ctx := if s.queueOf e.2 = some q then (e.1, e.2.within m) else e
  { s with ctxs := s.ctxs.map f, slots := s.slots.map fun k => { k with members := k.members.map f } }

def State.partRead (s : State) (n off : Nat) : Nat :=
  let p := s.part n
  let r := (p.regions[(off - 0x100) / 32]?).getD {}
  if n ≥ s.nparts then 0
  else match off with
  | 0x000 => s.pcfg n | 0x008 => p.ptroot | 0x010 => p.stvec | 0x018 => p.pdisc | 0x020 => p.dirbase | 0x030 => p.nrbase
  | 0x038 => p.nrlen | 0x040 => p.nrcnt | 0x048 => p.nrridx | 0x050 => p.nrlost | 0x058 => p.fpbase | 0x060 => p.fplen
  | 0x068 => p.fpridx | 0x070 => p.fpwidx | 0x080 => p.sabase | 0x088 => p.sasz | 0x090 => p.sanum | 0x098 => s.sause n
  | 0x0A0 => p.prdl | 0x0B0 => p.prstat | 0x0B8 => p.prtime | 0x200 => 32 / s.nparts
  | _ =>
    if 0x100 ≤ off && off < 0x200 then
      match off % 32 with
      | 0 => r.base | 8 => r.lim | 16 => r.thr + 65536 * b2n r.auto + 131072 * b2n r.en | _ => 0
    else if 0x10000 ≤ off then
      let q := (off - 0x10000) / 64
      if s.partOfQueue q = n then s.qcbRead q (off % 64) else 0
    else 0

/-- A write of CRBASEn, CRLIMn or CRTHRn (R275). -/
def setRegion (rs : Vector CRegion 8) (n off v : Nat) : Vector CRegion 8 :=
  let r := (rs[n]?).getD {}
  let r' := match off with
    | 0 => { r with base := keep v 16 40 }
    | 8 => { r with lim := keep v 16 40 }
    | 16 => { r with thr := v % 65536, auto := v / 65536 % 2 = 1, en := v / 131072 % 2 = 1 }
    | _ => r
  rs.setIfInBounds n r'

def State.partWrite (s : State) (n off v : Nat) : State :=
  let m (f : Part → Part) : State := s.modPart n f
  if n ≥ s.nparts then s
  else match off with
  | 0x008 => m fun p => { p with ptroot := keep v 16 36 }
  | 0x010 => m fun p => { p with stvec := keep v 3 61 }
  | 0x018 => m fun p => { p with pdisc := v % 65536 }
  | 0x020 => m fun p => { p with dirbase := keep v 28 24 }
  | 0x030 => m fun p => { p with nrbase := keep v 5 51 }
  | 0x038 => m fun p => { p with nrlen := v % 65536 }
  | 0x040 => m fun p => { p with nrcnt := keep v 3 53 }
  | 0x048 => m fun p => { p with nrridx := v }
  | 0x058 => m fun p => { p with fpbase := keep v 3 53 }
  | 0x060 => m fun p => { p with fplen := v % 65536 }
  | 0x070 => m fun p => { p with fpwidx := v }
  | 0x080 => m fun p => { p with sabase := keep v 16 36 }
  | 0x088 => m fun p => { p with sasz := keep v 16 24 }
  | 0x090 => m fun p => { p with sanum := v % 128 }
  | 0x0A0 => m fun p => { p with prdl := v }
  | 0x0A8 => s.postNow [(.preqWrite, { a := n, w := w64 v })]
  | 0x0C0 =>
    let i : Instr := match bitsOf v 6 2 with | 0 => .prresRestore | 1 => .prresDiscard | _ => .prresFlush
    if bitsOf v 6 2 = 3 then s else s.postNow [(i, { a := n, b := v % 64 })]
  | _ =>
    if 0x100 ≤ off && off < 0x200 then
      m fun p => { p with regions := setRegion p.regions ((off - 0x100) / 32) (off % 32) v }
    else if 0x10000 ≤ off then
      let q := (off - 0x10000) / 64
      if s.partOfQueue q = n then
        let s := s.modQueue q fun u => qcbWrite u (off % 64) v
        if off % 64 = 0x10 then s.withinQueue q else s
      else s
    else s

/-- DSTAT[2:0] (R401). -/
def dstat (c : Ctx) : Nat :=
  match c.status with
  | .halted => 2 | .frozen => 3 | .attached => 4 | _ => if c.haltWait then 1 else 0

def State.dbgRead (s : State) (n off : Nat) : Nat :=
  let d := s.dbg n
  let c := s.ctx n
  match off with
  | 0x00 => 2 * b2n d.halteng
  | 0x08 =>
    let left := if c.status = .frozen then min ((d.holdTill - s.keel) / 1000000) (2 ^ 32 - 1) else 0
    left * 2 ^ 32 + (if c.status = .frozen || c.status = .attached then d.fatal * 256 else 0) + dstat c
  | 0x10 => d.dsel
  | 0x18 => if 2 ≤ dstat c then
      (match d.edits.reverse.find? fun e => e.1 = d.dsel with
        | some e => e.2.toNat
        | none => s.recWord n d.dsel)
    else 0
  | 0x20 => (d.bps.get 0).toNat | 0x28 => (d.bps.get 1).toNat | 0x30 => (d.bps.get 2).toNat | 0x38 => (d.bps.get 3).toNat
  | 0x40 => d.trbase | 0x48 => d.trlen | 0x50 => d.tridx | 0x58 => b2n d.lcomp
  | _ => 0

/-- Breakpoint register bits: PC [55:3], action [1], enable [0]. -/
def bpKeep (v : Nat) : Word := w64 (keep v 3 53 + v % 4)

def State.dbgWrite (s : State) (n off v : Nat) : State :=
  let m (f : Dbg → Dbg) : State := s.modDbg n f
  match off with
  | 0x00 =>
    let s := m fun d => { d with halteng := v / 2 % 2 = 1 }
    s.postNow (([(0, .halt), (2, .resume), (3, .step), (4, .attach), (5, .release)].filter fun (x : Nat × Instr) =>
      bitsOf v x.1 1 = 1).map fun x => (x.2, { a := n }))
  | 0x10 => m fun d => { d with dsel := keep v 3 13 }
  | 0x18 => if 2 ≤ dstat (s.ctx n) then m fun d => { d with edits := d.edits ++ [(d.dsel, w64 v)] } else s
  | 0x20 => m fun d => { d with bps := d.bps.set 0 (bpKeep v) }
  | 0x28 => m fun d => { d with bps := d.bps.set 1 (bpKeep v) }
  | 0x30 => m fun d => { d with bps := d.bps.set 2 (bpKeep v) }
  | 0x38 => m fun d => { d with bps := d.bps.set 3 (bpKeep v) }
  | 0x40 => m fun d => { d with trbase := keep v 6 46 }
  | 0x48 =>
    let l := keep v 6 26
    m fun d => if d.trlen = 0 && l ≠ 0 then { d with trlen := l, tridx := 0, trRecs := 0, trPc := 0, trKeel := s.keel }
      else { d with trlen := l }
  | 0x58 => m fun d => { d with lcomp := v % 2 = 1 }
  | _ => s

def State.wsRead (s : State) (n off : Nat) : Nat :=
  let p := s.part n
  match off with
  | 0x00 => p.wsbase | 0x08 => p.wslen | 0x10 => p.wsidx | 0x18 => p.wsmin | _ => 0
def State.wsWrite (s : State) (n off v : Nat) : State :=
  match off with
  | 0x00 => s.modPart n fun p => { p with wsbase := keep v 4 48 }
  | 0x08 => s.modPart n fun p => { p with wslen := keep v 4 20, wsidx := 0 }
  | 0x18 => s.modPart n fun p => { p with wsmin := v % 2 ^ 24 }
  | _ => s

def lportRead (l : LeafPort) (off : Nat) : Nat :=
  match off with
  | 0x00 => l.leaf | 0x08 => l.expGen.toNat | 0x10 => l.newLo.toNat | 0x18 => l.newHi.toNat | 0x28 => l.lstat
  | 0x30 => l.tcommit | 0x38 => l.reuse | _ => 0
/-- A write to an instance from any other source is ignored (R268). -/
def State.lportWrite (s : State) (src n off v : Nat) : State :=
  if src ≠ n then s
  else match off with
  | 0x00 => s.modLport n fun l => { l with leaf := keep v 4 48 }
  | 0x08 => s.modLport n fun l => { l with expGen := BitVec.ofNat 16 v }
  | 0x10 => s.modLport n fun l => { l with newLo := w64 v }
  | 0x18 => s.modLport n fun l => { l with newHi := w64 v }
  | 0x20 => if v % 2 = 1 && (s.lport n).lstat ≠ 1 then s.postNow [(.leafUpdateStart, { a := n, b := v % 4 })] else s
  | _ => s

/-- The 64-bit register at an aligned physical address; 0 where there is none. -/
def State.regRead (s : State) (pa : Nat) : Nat :=
  if paKind pa = .notify then
    let q := (pa - 0xF00000000000) / 4096
    match pa % 4096 with
    | 8 => (s.queue q).widx | 16 => (s.queue q).ridx | _ => 0
  else if pa < 0xF00001040000 then chanRead (s.chan ((pa - 0xF00001000000) / 256)) (pa % 256)
  else if 0xF00001800000 ≤ pa && pa < 0xF00001900000 then s.partRead ((pa - 0xF00001800000) / 0x20000) (pa % 0x20000)
  else if 0xF00001C00000 ≤ pa && pa < 0xF00001C40000 then s.dbgRead ((pa - 0xF00001C00000) / 256) (pa % 256)
  else if pa = 0xF00001C40400 then s.holdlim
  else if 0xF00001C40000 ≤ pa && pa < 0xF00001C40000 + 64 * s.nparts then s.wsRead ((pa - 0xF00001C40000) / 64) (pa % 64)
  else if 0xF00001F00000 ≤ pa && pa < 0xF00001F40000 then lportRead (s.lport ((pa - 0xF00001F00000) / 64)) (pa % 64)
  else 0

/-- Write the 64-bit register at an aligned physical address on behalf of a source. -/
def State.regWrite (s : State) (src pa v : Nat) (atomic : Bool) : State :=
  if paKind pa = .notify then
    let q := (pa - 0xF00000000000) / 4096
    match pa % 4096 with
    | 0 => s.modQueue q fun u => { u with look := true }
    | 8 => if atomic || (s.queue q).weight = 0 then s.modQueue q fun u => { u with widx := v } else s
    | _ => s
  else if pa < 0xF00001040000 then s.modChan ((pa - 0xF00001000000) / 256) fun c => chanWrite c (pa % 256) v atomic
  else if 0xF00001800000 ≤ pa && pa < 0xF00001900000 then s.partWrite ((pa - 0xF00001800000) / 0x20000) (pa % 0x20000) v
  else if 0xF00001C00000 ≤ pa && pa < 0xF00001C40000 then s.dbgWrite ((pa - 0xF00001C00000) / 256) (pa % 256) v
  else if pa = 0xF00001C40400 then (if src = 2080 then { s with holdlim := v } else s)
  else if 0xF00001C40000 ≤ pa && pa < 0xF00001C40000 + 64 * s.nparts then s.wsWrite ((pa - 0xF00001C40000) / 64) (pa % 64) v
  else if 0xF00001F00000 ≤ pa && pa < 0xF00001F40000 then s.lportWrite src ((pa - 0xF00001F00000) / 64) (pa % 64) v
  else s

/-- A naturally aligned access of 4 or 8 bytes (R241). -/
def devSizeOk (pa n : Nat) : Bool := (n = 4 || n = 8) && pa % n = 0

def State.devRead (s : State) (pa n : Nat) : Nat :=
  let v := s.regRead (pa / 8 * 8)
  if n = 8 then v else bitsOf v (8 * (pa % 8)) 32

def State.devStore (s : State) (src pa n v : Nat) (atomic : Bool) : State :=
  let a := pa / 8 * 8
  if n = 8 then s.regWrite src a v atomic else s.regWrite src a (setBits (s.regRead a) (8 * (pa % 8)) 32 v) atomic

-- Notification ring (R275, R276, R280).

/-- The count word of a ring (R280): a flag write at memory; a device register takes it at once, a peer ignores it (R241, R362). -/
def State.noteCount (s : State) (part : Nat) (st : Stamp) (pa n : Nat) : State :=
  match paKind pa with
  | .device | .notify => s.devStore st.src pa 8 n false
  | .peer => s
  | _ => s.noteAt st.src part st pa (leBytes 8 n)

/-- Write a 32-byte record and the count word (R280), as the copy engine reaches memory (R311): a record is no access that a device page
takes (R241). Dropped where the ring is full or a write fails; none while a walk waits. -/
def State.writeRecord (s : State) (part : Nat) (st : Stamp) (bs : List Byte) : Option State :=
  let p := s.part part
  let lost := s.modPart part fun p => { p with nrlost := min (p.nrlost + 1) (2 ^ 32 - 1) }
  let n := p.nridx
  if p.nrlen = 0 then some s
  else if p.nrlen ≤ n - p.nrridx then some lost
  else
    match s.engineWalk part (p.nrbase + 32 * (n % p.nrlen)) true, s.engineWalk part p.nrcnt true with
    | some (.ok a), some (.ok k) =>
      if paKind a = .device || paKind a = .notify then some lost
      else
        let s := if paKind a = .peer then s else s.noteAt st.src part st a bs
        let s := s.noteCount part ⟨st.keel + 1, st.src⟩ k (n + 1)
        some (s.modPart part fun p => { p with nridx := n + 1 })
    | some (.error _), _ => some lost
    | _, some (.error _) => some lost
    | _, _ => none

/-- Post a record: it is written now, or waits with those before it. -/
def State.postRecord (s : State) (part : Nat) (st : Stamp) (bs : List Byte) : State :=
  let keep := s.modPart part fun p => { p with notes := p.notes ++ [(st, bs)] }
  if (s.part part).notes.isEmpty then (s.writeRecord part st bs).getD keep else keep

/-- Write the records of a partition that wait, as far as they can be written. -/
def State.drainNotes (s : State) (part : Nat) : State :=
  (s.part part).notes.foldl (fun s r =>
    if (s.part part).notes.head? = some r then
      match s.writeRecord part r.1 r.2 with
      | some t => t.modPart part fun p => { p with notes := p.notes.tail }
      | none => s
    else s) s

/-- A record of R276 or one of its variants. -/
def noteBytes (keel va kind lo24 hi : Nat) (src : Nat) : List Byte :=
  leBytes 8 keel ++ leBytes 7 va ++ leBytes 1 kind ++ leBytes 8 lo24 ++ leBytes 6 hi ++ leBytes 2 src

end Sys2Proof.Machine
end

