-- ==== Sys2Proof/Machine/Xlat.lean ====
section
/-! DEFINITION. Translation under leases (14): the lease cache and its counts, the XLAT instructions, instruction fetch on a
miss (R414), the leaf update port and change records, and the skew fault (R272). -/

namespace Sys2Proof.Machine

-- Access counts (R274, R275).

/-- The threshold of a page: the lowest-numbered enabled region that holds it, else 256; and whether the assist acts. -/
def State.threshold (s : State) (part va : Nat) : Nat × Bool :=
  match (s.part part).regions.toList.find? fun r => r.en && r.base ≤ va && va < r.lim with
  | some r => (if r.thr = 0 then 256 else r.thr, r.auto)
  | none => (256, false)

/-- Write a page-table entry: the walkers' view and the memory it stands in. -/
def State.putPte (s : State) (src part a : Nat) (e : BitVec 128) : State :=
  ({ s with pt := tput s.pt a e }).addAt src part 0 ⟨s.keel, src⟩ .sys a (leBytes 16 e.toNat) 0 0

/-- Flush a lease's count to its leaf (R274); a crossing posts a record and may start the assist (R275, R278). -/
def State.flush (s : State) (src part : Nat) (l : Lease) : State :=
  let e := s.pte l.leaf
  let lf : Leaf := ⟨l.leaf, e⟩
  if l.count = 0 || lf.gen ≠ l.gen then s
  else
    let old := lf.f 80 16
    let new := min (old + l.count) 65535
    let s := s.putPte src part l.leaf (BitVec.ofNat 128 (setBits e.toNat 80 16 new))
    let (thr, auto) := s.threshold part l.va
    if old < thr && thr ≤ new then
      -- a crossing that starts the assist has its record made by it (R276, R278; log 31)
      let starts := auto && lf.pa ≥ 0x8000000000000 && l.sz = 0 && (s.part part).assist.isNone
      let by_ := if starts then 2082 else src
      let s := s.postRecord part ⟨s.keel, by_⟩
        (noteBytes s.keel l.va 0 l.leaf (new + 65536 * lf.gen.toNat + 2 ^ 32 * (l.sz.toNat + 4 * l.lc.toNat)) by_)
      if starts then
        s.post .migrationAssist { a := part, b := l.leaf, c := l.va, w := lf.gen.setWidth 64 }
      else s
    else s

/-- The leases of a cell without one: its count is flushed. -/
def State.dropLease (s : State) (src cell : Nat) (l : Lease) : State :=
  (s.modCell cell fun c => { c with leases := c.leases.filter fun x => !(x.va = l.va && x.sz = l.sz && x.leaf = l.leaf) }).flush
    src (s.partOfCell cell) l

/-- Drop every lapsed lease of a cell (R256). -/
def State.dropLapsed (s : State) (src cell : Nat) : State :=
  ((s.cell cell).leases.filter fun l => l.exp ≤ s.keel).foldl (fun s l => s.dropLease src cell l) s

/-- The least recently used lease that is not pinned. -/
def lruLease : List Lease → Option Lease
  | [] => none
  | l :: ls =>
    match lruLease ls with
    | some m => if !l.pin.isEmpty || m.used < l.used then some m else some l
    | none => if l.pin.isEmpty then some l else none

/-- The cache entry that a lease of a page takes the place of. -/
def State.oldLease (s : State) (cell : Nat) (l : Lease) : Option Lease :=
  (s.cell cell).leases.find? fun x => x.va ≤ l.va && l.va < x.va + pageSize x.sz

/-- Put a lease into a cell's cache, making room (R256): the old entry of the page is flushed. The threads that have pinned the page keep
it pinned. -/
def State.fillLease (s : State) (src cell : Nat) (l : Lease) : State :=
  let old := (s.oldLease cell l).elim [] (·.pin)
  let l := { l with pin := old ++ l.pin.filter fun t => !(old.contains t) }
  let s := match s.oldLease cell l with
    | some x => s.dropLease src cell x
    | none => s
  let s := if (s.cell cell).leases.length < Config.leaseEntries then s else s.dropLapsed src cell
  let s := if (s.cell cell).leases.length < Config.leaseEntries then s
    else match lruLease (s.cell cell).leases with
      | some x => s.dropLease src cell x
      | none => s
  { (s.modCell cell fun c => { c with leases := { l with used := s.seq } :: c.leases }) with seq := s.seq + 1 }

/-- The lease a walker grants now (R255). -/
def State.grantOf (s : State) (lf : Leaf) (va : Nat) (w : Bool) : Lease :=
  { va := pageBase lf va, sz := lf.sz, pbase := lf.pa, gen := lf.gen, w := w, x := lf.x, lc := lf.lc, ord := lf.ord
    cnt := lf.cnt, exp := s.keel + lf.lease - 64, leaf := lf.addr }

/-- The entries that a thread's last `RPROBE` pinned are pinned no more (R256). -/
def State.unpin (s : State) (src : Nat) : State :=
  s.modCell (cellOf src) fun c => { c with leases := c.leases.map fun l => { l with pin := l.pin.filter (· ≠ src) } }

/-- The part of `RPROBE` for one page (R264): `none` waits. -/
def State.probe (s : State) (part va : Nat) (write : Bool) : Option (Except Why Lease) :=
  match s.walk part va with
  | .error w => some (.error w)
  | .ok lf =>
    let can := lf.w && !lf.wb && s.writeLeaseAllowed lf
    if write then
      if !lf.w then some (.error .noWrite)
      else if can then some (.ok (s.grantOf lf va true)) else none
    else some (.ok (s.grantOf lf va can))

/-- Raise PAGE_FAULT with XFAULT (R265). -/
def State.pageFault (s : State) (th : Nat) (why : Why) (va : Nat) : State :=
  (s.modMe fun c => { c with xfault := w64 (th * 2 ^ 60 + why.code.toNat * 2 ^ 56 + va % 2 ^ 56) }).trap .pageFault 0

-- Tethers (R258, R260 to R263).

/-- Tether(t) (R258). -/
def Tether.anchor (t : Tether) : Nat := t.pbase + t.vanc.toNat % pageSize t.sz

/-- An earlier active stream of the thread goes through the tether (R259). -/
def streamTether : Instr → Option (BitVec 4)
  | .ldmq f | .stmq f => some f.th
  | _ => none
def Ctx.tetherBusy (c : Ctx) (th : BitVec 4) : Bool := c.streams.any fun t => streamTether t.ent.instr = some th

/-- A grant of a lease still in the cache. -/
def tethered (v : Word) (l : Lease) : Tether :=
  { vanc := v, pbase := l.pbase, sz := l.sz, gen := l.gen, w := l.w, x := l.x, lc := l.lc, ord := l.ord, cnt := l.cnt
    exp := l.exp, stat := .ok }

def execTeth (th : BitVec 4) (a : Reg) (intent : Intent) (s : State) : Out :=
  let v := s.scalar a
  if s.me.tetherBusy th then .next s.stall
  else
    let t := s.me.teth th
    let none_ (st : TStat) : Tether := { t with stat := st, rdenied := false, rpend := false, rdue := 0 }
    let hit := if v.toNat < 2 ^ 56 then s.lease s.myCell v.toNat else none
    let t' := match hit with
      | none => none_ .miss
      | some l =>
        if intent = .write && !l.w then none_ .noperm
        else if intent = .exec && !l.x then none_ .noperm
        else tethered v l
    let s := match hit with
      | some l => { (s.modCell s.myCell fun c => { c with
          leases := modFirst (fun x => x.va = l.va && x.leaf = l.leaf) (fun x => { x with used := s.seq }) c.leases }) with seq := s.seq + 1 }
      | none => s
    .next (s.modMe fun c => c.setTeth th t')

/-- The cache entry of a tether's page, lapsed or not. -/
def State.tethEntry (s : State) (cell : Nat) (t : Tether) : Option Lease :=
  (s.cell cell).leases.find? fun l => l.va ≤ t.vanc.toNat && t.vanc.toNat < l.va + pageSize l.sz

/-- Flush the count of a tether's page, keeping the entry (R274). -/
def State.flushTeth (s : State) (t : Tether) : State :=
  match s.tethEntry s.myCell t with
  | some l =>
    (s.flush s.iss.src s.myPart l).modCell s.myCell fun c => { c with
      leases := modFirst (fun x => x.va = l.va && x.leaf = l.leaf) (fun x => { x with count := 0 }) c.leases }
  | none => s

/-- The Keel before which a renewal asked for now is answered: bounded where the leaf has L of 4 or more and 2,048 ns are left
(R262). -/
def State.answerBy (s : State) (t : Tether) : Nat :=
  match s.walk s.myPart t.vanc.toNat with
  | .ok l => if t.stat = .ok && 4096 ≤ l.lease && s.keel + 2048 ≤ t.exp then t.exp - 1 else 0
  | .error _ => if t.stat = .ok && s.keel + 2048 ≤ t.exp then t.exp - 1 else 0

/-- TRENEW (R262): RPEND is set and the count flushed; the answer lands later. A second one while RPEND is set does nothing. -/
def execTrenew (th : BitVec 4) (s : State) : Out :=
  let t := s.me.teth th
  if s.me.tetherBusy th then .next s.stall
  else if t.rpend then .next s
  else .next ((s.flushTeth t).modMe fun c => c.setTeth th { t with rpend := true, rdue := s.answerBy t })

/-- The walkers' answer to a renewal (R262, R266): the new tether, or none where it is denied. -/
def State.renewed (s : State) (part : Nat) (t : Tether) : Option Tether :=
  if s.skew || t.stat ≠ .ok then none
  else match s.walk part t.vanc.toNat with
    | .error _ => none
    | .ok l =>
      if l.pa = t.pbase && l.sz = t.sz && l.lc = t.lc && l.ord = t.ord && (!t.w || (l.w && !l.wb && s.writeLeaseAllowed l)) &&
          (!t.x || l.x) then
        some { t with exp := s.keel + l.lease - 64, gen := l.gen, rpend := false, rdue := 0 }
      else none

/-- The stores that a thread has made through tether `th` under its lease, which is still in force, are published at the expiry of the
renewed one (R270). -/
def State.extendStores (s : State) (src : Nat) (th : BitVec 4) (t t' : Tether) : State :=
  let there (a : Nat) : Bool :=
    let x := if paKind t.pbase = .inter && paKind a = .hbm then s.interOf (s.partOfSrc src) a else a
    decide (t.pbase ≤ x) && decide (x < t.pbase + pageSize t.sz)
  { s with vers := s.vers.map fun v =>
      if v.src = src && !v.dead && v.th = some th && v.due = t.exp && s.keel < v.due && v.cells.head?.any (fun c => there c.1) then
        { v with due := t'.exp }
      else v }

/-- A write lease of the page could be granted now (R264, R269). -/
def State.mayWrite (s : State) (part va : Nat) : Bool :=
  match s.walk part va with
  | .ok l => l.w && !l.wb && s.writeLeaseAllowed l
  | .error _ => false

/-- RENEWAL_ANSWER (R262): `arg.a` is the thread, `arg.b` the tether. -/
def execRenewalAnswer (s : State) : Out :=
  let src := s.arg.a
  let th : BitVec 4 := BitVec.ofNat 4 s.arg.b
  let t := (s.ctx src).teth th
  if !t.rpend then .next s
  else match s.renewed (s.partOfSrc src) t with
    | some t' =>
      let s := (s.extendStores src th t t').modCtx src fun c => c.setTeth th t'
      -- the cache entry's lease goes on as one for writing only where a write lease could be granted now (R269)
      let w := s.mayWrite (s.partOfSrc src) t.vanc.toNat
      .next (s.modCell (cellOf src) fun c => { c with
        leases := modFirst (fun l => l.va ≤ t.vanc.toNat && t.vanc.toNat < l.va + pageSize l.sz)
          (fun l => { l with exp := t'.exp, gen := t'.gen, w := l.w && w }) c.leases })
    | none => .next (s.modCtx src fun c => c.setTeth th { t with rdenied := true, rpend := false, rdue := 0 })

def execTrel (th : BitVec 4) (s : State) : Out :=
  let t := s.me.teth th
  if s.me.tetherBusy th then .next s.stall
  else if t.stat = .none || t.stat = .released then .next s
  else .next ((s.flushTeth t).modMe fun c => c.setTeth th { t with stat := .released })

/-- The word TSTAT writes (R261). -/
def tstatWord (keel : Nat) (t : Tether) : Word :=
  let left := if t.stat = .ok then min (t.exp - keel) (2 ^ 32 - 1) else 0
  w64 (left * 2 ^ 32 + t.gen.toNat * 65536 + b2n t.cnt * 32768 + b2n t.ord * 16384 + t.lc.toNat * 4096 + t.sz.toNat * 1024 +
    b2n t.x * 512 + b2n t.w * 256 + b2n t.rpend * 32 + b2n t.rdenied * 16 + t.stat.code)

def execTstat (d : Reg) (th : BitVec 4) (s : State) : Out :=
  .next (s.setScalar d (tstatWord s.keel (s.me.teth th)))

/-- The first address of a page after `va`, for the page size found. -/
def nextPage (sz : BitVec 2) (va : Nat) : Nat := (va / pageSize sz + 1) * pageSize sz

/-- `RPROBE` ends with a trap: what it has done counts for nothing when it is repeated (R265). -/
def State.probeTrap (s : State) (k : State → State) : State := k (({ s with iss := { s.iss with prog := 0 } } : State).keepEntry .a)

/-- The loop of R264 from `va` to `last`, `n` pages on: where a page must wait, the walks go on there. -/
def State.probeRange (s : State) (write : Bool) (first last : Nat) : Nat → Nat → Nat → State
  | 0, _, _ => s.stall
  | fuel + 1, va, n =>
    if last < va then s
    else if 2 ^ 56 ≤ va then s.probeTrap fun s => s.pageFault 0 .notMapped va
    else match s.probe s.myPart va write with
      | some (.error w) => s.probeTrap fun s => s.pageFault 0 w va
      | none => ({ s with iss := { s.iss with prog := (va - first) * 128 + min n 64 + 1 } } : State).stall
      | some (.ok l) =>
        let l := { l with pin := if n < 64 then [s.iss.src] else [] }
        (s.fillLease s.iss.src s.myCell l).probeRange write first last fuel (nextPage l.sz va) (n + 1)

/-- RPROBE (R264): walks and leases every page of the range; the control core has held it until the units were at rest. -/
def execRprobe (a b : Reg) (w : Bool) (s : State) : Out :=
  let va := (s.scalar a).toNat
  let n := (s.scalar b).toNat
  let p := s.iss.prog - 1
  let s := if s.iss.prog = 0 then s.unpin s.iss.src else s
  if n = 0 then .next s
  else if s.skew then .next (s.probeTrap fun s => s.trap .skew)
  else .next (s.probeRange w va (va + n - 1) (n / 65536 + 3) (va + p / 128) (p % 128))

/-- INSTRUCTION_FETCH (R414): the control core asks the walkers for the page of the PC; a word that cannot be served traps. -/
def execInstructionFetch (s : State) : Out :=
  let src := s.arg.a
  let c := s.ctx src
  let s := { s with iss := { src := src, pc := c.chainPc } }
  let va := c.pc.toNat
  if s.skew then .next (s.trap .skew)
  else match s.walk s.myPart va with
    | .error w => .next (s.pageFault 0 w va)
    | .ok lf =>
      if !lf.x then .next (s.pageFault 0 .noExec va)
      else .next (s.fillLease src s.myCell (s.grantOf lf va (lf.w && !lf.wb && s.writeLeaseAllowed lf)))

/-- LEASE_CACHE_EXPIRY (R256): a lapsed lease of a cell is dropped and its count flushed, in the name of the cell's slot 0 (log 59). -/
def execLeaseCacheExpiry (s : State) : Out := .next (s.dropLapsed (s.arg.a * 4) s.arg.a)

/-- LEASE_EXPIRY_PUBLISH (R270): at the expiry of its lease, a store not yet published at partition or system scope is. -/
def execLeaseExpiryPublish (s : State) : Out :=
  .next { s with vers := s.vers.map fun v =>
      if v.src = s.arg.a && v.due ≠ 0 && v.due ≤ s.keel then v.publish .part ⟨v.due, v.src⟩ else v }

/-- CHANGE_RECORD_LAPSE (R269). -/
def execChangeRecordLapse (s : State) : Out := .next { s with changes := s.changes.filter fun c => s.keel < c.till }

-- The leaf update port (R268).

/-- The stack of an entry, if it is in HBM. -/
def stackOf (a : Nat) : Option Nat := if paKind a = .hbm then some (a / 2 ^ 36) else none

/-- The source may change entries there. -/
def State.mayChange (s : State) (src a : Nat) : Bool :=
  match stackOf a with
  | none => false
  | some h =>
    if src = 2056 || src = 2080 || src = 2081 then true
    else match (if src = 2082 then some (s.partOfStack h) else s.partOfAgent src) with
      | some p => s.partOfStack h = p
      | none => false

/-- LEAF_UPDATE_START (R268): `arg.a` is the source, `arg.b` the CTL bits. The entry is compared; the commit follows when
there is room for a change record. -/
def execLeafUpdateStart (s : State) : Out :=
  let n := s.arg.a
  let l := s.lport n
  let e := s.pte l.leaf
  let st (v : Nat) : State := s.modLport n fun l => { l with
    lstat := v, job := ⟨l.leaf, l.expGen, l.newLo, l.newHi, s.arg.b / 2 % 2 = 1⟩ }
  if l.lstat = 1 then .next s
  else if !(s.mayChange n l.leaf) || (e.getLsbD 0 && !(e.getLsbD 1)) then .next (st 4)
  else if e.extractLsb' 64 16 ≠ l.expGen then .next (st 3)
  else .next ((st 1).post .leafUpdateCommit { a := n })

/-- The software fields of an entry: everything but GEN and ACNT. -/
def swFields (e : BitVec 128) : Nat := setBits e.toNat 64 32 0

/-- Commit a change of a leaf for a source (R268 to R271): the entry, the change record, TCOMMIT and REUSE. -/
def State.commitLeaf (s : State) (n : Nat) : State :=
  let l := (s.lport n).job
  let e := s.pte l.leaf
  let acnt := if l.resetCnt then 0 else bitsOf e.toNat 80 16
  let new : BitVec 128 := l.newHi ++ l.newLo
  let part := (stackOf l.leaf).elim 0 s.partOfStack
  if swFields new = swFields e then
    let s := if l.resetCnt then s.putPte n part l.leaf (BitVec.ofNat 128 (setBits e.toNat 80 16 0)) else s
    s.modLport n fun l => { l with lstat := 2, tcommit := s.keel, reuse := s.keel, last := s.keel + 1 }
  else
    let e' := setBits (setBits new.toNat 64 16 (l.expGen.toNat + 1)) 80 16 acnt
    let oldL := (⟨l.leaf, e⟩ : Leaf).lease
    let newL := (⟨l.leaf, new⟩ : Leaf).lease
    let s := s.putPte n part l.leaf (BitVec.ofNat 128 e')
    { (s.modLport n fun l => { l with
        lstat := 2, tcommit := s.keel, reuse := s.keel + max oldL newL + 2 ^ 20 + 64, last := s.keel + 1 }) with
      changes := s.changes ++ [⟨part, l.leaf, s.keel + oldL⟩] }

/-- Changes are totally ordered by their stamps (R271): one of this source or of a later one has been made in this nanosecond. -/
def State.leafPassed (s : State) (n : Nat) : Bool := s.lports.any fun p => decide (n ≤ p.1) && p.2.last = s.keel + 1

/-- LEAF_UPDATE_COMMIT (R268): waits while the partition holds 4,096 change records. -/
def execLeafUpdateCommit (s : State) : Out :=
  let n := s.arg.a
  let l := (s.lport n).job
  let part := (stackOf l.leaf).elim 0 s.partOfStack
  let e := s.pte l.leaf
  let st (v : Nat) : Out := .next (s.modLport n fun l => { l with lstat := v })
  if (s.lport n).lstat ≠ 1 || s.leafPassed n then .next s
  else if !(s.mayChange n l.leaf) || (e.getLsbD 0 && !(e.getLsbD 1)) then st 4
  else if e.extractLsb' 64 16 ≠ l.expGen then st 3
  else if Config.changeRecords ≤ (s.changes.filter fun c => c.part = part).length then .next s
  else .next (s.commitLeaf n)

-- Skew (R272).

def Tether.skewed (t : Tether) : Tether := { t with stat := .skewed }

/-- A skew fault: every lease is dropped, its count flushed in the name of its cell's slot 0 (R274; log 59), and every tether is SKEWED,
saved ones included. -/
def State.skewFault (s : State) : State :=
  let s := s.cells.foldl (fun s c => c.2.leases.foldl (fun s l => s.dropLease (c.1 * 4) c.1 l) s) s
  let f (c : Ctx) : Ctx := { c with teths := c.teths.map Tether.skewed }
  { s with
    skew := true
    cells := s.cells.map fun c => (c.1, { c.2 with leases := [] })
    ctxs := s.ctxs.map fun c => (c.1, f c.2)
    slots := s.slots.map fun k => { k with members := k.members.map fun m => (m.1, f m.2) }
    fw := { s.fw with log := s.fw.log ++ [(s.keel, 7)] } }

end Sys2Proof.Machine
end

