-- ==== Sys2Proof/Machine/Access.lean ====
section
/-! DEFINITION. The access unit: scratchpad and tethered scalar accesses (04 R76, R77, R82 to R85), atomics (R86, R87), streams
and their rows (R78 to R81, 16 R296, R297), and the queue instructions (R75). -/

namespace Sys2Proof.Machine

-- Bytes through a tether.

/-- The worst time of an access of a latency class (R240); 0 where there is none. -/
def classBound (lc : BitVec 2) : Nat :=
  match lc.toNat with
  | 0 => 400 | 1 => 1500 | 2 => 3000 | _ => 0

/-- A host that does not answer or a failed link may keep an access of this bound from being answered (R240): classes 1 and 2. -/
def mayFail (bound : Nat) : Bool := decide (400 < bound)

/-- Zero- or sign-extend `n` bytes. -/
def extend (sx : Bool) (n v : Nat) : Word :=
  match n with
  | 1 => if sx then (BitVec.ofNat 8 v).signExtend 64 else (BitVec.ofNat 8 v).setWidth 64
  | 2 => if sx then (BitVec.ofNat 16 v).signExtend 64 else (BitVec.ofNat 16 v).setWidth 64
  | 4 => if sx then (BitVec.ofNat 32 v).signExtend 64 else (BitVec.ofNat 32 v).setWidth 64
  | _ => w64 v

/-- Count one access through a tether (R274). -/
def State.countTeth (s : State) (t : Tether) : State :=
  if t.cnt then
    s.modCell s.myCell fun c => { c with
      leases := modFirst (fun l => l.va ≤ t.vanc.toNat && t.vanc.toNat < l.va + pageSize l.sz)
        (fun l => { l with count := min (l.count + 1) 65535 }) c.leases }
  else s

/-- The checks of a tethered access of `n` bytes at an offset from the anchor (R84, R267, R241), and then `k` on its physical
address. `stream` allows latency class 3. -/
def State.tethered (s : State) (th : BitVec 4) (off : Int) (n : Nat) (write stream : Bool) (k : Tether → Nat → State) : State :=
  let t := s.me.teth th
  let bad : State := s.fatal .badTether (th.setWidth 32)
  match t.stat with
  | .skewed => s.trap .skew
  | .stale => s.pageFault th.toNat .stale t.vanc.toNat
  | .ok =>
    let a : Int := t.anchor + off
    if s.keel < t.exp && decide ((t.pbase : Int) ≤ a) && decide (a + n ≤ (t.pbase : Int) + pageSize t.sz) && (!write || t.w) &&
        (t.lc ≠ 3 || stream) then
      let kind := paKind a.toNat
      if (kind = .device || kind = .notify) && !(devSizeOk a.toNat n) then bad else k t a.toNat
    else bad
  | _ => bad

/-- The bytes of a peer window counter page (R362): ARRIVED in bytes [5:0] of each block, the length in bytes [15:8]. -/
def peerBytes (choice pa n : Nat) : List Byte :=
  (List.range n).map fun i =>
    let b := (pa + i) / 64
    let o := (pa + i) % 64
    slice (leBytes 8 (Config.peerArrived choice b).toNat ++ leBytes 8 (Config.peerLength choice b).toNat) o 1 |>.headD 0

/-- The port whose peer holds a counter page. -/
def peerPort (pa : Nat) : Nat := (pa - 0xF10000000000) / 2 ^ 24

/-- A load of `n` bytes by the thread: from a device register, a peer, at memory for an ORD page (R173), else under R171. -/
def State.readAt (s : State) (ord : Bool) (pa n : Nat) : List Byte × State :=
  match paKind pa with
  | .device | .notify => (leBytes n (s.devRead pa n), s)
  | .peer => (peerBytes s.choices pa n, { s with choices := s.choices + 1 })
  | _ => (if ord then s.bytesAt s.ordView false s.myPart pa n else s.loadBytes s.viewer s.myPart pa n, s)

/-- Run `k` on whether bytes in memory are poisoned; a link that is down delivers poison (R240, R358). -/
def State.poisonedWhere (s : State) (pa : Nat) (k : Unit → Bool) : Bool :=
  match paKind pa with
  | .device | .notify => false
  | .peer => !(s.port (peerPort pa)).up
  | _ => k ()

/-- The bytes of a load are poisoned (R333). -/
def State.readPoisoned (s : State) (ord : Bool) (pa n : Nat) : Bool :=
  s.poisonedWhere pa fun _ => if ord then s.poisonAt s.ordView false s.myPart pa n else s.loadPoisoned s.viewer s.myPart pa n

/-- The bytes are poisoned as an atomic or a `FLAGW` reads them. -/
def State.atPoisoned (s : State) (flagRd : Bool) (pa n : Nat) : Bool :=
  s.poisonedWhere pa fun _ => s.poisonAt s.viewerNow flagRd s.myPart pa n

/-- A store that the device drops is logged (R240). -/
def State.logDrop (s : State) : State := { s with fw := { s.fw with log := s.fw.log ++ [(s.keel, 20)] } }

/-- A write of a thread that reaches a peer is ignored (R362), and logged where its link has failed (R240). -/
def State.peerStore (s : State) (pa : Nat) : State := if (s.port (peerPort pa)).up then s else s.logDrop

/-- A store of the thread (R85): to a device register, ignored at a peer, at memory for an ORD page, else a store still to be
performed and published. -/
def State.writeAt (s : State) (ord : Bool) (pa : Nat) (bs : List Byte) (b : StoreBy) : State :=
  match paKind pa with
  | .device | .notify => s.devStore s.iss.src pa bs.length (leVal bs) false
  | .peer => s.peerStore pa
  | _ => if ord then s.ordStore pa bs else s.addStore pa bs b

/-- An atomic of a later stamp than the thread's in this nanosecond has been made over the bytes, or a write at memory of no earlier
stamp stands there: an access at memory with the thread's stamp would come too late (R87, R172). -/
def State.atomLater (s : State) (pa n : Nat) : Bool :=
  let st : Stamp := ⟨s.keel, s.iss.src⟩
  let as_ := s.addrs s.myPart pa n
  (s.atoms.any fun p => st.lt p.1 && p.2.any as_.contains) ||
  s.vers.any fun v => v.atm && (as_.any fun a => (tfind v.cells a).isSome) && v.pubs.head?.any fun p => !(p.2.lt st)

/-- A store to an ORD page that has to wait for its stamp (R172, R173). -/
def State.ordLater (s : State) (ord : Bool) (pa n : Nat) : Bool := ord && s.atomLater pa n

-- Rows of streams (R34, R78 to R81, R296).

/-- Bytes per slot (R34). -/
def rowSize (es : BitVec 3) : Nat :=
  match es.toNat with
  | 0 => 192 | 1 => 96 | 2 => 64 | 3 => 48 | 4 => 32 | 5 => 24 | 6 => 8 | _ => 6

/-- Where a stream's rows lie. -/
inductive RowsAt where
  | spad
  | teth (th : BitVec 4)
  | handle (mh : BitVec 4)
deriving DecidableEq, Repr

/-- A stream instruction: where, its queue, bytes per slot. -/
def streamOf : Instr → Option (RowsAt × QSel × Nat)
  | .ldq f => some (.spad, ⟨false, f.q⟩, rowSize f.es)
  | .stq f => some (.spad, ⟨true, f.q⟩, rowSize f.es)
  | .ldmq f => some (.teth f.th, ⟨false, f.q⟩, rowSize f.es)
  | .stmq f => some (.teth f.th, ⟨true, f.q⟩, rowSize f.es)
  | .ldrq f => some (.handle f.mh, ⟨false, f.q⟩, rowSize f.es)
  | .strq f => some (.handle f.mh, ⟨true, f.q⟩, rowSize f.es)
  | _ => none

def Stream.at_ (t : Stream) : RowsAt := ((streamOf t.ent.instr).map (·.1)).getD .spad
def Stream.q (t : Stream) : QSel := ((streamOf t.ent.instr).map (·.2.1)).getD ⟨false, 0⟩
def Stream.n (t : Stream) : Nat := ((streamOf t.ent.instr).map (·.2.2)).getD 192
/-- Rows that may still move: a store stream of count 0 has no last row (R79). -/
def Stream.till (t : Stream) : Option Nat := if t.q.store && t.count = 0 then none else some t.count

/-- Some row `i`, `frm ≤ i < till`, of the `n` bytes at `base + i * stride` meets the `m` bytes at `x`. -/
def rowsMeet (base stride : Int) (frm : Nat) (till : Option Nat) (n : Nat) (x : Int) (m : Nat) : Bool :=
  let up (b st x : Int) : Bool :=
    let lo := max (frm : Int) ((x - n - b) / st + 1)
    decide (lo ≤ (x + m - 1 - b) / st) && till.all fun k => decide (lo < (k : Int))
  if n = 0 || m = 0 then false
  else if stride = 0 then (till.all fun k => decide (frm < k)) && decide (base < x + m) && decide (x < base + n)
  else if 0 < stride then up base stride x
  else up (-(base + n)) (-stride) (-(x + m))

/-- An element width in bits of a TY code (R282). -/
def fmtBits (c : Nat) : Nat :=
  match c with
  | 0 | 5 | 8 => 32 | 1 | 2 | 6 | 9 => 16 | _ => 8

def Obj.ndim (o : Obj) : Nat := fieldAt o.layout 0 1
def Obj.w (o : Obj) : Nat := fmtBits (fieldAt o.layout 1 1)
def Obj.pad (o : Obj) : Nat := fieldAt o.layout 4 4 % 2 ^ o.w
def Obj.ext (o : Obj) (d : Nat) : Nat := if d < o.ndim then fieldAt o.layout (8 + 4 * d) 4 else 1
def Obj.str (o : Obj) (d : Nat) : Int := (w64 (fieldAt o.layout (32 + 8 * d) 8)).toInt
def Obj.rows (o : Obj) : Nat := o.ext 1 * o.ext 2 * o.ext 3
/-- Some extent is zero. -/
def Obj.hollow (o : Obj) : Bool := (List.range 4).any fun d => o.ext d = 0
/-- The virtual address of row `r` (R296). -/
def Obj.rowVa (o : Obj) (r : Nat) : Int :=
  o.base + (r % o.ext 1 : Nat) * o.str 1 + (r / o.ext 1 % o.ext 2 : Nat) * o.str 2 + (r / (o.ext 1 * o.ext 2) : Nat) * o.str 3
/-- Elements per slot of `n` bytes. -/
def Obj.cap (o : Obj) (n : Nat) : Nat := n * 8 / o.w
/-- Bytes of a row that lie in the object. -/
def Obj.len (o : Obj) (n : Nat) : Nat := min (o.cap n) (o.ext 0) * (o.w / 8)

/-- The object of a handle. -/
def State.objOf (s : State) (part obj : Nat) : Option Obj := tfind (s.part part).dir.objs obj

/-- The byte range of row `i` of a handle stream, none for a row of pad elements. -/
def State.handleRow (s : State) (src : Nat) (t : Stream) (mh : BitVec 4) (i : Nat) : Option (Int × Nat) :=
  match s.objOf (s.partOfSrc src) ((s.ctx src).mh mh).obj with
  | none => none
  | some o =>
    let r : Int := t.base.toInt + i
    if !o.hollow && decide (0 ≤ r) && decide (r < o.rows) && 0 < o.len t.n then some (o.rowVa r.toNat, o.len t.n) else none

/-- The rows of a handle stream still to move that lie in its object. -/
def State.handleRest (s : State) (src : Nat) (t : Stream) (mh : BitVec 4) : List (Int × Nat) :=
  match s.objOf (s.partOfSrc src) ((s.ctx src).mh mh).obj with
  | none => []
  | some o =>
    let i := t.ent.prog
    let lim := (Int.toNat (o.rows - t.base.toInt)) - i
    let n := match t.till with
      | some k => min (k - i) lim
      | none => lim
    (List.range n).filterMap fun k => s.handleRow src t mh (i + k)

/-- A scratchpad byte range is still to be moved by one of the streams (R80). -/
def spadHeld (ss : List Stream) (x n : Nat) : Bool :=
  ss.any fun t => t.at_ = .spad && rowsMeet t.base.toNat t.stride.toInt t.ent.prog t.till t.n x n

/-- Where a virtual address of a thread lies now: under a lease its cell holds, else under the page tables; the bytes from there
to the end of the page come with it. -/
def State.placeOf (s : State) (src va : Nat) : Option (Nat × Nat) :=
  match s.lease (cellOf src) va with
  | some l => some (l.pbase + (va - l.va), l.va + pageSize l.sz - va)
  | none => match s.walk (s.partOfSrc src) va with
    | .ok l => some (l.addrOf va, pageSize l.sz - va % pageSize l.sz)
    | .error _ => none

/-- The physical ranges of a row of at most 192 bytes. -/
def State.placesOf (s : State) (src : Nat) (va : Int) (n : Nat) : List (Nat × Nat) :=
  if va < 0 then []
  else
    let room := pageSize 0 - va.toNat % pageSize 0
    let one (va n : Nat) : List (Nat × Nat) := ((s.placeOf src va).map fun p => (p.1, n)).toList
    if n ≤ room then one va.toNat n else one va.toNat room ++ one (va.toNat + room) (n - room)

/-- A byte range of memory is still to be moved by one of the streams of a thread (R80). Bytes are compared by where they lie;
an interleaved range is compared in interleaved addresses. -/
def State.memHeld (s : State) (src : Nat) (ss : List Stream) (pa n : Nat) : Bool :=
  let part := s.partOfSrc src
  let as_ := s.addrs part pa n
  let seen (p a : Nat) : Nat := if paKind p = .inter && paKind a = .hbm then s.interOf part a else a
  ss.any fun t => match t.at_ with
    | .spad => false
    | .teth th =>
      let tt := (s.ctx src).teth th
      let base : Int := tt.anchor + t.base.toInt
      as_.any fun a => rowsMeet base t.stride.toInt t.ent.prog t.till t.n (seen tt.pbase a) 1
    | .handle mh => (s.handleRest src t mh).any fun r => (s.placesOf src r.1 r.2).any fun p =>
      as_.any fun a => decide (p.1 ≤ seen p.1 a) && decide (seen p.1 a < p.1 + p.2)

-- Scalar accesses.

/-- An access of the thread to its scratchpad at an address formed without wrap (R77, R234), once no earlier stream has the bytes
still to move. -/
def State.withSpadAt (s : State) (x : Int) (n : Nat) (k : Nat → State → State) : State :=
  if x < 0 then s.fatal .spadRange
  else s.withSpad x.toNat n fun s => if spadHeld s.me.streams x.toNat n then s.stall else k x.toNat s

def execLds (f : LdsF) (s : State) : Out :=
  let n := 2 ^ f.sz.toNat
  .next (s.withSpadAt ((s.scalar f.a).toNat + f.disp.toInt) n fun x s =>
    if s.spadPoisoned s.myCell x n then s.poisoned
    else s.setScalar f.d (extend f.sx n (leVal (s.spadRead s.pathL s.myCell x n))))

def execSts (f : StsF) (s : State) : Out :=
  let n := 2 ^ f.sz.toNat
  .next (s.withSpadAt ((s.scalar f.a).toNat + f.disp.toInt) n fun x s =>
    s.spadWrite s.pathL s.myCell x (leBytes n (s.scalar f.d).toNat))

/-- The offset of R83. -/
def State.offset (s : State) (x : Reg) (sc : BitVec 2) (disp : BitVec 24) : Int :=
  (s.scalar x).toInt * 2 ^ sc.toNat + disp.toInt

/-- LDM (R83): the value is read when the access is performed, and lands later. -/
def execLdm (f : LdmF) (s : State) : Out :=
  let n := 2 ^ f.sz.toNat
  .next (s.tethered f.th (s.offset f.x f.sc f.disp) n false false fun t pa =>
    if s.memHeld s.iss.src s.me.streams pa n then s.stall
    else
      let p := s.readPoisoned t.ord pa n
      let (bs, s) := s.readAt t.ord pa n
      match s.me.bufA.find? fun e => e.id = s.iss.id with
      | none => s
      | some e =>
        (s.countTeth t).modMe fun c => { c with loads := c.loads ++ [{
          ent := e, dest := physReg s.iss.rrb f.d, value := extend f.sx n (leVal bs), poison := p
          due := s.doneBy (classBound t.lc), bound := classBound t.lc }] })

/-- STM (R83, R85): the store, and then, where it publishes, a publishing event once every store has been performed. -/
def execStm (f : StmF) (s : State) : Out :=
  let n := 2 ^ f.sz.toNat
  let pub (s : State) : State := match f.pub with
    | some sc => s.afterPublish sc id
    | none => s
  if s.iss.prog = 1 then .next (pub s)
  else .next (s.tethered f.th (s.offset f.x f.sc f.disp) n true false fun t pa =>
    if s.memHeld s.iss.src s.me.streams pa n || s.ordLater t.ord pa n then s.stall
    else
      let s := (s.countTeth t).writeAt t.ord pa (leBytes n (s.scalar f.d).toNat) ⟨t.exp, classBound t.lc, some f.th⟩
      if f.pub.isSome && !t.ord then pub { s with iss := { s.iss with prog := 1 } } else s)

/-- The pieces of a handle's row: physical address, length and lease, when every page has a usable lease (R297); else the first
virtual address that has none. -/
def State.handlePieces (s : State) (cell : Nat) (write : Bool) (va : Int) (n : Nat) : Except Nat (List (Nat × Nat × Lease)) :=
  let look (a : Nat) : Option Lease := (s.lease cell a).filter fun l => !write || l.w
  let a := va.toNat
  if va < 0 then .error (2 ^ 60)
  else match look a with
    | none => .error a
    | some l =>
      let room := l.va + pageSize l.sz - a
      let p := l.pbase + (a - l.va)
      if n ≤ room then .ok [(p, n, l)]
      else match look (a + room) with
        | none => .error (a + room)
        | some m => .ok [(p, room, l), (m.pbase, n - room, m)]

/-- The bound of the next access of a load stream of a thread to memory (R240); 0 for none. -/
def State.streamBound (s : State) (src : Nat) (t : Stream) : Nat :=
  match t.at_ with
  | .spad => 0
  | .teth th => classBound ((s.ctx src).teth th).lc
  | .handle mh => match s.handleRow src t mh t.ent.prog with
    | none => 0
    | some (va, n) => match s.handlePieces (cellOf src) false va n with
      | .error _ => 0
      | .ok ps => (ps.map fun p => classBound p.2.2.lc).foldl max 0

/-- The tether of an atomic. -/
def amoTeth : Instr → Option (BitVec 4)
  | .amoAdd f | .amoMin f | .amoMax f | .amoMinu f | .amoMaxu f | .amoAnd f | .amoOr f | .amoXor f | .amoSwap f
  | .amoCas f _ => some f.th
  | _ => none

/-- Nothing answers the instruction that waits at a thread's control core: `f` gives the tether of those it may be. -/
def State.coreLate (s : State) (src : Nat) (f : Instr → Option (BitVec 4)) : State :=
  match (s.goOn src).bind fun p => f p.1 with
  | some th =>
    let b := classBound ((s.ctx src).teth th).lc
    if mayFail b && (s.ctx src).lateAt = 0 then s.modCtx src fun c => { c with lateAt := s.keel + 4 * b } else s
  | none => s

def flagwTeth : Instr → Option (BitVec 4)
  | .flagw _ th .. => some th
  | _ => none
def flagsetTeth : Instr → Option (BitVec 4)
  | .flagset th .. => some th
  | _ => none

/-- A host or a link does not answer an access of class 1 or 2 of a thread (R240): a load in flight, an atomic or a row of a load stream,
by the entry's number, or, with number 0, a `FLAGW` that waits. The device completes it with poison once four bounds have passed. -/
def State.lateRead (s : State) (src id : Nat) : State :=
  let c := s.ctx src
  if id = 0 then s.coreLate src flagwTeth
  else
    let late (e : Entry) (b : Nat) : Entry :=
      if e.id = id && mayFail b && e.lateAt = 0 then { e with lateAt := s.keel + 4 * b } else e
    s.modCtx src fun x => { x with
      loads := c.loads.map fun l =>
        if l.ent.id = id && mayFail l.bound && !l.late then { l with late := true, due := l.due + 3 * l.bound } else l
      bufA := match c.bufA with
        | e :: es => (amoTeth e.instr).elim e (fun th => late e (classBound (c.teth th).lc)) :: es
        | [] => []
      streams := c.streams.map fun t => if t.q.store then t else { t with ent := late t.ent (s.streamBound src t) } }

/-- The access that nothing answered is completed with poison, its time having come (R240). -/
def State.lateLands (s : State) (src id : Nat) : State :=
  let c := s.ctx src
  let due (k : Nat) : Bool := decide (k ≠ 0) && decide (k ≤ s.keel)
  if id = 0 then
    match (if due c.lateAt then s.goOn src else none) with
    | some (.flagw .., t) => t.poisoned.finishC .nop c.pc
    | _ => s
  else match (c.bufA.head?.filter fun e => e.id = id && due e.lateAt).orElse
      fun _ => (c.streams.find? fun t => t.ent.id = id && due t.ent.lateAt).map (·.ent) with
    | some e => (s.beginU src .a e).poisoned
    | none => s

/-- MEMORY_LOAD_LANDS (R83, R240): `arg.a` is the thread, `arg.b` the entry's number; with `arg.flg` nothing answers the access. -/
def execMemoryLoadLands (s : State) : Out :=
  let src := s.arg.a
  if s.arg.flg then .next (s.lateRead src s.arg.b)
  else match (s.ctx src).loads.find? fun l => l.ent.id = s.arg.b with
    | none => .next (s.lateLands src s.arg.b)
    | some l =>
      if l.late && s.keel < l.due then .next s
      else
        let s := s.modCtx src fun c => { c with loads := c.loads.filter fun x => x.ent.id ≠ l.ent.id }
        if l.poison || l.late then .next ((s.beginU src .a l.ent).poisoned)
        else .next (s.modCtx src fun c => c.setReg l.dest l.value)

/-- Nothing answers a write of class 1 or 2 (R240): a store not performed, by its number, or, with number 0, the flag write of a
`FLAGSET` that waits. -/
def State.lateWrite (s : State) (src seq : Nat) : State :=
  if seq = 0 then s.coreLate src flagsetTeth
  else { s with vers := s.vers.map fun v =>
    if v.src = src && v.seq = seq && !v.done && mayFail v.bound && !v.lost then { v with lost := true, perf := v.perf + 3 * v.bound } else v }

/-- The flag write of a `FLAGSET` that nothing answered is dropped, its time having come, and logged (R240). -/
def State.lateFlag (s : State) (src : Nat) : State :=
  let c := s.ctx src
  match (if c.lateAt ≠ 0 && c.lateAt ≤ s.keel then s.goOn src else none) with
  | some (.flagset _ _ _ sc, t) => (t.afterPublish sc State.logDrop).finishC .nop c.pc
  | _ => s

/-- The device performs a store (R240), or drops one that nothing answered and logs it. -/
def State.storeLands (s : State) (src seq : Nat) : State :=
  let mine (v : Ver) : Bool := v.src = src && v.seq = seq && (!v.done || v.away)
  match s.vers.find? mine with
  | none => s
  | some v =>
    if v.lost && s.keel < v.perf then s
    else
      let s := if v.lost then ({ s with vers := s.vers.filter fun x => !(mine x) } : State).logDrop
        else { s with vers := s.vers.map fun x => if mine x then { x with done := true, away := false } else x }
      s.modCtx src fun c => { c with tried := (if c.busy.isSome then 0 else c.tried.1, c.tried.2) }

/-- MEMORY_STORE_PERFORMED (R240): `arg.a` is the thread, `arg.b` the store's number: it is performed, its lines held writable
(R239); with `arg.flg` nothing answers it. The thread's waiting instruction is tried again. -/
def execMemoryStorePerformed (s : State) : Out :=
  if s.arg.flg then .next (s.lateWrite s.arg.a s.arg.b)
  else if s.arg.b = 0 then .next (s.lateFlag s.arg.a)
  else .next (s.storeLands s.arg.a s.arg.b)

-- Atomics (R86, R87).

/-- The new value of an atomic; none where it writes nothing. -/
abbrev AtomicOp := (w : Nat) → BitVec w → BitVec w → Option (BitVec w)

def opAdd : AtomicOp := fun _ o b => some (o + b)
def opMin : AtomicOp := fun _ o b => some (if o.slt b then o else b)
def opMax : AtomicOp := fun _ o b => some (if o.slt b then b else o)
def opMinu : AtomicOp := fun _ o b => some (if o < b then o else b)
def opMaxu : AtomicOp := fun _ o b => some (if o < b then b else o)
def opAnd : AtomicOp := fun _ o b => some (o &&& b)
def opOr : AtomicOp := fun _ o b => some (o ||| b)
def opXor : AtomicOp := fun _ o b => some (o ^^^ b)
def opSwap : AtomicOp := fun _ _ b => some b
def opCas (c : Word) : AtomicOp := fun w o b => if o = c.setWidth w then some b else none

/-- The new bytes of an atomic of `n` bytes, and the value D receives. -/
def atomicStep (op : AtomicOp) (n old : Nat) (b : Word) : Option (List Byte) × Word :=
  if n = 8 then ((op 64 (w64 old) b).map fun v => leBytes 8 v.toNat, w64 old)
  else ((op 32 (BitVec.ofNat 32 old) (b.setWidth 32)).map fun v => leBytes 4 v.toNat, (BitVec.ofNat 32 old).signExtend 64)

/-- The publishing (PB) and the new phase (SP) around an atomic, its thread's boundary: it waits until both may take effect
(R87, R165, R167). -/
def State.around (s : State) (pb sp : Bool) (sc : Scope) (k : State → State) : State :=
  if pb && !(s.mayPublish sc) then s.waitPublish sc
  else if (pb || sp) && s.keel < s.me.lastB then s.stall
  else
    let s := k (if pb then s.publishNow sc else s)
    if sp then s.refresh else s

/-- The atomic at a checked address (R86, R172, R241). -/
def State.amoAt (s : State) (f : AmoF) (op : AtomicOp) (n : Nat) (t : Tether) (pa : Nat) : State :=
  match paKind pa with
  | .device | .notify =>
    let (w, d) := atomicStep op n (s.devRead pa n) (s.scalar f.b)
    let s := match w with
      | some bs => s.devStore s.iss.src pa n (leVal bs) true
      | none => s
    s.setScalar f.d d
  | .peer =>
    if s.atPoisoned false pa n then s.poisoned
    else
      let (bs, s) := s.readAt true pa n
      s.setScalar f.d (atomicStep op n (leVal bs) (s.scalar f.b)).2
  | _ =>
    let (w, d) := atomicStep op n (leVal (s.bytesAt s.viewerNow false s.myPart pa n)) (s.scalar f.b)
    let st : Stamp := ⟨s.keel, s.iss.src⟩
    let s := { s with atoms := s.atoms ++ [(st, s.addrs s.myPart pa n)] }
    let s := match w with
      | some bs => s.addAt s.iss.src s.myPart s.myCell ⟨s.keel, s.iss.src⟩ f.scope pa bs t.exp s.iss.phase [] (some f.th)
      | none => s
    s.setScalar f.d d

/-- AMO (R86). -/
def amo (op : AtomicOp) (f : AmoF) (s : State) : Out :=
  let n := if f.wide then 8 else 4
  .next (s.tethered f.th (s.scalar f.a).toInt n true false fun t pa =>
    if pa % n ≠ 0 then s.fatal .badTether (f.th.setWidth 32)
    else if s.memHeld s.iss.src s.me.streams pa n || s.atomLater pa n then s.stall
    else if paKind pa ≠ .peer && s.atPoisoned false pa n then s.poisoned
    else s.around f.pb f.sp f.scope fun s => (s.countTeth t).amoAt f op n t pa)

def execAmoAdd (f : AmoF) (s : State) : Out := amo opAdd f s
def execAmoMin (f : AmoF) (s : State) : Out := amo opMin f s
def execAmoMax (f : AmoF) (s : State) : Out := amo opMax f s
def execAmoMinu (f : AmoF) (s : State) : Out := amo opMinu f s
def execAmoMaxu (f : AmoF) (s : State) : Out := amo opMaxu f s
def execAmoAnd (f : AmoF) (s : State) : Out := amo opAnd f s
def execAmoOr (f : AmoF) (s : State) : Out := amo opOr f s
def execAmoXor (f : AmoF) (s : State) : Out := amo opXor f s
def execAmoSwap (f : AmoF) (s : State) : Out := amo opSwap f s
def execAmoCas (f : AmoF) (c : Reg) (s : State) : Out := amo (opCas (s.scalar c)) f s

/-- AMOS (R86): on the scratchpad. PB publishes at cell scope (R87). -/
def amos (op : AtomicOp) (f : AmosF) (s : State) : Out :=
  let n := if f.wide then 8 else 4
  let x := (s.scalar f.a).toNat
  if x % n ≠ 0 then .next (s.fatal .spadRange)
  else .next (s.withSpadAt x n fun x s =>
    if s.spadPoisoned s.myCell x n then s.poisoned
    else s.around f.pb f.sp .cell fun s =>
      let (w, d) := atomicStep op n (leVal (s.spadRead s.pathL s.myCell x n)) (s.scalar f.b)
      let s := match w with
        | some bs => s.spadWrite s.pathL s.myCell x bs
        | none => s
      s.setScalar f.d d)

def execAmosAdd (f : AmosF) (s : State) : Out := amos opAdd f s
def execAmosMin (f : AmosF) (s : State) : Out := amos opMin f s
def execAmosMax (f : AmosF) (s : State) : Out := amos opMax f s
def execAmosMinu (f : AmosF) (s : State) : Out := amos opMinu f s
def execAmosMaxu (f : AmosF) (s : State) : Out := amos opMaxu f s
def execAmosAnd (f : AmosF) (s : State) : Out := amos opAnd f s
def execAmosOr (f : AmosF) (s : State) : Out := amos opOr f s
def execAmosXor (f : AmosF) (s : State) : Out := amos opXor f s
def execAmosSwap (f : AmosF) (s : State) : Out := amos opSwap f s
def execAmosCas (f : AmosF) (c : Reg) (s : State) : Out := amos (opCas (s.scalar c)) f s

-- Queues (R75).

/-- Slots consumed in the nanosecond `keel`. -/
def Queue.freed (q : Queue) (keel : Nat) : Nat := if q.pops.1 = keel + 1 then q.pops.2 else 0
/-- The first `n` slots are consumed. -/
def Queue.drop (q : Queue) (n keel : Nat) : Queue :=
  { q with
    slots := q.slots.drop n, popped := q.popped + min n q.slots.length
    pops := if min n q.slots.length = 0 then q.pops else (keel + 1, q.freed keel + min n q.slots.length) }
/-- The slots that a consumer sees as filled (R24, R136). -/
def Queue.filled (q : Queue) (keel : Nat) : Nat := (q.slots.takeWhile fun x => decide (x.at_ ≤ keel)).length
/-- A slot may be reserved (R25, R75). -/
def Queue.room (q : Queue) (n : Nat) : Bool := q.slots.length + n ≤ q.depth
/-- It is the producer's turn (R25). -/
def Queue.turn (q : Queue) (id : Nat) : Bool := q.prods.head? = some id
def Queue.push (q : Queue) (l : List Slot) : Queue := { q with slots := q.slots ++ l }
/-- The number of a queue in a windsock record (R405). -/
def queueObj (q : QSel) : Nat := 4 * b2n q.store + q.q.toNat

/-- An active stream still pops the store queue (R80). -/
def Ctx.poppers (c : Ctx) (q : QSel) : Bool := q.store && c.streams.any fun t => t.q = q

/-- The value of a count field: bits [n - 1 : 0] of a register, or the immediate. -/
def State.count {n : Nat} (s : State) (bits : Nat) : Count n → Nat
  | .reg r => (s.scalar r).toNat % 2 ^ bits
  | .imm c => c.toNat

/-- QADV (R75): slots are consumed as they fill. -/
def execQadv (q : QSel) (n : Count 8) (s : State) : Out :=
  let left := s.count 16 n - s.iss.prog
  let qu := s.me.queue q
  if left = 0 then .next s
  else if s.me.poppers q then .next s.stall
  else
    let k := min left (qu.filled s.keel)
    let s := s.modMe fun c => c.setQueue q (qu.drop k s.keel)
    if k = left then .next s
    else .next (({ s with iss := { s.iss with prog := s.iss.prog + k } }).waitOn 0 (queueObj q) none)

/-- The slots a producer reserves at once in a queue (R25, R130). -/
def slotsFor : Instr → Nat
  | .vdq f => groupSize f.src f.dst
  | _ => 1

/-- A producer waits for a slot (R75): it is the queue's turn, and the slots it reserves are not there. -/
def Ctx.producerWaits (c : Ctx) (q : QSel) : Bool :=
  let qu := c.queue q
  let waits (l : List Entry) : Bool := l.any fun e => qu.prods.head? = some e.id && !(qu.room (slotsFor e.instr))
  waits (c.streams.map (·.ent)) || waits (c.bufE.take 1) || waits (c.bufT.take 1)

def execQstat (d : Reg) (q : QSel) (s : State) : Out :=
  let qu := s.me.queue q
  let e := (qu.slots.head?.map (·.fin)).getD false
  .next (s.setScalar d (w64 (qu.slots.length % 16 + 16 * b2n e + 32 * b2n (s.me.producerWaits q))))

def execQcfg (a : Reg) (q : QSel) (s : State) : Out :=
  let n := (s.scalar a).toNat % 16
  .next (s.modMe fun c => c.setQueue q { c.queue q with depth := if n = 0 || 8 < n then 8 else n })

/-- QCLR (R75): the filled slots go, and the latches whose value came from one of them (R119). -/
def execQclr (q : QSel) (s : State) : Out :=
  let qu := s.me.queue q
  let gone (l : Option Latch) : Option Latch := l.filter fun x => match x.org with
    | some (i, k) => q.store || i ≠ q.q || k < qu.popped
    | none => true
  if s.me.poppers q then .next s.stall
  else .next (s.modMe fun c => { c.setQueue q (qu.drop qu.slots.length s.keel) with latchA := gone c.latchA, latchB := gone c.latchB })

-- Streams.

/-- A stream issues and becomes active (R80): at most four. -/
def State.startStream (s : State) (base stride : Word) (count : Nat) : State :=
  let c := s.me
  if 4 ≤ c.streams.length + c.endedNow s.keel then s.stall
  else match c.bufA.find? fun e => e.id = s.iss.id with
    | none => s
    | some e => s.modMe fun c => { c with streams := c.streams ++ [⟨{ e with prog := s.iss.prog }, base, stride, count⟩] }

def execLdq (f : StreamF) (s : State) : Out := .next (s.startStream (s.scalar f.a) (s.scalar f.s) (s.count 32 f.n))
def execStq (f : StreamF) (s : State) : Out := .next (s.startStream (s.scalar f.a) (s.scalar f.s) (s.count 32 f.n))
def execLdmq (f : MStreamF) (s : State) : Out := .next (s.startStream (s.scalar f.a) (s.scalar f.s) (s.count 32 f.n))
def execStmq (f : MStreamF) (s : State) : Out := .next (s.startStream (s.scalar f.a) (s.scalar f.s) (s.count 32 f.n))

/-- A handle stream is checked when it issues (R296). -/
def State.handleStream (s : State) (f : HStreamF) (bad : BitVec 2) : State :=
  let h := s.me.mh f.mh
  if !h.isOpen || h.mode = bad then s.fatal .badHandle (f.mh.setWidth 32)
  else s.startStream (s.scalar f.a) 0 (s.count 32 f.n)
def execLdrq (f : HStreamF) (s : State) : Out := .next (s.handleStream f 1)
def execStrq (f : HStreamF) (s : State) : Out := .next (s.handleStream f 0)

/-- The streams of the thread dispatched before one (R80). -/
def Ctx.before (c : Ctx) (t : Stream) : List Stream := c.streams.takeWhile fun x => x.ent.id ≠ t.ent.id

/-- The row of a stream takes two row cycles: 192 bytes of the scratchpad that are not aligned (R80). -/
def Stream.wide (t : Stream) : Bool :=
  t.at_ = .spad && t.n = 192 && ((t.base.toNat : Int) + t.ent.prog * t.stride.toInt) % 64 ≠ 0

/-- The cell's access unit has used its row cycle for the stream (R80). -/
def State.rowUsed (s : State) (t : Stream) : State :=
  s.modCell s.myCell fun c => { c with rowAt := s.keel + 1 + b2n t.wide, rowLast := (s.iss.src, t.ent.id) }

/-- The stream has moved a row: it goes on, or ends. -/
def State.rowMoved (s : State) (t : Stream) (last : Bool) : State :=
  ((s.endUnitWait s.iss.src t.ent.id).rowUsed t).modMe fun c =>
    if last then { c with
      streams := c.streams.filter fun x => x.ent.id ≠ t.ent.id
      ended := if t.q.store then (s.keel + 1, c.endedNow s.keel + 1) else c.ended }.unticket t.ent.id
    else { c with streams := c.streams.map fun x =>
      if x.ent.id = t.ent.id then { x with ent := { x.ent with prog := x.ent.prog + 1 } } else x }

/-- A load stream of the scratchpad that has landed a row and since then waits only for a free slot (R136). -/
def Ctx.refills (c : Ctx) (t : Stream) : Bool :=
  !t.q.store && t.at_ = .spad && decide (0 < t.ent.prog) && (tfind c.qwaits t.ent.id).isSome

/-- The row's queue can take or give a slot (R25, R80): one that the access unit sees as filled (R24), or one that is free; a stream
that has waited for it takes a slot freed in an earlier cycle (R136). -/
def Ctx.rowReady (c : Ctx) (keel : Nat) (t : Stream) : Bool :=
  let q := c.queue t.q
  t.ent.lateAt = 0 &&
  if t.q.store then decide (0 < q.filled keel) && !((c.before t).any fun x => x.q = t.q)
  else q.turn t.ent.id && q.room 1 && (!(c.refills t) || q.room (1 + q.freed keel))

/-- The next row of a load stream lands: `bs` in its slot, END on the last; it can be read from the next cycle (R136). -/
def State.landRow (s : State) (t : Stream) (bs : List Byte) (last : Bool) : State :=
  (s.modMe fun c => c.setQueue t.q ((c.queue t.q).push [{ data := rowOf bs, fin := last, at_ := s.keel + 1 }])).rowMoved t last

/-- The head slot of a store stream's queue is written by `k`, unless it is poisoned or its carried check fails (R153, R333). -/
def State.takeRow (s : State) (t : Stream) (checked : Bool) (k : State → List Byte → State) : State :=
  match (s.me.queue t.q).slots with
  | [] => s
  | sl :: _ =>
    if sl.poison then s.poisoned
    else match (if checked then sl.crc else none) with
      | some (w, n, pc) =>
        if crc32c (slice (rowBytes sl.data) 0 n) = w then k s (slice (rowBytes sl.data) 0 t.n)
        else s.damage .carriedCheck (BitVec.ofNat 32 t.ent.prog) (some pc)
      | none => k s (slice (rowBytes sl.data) 0 t.n)

/-- The slot is popped and its row counted as moved. -/
def State.popRow (s : State) (t : Stream) : State :=
  let q := s.me.queue t.q
  let fin := (q.slots.head?.map (·.fin)).getD false
  (s.modMe fun c => c.setQueue t.q (q.drop 1 s.keel)).rowMoved t (if t.count = 0 then fin else t.ent.prog + 1 = t.count)

/-- A row uses the pages of its pieces (R256) and counts as one access (R297). -/
def State.countLease (s : State) (l : Lease) : State :=
  let s := s.touch s.myCell l.va
  if l.cnt then s.modCell s.myCell fun c => { c with
    leases := modFirst (fun x => x.va = l.va && x.leaf = l.leaf) (fun x => { x with count := min (x.count + 1) 65535 }) c.leases }
  else s

/-- The pages of a row's pieces are used, and its access counted. -/
def State.useRow (s : State) (ps : List (Nat × Nat × Lease)) : State :=
  match ps with
  | [] => s
  | p :: l => l.foldl (fun s q => s.touch s.myCell q.2.2.va) (s.countLease p.2.2)

/-- Read the pieces of a row. -/
def State.readPieces (s : State) : List (Nat × Nat × Lease) → List Byte × State
  | [] => ([], s)
  | (p, n, l) :: ps =>
    let (a, s) := s.readAt l.ord p n
    let (b, s) := s.readPieces ps
    (a ++ b, s)
/-- Write bytes over the pieces of a row. -/
def State.writePieces (s : State) (bs : List Byte) : List (Nat × Nat × Lease) → State
  | [] => s
  | (p, n, l) :: ps => (s.writeAt l.ord p (bs.take n) ⟨l.exp, classBound l.lc, none⟩).writePieces (bs.drop n) ps
/-- A piece in a device page has the wrong size (R241). -/
def badPieces (ps : List (Nat × Nat × Lease)) : Bool :=
  ps.any fun p => (paKind p.1 = .device || paKind p.1 = .notify) && !(devSizeOk p.1 p.2.1)
/-- A byte of the pieces is still to be moved by an earlier stream. -/
def State.piecesHeld (s : State) (ss : List Stream) (ps : List (Nat × Nat × Lease)) : Bool :=
  ps.any fun p => s.memHeld s.iss.src ss p.1 p.2.1
/-- A piece to be stored has to wait for its stamp (R172, R173). -/
def State.piecesLater (s : State) (ps : List (Nat × Nat × Lease)) : Bool := ps.any fun p => s.ordLater p.2.2.ord p.1 p.2.1

/-- The row of a load through a handle (R296): the elements in range, pad elements, zeros. -/
def Obj.rowBytes (o : Obj) (n : Nat) (data : List Byte) : List Byte :=
  let e := o.w / 8
  data ++ (List.replicate (o.cap n - data.length / e) (leBytes e o.pad)).flatten

/-- Row `prog` of a load stream moves, where it can. The instruction of the stream has been begun. The row lands as it is performed, with
the value read (log 60); a bad tether access of a handle's row has INFO 0, for it names no tether (log 61). -/
def State.loadRow (s : State) (t : Stream) : State :=
  let c := s.me
  let last := t.ent.prog + 1 = t.count
  let i : Int := t.ent.prog
  if !(c.rowReady s.keel t) then s
  else if t.count = 0 then s.landRow t [] true
  else match t.at_ with
  | .spad =>
    let x : Int := t.base.toNat + i * t.stride.toInt
    if x < 0 then s.fatal .spadRange
    else s.withSpad x.toNat t.n fun s =>
      if spadHeld (c.before t) x.toNat t.n then s
      else if s.spadPoisoned s.myCell x.toNat t.n then s.poisoned
      else s.landRow t (s.spadRead s.pathL s.myCell x.toNat t.n) last
  | .teth th =>
    s.tethered th (t.base.toInt + i * t.stride.toInt) t.n false true fun tt pa =>
      if s.memHeld s.iss.src (c.before t) pa t.n then s
      else if s.readPoisoned tt.ord pa t.n then s.poisoned
      else
        let (bs, s) := s.readAt tt.ord pa t.n
        (s.countTeth tt).landRow t bs last
  | .handle mh =>
    match s.objOf s.myPart (c.mh mh).obj with
    | none => s
    | some o =>
      if o.hollow then s.landRow t [] true
      else match s.handleRow s.iss.src t mh t.ent.prog with
      | none => s.landRow t (o.rowBytes t.n []) last
      | some (va, n) =>
        match s.handlePieces s.myCell false va n with
        | .error _ => s
        | .ok ps =>
          if badPieces ps then s.fatal .badTether
          else if s.piecesHeld (c.before t) ps then s
          else if ps.any fun p => s.readPoisoned p.2.2.ord p.1 p.2.1 then s.poisoned
          else
            let (bs, s) := s.readPieces ps
            (s.useRow ps).landRow t (o.rowBytes t.n bs) last

/-- Row `prog` of a store stream moves, where it can. A bad tether access of a handle's row has INFO 0 (log 61). -/
def State.storeRow (s : State) (t : Stream) : State :=
  let c := s.me
  let i : Int := t.ent.prog
  if !(c.rowReady s.keel t) then s
  else match t.at_ with
  | .spad =>
    let x : Int := t.base.toNat + i * t.stride.toInt
    if x < 0 then s.fatal .spadRange
    else s.withSpad x.toNat t.n fun s =>
      if spadHeld (c.before t) x.toNat t.n then s
      else s.takeRow t true fun s bs => (s.spadWrite s.pathL s.myCell x.toNat bs).popRow t
  | .teth th =>
    s.tethered th (t.base.toInt + i * t.stride.toInt) t.n true true fun tt pa =>
      if s.memHeld s.iss.src (c.before t) pa t.n || s.ordLater tt.ord pa t.n then s
      else s.takeRow t true fun s bs => ((s.countTeth tt).writeAt tt.ord pa bs ⟨tt.exp, classBound tt.lc, some th⟩).popRow t
  | .handle mh =>
    match s.handleRow s.iss.src t mh t.ent.prog with
    | none => s.popRow t
    | some (va, n) =>
      match s.handlePieces s.myCell true va n with
      | .error _ => s
      | .ok ps =>
        if badPieces ps then s.fatal .badTether
        else if s.piecesHeld (c.before t) ps || s.piecesLater ps then s
        else s.takeRow t false fun s bs =>
          ((s.writePieces (bs.take n) ps).useRow ps).popRow t

/-- The stream an event names, if its thread's units run. -/
def State.eventStream (s : State) : Option Stream :=
  if s.unitRuns s.arg.a then (s.ctx s.arg.a).streams.find? fun t => t.ent.id = s.arg.b else none

/-- The stream whose row an event moves: the cell's access unit has a row cycle free (R80). -/
def State.rowStream (s : State) : Option Stream := if (s.cell (cellOf s.arg.a)).rowAt ≤ s.keel then s.eventStream else none

/-- Row `prog` of a stream must wait for an earlier stream of its thread, for a grant, or for its stamp. -/
def State.rowHeld (s : State) (src : Nat) (t : Stream) : Bool :=
  let s := { s with iss := { src := src } }
  let c := s.me
  let i : Int := t.ent.prog
  match t.at_ with
  | .spad => decide (0 ≤ (t.base.toNat : Int) + i * t.stride.toInt) &&
      spadHeld (c.before t) ((t.base.toNat : Int) + i * t.stride.toInt).toNat t.n
  | .teth th =>
    let a : Int := (c.teth th).anchor + (t.base.toInt + i * t.stride.toInt)
    decide (0 ≤ a) && (s.memHeld src (c.before t) a.toNat t.n || s.ordLater (c.teth th).ord a.toNat t.n)
  | .handle mh => match s.handleRow src t mh t.ent.prog with
    | none => false
    | some (va, n) => match s.handlePieces s.myCell true va n with
      | .error _ => true
      | .ok ps => !(badPieces ps) && (s.piecesHeld (c.before t) ps || s.piecesLater ps)

/-- A stream moves its next row in this nanosecond, if the row cycle is not taken: a store stream's pop (R88), or a row that waited only
for its slot (R136). -/
def State.rowDue (s : State) (src : Nat) (t : Stream) : Bool :=
  (t.q.store || (s.ctx src).refills t) && (s.ctx src).rowReady s.keel t && !(s.rowHeld src t)

/-- After a row, a stream that cannot go on for its queue begins to wait (R27, R405). -/
def State.markRow (s : State) (src id : Nat) : State :=
  match (s.ctx src).streams.find? fun t => t.ent.id = id with
  | none => s
  | some t =>
    if (s.ctx src).rowReady s.keel t || (tfind (s.ctx src).qwaits id).isSome || t.ent.lateAt ≠ 0 then s
    else s.modCtx src fun c => { c with qwaits := tput c.qwaits id { since := s.keel, kind := 0, obj := queueObj t.q } }

/-- LOAD_STREAM_ROW (R79, R81, R296): `arg.a` is the thread, `arg.b` the stream's number. -/
def execLoadStreamRow (s : State) : Out :=
  match s.rowStream with
  | none => .next s
  | some t =>
    if t.q.store then .next s else .next (((s.beginU s.arg.a .a t.ent).loadRow t).markRow s.arg.a t.ent.id)

/-- STORE_STREAM_ROW (R79, R81, R296). -/
def execStoreStreamRow (s : State) : Out :=
  match s.rowStream with
  | none => .next s
  | some t =>
    if t.q.store then .next (((s.beginU s.arg.a .a t.ent).storeRow t).markRow s.arg.a t.ent.id) else .next s

/-- STREAM_ROW_GRANT (R297): the walkers answer for the first page of the next row that has no usable lease. -/
def execStreamRowGrant (s : State) : Out :=
  match s.eventStream with
  | none => .next s
  | some t =>
    let s := s.beginU s.arg.a .a t.ent
    match t.at_ with
    | .handle mh =>
      match s.handleRow s.iss.src t mh t.ent.prog with
      | none => .next s
      | some (va, n) =>
        match s.handlePieces s.myCell t.q.store va n with
        | .ok _ => .next s
        | .error a =>
          let bad : State := s.fatal .badHandle (mh.setWidth 32)
          if s.skew then .next (s.trap .skew)
          else match s.walk s.myPart a with
          | .error _ => .next bad
          | .ok lf =>
            let can := lf.w && !lf.wb && s.writeLeaseAllowed lf
            if t.q.store && !lf.w then .next bad
            else if t.q.store && !can then .next s
            else .next (s.fillLease s.iss.src s.myCell (s.grantOf lf a can))
    | _ => .next s

end Sys2Proof.Machine
end

