-- ==== Sys2Proof/Machine/Sync.lean ====
section
/-! DEFINITION. Phases, fences, flags, teams and barriers (10 R163 to R183, 13 R246, R247), with the publish buffer and the
horizon limit (R174). -/

namespace Sys2Proof.Machine

/-- The thread's control core goes on with its boundary (R167), or waits until it may take effect (R168). -/
def State.bound (s : State) (sc : Scope) : State := if s.mayBound sc then s.boundary sc else s.waitPublish sc

/-- A wait of the control core ends with a boundary: its SETTER and OUTCOME are kept until the boundary takes effect. -/
def State.waitEnds (s : State) (kind obj setter outcome : Nat) (sc : Scope) : State :=
  (s.modMe fun c => { c with
    wait := some { ((c.wait.getD { since := s.keel, kind := kind, obj := obj }).begun s.keel) with ended := some (setter, outcome) } }).bound sc

/-- Only the boundary of the wait is still to come. -/
def Ctx.waitOver (c : Ctx) (kind : Nat) : Bool := c.wait.any fun w => w.kind = kind && w.ended.isSome

/-- The deadline of a wait: as kept from its first attempt, else `d`. -/
def Ctx.deadline (c : Ctx) (kind : Nat) (d : Option Nat) : Option Nat :=
  match c.wait with
  | some w => if w.kind = kind then w.deadline else d
  | none => d

/-- The deadline is reached. -/
def overdue (keel : Nat) (d : Option Nat) : Bool := d.any fun t => t ≤ keel

/-- `Keel() + Zext(Sreg(r))`, none for field 0. -/
def State.deadlineOf (s : State) (r : Reg) : Option Nat := if r = 0 then none else some (s.keel + (s.scalar r).toNat)

/-- The operations of a partition on its directory and teams happen in the order of their stamps (R182, R284): one whose stamp
precedes another already made waits, as `wait` says, for the next nanosecond. A thread makes at most one in a nanosecond. -/
def State.orderedOr (s : State) (wait k : State → State) : State :=
  let st : Stamp := ⟨s.keel, s.iss.src⟩
  if st.lt (s.part s.myPart).ops then wait s else k (s.modPart s.myPart fun p => { p with ops := st })
def State.ordered (s : State) (k : State → State) : State := s.orderedOr State.stall k

/-- The stamp of an operation of another agent on a partition's directory, after every operation already made (R284). -/
def State.opAt (s : State) (part src : Nat) (k : Stamp → State → State) : State :=
  let now : Stamp := ⟨s.keel, src⟩
  let last := (s.part part).ops
  let st : Stamp := if now.lt last then ⟨last.keel + 1, src⟩ else now
  k st (s.modPart part fun p => { p with ops := st })

/-- Every access-unit instruction of the thread has performed its scratchpad accesses: a read on path L by the control core
follows them (R233). -/
def State.afterAccess (s : State) (k : State → State) : State :=
  if s.me.bufA.isEmpty && s.me.streams.isEmpty then k s else s.stall

-- PHASE (R177).

def execPhase (sc : Scope) (s : State) : Out := .next (s.bound sc)

-- Teams (R164, R182, R183).

def State.teamOf (s : State) (part id : Nat) : Option Team := s.teams.find? fun t => t.part = part && t.id = id
def State.modTeam (s : State) (part id : Nat) (f : Team → Team) : State :=
  { s with teams := modFirst (fun t => t.part = part && t.id = id) f s.teams }

/-- The lowest index from 0 that no member holds. -/
def freeIndex (ms : List (Nat × Nat)) : Nat → Nat → Nat
  | 0, i => i
  | fuel + 1, i => if ms.any fun m => m.1 = i then freeIndex ms fuel (i + 1) else i

/-- Add a thread to a team, which is created where it has no members. -/
def State.joinTeam (s : State) (src part id : Nat) : Nat × State :=
  let s := (s.modCtx src fun c => { c with team := some id })
  match s.teamOf part id with
  | some t =>
    let i := freeIndex t.members (t.members.length + 1) 0
    (i, s.modTeam part id fun t => { t with members := t.members ++ [(i, src)] })
  | none => (0, { s with teams := s.teams ++ [{ part := part, id := id, members := [(0, src)] }] })

def execJoin (d a : Reg) (s : State) : Out :=
  -- the ready pool's ids (R220)
  if 0x8000 ≤ (s.scalar a).toNat % 65536 then .next (s.fatal .illegal)
  else match s.me.team with
  | some _ => .next (s.setScalar d allOnes)
  | none => .next (s.ordered fun s =>
      let (i, s) := s.joinTeam s.iss.src s.myPart ((s.scalar a).toNat % 65536)
      s.setScalar d (w64 i))

/-- A thread that has not arrived drops out of the open episode (R178). -/
def Episode.drop (e : Episode) (src : Nat) : Episode :=
  if e.arrived.contains src then e else { e with waiting := e.waiting.filter (· ≠ src) }
/-- A participant whose context has ended takes no part any more (R179). -/
def Episode.gone (e : Episode) (src : Nat) : Episode :=
  { waiting := e.waiting.filter (· ≠ src), arrived := e.arrived.filter (· ≠ src) }

/-- Remove a thread from its team; the team is dissolved when it is empty (R164). `f` is what its open episode becomes. -/
def State.leaveTeam (s : State) (src : Nat) (f : Episode → Episode) : State :=
  match (s.ctx src).team with
  | none => s
  | some id =>
    let part := s.partOfSrc src
    let s := s.modCtx src fun c => { c with team := none }
    let s := s.modTeam part id fun t => { t with
      members := t.members.filter (fun m => m.2 ≠ src), ep := (t.ep.map f).filter fun e => !e.waiting.isEmpty }
    { s with teams := s.teams.filter fun t => !(t.part = part && t.id = id && t.members.isEmpty) }

def execLeave (a : Reg) (s : State) : Out :=
  .next (s.ordered fun s =>
    if s.me.team = some ((s.scalar a).toNat % 65536) then s.leaveTeam s.iss.src (fun e => e.drop s.iss.src) else s)

/-- TEAMQ (R183). -/
def execTeamq (d a : Reg) (sel : BitVec 4) (s : State) : Out :=
  let t := s.teamOf s.myPart ((s.scalar a).toNat % 65536)
  let v : Word := match sel.toNat with
    | 0 => w64 (t.elim 0 (·.members.length))
    | 1 => (t.bind fun t => (t.members.find? fun m => m.2 = s.iss.src).map fun m => w64 m.1).getD allOnes
    | 2 => w64 (t.elim 0 (·.done))
    | 3 => w64 ((t.bind (·.ep)).elim 0 (·.arrived.length))
    | _ => s.me.team.elim allOnes w64
  .next (s.ordered fun s => s.setScalar d v)

-- PHASEB (R178, R179).

/-- The thread arrives at the open episode, opening one where none is open. -/
def State.arrive (s : State) (id : Nat) : State :=
  let src := s.iss.src
  (s.modTeam s.myPart id fun t => { t with ep := match t.ep with
    | some e => some { e with arrived := e.arrived ++ [src] }
    | none => some ⟨t.members.map (·.2), [src]⟩ }).modMe fun c => { c with arrived := 1 }

/-- PHASEB (R178, R179). A thread that joined during an open episode waits for its release before it publishes and arrives (log 54). -/
def execPhaseb (sc : Scope) (s : State) : Out :=
  let c := s.me
  match c.arrived with
  | 2 => .next (s.modMe fun c => { c with arrived := 0 })
  | 1 => .next (s.waitOn 2 (c.team.getD 0) none)
  | _ =>
    match c.team with
    | none => .next (s.bound sc)
    | some id =>
      let ep := (s.teamOf s.myPart id).bind (·.ep)
      if ep.any fun e => !(e.waiting.contains s.iss.src) then .next s.stall
      else .next (s.ordered fun s => s.afterPublish sc fun s => (s.arrive id).waitOn 2 id none)

/-- The participants that remain have all arrived, none is frozen, and the last arrived in an earlier nanosecond (R179): an arrival
sets the wait's start. -/
def State.episodeReady (s : State) (t : Team) : Bool :=
  match t.ep with
  | none => false
  | some e => !e.arrived.isEmpty &&
      (e.waiting.all fun m => e.arrived.contains m && (s.ctx m).status ≠ .frozen && (s.ctx m).status ≠ .attached) &&
      (e.arrived.all fun m => (s.ctx m).arrived = 1 && (s.ctx m).lastB ≤ s.keel &&
        (((s.ctx m).wait.orElse fun _ => (s.ctx m).parked.bind (·.wait)).all fun w => decide (w.since < s.keel)))

/-- A participant is released: it refreshes, and its wait was ended by the last to arrive. -/
def Ctx.released (c : Ctx) (keel src setter : Nat) : Ctx :=
  { c with
    arrived := 2, hzn := ⟨keel, src⟩, phase := c.phase + 1, lastB := keel + 1
    wait := c.wait.map fun w => if w.kind = 2 then { w with ended := some (setter, 0) } else w }

/-- BARRIER_RELEASE (R179): `arg.a` is the partition, `arg.b` the team. -/
def execBarrierRelease (s : State) : Out :=
  match s.teamOf s.arg.a s.arg.b with
  | none => .next s
  | some t =>
    if !(s.episodeReady t) then .next s
    else
      let ms := (t.ep.elim [] (·.arrived))
      let last := (ms.getLast?).getD 0xFFF
      let s := ms.foldl (fun s m => s.modCtx m fun c => c.released s.keel m last) s
      .next (s.modTeam t.part t.id fun t => { t with ep := none, done := (t.done + 1) % 2 ^ 64 })

-- FENCEX (R247).

/-- The device's writes of a class that a thread caused are published no later than now (R243). -/
def Ver.byNow (v : Ver) (keel src cls : Nat) : Ver :=
  if v.by_ = some (src, cls) then { v with pubs := v.pubs.map fun p => (p.1, { p.2 with keel := min p.2.keel keel }) } else v
def State.settle (s : State) (src cls : Nat) : State := { s with vers := s.vers.map fun v => v.byNow s.keel src cls }

/-- Every access-unit instruction of the thread has performed its accesses. -/
def State.accessDone (s : State) : Bool :=
  let c := s.me
  c.bufA.isEmpty && c.streams.isEmpty && s.vers.all fun v => v.src ≠ s.iss.src || v.dead || v.done

/-- The writes of the FROM classes that a fence of thread `src` orders (R247): its own of classes L and K, every one of the
others. -/
def fenced (src : Nat) (frm : BitVec 6) (w : LateW) : Bool := frm.getLsbD w.cls && (decide (2 ≤ w.cls) || w.src = src)

def execFencex (frm dst : BitVec 6) (s : State) : Out :=
  if frm.getLsbD 0 && !s.accessDone then .next s.stall
  else if frm.getLsbD 1 && !s.me.bufT.isEmpty then .next s.stall
  else
    let s := s.orderLate s.myCell (fenced s.iss.src frm) dst []
    let s := if frm.getLsbD 2 then s.settle s.iss.src 2 else s
    .next (if frm.getLsbD 3 then s.settle s.iss.src 3 else s)

-- FLAGSET and FLAGW (R180, R181).

/-- An earlier XLAT instruction that names the tether is still to complete (R259). -/
def Ctx.xlatPending (c : Ctx) (th : BitVec 4) : Bool :=
  c.bufA.any fun e => match e.instr with
    | .teth t _ _ => t = th | .trenew t => t = th | .trel t => t = th | .tstat _ t => t = th
    | _ => false

/-- A control-core instruction through a tether: held for earlier XLAT instructions that name it. -/
def State.withTeth (s : State) (th : BitVec 4) (k : State → State) : State := if s.me.xlatPending th then s.hold else k s

/-- A flag write of the thread (R172). -/
def State.flagWrite (s : State) (th : BitVec 4) (t : Tether) (pa : Nat) (sc : Scope) (v : Word) : State :=
  match paKind pa with
  | .device | .notify => s.devStore s.iss.src pa 8 v.toNat false
  | .peer => s.peerStore pa
  | _ => s.addAt s.iss.src s.myPart s.myCell ⟨s.keel + 1, s.iss.src⟩ sc pa (leBytes 8 v.toNat) t.exp s.iss.phase [] (some th)

def execFlagset (th : BitVec 4) (a b : Reg) (sc : Scope) (s : State) : Out :=
  .next (s.withTeth th fun s => s.afterPublish sc fun s =>
    s.tethered th (s.scalar a).toInt 8 true false fun t pa =>
      if pa % 8 ≠ 0 then s.fatal .badTether (th.setWidth 32)
      else (s.countTeth t).flagWrite th t pa sc (s.scalar b))

def FlagCond.holds (c : FlagCond) (v b : Word) : Bool :=
  match c with
  | .eq => v = b
  | .geu => b ≤ v
  | .ne => v ≠ b

/-- The writes to the word that a `FLAGW` of the thread may read, by number. -/
def State.flagSeen (s : State) (pa : Nat) : List Nat :=
  let as_ := s.addrs s.myPart pa 8
  (s.vers.filter fun v => (v.rankAt s.viewerNow true).isSome && v.cells.any fun c => as_.contains c.1).map (·.seq)

/-- The word lies in a page whose changes are no writes of memory. -/
def flagPolls (pa : Nat) : Bool := paKind pa = .device || paKind pa = .notify || paKind pa = .peer

/-- One read of the word of a `FLAGW` (R172), and the source of the write that gave it. -/
def State.flagRead (s : State) (pa : Nat) : Word × Nat × State :=
  match paKind pa with
  | .device | .notify => (w64 (s.devRead pa 8), 0xFFF, s)
  | .peer => (w64 (leVal (peerBytes s.choices pa 8)), 0xFFF, { s with choices := s.choices + 1 })
  | _ =>
    (w64 (leVal (s.bytesAt s.viewerNow true s.myPart pa 8)),
      ((s.stampAt s.viewerNow true (s.canon s.myPart pa)).map (·.src)).getD 0xFFF, s)

/-- A read of FLAGW that ends the wait, or goes on with it (R181). A wait reads again at the next write to the word, one that it could not
read before, and each read counts as an access (R274). -/
def State.flagTry (s : State) (d : Reg) (t : Tether) (pa : Nat) (b : Word) (dl : Option Nat) (sc : Scope) (cond : FlagCond) :
    State :=
  let obj := bitsOf pa 3 32
  let seen := s.flagSeen pa
  match s.me.wait.bind fun w => if !(flagPolls pa) && seen.all w.mark.contains then w.last else none with
  | some v => if overdue s.keel dl then (s.setScalar d v).waitEnds 1 obj 0xFFF 1 sc else s.stall
  | none =>
    if s.atPoisoned true pa 8 then s.poisoned
    else
      let (v, setter, s) := s.flagRead pa
      let s := if flagPolls pa && (s.me.wait.bind (·.last)) = some v then s else s.countTeth t
      if FlagCond.holds cond v b then (s.setScalar d v).waitEnds 1 obj setter 0 sc
      else if overdue s.keel dl then (s.setScalar d v).waitEnds 1 obj 0xFFF 1 sc
      else
        let s := s.waitOn 1 obj dl
        s.modMe fun c => { c with wait := c.wait.map fun w => { w with last := some v, mark := seen } }

/-- FLAGW (R181): one attempt. -/
def State.flagw (s : State) (d : Reg) (th : BitVec 4) (a b c : Reg) (sc : Scope) (cond : FlagCond) : State :=
  let t := s.me.teth th
  if s.me.waitOver 1 then s.bound sc
  else match s.me.wait.bind (·.last) with
    | some v =>
      if t.stat = .ok && t.exp ≤ s.keel then (s.setScalar d v).waitEnds 1 0 0xFFF 2 sc
      else s.tethered th (s.scalar a).toInt 8 false false fun t pa =>
        s.flagTry d t pa (s.scalar b) (s.me.deadline 1 (s.deadlineOf c)) sc cond
    | none => s.withTeth th fun s => s.tethered th (s.scalar a).toInt 8 false false fun t pa =>
        if pa % 8 ≠ 0 then s.fatal .badTether (th.setWidth 32)
        else s.flagTry d t pa (s.scalar b) (s.me.deadline 1 (s.deadlineOf c)) sc cond

def execFlagw (d : Reg) (th : BitVec 4) (a b c : Reg) (sc : Scope) (cond : FlagCond) (s : State) : Out :=
  .next (s.flagw d th a b c sc cond)

-- Events.

/-- The instruction that waits at a thread's control core is tried again; it has had its issue slot (R13, R14): `f` says which
instructions, and their attempt. -/
def State.retry (s : State) (src : Nat) (f : Instr → Option (State → State)) : State :=
  if !(s.runnable src) || (s.ctx src).lateAt ≠ 0 then s
  else match s.goOn src with
    | some (i, t) =>
      match f i with
      | some k => (k t).finishC i (s.ctx src).pc
      | none => s
    | none => s

/-- FLAGW_WAKE (R181): `arg.a` is the thread. -/
def execFlagwWake (s : State) : Out :=
  .next (s.retry s.arg.a fun i => match i with
    | .flagw d th a b c sc cond => some fun t => t.flagw d th a b c sc cond
    | _ => none)

/-- The publishing entry at the head of a thread's access buffer tries again. -/
def State.retryStore (s : State) (src : Nat) : State :=
  match (s.ctx src).bufA with
  | e :: _ =>
    match e.instr with
    | .stm f =>
      if e.prog = 1 && s.unitRuns src then
        match f.pub with
        | some sc => ((s.beginU src .a e).afterPublish sc id).finishU .a
        | none => s
      else s
    | _ => s
  | [] => s

/-- PUBLISH_TAKES_EFFECT (R168): `arg.a` is the thread, whose publishing event waits. -/
def execPublishTakesEffect (s : State) : Out :=
  let src := s.arg.a
  if (s.ctx src).bufA.any fun e => publishes e.instr then .next (s.retryStore src)
  else .next (s.retry src fun i => match i with
    | .phase sc => some fun t => t.bound sc
    | _ => none)

/-- PUBLISH_ENTRY_MERGE (R174): the entry numbered `arg.a` merges once it may; it leaves the buffer, and what every reader finds
in it goes into memory. -/
def execPublishEntryMerge (s : State) : Out :=
  match s.vers.find? fun v => v.seq = s.arg.a with
  | some v =>
    if s.settles v then .next (s.settleVer v)
    else if s.merges v then
      .next { s with vers := s.vers.map fun w => if w.seq = v.seq then { w with merged := true } else w }
    else .next s
  | none => .next s

/-- The horizon is older than 2^20 ns. -/
def Ctx.old (c : Ctx) (keel : Nat) : Bool := decide (c.hzn.keel + Config.horizonLimit < keel)
def Ctx.age (c : Ctx) (keel src : Nat) : Ctx :=
  if c.old keel then { c with hzn := ⟨keel, src⟩, phase := c.phase + 1, lastB := keel + 1, aged := true } else c

/-- HORIZON_AGING (R174): `arg.a` is the thread, running, stopped or saved. -/
def execHorizonAging (s : State) : Out :=
  let src := s.arg.a
  let s := if (s.ctx src).status = .free then s else s.modCtx src fun c => c.age s.keel src
  .next { s with slots := s.slots.map fun k => { k with
    members := k.members.map fun m => if m.1 = src then (m.1, m.2.age s.keel src) else m } }

end Sys2Proof.Machine
end

