-- ==== Sys2Proof/Machine/Moor.lean ====
section
/-! DEFINITION. The Mooring Directory (16 R281 to R295): names, objects, handles, bind lists, open counts and reclamation. -/

namespace Sys2Proof.Machine

-- The directory.

def State.modDir (s : State) (part : Nat) (f : Dir → Dir) : State := s.modPart part fun p => { p with dir := f p.dir }
/-- The object a name is bound to; 0 for none. -/
def Dir.bound (d : Dir) (name : Nat) : Nat := tget 0 d.names name
def Dir.isBound (d : Dir) (obj : Nat) : Bool := d.names.any fun n => n.2 = obj
def Dir.modObj (d : Dir) (obj : Nat) (f : Obj → Obj) : Dir := { d with objs := d.objs.map fun o => if o.1 = obj then (o.1, f o.2) else o }

/-- Reclaim an object bound to no name and held by none (R295): a RECLAIMED record follows. -/
def State.reclaim (s : State) (part obj : Nat) (st : Stamp) : State :=
  let d := (s.part part).dir
  match tfind d.objs obj with
  | none => s
  | some o =>
    if o.opens ≠ 0 || d.isBound obj then s
    else
      let s := s.modDir part fun d => { d with objs := tdel d.objs obj }
      s.postRecord part st (leBytes 8 st.keel ++ leBytes 7 o.base ++ leBytes 1 3 ++ leBytes 6 obj ++ leBytes 2 0 ++
        leBytes 4 o.vers.toNat ++ leBytes 1 (fieldAt o.layout 2 1 % 4) ++ leBytes 1 0 ++ leBytes 2 st.src)

/-- An object gains a holder. -/
def State.holdObj (s : State) (part obj : Nat) : State := s.modDir part fun d => d.modObj obj fun o => { o with opens := o.opens + 1 }
/-- An object loses a holder at a stamp, which may reclaim it. -/
def State.dropObj (s : State) (part obj : Nat) (st : Stamp) : State :=
  (s.modDir part fun d => d.modObj obj fun o => { o with opens := o.opens - 1 }).reclaim part obj st

-- MOPEN and MCLOSE (R287, R289).

def HMode.code : HMode → BitVec 2
  | .r => 0 | .w => 1 | .rw => 2

/-- Open a handle on an object. -/
def State.openHandle (s : State) (mh : BitVec 4) (obj : Nat) (m : HMode) : State :=
  let v := ((s.objOf s.myPart obj).map (·.vers)).getD 0
  (s.holdObj s.myPart obj).modMe fun c =>
    c.setMh mh { isOpen := true, obj := obj, lrec := (Config.recordIndex obj).toNat, vers := v, mode := m.code
                 stamp := ⟨s.keel, s.iss.src⟩ }

def execMopen (mh : BitVec 4) (c a : Reg) (mode : HMode) (s : State) : Out :=
  .next (s.ordered fun s =>
    let o := (s.part s.myPart).dir.bound (s.scalar a).toNat
    if (s.me.mh mh).isOpen then s.setScalar c 2
    else if o = 0 then s.setScalar c 1
    else (s.openHandle mh o mode).setScalar c 0)

/-- MOPENW (R288): one attempt. -/
def State.mopenw (s : State) (mh : BitVec 4) (c a b : Reg) (mode : HMode) : State :=
  let name := (s.scalar a).toNat
  let dl := s.me.deadline 5 (s.deadlineOf b)
  if s.me.waitOver 5 then s.bound .part
  else if (s.me.mh mh).isOpen then s.setScalar c 2
  else s.orderedOr (fun s => s.waitOn 5 (name % 2 ^ 32) dl) fun s =>
    let d := (s.part s.myPart).dir
    let o := d.bound name
    if o ≠ 0 then
      let setter := ((tfind d.changed name).map (·.src)).getD 0xFFF
      ((s.openHandle mh o mode).setScalar c 0).waitEnds 5 (name % 2 ^ 32) setter 0 .part
    else if overdue s.keel dl then (s.setScalar c 3).waitEnds 5 (name % 2 ^ 32) 0xFFF 1 .part
    else s.waitOn 5 (name % 2 ^ 32) dl

def execMopenw (mh : BitVec 4) (c a b : Reg) (mode : HMode) (s : State) : Out := .next (s.mopenw mh c a b mode)

/-- MOPENW_WAKE (R288): `arg.a` is the thread. -/
def execMopenwWake (s : State) : Out :=
  .next (s.retry s.arg.a fun i => match i with
    | .mopenw mh c a b mode => some fun t => t.mopenw mh c a b mode
    | _ => none)

/-- Close a handle of a context at a stamp. -/
def State.closeHandle (s : State) (src : Nat) (mh : BitVec 4) (st : Stamp) : State :=
  let h := (s.ctx src).mh mh
  if h.isOpen then
    (s.modCtx src fun c => c.setMh mh { h with isOpen := false }).dropObj (s.partOfSrc src) h.obj st
  else s

/-- A stream of the thread through the handle is active, or dispatched (log 24). -/
def Ctx.handleBusy (c : Ctx) (mh : BitVec 4) : Bool :=
  (c.bufA ++ c.streams.map (·.ent)).any fun e => (streamOf e.instr).map (·.1) = some (.handle mh)

def execMclose (mh : BitVec 4) (s : State) : Out :=
  if s.me.handleBusy mh then .next s.stall
  else .next (s.ordered fun s => s.closeHandle s.iss.src mh ⟨s.keel, s.iss.src⟩)

-- MBIND and MUNBIND (R290 to R292).

/-- An entry of a bind list (R290): `bad` says that a must-be-0 field, the name or the OP is wrong. -/
structure BindE where
  name : Nat
  expect : Nat
  any : Bool
  op : Nat
  vers : Nat
  obj : Nat
  base : Nat
  lrec : Nat
  bad : Bool
deriving DecidableEq, Repr

def bindEntry (b : List Byte) : BindE :=
  let ex := fieldAt b 8 8
  let op := fieldAt b 16 1
  { name := fieldAt b 0 8, expect := ex % 2 ^ 48, any := ex / 2 ^ 63 = 1, op := op, vers := fieldAt b 20 4
    obj := fieldAt b 24 8 % 2 ^ 48, base := fieldAt b 32 8 % 2 ^ 56, lrec := fieldAt b 40 8
    bad := fieldAt b 0 8 = 0 || bitsOf ex 48 15 ≠ 0 || 2 < op || fieldAt b 17 3 ≠ 0 || fieldAt b 56 8 ≠ 0 ||
      (op ≠ 0 && (fieldAt b 20 4 ≠ 0 || fieldAt b 32 8 ≠ 0 || fieldAt b 40 8 ≠ 0)) }

/-- A layout record keeps R282. -/
def layoutOk (r : List Byte) (base : Nat) : Bool :=
  let n := fieldAt r 0 1
  let f := fieldAt r 1 1
  let e := fmtBits f / 8
  1 ≤ n && n ≤ 4 && f ≤ 15 && fieldAt r 2 1 < 4 && fieldAt r 3 1 = 0 && fieldAt r 24 8 = 0 &&
    base % e = 0 && fieldAt r 40 8 % e = 0 && fieldAt r 48 8 % e = 0 && fieldAt r 56 8 % e = 0

/-- A range of memory as an engine of the partition reads it by virtual address; `none` waits, `error` cannot be read. -/
def State.engineRead (s : State) (src part va n : Nat) : Option (Except Unit (List Byte)) :=
  match s.engineWalk part va false, s.engineWalk part (va + n - 1) false with
  | none, _ => none
  | _, none => none
  | some (.ok _), some (.ok _) =>
    let as_ := (List.range n).map fun i => match s.walk part (va + i) with
      | .ok l => s.canon part (l.addrOf (va + i))
      | .error _ => 0
    let vw := s.engineView src part
    if as_.any fun a => s.psnOf (s.loadVer vw a) a then some (.error ()) else some (.ok (as_.map (s.loadByte vw)))
  | _, _ => some (.error ())

/-- The layout records of the NEW entries: none where one must wait for the walkers. -/
def State.layouts (s : State) (part : Nat) : List BindE → Option (List (List Byte))
  | [] => some []
  | e :: es =>
    match s.layouts part es with
    | none => none
    | some rs =>
      if e.op ≠ 0 || e.bad || e.lrec % 64 ≠ 0 || 2 ^ 56 ≤ e.lrec then some ([] :: rs)
      else match s.engineRead 2056 part e.lrec 64 with
        | none => none
        | some (.ok r) => some (r :: rs)
        | some (.error _) => some ([] :: rs)

/-- The checks of R291 on entry `i` of a list, against the bindings before the change: a code of R286, 0 where it passes. `names`
and `objs` count those that would exist after the entries before it. -/
def Dir.check (d : Dir) (before : List BindE) (e : BindE) (rec : List Byte) (names objs : Nat) : Nat :=
  let cur := d.bound e.name
  if e.bad || (e.op = 2 && cur = 0) then 5
  else if before.any fun x => x.name = e.name then 8
  else if e.op = 0 && (rec = [] || !(layoutOk rec e.base)) then 10
  else if e.op = 1 && (tfind d.objs e.obj).isNone then 6
  else if !e.any && e.expect ≠ cur then 4
  else if Config.dirLimit < names || Config.dirLimit < objs then 7
  else 0

/-- The first failing entry: its code and index. -/
def Dir.checks (d : Dir) (before : List BindE) (names objs : Nat) : List (BindE × List Byte) → Option (Nat × Nat)
  | [] => none
  | (e, r) :: es =>
    let n := if e.op = 2 then names - 1 else if d.bound e.name = 0 then names + 1 else names
    let o := if e.op = 0 then objs + 1 else objs
    let c := d.check before e r n o
    if c = 0 then d.checks (before ++ [e]) n o es else some (c, before.length)

/-- Apply an entry: the directory, and the object now bound (0 for UNBIND). -/
def Dir.apply (d : Dir) (e : BindE) (rec : List Byte) (st : Stamp) : Dir × Nat :=
  let obj := match e.op with | 0 => d.next | 1 => e.obj | _ => 0
  let d := if e.op = 0 then
      { d with objs := tput d.objs d.next { base := e.base, vers := BitVec.ofNat 32 e.vers, layout := rec }, next := d.next + 1 }
    else d
  ({ d with
     names := if obj = 0 then tdel d.names e.name else tput d.names e.name obj
     changed := tput d.changed e.name st }, obj)

/-- Apply a list at one stamp, and say for each entry the object now bound and the one bound before. -/
def Dir.applyAll (d : Dir) (st : Stamp) : List (BindE × List Byte) → Dir × List (Nat × Nat)
  | [] => (d, [])
  | (e, r) :: es =>
    let prev := d.bound e.name
    let (d, obj) := d.apply e r st
    let (d, out) := d.applyAll st es
    (d, (obj, prev) :: out)

/-- Change bindings at the thread's stamp (R291): a code of R286 with the index of the failing entry, and the entries' OBJ and
PREV. `none` waits for the walkers. -/
def State.bindList (s : State) (es : List BindE) : Option (Nat × Nat × List (Nat × Nat) × State) :=
  let part := s.myPart
  let d := (s.part part).dir
  let st : Stamp := ⟨s.keel, s.iss.src⟩
  match s.layouts part es with
  | none => none
  | some rs =>
    match d.checks [] d.names.length d.objs.length (es.zip rs) with
    | some (c, i) => some (c, i, [], s)
    | none =>
      let (d', out) := d.applyAll st (es.zip rs)
      let s := s.modDir part fun _ => d'
      -- every object now bound to no name with open count 0
      some (0, 0, out, out.foldl (fun s o => if o.2 = 0 then s else s.reclaim part o.2 st) s)

/-- Write OBJ and PREV into the entries of a bind list. -/
def State.bindOut (s : State) (a : Nat) : List (Nat × Nat) → State
  | [] => s
  | (obj, prev) :: t =>
    ((s.spadWrite s.pathL s.myCell (a + 24) (leBytes 8 obj)).spadWrite s.pathL s.myCell (a + 48) (leBytes 8 prev)).bindOut
      (a + 64) t

def execMbind (d a b : Reg) (s : State) : Out :=
  let n := (s.scalar b).toNat
  let x := (s.scalar a).toNat
  if n < 1 || 8 < n then .next (s.setScalar d 9)
  else if x % 8 ≠ 0 || !(spadOk x (64 * n)) then .next (s.fatal .spadRange)
  else .next (s.afterAccess fun s => s.withSpad x (64 * n) fun s =>
    if !(s.mayPublish .part) then s.waitPublish .part
    else if s.spadPoisoned s.myCell x (64 * n) then s.poisoned
    else s.ordered fun s =>
      let s := s.publish s.iss.src .part
      let es := (List.range n).map fun i => bindEntry (s.spadRead s.pathL s.myCell (x + 64 * i) 64)
      match s.bindList es with
      | none => s.stall
      | some (c, i, out, s) => (s.bindOut x out).setScalar d (w64 (c + 256 * i)))

def execMunbind (d a b : Reg) (s : State) : Out :=
  let v := (s.scalar b).toNat
  let name := (s.scalar a).toNat
  let e : BindE := { name := name, expect := v % 2 ^ 48, any := v / 2 ^ 63 = 1, op := 2, vers := 0, obj := 0, base := 0, lrec := 0
                     bad := name = 0 }
  if !(s.mayPublish .part) then .next (s.waitPublish .part)
  else .next (s.ordered fun s =>
    match (s.publish s.iss.src .part).bindList [e] with
    | none => s.stall
    | some (c, _, _, s) => s.setScalar d (w64 c))

/-- MQRY (R293). -/
def execMqry (d a : Reg) (sel : BitVec 4) (s : State) : Out :=
  .next (s.ordered fun s =>
    let dir := (s.part s.myPart).dir
    let name := (s.scalar a).toNat
    let o := dir.bound name
    let h := s.me.mh ((s.scalar a).setWidth 4)
    let obj := tfind dir.objs o
    let v : Word := match sel.toNat with
      | 0 => w64 o
      | 1 => w64 (obj.elim 0 (·.vers.toNat))
      | 2 => w64 (obj.elim 0 (·.opens))
      | 3 => w64 (((tfind dir.changed name).map (·.keel)).getD 0)
      | 4 => w64 dir.names.length
      | 8 => if h.isOpen then w64 h.obj else allOnes
      | 9 => if h.isOpen then h.vers.setWidth 64 else allOnes
      | 10 => w64 (h.mode.toNat + 4 * b2n h.isOpen)
      | _ => if h.isOpen then w64 ((tfind dir.objs h.obj).elim 0 (·.opens)) else allOnes
    s.setScalar d v)

end Sys2Proof.Machine
end

