-- ==== Sys2Proof/Machine/Engine.lean ====
section
/-! DEFINITION. What the copy and relay engines and the pool share (18 R311, 13 R243, R244): bytes behind virtual addresses as
an engine reaches them, one page piece at a time. -/

namespace Sys2Proof.Machine

/-- The value of a signed 32-bit field. -/
def signed32 (v : Nat) : Int := (BitVec.ofNat 32 v).toInt
def signed16 (v : Nat) : Int := (BitVec.ofNat 16 v).toInt

/-- A range of bytes cut at 64 KiB boundaries. -/
def vaPieces : Nat → Nat → Nat → List (Nat × Nat)
  | 0, _, _ => []
  | fuel + 1, va, n =>
    if n = 0 then [] else
      let k := min n (65536 - va % 65536)
      (va, k) :: vaPieces fuel (va + k) (n - k)

-- Leases that an engine holds (R311).

/-- The lease gives a byte of an endpoint now. -/
def Held.serves (h : Held) (ep va : Nat) (write : Bool) (keel : Nat) : Bool :=
  h.ep = ep && h.va ≤ va && va < h.va + pageSize h.sz && keel < h.exp && (h.w || !write)

/-- The lease a walker grants an engine now; none where it waits or fails. -/
def State.heldGrant (s : State) (part ep va : Nat) (write : Bool) : Option Held :=
  match s.engineWalk part va write, s.walk part va with
  | some (.ok _), .ok l => some ⟨ep, pageBase l va, l.sz, l.pa, write, s.keel + l.lease - 64, l.lease⟩
  | _, _ => none

/-- Take a lease for a byte of an endpoint of an agent that holds none, at most two for the endpoint; renew one of which less than
half remains, where the leaf still grants it (R262, R311). -/
def State.holdByte (s : State) (key part ep va : Nat) (write : Bool) : State :=
  let hs := tget [] s.held key
  let others := hs.filter fun h => h.ep ≠ ep
  let mine := hs.filter fun h => h.ep = ep
  match mine.find? (·.serves ep va write s.keel), s.heldGrant part ep va write with
  | some h, some g =>
    if 2 * (h.exp - s.keel) < h.len && g.va = h.va && g.sz = h.sz && g.pbase = h.pbase then
      { s with held := tput s.held key (others ++ (mine.filter (· ≠ h)) ++ [g]) }
    else s
  | none, some g =>
    let live := mine.filter fun h => decide (s.keel < h.exp) && h.va ≠ g.va
    { s with held := tput s.held key (others ++ live.drop (live.length - 1) ++ [g]) }
  | _, none => s

/-- Take the leases of a range. -/
def State.holdRange (s : State) (key part ep : Nat) (va : Int) (n : Nat) (write : Bool) : State :=
  if va < 0 || s.skew then s
  else (vaPieces (n / 65536 + 2) va.toNat n).foldl (fun s p => s.holdByte key part ep p.1 write) s

/-- The leases of an endpoint. -/
def State.heldBy (s : State) (key ep : Nat) : List Held := (tget [] s.held key).filter fun h => h.ep = ep
/-- An agent gives up its leases. -/
def State.unhold (s : State) (key : Nat) : State := { s with held := tdel s.held key }

/-- An engine's translation of one byte under the leases it holds, else by a walk (R311). -/
def State.reach (s : State) (hs : List Held) (part va : Nat) (write : Bool) : Option (Except Why Nat) :=
  if s.skew then none
  else match hs.find? fun h => h.serves h.ep va write s.keel with
    | some h => some (.ok (h.pbase + (va - h.va)))
    | none => s.engineWalk part va write

/-- The pieces as physical addresses and lengths; `none` waits, an error is a failure code of R309. -/
def State.walkPieces (s : State) (hs : List Held) (part : Nat) (write : Bool) :
    List (Nat × Nat) → Option (Except Nat (List (Nat × Nat)))
  | [] => some (.ok [])
  | (va, n) :: ps =>
    match s.reach hs part va write with
    | none => none
    | some (.error w) => some (.error w.copyCode)
    | some (.ok pa) =>
      match s.walkPieces hs part write ps with
      | some (.ok l) => some (.ok ((pa, n) :: l))
      | r => r

/-- A range of virtual memory as an engine of a partition reaches it (R311). -/
def State.pieces (s : State) (hs : List Held) (part : Nat) (va : Int) (n : Nat) (write : Bool) :
    Option (Except Nat (List (Nat × Nat))) :=
  if va < 0 then some (.error 3) else s.walkPieces hs part write (vaPieces (n / 65536 + 2) va.toNat n)

/-- Read one piece: the failure codes POISON for poisoned data or a peer out of reach, BADLEAF for a device page accessed in
another size than R241 allows. Pages for which R230 names no engine are served (log 26). -/
def State.engineGet1 (s : State) (vw : Viewer) (part pa n : Nat) : Except Nat (List Byte) :=
  match paKind pa with
  | .device | .notify => if devSizeOk pa n then .ok (leBytes n (s.devRead pa n)) else .error 7
  | .peer => if (s.port (peerPort pa)).up then .ok (peerBytes s.choices pa n) else .error 10
  | _ => if s.loadPoisoned vw part pa n then .error 10 else .ok (s.loadBytes vw part pa n)
def State.engineGet (s : State) (vw : Viewer) (part : Nat) : List (Nat × Nat) → Except Nat (List Byte)
  | [] => .ok []
  | (pa, n) :: ps =>
    match s.engineGet1 vw part pa n, s.engineGet vw part ps with
    | .ok a, .ok b => .ok (a ++ b)
    | .error e, _ => .error e
    | _, .error e => .error e

/-- Write one piece as a class X, R or H write of a source; a device register takes it at once, a peer ignores it. Pages for which R230
names no engine are served (log 26). -/
def State.enginePut1 (s : State) (src part : Nat) (sc : Scope) (by_ : Option (Nat × Nat)) (work : Option Nat) (pa : Nat)
    (bs : List Byte) : State :=
  match paKind pa with
  | .device | .notify => s.devStore src pa bs.length (leVal bs) false
  | .peer => s
  | _ => s.devWrite src part sc pa bs by_ work
def State.enginePut (s : State) (src part : Nat) (sc : Scope) (by_ : Option (Nat × Nat)) (work : Option Nat) (bs : List Byte) :
    List (Nat × Nat) → State
  | [] => s
  | (pa, n) :: ps => (s.enginePut1 src part sc by_ work pa (bs.take n)).enginePut src part sc by_ work (bs.drop n) ps

/-- A piece has a size its device page does not allow. -/
def piecesBad (ps : List (Nat × Nat)) : Bool :=
  ps.any fun p => (paKind p.1 = .device || paKind p.1 = .notify) && !(devSizeOk p.1 p.2)

/-- An engine's read of virtual bytes under leases it holds: waits, fails with a code, or gives them. -/
def State.bytesUnder (s : State) (hs : List Held) (vw : Viewer) (part : Nat) (va : Int) (n : Nat) :
    Option (Except Nat (List Byte)) :=
  match s.pieces hs part va n false with
  | none => none
  | some (.error e) => some (.error e)
  | some (.ok ps) => some (s.engineGet vw part ps)

/-- An engine's read of virtual bytes by a walk of its own. -/
def State.engineBytes (s : State) (vw : Viewer) (part : Nat) (va : Int) (n : Nat) : Option (Except Nat (List Byte)) :=
  s.bytesUnder [] vw part va n

/-- An engine's write of virtual bytes under leases it holds. -/
def State.engineStore (s : State) (hs : List Held) (src part : Nat) (sc : Scope) (by_ : Option (Nat × Nat))
    (work : Option Nat) (va : Int) (bs : List Byte) : Option (Except Nat State) :=
  match s.pieces hs part va bs.length true with
  | none => none
  | some (.error e) => some (.error e)
  | some (.ok ps) => if piecesBad ps then some (.error 7) else some (.ok (s.enginePut src part sc by_ work bs ps))

/-- A completion flag (R172, R180, R222, R307): an 8-byte flag write at partition scope, at a stamp. -/
def State.engineFlag (s : State) (part va v : Nat) (st : Stamp) : Option (Except Nat State) :=
  match s.engineWalk part va true with
  | none => none
  | some (.error w) => some (.error w.copyCode)
  | some (.ok pa) =>
    match paKind pa with
    | .device | .notify => some (.ok (s.devStore st.src pa 8 v false))
    | .peer => some (.ok s)
    | _ => some (.ok (s.addAt st.src part 0 st .part pa (leBytes 8 v) 0 0))

/-- Publish a source's class writes no later than now (R243, R224). -/
def State.settleSrc (s : State) (src : Nat) : State :=
  { s with vers := s.vers.map fun v =>
      if v.src = src then { v with pubs := v.pubs.map fun p => (p.1, { p.2 with keel := min p.2.keel s.keel }) } else v }

/-- The partition whose assist has begun its copy: it is the transfer in progress on channel 3 of cell 0 (R278, R299). -/
def State.assistCopies (s : State) : Option Nat :=
  (s.parts.find? fun p => p.2.assist.any fun a => a.stage = 3 && a.copied ≠ 0).map (·.1)

/-- Publish the engine writes that a node made no later than now (R224). -/
def State.settleNode (s : State) (nid : Nat) : State :=
  { s with vers := s.vers.map fun v =>
      if v.work = some nid then { v with pubs := v.pubs.map fun p => (p.1, { p.2 with keel := min p.2.keel s.keel }) } else v }

-- Thread bookkeeping of transfers (R227, R310).

/-- A copy of a thread is complete: it is waited for no longer. -/
def Ctx.copyOver (c : Ctx) (ch id : Nat) : Ctx := { c with copies := c.copies.filter fun x => !(x.1 = ch && x.2.1 = id) }
def Node.copyOver (n : Node) (ch id : Nat) : Node :=
  { n with owed := n.owed.map fun o => (o.1, o.2.1.filter (fun x => !(x.1 = ch && x.2 = id)), o.2.2) }
def State.mapNodes (s : State) (f : Node → Node) : State :=
  { s with launches := s.launches.map fun l => { l with nodes := l.nodes.map f } }

/-- Apply to a thread's context wherever it stands: live, or in a save slot. -/
def State.modThread (s : State) (src : Nat) (f : Ctx → Ctx) : State :=
  let saved := s.slots.any fun k => !k.restoring && k.members.any fun m => m.1 = src
  if saved && (s.ctx src).status = .free then
    { s with slots := s.slots.map fun k => { k with members := k.members.map fun m => if m.1 = src then (m.1, f m.2) else m } }
  else s.modCtx src f

/-- A failed transfer is delivered to the thread at the instruction being executed (R310). -/
def State.deliverOr (s : State) (p : Nat × Nat × Nat × Nat → Bool) (k : State → State) : State :=
  match s.me.deliver.find? p with
  | none => k s
  | some e =>
    let s := s.endWaitDone.modMe fun c => { c with deliver := c.deliver.filter fun x => x ≠ e }
    if e.2.2.1 = 9 then s.damage .carriedCheck (BitVec.ofNat 32 e.2.2.2) else s.poisoned

end Sys2Proof.Machine
end

