-- ==== Sys2Proof/Machine/Assist.lean ====
section
/-! DEFINITION. The migration assist (14 R271, R277, R278): one page of a partition moves from the host to HBM, step by step. -/

namespace Sys2Proof.Machine

/-- The source of the assist's copy: channel 3 of cell 0 (R299). -/
def assistChan : Nat := 1027

def State.setAssist (s : State) (part : Nat) (a : Option Assist) : State := s.modPart part fun p => { p with assist := a }

/-- A record of the assist about its page (R276). -/
def State.assistNote (s : State) (part : Nat) (a : Assist) (kind : Nat) : State :=
  let l : Leaf := ⟨a.leaf, s.pte a.leaf⟩
  s.postRecord part ⟨s.keel, 2082⟩
    (noteBytes s.keel a.va kind a.leaf (l.f 80 16 + 65536 * l.gen.toNat + 2 ^ 32 * (l.sz.toNat + 4 * l.lc.toNat)) 2082)

/-- Abandon (R271): the page goes back to the free-page ring. Nothing is cleared that the assist did not set. -/
def State.assistAbandon (s : State) (part : Nat) (a : Assist) : State :=
  ((s.setAssist part none).modPart part fun p => { p with fpridx := p.fpridx - 1 }).assistNote part a 2

/-- The assist changes its leaf through its instance of the port (R268, R278): `none` waits for room for a change record
or for its turn in this nanosecond. The leaf that no longer has the expected GEN makes it abandon. -/
def State.assistChange (s : State) (part : Nat) (a : Assist) (new : Nat) (k : State → State) : Option State :=
  let n := 2082
  let s := s.modLport n fun l => { l with
    leaf := a.leaf, expGen := a.gen, newLo := w64 (new % 2 ^ 64), newHi := w64 (new / 2 ^ 64)
    job := ⟨a.leaf, a.gen, w64 (new % 2 ^ 64), w64 (new / 2 ^ 64), false⟩ }
  if s.leafPassed n then none
  else if (s.pte a.leaf).extractLsb' 64 16 ≠ a.gen then
    some ((s.modLport n fun l => { l with lstat := 3 }).assistAbandon part a)
  else if Config.changeRecords ≤ (s.changes.filter fun c => c.part = part).length then none
  else some (k (s.commitLeaf n))

/-- The assist may move bytes: its channel runs no transfer and no other assist's copy, and no skew fault holds it (R272, R308). -/
def State.assistMayCopy (s : State) (part : Nat) : Bool :=
  !s.skew && (s.chan 3).cur.isNone && (s.assistCopies.all fun p => p = part)

/-- Bytes the assist moves in one step. -/
def assistChunk : Nat := 4096

/-- The next step of the assist of a partition; `none` waits. -/
def State.assistStep (s : State) (part : Nat) (a : Assist) : Option State :=
  let p := s.part part
  let e := (s.pte a.leaf).toNat
  let lf : Leaf := ⟨a.leaf, s.pte a.leaf⟩
  match a.stage with
  | 0 =>
    if p.fplen = 0 || p.fpridx = p.fpwidx then some (s.setAssist part none)
    else match s.engineBytes (s.engineView 2082 part) part (p.fpbase + 8 * (p.fpridx % p.fplen) : Nat) 8 with
      | none => none
      | some (.error _) => some (s.setAssist part none)
      | some (.ok b) =>
        some ((s.modPart part fun p => { p with fpridx := p.fpridx + 1 }).setAssist part
          (some { a with stage := 1, newPa := bitsOf (leVal b) 16 36 * 65536 }))
  | 1 => s.assistChange part a (setBits e 6 1 1) fun s =>
      s.setAssist part (some { a with own := !lf.wb, stage := 2, gen := if lf.wb then a.gen else a.gen + 1, after := s.keel + lf.lease })
  | 2 => if s.keel ≤ a.after then none else some (s.setAssist part (some { a with stage := 3 }))
  | 3 =>
    if !(s.assistMayCopy part) then none
    else if 65536 ≤ a.copied then some ((s.settleSrc assistChan).setAssist part (some { a with stage := 4 }))
    else
      match s.engineGet1 (s.engineView assistChan part) part (lf.pa + a.copied) assistChunk with
      | .error _ => some (s.setAssist part (some { a with stage := 5 }))
      | .ok bs =>
        some ((s.devWrite assistChan part .part (a.newPa + a.copied) bs none).setAssist part
          (some { a with copied := a.copied + assistChunk }))
  | 4 =>
    let new := setBits (setBits (setBits e 16 36 (a.newPa / 65536)) 8 2 0) 6 1 0
    s.assistChange part a new fun s => (s.setAssist part none).assistNote part a 1
  -- the page cannot be read: the write block the assist set is cleared, and it abandons
  | _ => if a.own then s.assistChange part a (setBits e 6 1 0) fun s => s.assistAbandon part a else some (s.assistAbandon part a)

/-- MIGRATION_ASSIST (R278): `arg.a` is the partition. Where its assist is idle, `arg.b`, `arg.c` and `arg.w` are the leaf, its page
and its GEN at a crossing; else the assist goes on. -/
def execMigrationAssist (s : State) : Out :=
  let part := s.arg.a
  match (s.part part).assist with
  | some a => .next (if s.arg.b = 0 || s.arg.b = a.leaf then (s.assistStep part a).getD s else s)
  | none =>
    if s.arg.b = 0 then .next s
    else .next (s.setAssist part (some { stage := 0, leaf := s.arg.b, va := s.arg.c, newPa := 0, gen := s.arg.w.setWidth 16, after := 0 }))

end Sys2Proof.Machine
end

