-- ==== Sys2Proof/Machine/Copy.lean ====
section
/-! DEFINITION. The copy engines (18 R299 to R318): packets, promises, the steps of a transfer, completion, and the `COPY`
instructions. Channel c of cell n has the key 4n + c and the source number 1024 + 4n + c. -/

namespace Sys2Proof.Machine

def chanSrc (ch : Nat) : Nat := 1024 + ch
def State.chanPart (s : State) (ch : Nat) : Nat := s.partOfCell (ch / 4)

/-- The channel reads now and sees its own earlier writes (R244, R308). -/
def State.chanView (s : State) (ch : Nat) : Viewer := ⟨chanSrc ch, some (s.chanPart ch), none, ⟨s.keel + 1, 0⟩, some 1, none⟩

/-- The transfer has completed. -/
def Chan.isDone (c : Chan) (id : Nat) : Bool := id < c.done || c.early.contains id

-- Packets (R302 to R305).

def Xfer.f (x : Xfer) (a n : Nat) : Nat := fieldAt x.pkt a n
def Xfer.kind (x : Xfer) : Nat := x.f 0 1
def Xfer.flg (x : Xfer) (i : Nat) : Bool := bitsOf (x.f 1 1) i 1 = 1
def Xfer.len0 (x : Xfer) : Nat := x.f 4 4
def Xfer.n1 (x : Xfer) : Nat := x.f 8 2
def Xfer.n2 (x : Xfer) : Nat := x.f 10 2
def Xfer.hb (x : Xfer) : Nat := x.f 10 1
def Xfer.ha (x : Xfer) : Nat := x.f 11 1
def Xfer.vlo (x : Xfer) : Int := signed16 (x.f 12 2)
def Xfer.vhi (x : Xfer) : Int := signed16 (x.f 14 2)
def Xfer.src (x : Xfer) : Nat := x.f 16 8
def Xfer.dst (x : Xfer) : Nat := x.f 24 8
def Xfer.sstr1 (x : Xfer) : Int := signed32 (x.f 32 4)
def Xfer.dstr1 (x : Xfer) : Int := signed32 (x.f 36 4)
def Xfer.sstr2 (x : Xfer) : Int := signed32 (x.f 40 4)
def Xfer.dstr2 (x : Xfer) : Int := signed32 (x.f 44 4)
def Xfer.pad (x : Xfer) : Byte := BitVec.ofNat 8 (x.f 40 1)
def Xfer.flagVa (x : Xfer) : Nat := x.f 48 8
def Xfer.flagV (x : Xfer) : Nat := x.f 56 4

/-- Space of a descriptor: 0 virtual, 1 scratchpad, 2 bank, 3 object (R303). -/
def epSpace (d : Nat) : Nat := bitsOf d 62 2
def epOk (d : Nat) : Bool :=
  match epSpace d with
  | 0 => bitsOf d 56 6 = 0
  | 1 => bitsOf d 26 36 = 0
  | 2 => bitsOf d 21 1 = 0 && bitsOf d 26 36 = 0
  | _ => bitsOf d 48 14 = 0
/-- The byte address a descriptor gives in its space. -/
def epBase (d : Nat) : Int :=
  match epSpace d with
  | 0 => bitsOf d 0 56
  | 1 => bitsOf d 0 24
  | 2 => bitsOf d 0 21
  | _ => 0
/-- The cell a scratchpad or bank descriptor names for an engine's column. -/
def epCell (ch d : Nat) : Nat := bitsOf d 24 2 * 64 + columnOf (ch / 4)

/-- Rows a transfer writes (R304), without the check block. -/
def Xfer.rows (x : Xfer) : Nat :=
  match x.kind with
  | 0 => 1
  | 1 => x.n1
  | 2 => x.n1 * x.n2
  | 3 => if x.n1 = 0 then 1 else x.n1
  | 4 => x.hb + x.n1 + x.ha
  | _ => x.n1
/-- Rows and the check block of FLG[2] (R310). -/
def Xfer.steps (x : Xfer) : Nat := x.rows + b2n (x.flg 2)
/-- A transfer that writes no byte (R305). -/
def Xfer.zero (x : Xfer) : Bool := x.len0 = 0 || x.rows = 0
/-- Destination bytes, pad rows included (R306). -/
def Xfer.bytes (x : Xfer) : Nat := x.rows * x.len0 + 512 * b2n (x.flg 2)

/-- The source offset of row `i`; none for a pad row, a pattern or an object's row. -/
def Xfer.srcOff (x : Xfer) (i : Nat) : Option Int :=
  match x.kind with
  | 0 => some 0
  | 1 => some (i * x.sstr1)
  | 2 => some ((i / x.n1 : Nat) * x.sstr2 + (i % x.n1 : Nat) * x.sstr1)
  | 4 =>
    let r : Int := (i : Int) - x.hb
    if decide (x.vlo ≤ r) && decide (r < x.vhi) then some (r * x.sstr1) else none
  | _ => none
/-- The destination offset of row `i`, or of the check block. -/
def Xfer.dstOff (x : Xfer) (i : Nat) : Int :=
  match x.kind with
  | 0 => 0
  | 2 => (i / x.n1 : Nat) * x.dstr2 + (i % x.n1 : Nat) * x.dstr1
  | _ => i * x.dstr1

/-- The packet breaks R302, R303 or R305 in its fields. -/
def Xfer.bad (ch : Nat) (x : Xfer) : Bool :=
  let k := x.kind
  5 < k || 8 ≤ x.f 1 1 || x.f 2 2 ≠ 0 || (k = 0 && x.n1 ≠ 0) || (k ≠ 2 && k ≠ 4 && x.n2 ≠ 0) || (k ≠ 4 && x.f 12 4 ≠ 0) ||
  (k ≠ 2 && (if k = 4 then x.f 41 3 else x.f 40 4) ≠ 0) || (k ≠ 2 && x.f 44 4 ≠ 0) || x.flagVa % 8 ≠ 0 ||
  (k ≠ 3 && (!(epOk x.src) || (decide (k = 5) != decide (epSpace x.src = 3)))) ||
  !(epOk x.dst) || epSpace x.dst = 3 ||
  2 ^ 32 < x.len0 * (if k = 0 || x.n1 = 0 && k = 3 then 1 else x.n1) * (if k = 2 then x.n2 else 1) ||
  (x.flg 2 && !(k = 1 && epSpace x.src = 1)) || (x.flg 1 != x.follow) ||
  (x.follow && !((epSpace x.dst = 1 || epSpace x.dst = 2) && bitsOf x.dst 24 2 = ch / 4 / 64))

/-- The rows that reach an endpoint's lowest and highest bytes. -/
def Xfer.corners (x : Xfer) : List Nat :=
  match x.kind with
  | 2 => [0, x.n1 - 1, x.n1 * (x.n2 - 1), x.rows - 1]
  | 4 =>
    let lo := min (x.rows : Int) (max 0 (x.vlo + x.hb))
    let hi := min (x.rows : Int) (x.vhi + x.hb) - 1
    if lo ≤ hi then [0, lo.toNat, hi.toNat, x.rows - 1] else [0, x.rows - 1]
  | _ => [0, x.rows - 1]

/-- The lowest and one past the highest byte of some ranges; none where there are none. -/
def span : List (Int × Nat) → Option (Int × Int)
  | [] => none
  | (a, n) :: l =>
    match span l with
    | none => some (a, a + n)
    | some (lo, hi) => some (min a lo, max (a + n) hi)
def Xfer.srcSpan (x : Xfer) : Option (Int × Int) :=
  span ((x.corners.filterMap x.srcOff).map fun o => (epBase x.src + o, x.len0))
def Xfer.dstSpan (x : Xfer) : Option (Int × Int) :=
  span ((x.corners.map fun i => (epBase x.dst + x.dstOff i, x.len0)) ++
    (if x.flg 2 then [(epBase x.dst + x.dstOff x.rows, 512)] else []))

/-- The page limit of R305 on a virtual endpoint: a failure code, 0 where it holds. -/
def State.spanCode (s : State) (part d : Nat) (r : Option (Int × Int)) : Nat :=
  match r with
  | none => 0
  | some (lo, hi) =>
    if epSpace d ≠ 0 then 0
    else if lo < 0 then 3
    else match s.walk part lo.toNat with
      | .error w => w.copyCode
      | .ok l => if (hi.toNat - 1) / pageSize l.sz - lo.toNat / pageSize l.sz + 1 ≤ 2 then 0 else 1

-- Promises (R306).

/-- What a virtual address is: HBM, host memory, or neither. -/
def State.vaKind (s : State) (part : Nat) (va : Int) : PaKind :=
  if va < 0 then .nothing
  else match s.walk part va.toNat with
    | .ok l => if paKind l.pa = .inter then .hbm else paKind l.pa
    | .error _ => .nothing

/-- The kinds of memory of a transfer's endpoints; a scratchpad or bank is `none`. -/
def State.endKinds (s : State) (part : Nat) (x : Xfer) : List (Option PaKind) :=
  let kind (d : Nat) : Option PaKind := match epSpace d with
    | 0 => some (s.vaKind part (epBase d))
    | 3 => some (((s.objOf part (bitsOf d 0 48)).map fun o => s.vaKind part o.base).getD .nothing)
    | _ => none
  (if x.kind = 3 then [] else [kind x.src]) ++ [kind x.dst]

/-- P(w) (R306) for a transfer whose packet the engine knows from Keel `k`. -/
def State.promise (s : State) (ch k : Nat) (x : Xfer) : Nat :=
  let c := s.chan ch
  let ks := s.endKinds (s.chanPart ch) x
  let host := ks.contains (some .host)
  let o := 132 + (if ks.contains (some .hbm) then 268 else 0) + (if host then 2868 else 0)
  let r := if host then 8 else if ks.contains none then 32 else 64
  if x.zero then k
  else max k (if x.id = 0 then 0 else tget 0 c.proms (x.id - 1)) + o + (x.bytes + r - 1) / r

def Chan.promised (c : Chan) (id p : Nat) : Chan := { c with proms := tput c.proms id p, prom := p }

-- Completion (R307, R309, R310).

/-- CDONE passes a completed id and those complete above it. -/
def Chan.passed : Nat → Chan → Chan
  | 0, c => c
  | fuel + 1, c =>
    if c.early.contains c.done then
      Chan.passed fuel { c with done := c.done + 1, early := c.early.filter (· ≠ c.done) }
    else c
def Chan.complete (c : Chan) (id : Nat) : Chan :=
  let c := { c with early := c.early ++ [id], subs := c.subs.filter fun b => b.id ≠ id }
  c.passed c.early.length

/-- Record a failure (R309). -/
def Chan.failed (c : Chan) (id code : Nat) : Chan :=
  if code = 0 || c.failV then c else { c with failV := true, failId := id, failCode := code }

/-- The latest publish stamp of an agent's writes, now at the earliest (R307). -/
def State.lastPub (s : State) (src : Nat) : Nat :=
  (s.vers.filter fun v => v.src = src).foldl (fun m v => v.pubs.foldl (fun m p => max m p.2.keel) m) s.keel

/-- What the end of transfer `x` brings to others, in the name of `by_`: the object of a GATHER is let go, and what waits for the
transfer goes on. -/
def State.xferEnds (s : State) (by_ ch : Nat) (x : Xfer) (code : Nat) : State :=
  let s := match x.obj with
    | some o => s.opAt (s.chanPart ch) by_ fun st s => s.dropObj (s.chanPart ch) o st
    | none => s
  let s := s.mapNodes fun n => n.copyOver ch x.id
  let s := match x.by_ with
    | some t =>
      s.modThread t fun c =>
        if c.copies.any fun y => y.1 = ch && y.2.1 = x.id then
          let c := c.copyOver ch x.id
          if code = 9 || code = 10 then { c with deliver := c.deliver ++ [(ch, x.id, code, x.row)] } else c
        else c
    | none => s
  match x.node with
  | none => s
  | some n => if code = 0 then s.post .nodeCompletion { a := n } else s.failNode n

/-- A transfer of a channel completes with a failure code: CDONE passes it, and a follow-on learns of the failure. -/
def Chan.over (c : Chan) (x : Xfer) (code : Nat) : Chan :=
  let c := (c.complete x.id).failed x.id code
  if x.follow && code ≠ 0 then { c with fails := c.fails ++ [(x.id, code)] } else c

/-- Transfer `x` completes with a failure code: its flag is written where it did not fail, CDONE passes it, the failure is
recorded, delivered and given to its node. `none`: the flag write waits. -/
def State.completeXfer (s : State) (ch : Nat) (x : Xfer) : Option State :=
  let src := chanSrc ch
  let part := s.chanPart ch
  let r : Option (Nat × State) :=
    if x.code = 0 && x.flg 0 then
      match s.engineFlag part x.flagVa x.flagV ⟨s.lastPub src + 1, src⟩ with
      | none => none
      | some (.error e) => some (e, s)
      | some (.ok t) => some (0, t)
    else some (x.code, s)
  r.map fun (code, s) => ((s.modChan ch fun c => c.over x code).unhold src).xferEnds src ch x code

-- Submitting (R301, R315).

/-- Claim the next id of a channel and put a packet in its slot; the id, the promise and the state, a failure code of the slot's
translation, or `none` while the walkers refuse. -/
def State.submit (s : State) (ch : Nat) (pkt : List Byte) (src : Nat) (by_ node : Option Nat) (follow : Bool) :
    Option (Except Nat (Nat × Nat × State)) :=
  let c := s.chan ch
  let part := s.chanPart ch
  let w := c.widx
  match s.engineWalk part (c.base + 64 * (w % c.len)) true with
  | none => none
  | some (.error e) => some (.error e.copyCode)
  | some (.ok pa) =>
    let pkt := setFlg (slice pkt 0 60 ++ leBytes 4 w)
    let work := node.orElse fun _ => by_.bind fun t => (s.ctx t).node
    let x : Xfer := { id := w, pkt := pkt, by_ := by_, node := node, work := work, follow := follow }
    let p := s.promise ch s.keel x
    let s := s.addAt src part 0 ⟨s.keel, src⟩ .part pa pkt 0 0
    let s := s.modChan ch fun c => ({ c with
      widx := w + 1, look := true, subs := c.subs ++ [⟨w, by_, node, work, follow⟩] } : Chan).promised w p
    -- a zero-size transfer completes at its claim
    if x.zero && !(x.bad ch) then some (.ok (w, p, (s.completeXfer ch x).getD s)) else some (.ok (w, p, s))
where
  setFlg (b : List Byte) : List Byte :=
    if follow then (b.take 1) ++ ((b.drop 1).head?.getD 0 ||| 2) :: b.drop 2 else b

-- The engine's steps.

/-- The next id the engine takes. -/
def Chan.next (c : Chan) : Nat → Nat → Nat
  | 0, w => w
  | fuel + 1, w => if c.isDone w then c.next fuel (w + 1) else w

/-- The thread of a channel's transfer stands halted with HALTENG (R402). -/
def State.chanStands (s : State) (c : Chan) : Bool :=
  (c.cur.bind (·.by_)).any fun t => (s.ctx t).status = .halted && (s.dbg t).halteng

/-- Nothing stops the channel: it is not saved, and the thread of its transfer is not halted with HALTENG (R313, R402). -/
def State.chanRuns (s : State) (ch : Nat) : Bool :=
  let c := s.chan ch
  c.len ≠ 0 && !c.held && !(s.chanStands c)

/-- The promises of a channel move on by the time it stood (R313). -/
def Chan.later (c : Chan) (d : Nat) : Chan := { c with proms := c.proms.map (fun p => (p.1, p.2 + d)), prom := c.prom + d }

/-- A nanosecond of a channel whose transfer's thread stands halted with HALTENG, or the end of its standing (R402). -/
def State.standChans (s : State) : State :=
  { s with chans := s.chans.map fun c =>
      if !c.2.held && s.chanStands c.2 then (c.1, { c.2 with stood := c.2.stood + 1 })
      else if c.2.held || c.2.stood = 0 then c
      else (c.1, { c.2.later c.2.stood with stood := 0 }) }

/-- The engine may take a packet: the migration assist does not use the channel. -/
def State.mayTake (s : State) (ch : Nat) : Bool :=
  let c := s.chan ch
  s.chanRuns ch && c.look && c.shadow.isNone && !s.skew && !(ch = 3 && s.assistCopies.isSome)

/-- A taken transfer becomes current, or the shadow set (R308). -/
def Chan.enter (c : Chan) (x : Xfer) : Chan :=
  let c := { c with taken := x.id + 1 }
  if c.cur.isNone then { c with cur := some x } else { c with shadow := some x }

/-- COPY_PACKET_TAKE (R301): `arg.a` is the channel. -/
def execCopyPacketTake (s : State) : Out :=
  let ch := s.arg.a
  let c := s.chan ch
  let part := s.chanPart ch
  let w := c.next (c.early.length + 1) (max c.taken c.done)
  let none_ : State := s.modChan ch fun c => { c with look := false }
  if !(s.mayTake ch) then .next s
  else
    let sub : Sub := (c.subs.find? fun b => b.id = w).getD { id := w, by_ := none, node := none, follow := false }
    let x : Xfer := { id := w, pkt := [], by_ := sub.by_, node := sub.node, work := sub.work, follow := sub.follow }
    match s.engineBytes (s.chanView ch) part (c.base + 64 * (w % c.len) : Nat) 64 with
    | none => .next s
    | some (.error e) => if c.widx ≤ w then .next none_ else .next (s.modChan ch fun c => c.enter { x with code := e })
    | some (.ok pkt) =>
      if c.widx ≤ w || fieldAt pkt 60 4 ≠ w % 2 ^ 32 then .next none_
      else
        let x := { x with pkt := pkt }
        let p := s.promise ch s.keel x
        .next (s.modChan ch fun c =>
          (if (tfind c.proms w).isSome then c else c.promised w p).enter x)

/-- What an access of the engine to an endpoint gives. -/
inductive Got where
  | wait (s : State)
  | fail (code : Nat)
  | bytes (bs : List Byte)
  | done (s : State)

/-- The team key an engine's access to a region stands for (R348): that of the causing thread. -/
def State.chanKey (s : State) (by_ : Option Nat) : Nat := by_.elim 0 s.teamKey

/-- The path of a transfer (R242). -/
def Xfer.path (x : Xfer) (ch : Nat) : Path := { cls := 2, src := xferAgent ch x.id, node := x.work }

/-- The leases of an endpoint: 0 the source, 1 the destination. -/
def State.chanHeld (s : State) (ch ep : Nat) : List Held := s.heldBy (chanSrc ch) ep

/-- Read `n` bytes at an offset of the source. -/
def State.getFrom (s : State) (ch : Nat) (x : Xfer) (o : Int) (n : Nat) : Got :=
  let a := epBase x.src + o
  let cell := epCell ch x.src
  match epSpace x.src with
  | 0 => match s.bytesUnder (s.chanHeld ch 0) (s.chanView ch) (s.chanPart ch) a n with
    | none => .wait s
    | some (.error e) => .fail e
    | some (.ok bs) => .bytes bs
  | 1 =>
    if a < 0 || !(spadOk a.toNat n) then .fail 2
    else match (regionsOf a.toNat n).findSome? fun r => (s.regionBusy cell (s.chanKey x.by_) r).map fun i => (r, i) with
      | some (r, i) => .wait (s.post i { a := cell, b := r })
      | none => if s.spadPoisoned cell a.toNat n then .fail 10 else .bytes (s.spadRead (x.path ch) cell a.toNat n)
  | _ =>
    if a < 0 || Config.bankBytes < a.toNat + n then .fail 2
    else match s.regionBusy cell (s.chanKey x.by_) (24 + b2n x.secS) with
      | some i => .wait (s.post i { a := cell, b := 24 + b2n x.secS })
      | none => if s.bankPoisoned cell x.secS a.toNat n then .fail 10 else .bytes (s.bankRead (x.path ch) cell x.secS a.toNat n)

/-- Write bytes at an offset of the destination. -/
def State.putTo (s : State) (ch : Nat) (x : Xfer) (o : Int) (bs : List Byte) : Got :=
  let a := epBase x.dst + o
  let cell := epCell ch x.dst
  let key := s.chanKey x.by_
  match epSpace x.dst with
  | 0 => match s.engineStore (s.chanHeld ch 1) (chanSrc ch) (s.chanPart ch) .part (x.by_.map fun t => (t, 2)) x.work a bs with
    | none => .wait s
    | some (.error e) => .fail e
    | some (.ok s) => .done s
  | 1 =>
    let rs := regionsOf a.toNat bs.length
    if a < 0 || !(spadOk a.toNat bs.length) then .fail 2
    else match rs.findSome? fun r => (s.regionBusy cell key r).map fun i => (r, i) with
      | some (r, i) => .wait (s.post i { a := cell, b := r })
      | none => .done ((if x.by_.isSome then s.own cell key rs else s).spadWrite (x.path ch) cell a.toNat bs)
  | _ =>
    let r := 24 + b2n x.secD
    if a < 0 || Config.bankBytes < a.toNat + bs.length then .fail 2
    else match s.regionBusy cell key r with
      | some i => .wait (s.post i { a := cell, b := r })
      | none => .done ((if x.by_.isSome then s.own cell key [r] else s).bankWrite (x.path ch) cell x.secD a.toNat bs)

/-- A row of a GATHER, as `LDRQ` forms it (R296, R304). -/
def State.gatherRow (s : State) (ch : Nat) (x : Xfer) (o : Obj) (i : Nat) : Got :=
  let r : Int := signed32 (x.f 32 4) + i
  let n := o.len x.len0
  let row (bs : List Byte) : Got := .bytes (slice (o.rowBytes x.len0 bs) 0 x.len0)
  if o.hollow || decide (r < 0) || decide ((o.rows : Int) ≤ r) || n = 0 then row []
  else match s.bytesUnder (s.chanHeld ch 0) (s.chanView ch) (s.chanPart ch) (o.rowVa r.toNat) n with
    | none => .wait s
    | some (.error e) => .fail e
    | some (.ok bs) => row bs

/-- The bytes of row `i`, as memory stands. -/
def State.rowNow (s : State) (ch : Nat) (x : Xfer) (i off n : Nat) : Got :=
  match x.kind with
  | 3 => .bytes ((List.range n).map fun k => ((leBytes 8 x.src)[(off + k) % 8]?).getD 0)
  | 5 =>
    match x.obj.bind (s.objOf (s.chanPart ch)) with
    | none => .fail 8
    | some o => match s.gatherRow ch x o i with
      | .bytes bs => .bytes (slice bs off n)
      | g => g
  | _ => match x.srcOff i with
    | some o => s.getFrom ch x (o + off) n
    | none => .bytes (List.replicate n x.pad)

/-- For each granule of the destination from `base`, the bytes as they were when the transfer began, where they could be read, or as
they are now (R308). -/
def mixOld (seed base : Nat) (old new : List Byte) : List Byte :=
  new.zipIdx.map fun b =>
    if Config.overlapOld (seed * 2 ^ 64 + (base + b.2) / 64) then (old[b.2]?).getD b.1 else b.1

/-- The bytes of row `i` the transfer writes. -/
def State.rowOfXfer (s : State) (ch : Nat) (x : Xfer) (i off n : Nat) : Got :=
  match s.rowNow ch x i off n, x.old[i]? with
  | .bytes bs, some o => .bytes (mixOld x.seed (epBase x.dst + x.dstOff i + off).toNat ((o.drop off).take n) bs)
  | g, _ => g

/-- Source and destination share bytes. -/
def Xfer.overlaps (ch : Nat) (x : Xfer) : Bool :=
  x.kind ≠ 3 && epSpace x.src = epSpace x.dst && (epSpace x.src = 0 || epCell ch x.src = epCell ch x.dst) &&
  (epSpace x.src ≠ 2 || x.secS = x.secD) &&
  match x.srcSpan, x.dstSpan with
  | some (a, b), some (c, d) => decide (a < d) && decide (c < b)
  | _, _ => false

/-- Begin a transfer: checks of R305, bank roles (R303), the object of a GATHER. -/
def State.beginXfer (s : State) (ch : Nat) (x : Xfer) : State :=
  let part := s.chanPart ch
  let fail (n : Nat) : State := s.modChan ch fun c => { c with cur := some { x with code := n, begun := true } }
  if x.bad ch then fail 1
  else if x.zero then s.modChan ch fun c => { c with cur := some { x with begun := true, row := x.steps } }
  else
    let e1 := if x.kind = 3 then 0 else s.spanCode part x.src x.srcSpan
    let e2 := s.spanCode part x.dst x.dstSpan
    if e1 = 1 || e2 = 1 then fail 1
    else if e1 ≠ 0 then fail e1
    else if e2 ≠ 0 then fail e2
    else
      let role (d : Nat) : Bool := (s.cell (epCell ch d)).second != (bitsOf d 22 1 = 1)
      let x := { x with begun := true, secS := role x.src, secD := role x.dst }
      let s := if x.overlaps ch then { s with choices := s.choices + 1 } else s
      let x := if x.overlaps ch then
          { x with seed := s.choices, old := (List.range x.rows).map fun i => match s.rowNow ch x i 0 x.len0 with
              | .bytes bs => bs
              | _ => [] }
        else x
      if x.kind = 5 then
        let o := bitsOf x.src 0 48
        match s.objOf part o with
        | none => fail 8
        | some _ => s.opAt part (chanSrc ch) fun _ s =>
          (s.holdObj part o).modChan ch fun c => { c with cur := some { x with obj := some o } }
      else s.modChan ch fun c => { c with cur := some x }

/-- Bytes a step moves: 4,096, or a whole row where it is verified. -/
def Xfer.stepLen (x : Xfer) : Nat := if x.flg 2 then x.len0 else min 4096 (x.len0 - x.off)

/-- After a step: on in the row, or to the next. -/
def Xfer.moved (x : Xfer) (n : Nat) : Xfer :=
  if x.off + n < x.len0 then { x with off := x.off + n } else { x with off := 0, row := x.row + 1 }

/-- The endpoints of row `i` lie in range (R234, R309). -/
def Xfer.rowInRange (x : Xfer) (i : Nat) : Bool :=
  let ok (d : Nat) (o : Option Int) : Bool := match epSpace d, o with
    | 1, some o => decide (0 ≤ epBase d + o) && spadOk (epBase d + o).toNat x.len0
    | 2, some o => decide (0 ≤ epBase d + o) && decide ((epBase d + o).toNat + x.len0 ≤ Config.bankBytes)
    | _, _ => true
  (x.kind = 3 || ok x.src (x.srcOff i)) && ok x.dst (some (x.dstOff i))

/-- The leases a step of row `x.row` needs (R311). -/
def State.holdRow (s : State) (ch : Nat) (x : Xfer) (n : Nat) : State :=
  let part := s.chanPart ch
  let take (s : State) (ep : Nat) (va : Int) (n : Nat) (w : Bool) : State := s.holdRange (chanSrc ch) part ep va n w
  let s := match x.obj.bind (s.objOf part), x.srcOff x.row with
    | some o, _ =>
      let r : Int := signed32 (x.f 32 4) + x.row
      if o.hollow || decide (r < 0) || decide ((o.rows : Int) ≤ r) then s else take s 0 (o.rowVa r.toNat) (o.len x.len0) false
    | none, some o => if epSpace x.src = 0 then take s 0 (epBase x.src + o + x.off) n false else s
    | none, none => s
  if epSpace x.dst ≠ 0 then s
  else if x.row = x.rows then take s 1 (epBase x.dst + x.dstOff x.rows) 512 true
  else take s 1 (epBase x.dst + x.dstOff x.row + x.off) n true

/-- One step of a transfer that has begun: a row, 4,096 bytes of a longer one, or the check block. -/
def State.stepXfer (s : State) (ch : Nat) (x : Xfer) : State :=
  let upd (s : State) (y : Xfer) : State := s.modChan ch fun c => { c with cur := some y }
  let n := x.stepLen
  let s := s.holdRow ch x n
  let put (o : Int) (bs : List Byte) (y : Xfer) : State := match s.putTo ch x o bs with
    | .done t => upd { t with choices := t.choices + 1 } y
    | .fail e => upd s { x with code := e }
    | .wait t => t
    | .bytes _ => s
  if x.flg 2 && x.chk = [] then
    match s.getFrom ch x (x.n1 * x.sstr1) 512 with
    | .bytes bs => upd s { x with chk := bs }
    | .fail e => upd s { x with code := e }
    | .wait t => t
    | .done t => t
  else if x.row = x.rows then put (x.dstOff x.rows) x.chk { x with row := x.row + 1 }
  else if !(x.rowInRange x.row) then upd s { x with code := 2 }
  else match s.rowOfXfer ch x x.row x.off n with
    | .fail e => upd s { x with code := e }
    | .wait t => t
    | .done t => t
    | .bytes bs =>
      if x.flg 2 && (crc32c bs).toNat ≠ fieldAt x.chk (4 * x.row) 4 then upd s { x with code := 9 }
      else put (x.dstOff x.row + x.off) bs (x.moved n)

/-- The current transfer has nothing left to do. -/
def Xfer.isOver (x : Xfer) : Bool := x.code ≠ 0 || (x.begun && x.steps ≤ x.row)

/-- COPY_PACKET_STEP (R304, R308, R310, R313): `arg.a` is the channel. -/
def execCopyPacketStep (s : State) : Out :=
  let ch := s.arg.a
  if !(s.chanRuns ch) || s.skew then .next s
  else match (s.chan ch).cur with
    | none => .next s
    | some x =>
      if x.isOver then .next s
      else if x.begun then .next (s.stepXfer ch x)
      else .next (s.beginXfer ch x)

/-- COPY_TRANSFER_COMPLETE (R307, R308): `arg.a` is the channel. -/
def execCopyTransferComplete (s : State) : Out :=
  let ch := s.arg.a
  match (s.chan ch).cur with
  | none => .next s
  | some x =>
    if !x.isOver || !(s.chanRuns ch) then .next s
    else match s.completeXfer ch x with
      | none => .next s
      | some s => .next (s.modChan ch fun c => { c with cur := c.shadow, shadow := none })

-- COPY and COPYF (R315, R316).

/-- The `MMA` of a follow-on: its guard bits are ignored. -/
def followOn (w : Word) : Option Instr :=
  match decode (w &&& ~~~(0xF#64 <<< 52)) with
  | .ok (.mma f) => some (.mma f)
  | _ => none

/-- Reserve the follow-on's entry in the tensor buffer (R316). -/
def State.followEntry (s : State) (i : Instr) (word : Word) (ch w : Nat) : State :=
  let e := { s.entryOf i with word := word &&& ~~~(0xF#64 <<< 52), wake := some (ch, w), xtnd := none, lane := none }
  { (s.modMe fun c => { c with bufT := c.bufT ++ [e] }) with seq := s.seq + 1 }

/-- COPY, with a follow-on for COPYF. -/
def State.copyIssue (s : State) (d b a : Reg) (c4 : BitVec 2) (follow : Option (Instr × Word)) : State :=
  let ch := 4 * s.myCell + c4.toNat
  let x := (s.scalar a).toNat
  if x % 8 ≠ 0 || !(spadOk x 64) then s.fatal .spadRange
  else if (s.chan ch).len = 0 then (s.setScalar d allOnes).setScalar b 0
  else if 1 < (s.chan ch).pend then s.waitOn 3 (chanSrc ch) none
  else if follow.isSome && 4 ≤ s.me.bufT.length then s.stall
  else s.afterAccess fun s => s.withSpad x 64 fun s =>
    if s.spadPoisoned s.myCell x 64 then s.poisoned
    else s.afterPublish .part fun s =>
      match s.submit ch (s.spadRead s.pathL s.myCell x 64) s.iss.src (some s.iss.src) none follow.isSome with
      | none => s.waitOn 3 (chanSrc ch) none
      | some (.error e) => (s.setScalar d allOnes).setScalar b (w64 e)
      | some (.ok (w, p, s)) =>
        let s := match follow with
          | some (i, word) => s.followEntry i word ch w
          | none => s
        let s := if (s.chan ch).isDone w then s
          else s.modMe fun c => { c with copies := c.copies ++ [(ch, w, c.cur.isSome)] }
        (s.setScalar d (w64 w)).setScalar b (w64 p)

def execCopy (d b a : Reg) (ch : BitVec 2) (s : State) : Out := .next (s.copyIssue d b a ch none)
def execCopyf (d b a c : Reg) (ch : BitVec 2) (s : State) : Out :=
  match followOn (s.scalar c) with
  | none => .next (s.fatal .illegal)
  | some i => .next (s.copyIssue d b a ch (some (i, s.scalar c)))

-- CWAIT, CSTAT and CCHK (R317, R318).

def execCwait (c4 : BitVec 2) (a : Reg) (s : State) : Out :=
  let ch := 4 * s.myCell + c4.toNat
  let id := (s.scalar a).toNat
  if id < (s.chan ch).done then
    .next (s.deliverOr (fun e => e.1 = ch && e.2.1 ≤ id) fun s => s.waitEnds 3 (chanSrc ch) (chanSrc ch) 0 .part)
  else .next (s.waitOn 3 (chanSrc ch) none)

def execCstat (d : Reg) (c4 : BitVec 2) (s : State) : Out :=
  .next (s.setScalar d (w64 (s.chan (4 * s.myCell + c4.toNat)).done))

/-- CCHK: one attempt. -/
def State.cchk (s : State) (c4 : BitVec 2) (a : Reg) : State :=
  let ch := 4 * s.myCell + c4.toNat
  let id := (s.scalar a).toNat
  let p := tfind (s.chan ch).proms id
  if (s.chan ch).isDone id then (s.endWait (chanSrc ch) 0).deliverOr (fun e => e.1 = ch && e.2.1 = id) fun s => s
  else if overdue s.keel p then (s.endWait 0xFFF 1).trap .promiseMissed ((s.scalar a).setWidth 32)
  else s.waitOn 3 (chanSrc ch) p

def execCchk (c4 : BitVec 2) (a : Reg) (s : State) : Out := .next (s.cchk c4 a)

/-- PROMISE_TIME_REACHED (R318): the waiting `CCHK` of thread `arg.a` looks again. -/
def execPromiseTimeReached (s : State) : Out :=
  .next (s.retry s.arg.a fun i => match i with
    | .cchk ch a => some fun t => t.cchk ch a
    | _ => none)

-- Writes of a channel's registers (R300).

/-- CQNOTE_WRITE: `arg.a` is the channel. -/
def execCqnoteWrite (s : State) : Out := .next (s.modChan s.arg.a fun c => chanWrite c 0x18 0 false)
/-- CQWIDX_WRITE: `arg.a` is the channel, `arg.b` the value. -/
def execCqwidxWrite (s : State) : Out := .next (s.modChan s.arg.a fun c => chanWrite c 0x10 s.arg.b false)
/-- CFAILST_CLEAR: `arg.a` is the channel. -/
def execCfailstClear (s : State) : Out := .next (s.modChan s.arg.a fun c => chanWrite c 0x30 0 false)

end Sys2Proof.Machine
end

