-- ==== Sys2Proof/Machine/Numbers.lean ====
section
/-! DEFINITION. Number formats (06 R90 to R107): exact values, decoding, one rounding into a format, the exact operations of the
execute and tensor units, and block formats. -/

namespace Sys2Proof

open Machine

-- Sticky flags of one result (R112): bit 0 IV, bit 1 OF, bit 2 NP.

abbrev NFlags := BitVec 3
def fIV : NFlags := 1
def fOF : NFlags := 2
def fNP : NFlags := 4

/-- A value. `fin` is (-1)^neg × m × 2^e with m not 0; where `more` is set it is larger in magnitude than that by less than 2^e. -/
inductive Num where
  | nan
  | inf (neg : Bool)
  | zero (neg : Bool)
  | fin (neg : Bool) (m : Nat) (e : Int) (more : Bool)
deriving DecidableEq, Repr

/-- A floating-point format (R90): `top` is the code of the largest finite magnitude. -/
structure Fmt where
  ew : Nat
  mw : Nat
  bias : Nat
  top : Nat
  infCode : Option Nat
  nanCode : Nat
deriving DecidableEq, Repr

def Fmt.w (f : Fmt) : Nat := 1 + f.ew + f.mw
def fp32 : Fmt := ⟨8, 23, 127, 0x7F7FFFFF, some 0x7F800000, 0x7FC00000⟩
def fp16 : Fmt := ⟨5, 10, 15, 0x7BFF, some 0x7C00, 0x7E00⟩
def fpB16 : Fmt := ⟨8, 7, 127, 0x7F7F, some 0x7F80, 0x7FC0⟩
def fpE4M3 : Fmt := ⟨4, 3, 7, 0x7E, none, 0x7F⟩
def fpE5M2 : Fmt := ⟨5, 2, 15, 0x7B, some 0x7C, 0x7E⟩
def fpE2M1 : Fmt := ⟨2, 1, 1, 0x7, none, 0⟩

/-- The exponent of a format's smallest subnormal. -/
def Fmt.low (f : Fmt) : Int := 1 - (f.bias : Int) - f.mw

/-- The value of a code (R90, R91). -/
def Fmt.num (f : Fmt) (c : Nat) : Num :=
  let neg := bitsOf c (f.w - 1) 1 = 1
  let mag := c % 2 ^ (f.w - 1)
  let ex := mag / 2 ^ f.mw
  let m := mag % 2 ^ f.mw
  if f.infCode = some mag then .inf neg
  else if f.top < mag then .nan
  else if ex = 0 then (if m = 0 then .zero neg else .fin neg m f.low false)
  else .fin neg (2 ^ f.mw + m) ((ex : Int) + f.low - 1) false

/-- Bits of a positive number. -/
def bitLen (m : Nat) : Nat := if m = 0 then 0 else Nat.log2 m + 1

/-- Round a magnitude, `m / 2^k` with a remainder beyond it where `more`, to an integer (R99). -/
def roundInt (rm : RM) (neg : Bool) (m k : Nat) (more : Bool) : Nat :=
  let q := m / 2 ^ k
  let r := m % 2 ^ k
  let exact := r = 0 && !more
  let up := match rm with
    | .rz => false
    | .rdn => neg && !exact
    | .rup => !neg && !exact
    | .rne =>
      if k = 0 then false
      else
        let half := 2 ^ (k - 1)
        half < r || (r = half && (more || q % 2 = 1))
  if up then q + 1 else q

/-- The magnitude of `m × 2^e` (and more) rounded to a multiple of `2^q`. -/
def roundAt (rm : RM) (neg : Bool) (m : Nat) (e q : Int) (more : Bool) : Nat :=
  if q ≤ e then m * 2 ^ (e - q).toNat else roundInt rm neg m (q - e).toNat more

/-- The code of a magnitude `r × 2^q` that a rounding to the format's precision gave, as if the exponent had no upper bound. -/
def Fmt.code (f : Fmt) (r : Nat) (q : Int) : Nat :=
  if r < 2 ^ f.mw then r
  else if r = 2 ^ (f.mw + 1) then ((q - f.low + 2).toNat) * 2 ^ f.mw
  else (q - f.low + 1).toNat * 2 ^ f.mw + (r - 2 ^ f.mw)

def Fmt.sign (f : Fmt) (neg : Bool) : Nat := b2n neg * 2 ^ (f.w - 1)

/-- What an overflowing result is written as (R100). -/
def Fmt.overflow (f : Fmt) (rm : RM) (sat neg : Bool) : Nat × NFlags :=
  let toInf := !sat && match rm with
    | .rne => true
    | .rz => false
    | .rdn => neg
    | .rup => !neg
  if toInf then match f.infCode with
    | some i => (f.sign neg + i, fOF)
    | none => (f.nanCode, fOF ||| fNP)
  else (f.sign neg + f.top, fOF)

/-- Round a value once into a format (R99 to R102): the code and the flags. An infinity in a format that has none becomes the
format's NaN and sets NP where SAT is 0 (log 55). -/
def Fmt.round (f : Fmt) (rm : RM) (sat : Bool) (x : Num) : Nat × NFlags :=
  match x with
  | .nan => (f.nanCode, fNP)
  | .inf neg => match f.infCode with
    | some i => (f.sign neg + i, 0)
    | none => if sat then (f.sign neg + f.top, 0) else (f.nanCode, fNP)
  | .zero neg => (f.sign neg, 0)
  | .fin neg m e more =>
    let q := max f.low ((bitLen m : Int) + e - 1 - f.mw)
    let c := f.code (roundAt rm neg m e q more) q
    if f.top < c then f.overflow rm sat neg else (f.sign neg + c, 0)

-- Exact operations (R99, R101). The Bool says that the operation is invalid.

/-- A signed integer times a power of two. -/
def Num.ofScaled (v : Int) (e : Int) (zneg : Bool) : Num :=
  if v = 0 then .zero zneg else .fin (v < 0) v.natAbs e false
def Num.ofInt (v : Int) : Num := Num.ofScaled v 0 false

def sgn (neg : Bool) (m : Nat) : Int := if neg then -(m : Int) else m

def Num.neg : Num → Num
  | .nan => .nan
  | .inf s => .inf (!s)
  | .zero s => .zero (!s)
  | .fin s m e r => .fin (!s) m e r

def Num.add (rm : RM) : Num → Num → Num × Bool
  | .nan, _ => (.nan, false)
  | _, .nan => (.nan, false)
  | .inf a, .inf b => if a = b then (.inf a, false) else (.nan, true)
  | .inf a, _ => (.inf a, false)
  | _, .inf b => (.inf b, false)
  | .zero a, .zero b => (.zero (if a = b then a else rm = .rdn), false)
  | .zero _, y => (y, false)
  | x, .zero _ => (x, false)
  | .fin a m e _, .fin b n f _ =>
    let k := min e f
    (Num.ofScaled (sgn a m * 2 ^ (e - k).toNat + sgn b n * 2 ^ (f - k).toNat) k (rm = .rdn), false)

def Num.mul : Num → Num → Num × Bool
  | .nan, _ => (.nan, false)
  | _, .nan => (.nan, false)
  | .inf a, .inf b => (.inf (a != b), false)
  | .inf _, .zero _ => (.nan, true)
  | .zero _, .inf _ => (.nan, true)
  | .inf a, .fin b .. => (.inf (a != b), false)
  | .fin a .., .inf b => (.inf (a != b), false)
  | .zero a, .zero b => (.zero (a != b), false)
  | .zero a, .fin b .. => (.zero (a != b), false)
  | .fin a .., .zero b => (.zero (a != b), false)
  | .fin a m e _, .fin b n f _ => (.fin (a != b) (m * n) (e + f) false, false)

/-- `a × b + d`, or `-(a × b) + d`. -/
def Num.fma (rm : RM) (negate : Bool) (a b d : Num) : Num × Bool :=
  let (p, i) := Num.mul a b
  let (r, j) := Num.add rm (if negate then p.neg else p) d
  (r, i || j)

/-- A quotient with 96 bits more than its operands need. -/
def Num.div : Num → Num → Num × Bool
  | .nan, _ => (.nan, false)
  | _, .nan => (.nan, false)
  | .inf _, .inf _ => (.nan, true)
  | .inf a, .zero b => (.inf (a != b), false)
  | .inf a, .fin b .. => (.inf (a != b), false)
  | .zero a, .inf b => (.zero (a != b), false)
  | .fin a .., .inf b => (.zero (a != b), false)
  | .zero _, .zero _ => (.nan, true)
  | .zero a, .fin b .. => (.zero (a != b), false)
  | .fin a .., .zero b => (.inf (a != b), false)
  | .fin a m e _, .fin b n f _ =>
    (.fin (a != b) (m * 2 ^ 96 / n) (e - f - 96) (m * 2 ^ 96 % n ≠ 0), false)

def Num.one : Num := .fin false 1 0 false

/-- The integer square root, bit by bit from bit `k - 1`. -/
def isqrt (n : Nat) : Nat → Nat → Nat
  | 0, r => r
  | k + 1, r => if (r + 2 ^ k) * (r + 2 ^ k) ≤ n then isqrt n k (r + 2 ^ k) else isqrt n k r

/-- √ of `m × 2^e`. -/
def sqrtFin (m : Nat) (e : Int) : Num :=
  let m' := if e % 2 = 0 then m else 2 * m
  let e' := if e % 2 = 0 then e else e - 1
  let n := m' * 2 ^ 128
  let r := isqrt n 96 0
  .fin false r (e' / 2 - 64) (r * r ≠ n)

def Num.sqrt : Num → Num × Bool
  | .nan => (.nan, false)
  | .inf neg => if neg then (.nan, true) else (.inf false, false)
  | .zero neg => (.zero neg, false)
  | .fin neg m e _ => if neg then (.nan, true) else (sqrtFin m e, false)

/-- 1/√a: the floor of 2^96 / √m', with a mark where it is not exact. -/
def Num.rsqrt : Num → Num × Bool
  | .nan => (.nan, false)
  | .inf neg => if neg then (.nan, true) else (.zero false, false)
  | .zero neg => (.inf neg, false)
  | .fin neg m e _ =>
    if neg then (.nan, true)
    else
      let m' := if e % 2 = 0 then m else 2 * m
      let e' := if e % 2 = 0 then e else e - 1
      let r := isqrt (2 ^ 192 / m') 97 0
      (.fin false r (-(e' / 2) - 96) (r * r * m' ≠ 2 ^ 192), false)

-- Powers and logarithms of two (R99, R124): fixed point with 1,024 bits of fraction, more than any rounding boundary of an
-- FP32 argument needs.

def fixBits : Nat := 1024

/-- The series 2 (t + t^3/3 + t^5/5 + ...) of fixed-point `t`, `t2` its square: `p` is the current odd power. -/
def atanhSeries (t2 : Nat) : Nat → Nat → Nat → Nat
  | 0, _, _ => 0
  | fuel + 1, p, k => p / k + atanhSeries t2 fuel (p * t2 / 2 ^ fixBits) (k + 2)

/-- ln y for y = a / b in [1, 2], as 2 atanh((y - 1) / (y + 1)). -/
def lnFix (a b : Nat) : Nat :=
  let t := (a - b) * 2 ^ fixBits / (a + b)
  2 * atanhSeries (t * t / 2 ^ fixBits) 340 t 1

def ln2Fix : Nat := lnFix 2 1

/-- The Taylor series of e^t. -/
def expSeries (t : Nat) : Nat → Nat → Nat → Nat
  | 0, _, _ => 0
  | fuel + 1, term, k => term + expSeries t fuel (term * t / 2 ^ fixBits / k) (k + 1)

/-- 2^a. -/
def Num.exp2 : Num → Num
  | .nan => .nan
  | .inf neg => if neg then .zero false else .inf false
  | .zero _ => .one
  | .fin neg m e _ =>
    if 11 ≤ (bitLen m : Int) + e then (if neg then .fin false 1 (-4096) true else .fin false 1 4096 false)
    else
      -- the value with `fixBits` bits of fraction, exactly
      let v : Int := sgn neg m * 2 ^ (e + fixBits).toNat
      let n := v / 2 ^ fixBits
      let f := (v % 2 ^ fixBits).toNat
      if f = 0 then .fin false 1 n false
      else .fin false (expSeries (f * ln2Fix / 2 ^ fixBits) 180 (2 ^ fixBits) 1) (n - fixBits) true

/-- log2 a. -/
def Num.log2 : Num → Num × Bool
  | .nan => (.nan, false)
  | .inf neg => if neg then (.nan, true) else (.inf false, false)
  | .zero _ => (.inf true, false)
  | .fin neg m e _ =>
    if neg then (.nan, true)
    else
      let k := bitLen m - 1
      if m = 2 ^ k then (Num.ofScaled (e + k) 0 false, false)
      else
        let v : Int := (e + k) * 2 ^ fixBits + (lnFix m (2 ^ k) * 2 ^ fixBits / ln2Fix : Nat)
        (.fin (v < 0) v.natAbs (-(fixBits : Int)) true, false)

/-- Order of two values that are not NaN: +0 counts as larger than -0 where `zeros`. -/
def Num.lt (zeros : Bool) : Num → Num → Bool
  | .nan, _ => false
  | _, .nan => false
  | .inf a, .inf b => a && !b
  | .inf a, _ => a
  | _, .inf b => !b
  | .zero a, .zero b => zeros && a && !b
  | .zero _, .fin b .. => !b
  | .fin a .., .zero _ => a
  | .fin a m e _, .fin b n f _ =>
    let k := min e f
    decide (sgn a m * 2 ^ (e - k).toNat < sgn b n * 2 ^ (f - k).toNat)
def Num.eq : Num → Num → Bool
  | .nan, _ => false
  | _, .nan => false
  | x, y => !(x.lt false y) && !(y.lt false x)
def Num.isNan : Num → Bool
  | .nan => true
  | _ => false

-- Element types (R38).

/-- The format of a floating-point element type. -/
def ETy.fmt : ETy → Option Fmt
  | .f32 => some fp32 | .f16 => some fp16 | .bf16 => some fpB16 | .e4m3 => some fpE4M3 | .e5m2 => some fpE5M2
  | _ => none
/-- A signed integer type. -/
def ETy.isSigned : ETy → Bool
  | .i32 | .i16 | .i8 => true
  | _ => false
/-- The range of an integer type. -/
def ETy.least (t : ETy) : Int := if t.isSigned then -(2 ^ (t.width - 1) : Nat) else 0
def ETy.greatest (t : ETy) : Int := if t.isSigned then 2 ^ (t.width - 1) - 1 else 2 ^ t.width - 1
/-- The integer an element's bits stand for. -/
def ETy.int (t : ETy) (c : Nat) : Int := if t.isSigned && 2 ^ (t.width - 1) ≤ c then (c : Int) - 2 ^ t.width else c
/-- The bits of an integer. -/
def ETy.ofInt (t : ETy) (v : Int) : Nat := (v % 2 ^ t.width).toNat
def ETy.clamp (t : ETy) (v : Int) : Int := max t.least (min t.greatest v)

/-- The value of an element of a scalar type. -/
def ETy.num (t : ETy) (c : Nat) : Num :=
  match t.fmt with
  | some f => f.num c
  | none => Num.ofInt (t.int c)

/-- Float to integer (R103). -/
def toIntTy (t : ETy) (rm : RM) : Num → Nat × NFlags
  | .nan => (0, fIV)
  | .inf neg => (t.ofInt (if neg then t.least else t.greatest), fIV)
  | .zero _ => (0, 0)
  | .fin neg m e more =>
    let v := sgn neg (roundAt rm neg m e 0 more)
    if v < t.least || t.greatest < v then (t.ofInt (t.clamp v), fIV) else (t.ofInt v, 0)

/-- One element converted (R102, R103). -/
def convert (dst src : ETy) (rm : RM) (sat : Bool) (c : Nat) : Nat × NFlags :=
  match dst.fmt, src.fmt with
  | some f, _ => f.round rm sat (src.num c)
  | none, some g => toIntTy dst rm (g.num c)
  | none, none =>
    let v := src.int c
    (dst.ofInt (if sat then dst.clamp v else v), 0)

-- Block formats (R93 to R98, R104 to R106).

/-- x × 2^k. -/
def Num.scale (k : Int) : Num → Num
  | .fin s m e r => .fin s m (e + k) r
  | x => x

/-- The element formats of the MX floating-point types. -/
def mxFmt : ETy → Option Fmt
  | .mxf8e4 => some fpE4M3 | .mxf8e5 => some fpE5M2 | .mxf4 => some fpE2M1
  | _ => none

/-- The 8-bit code of a PNI element read at `d` planes with fill (R97): `q` is its 8-bit two's-complement value. -/
def pniRead (q : Int) (d : Nat) (mid : Bool) : Int :=
  q / 2 ^ (8 - d) * 2 ^ (8 - d) + (if mid && d < 8 then 2 ^ (7 - d) else 0)

def sext8 (c : Nat) : Int := if 128 ≤ c % 256 then (c % 256 : Nat) - 256 else (c % 256 : Nat)

/-- The value of an element of a scaled type with scale code `x` (R93, R94, R97). -/
def blockNum (t : ETy) (c x d : Nat) (mid : Bool) : Num :=
  if x = 255 then .nan
  else match mxFmt t with
    | some f => (f.num c).scale ((x : Int) - 127)
    | none => Num.ofScaled (if t = .pni then pniRead (sext8 c) d mid else sext8 c) ((x : Int) - 133) false

/-- floor(log2) of a positive value. -/
def Num.expo : Num → Int
  | .fin _ m e _ => (bitLen m : Int) - 1 + e
  | _ => 0
def Num.mag : Num → Num
  | .inf _ => .inf false
  | .zero _ => .zero false
  | .fin _ m e r => .fin false m e r
  | .nan => .nan
def Num.isFin : Num → Bool
  | .nan => false
  | .inf _ => false
  | _ => true

/-- E of R105. -/
def topExpo : ETy → Int
  | .mxf8e4 => 8 | .mxf8e5 => 15 | .mxf4 => 2 | _ => 0

/-- Quantise one block (R104, R105): the scale code, the element codes, and NP where the block is NaN. -/
def quantBlock (t : ETy) (xs : List Num) : Nat × List Nat × NFlags :=
  let zeros := xs.map fun _ => 0
  if xs.any fun x => !x.isFin then (255, zeros, fNP)
  else
    let amax := xs.foldl (fun m x => if Num.lt false m x.mag then x.mag else m) (.zero false)
    if amax.eq (.zero false) then (0, zeros, 0)
    else
      let x := (max 0 (min 254 (amax.expo - topExpo t + 127))).toNat
      let q (v : Num) : Nat :=
        match mxFmt t, v with
        | some f, v => (f.round .rne true (v.scale (127 - (x : Int)))).1
        | none, .fin neg m e more => (sgn neg (min 127 (roundAt .rne neg m (e + 133 - x) 0 more)) % 256).toNat
        | none, _ => 0
      (x, xs.map q, 0)

-- Rows as lists of elements (R89, R96).

/-- Elements of width `w` in a row. -/
def elems (w : Nat) (r : Row) : List Nat := (List.range (1536 / w)).map fun i => (r.extractLsb' (w * i) w).toNat
/-- The row of a list of elements. -/
def ofElems (w : Nat) (l : List Nat) : Row := BitVec.ofNat 1536 (l.foldr (fun x acc => x % 2 ^ w + 2 ^ w * acc) 0)

/-- The 192 8-bit elements of a PNI row (R96). -/
def pniElems (r : Row) : List Nat :=
  (List.range 192).map fun i =>
    (List.range 8).foldl (fun acc j => 2 * acc + b2n (r.getLsbD (192 * j + i))) 0
/-- The planes of 192 8-bit elements. -/
def pniRow (l : List Nat) : Row :=
  BitVec.ofNat 1536 (((List.range 8).map fun j =>
    2 ^ (192 * j) * (l.foldr (fun x acc => bitsOf x (7 - j) 1 + 2 * acc) 0)).sum)

/-- The elements of a row of a scaled type. -/
def blockElems (t : ETy) (r : Row) : List Nat := if t = .pni then pniElems r else elems t.width r
def blockRow (t : ETy) (l : List Nat) : Row := if t = .pni then pniRow l else ofElems t.width l
/-- The scale code of element `i`: byte i / 32 of the scale row (R95). -/
def scaleAt (sc : Row) (i : Nat) : Nat := (sc.extractLsb' (8 * (i / 32)) 8).toNat

end Sys2Proof
end

