-- ==== Sys2Proof/Machine/Flags.lean ====
section
/-! DEFINITION. NFLAGS (06 R112, R113), the lanes an instruction writes (07 R120, R121), and results element by element with
their flags. -/

namespace Sys2Proof.Machine

/-- OR flags into NFLAGS. -/
def Ctx.orFlags (c : Ctx) (f : NFlags) : Ctx := { c with nflags := c.nflags ||| f }
def State.orFlags (s : State) (f : NFlags) : State := s.modMe fun c => c.orFlags f

/-- The lanes the instruction being executed includes: all without a `LANE` prefix. -/
def State.lanes (s : State) : BitVec 48 := s.iss.lane.elim (BitVec.allOnes 48) fun p => s.me.mask p.m

/-- Element `i` of width `w` lies in an included lane. -/
def inLanes (m : BitVec 48) (w i : Nat) : Bool := m.getLsbD (i * w / 32)

/-- The flags of the elements that included lanes hold. -/
def flagsIn (m : BitVec 48) (w : Nat) (l : List (Nat × NFlags)) : NFlags :=
  (l.zipIdx.foldl (fun acc p => if inLanes m w p.2 then acc ||| p.1.2 else acc) 0)

/-- Execute and tensor instructions of the thread are all complete: NFLAGS may be read and written (R113). -/
def Ctx.flagsReady (c : Ctx) : Bool := c.bufE.isEmpty && c.bufT.isEmpty

end Sys2Proof.Machine
end

