-- ==== Sys2Proof/Machine/Links.lean ====
section
/-! DEFINITION. Windows and Spar links (21 R357 to R366): flits, replay, `PUT`, window entries and the counts `WWAIT` and `WCNT`
read. Port p has the source number 2064 + p. -/

namespace Sys2Proof.Machine

def portSrc (p : Nat) : Nat := 2064 + p
/-- The partition that owns a port (R319). -/
def State.partOfPort (s : State) (p : Nat) : Nat := s.partOfStack (p / 2)

/-- A count as a reader of a stamp sees it (R172). -/
def Tally.seen (c : Tally) (at_ : Stamp) : Nat :=
  (c.n - ((c.fresh.filter fun f => !(f.1.lt at_)).map (·.2)).sum) % 2 ^ 48
/-- A flag write raises a count (R361); older writes are seen by every reader to come. -/
def Tally.add (c : Tally) (st : Stamp) (n : Nat) : Tally :=
  { n := c.n + n, by_ := st.src, fresh := (c.fresh.filter fun f => st.keel ≤ f.1.keel + 2) ++ [(st, n)] }

def Port.pair (p : Port) (wid : Nat) : Pair := tget {} p.pairs wid
def Port.modPair (p : Port) (wid : Nat) (f : Pair → Pair) : Port := { p with pairs := tput p.pairs wid (f (p.pair wid)) }

-- Sending (R357, R358).

/-- ACK: the highest SEQ received in order. -/
def Port.ack (p : Port) : Nat := (p.rxSeq + 65535) % 65536

/-- Bytes of a `PUT`'s flit as they are when it leaves, or as the `PUT` found them: a store made to the source since may or may not be
sent, granule by granule (R365). -/
def State.flitBytes (s : State) (part : Nat) (o : PutSrc) (bs : List Byte) : List Byte :=
  let vw : Viewer := ⟨o.src, some part, some (cellOf o.src), ⟨s.keel + 1, 0⟩, some 0, none⟩
  let late := s.loadBytes vw part o.pa bs.length
  bs.zipIdx.map fun b =>
    if b.2 < o.fixed || Config.overlapOld (o.seed * 2 ^ 64 + (o.pa + b.2) / 64) then b.1 else (late[b.2]?).getD b.1

/-- Read the bytes of the first flit that waits, and with it the rest of the granule that it ends in. -/
def State.readFlit (s : State) (part : Nat) : List (OutFlit × Option PutSrc) → List (OutFlit × Option PutSrc)
  | (f, some o) :: rest =>
    let n := f.bytes.length
    let f' := { f with bytes := s.flitBytes part o f.bytes }
    match rest with
    | (g, some p) :: rest' =>
      if p.seed = o.seed && p.pa = o.pa + n then
        let k := min ((64 - p.pa % 64) % 64) g.bytes.length
        let g' := { g with bytes := s.flitBytes part p (g.bytes.take k) ++ g.bytes.drop k }
        (f', none) :: (g', some { p with fixed := k }) :: rest'
      else (f', none) :: rest
    | _ => (f', none) :: rest
  | l => l

/-- Send what waits while the replay buffer has room (R358). -/
def State.pump : Nat → Nat → State → State
  | 0, _, s => s
  | fuel + 1, n, s =>
    let p := s.port n
    if 512 ≤ p.replay.length then s
    else match s.readFlit (s.partOfPort n) p.sendq with
      | [] => s
      | (f, _) :: rest =>
        let f := { f with seq := p.txSeq, ack := p.ack }
        let s := (s.emit (.flit n f)).modPort n fun p => { p with
          sendq := rest, replay := p.replay ++ [(f, 0)], txSeq := (p.txSeq + 1) % 65536, ackTx := p.ack
          ackAt := if p.replay.isEmpty then s.keel else p.ackAt }
        State.pump fuel n s

/-- Queue flits of the replay kinds and send what may go. -/
def State.sendFlits (s : State) (n : Nat) (l : List (OutFlit × Option PutSrc)) : State :=
  State.pump 512 n (s.modPort n fun p => { p with sendq := p.sendq ++ l })

/-- An ACK frees every kept flit up to its SEQ (R358). -/
def State.ackTo (s : State) (n ack : Nat) : State :=
  let p := s.port n
  match indexOf? (fun f => f.1.seq = ack) p.replay 0 with
  | none => s
  | some i => State.pump 512 n (s.modPort n fun p => { p with replay := p.replay.drop (i + 1), ackAt := s.keel })

/-- A flit is dropped: a NAK names the SEQ expected. -/
def State.nak (s : State) (n : Nat) : State := s.sendFlits n [({ type_ := 3, off := (s.port n).rxSeq }, none)]

/-- Take a flit of the sequenced kinds in order, and run `k`; else drop it (R358). -/
def State.inOrder (s : State) (n : Nat) (ok : Bool) (seq ack : Nat) (k : State → State) : State :=
  if !(s.port n).up then s
  else if !ok || seq ≠ (s.port n).rxSeq then s.nak n
  else k ((s.modPort n fun p => { p with rxSeq := (p.rxSeq + 1) % 65536 }).ackTo n ack)

-- PUTs (R361, R365).

/-- The oldest `PUT` of a port completes (R361): its pair counts it, and a relay step that issued it learns of ERR. -/
def State.putOver (s : State) (n : Nat) (err : Bool) : State :=
  match (s.port n).puts with
  | [] => s
  | o :: rest =>
    let s := s.modPort n fun p => ({ p with puts := rest } : Port).modPair o.wid fun q => { q with
      completed := q.completed.add ⟨s.keel + 1, portSrc n⟩ 1, err := q.err || err }
    if err then { s with relays := s.relays.map fun r =>
        if r.2.put = some (n * 4096 + o.wid, o.num) then (r.1, { r.2 with putErr := true }) else r }
    else s
def State.putsOver (s : State) (n : Nat) (err : Bool) : Nat → State
  | 0 => s
  | k + 1 => (s.putOver n err).putsOver n err k

/-- The `PUT` numbered `num` of an outbound id has completed. -/
def State.putDone (s : State) (oid num : Nat) : Bool := num ≤ ((s.port (oid / 4096)).pair (oid % 4096)).completed.n

/-- The payload in flits of up to 224 bytes, with the source each came from. -/
def flitsOf (wid off : Nat) (src : Option PutSrc) : Nat → List Byte → List (OutFlit × Option PutSrc)
  | 0, _ => []
  | fuel + 1, bs =>
    let n := min 224 bs.length
    ({ type_ := 1, flg := bs.length ≤ 224, wid := wid, off := off, bytes := bs.take n }, src) ::
      (if bs.length ≤ 224 then [] else flitsOf wid (off + n) (src.map fun x => { x with pa := x.pa + n }) fuel (bs.drop n))

/-- Issue a `PUT` of bytes for an agent: ISSUED counts it and its flits leave. On a link that is down it completes with ERR at once. -/
def State.issuePut (s : State) (agent n wid off : Nat) (bs : List Byte) (src : Option PutSrc) : Nat × State :=
  let num := ((s.port n).pair wid).issued.n + 1
  let s := s.modPort n fun p => ({ p with puts := p.puts ++ [⟨wid, num⟩] } : Port).modPair wid fun q => { q with
    issued := q.issued.add ⟨s.keel, agent⟩ 1 }
  (num, if (s.port n).up then s.sendFlits n (flitsOf wid off src (bs.length / 224 + 1) bs) else s.putOver n true)

/-- A `PUT` of no bytes counts at once (R365). -/
def State.emptyPut (s : State) (n wid : Nat) : State :=
  let st : Stamp := ⟨s.keel, s.iss.src⟩
  s.modPort n fun p => p.modPair wid fun q => { q with issued := q.issued.add st 1, completed := q.completed.add st 1 }

def execPut (th : BitVec 4) (a b c : Reg) (wid : BitVec 16) (s : State) : Out :=
  let n := wid.toNat / 4096
  let w := wid.toNat % 4096
  let len := (s.scalar c).toNat
  if s.partOfPort n ≠ s.myPart then .next (s.fatal .illegal)
  else if len = 0 then .next (s.emptyPut n w)
  else if 2 ^ 24 < len then .next (s.fatal .badTether (th.setWidth 32))
  else .next (s.withTeth th fun s => s.tethered th (s.scalar a).toInt len false false fun t pa =>
    if 256 ≤ (s.port n).puts.length then s.stall
    else s.afterAccess fun s =>
      if s.readPoisoned t.ord pa len then s.poisoned
      else
        let (bs, s) := s.readAt t.ord pa len
        let (num, s) := s.issuePut s.iss.src n w (s.scalar b).toNat bs (some ⟨s.iss.src, pa, s.choices, 0⟩)
        let s := { s with choices := s.choices + 1 }
        s.modMe fun c => { c with puts := c.puts ++ [(wid.toNat, num)] })

-- Windows (R360, R364).

def State.window (s : State) (w : Nat) : Option Window := tfind s.windows w
def State.modWindow (s : State) (w : Nat) (f : Window → Window) : State :=
  { s with windows := s.windows.map fun x => if x.1 = w then (x.1, f x.2) else x }

def lowestFree (l : List (Nat × Window)) : Nat → Nat → Nat
  | 0, i => i
  | fuel + 1, i => if l.any fun w => w.1 = i then lowestFree l fuel (i + 1) else i

def execWreg (d : Reg) (th : BitVec 4) (a b : Reg) (s : State) : Out :=
  let len := (s.scalar b).toNat
  .next (s.withTeth th fun s => s.tethered th (s.scalar a).toInt len true false fun t pa =>
    let i := lowestFree s.windows 4096 0
    if len = 0 || 4096 ≤ i then s.setScalar d allOnes
    else
      let va := t.vanc.toNat / pageSize t.sz * pageSize t.sz + (pa - t.pbase)
      let lease := match s.walk s.myPart va with | .ok l => l.lease | .error _ => 0
      { (s.setScalar d (w64 i)) with
        windows := tput s.windows i { part := s.myPart, va := va, base := pa, len := len, exp := t.exp, lease := lease } })

/-- An inbound `PUT` is partway written into the window. -/
def State.putInto (s : State) (w : Nat) : Bool :=
  s.ports.any fun p => (p.2.inWid = some w && !p.2.inDrop) || p.2.inq.any fun f => f.1 = w

def execWdereg (a : Reg) (s : State) : Out :=
  let w := (s.scalar a).toNat % 4096
  match s.window w with
  | none => .next s
  | some x =>
    if x.part ≠ s.myPart then .next s
    else if s.putInto w then .next s.stall
    else .next { s with windows := tdel s.windows w }

-- WWAIT and WCNT (R366).

/-- The count a selector names, with ERR; none for an id the partition does not own. -/
def State.winCount (s : State) (sel : WinSel) (a : Nat) : Option (Tally × Bool) :=
  match sel with
  | .arr => match s.window (a % 4096) with
    | some w => if w.part = s.myPart then some (w.arrived, false) else none
    | none => none
  | _ =>
    let n := a / 4096 % 16
    let q := (s.port n).pair (a % 4096)
    if s.partOfPort n ≠ s.myPart then none
    else match sel with
      | .iss => some (q.issued, q.err)
      | _ => some (q.completed, q.err)

def execWwait (sel : WinSel) (a b : Reg) (s : State) : Out :=
  let id := (s.scalar a).toNat % 65536
  match s.winCount sel id with
  | none => .next (s.waitEnds 4 id 0xFFF 0 .sys)
  | some (c, _) =>
    if (s.scalar b).toNat ≤ c.seen ⟨s.keel, s.iss.src⟩ then .next (s.waitEnds 4 id c.by_ 0 .sys) else .next (s.waitOn 4 id none)

def execWcnt (sel : WinSel) (d a : Reg) (s : State) : Out :=
  .next (s.setScalar d (match s.winCount sel ((s.scalar a).toNat % 65536) with
    | none => allOnes
    | some (c, e) => w64 (c.seen ⟨s.keel, s.iss.src⟩ + 2 ^ 63 * b2n e)))

-- Inbound flits (R358, R361).

/-- Less than half of a window's lease remains (R311). -/
def Window.aging (x : Window) (keel : Nat) : Bool := decide (2 * x.exp < 2 * keel + x.lease)

/-- Renew a window's write lease (R360, R311): a page found at a new PA is used at that PA once the lease has lapsed. -/
def State.renewWindow (s : State) (w : Nat) : Option State :=
  match s.window w with
  | none => none
  | some x => match s.engineWalk x.part x.va true, s.walk x.part x.va with
    | some (.ok pa), .ok l =>
      if s.keel < x.exp && pa ≠ x.base then none
      else some (s.modWindow w fun x => { x with base := pa, exp := s.keel + l.lease - 64, lease := l.lease })
    | _, _ => none

/-- Perform the accepted DATA flits of a port in order while their windows' leases hold. -/
def State.perform : Nat → Nat → State → State
  | 0, _, s => s
  | fuel + 1, n, s =>
    let p := s.port n
    match p.inq with
    | [] => s
    | (_, _, [], _) :: rest =>
      -- the end of a dropped `PUT`: it completes with ERR
      State.perform fuel n ((s.modPort n fun p => { p with inq := rest, inLen := 0, doneTx := p.doneTx + 1 }).sendFlits n
        [({ type_ := 4, flg := true, off := p.doneTx + 1 }, none)])
    | (wid, off, bs, last) :: rest =>
      let ready : Option State := match s.window wid with
        | none => none
        | some x => if s.keel < x.exp then some s else s.renewWindow wid
      match ready with
      | none => s
      | some s =>
        let x := (s.window wid).getD { part := 0, va := 0, base := 0, len := 0 }
        let s := s.devWrite (portSrc n) x.part .sys (x.base + off) bs none
        let s := s.modPort n fun p => { p with inq := rest }
        let s := if last.not then s.modPort n fun p => { p with inLen := p.inLen + bs.length }
          else
            let len := p.inLen + bs.length
            let s := (s.settleSrc (portSrc n)).modWindow wid fun x => { x with
              arrived := x.arrived.add ⟨s.keel + 1, portSrc n⟩ len }
            (s.modPort n fun p => { p with inLen := 0, doneTx := p.doneTx + 1 }).sendFlits n
              [({ type_ := 4, off := p.doneTx + 1 }, none)]
        State.perform fuel n s

/-- A DATA flit in order. -/
def State.dataFlit (s : State) (n : Nat) (f : DataFlit) : State :=
  let p := s.port n
  let wid := f.wid.toNat
  let good := match s.window wid with
    | some x => x.part = s.partOfPort n && 1 ≤ f.bytes.length && f.bytes.length ≤ 224 && f.off.toNat + f.bytes.length ≤ x.len
    | none => false
  let drop := (p.inWid.isSome && p.inDrop) || !good
  let s := s.modPort n fun p => { p with inWid := if f.last then none else some wid, inDrop := drop && !f.last }
  if drop && !f.last then s
  else State.perform (p.inq.length + 1) n (s.modPort n fun p => { p with
    inq := p.inq ++ [if drop then (wid, 0, [], true) else (wid, f.off.toNat, f.bytes, f.last)] })

/-- INBOUND_DATA_FLIT (R361): `arg.a` is the port. -/
def execInboundDataFlit (s : State) : Out :=
  match s.arg.data with
  | none => .next s
  | some f => .next (s.inOrder s.arg.a f.ok f.seq.toNat f.ack.toNat fun s => s.dataFlit s.arg.a f)

/-- DONE_FLIT (R361): COMPLETED rises for every `PUT` it newly covers. -/
def execDoneFlit (s : State) : Out :=
  let n := s.arg.a
  match s.arg.ctl with
  | none => .next s
  | some f => .next (s.inOrder n f.ok f.seq.toNat f.ack.toNat fun s =>
      let new := f.off.toNat - (s.port n).doneRx
      (s.putsOver n f.err (min new (s.port n).puts.length)).modPort n fun p => { p with doneRx := p.doneRx + new })

/-- Resend every kept flit from a SEQ (R358); the link is down when one has been resent 8 times. -/
def State.resend (s : State) (n seq : Nat) : State :=
  let p := s.port n
  match indexOf? (fun f => f.1.seq = seq) p.replay 0 with
  | none => s
  | some i =>
    let again := (p.replay.drop i).map fun f => ({ f.1 with ack := p.ack }, f.2 + 1)
    let s := again.foldl (fun s f => s.emit (.flit n f.1)) s
    let s := s.modPort n fun p => { p with replay := p.replay.take i ++ again, ackTx := p.ack }
    if again.any fun f => 8 ≤ f.2 then s.postNow [(.linkDown, { a := n })] else s

/-- NAK_FLIT (R358): every flit before the SEQ it names has been received. -/
def execNakFlit (s : State) : Out :=
  let n := s.arg.a
  match s.arg.ctl with
  | none => .next s
  | some f => .next (s.inOrder n f.ok f.seq.toNat f.ack.toNat fun s => s.resend n (f.off.toNat % 65536))

/-- IDLE_FLIT (R357): only its ACK counts. `arg.b` is the TYPE byte: a flit of a TYPE from 5 is dropped and counted as an error. A flit
whose CRC fails is dropped and answered with a NAK (R358). -/
def execIdleFlit (s : State) : Out :=
  if !(s.port s.arg.a).up then .next s
  else match s.arg.ctl with
  | none => .next s
  | some f =>
    if !f.ok then .next (s.nak s.arg.a)
    else if 5 ≤ s.arg.b then .next (s.modPort s.arg.a fun p => { p with errors := p.errors + 1 })
    else .next (s.ackTo s.arg.a f.ack.toNat)

/-- A link goes down (R358): every `PUT` not complete on the port completes with ERR. -/
def State.linkDown (s : State) (n : Nat) : State :=
  if !(s.port n).up then s
  else (s.putsOver n true (s.port n).puts.length).modPort n fun p => { p with
    up := false, sync := false, replay := [], sendq := [], inq := [], inWid := none, inLen := 0, inDrop := false }

/-- LINK_DOWN (R358). -/
def execLinkDown (s : State) : Out := .next (s.linkDown s.arg.a)

/-- LINK_RETRAIN (R358): the link goes down where it is up, and starts with SEQ 0 and empty buffers; the next SYNC leaves at a multiple
of 1,000 ns. -/
def execLinkRetrain (s : State) : Out :=
  let n := s.arg.a
  .next ((s.linkDown n).modPort n fun p => { pairs := p.pairs, errors := p.errors, ackAt := s.keel, sentAt := s.keel / 1000 * 1000 })

/-- IDLE flits carry the ACKs that no other flit has carried (R357); those that repeat an ACK are left out (log 9). -/
def State.idleFlits (s : State) : State :=
  s.ports.foldl (fun s e =>
    let p := s.port e.1
    if !p.up || p.ackTx = p.ack then s
    else (s.emit (.flit e.1 { type_ := 0, ack := p.ack })).modPort e.1 fun p => { p with ackTx := p.ack }) s

-- The Keel across devices (R359, R272).

/-- Twice the offset a SYNC flit measures (R359). -/
def syncOffset (keel : Nat) (f : SyncFlit) : Int :=
  let a2 : Int := keel
  let a1 : Int := f.echo.toNat
  let hold : Int := f.hold.toNat
  let b1 : Int := f.time.toNat - hold
  2 * (b1 - a1) - (a2 - a1 - hold)

/-- SYNC_BEAT (R359, R272): `arg.a` is the port; the offset is measured once the far end has echoed a beat of this device, and
compared with 32 ns as twice it with 64, and with the 16 ns at which grants resume as twice it with 32. The clock is trimmed toward the
upstream neighbour's (log 62). -/
def execSyncBeat (s : State) : Out :=
  let n := s.arg.a
  match s.arg.sync with
  | none => .next s
  | some f =>
    if !(s.port n).up then .next s
    else if !f.ok then .next (s.nak n)
    else
      let s := (s.ackTo n f.ack.toNat).modPort n fun p => { p with echo := f.time.toNat, echoAt := s.keel, sync := true }
      if f.echo = 0 then .next s
      else
        let o := syncOffset s.keel f
        let s := s.modPort n fun p => { p with offset := o }
        let s := if Config.upstream = some n then { s with fw := { s.fw with trim := o.sign } } else s
        if 64 < o.natAbs then .next (if s.skew then s else s.skewFault)
        else if s.skew && s.ports.all fun p => !p.2.sync || p.2.offset.natAbs ≤ 32 then .next { s with skew := false }
        else .next s

/-- SYNC_FLIT_SEND (R359): `arg.a` is the port. -/
def execSyncFlitSend (s : State) : Out :=
  let n := s.arg.a
  let p := s.port n
  if !p.up then .next s
  else .next ((s.emit (.flit n { type_ := 2, off := s.keel, ack := p.ack
                                 bytes := leBytes 8 p.echo ++ leBytes 8 (if p.echo = 0 then 0 else s.keel - p.echoAt) })).modPort n
    fun p => { p with sentAt := s.keel / 1000 * 1000, ackTx := p.ack })

/-- PEER_COUNTER_READ (R362): a peer reads window `arg.b` across port `arg.a`. -/
def execPeerCounterRead (s : State) : Out :=
  let w := s.window s.arg.b
  .next (s.emit (.data ((w.elim [] fun w => leBytes 6 (w.arrived.seen ⟨s.keel, portSrc s.arg.a⟩) ++ leBytes 2 0 ++ leBytes 8 w.len) ++
    List.replicate (if w.isSome then 48 else 64) 0)))

/-- WINDOW_LEASE_RENEWAL (R360, R311): `arg.a` is the window; flits that waited for its lease are performed. -/
def execWindowLeaseRenewal (s : State) : Out :=
  match s.renewWindow s.arg.a with
  | none => .next s
  | some s => .next (s.ports.foldl (fun s p => State.perform p.2.inq.length p.1 s) s)

end Sys2Proof.Machine
end

