-- ==== Sys2Proof/Machine/Relay.lean ====
section
/-! DEFINITION. Relay engines (18 R319 to R326, 21 R367, 22 R368, R369): programs, the steps of a program, and the `RELAY`
instructions. A step reads and computes its whole block as it begins, and writes or sends it once it can. -/

namespace Sys2Proof.Machine

def relaySrc (e : Nat) : Nat := 2048 + e

/-- An engine reads now and sees its own earlier writes (R244, R369). -/
def State.relayView (s : State) (e : Nat) : Viewer := ⟨relaySrc e, some (s.partOfStack e), none, ⟨s.keel + 1, 0⟩, some 1, none⟩

/-- Memory as a program of engine `e` reads it (R369): each byte that it has written hides what the engine wrote there before, at any
stamp, and the writes of the engine's earlier programs are seen as those of any other source. -/
def State.programView (s : State) (e : Nat) : State :=
  let from_ := (s.relay e).first
  let mine := s.vers.filter fun v => v.src = relaySrc e && from_ ≤ v.seq
  { s with vers := s.vers.map fun v =>
      if v.src = relaySrc e then
        { (mine.filter fun w => decide (v.seq < w.seq)).foldl Ver.without v with dead := v.dead || decide (v.seq < from_) }
      else v }

/-- The endpoints of an engine's leases (R311, R319): 0 its program, 1 to 3 A, B and DST of its step, 4 a gate. -/
def State.relayHold (s : State) (e ep va n : Nat) (write : Bool) : State :=
  s.holdRange (relaySrc e) (s.partOfStack e) ep (va : Int) n write

/-- A range of virtual memory as engine `e` reads it. -/
def State.relayBytes (s : State) (e ep va n : Nat) : Option (Except Nat (List Byte)) :=
  (s.programView e).bytesUnder (s.heldBy (relaySrc e) ep) (s.relayView e) (s.partOfStack e) (va : Int) n

-- Steps (R320).

/-- A step record. -/
structure RStep where
  rec_ : List Byte
deriving DecidableEq, Repr

def RStep.f (r : RStep) (a n : Nat) : Nat := fieldAt r.rec_ a n
def RStep.op (r : RStep) : Nat := r.f 0 1
def RStep.gate (r : RStep) : Nat := bitsOf (r.f 4 1) 1 2
def RStep.sat (r : RStep) : Bool := r.f 4 1 % 2 = 1
def RStep.toff (r : RStep) : Nat := r.f 8 8
def RStep.nelem (r : RStep) : Nat := r.f 16 4
/-- `B` is read. -/
def RStep.two (r : RStep) : Bool := r.op = 1 || r.op = 2
/-- The output is sent. -/
def RStep.sends (r : RStep) : Bool := r.op < 2

def tyOf (c : Nat) : ETy :=
  match c with
  | 0 => .f32 | 1 => .f16 | 2 => .bf16 | 3 => .e4m3 | _ => .e5m2
def RStep.ta (r : RStep) : ETy := tyOf (r.f 1 1)
def RStep.tb (r : RStep) : ETy := tyOf (r.f 2 1)
def RStep.to (r : RStep) : ETy := tyOf (r.f 3 1)

/-- The step breaks R320. -/
def RStep.bad (r : RStep) : Bool :=
  3 < r.op || 4 < r.f 1 1 || 4 < r.f 2 1 || 4 < r.f 3 1 || (!r.two && r.f 2 1 ≠ 0) || r.gate = 3 || 8 ≤ r.f 4 1 ||
  r.f 5 3 ≠ 0 || r.nelem = 0 || 262144 < r.nelem || 2 ≤ r.f 22 1 || r.f 23 1 ≠ 0 || (!r.two && r.f 32 8 ≠ 0) ||
  (r.gate = 1 && r.f 48 8 % 8 ≠ 0)

/-- One output element (R321). -/
def RStep.elem (r : RStep) (a b : Nat) : Nat :=
  let x := ETy.num r.ta a
  let x := if r.two then fp32.num (fp32.round .rne false (Num.add .rne x (ETy.num r.tb b)).1).1 else x
  (((ETy.fmt r.to).getD fp32).round .rne r.sat x).1

/-- The bytes of a range after the outputs made so far, at their places from `dst`, have been written over it. -/
def overlaid (va : Nat) (bs : List Byte) (dst : Nat) (out : List (Option Byte)) : List Byte :=
  bs.zipIdx.map fun p =>
    let a := va + p.2
    if dst ≤ a then ((out[a - dst]?).join).getD p.1 else p.1

/-- Two ranges meet. -/
def meets (a n b m : Nat) : Bool := a < b + m && b < a + n

/-- The outputs of a step over the bytes from `va` on have all been made. -/
def madeOver (va w dst : Nat) (out : List (Option Byte)) : Bool :=
  (List.range w).all fun i => decide (va + i < dst) || (out[va + i - dst]?).all (·.isSome)

/-- Put an element into an order of rising turns. -/
def byTurn (turn : Nat → Nat) (j : Nat) : List Nat → List Nat
  | [] => [j]
  | k :: ks => if turn j < turn k then j :: k :: ks else k :: byTurn turn j ks

/-- The elements of a step in a free order: an input element whose overlapping outputs have all been made takes its old or its new
value, as it is chosen for that element, except where the ranges are equal (R368). `out` are the outputs so far, at their places. -/
def RStep.run (r : RStep) (seed da db dst : Nat) (as bs : List Byte) : List Nat → List (Option Byte) → List (Option Byte)
  | [], out => out
  | j :: js, out =>
    let wa := r.ta.width / 8
    let wb := r.tb.width / 8
    let wo := r.to.width / 8
    let get (va w : Nat) (old : List Byte) (k : Nat) : Nat :=
      let o := slice old (j * w) w
      if va ≠ dst && !r.sends && madeOver (va + j * w) w dst out && !(Config.overlapOld (seed * 2 ^ 24 + 2 * j + k)) then
        leVal (overlaid (va + j * w) o dst out)
      else leVal o
    let v := r.elem (get da wa as 0) (get db wb bs 1)
    RStep.run r seed da db dst as bs js (out.take (j * wo) ++ (leBytes wo v).map some ++ out.drop (j * wo + wo))

-- Programs (R320 to R322).

/-- The program of an engine ends, with a state and a code: its node completes or fails. -/
def State.relayEnds (s : State) (e state code : Nat) : State :=
  let r := s.relay e
  let s := (s.unhold (relaySrc e)).modRelay e fun r => { r with
    active := false, state := state, code := code, step := [], out := none, put := none, putErr := false, node := none }
  match r.node with
  | none => s
  | some n => if state = 4 then s.post .nodeCompletion { a := n } else s.failNode n

/-- The current step is complete. -/
def State.relayNext (s : State) (e : Nat) : State :=
  let s := s.modRelay e fun r => { r with done := r.done + 1, step := [], out := none, put := none, putErr := false }
  if (s.relay e).nstep ≤ (s.relay e).done then s.relayEnds e 4 0 else s

/-- What the engine finds of its next step. -/
inductive RFound where
  | wait (state : Nat)
  | fail (code : Nat)
  | go (r : RStep)
deriving DecidableEq, Repr

/-- The gate of a step (R321): it holds, does not, or its word cannot be read. -/
def State.gateHolds (s : State) (e : Nat) (r : RStep) : Option (Except Nat Bool) :=
  let part := s.partOfStack e
  match r.gate with
  | 1 =>
    match s.reach (s.heldBy (relaySrc e) 4) part (r.f 48 8) false with
    | none => none
    | some (.error w) => some (.error w.copyCode)
    | some (.ok pa) =>
      match paKind pa with
      | .device | .notify => some (.ok (decide (r.f 56 8 ≤ s.devRead pa 8)))
      | .peer => (match s.engineGet1 (s.relayView e) part pa 8 with
        | .error c => some (.error c)
        | .ok bs => some (.ok (decide (r.f 56 8 ≤ leVal bs))))
      | _ =>
        let s := s.programView e
        if s.poisonAt (s.relayView e) true part pa 8 then some (.error 10)
        else some (.ok (decide (r.f 56 8 ≤ leVal (s.bytesAt (s.relayView e) true part pa 8))))
  | 2 =>
    let n := match s.window (r.f 48 2) with
      | some w => if w.part = part then w.arrived.seen ⟨s.keel, relaySrc e⟩ else 0
      | none => 0
    some (.ok (decide (r.f 56 8 ≤ n)))
  | _ => some (.ok true)

/-- Whether the next step may begin (R321): `wait` says for time (1) or for its gate (2). -/
def State.relayFind (s : State) (e : Nat) : RFound :=
  let r := s.relay e
  match s.relayBytes e 0 (r.prog + 64 + 64 * r.done) 64 with
  | none => .wait 1
  | some (.error c) => .fail c
  | some (.ok bs) =>
    let x : RStep := ⟨bs⟩
    if s.keel < r.t0 + x.toff then .wait 1
    else if x.bad then .fail 1
    else match s.gateHolds e x with
      | none => .wait 2
      | some (.error c) => .fail c
      | some (.ok false) => .wait 2
      | some (.ok true) => .go x

/-- The state of R325. -/
def State.relayState (s : State) (e : Nat) : Nat :=
  let r := s.relay e
  if !r.active then r.state
  else if r.step ≠ [] then 3
  else match s.relayFind e with
    | .wait n => n
    | _ => 3

/-- The output of a step that has begun: it reads its blocks and computes. `none` waits for the walkers. -/
def State.relayOut (s : State) (e : Nat) (x : RStep) : Option (Except Nat (List Byte)) :=
  let na := x.nelem * x.ta.width / 8
  let nb := x.nelem * x.tb.width / 8
  let no := x.nelem * x.to.width / 8
  let va := x.f 24 8
  let vb := x.f 32 8
  let dst := x.f 40 8
  match s.relayBytes e 1 va na, (if x.two then s.relayBytes e 2 vb nb else some (.ok [])) with
  | none, _ => none
  | _, none => none
  | some (.error c), _ => some (.error c)
  | _, some (.error c) => some (.error c)
  | some (.ok as), some (.ok bs) =>
    let clash := !x.sends && ((va ≠ dst && meets va na dst no) || (x.two && vb ≠ dst && meets vb nb dst no))
    let order := (List.range x.nelem).foldl (fun l j => byTurn (Config.overlapTurn s.choices) j l) []
    some (.ok (if clash then (x.run s.choices va vb dst as bs order (List.replicate no none)).map (·.getD 0)
      else (List.range x.nelem).flatMap fun j =>
        leBytes (x.to.width / 8) (x.elem (fieldAt as (j * (x.ta.width / 8)) (x.ta.width / 8))
          (fieldAt bs (j * (x.tb.width / 8)) (x.tb.width / 8)))))

/-- The output of a step is sent, or written where it stands. `none` waits for room in the port or for a write grant. -/
def State.relayPut (s : State) (e : Nat) (x : RStep) (out : List Byte) : Option State :=
  let dst := x.f 40 8
  if x.sends then
    let n := 2 * e + x.f 22 1
    let w := x.f 20 2 % 4096
    if 256 ≤ (s.port n).puts.length then none
    else
      -- on a link that is down the `PUT` completes with ERR as it is issued
      let s := s.modRelay e fun r => { r with put := some (n * 4096 + w, ((s.port n).pair w).issued.n + 1) }
      some (s.issuePut (relaySrc e) n w dst out none).2
  else
    let s := s.relayHold e 3 dst out.length true
    match s.engineStore (s.heldBy (relaySrc e) 3) (relaySrc e) (s.partOfStack e) .sys ((s.relay e).by_.map fun t => (t, 3))
        (s.relay e).work (dst : Int) out with
    | none => none
    | some (.error c) => some (s.relayEnds e 5 c)
    | some (.ok s) => some (s.relayNext e)

/-- A step that has begun goes on: its output is computed once, and then goes out. -/
def State.relayGo (s : State) (e : Nat) (x : RStep) : Option State :=
  match (s.relay e).out with
  | some out => s.relayPut e x out
  | none =>
    let na := x.nelem * x.ta.width / 8
    let nb := x.nelem * x.tb.width / 8
    let s := s.relayHold e 1 (x.f 24 8) na false
    let s := if x.two then s.relayHold e 2 (x.f 32 8) nb false else s
    match s.relayOut e x with
    | none => none
    | some (.error c) => some (s.relayEnds e 5 c)
    | some (.ok out) =>
      let s := ({ s with choices := s.choices + 1 }).modRelay e fun r => { r with out := some out }
      some ((s.relayPut e x out).getD s)

/-- What a relay step does now; `none` where it still waits. A step begins at the first moment it may, and LATE is fixed then. -/
def State.relayTry (s : State) (e : Nat) : Option State :=
  let r := s.relay e
  if !r.active then none
  else match r.put with
    | some (oid, num) =>
      if s.putDone oid num then some (if r.putErr then s.relayEnds e 5 11 else s.relayNext e) else none
    | none =>
      if r.step ≠ [] then s.relayGo e ⟨r.step⟩
      else
        let s := s.relayHold e 0 (r.prog + 64 + 64 * r.done) 64 false
        match s.relayFind e with
        | .wait _ => none
        | .fail c => some (s.relayEnds e 5 c)
        | .go x =>
          let s := if x.gate = 1 then s.relayHold e 4 (x.f 48 8) 8 false else s
          let s := s.modRelay e fun r => { r with late := min (s.keel - (r.t0 + x.toff)) (2 ^ 32 - 1), step := x.rec_ }
          some ((s.relayGo e x).getD s)

/-- RELAY_STEP (R321): `arg.a` is the engine. -/
def execRelayStep (s : State) : Out := .next ((s.relayTry s.arg.a).getD s)

/-- Start the program at `va` on a free engine (R322, R324): the header is read and checked. `none` waits for the walkers. -/
def State.relayStart (s : State) (e va : Nat) (by_ node : Option Nat) : Option State :=
  let work := node.orElse fun _ => by_.bind fun t => (s.ctx t).node
  let fresh (r : Relay) : Relay :=
    { ever := true, prog := va, by_ := by_, node := node, work := work, late := r.late, first := s.seq }
  let s := s.modRelay e fresh
  match s.relayBytes e 0 va 64 with
  | none => none
  | some (.error c) => some (s.relayEnds e 5 c)
  | some (.ok h) =>
    let n := fieldAt h 0 2
    if n = 0 || 4096 < n || fieldAt h 2 6 ≠ 0 || fieldAt h 16 48 ≠ 0 then some (s.relayEnds e 5 1)
    else some (s.modRelay e fun r => { r with active := true, nstep := n, t0 := fieldAt h 8 8, state := 1 })

-- The RELAY instructions (R323 to R326).

/-- Run `k` where the thread's partition owns the engine; else ILLEGAL. -/
def State.withRelay (s : State) (e : BitVec 3) (k : Nat → State) : State :=
  if s.partOfStack e.toNat = s.myPart then k e.toNat else s.fatal .illegal

def execRstart (a : Reg) (e : BitVec 3) (s : State) : Out :=
  .next (s.withRelay e fun e => s.afterPublish .sys fun s =>
    if (s.relay e).active then s.waitOn 9 e none
    else match s.relayStart e (s.scalar a).toNat (some s.iss.src) none with
      | none => s.waitOn 9 e none
      | some s => s)

def execRwait (a : Reg) (e : BitVec 3) (s : State) : Out :=
  .next (s.withRelay e fun e =>
    let r := s.relay e
    if s.me.waitOver 9 then s.bound .sys
    else if !r.active || (s.scalar a).toNat < r.done then s.waitEnds 9 e (if r.ever then relaySrc e else 0xFFF) 0 .sys
    else s.waitOn 9 e none)

/-- The word of R325. -/
def State.rstat (s : State) (e : Nat) : Word :=
  let r := s.relay e
  w64 (r.late * 2 ^ 32 + r.code * 2 ^ 16 + s.relayState e * 2 ^ 13 + r.done)
def execRstat (d : Reg) (e : BitVec 3) (s : State) : Out := .next (s.withRelay e fun e => s.setScalar d (s.rstat e))

/-- The weights of RARB; 0 is taken as 1. -/
def weights (a : Word) : Nat × Nat := (max 1 (a.toNat % 256), max 1 (a.toNat / 256 % 256))
def execRarbHbm (a : Reg) (s : State) : Out :=
  .next (s.modPart s.myPart fun p => { p with wHbm := weights (s.scalar a) })
def execRarbLink (a : Reg) (s : State) : Out :=
  .next (s.modPart s.myPart fun p => { p with wLink := weights (s.scalar a) })

end Sys2Proof.Machine
end

