-- ==== Sys2Proof/Machine/Graph.lean ====
section
/-! DEFINITION. The end of a thread (04 R72), task graphs and the ready pool (12 R215 to R229). A node id names a node everywhere. -/

namespace Sys2Proof.Machine

-- Launches and nodes (R216).

def State.launch (s : State) (nid : Nat) : Option Launch := s.launches.find? fun l => l.id = nid / 4096 * 4096
def State.nodeOf (s : State) (nid : Nat) : Option Node := (s.launch nid).bind fun l => l.nodes.find? fun n => n.idx = nid % 4096
def State.modLaunch (s : State) (nid : Nat) (f : Launch → Launch) : State :=
  { s with launches := modFirst (fun (l : Launch) => l.id = nid / 4096 * 4096) f s.launches }
def Launch.modNode (l : Launch) (i : Nat) (f : Node → Node) : Launch :=
  { l with nodes := l.nodes.map fun n => if n.idx = i then f n else n }
def State.modNode (s : State) (nid : Nat) (f : Node → Node) : State := s.modLaunch nid fun l => l.modNode (nid % 4096) f

/-- Pool entries in use (R218). When an entry of an admitted node is freed is the model's choice (log 51): as the node completes or
fails; a node of a failed launch that is never reached keeps its entry. -/
def State.poolUsed (s : State) : Nat :=
  (s.launches.map fun l => (l.nodes.filter fun n => n.state < 4).length).sum

/-- Release a node's successors (R222, R224). -/
def Launch.release (l : Launch) (keel i : Nat) : Launch :=
  match l.nodes.find? fun n => n.idx = i with
  | none => l
  | some n =>
    if n.released then l
    else
      let l := l.modNode i fun n => { n with released := true }
      n.rec_.succ.foldl (fun l j => l.modNode j fun m => { m with rem := m.rem - 1, relAt := keel }) l

/-- A thread of the node is done: it has ended and owes no copy and no `PUT` (R222). -/
def State.threadDone (s : State) (n : Node) (t : Nat) : Bool :=
  n.fin.contains t && n.owed.all fun o => o.1 ≠ t || (o.2.1.isEmpty && o.2.2.all fun p => s.putDone p.1 p.2)

/-- Every thread of the node has ended and owes no copy and no `PUT`. -/
def State.threadsOver (s : State) (n : Node) : Bool := n.threads.all fun t => s.threadDone n t

/-- Every thread of the node has signalled or is done (R224). -/
def State.nodeSignalled (s : State) (n : Node) : Bool := n.threads.all fun t => n.sigd.contains t || s.threadDone n t

/-- Release the successors of a running node that is signalled (R224). -/
def State.signalNode (s : State) (nid : Nat) (n : Node) : State :=
  if n.state = 2 && s.nodeSignalled n then
    -- where every thread is done at that moment, its release is one by completion
    let done := s.threadsOver n
    (if done then s.settleNode nid else s).modLaunch nid fun l =>
      (l.modNode n.idx fun n => { n with state := 3, signalled := !done }).release s.keel n.idx
  else s

/-- A thread has signalled, or has ended (R222, R224). -/
def State.nodeStep (s : State) (nid : Nat) : State :=
  match s.nodeOf nid with
  | none => s
  | some n =>
    let s := s.signalNode nid n
    if n.threads.all fun t => n.fin.contains t then s.post .nodeCompletion { a := nid } else s

-- The end of a thread (R72, R406).

/-- Drop the causes that name a thread: what it caused runs on for itself. -/
def State.forget (s : State) (src : Nat) : State :=
  let x (x : Xfer) : Xfer := if x.by_ = some src then { x with by_ := none } else x
  { s with
    vers := s.vers.map fun v => { v with
      dead := v.dead || v.src = src
      by_ := v.by_.filter fun b => b.1 ≠ src }
    chans := s.chans.map fun c => (c.1, { c.2 with
      cur := c.2.cur.map x, shadow := c.2.shadow.map x
      subs := c.2.subs.map fun b => if b.by_ = some src then { b with by_ := none } else b })
    relays := s.relays.map fun r => (r.1, if r.2.by_ = some src then { r.2 with by_ := none } else r.2)
    psnGrid := s.psnGrid.filter fun p => p.1 ≠ src
    psnAcc := s.psnAcc.filter fun p => p.1 / 4 ≠ src }

/-- Free the regions of a key (R348). -/
def State.freeRegions (s : State) (key : Nat) : State :=
  { s with cells := s.cells.map fun c => (c.1, { c.2 with
      owners := c.2.owners.filter fun o => o.2 ≠ key, reload := c.2.reload.filter fun r => r.2.1 ≠ key }) }

/-- Free a context (R72): handles close in the name of `by_`, tethers are released, its team is left, and a string has its handler no
more. Without the publish a store that is not published keeps the expiry of its lease (R270, R406). -/
def State.endThread (s : State) (src by_ : Nat) : State :=
  let c := s.ctx src
  let part := s.partOfSrc src
  let s := c.teths.toList.foldl (fun s t => if t.stat = .none || t.stat = .released then s else
    ({ s with iss := { s.iss with src := src } } : State).flushTeth t) s
  let s := if c.mhs.toList.any (·.isOpen) then
      s.opAt part by_ fun st s => (List.range 16).foldl (fun s i => s.closeHandle src (BitVec.ofNat 4 i) st) s
    else s
  let key := s.teamKey src
  let s := s.leaveTeam src fun e => e.gone src
  let s := s.freeRegions (part * 2 ^ 20 + 2 ^ 17 + src % 2 ^ 17)
  let s := match c.team with
    | some t => if (s.teamOf part t).isSome then s else s.freeRegions key
    | none => s
  let s := s.unpin src
  let left (p : Pos) : Pos := { p with gone := p.gone || p.cell * 4 + p.slot = src }
  let s := { s with strs := s.strs.map fun (r : Str) => if r.handles src then { r with pos := r.pos.map left } else r }
  let s := { s with vers := s.vers.map fun (v : Ver) =>
    if v.src = src && v.due ≠ 0 && !v.dead then v.publish .part ⟨v.due, src⟩ else v }
  let s := (s.forget src).setCtx src {}
  match c.node with
  | none => s
  | some nid =>
    (s.modNode nid fun n => { n with
      fin := n.fin ++ [src]
      owed := if c.copies.isEmpty && c.puts.isEmpty then n.owed
        else n.owed ++ [(src, c.copies.map fun x => (x.1, x.2.1), c.puts)] }).nodeStep nid

/-- The engine writes that a thread caused are published no later than now (R243). -/
def State.settleMine (s : State) : State := (s.settle s.iss.src 2).settle s.iss.src 3

/-- EXIT (R72): the units come to rest, the stores are published, and the context is freed; in a node's thread it publishes as `GDONE`
does (R222). What a trap handler that exits had parked, the entries and streams of the code it interrupted, never runs (log 52). -/
def execExit (s : State) : Out :=
  if !s.quiet then .next s.stall
  else .next (s.afterPublish .part fun s => s.ordered fun s =>
    let s := if s.me.node.isSome then s.settleMine else s
    (s.endThread s.iss.src s.iss.src).moved)

-- GSIG and GDONE (R227).

def execGsig (s : State) : Out :=
  match s.me.node with
  | none => .next (s.fatal .illegal)
  | some nid => .next (s.afterPublish .part fun s =>
      (s.modNode nid fun n => { n with
        sigd := if n.sigd.contains s.iss.src then n.sigd else n.sigd ++ [s.iss.src] }).nodeStep nid)

def execGdone (s : State) : Out :=
  let c := s.me
  match c.node with
  | none => .next (s.fatal .illegal)
  | some _ =>
    if !s.quiet then .next s.stall
    else .next (s.deliverOr (fun _ => true) fun s =>
      if !c.copies.isEmpty || c.puts.any (fun p => !(s.putDone p.1 p.2)) then s.stall
      else s.afterPublish .part fun s => s.ordered fun s =>
        ((s.settleMine.modMe fun c => { c with puts := [] }).endThread s.iss.src s.iss.src).moved)

-- Node records (R215).

def nodeRecOf (b : List Byte) : NodeRec :=
  { kind := fieldAt b 0 1, pri := fieldAt b 1 1, tclass := fieldAt b 2 1, tsize := fieldAt b 3 1, target := fieldAt b 4 2
    preds := fieldAt b 6 2, entry := w64 (fieldAt b 8 8), arg := w64 (fieldAt b 16 8), deadline := fieldAt b 24 8
    ops := (List.range 6).map fun i => (w64 (fieldAt b (32 + 8 * i) 8), fieldAt b (80 + i) 1)
    succ := (List.range (min (fieldAt b 86 2) 16)).map fun i => fieldAt b (88 + 2 * i) 2 }

/-- The record keeps every limit of R215 in a graph of `n` nodes. -/
def nodeRecOk (b : List Byte) (n : Nat) : Bool :=
  let r := nodeRecOf b
  let runs := r.kind < 3
  r.kind < 5 && r.pri < 8 && (r.kind = 2 || r.kind = 4 || r.tclass < 4) &&
  (match r.kind with | 0 => r.tsize = 1 | 1 => 1 ≤ r.tsize && r.tsize ≤ 64 | _ => r.tsize = 0) &&
  (match r.kind with
   | 2 => true
   | 3 => r.target < 64
   | 4 => r.target < 8
   | _ => match r.tclass with | 0 => true | 1 => r.target < 256 | 2 => r.target < 64 | _ => r.target < 4) &&
  r.preds < 4096 && (if runs then r.entry.toNat % 8 = 0 else r.entry = 0) &&
  (r.ops.all fun o => o.2 < 8 && (o.2 % 4 = 0 || 4 ≤ o.2 || o.1.toNat < 2 ^ 48)) &&
  fieldAt b 86 2 ≤ 16 && r.succ.all (· < n) && fieldAt b (88 + 2 * r.succ.length) (32 - 2 * r.succ.length) = 0 &&
  fieldAt b 120 8 = 0

-- Launching (R217, R218).

/-- The packet keeps the table of R217. -/
def launchOk (b : List Byte) : Bool :=
  let flg := fieldAt b 1 1
  let n := fieldAt b 2 2
  fieldAt b 0 1 = 1 && flg < 2 && 1 ≤ n && n ≤ 4096 && fieldAt b 4 4 = 0 && fieldAt b 8 8 % 128 = 0 &&
  (flg = 0 || fieldAt b 16 8 % 8 = 0) && fieldAt b 32 32 = 0

/-- A record of kind 4 for a launch (R388). -/
def State.failedRecord (s : State) (part lid : Nat) : State :=
  s.postRecord part ⟨s.keel, 2056⟩ (noteBytes s.keel 0 4 lid 0 2056)

/-- The id of the packet in a queue's slot: given by `GLAUNCH` when it claimed, else the next. -/
def UQueue.launchId (u : UQueue) (q slot : Nat) : Nat := (tfind u.ids slot).getD (q * 2 ^ 54 + u.seq % 2 ^ 42 * 4096)

/-- Read the records of a launch (R218): `none` waits for the walkers. -/
def State.readNodes (s : State) (part graph n : Nat) : Nat → Option (Option (List NodeRec))
  | 0 => some (some [])
  | k + 1 =>
    match s.readNodes part graph n k with
    | some (some l) =>
      match s.engineBytes (s.engineView 2056 part) part ((graph + 128 * k : Nat) : Int) 128 with
      | none => none
      | some (.error _) => some none
      | some (.ok b) => some (if nodeRecOk b n then some (l ++ [nodeRecOf b]) else none)
    | r => r

/-- A node as it is admitted. -/
def nodeAt (keel i : Nat) (r : NodeRec) : Node := { idx := i, rec_ := r, rem := r.preds, relAt := keel }
/-- A node of a rejected launch. -/
def failedNode (i : Nat) : Node := { (nodeAt 0 i (nodeRecOf [])) with state := 5 }

/-- A launch that is rejected (R218): every node of it reads FAILED. -/
def State.rejectLaunch (s : State) (q lid n : Nat) : State :=
  let part := s.partOfQueue q
  ({ s with launches := s.launches ++
      [{ id := lid, part := part, queue := q, flag := none, nodes := (List.range (min n 4096)).map failedNode, ended := true }] } :
    State).failedRecord part lid

/-- The launch packet handed over by queue `q` is admitted, or rejected (R218); `none` waits. -/
def State.admitLaunch (s : State) (q : Nat) (b : List Byte) (lid : Nat) : Option State :=
  let part := s.partOfQueue q
  let n := fieldAt b 2 2
  let s0 := s.modQueue q fun u => { u with hand := none, ids := tdel u.ids (u.ridx - 1) }
  let flag := if fieldAt b 1 1 = 1 then some (w64 (fieldAt b 16 8), w64 (fieldAt b 24 8)) else none
  let reject := s0.rejectLaunch q lid n
  if !(launchOk b) then some reject
  else if Config.poolEntries < s.poolUsed + n then none
  else match s.readNodes part (fieldAt b 8 8) n n with
    | none => none
    | some none => some reject
    | some (some rs) => some { s0 with launches := s0.launches ++
        [{ id := lid, part := part, queue := q, flag := flag, nodes := rs.zipIdx.map fun p => nodeAt s.keel p.2 p.1 }] }

/-- The packet of a slot has been taken: where no `GLAUNCH` gave it an id, the queue's sequence number rises (R216). That a rejected
packet uses up a number too is the model's choice (log 51). -/
def State.countLaunch (s : State) (q slot : Nat) (u : UQueue) : State :=
  if (tfind u.ids slot).isSome then s else s.modQueue q fun u => { u with seq := (u.seq + 1) % 2 ^ 42 }

/-- LAUNCH_ADMIT (R216, R218): `arg.a` is the queue. -/
def execLaunchAdmit (s : State) : Out :=
  let q := s.arg.a
  let u := s.queue q
  match u.hand with
  | none => .next s
  | some b =>
    let lid := u.launchId q (u.ridx - 1)
    match s.admitLaunch q b lid with
    | none => .next s
    | some t => .next (t.countLaunch q (u.ridx - 1) u)

/-- A queue is configured (R385). -/
def UQueue.configured (u : UQueue) : Bool := u.weight ≠ 0 && u.len ≠ 0

/-- A claimed slot of a queue is written once it is free, and the queue notified (R386). A ring that no longer translates gives all
ones (log 51). -/
def State.glaunchPut (s : State) (d : Reg) (c : Claim) : State :=
  let u := s.queue c.queue
  let drop (s : State) : State := s.modMe fun x => { x with claims := x.claims.filter (· ≠ c) }
  if u.ridx + u.len ≤ c.slot then s.waitOn 9 c.queue none
  else match s.engineWalk s.myPart (u.base + 64 * (c.slot % u.len)) true with
    | none => s.waitOn 9 c.queue none
    | some (.error _) => (drop s).setScalar d allOnes
    | some (.ok pa) =>
      let s := s.addAt s.iss.src s.myPart s.myCell ⟨s.keel, s.iss.src⟩ .part pa c.pkt 0 s.iss.phase
      ((drop s).modQueue c.queue fun u => { u with look := true }).setScalar d (w64 c.lid)

/-- GLAUNCH claims the next slot of a queue (R226, R386). -/
def State.claimSlot (s : State) (q : Nat) (pkt : List Byte) : Claim × State :=
  let u := s.queue q
  let lid := q * 2 ^ 54 + u.seq % 2 ^ 42 * 4096
  let c : Claim := { pc := s.iss.pc, queue := q, slot := u.widx, lid := lid, pkt := pkt }
  (c, (s.modQueue q fun u => { u with widx := u.widx + 1, seq := (u.seq + 1) % 2 ^ 42, ids := tput u.ids u.widx lid }).modMe fun x =>
    { x with claims := x.claims ++ [c] })

/-- GLAUNCH (R226): a slot it has claimed stays claimed while it waits. -/
def execGlaunch (d a : Reg) (q : BitVec 10) (s : State) : Out :=
  let q := q.toNat
  let x := (s.scalar a).toNat
  match s.me.claims.find? fun c => c.pc = s.iss.pc && c.queue = q with
  | some c => .next (s.glaunchPut d c)
  | none => .next (s.afterAccess fun s => s.afterPublish .part fun s =>
    if x % 8 ≠ 0 || !(spadOk x 64) then s.fatal .spadRange
    else s.withSpad x 64 fun s =>
      if s.spadPoisoned s.myCell x 64 then s.poisoned
      else
        let pkt := s.spadRead s.pathL s.myCell x 64
        let u := s.queue q
        if s.partOfQueue q ≠ s.myPart || !u.configured || fieldAt pkt 0 1 ≠ 1 then s.setScalar d allOnes
        else match s.engineWalk s.myPart (u.base + 64 * (u.widx % u.len)) true with
          | none => s.waitOn 9 q none
          | some (.error _) => s.setScalar d allOnes
          | some (.ok _) =>
            let (c, s) := s.claimSlot q pkt
            s.glaunchPut d c)

-- Readiness (R219).

/-- A used operand. -/
def opUsed (o : Word × Nat) : Bool := o.2 % 4 ≠ 0
def opByName (o : Word × Nat) : Bool := 4 ≤ o.2

/-- The operands declared by name and not bound, one bit each. -/
def State.unbound (s : State) (part : Nat) (r : NodeRec) : Nat :=
  (r.ops.zipIdx.map fun p =>
    if opUsed p.1 && opByName p.1 && (s.part part).dir.bound p.1.1.toNat = 0 then 2 ^ p.2 else 0).sum

/-- The contexts of a WAVE node, member 0 first: from the rig record at ARG, where the pool can read it. -/
def State.waveSeats (s : State) (part : Nat) (r : NodeRec) : Option (List Nat) :=
  let vw := s.engineView 2056 part
  match s.engineBytes vw part (r.arg.toNat : Int) 32 with
  | some (.ok h) =>
    let n := fieldAt h 0 1
    match s.engineBytes vw part ((r.arg.toNat + 32 : Nat) : Int) (32 * n) with
    | some (.ok es) => some (fieldAt h 16 2 :: (List.range n).map fun i => fieldAt es (32 * i) 2 * 4 + fieldAt es (32 * i + 2) 1 % 4)
    | _ => none
  | _ => none

/-- The node is ready (R219). A `WAVE` node whose rig record cannot be reached is not, and waits (log 51). -/
def State.nodeReady (s : State) (part : Nat) (n : Node) : Bool :=
  n.state = 0 && n.rem = 0 && s.unbound part n.rec_ = 0 &&
  (n.rec_.kind ≠ 2 || match s.waveSeats part n.rec_ with
    | none => false
    | some l => (l.drop 1).all fun src => !(s.strs.any fun r => r.pos.any fun p => p.cell = cellOf src))

-- Dispatch (R219 to R221).

/-- A context may take a new thread (R392, R406): free, its cell holds no frozen context, and no restore waits for it. -/
def State.seatFree (s : State) (part src : Nat) : Bool :=
  src < 1024 && s.partOfSrc src = part && (s.ctx src).status = .free &&
  ((List.range 4).all fun i => let st := (s.ctx (src / 4 * 4 + i)).status; st ≠ .frozen && st ≠ .attached) &&
  s.slots.all fun k => !k.restoring || k.members.all fun m => m.1 ≠ src

/-- The contexts TCLASS and TARGET allow. -/
def placeOk (r : NodeRec) (src : Nat) : Bool :=
  match r.tclass with
  | 0 => true
  | 1 => cellOf src = r.target
  | 2 => columnOf (cellOf src) = r.target
  | _ => cellOf src / 64 = r.target

/-- Choose `n` of some contexts freely. -/
def chooseSeats : Nat → Nat → List Nat → List Nat
  | 0, _, _ => []
  | n + 1, k, l =>
    match l[Config.placement k % l.length]? with
    | none => []
    | some x => x :: chooseSeats n (k + 1) (l.filter (· ≠ x))

/-- The seats of a node that starts threads, if its engine is free. -/
def State.seats (s : State) (part : Nat) (r : NodeRec) : Option (List Nat) :=
  if r.kind = 2 then
    match s.waveSeats part r with
    | none => none
    | some l => if l.all (s.seatFree part) && l.eraseDups.length = l.length then some l else none
  else
    let l := (List.range 1024).filter fun src => s.seatFree part src && placeOk r src
    if r.tsize ≤ l.length then some (chooseSeats r.tsize s.choices l) else none

/-- The channel of a COPY node. -/
def nodeChan (r : NodeRec) : Nat := 4 * r.target + r.tclass % 4

/-- The engine of a node's kind is free. -/
def State.engineFree (s : State) (part : Nat) (r : NodeRec) : Bool :=
  match r.kind with
  | 3 => s.partOfCell r.target = part && (s.chan (nodeChan r)).pend ≤ 1
  | 4 => s.partOfStack r.target = part && !(s.relay r.target).active
  | _ => (s.seats part r).isSome

/-- The order of dispatch (R219): `a` comes before `b`; each is a launch id and a node. -/
def nodeBefore (a b : Nat × Node) : Bool :=
  let k (d : Nat) : Nat := if d = 0 then 2 ^ 64 else d
  let x := a.2.rec_
  let y := b.2.rec_
  if x.pri ≠ y.pri then y.pri < x.pri
  else if k x.deadline ≠ k y.deadline then k x.deadline < k y.deadline
  else if a.1 ≠ b.1 then a.1 < b.1 else a.2.idx < b.2.idx

/-- A queue's nodes may be dispatched (R387, R391): it is mapped, its slice does not end, and no team of it stands saved by the
scheduler. -/
def State.queueRuns (s : State) (q : Nat) : Bool :=
  (s.queue q).slot.isSome && !(s.queue q).slicing && s.slots.all fun k => k.host || k.queue ≠ some q || k.members.isEmpty

/-- The nodes of a partition that are ready now and were released before now. -/
def State.readyNodes (s : State) (part : Nat) : List (Nat × Node) :=
  (s.launches.filter fun l => l.part = part && s.queueRuns l.queue).flatMap fun l =>
    (l.nodes.filter fun n => n.relAt < s.keel && s.nodeReady part n).map fun n => (l.id, n)

/-- The objects of a node's operands at the dispatch stamp (R221): operand index, object and mode; none where an object is not
live. -/
def State.operands (s : State) (part : Nat) (r : NodeRec) : Option (List (Nat × Nat × HMode)) :=
  let d := (s.part part).dir
  let mode (m : Nat) : HMode := match m % 4 with | 1 => .r | 2 => .w | _ => .rw
  let l := (r.ops.zipIdx.filter fun p => opUsed p.1).map fun p =>
    (p.2, if opByName p.1 then d.bound p.1.1.toNat else p.1.1.toNat, mode p.1.2)
  if l.all fun o => (tfind d.objs o.2.1).isSome then some l else none

/-- The lowest free team id of the pool's range (R220). -/
def State.freeTeam (s : State) (part : Nat) : Option Nat :=
  let used (i : Nat) : Bool := (s.teamOf part i).isSome || s.slots.any fun k => k.part = part && k.team = some i
  ((List.range 32768).map (· + 32768)).find? fun i => !(used i)

/-- Start the thread of member `i` in a context (R12, R220). -/
def State.startThread (s : State) (nid : Nat) (r : NodeRec) (q : Nat) (team : Option Nat) (ops : List (Nat × Nat × HMode))
    (i src : Nat) : State :=
  let c : Ctx := { status := .run, pc := r.entry, hzn := ⟨s.keel, src⟩, lastB := s.keel + 1, phase := 1, node := some nid
                   ceiling := (s.queue q).ceiling, team := team }
  let c := (((c.setReg 1 r.arg).setReg 2 (w64 nid)).setReg 3 (w64 i)).setReg 4 (team.elim allOnes w64)
  let s := { s.setCtx src c with iss := { s.iss with src := src } }
  ops.foldl (fun s o => s.openHandle (BitVec.ofNat 4 o.1) o.2.1 o.2.2) s

/-- The writes of a node's predecessors that released it by completion are ordered before every access of the node (R224, R245). -/
def State.orderPreds (s : State) (l : Launch) (nid : Nat) : State :=
  let ps := (l.nodes.filter fun n => n.released && !n.signalled && n.rec_.succ.contains (nid % 4096)).map fun n => l.id + n.idx
  if ps.isEmpty then s else s.orderAll (fun w => w.node.any ps.contains) 0 [nodeAgent nid]

/-- A node that starts threads. -/
def State.dispatchThreads (s : State) (part nid q : Nat) (n : Node) (ops : List (Nat × Nat × HMode)) : State :=
  match s.seats part n.rec_ with
  | none => s
  | some l =>
    let team := if n.rec_.kind = 0 then none else s.freeTeam part
    if n.rec_.kind ≠ 0 && team.isNone then s
    else
      let s := { s with choices := s.choices + l.length }
      let s := match team with
        | some t =>
          let new : Team := { part := part, id := t, members := l.zipIdx.map fun (p : Nat × Nat) => (p.2, p.1) }
          { s with teams := s.teams ++ [new] }
        | none => s
      let s := l.zipIdx.foldl (fun s p => s.startThread nid n.rec_ q team ops p.2 p.1) s
      s.modNode nid fun n => { n with state := 2, threads := l, team := team }

/-- A failed dispatch (R219). -/
def State.failDispatch (s : State) (nid code : Nat) : State := (s.modNode nid fun n => { n with code := code }).failNode nid

/-- A COPY or RELAY node; `none` waits for the walkers. -/
def State.dispatchEngine (s : State) (part nid : Nat) (n : Node) (ops : List (Nat × Nat × HMode)) : Option State :=
  let r := n.rec_
  let hold (s : State) : State :=
    (ops.foldl (fun s o => s.holdObj part o.2.1) s).modNode nid fun n => { n with state := 2, held := ops.map (·.2.1) }
  if r.kind = 3 then
    let ch := nodeChan r
    if (s.chan ch).len = 0 then some (s.failDispatch nid 1)
    else match s.engineBytes (s.engineView 2056 part) part (r.arg.toNat : Int) 64 with
      | none => none
      | some (.error c) => some (s.failDispatch nid c)
      | some (.ok pkt) => match s.engineWalk part ((s.chan ch).base + 64 * ((s.chan ch).widx % (s.chan ch).len)) true with
        | none => none
        | some (.error w) => some (s.failDispatch nid w.copyCode)
        | some (.ok _) => match (hold s).submit ch pkt (chanSrc ch) none (some nid) false with
          | some (.ok (w, _, s)) => some (s.modNode nid fun n => { n with xfer := some (ch, w) })
          | _ => none
  else match s.engineBytes (s.engineView 2056 part) part (r.arg.toNat : Int) 64 with
    | none => none
    | some (.error c) => some (s.failDispatch nid c)
    | some (.ok _) => (hold s).relayStart r.target r.arg.toNat none (some nid)

/-- A ready node's dispatch need not wait for the walkers. -/
def State.startable (s : State) (part : Nat) (p : Nat × Node) : Bool :=
  p.2.rec_.kind < 3 || (s.operands part p.2.rec_).all fun ops => (s.dispatchEngine part (p.1 + p.2.idx) p.2 ops).isSome

/-- The ready nodes of a partition whose engine is free. -/
def State.freeNodes (s : State) (part : Nat) : List (Nat × Node) :=
  (s.readyNodes part).filter fun p => s.engineFree part p.2.rec_ && s.startable part p

/-- The node dispatched next: the first ready node whose engine is free. Directory operations of this nanosecond come first. -/
def State.nextNode (s : State) (part : Nat) : Option (Nat × Node) :=
  if s.keel ≤ (s.part part).ops.keel then none
  else
    let l := s.freeNodes part
    l.find? fun p => l.all fun q => !(nodeBefore q p)

/-- Since when each node is ready and its engine free (R219). -/
def State.poolTick (s : State) : State :=
  { s with launches := s.launches.map fun l => { l with nodes := l.nodes.map fun n =>
      let free := n.state = 0 && s.queueRuns l.queue && s.nodeReady l.part n && s.engineFree l.part n.rec_
      { n with freeFrom := if free then some (n.freeFrom.getD s.keel) else none } } }

/-- A node of the partition must be dispatched now: one is dispatched in a nanosecond, and each within 256 (R219). -/
def State.nodeDue (s : State) (part : Nat) : Bool :=
  let l := s.freeNodes part
  l.any fun p => p.2.freeFrom.any fun t => decide (t + 255 ≤ s.keel + l.length)

/-- NODE_DISPATCH (R219): `arg.a` is the node, which is the next of its partition. -/
def execNodeDispatch (s : State) : Out :=
  let nid := s.arg.a
  match s.launch nid with
  | none => .next s
  | some l =>
    match s.nextNode l.part with
    | none => .next s
    | some (lid, n) =>
      if lid + n.idx ≠ nid then .next s
      else
        let s := (s.modPart l.part fun p => { p with ops := ⟨s.keel, 4095⟩ }).orderPreds l nid
        match s.operands l.part n.rec_ with
        | none => .next (s.failNode nid)
        | some ops =>
          if n.rec_.kind < 3 then .next (s.dispatchThreads l.part nid l.queue n ops)
          else .next ((s.dispatchEngine l.part nid n ops).getD s)

-- Completion (R222, R223).

/-- The completion flag of a launch whose nodes have all completed, by the completion of `src` (R222). `none` waits. -/
def State.launchFlag (s : State) (l : Launch) (src : Nat) : Option State :=
  match l.flag with
  | none => some s
  | some (va, v) =>
    match s.engineFlag l.part va.toNat v.toNat ⟨s.keel + 1, src⟩ with
    | none => none
    | some (.ok s) => some s
    | some (.error _) => some (s.failedRecord l.part l.id)

/-- Objects that the pool held for a node are let go, in the name of `src`. -/
def State.dropHeld (s : State) (part src : Nat) (n : Node) : State :=
  if n.held.isEmpty then s else s.opAt part src fun st s => n.held.foldl (fun s o => s.dropObj part o st) s

/-- Complete a node: its operands are let go, its successors released with its engine writes published (R224), and the launch ended
with its last node. -/
def State.completeNode (s : State) (nid : Nat) (n : Node) (src : Nat) : Option State :=
  let part := ((s.launch nid).map (·.part)).getD 0
  let s := s.dropHeld part src n
  let s := if n.signalled then s else s.settleNode nid
  let s := s.modLaunch nid fun l =>
    (l.modNode n.idx fun n => { n with state := 4, doneAt := s.keel, held := [] }).release s.keel n.idx
  match s.launch nid with
  | none => some s
  | some l =>
    if l.ended || !(l.nodes.all fun n => n.state = 4) then some s
    else (s.launchFlag l src).map fun s => s.modLaunch nid fun l => { l with ended := true }

/-- Bring a transfer or program of a completed node to its successors: its engine's writes are published by now (R224). -/
def Node.engineSrc (n : Node) : Nat :=
  match n.rec_.kind with
  | 3 => chanSrc (nodeChan n.rec_)
  | 4 => relaySrc n.rec_.target
  | _ => (n.fin.getLast?).getD 2056

/-- A node failed: what the pool holds for it is let go, and the launch's record is posted once (R223, R388). -/
def State.nodeFailed (s : State) (nid : Nat) : State :=
  match s.launch nid, s.nodeOf nid with
  | some l, some n =>
    let s := (s.dropHeld l.part n.engineSrc n).modNode nid fun n => { n with held := [] }
    if l.ended then s else (s.modLaunch nid fun l => { l with ended := true }).failedRecord l.part l.id
  | _, _ => s

/-- NODE_COMPLETION (R222 to R224): `arg.a` is the node, or for a COPYREQ the packet's number; `arg.flg` says that it failed. A
node that is signalled by what an ended thread owed releases its successors. -/
def execNodeCompletion (s : State) : Out :=
  let nid := s.arg.a
  if 2 ^ 64 ≤ nid then
    .next (if s.arg.flg then
      ({ s with choices := s.choices + 1 } : State).failedRecord (s.partOfQueue (nid - 2 ^ 64)) (Config.copyreqId s.choices).toNat
      else s)
  else if s.arg.flg then .next (s.nodeFailed nid)
  else match s.nodeOf nid with
    | none => .next s
    | some n =>
      let fin := if n.rec_.kind < 3 then s.threadsOver n else true
      if (n.state = 2 || n.state = 3) && fin then
        match s.completeNode nid n n.engineSrc with
        | some t => .next t
        | none => .next s
      else .next (if n.rec_.kind < 3 then s.signalNode nid n else s)

-- GADD and GQRY (R228, R229).

/-- GADD (R228): a record whose PREDS is not 0 is answered with all ones (log 51). -/
def execGadd (d a : Reg) (s : State) : Out :=
  match s.me.node with
  | none => .next (s.fatal .illegal)
  | some nid =>
    let x := (s.scalar a).toNat
    if x % 8 ≠ 0 || !(spadOk x 128) then .next (s.fatal .spadRange)
    else .next (s.afterAccess fun s => s.withSpad x 128 fun s =>
      if s.spadPoisoned s.myCell x 128 then s.poisoned
      else match s.launch nid, s.nodeOf nid with
        | some l, some me =>
          let b := s.spadRead s.pathL s.myCell x 128
          let r := nodeRecOf b
          let k := l.nodes.length
          if !(nodeRecOk b k) || r.preds ≠ 0 || 4096 ≤ k ||
              !(r.succ.all fun i => (l.nodes.find? fun n => n.idx = i).any fun n => n.state = 0) then s.setScalar d allOnes
          else if Config.poolEntries ≤ s.poolUsed then s.stall
          else
            let n := { nodeAt s.keel k r with rem := if me.released then 0 else 1 }
            let s := s.modLaunch nid fun l =>
              let l := if me.released then l
                else l.modNode me.idx fun m => { m with rec_ := { m.rec_ with succ := m.rec_.succ ++ [k] } }
              let l := r.succ.foldl (fun l i => l.modNode i fun m => { m with rem := m.rem + 1 }) l
              { l with nodes := l.nodes ++ [n] }
            s.setScalar d (w64 (l.id + k))
        | _, _ => s.fatal .illegal)

/-- The word of GQRY about a node of the thread's partition. -/
def State.gqry (s : State) (l : Launch) (n : Node) (sel : Nat) : Nat :=
  let late := n.rec_.deadline ≠ 0 && n.rec_.deadline < (if n.state = 4 then n.doneAt else s.keel)
  match sel with
  | 0 => (if n.state = 0 && s.nodeReady l.part n then 1 else n.state) + 8 * b2n late
  | 1 => n.rem
  | 2 => s.unbound l.part n.rec_
  | 3 => (l.nodes.filter fun n => n.state ≠ 4).length
  | _ => n.doneAt

def execGqry (d a : Reg) (sel : BitVec 4) (s : State) : Out :=
  let nid := (s.scalar a).toNat
  .next (s.setScalar d (match s.launch nid, s.nodeOf nid with
    | some l, some n => if l.part = s.myPart then w64 (s.gqry l n sel.toNat) else allOnes
    | _, _ => allOnes))

end Sys2Proof.Machine
end

