-- ==== Sys2Proof/Machine/Debug.lean ====
section
/-! DEFINITION. The debugger (25 R401 to R403, R406): halts, steps, breakpoints, edits, and the release of a dump. Each event's
`arg.a` is the thread. -/

namespace Sys2Proof.Machine

/-- HALT (R402): inside a `LOOPP` body it waits for the next kernel-iteration boundary (R70). -/
def State.halt (s : State) (src : Nat) : State :=
  let c := s.ctx src
  if c.status ≠ .run && c.status ≠ .sleeping then s
  else if c.inLoopp then s.modCtx src fun c => { c with haltWait := true }
  else s.haltCtx src

def execHalt (s : State) : Out := .next (s.halt s.arg.a)

/-- The channels that stood still for a halted thread and run again: their promises have moved on by that time (R402). -/
def State.standGo (s : State) : State :=
  { s with chans := s.chans.map fun c =>
      if c.2.held || c.2.stood = 0 || s.chanStands c.2 then c else (c.1, { c.2.later c.2.stood with stood := 0 }) }

/-- A halted thread goes on exactly (R402): edits reach it, its string thaws unless it holds a trap, and its first issue matches
no breakpoint. A transfer that stood still with it goes on. -/
def State.resumeCtx (s : State) (src : Nat) (step : Bool) : State :=
  if (s.ctx src).status ≠ .halted then s
  else
    let s := (s.patchRec src (s.dbg src).edits).modDbg src fun d => { d with edits := [] }
    let s := s.modCtx src fun c => { c with status := c.resumeTo, resumeTo := .run, stepping := step, bpSkip := true }
    let s := s.standGo
    if (s.ctx src).tstate.getLsbD 0 then s else s.thawStr src

def execResume (s : State) : Out := .next (s.resumeCtx s.arg.a false)
/-- STEP (R402): one issue at the control core, then it halts again. -/
def execStep (s : State) : Out := .next (s.resumeCtx s.arg.a true)

/-- ATTACH (R406): the hold timer stops. -/
def execAttach (s : State) : Out :=
  .next (if (s.ctx s.arg.a).status = .frozen then s.modCtx s.arg.a fun c => { c with status := .attached } else s)

/-- The context of a dump ends as `EXIT` ends it, without the publish, in the name of `by_`; its string stays frozen, whatever runs in the
context later, until it is unrigged, and its node FAILED (R406). -/
def State.releaseCtx (s : State) (src by_ : Nat) : State := (s.endThread src by_).modDbg src fun d => { d with edits := [] }

def execRelease (s : State) : Out :=
  let st := (s.ctx s.arg.a).status
  .next (if st = .frozen || st = .attached then s.releaseCtx s.arg.a 2056 else s)

/-- HOLD_TIME_EXPIRY (R406). -/
def execHoldTimeExpiry (s : State) : Out :=
  .next (if (s.ctx s.arg.a).status = .frozen && decide ((s.dbg s.arg.a).holdTill ≤ s.keel) then s.releaseCtx s.arg.a s.arg.a else s)

/-- DDATA_WRITE (R401): `arg.w` is the 8 bytes. -/
def execDdataWrite (s : State) : Out := .next (s.dbgWrite s.arg.a 0x18 s.arg.w.toNat)

/-- BREAKPOINT_MATCH (R403): `arg.b` is the breakpoint; `arg.flg` that the match was deferred and its boundary has come, where the body's
end word may have put the thread to sleep. -/
def execBreakpointMatch (s : State) : Out :=
  let src := s.arg.a
  let n := s.arg.b
  let c := s.ctx src
  if c.status ≠ .run && !(s.arg.flg && c.status = .sleeping) then .next s
  else if c.inLoopp && !s.arg.flg then .next (s.modCtx src fun c => { c with bpWait := some (BitVec.ofNat 2 n) })
  else if (((s.dbg src).bps[n]?).getD 0).getLsbD 1 then .next (s.haltCtx src)
  else .next (({ s with iss := { src := src, pc := c.pc } } : State).trap .brk (BitVec.ofNat 32 (0x80000000 + n)))

end Sys2Proof.Machine
end

