-- ==== Sys2Proof/Machine/Operands.lean ====
section
/-! DEFINITION. Operands of the execute unit (03 R35 to R37, 02 R22 to R25, 07 R115 to R121): queue waits, operand latches, grid
rows, columns and diagonals, broadcasts, and destinations under a lane mask. -/

namespace Sys2Proof.Machine

-- Grid vectors.

/-- The row and word of lane `j` of a column or diagonal; a row field names one row. -/
def gridAt (k : BitVec 4) : Dst → Nat → Nat × Nat
  | .row i, j => ((physRow k i).toNat, j)
  | .col i, j => (j, i.toNat)
  | .diag i, j => (j, (j + i.toNat) % 48)
  | .queue _, j => (0, j)

/-- A vector of the grid. -/
def Ctx.gridVec (c : Ctx) (k : BitVec 4) (d : Dst) : Row :=
  rowOfWords ((List.range 48).map fun j => let p := gridAt k d j; rowWord (c.row p.1) p.2)

/-- Write the lanes `m` of a vector into the grid. -/
def Ctx.putVec (c : Ctx) (k : BitVec 4) (d : Dst) (m : BitVec 48) (v : Row) : Ctx :=
  (List.range 48).foldl (fun c j =>
    if m.getLsbD j then let p := gridAt k d j; c.setRow p.1 (rowSetWord (c.row p.1) p.2 (rowWord v j)) else c) c

/-- A lane of a grid vector lies in a poisoned granule. -/
def State.gridPoisoned (s : State) (d : Dst) : Bool :=
  (List.range 48).any fun j => let p := gridAt s.iss.rrb d j; s.psnGrid.contains (s.iss.src, p.1, p.2 / 8)

/-- Granules of a row written in all their lanes are poisoned no longer. -/
def State.cleanRow (s : State) (d : Dst) (m : BitVec 48) : State :=
  match d with
  | .row i =>
    let r := (physRow s.iss.rrb i).toNat
    { s with psnGrid := s.psnGrid.filter fun p =>
        !(p.1 = s.iss.src && p.2.1 = r && (List.range 8).all fun k => m.getLsbD (8 * p.2.2 + k)) }
  | _ => s

-- Sources.

/-- The field of an operand that is read, none for a held one. -/
def srcOf : Opnd → Option Src
  | .held => none
  | .from x => some x

/-- A source field as a grid vector. -/
def srcDst : Src → Option Dst
  | .row i => some (.row i)
  | .col i => some (.col i)
  | .diag i => some (.diag i)
  | _ => none

/-- The queue, the slots needed and whether they are popped, for a source that reads `g` slots (R23, R129). -/
def srcNeed (g : Nat) : Src → Option (BitVec 2 × Nat × Bool)
  | .queue q k pop => some (q, k.toNat + g, pop)
  | _ => none

def needOf (l : List (BitVec 2 × Nat × Bool)) (q : BitVec 2) : Nat := l.foldl (fun m e => if e.1 = q then max m e.2.1 else m) 0
def popOf (l : List (BitVec 2 × Nat × Bool)) (q : BitVec 2) : Nat := needOf (l.filter (·.2.2)) q

/-- A broadcast scalar (R115). -/
def splat (w : Nat) (v : Word) : Row := ofElems w (List.replicate (1536 / w) v.toNat)

/-- The slot at an offset of a load queue. -/
def Ctx.slot (c : Ctx) (q : BitVec 2) (k : Nat) : Slot := ((c.lq q).slots[k]?).getD {}

/-- Vector `i` of the group a source names (R129); an ungrouped source is vector 0. -/
def State.vecOf (s : State) (w i : Nat) : Src → Row
  | .queue q k _ => (s.me.slot q (k.toNat + i)).data
  | .bcast r => splat w (s.scalar (r.setWidth 6))
  | .row r => s.me.gridVec s.iss.rrb (.row (r + BitVec.ofNat 6 i))
  | .col r => s.me.gridVec s.iss.rrb (.col r)
  | .diag r => s.me.gridVec s.iss.rrb (.diag r)

/-- A vector of a source is poisoned (R333). -/
def State.vecPoisoned (s : State) (i : Nat) : Src → Bool
  | .queue q k _ => (s.me.slot q (k.toNat + i)).poison
  | .bcast _ => false
  | .row r => s.gridPoisoned (.row (r + BitVec.ofNat 6 i))
  | .col r => s.gridPoisoned (.col r)
  | .diag r => s.gridPoisoned (.diag r)

/-- The latch that a source's last vector leaves. -/
def State.latchOf (s : State) (w g : Nat) (x : Src) : Latch :=
  { row := s.vecOf w (g - 1) x
    org := match x with
      | .queue q k _ => some (q, (s.me.lq q).popped + k.toNat + g - 1)
      | _ => none }

/-- Slots the instruction pushes to a store queue may be reserved: it is the producer's turn and they are free (R24, R25). -/
def State.canPush (s : State) (q : BitVec 2) (n : Nat) : Bool := (s.me.sq q).turn s.iss.id && (s.me.sq q).room n

/-- The queues read are popped (R23). -/
def Ctx.popAll (c : Ctx) (keel : Nat) (l : List (BitVec 2 × Nat × Bool)) : Ctx :=
  (List.range 4).foldl (fun c i => let q := BitVec.ofNat 2 i; c.setLq q ((c.lq q).drop (popOf l q) keel)) c

/-- Read the operands of an execute instruction: wait for queue slots, then ILLEGAL for an empty latch (R37), poison, and `k` on
the vectors of A (a group of `g`), the vector of B, and the state with latches and queues as the read leaves them. `wa` and `wb`
are the element widths for broadcasts; `also` is a destination that is read too. -/
def State.readOps (s : State) (g : Nat) (a : Opnd) (b : Option Opnd) (wa wb : Nat) (also : Option Dst)
    (push : List (BitVec 2 × Nat)) (k : List Row → Row → State → State) : State :=
  let c := s.me
  let needs := ((srcOf a).bind (srcNeed g)).toList ++ ((b.bind srcOf).bind (srcNeed 1)).toList
  match (needs.map (·.1)).find? fun q => decide ((c.lq q).filled s.keel < needOf needs q) with
  | some q => s.waitOn 0 (queueObj ⟨false, q⟩) none
  | none =>
    match push.find? fun p => !(s.canPush p.1 p.2) with
    | some p => s.waitOn 0 (queueObj ⟨true, p.1⟩) none
    | none =>
      if (a = .held && c.latchA.isNone) || (b = some .held && c.latchB.isNone) then s.fatal .illegal
      else if ((srcOf a).any fun x => (List.range g).any fun i => s.vecPoisoned i x) ||
          ((b.bind srcOf).any fun x => s.vecPoisoned 0 x) || (also.any fun d => s.gridPoisoned d) then s.poisoned
      else
        let va := match a with
          | .held => [(c.latchA.map (·.row)).getD 0]
          | .from x => (List.range g).map fun i => s.vecOf wa i x
        let vb := match b with
          | none => 0
          | some .held => (c.latchB.map (·.row)).getD 0
          | some (.from x) => s.vecOf wb 0 x
        let s := s.modMe fun c => { c.popAll s.keel needs with
          latchA := ((srcOf a).map fun x => s.latchOf wa g x).orElse fun _ => c.latchA
          latchB := ((b.bind srcOf).map fun x => s.latchOf wb 1 x).orElse fun _ => c.latchB }
        k va vb s

-- Destinations.

def pushesOf : Dst → List (BitVec 2 × Nat)
  | .queue q => [(q, 1)]
  | _ => []

/-- Push a row to a store queue. -/
def State.pushRow (s : State) (q : BitVec 2) (v : Row) (fin : Bool := false) : State :=
  s.modMe fun c => c.setSq q ((c.sq q).push [{ data := v, fin := fin, at_ := s.keel + 1 }])

/-- Write a vector to a destination under the lane mask (R121). -/
def State.writeVec (s : State) (d : Dst) (v : Row) : State :=
  let m := s.lanes
  let zeroed := rowOfWords ((List.range 48).map fun j => if m.getLsbD j then rowWord v j else 0)
  match d with
  | .queue q => s.pushRow q zeroed
  | _ =>
    let merge := (s.iss.lane.map (·.merge)).getD false
    let wm := if merge then m else BitVec.allOnes 48
    (s.cleanRow d wm).modMe fun c => c.putVec s.iss.rrb d wm zeroed

/-- Write the elements of a result with the flags of the included lanes. -/
def State.writeElems (s : State) (d : Dst) (w : Nat) (l : List (Nat × NFlags)) : State :=
  (s.writeVec d (ofElems w (l.map (·.1)))).orFlags (flagsIn s.lanes w l)

end Sys2Proof.Machine
end

