-- ==== Sys2Proof/Machine/Vector.lean ====
section
/-! DEFINITION. The execute instructions (07 R122 to R135). -/

namespace Sys2Proof.Machine

-- Floating-point arithmetic (R124).

def fmtOf (t : ETy) : Fmt := (ETy.fmt t).getD fp32

/-- A result rounded, with IV where the operation is invalid. -/
def rounded (t : ETy) (rm : RM) (sat : Bool) (r : Num × Bool) : Nat × NFlags :=
  let (c, fl) := (fmtOf t).round rm sat r.1
  (c, if r.2 then fl ||| fIV else fl)

/-- Two sources, one rounding. -/
def vfp2 (op : RM → Num → Num → Num × Bool) (f : VBin) (s : State) : Out :=
  let w := f.ty.width
  .next (s.readOps 1 f.a (some f.b) w w none (pushesOf f.od) fun va vb s =>
    s.writeElems f.od w (((elems w (va.headD 0)).zip (elems w vb)).map fun p =>
      rounded f.ty f.rm f.sat (op f.rm (ETy.num f.ty p.1) (ETy.num f.ty p.2))))

/-- Two sources and the destination. -/
def vfp3 (negate : Bool) (f : VBin) (s : State) : Out :=
  let w := f.ty.width
  .next (s.readOps 1 f.a (some f.b) w w (some f.od) [] fun va vb s =>
    let d := elems w (s.me.gridVec s.iss.rrb f.od)
    s.writeElems f.od w ((((elems w (va.headD 0)).zip (elems w vb)).zip d).map fun p =>
      rounded f.ty f.rm f.sat
        (Num.fma f.rm negate (ETy.num f.ty p.1.1) (ETy.num f.ty p.1.2) (ETy.num f.ty p.2))))

/-- One source, one rounding. -/
def vfp1 (op : Num → Num × Bool) (f : VUn) (s : State) : Out :=
  let w := f.ty.width
  .next (s.readOps 1 f.a none w w none (pushesOf f.od) fun va _ s =>
    s.writeElems f.od w ((elems w (va.headD 0)).map fun x => rounded f.ty f.rm f.sat (op (ETy.num f.ty x))))

/-- One source, no rounding: a NaN is written canonical and sets NP. -/
def vbits1 (op : Nat → Nat) (f : VMov1) (s : State) : Out :=
  let w := f.ty.width
  .next (s.readOps 1 f.a none w w none (pushesOf f.od) fun va _ s =>
    s.writeElems f.od w ((elems w (va.headD 0)).map fun x =>
      if (ETy.num f.ty x).isNan then ((fmtOf f.ty).nanCode, fNP) else (op x, 0)))

/-- The larger or smaller of two elements (R124): a NaN of either gives the canonical NaN. -/
def pickOf (t : ETy) (larger : Bool) (x y : Nat) : Nat × NFlags :=
  let a := ETy.num t x
  let b := ETy.num t y
  if a.isNan || b.isNan then ((fmtOf t).nanCode, fNP)
  else if larger then (if Num.lt true a b then y else x, 0)
  else (if Num.lt true b a then y else x, 0)

/-- Two sources, element by element, on their bits. -/
def vmov2 (op : Nat → Nat → Nat × NFlags) (f : VMov2) (s : State) : Out :=
  let w := f.ty.width
  .next (s.readOps 1 f.a (some f.b) w w none (pushesOf f.od) fun va vb s =>
    s.writeElems f.od w (((elems w (va.headD 0)).zip (elems w vb)).map fun p => op p.1 p.2))

def execVadd (f : VBin) (s : State) : Out := vfp2 Num.add f s
def execVsub (f : VBin) (s : State) : Out := vfp2 (fun rm a b => Num.add rm a b.neg) f s
def execVmul (f : VBin) (s : State) : Out := vfp2 (fun _ => Num.mul) f s
def execVfma (f : VBin) (s : State) : Out := vfp3 false f s
def execVfnma (f : VBin) (s : State) : Out := vfp3 true f s
def execVmax (f : VMov2) (s : State) : Out := vmov2 (pickOf f.ty true) f s
def execVmin (f : VMov2) (s : State) : Out := vmov2 (pickOf f.ty false) f s
def execVabs (f : VMov1) (s : State) : Out := vbits1 (fun x => x % 2 ^ (f.ty.width - 1)) f s
def execVneg (f : VMov1) (s : State) : Out := vbits1 (fun x => (x + 2 ^ (f.ty.width - 1)) % 2 ^ f.ty.width) f s
def execVcpy (f : VMov1) (s : State) : Out := vbits1 (fun x => x) f s
def execVrcp (f : VUn) (s : State) : Out := vfp1 (Num.div .one) f s
def execVrsq (f : VUn) (s : State) : Out := vfp1 Num.rsqrt f s
def execVexp2 (f : VUn) (s : State) : Out := vfp1 (fun x => (x.exp2, false)) f s
def execVlog2 (f : VUn) (s : State) : Out := vfp1 Num.log2 f s
def execVsqrt (f : VUn) (s : State) : Out := vfp1 Num.sqrt f s
def execVdiv (f : VBin) (s : State) : Out := vfp2 (fun _ => Num.div) f s

-- Integer arithmetic (R125).

def vint (op : Int → Int → Int) (f : VIntF) (s : State) : Out :=
  let w := f.ty.width
  .next (s.readOps 1 f.a (some f.b) w w none (pushesOf f.od) fun va vb s =>
    s.writeElems f.od w (((elems w (va.headD 0)).zip (elems w vb)).map fun p =>
      let v := op (f.ty.int p.1) (f.ty.int p.2)
      (f.ty.ofInt (if f.sat then f.ty.clamp v else v), 0)))

def execViadd (f : VIntF) (s : State) : Out := vint (· + ·) f s
def execVisub (f : VIntF) (s : State) : Out := vint (· - ·) f s
def execVimul (f : VIntF) (s : State) : Out := vint (· * ·) f s
def execVand (f : VMov2) (s : State) : Out := vmov2 (fun x y => (x &&& y, 0)) f s
def execVor (f : VMov2) (s : State) : Out := vmov2 (fun x y => (x ||| y, 0)) f s
def execVxor (f : VMov2) (s : State) : Out := vmov2 (fun x y => (x ^^^ y, 0)) f s
def execVshl (f : VMov2) (s : State) : Out := vmov2 (fun x y => (x * 2 ^ (y % f.ty.width) % 2 ^ f.ty.width, 0)) f s
def execVshr (f : VMov2) (s : State) : Out := vmov2 (fun x y => (x / 2 ^ (y % f.ty.width), 0)) f s
def execVsra (f : VMov2) (s : State) : Out :=
  vmov2 (fun x y =>
    let v : Int := if 2 ^ (f.ty.width - 1) ≤ x then (x : Int) - 2 ^ f.ty.width else x
    (f.ty.ofInt (v / 2 ^ (y % f.ty.width)), 0)) f s
def execVimin (f : VMov2) (s : State) : Out := vmov2 (fun x y => (if f.ty.int y < f.ty.int x then y else x, 0)) f s
def execVimax (f : VMov2) (s : State) : Out := vmov2 (fun x y => (if f.ty.int x < f.ty.int y then y else x, 0)) f s

-- Compares (R126).

/-- The mask of a test that holds for every element of a lane. -/
def laneTest (w : Nat) (l : List Bool) : BitVec 48 :=
  let n := 32 / w
  BitVec.ofNat 48 ((List.range 48).foldr (fun j acc => b2n ((List.range n).all fun k => (l[j * n + k]?).getD true) + 2 * acc) 0)

def vcmp (test : Nat → Nat → Bool) (f : VCmpF) (s : State) : Out :=
  let w := f.ty.width
  .next (s.readOps 1 f.a (some f.b) w w none [] fun va vb s =>
    let t := laneTest w (((elems w (va.headD 0)).zip (elems w vb)).map fun p => test p.1 p.2)
    let m := s.lanes
    let merge := (s.iss.lane.map (·.merge)).getD false
    s.modMe fun c => c.setMask f.m ((t &&& m) ||| (if merge then c.mask f.m &&& ~~~m else 0)))

/-- The signed value of an element's bits. -/
def signedBits (w x : Nat) : Int := if 2 ^ (w - 1) ≤ x then (x : Int) - 2 ^ w else x

def execVcmpEq (f : VCmpF) (s : State) : Out := vcmp (fun x y => (ETy.num f.ty x).eq (ETy.num f.ty y)) f s
def execVcmpNe (f : VCmpF) (s : State) : Out := vcmp (fun x y => !((ETy.num f.ty x).eq (ETy.num f.ty y))) f s
def execVcmpLt (f : VCmpF) (s : State) : Out := vcmp (fun x y => (ETy.num f.ty x).lt false (ETy.num f.ty y)) f s
def execVcmpLe (f : VCmpF) (s : State) : Out :=
  vcmp (fun x y => let a := ETy.num f.ty x; let b := ETy.num f.ty y; a.lt false b || a.eq b) f s
def execVcmpUn (f : VCmpF) (s : State) : Out := vcmp (fun x y => (ETy.num f.ty x).isNan || (ETy.num f.ty y).isNan) f s
def execVcmpIeq (f : VCmpF) (s : State) : Out := vcmp (fun x y => x = y) f s
def execVcmpIlt (f : VCmpF) (s : State) : Out :=
  vcmp (fun x y => signedBits f.ty.width x < signedBits f.ty.width y) f s
def execVcmpIltu (f : VCmpF) (s : State) : Out := vcmp (fun x y => x < y) f s

-- Conversions (R127 to R130).

def execVcvt (f : VCvtF) (s : State) : Out :=
  let n := min f.dst.count f.src.count
  .next (s.readOps 1 f.a none f.src.width f.src.width none (pushesOf f.od) fun va _ s =>
    s.writeElems f.od f.dst.width (((elems f.src.width (va.headD 0)).take n).map (convert f.dst f.src f.rm f.sat) ++
      List.replicate (f.dst.count - n) (0, 0)))

/-- Blocks of 32. -/
def blocksOf {α : Type} : Nat → List α → List (List α)
  | 0, _ => []
  | fuel + 1, l => if l.isEmpty then [] else l.take 32 :: blocksOf fuel (l.drop 32)

/-- Quantise a row's worth of elements: the element row, the scale row and the flags. -/
def quantRow (t : ETy) (xs : List Num) : Row × Row × NFlags :=
  let bs := (blocksOf 12 xs).map (quantBlock t)
  (blockRow t (bs.flatMap (·.2.1)), ofElems 8 (bs.map (·.1)), bs.foldl (fun acc b => acc ||| b.2.2) 0)

def execVqnt (f : VQntF) (s : State) : Out :=
  let g := groupSize f.dst f.src
  let w := f.src.width
  let push := match f.od with
    | .queue q => [(q, 1), (q + 1, 1)]
    | _ => []
  .next (s.readOps g (.from f.a) none w w none push fun va _ s =>
    let (e, sc, fl) := quantRow f.dst ((va.flatMap (elems w)).map (ETy.num f.src))
    let s := match f.od with
      | .row i => (s.writeVec (.row i) e).writeVec (.row (i + 1)) sc
      | .queue q => (s.pushRow q e).pushRow (q + 1) sc
      | _ => s
    s.orFlags fl)

/-- Write or push vectors in order (R130). -/
def State.writeGroup (s : State) (d : Dst) : Nat → List Row → State
  | _, [] => s
  | i, v :: vs =>
    match d with
    | .row r => (s.writeVec (.row (r + BitVec.ofNat 6 i)) v).writeGroup d (i + 1) vs
    | .queue q => (s.pushRow q v).writeGroup d (i + 1) vs
    | _ => s

/-- Vectors of a list of elements of width `w`. -/
def vectorsOf (w : Nat) : Nat → List Nat → List Row
  | 0, _ => []
  | n + 1, l => ofElems w (l.take (1536 / w)) :: vectorsOf w n (l.drop (1536 / w))

def execVdq (f : VDqF) (s : State) : Out :=
  let g := groupSize f.src f.dst
  let push := match f.od with
    | .queue q => [(q, g)]
    | _ => []
  .next (s.readOps 1 f.a (some f.b) 8 8 none push fun va vb s =>
    let rs := (blockElems f.src (va.headD 0)).zipIdx.map fun p =>
      rounded f.dst f.rm f.sat (blockNum f.src p.1 (scaleAt vb p.2) (f.pd.toNat + 2) f.pf, false)
    (s.writeGroup f.od 0 (vectorsOf f.dst.width g (rs.map (·.1)))).orFlags (rs.foldl (fun acc r => acc ||| r.2) 0))

-- Reductions (R110, R131, R132).

/-- An FP32 addition rounded under RM and SAT. -/
def add32 (rm : RM) (sat : Bool) (x y : Nat × NFlags) : Nat × NFlags :=
  let (c, fl) := rounded .f32 rm sat (Num.add rm (fp32.num x.1) (fp32.num y.1))
  (c, fl ||| x.2 ||| y.2)

/-- Add neighbours in pairs. -/
def pairSums (rm : RM) (sat : Bool) : List (Nat × NFlags) → List (Nat × NFlags)
  | a :: b :: l => add32 rm sat a b :: pairSums rm sat l
  | l => l

/-- The tree of R110 over 48 FP32 values. -/
def treeSum (rm : RM) (sat : Bool) (l : List (Nat × NFlags)) : Nat × NFlags :=
  match pairSums rm sat (pairSums rm sat (pairSums rm sat (pairSums rm sat l))) with
  | [a, b, c] => add32 rm sat (add32 rm sat a b) c
  | _ => (0, 0)

/-- The value a lane contributes. -/
def laneSum (t : ETy) (rm : RM) (sat : Bool) (w : W32) : Nat × NFlags :=
  if t = .f32 then (w.toNat, 0)
  else
    let lo := (w.toNat) % 65536
    let hi := (w.toNat) / 65536
    add32 rm sat ((fp32.round rm sat (ETy.num t lo)).1, 0) ((fp32.round rm sat (ETy.num t hi)).1, 0)

/-- Every element of the destination, whatever the lane mask (R131). -/
def State.writeAll (s : State) (d : Dst) (w c : Nat) : State :=
  ({ s with iss := { s.iss with lane := none } }).writeVec d (ofElems w (List.replicate (1536 / w) c))

def execVsum (f : VUn) (s : State) : Out :=
  let w := f.ty.width
  .next (s.readOps 1 f.a none w w none (pushesOf f.od) fun va _ s =>
    let m := s.lanes
    let l := (List.range 48).map fun j =>
      if m.getLsbD j then laneSum f.ty f.rm f.sat (rowWord (va.headD 0) j) else (0, 0)
    let r := treeSum f.rm f.sat l
    let (c, fl) := convert f.ty .f32 f.rm f.sat r.1
    (s.writeAll f.od w c).orFlags (r.2 ||| fl))

/-- The identity of R132. -/
def redIdentity (t : ETy) (larger : Bool) : Nat :=
  match ETy.fmt t with
  | some f => (match f.infCode with | some i => i | none => f.top) + f.sign larger
  | none => t.ofInt (if larger then t.least else t.greatest)

def vred (larger : Bool) (f : VMov1) (s : State) : Out :=
  let w := f.ty.width
  .next (s.readOps 1 f.a none w w none (pushesOf f.od) fun va _ s =>
    let m := s.lanes
    let l := ((elems w (va.headD 0)).zipIdx.filter fun p => inLanes m w p.2).map (·.1)
    let r := match l with
      | [] => (redIdentity f.ty larger, 0)
      | x :: xs => xs.foldl (fun acc y => let p := pickOf f.ty larger acc.1 y; (p.1, acc.2 ||| p.2))
          (if (ETy.num f.ty x).isNan then ((fmtOf f.ty).nanCode, fNP) else (x, 0))
    (s.writeAll f.od w r.1).orFlags r.2)

def execVrmax (f : VMov1) (s : State) : Out := vred true f s
def execVrmin (f : VMov1) (s : State) : Out := vred false f s

-- Moves (R133 to R135).

/-- An element as VMOVE and VSEL write it: a NaN is canonical and sets NP. -/
def movElem (t : ETy) (x : Nat) : Nat × NFlags := if (ETy.num t x).isNan then ((fmtOf t).nanCode, fNP) else (x, 0)

def execVperm (f : VMov2) (s : State) : Out :=
  let w := f.ty.width
  .next (s.readOps 1 f.a (some f.b) w w none (pushesOf f.od) fun va vb s =>
    let a := elems w (va.headD 0)
    s.writeElems f.od w ((elems w vb).map fun i => movElem f.ty ((a[i]?).getD 0)))

/-- Each element comes from the element of A at an index. -/
def vpick (at_ : Nat → Nat) (f : VImmF) (s : State) : Out :=
  let w := f.ty.width
  .next (s.readOps 1 f.a none w w none (pushesOf f.od) fun va _ s =>
    let a := elems w (va.headD 0)
    s.writeElems f.od w ((List.range f.ty.count).map fun i => movElem f.ty ((a[at_ i]?).getD 0)))
def execVrot (f : VImmF) (s : State) : Out := vpick (fun i => (i + f.n.toNat) % f.ty.count) f s
def execVbcast (f : VImmF) (s : State) : Out := vpick (fun _ => f.n.toNat) f s

def execVsel (f : VSelF) (s : State) : Out :=
  let w := f.ty.width
  .next (s.readOps 1 f.a (some f.b) w w none (pushesOf f.od) fun va vb s =>
    let m := s.me.mask f.m
    s.writeElems f.od w (((elems w (va.headD 0)).zip (elems w vb)).zipIdx.map fun p =>
      movElem f.ty (if inLanes m w p.2 then p.1.1 else p.1.2)))

def execVldi (d : Reg) (ty : ETy) (i : W32) (s : State) : Out :=
  let w := ty.width
  let word (v : W32) : W32 := BitVec.ofNat 32 (((List.range (32 / w)).map fun k => 2 ^ (w * k) * (v.toNat % 2 ^ w)).sum)
  .next (s.writeVec (.row d) (rowOfWords ((List.range 48).map fun j =>
    word (if j % 2 = 1 then s.iss.xtnd.getD i else i))))

end Sys2Proof.Machine
end

