-- ==== Sys2Proof/Machine/Wave.lean ====
section
/-! DEFINITION. The wave array (11 R184 to R214, 20 R350 to R352): rig records, tiles and links, arrivals and handler ends,
weight versions, repair, and the `WAVE` instructions. -/

namespace Sys2Proof.Machine

-- Geometry (R184, R353).

def tierOf (cell : Nat) : Nat := cell / 64
def xOf (cell : Nat) : Nat := cell % 8
def yOf (cell : Nat) : Nat := cell / 8 % 8
/-- Two cells are neighbours. -/
def neighbours (a b : Nat) : Bool :=
  (tierOf a = tierOf b && ((xOf a : Int) - xOf b).natAbs + ((yOf a : Int) - yOf b).natAbs = 1) ||
  (columnOf a = columnOf b && a ≠ b)

-- Strings.

def State.str (s : State) (part id : Nat) : Option Str := s.strs.find? fun r => r.part = part && r.id = id
def State.modStr (s : State) (part id : Nat) (f : Str → Str) : State :=
  { s with strs := modFirst (fun r => r.part = part && r.id = id) f s.strs }
def Str.pos? (r : Str) (i : Nat) : Option Pos := r.pos[i]?
def Str.modPos (r : Str) (i : Nat) (f : Pos → Pos) : Str := { r with pos := r.pos.zipIdx.map fun p => if p.2 = i then f p.1 else p.1 }
/-- The string and position whose handler is a thread. -/
def State.handlerOf (s : State) (src : Nat) : Option (Str × Nat) :=
  s.strs.findSome? fun r => (indexOf? (fun p => !p.gone && p.cell * 4 + p.slot = src) r.pos 0).map fun i => (r, i)
/-- The string whose position a cell is. -/
def State.cellStr (s : State) (cell : Nat) : Option Str := s.strs.find? fun r => r.pos.any fun p => p.cell = cell

/-- Bytes of a tile slot. -/
def RigHdr.size (h : RigHdr) : Nat := h.tr * h.rp
/-- The last position of a direction. -/
def Str.far (r : Str) (up : Bool) (i : Nat) : Bool := if up then i = 0 else i + 1 = r.hdr.n

-- Tiles (R188, R189, R198).

/-- The RB bytes of each row of a tile laid out at pitch RP. -/
def tileRows (h : RigHdr) (bs : List Byte) : List (List Byte) := (List.range h.tr).map fun r => slice bs (r * h.rp) h.rb
/-- The bytes of a slot: each row followed by zeros. -/
def slotBytes (h : RigHdr) (rows : List (List Byte)) : List Byte := rows.flatMap fun r => slice r 0 h.rb ++ List.replicate (h.rp - h.rb) 0
/-- A tile of rows with their CRCs. -/
def mkTile (h : RigHdr) (tag : Tag) (rows : List (List Byte)) : Tile :=
  if tag.kind = 4 then { tag := tag, bytes := [], crcs := [] }
  else { tag := tag, bytes := slotBytes h rows, crcs := rows.map fun r => crc32c (slice r 0 h.rb) }

/-- The lowest slot of `n` that none of `used` is. -/
def freeSlot (n : Nat) (used : List Nat) : Option Nat := (List.range n).find? fun i => !(used.contains i)

/-- The position a tile sent from `i` goes to, or the edge itself for an admission. -/
def Str.nextPos (r : Str) (up admitTile : Bool) (i : Nat) : Nat :=
  if admitTile then i else if up then i - 1 else min (i + 1) (r.hdr.n - 1)
def Pos.link (p : Pos) (up : Bool) : List Flight := if up then p.linkUp else p.linkDown
def Pos.setLink (p : Pos) (up : Bool) (l : List Flight) : Pos := if up then { p with linkUp := l } else { p with linkDown := l }

/-- A tile may be sent from position `i` (R189): a link entry and a retain slot are free and nothing is frozen. -/
def Str.canSend (r : Str) (up admitTile : Bool) (i : Nat) : Bool :=
  r.frozen.isEmpty &&
  ((r.pos? (r.nextPos up admitTile i)).any fun p => (p.link up).length < 2) &&
  ((r.pos? i).any fun p => (freeSlot r.hdr.nr (p.kept.map (·.1))).isSome)

/-- The retain slot that the next tile sent from a position takes: the lowest free one (log 49). -/
def Str.keepSlot (r : Str) (p : Pos) : Nat := (freeSlot r.hdr.nr (p.kept.map (·.1))).getD 0
/-- The handler thread of a position. -/
def Pos.src (p : Pos) : Nat := p.cell * 4 + p.slot

/-- Send a tile (R189, R198): it joins the link buffer of the next position and a retain slot keeps it. A MARK has no tile (R187), and
none keeps it (log 64). -/
def State.sendTile (s : State) (r : Str) (up admitTile : Bool) (i : Nat) (t : Tile) : State :=
  match r.pos? i with
  | none => s
  | some p =>
    let k := r.keepSlot p
    let s := s.spadWrite (s.pathV p.src) p.cell (p.retain + k * r.hdr.size) t.bytes
    s.modStr r.part r.id fun r =>
      let r := if t.tag.kind = 4 then r else r.modPos i fun p => { p with kept := p.kept ++ [(k, t)] }
      r.modPos (r.nextPos up admitTile i) fun p => p.setLink up (p.link up ++ [⟨t, i, k⟩])

/-- The regions of the retain slot that the next tile sent takes. -/
def Str.keepRegions (r : Str) (p : Pos) : List Nat := regionsOf (p.retain + r.keepSlot p * r.hdr.size) r.hdr.size

/-- Send a tile once its retain slot may be used (R348), and go on. -/
def State.sendFrom (s : State) (r : Str) (up admitTile : Bool) (i : Nat) (t : Tile) (k : State → State) : State :=
  match r.pos? i with
  | none => s.stall
  | some p =>
    if t.tag.kind = 4 then k (s.sendTile r up admitTile i t)
    else s.withRegions p.cell (s.teamKey p.src) (r.keepRegions p) fun s => k (s.sendTile r up admitTile i t)

/-- Where a REC's tile goes among the meet entries (R189, R210): the entry that holds its micro-batch, else the lowest free one (log
49); none while that entry is bound, and never while no entry is free. -/
def Pos.meetSlot (p : Pos) (nm : Nat) (mb : BitVec 16) : Option Nat :=
  (freeSlot nm (p.meets.map (·.idx))).bind fun k => match p.meets.find? fun e => e.mb = mb with
    | some e => if e.bound then none else some e.idx
    | none => some k

/-- Arrivals in delivery order: in one nanosecond a tile moving downwind comes first (R190). -/
def insertBox (b : Inbox) : List Inbox → List Inbox
  | [] => [b]
  | x :: xs =>
    if !b.fl.tile.tag.up && x.fl.tile.tag.up && x.at_ = b.at_ && !x.current then b :: x :: xs else x :: insertBox b xs

/-- TILE_INTO_INBOX (R189): `arg.a` is the partition and id of the string as part * 256 + id, `arg.b` the position, `arg.flg` the
direction (up). -/
def execTileIntoInbox (s : State) : Out :=
  match s.str (s.arg.a / 256) (s.arg.a % 256) with
  | none => .next s
  | some r =>
    let up := s.arg.flg
    match r.pos? s.arg.b with
    | none => .next s
    | some p =>
      match p.link up with
      | [] => .next s
      | f :: rest =>
        if !r.frozen.isEmpty then .next s
        else match freeSlot r.hdr.ni (p.box.map (·.slot)) with
        | none => .next s
        | some k =>
          let t := f.tile
          let put (s : State) (a : Nat) : State := s.spadWrite (s.pathV p.src) p.cell a t.bytes
          let land_ (s : State) (g : Pos → Pos) : State :=
            (put s (p.inbox + k * r.hdr.size)).modStr r.part r.id fun r => r.modPos s.arg.b fun p =>
              g ({ (p.setLink up rest) with box := insertBox { slot := k, fl := f, at_ := s.keel } p.box })
          let regs (a : Nat) : List Nat := regionsOf a t.bytes.length
          let own (l : List Nat) (f : State → State) : Out := .next (s.withRegions p.cell (s.teamKey p.src) l f)
          if t.tag.kind = 1 then
            match p.meetSlot r.hdr.nm t.tag.mb with
            | none => .next s
            | some m =>
              own (regs (p.inbox + k * r.hdr.size) ++ regs (p.meetb + m * r.hdr.size)) fun s =>
                land_ (put s (p.meetb + m * r.hdr.size)) fun p => { p with
                  meetDup := p.meetDup || p.meets.any fun e => e.mb = t.tag.mb
                  meets := p.meets.filter (fun e => e.idx ≠ m) ++ [{ idx := m, mb := t.tag.mb, crcs := t.crcs }] }
          else own (regs (p.inbox + k * r.hdr.size)) fun s => land_ s id

-- Weight versions (R192 to R194).

/-- The banks of a cell exchange roles and tags. -/
def CellSt.exchange (c : CellSt) : CellSt :=
  { c with second := !c.second, verF := c.verS, verS := c.verF, valF := c.valS, valS := c.valF }
/-- An exchange orders every write of a cell's banks before the K-steps that follow (R235). -/
def State.showBanks (s : State) (cell : Nat) : State := s.orderBanks cell (fun _ => true) 2 []
/-- BANK_EXCHANGE (R194): `arg.a` is the cell; with `arg.flg` the spare bank's tag first becomes `arg.b`, valid. -/
def execBankExchange (s : State) : Out :=
  .next ((s.showBanks s.arg.a).modCell s.arg.a fun c =>
    (if s.arg.flg then { c with verS := BitVec.ofNat 8 s.arg.b, valS := true } else c).exchange)

/-- The bank that holds a version (R143): `second`, or none. -/
def CellSt.bankOf (c : CellSt) (v : BitVec 8) : Option Bool :=
  if c.valF && c.verF = v then some c.second else if c.valS && c.verS = v then some (!c.second) else none

-- Handler ends (R191, R196).

/-- The rows of the tile in a slot of the current arrival's cell, read as a `PASS` reads them. -/
def State.slotRows (s : State) (h : RigHdr) (cell addr : Nat) : List (List Byte) := tileRows h (s.spadRead s.pathK cell addr h.size)

/-- A wavefront retires (R187, R192, R213). -/
def Str.retire (r : Str) (t : Tag) : Str :=
  if t.kind = 2 then
    if t.ver = r.u then { r with liveCur := r.liveCur - 1 } else { r with livePrev := r.livePrev - 1 }
  else if t.kind = 4 then
    if t.up then { r with marksUp := (r.marksUp + 1) % 65536 } else { r with marksDown := (r.marksDown + 1) % 65536 }
  else r

/-- The accumulator and address of WCOMMIT (R196). -/
def Ctx.commitAcc (c : Ctx) : BitVec 2 := c.wcommit.setWidth 2
def Ctx.commitOn (c : Ctx) : Bool := c.wcommit.getLsbD 2
def Ctx.commitAddr (c : Ctx) : Nat := c.wcommit.toNat / 8 * 8

/-- An accumulator as 9,216 bytes. -/
def Acc.bytes (a : Acc) : List Byte := a.rows.toList.flatMap rowBytes
/-- A granule of an accumulator of the thread is poisoned. -/
def State.accPoisoned (s : State) (a : BitVec 2) : Bool := s.psnAcc.any fun p => p.1 = s.iss.src * 4 + a.toNat

/-- A wavefront that the device forwards at the end of its handler (R191). -/
def Str.forwards (r : Str) (i : Nat) (v : Arrival) : Bool := (v.tag.kind = 3 || v.tag.kind = 4) && !(r.far v.tag.up i)

/-- The regions of the cell that the end of a handler reads and writes. -/
def State.endRegions (s : State) (r : Str) (i : Nat) (v : Arrival) : List Nat :=
  (if s.me.commitOn then regionsOf s.me.commitAddr 9216 else []) ++
  (if v.tag.kind = 3 && r.forwards i v then regionsOf v.addr r.hdr.size ++ (r.pos? i).elim [] r.keepRegions else [])

/-- The handler's own writes to a slot it gives back lie before the writes that follow on path V (R214). -/
def State.giveBack (s : State) (cell a n : Nat) : State :=
  s.orderSpad cell a n (fun w => w.src = s.iss.src && w.cls ≠ 4) 16 []
/-- What path V wrote to a slot is visible to its handler (R208, R210, R199). -/
def State.showSlot (s : State) (cell a n : Nat) : State := s.orderSpad cell a n (fun w => w.cls = 4) 0 [s.iss.src]

/-- The steps of R191 for the current arrival `v`, once the waits are over. -/
def State.handlerEnds (s : State) (r : Str) (i : Nat) (v : Arrival) : State :=
  let c := s.me
  let p := (r.pos? i).getD { cell := 0, slot := 0, inbox := 0, retain := 0, meetb := 0 }
  let s := if c.commitOn then
      (s.spadWrite s.pathK s.myCell c.commitAddr (c.acc c.commitAcc).bytes).modMe fun c => { c with wcommit := c.wcommit &&& ~~~4 }
    else s
  let forwards := r.forwards i v
  let s := if forwards then
      s.sendTile r v.tag.up false i (mkTile r.hdr v.tag (s.slotRows r.hdr p.cell v.addr))
    else s
  let s := if v.tag.kind = 3 then s.post .bankExchange { a := p.cell, b := v.tag.ver.toNat, flg := true } else s
  let fl := (p.box.find? fun b => b.slot = v.slot).map (·.fl)
  let s := s.giveBack p.cell v.addr r.hdr.size
  let s := v.meet.elim s fun m => s.giveBack p.cell (p.meetb + m * r.hdr.size) r.hdr.size
  let s := s.modStr r.part r.id fun r =>
    let r := r.modPos i fun p => { p with
      box := p.box.filter fun b => b.slot ≠ v.slot
      meets := p.meets.filter fun e => some e.idx ≠ v.meet }
    let r := match fl with
      | some f => if v.tag.kind = 4 then r else r.modPos f.frm fun p => { p with kept := p.kept.filter fun k => k.1 ≠ f.keep }
      | none => r
    if forwards || v.passed then r else r.retire v.tag
  s.modMe fun c => { c with cur := none, copies := c.copies.map fun x => (x.1, x.2.1, false) }

/-- The handler end may proceed: its waits (R191), and room for a forward. -/
def State.handlerMayEnd (s : State) (r : Str) (i : Nat) (v : Arrival) : Bool :=
  let c := s.me
  c.bufT.isEmpty && r.frozen.isEmpty && (v.tag.kind ≠ 3 || !(c.copies.any fun x => x.2.2)) &&
  (!(r.forwards i v) || r.canSend v.tag.up false i)

-- ARRV (R208).

/-- Deliver the arrival of an inbox entry: RVM, D, the snapshot, and Boundary(cell). -/
def State.deliverTo (s : State) (d : Reg) (r : Str) (i : Nat) (p : Pos) (b : Inbox) : State :=
  let addr := p.inbox + b.slot * r.hdr.size
  let t := b.fl.tile.tag
  let s := (s.showSlot p.cell addr r.hdr.size).modStr r.part r.id fun r => r.modPos i fun p => { p with
    box := p.box.map fun x => if x.slot = b.slot then { x with current := true } else x }
  let s := (s.modMe fun c => { c with
    cur := some { str := r.id, pos := i, slot := b.slot, addr := addr, tag := t }, rvm := t.mask }).setScalar d
      (w64 (descOf r.id b.slot addr t))
  let n := s.me.advance.1
  (s.modMe fun c => { c with snap := some { regs := c.regs, preds := n.preds, rrb := n.rrb, loops := n.loops, pc := n.pc } }).boundary .cell

/-- One attempt of ARRV. -/
def State.arrv (s : State) (d : Reg) : State :=
  let c := s.me
  if c.waitOver 6 then (s.setScalar d allOnes).bound .cell
  else match s.handlerOf s.iss.src with
    | none => s.fatal .illegal
    | some (r, i) =>
      match c.cur with
      | some v =>
        if !(s.handlerMayEnd r i v) then s.stall
        else if c.commitOn && !(spadOk c.commitAddr 9216) then s.fatal .spadRange
        else if c.commitOn && s.accPoisoned c.commitAcc then s.poisoned
        else s.withRegions s.myCell (s.teamKey s.iss.src) (s.endRegions r i v) fun s => (s.handlerEnds r i v).stall
      | none =>
        let p := (r.pos? i).getD { cell := 0, slot := 0, inbox := 0, retain := 0, meetb := 0 }
        match p.box.find? fun b => !b.current with
        | none => s.waitOn 6 r.id none
        | some b =>
          if !r.frozen.isEmpty || s.keel ≤ b.at_ then s.waitOn 6 r.id none
          else if !(s.mayBound .cell) then s.waitPublish .cell
          else s.deliverTo d r i p b

def execArrv (d : Reg) (s : State) : Out := .next (s.arrv d)

/-- An `ARRV` of thread `arg.a` tries again. -/
def State.retryArrv (s : State) : State :=
  s.retry s.arg.a fun i => match i with
    | .arrv d => some fun t => t.arrv d
    | _ => none
/-- HANDLER_END (R191): the `ARRV` of thread `arg.a` ends its handler. -/
def execHandlerEnd (s : State) : Out := .next s.retryArrv
/-- ARRIVAL_DELIVERY (R190, R208): the `ARRV` of thread `arg.a` takes an arrival. -/
def execArrivalDelivery (s : State) : Out := .next s.retryArrv

-- RIG (R185, R186, R205).

def rigHeader (b : List Byte) : RigHdr :=
  { n := fieldAt b 0 1, ni := fieldAt b 1 1, nr := fieldAt b 2 1, nm := fieldAt b 3 1, tr := fieldAt b 4 2, rb := fieldAt b 6 2
    rp := fieldAt b 8 2, rot := fieldAt b 10 1, v0 := BitVec.ofNat 8 (fieldAt b 11 1), tpitch := fieldAt b 12 4
    adm := fieldAt b 16 2, ltrip := fieldAt b 18 2, mbmax := fieldAt b 20 2 }

/-- R185 on the header; the reserved bytes are checked with it. -/
def RigHdr.ok (h : RigHdr) (b : List Byte) : Bool :=
  1 ≤ h.n && h.n ≤ 64 && 1 ≤ h.ni && h.ni ≤ 8 && 1 ≤ h.nr && h.nr ≤ 8 && h.nm ≤ 32 && 1 ≤ h.tr && h.tr ≤ 1024 &&
  (h.rb = 48 || h.rb = 96 || h.rb = 192 || h.rb = 256) && h.rp % 64 = 0 && h.rb ≤ h.rp && h.rp ≤ 1024 && h.rot < 16 &&
  h.adm < 1024 && h.size ≤ 131072 && fieldAt b 22 10 = 0

def rigPos (b : List Byte) : Pos :=
  { cell := fieldAt b 0 2, slot := fieldAt b 2 1, inbox := fieldAt b 4 3, retain := fieldAt b 8 3, meetb := fieldAt b 12 3 }
/-- Must-be-0 fields and ranges of a cell entry that are no region (R186). -/
def rigPosOk (b : List Byte) : Bool :=
  fieldAt b 2 1 < 4 && fieldAt b 3 1 = 0 && fieldAt b 7 1 = 0 && fieldAt b 11 1 = 0 && fieldAt b 15 1 = 0 && fieldAt b 16 16 = 0

/-- Ranges that do not overlap, each in the scratchpad and aligned (R186). -/
def regionsOk (l : List (Nat × Nat)) : Bool :=
  l.all (fun p => p.1 % 64 = 0 && spadOk p.1 p.2) &&
  (l.zipIdx.all fun p => l.zipIdx.all fun q =>
    q.2 ≤ p.2 || p.1.2 = 0 || q.1.2 = 0 || p.1.1 + p.1.2 ≤ q.1.1 || q.1.1 + q.1.2 ≤ p.1.1)

/-- The status code of R205 for a rig record of id `n` by the thread being executed: of several checks that fail, the first in the
order 1, 6, 2, 3, 4, 5; a cell entry's SLOT above 3, and an ADM of 1,024 or more, give 6 (log 49). -/
def State.rigCode (s : State) (n : Nat) (b : List Byte) : Nat :=
  let h := rigHeader b
  let ents := (List.range h.n).map fun i => slice b (32 + 32 * i) 32
  let ps := ents.map rigPos
  let team := s.me.team
  let mate (src : Nat) : Bool := src = s.iss.src || (team.isSome && s.partOfSrc src = s.myPart && (s.ctx src).team = team)
  if (s.str s.myPart n).isSome then 1
  else if !(h.ok b) || !(ents.all rigPosOk) then 6
  else if ps.any (fun p => 256 ≤ p.cell || s.partOfCell p.cell ≠ s.myPart || (s.cellStr p.cell).isSome) ||
      (ps.map (·.cell)).eraseDups.length ≠ ps.length then 2
  else if !((ps.zip (ps.drop 1)).all fun q => neighbours q.1.cell q.2.cell) then 3
  else if !(ps.all fun p => regionsOk [(p.inbox, h.ni * h.size), (p.retain, h.nr * h.size), (p.meetb, h.nm * h.size)]) then 4
  else if !(mate h.adm && ps.all fun p => mate (p.cell * 4 + p.slot)) then 5
  else 0

/-- Rig a string whose record passed every check (R192, R205). -/
def State.rigString (s : State) (n : Nat) (b : List Byte) : State :=
  let h := rigHeader b
  let ps := (List.range h.n).map fun i => rigPos (slice b (32 + 32 * i) 32)
  let s := { s with strs := s.strs ++ [{
    part := s.myPart, id := n, hdr := h, pos := ps, u := h.v0, team := s.me.team, rigger := s.iss.src }] }
  ps.foldl (fun s p => s.modCell p.cell fun c => { c with verF := h.v0, valF := true, valS := false }) s

def execRig (a : Reg) (n : BitVec 8) (s : State) : Out :=
  let x := (s.scalar a).toNat
  if x % 8 ≠ 0 || !(spadOk x 32) then .next (s.fatal .spadRange)
  else .next (s.afterAccess fun s =>
    let len := 32 + 32 * fieldAt (s.spadRead s.pathL s.myCell x 32) 0 1
    s.withSpad x len fun s =>
      if s.spadPoisoned s.myCell x len then s.poisoned
      else
        let b := s.spadRead s.pathL s.myCell x len
        let code := s.rigCode n.toNat b
        let s := if code = 0 then s.rigString n.toNat b else s
        s.modPart s.myPart fun p => { p with rigStat := tput p.rigStat n.toNat code })

-- UNRIG (R206).

/-- The handler thread waits in `ARRV` with its handler ended. -/
def State.inArrv (s : State) (src : Nat) : Bool :=
  (s.ctx src).cur.isNone && (s.ctx src).wait.any (fun w => w.kind = 6) &&
  match (s.ctx src).busy.map decode with
  | some (.ok (.arrv _)) => true
  | _ => false

/-- UNRIG (R206). A handler thread that has ended is waited for no more (log 49). -/
def execUnrig (n : BitVec 8) (s : State) : Out :=
  match s.str s.myPart n.toNat with
  | none => .next s
  | some r =>
    if !(if r.team.isSome then s.me.team = r.team else r.rigger = s.iss.src) then .next (s.fatal .illegal)
    else if r.pos.all fun p => p.box.isEmpty && p.linkDown.isEmpty && p.linkUp.isEmpty &&
        (p.gone || s.inArrv (p.cell * 4 + p.slot)) then
      let s := { s with strs := s.strs.filter fun x => !(x.part = r.part && x.id = r.id) }
      .next ((r.pos.filter fun p => !p.gone).foldl (fun s p => s.modCtx (p.cell * 4 + p.slot) fun c => { c with
        wait := c.wait.map fun w => { w with ended := some (s.iss.src, 0) } }) s)
    else .next s.stall

-- ADMIT (R207).

/-- Update the admission state for an admitted wavefront (R192, R193). -/
def Str.admitted (r : Str) (kind : Nat) (v : BitVec 8) : Str :=
  match kind with
  | 0 | 1 => { r with mbc := r.mbc + 1 }
  | 2 => if v = r.u then { r with liveCur := r.liveCur + 1 } else { r with livePrev := r.livePrev + 1 }
  | 3 => { r with livePrev := r.liveCur, liveCur := 0, u := r.u + 1, mbc := 0 }
  | _ => r

/-- One attempt of ADMIT. -/
def State.admitTile (s : State) (n : BitVec 8) (a b c : Reg) : State :=
  match s.str s.myPart n.toNat with
  | none => s.fatal .illegal
  | some r =>
    let w := s.scalar b
    let kind := bitsOf w.toNat 24 3
    let ver : BitVec 8 := w.extractLsb' 16 8
    let v : BitVec 8 := match kind with | 0 => r.u | 3 => r.u + 1 | _ => ver
    let up := kind = 2 || (kind = 4 && w.getLsbD 27)
    let edge := if up then r.hdr.n - 1 else 0
    let x := (s.scalar a).toNat
    if r.hdr.adm ≠ s.iss.src || 4 < kind then s.fatal .illegal
    else if (kind = 1 || kind = 2) && v ≠ r.u && v ≠ r.u - 1 then (s.endWaitDone).trap .versionLost (v.setWidth 32)
    else if kind = 3 && r.livePrev ≠ 0 then s.waitOn 6 r.id none
    else if (kind = 0 || kind = 1) && r.hdr.mbmax ≠ 0 && r.mbc = r.hdr.mbmax then s.fatal .illegal
    else if !(r.canSend up true edge) then s.waitOn 6 r.id none
    else
      let tag : Tag := { kind := BitVec.ofNat 3 kind, mb := w.setWidth 16, ver := v, mask := (s.scalar c).setWidth 48, up := up }
      let send (s : State) (rows : List (List Byte)) : State :=
        s.sendFrom r up true edge (mkTile r.hdr tag rows) fun s => s.modStr r.part r.id fun r => r.admitted kind v
      if kind = 4 then send s []
      else
        let len := (r.hdr.tr - 1) * r.hdr.rp + r.hdr.rb
        if !(spadOk x len) then s.fatal .spadRange
        else s.afterAccess fun s => s.withSpad x len fun s =>
          if s.spadPoisoned s.myCell x len then s.poisoned
          else send s (tileRows r.hdr (s.spadRead s.pathL s.myCell x len))

def execAdmitTile (n : BitVec 8) (a b c : Reg) (s : State) : Out := .next (s.admitTile n a b c)

-- PASS (R209).

/-- The checks and the send of R209 for the head entry of the thread's tensor buffer: `rows` goes on with the rows of the tile. -/
def State.passTile (s : State) (up : Option Bool) (mask : BitVec 48) (ok : RigHdr → Bool)
    (rows : State → RigHdr → (State → List (List Byte) → State) → State) : State :=
  match s.me.cur, s.handlerOf s.iss.src with
  | some v, some (r, i) =>
    if v.tag.kind = 3 || v.tag.kind = 4 || (up.any fun u => u ≠ v.tag.up) || r.far v.tag.up i || !(ok r.hdr) then s.fatal .illegal
    else if v.passed then s
    else rows s r.hdr fun s l =>
      if !(r.canSend v.tag.up false i) then s.stall
      else
        s.sendFrom r v.tag.up false i (mkTile r.hdr { v.tag with mask := mask } l) fun s => s.modMe fun c =>
          { c with cur := c.cur.map fun v => { v with passed := true } }
  | _, _ => s.fatal .illegal

def execPass (a : Reg) (up : Bool) (s : State) : Out :=
  .next (s.passTile (some up) s.iss.rvm (fun _ => true) fun s h k =>
    let x := (s.scalar a).toNat
    let len := (h.tr - 1) * h.rp + h.rb
    s.withSpad x len fun s =>
      if s.spadPoisoned s.myCell x len then s.poisoned
      else k s (tileRows h (s.spadRead s.pathK s.myCell x len)))

-- MEET, WVER, WSWAP, WSTAT (R210 to R213).

def execMeet (d : Reg) (s : State) : Out :=
  match s.me.cur, s.handlerOf s.iss.src with
  | some v, some (r, i) =>
    let p := (r.pos? i).getD { cell := 0, slot := 0, inbox := 0, retain := 0, meetb := 0 }
    if v.tag.kind ≠ 2 then .next (s.fatal .illegal)
    else match v.meet.orElse fun _ => (p.meets.find? fun e => e.mb = v.tag.mb).map (·.idx) with
      | none => .next (s.waitOn 6 r.id none)
      | some m =>
        let s := (s.modStr r.part r.id fun r => r.modPos i fun p => { p with
          meets := p.meets.map fun e => if e.idx = m then { e with bound := true } else e }).modMe fun c => { c with
            cur := c.cur.map fun v => { v with meet := some m } }
        let s := s.showSlot p.cell (p.meetb + m * r.hdr.size) r.hdr.size
        .next ((s.setScalar d (w64 (p.meetb + m * r.hdr.size))).bound .cell)
  | _, _ => .next (s.fatal .illegal)

def execWver (d : Reg) (s : State) : Out :=
  let c := s.cell s.myCell
  .next (s.setScalar d (w64 (2 ^ 24 * b2n c.valS + 2 ^ 16 * c.verS.toNat + 256 * b2n c.valF + c.verF.toNat)))

def execWswap (s : State) : Out :=
  if (s.cellStr s.myCell).isSome then .next (s.fatal .illegal)
  else if !s.me.bufT.isEmpty then .next s.stall
  else .next ((s.showBanks s.myCell).modCell s.myCell CellSt.exchange)

/-- The word of WSTAT (R213): for an id that is not rigged, 0 but for the status of selector 0 (log 49). -/
def State.wstat (s : State) (n sel : Nat) : Nat :=
  let code := tget 0 (s.part s.myPart).rigStat n
  match s.str s.myPart n with
  | none => if sel = 0 then code else 0
  | some r =>
    match sel with
    | 0 => code + 256 * r.hdr.n + 65536
    | 1 => r.u.toNat + 2 ^ 8 * (r.liveCur % 65536) + 2 ^ 24 * (r.livePrev % 65536) + 2 ^ 40 * (r.mbc % 65536)
    | 2 => r.marksDown + 65536 * r.marksUp
    | 3 => match indexOf? (fun p => p.cell = s.myCell) r.pos 0 with
      | none => 0
      | some i => match r.pos? i with
        | none => 0
        | some p => i + 2 ^ 6 + 2 ^ 7 * p.box.length + 2 ^ 11 * (p.box.filter fun b => !b.current).length +
            2 ^ 15 * p.meets.length + 2 ^ 21 * p.kept.length + 2 ^ 25 * b2n p.meetDup
    | _ => r.hdr.ltrip + 65536 * r.hdr.mbmax

def execWstat (d : Reg) (n : BitVec 8) (sel : BitVec 4) (s : State) : Out :=
  .next (s.setScalar d (w64 (s.wstat n.toNat sel.toNat)))

-- Repair (R199).

/-- Write the current arrival's retained tile back into its inbox slot, and for a REC into its meet entry (R199): the handler sees
it, and it lands after the handler's own writes (R214). -/
def State.repair (s : State) : State :=
  match s.me.cur, s.handlerOf s.iss.src with
  | some v, some (r, i) =>
    if v.tag.kind = 4 then s
    else
      let p := (r.pos? i).getD { cell := 0, slot := 0, inbox := 0, retain := 0, meetb := 0 }
      match (p.box.find? fun b => b.slot = v.slot).map (·.fl) with
      | none => s
      | some f =>
        let q := (r.pos? f.frm).getD p
        let n := r.hdr.size
        let e := if v.tag.kind = 1 then (p.meets.find? fun e => e.mb = v.tag.mb).map fun e => p.meetb + e.idx * n else none
        let put (bs : List Byte) (s : State) (a : Nat) : State :=
          ((s.giveBack p.cell a n).spadWrite (s.pathV p.src) p.cell a bs).showSlot p.cell a n
        s.withRegions q.cell (s.teamKey q.src) (regionsOf (q.retain + f.keep * n) n) fun s =>
          s.withRegions p.cell (s.teamKey p.src) (regionsOf v.addr n ++ e.elim [] fun a => regionsOf a n) fun s =>
            let bs := s.spadRead (s.pathV p.src) q.cell (q.retain + f.keep * n) n
            e.elim (put bs s v.addr) (put bs (put bs s v.addr))
  | _, _ => s

end Sys2Proof.Machine
end

