-- ==== Sys2Proof/Machine/Tensor.lean ====
section
/-! DEFINITION. The tensor unit (09 R137 to R162, 06 R107 to R109), ballast as its steps spend it (21 R355), and `TELL` (19 R342,
R343). One attempt of an `MMA` on its unit makes one K-step. -/

namespace Sys2Proof

open Machine

/-- AT and BT. -/
def ASrc.trans : ASrc → Bool
  | .grid => false
  | .desc _ t => t
  | .arrv t => t
def BSrc.trans : BSrc → Bool
  | .flying t => t
  | .desc _ t => t
  | .spare t => t
  | .ver t => t

/-- The element type of an operand format (R40). -/
def MFmt.ety : MFmt → ETy
  | .bf16 => .bf16 | .e4m3 => .e4m3 | .e5m2 => .e5m2 | .mxf8e4 => .mxf8e4 | .mxf8e5 => .mxf8e5 | .mxi8 => .mxi8
  | .mxf4 => .mxf4 | .pni => .pni

/-- Stored rows, their element bytes and the bytes of their scale rows (R140): `t` is transposed, `d` the planes read. -/
def MFmt.stored (f : MFmt) (t : Bool) (d : Nat) : Nat × Nat × Nat :=
  if t then (f.k, 6 * f.ety.width, 0)
  else (48, if f = .pni then 24 * d else 192, if f.isUnscaled then 0 else if f = .mxf4 then 12 else 6)

/-- The values of one operand, 48 lists of K, from the bytes of its stored rows (R89, R93 to R97, R140). -/
def MFmt.values (f : MFmt) (t : Bool) (d : Nat) (mid : Bool) (rows : List (List Byte × List Byte)) : List (List Num) :=
  let w := f.ety.width
  if t then
    let m := rows.map fun r => ((elems w (rowOf r.1)).take 48).map (ETy.num f.ety)
    (List.range 48).map fun i => m.map fun r => (r[i]?).getD .nan
  else if f.isUnscaled then rows.map fun r => (elems w (rowOf r.1)).map (ETy.num f.ety)
  else rows.map fun r =>
    (blockElems f.ety (rowOf r.1)).zipIdx.map fun p => blockNum f.ety p.1 (scaleAt (rowOf r.2) p.2) d mid

/-- One position of a K-step (R107, R108): `old` and the products added exactly and rounded once. -/
def kDot (as bs : List Num) (old : Num) : Nat × NFlags :=
  match (as.zip bs).foldl (fun acc p => (Num.add .rne acc (Num.mul p.1 p.2).1).1) old with
  | .zero _ => (0, 0)
  | x => fp32.round .rne false x

/-- Planes that a depth code reads (R41). -/
def planes (pd : BitVec 3) : Nat := pd.toNat + 2

/-- Ballast tokens of a K-step (R144). -/
def stepTokens (a b : MFmt) (d : Nat) : Nat := if a = .pni && b = .pni && d < 8 then 16 * ((d + 1) / 2) else 96

-- Activations (R157), in fixed point with `fixBits` bits of fraction.

/-- e^-a for a fixed-point `a`; above 512 no rounding can tell it from 2^-1024. -/
def expNeg (a : Nat) : Nat :=
  if 512 * 2 ^ fixBits ≤ a then 1
  else
    let n := a / ln2Fix
    2 ^ (2 * fixBits) / expSeries (a - n * ln2Fix) 180 (2 ^ fixBits) 1 / 2 ^ n

/-- The alternating series t - t^3/3 + ... for t = 1/k: `p` is the current power. -/
def atanInv (k : Nat) : Nat → Nat → Nat → Int
  | 0, _, _ => 0
  | fuel + 1, p, i => (p / i : Nat) - atanInv k fuel (p / (k * k)) (i + 2)
/-- π by Machin's formula. -/
def piFix : Nat := (16 * atanInv 5 240 (2 ^ fixBits / 5) 1 - 4 * atanInv 239 80 (2 ^ fixBits / 239) 1).toNat
/-- 1 / √(2π). -/
def phi0 : Nat := isqrt (2 ^ (3 * fixBits) / (2 * piFix)) 1024 0

/-- x + x^3/3 + x^5/(3·5) + ... for fixed-point x with square `x2`. -/
def phiSeries (x2 : Nat) : Nat → Nat → Nat → Nat
  | 0, _, _ => 0
  | fuel + 1, t, k => t + phiSeries x2 fuel (t * x2 / 2 ^ fixBits / (k + 2)) (k + 2)

/-- The density and distribution of the standard normal at a fixed-point magnitude `a` of at most 20: φ(a) and Φ(a) - 1/2. -/
def normal (a : Nat) : Nat × Nat :=
  let x2 := a * a / 2 ^ fixBits
  let p := phi0 * expNeg (x2 / 2) / 2 ^ fixBits
  (p, p * phiSeries x2 1600 a 1 / 2 ^ fixBits)

/-- A fixed-point result that is not exact. -/
def ofFix (neg : Bool) (v : Nat) : Num := .fin neg (Nat.max 1 v) (-(fixBits : Int)) true
/-- x / y in fixed point. -/
def fixDiv (x y : Nat) : Nat := x * 2 ^ fixBits / y

/-- F of a nonzero finite value. -/
def actFin (act : Nat) (neg : Bool) (m : Nat) (e : Int) : Num :=
  let one := 2 ^ fixBits
  let x : Num := .fin neg m e false
  let a := if e < 0 then m * 2 ^ (e + fixBits).toNat else m * 2 ^ (e.toNat + fixBits)
  let ex := expNeg a
  let sig := if neg then fixDiv ex (one + ex) else fixDiv one (one + ex)
  match act with
  | 0 => x
  | 1 => if neg then .zero false else x
  | 2 => if neg then x.scale (-6) else x
  | 3 => ofFix false sig
  | 4 =>
    let e2 := ex * ex / one
    ofFix neg (fixDiv (one - e2) (one + e2))
  | 5 => .fin neg (Nat.max 1 (m * sig)) (e - fixBits) true
  | _ =>
    if 20 * one < a then (if neg then .fin true 1 (-4096) true else x)
    else
      let half := (normal a).2
      .fin neg (Nat.max 1 (m * (if neg then one / 2 - half else one / 2 + half))) (e - fixBits) true

/-- F' of a nonzero finite value. -/
def derivFin (act : Nat) (neg : Bool) (m : Nat) (e : Int) : Num :=
  let one := 2 ^ fixBits
  let a := if e < 0 then m * 2 ^ (e + fixBits).toNat else m * 2 ^ (e.toNat + fixBits)
  let ex := expNeg a
  let sq (v : Nat) : Nat := v * v / one
  match act with
  | 0 => .one
  | 1 => if neg then .zero false else .one
  | 2 => if neg then .fin false 1 (-6) false else .one
  | 3 => ofFix false (fixDiv ex (sq (one + ex)))
  | 4 => ofFix false (fixDiv (4 * sq ex) (sq (one + sq ex)))
  | 5 =>
    let v : Int := if neg then (ex : Int) * ((one + ex : Nat) - (a : Int)) / (one : Nat) else (one + ex + a * ex / one : Nat)
    ofFix (v < 0) (fixDiv v.natAbs (sq (one + ex)))
  | _ =>
    if 20 * one < a then (if neg then .fin true 1 (-4096) true else .one)
    else
      let (p, half) := normal a
      let v : Int := if neg then (one / 2 : Nat) - (half : Int) - (a * p / one : Nat) else (one / 2 + half + a * p / one : Nat)
      ofFix (v < 0) v.natAbs

/-- F or F' (R157). -/
def activate (act : Nat) (deriv : Bool) (x : Num) : Num :=
  match x, deriv with
  | .nan, _ => .nan
  | .fin neg m e _, false => actFin act neg m e
  | .fin neg m e _, true => derivFin act neg m e
  | .zero neg, false =>
    match act with
    | 1 => .zero false
    | 3 => .fin false 1 (-1) false
    | _ => .zero neg
  | .zero _, true =>
    match act with
    | 0 => .one | 1 => .zero false | 2 => .fin false 1 (-6) false | 3 => .fin false 1 (-2) false | 4 => .one
    | _ => .fin false 1 (-1) false
  | .inf neg, false =>
    match act with
    | 0 => .inf neg
    | 2 => .inf neg
    | 3 => if neg then .zero false else .one
    | 4 => .fin neg 1 0 false
    | _ => if neg then .zero false else .inf false
  | .inf neg, true =>
    match act with
    | 0 => .one
    | 2 => if neg then .fin false 1 (-6) false else .one
    | 3 => .zero false
    | 4 => .zero false
    | _ => if neg then .zero false else .one

-- TELL (R343).

/-- G of R343. -/
def tellG (n a b t : Nat) : Int := (((3 * a + 5 * b + 7 * t + n) % 9 : Nat) : Int) - 4

/-- The formats and planes of tile n (R342). -/
def tellFmt (n : Nat) : MFmt :=
  match n with
  | 0 => .bf16 | 1 => .e4m3 | 2 => .e5m2 | 3 => .mxf8e4 | 4 => .mxf8e5 | 5 => .mxi8 | 6 => .mxf4 | 15 => .bf16 | _ => .pni
def tellPlanes (n : Nat) : Nat := if 8 ≤ n && n < 15 then n - 6 else 8

/-- The operand value as multiplied: PNI at a depth reconstructs it with midpoint fill. -/
def tellVal (n a b t : Nat) : Int :=
  if 8 ≤ n && n < 15 then pniRead (tellG n a b t) (tellPlanes n) true else tellG n a b t

/-- Row `i` of the result of tile n, as FP32. -/
def tellRow (n i : Nat) : List Nat :=
  (List.range 48).map fun j =>
    (fp32.round .rne false (Num.ofInt (((List.range (tellFmt n).k).map fun k => tellVal n i k 1 * tellVal n k j 2).sum))).1

/-- The constant of tile n: CRC-32C over the 9,216 bytes. -/
def tellCrc (n : Nat) : W32 :=
  crc32c ((List.range 48).flatMap fun i => rowBytes (ofElems 32 (tellRow n i)))

end Sys2Proof

namespace Sys2Proof.Machine

-- Ballast (R355).

/-- A column's bucket now. -/
def State.bucket (s : State) (col : Nat) : Column :=
  let c := s.col col
  { c with tok := min 1048576 (c.tok + c.rate * (s.keel - c.at_)), at_ := s.keel }

/-- Set a column's RATE; the tokens gained so far are kept (R355). -/
def State.setRate (s : State) (col r : Nat) : State :=
  let b := s.bucket col
  if b.rate = r then s else s.modCol col fun _ => { b with rate := r }

/-- The bound of RATE at a temperature in degrees (R412). -/
def rateBound (t : Nat) : Nat := if t ≤ 95 then 1023 else if t ≤ 105 then 256 * (105 - t) / 10 else 0

/-- The rate a setting gives: bounded, and scaled when the module takes more than its cap. -/
def State.rateFor (s : State) (t wish : Nat) : Nat :=
  let r := min wish (rateBound t)
  if s.fw.cap < s.fw.power then r * s.fw.cap / s.fw.power else r

/-- The hottest die sensor of a column. -/
def State.hottest (s : State) (col : Nat) : Nat := (List.range 4).foldl (fun m i => max m (tget 0 s.fw.temps (4 * col + i))) 0
/-- Some sensor reads more than 110 degrees, or coolant flow is lost: RATE is 0 in every column. -/
def State.tooHot (s : State) : Bool := s.fw.coolantLost || s.fw.temps.any fun p => decide (110 < p.2)
/-- Root firmware sets a column's RATE (R412). -/
def State.setColumn (s : State) (col : Nat) : State :=
  s.setRate col (if s.tooHot then 0 else s.rateFor (s.hottest col) (tget 256 s.fw.wishes col))
/-- The settings that are due every 10 µs. -/
def State.rateTick (s : State) : State :=
  if s.keel % 10000 = 0 && !s.fw.recovery then (List.range 64).foldl State.setColumn s else s

/-- A thread's step still waits for tokens. -/
def State.stepWaits (s : State) (src : Nat) : Bool :=
  s.unitRuns src && match (s.ctx src).bufT with
    | [] => false
    | e :: _ => (tfind (s.ctx src).qwaits e.id).any fun w => w.kind = 7

/-- The steps of a column that wait, oldest first. -/
def State.colWaits (s : State) (col : Nat) : List Nat := (s.col col).waiting.filter s.stepWaits

/-- A step of the cell asks its column for tokens. -/
def State.asks (s : State) (cell : Nat) : State :=
  s.modCol (columnOf cell) fun c => { c with
    asked := (s.keel + 1, if c.asked.1 = s.keel + 1 then max c.asked.2 (tierOf cell) else tierOf cell) }

/-- A step of a higher tier of the column has asked in this nanosecond: the lower one would have been charged first (R355). -/
def State.tierPast (s : State) (cell : Nat) : Bool :=
  let c := s.col (columnOf cell)
  c.asked.1 = s.keel + 1 && decide (tierOf cell < c.asked.2)

/-- Run `k` once the column's bucket holds `n` tokens for the thread's step, else wait (R144, R355). -/
def State.withTokens (s : State) (n : Nat) (k : State → State) : State :=
  let s := s.asks s.myCell
  let col := columnOf s.myCell
  let live := s.colWaits col
  if 16 * n ≤ (s.bucket col).tok && live.head?.all (· = s.iss.src) then k s
  else (s.modCol col fun c => { c with
    waiting := if live.contains s.iss.src then live else live ++ [s.iss.src] }).waitOn 7 col none

/-- Spend tokens: the step's wait, if any, is over. -/
def State.spend (s : State) (n : Nat) : State :=
  let col := columnOf s.myCell
  let b := s.bucket col
  (s.modCol col fun _ => { b with tok := b.tok - 16 * n, waiting := b.waiting.filter (· ≠ s.iss.src) }).endUnitWait
    s.iss.src s.iss.id

-- Operands (R137 to R143).

/-- Where an operand's stored rows lie in a step. -/
inductive OpAt where
  | grid
  | spad (row : Nat → Int)
  | bank (second : Bool) (row : Nat → Int)

/-- RowAddr of a scratchpad descriptor pair (R139) in step `k`. -/
def descRow (even odd : Word) (k j : Nat) : Int :=
  (even.extractLsb' 0 24).toNat + k * (even.extractLsb' 40 24).toNat +
    ((j : Int) + (odd.extractLsb' 4 12).toInt) * (even.extractLsb' 24 16).toNat

/-- The offset of a stored row in a weight bank (R142). -/
def bankRow (f : MFmt) (t : Bool) (off : BitVec 18) (k j : Nat) : Int :=
  let pb := if f.isUnscaled then 192 else 256
  (off.toNat * 8 + k * (if t then f.k * 192 else 48 * pb) + j * pb : Nat)

/-- The rig header of the string whose handler the thread is. -/
def State.myRig (s : State) : Option RigHdr := (s.handlerOf s.iss.src).map (·.1.hdr)

/-- Where A lies in step `k`; none without a current arrival (R143). -/
def State.aAt (s : State) (f : MmaF) (k : Nat) : Option OpAt :=
  match f.a with
  | .grid => some .grid
  | .desc r _ => some (.spad (descRow (s.scalar r) (s.scalar (r + 1)) k))
  | .arrv _ => match s.me.cur, s.myRig with
    | some v, some h => some (.spad fun j => (v.addr + k * h.tpitch + j * h.rp : Nat))
    | _, _ => none

/-- Where B lies in step `k`: none without a current arrival, an error where neither bank holds the version. -/
def State.bAt (s : State) (f : MmaF) (k : Nat) : Option (Except (BitVec 8) OpAt) :=
  let c := s.cell s.myCell
  let row (t : Bool) : Nat → Int := bankRow f.bf t s.iss.wboff k
  match f.b with
  | .flying t => some (.ok (.bank c.second (row t)))
  | .spare t => some (.ok (.bank (!c.second) (row t)))
  | .desc r _ => some (.ok (.spad (descRow (s.scalar r) (s.scalar (r + 1)) k)))
  | .ver t => s.me.cur.map fun v => match c.bankOf v.tag.ver with
    | some b => .ok (.bank b (row t))
    | none => .error v.tag.ver

/-- The byte ranges a step fetches for an operand. -/
def opRanges (f : MFmt) (t : Bool) (d : Nat) (row : Nat → Int) : List (Int × Nat) :=
  let (n, e, sc) := f.stored t d
  (List.range n).flatMap fun j => (row j, e) :: (if sc = 0 then [] else [(row j + 192, sc)])

/-- The stored rows as bytes. -/
def opRows (f : MFmt) (t : Bool) (d : Nat) (row : Nat → Int) (rd : Nat → Nat → List Byte) : List (List Byte × List Byte) :=
  let (n, e, sc) := f.stored t d
  (List.range n).map fun j => (rd (row j).toNat e, if sc = 0 then [] else rd ((row j).toNat + 192) sc)

/-- All ranges lie below a limit. -/
def rangesOk (l : List (Int × Nat)) (lim : Nat) : Bool := l.all fun p => decide (0 ≤ p.1) && decide (p.1 + p.2 ≤ lim)

/-- Once the regions an operand lies in may be used (R348), `k`. -/
def State.opRegions (s : State) (f : MFmt) (t : Bool) (d : Nat) (at_ : OpAt) (k : State → State) : State :=
  let key := s.teamKey s.iss.src
  match at_ with
  | .grid => k s
  | .spad row =>
    let l := opRanges f t d row
    if rangesOk l Config.spadBytes then
      s.withRegions s.myCell key (l.flatMap fun p => regionsOf p.1.toNat p.2).eraseDups k
    else k s
  | .bank b _ => s.withRegions s.myCell key [24 + b2n b] k

/-- What fetching an operand gives (R140, R142, R150): its values, a range fault or poison. -/
inductive Fetched where
  | vals (l : List (List Num))
  | range
  | poison

def State.fetchOp (s : State) (f : MFmt) (t : Bool) (d : Nat) (mid : Bool) (at_ : OpAt) : Fetched :=
  match at_ with
  | .grid =>
    if (List.range 48).any fun i => s.psnGrid.any fun e => e.1 = s.iss.src && e.2.1 = i then .poison
    else .vals (s.me.grid.toList.map fun r => (elems f.ety.width r).map (ETy.num f.ety))
  | .spad row =>
    let l := opRanges f t d row
    if !(rangesOk l Config.spadBytes) then .range
    else if l.any fun p => s.spadPoisoned s.myCell p.1.toNat p.2 then .poison
    else .vals (f.values t d mid (opRows f t d row (s.spadRead s.pathK s.myCell)))
  | .bank b row =>
    let l := opRanges f t d row
    if !(rangesOk l Config.bankBytes) then .range
    else if l.any fun p => s.bankPoisoned s.myCell b p.1.toNat p.2 then .poison
    else .vals (f.values t d mid (opRows f t d row (s.bankRead s.pathK s.myCell b)))

/-- The first tile row of the current arrival among the fetched bytes whose carried CRC does not hold (R153). -/
def State.badRow (s : State) (l : List (Int × Nat)) : Option Nat :=
  match s.me.cur, s.handlerOf s.iss.src with
  | some v, some (r, i) =>
    let crcs := (((r.pos? i).bind fun p => p.box.find? fun b => b.slot = v.slot).map (·.fl.tile.crcs)).getD []
    crcs.zipIdx.findSome? fun p =>
      let a := v.addr + p.2 * r.hdr.rp
      if (l.any fun x => decide (x.1 < a + r.hdr.rb) && decide ((a : Int) < x.1 + x.2)) &&
          crc32c (s.spadRead s.pathK s.myCell a r.hdr.rb) ≠ p.1 then some p.2 else none
  | _, _ => none

-- MMA (R148).

/-- Poisoned granules of an accumulator are poisoned no longer. -/
def State.cleanAcc (s : State) (a : BitVec 2) : State :=
  { s with psnAcc := s.psnAcc.filter fun p => p.1 ≠ s.iss.src * 4 + a.toNat }

/-- The accumulator after a K-step on operand values, and the step's flags. -/
def Acc.kStep (a : Acc) (as bs : List (List Num)) : Acc × NFlags :=
  let rows : List (List (Nat × NFlags)) := (as.zip a.rows.toList).map fun p =>
    (bs.zip (elems 32 p.2)).map fun q => kDot p.1 q.1 (fp32.num q.2)
  ({ a with
      rows := Vector.ofFn fun i => ofElems 32 (((rows[i.val]?).getD []).map (·.1))
      prog := a.prog + 1, steps := a.steps + 1 },
    rows.foldl (fun acc r => r.foldl (fun acc e => acc ||| e.2) acc) 0)

/-- A value that is neither a NaN nor infinite. -/
def finiteNum : Num → Bool
  | .nan | .inf _ => false
  | _ => true

/-- A row of the step is compared under R152: no operand of it, and no position of the accumulator row it starts from, is a NaN
or infinite, so no product or result is one under R108 (R351). A result that overflows under R107 is compared. -/
def comparesRow (as bs : List (List Num)) (old : Vector Row 48) : Bool :=
  let fin32 (r : Row) : Bool := (elems 32 r).all fun x => finiteNum (fp32.num x)
  (bs.all fun l => l.all finiteNum) && (as.zip old.toList).any fun p => p.1.all finiteNum && fin32 p.2

/-- The step has its operands: it completes, or fails whole (R150). -/
def State.kStep (s : State) (f : MmaF) (a b : OpAt) : State :=
  let d := planes f.pd
  match s.fetchOp f.af f.a.trans d f.pf a, s.fetchOp f.bf f.b.trans d f.pf b with
  | .range, _ => s.fatal .spadRange
  | _, .range => s.fatal .spadRange
  | .poison, _ => s.poisoned
  | _, .poison => s.poisoned
  | .vals as, .vals bs =>
    let bad := match f.a, a with
      | .arrv t, .spad row => if f.ck then s.badRow (opRanges f.af t d row) else none
      | _, _ => none
    match bad with
    | some r => s.damage .carriedCheck (BitVec.ofNat 32 r)
    | none =>
      if s.accPoisoned f.acc then s.poisoned
      else
        let a := s.me.acc f.acc
        let (x, fl) := a.kStep as bs
        if s.me.checkErr && comparesRow as bs a.rows then
          (s.modMe fun c => { c with checkErr := false }).damage .kstepCheck (BitVec.ofNat 32 a.prog)
        else
        let fin := x.cnt ≤ x.prog
        let s := (s.modMe fun c => c.setAcc f.acc { x with begun := !fin }).orFlags fl
        if fin then s else s.again

/-- The `MMA` begins (R148): Z and the counts, unless its accumulator is begun. -/
def State.mmaBegin (s : State) (f : MmaF) : State :=
  let a := s.me.acc f.acc
  let n := if f.ks = 0 then (s.scalar 1).toNat % 65536 else f.ks.toNat
  if a.begun then s
  else
    let s := if f.z then s.cleanAcc f.acc else s
    s.modMe fun c => c.setAcc f.acc { a with
      rows := if f.z then Vector.replicate 48 0 else a.rows, prog := 0, cnt := n, begun := true }

/-- One attempt of an `MMA`. -/
def State.mma (s : State) (f : MmaF) : State :=
  if (match f.a with | .arrv _ => true | _ => false) && (s.me.cur.isNone || s.myRig.isNone) ||
      (match f.b with | .ver _ => true | _ => false) && s.me.cur.isNone then s.fatal .illegal
  else
    let s := s.mmaBegin f
    let a := s.me.acc f.acc
    if a.cnt ≤ a.prog then s.modMe fun c => c.setAcc f.acc { a with begun := false }
    else
      let n := stepTokens f.af f.bf (planes f.pd)
      s.withTokens n fun s =>
        match s.aAt f a.prog, s.bAt f a.prog with
        | some x, some (.ok y) =>
          s.opRegions f.af f.a.trans (planes f.pd) x fun s =>
            s.opRegions f.bf f.b.trans (planes f.pd) y fun s => (s.spend n).kStep f x y
        | _, some (.error v) => (s.endUnitWait s.iss.src s.iss.id).trap .versionLost (v.setWidth 32)
        | _, _ => s.fatal .illegal

/-- The transfer an entry waits for (R316). -/
def State.wakeOf (s : State) : Option (Nat × Nat) := (s.me.bufT.find? fun e => e.id = s.iss.id).bind (·.wake)

/-- A follow-on waits for its transfer, whose writes it sees (R245); where that failed it is dropped, with damage delivered at it
(R310, R316). -/
def State.afterWake (s : State) (k : State → State) : State :=
  match s.wakeOf with
  | none => k s
  | some (ch, w) =>
    if !((s.chan ch).isDone w) then s.stall
    else match (s.chan ch).fails.find? fun x => x.1 = w with
      | none => k (s.orderLate s.myCell (fun x => x.src = xferAgent ch w) 0 [entryAgent s.iss.id])
      | some (_, code) =>
        let row := ((s.me.deliver.find? fun e => e.1 = ch && e.2.1 = w).map (·.2.2.2)).getD 0
        let s := s.modMe fun c => { c with deliver := c.deliver.filter fun e => !(e.1 = ch && e.2.1 = w) }
        if code = 9 then s.damage .carriedCheck (BitVec.ofNat 32 row) else if code = 10 then s.poisoned else s

def execMma (f : MmaF) (s : State) : Out := .next (s.afterWake fun s => s.mma f)

/-- K_STEP (R148, R149): the next step of the `MMA` at the head of the tensor buffer of thread `arg.a`. -/
def execKStep (s : State) : Out :=
  let src := s.arg.a
  match (s.ctx src).bufT with
  | e :: _ =>
    match e.instr with
    | .mma f => if s.unitRuns src then .next (((s.beginU src .t e).afterWake fun s => s.mma f).finishU .t) else .next s
    | _ => .next s
  | [] => .next s

-- Accumulator instructions (R161).

def execMzero (a : BitVec 2) (s : State) : Out :=
  .next ((s.cleanAcc a).modMe fun c => c.setAcc a (c.acc a).cleared)

def execMlda (a : BitVec 2) (r : Reg) (s : State) : Out :=
  let x := (s.scalar r).toNat
  .next (s.withSpad x 9216 fun s =>
    if s.spadPoisoned s.myCell x 9216 then s.poisoned
    else
      let rows : Vector Row 48 := Vector.ofFn fun i => rowOf (s.spadRead s.pathK s.myCell (x + 192 * i.val) 192)
      (s.cleanAcc a).modMe fun c => c.setAcc a { (c.acc a).cleared with rows := rows })

def execMsta (a : BitVec 2) (r : Reg) (s : State) : Out :=
  let x := (s.scalar r).toNat
  .next (s.withSpad x 9216 fun s =>
    if s.accPoisoned a then s.poisoned else s.spadWrite s.pathK s.myCell x (s.me.acc a).bytes)

/-- The word of MPROG. -/
def Acc.progWord (a : Acc) : Word :=
  w64 (a.prog % 65536 + 2 ^ 16 * (a.cnt % 65536) + 2 ^ 32 * b2n a.begun + 2 ^ 33 * b2n a.restart.isSome)
def execMprog (d : Reg) (a : BitVec 2) (s : State) : Out := .next (s.setScalar d (s.me.acc a).progWord)

def execMrst (a : BitVec 2) (off : BitVec 18) (s : State) : Out :=
  .next (s.modMe fun c => c.setAcc a { c.acc a with
    restart := if off = 0 then none else some (s.iss.pc + 8 * off.signExtend 64), steps := 0 })

-- EPI (R156 to R160).

/-- One value of an accumulator row through scale, bias and activation (R156). -/
def epiVal (f : EpiF) (scale : Option Num) (bias : Option Nat) (v : Nat) : Nat × NFlags :=
  let (v, f1) := match scale with
    | some k => rounded .f32 .rne false (Num.mul (fp32.num v) k)
    | none => (v, 0)
  let (v, f2) := match bias with
    | some b => rounded .f32 .rne false (Num.add .rne (fp32.num v) (fp32.num b))
    | none => (v, 0)
  let (v, f3) := if f.act = 0 && !f.deriv && !(fp32.num v).isNan then (v, 0)
    else fp32.round .rne false (activate f.act.toNat f.deriv (fp32.num v))
  (v, f1 ||| f2 ||| f3)

/-- The values of every accumulator row after the row-valid stage, with each row's flags. -/
def epiVals (f : EpiF) (a : Acc) (scale : Option Num) (bias : Option Row) (rvm : BitVec 48) : List (List Nat × NFlags) :=
  a.rows.toList.zipIdx.map fun p =>
    if f.rv && !(rvm.getLsbD p.2) then (List.replicate 48 0, 0)
    else
      let l := (elems 32 p.1).zipIdx.map fun q => epiVal f scale (bias.map fun b => (rowWord b q.2).toNat) q.1
      (l.map (·.1), l.foldl (fun acc x => acc ||| x.2) 0)

/-- An output row: element bytes, scale bytes (none for TY 0 to 4) and flags. -/
structure EpiRow where
  e : List Byte
  sc : List Byte
  fl : NFlags

/-- Accumulator rows per output row (R158). -/
def epiGroup (t : ETy) : Nat := if !t.isBlock then 1 else if t = .mxf4 then 8 else 4

/-- Groups of `n`. -/
def groupsOf {α : Type} (n : Nat) : Nat → List α → List (List α)
  | 0, _ => []
  | k + 1, l => l.take n :: groupsOf n k (l.drop n)

/-- The output rows (R156, R158). -/
def epiRows (f : EpiF) (vals : List (List Nat × NFlags)) : List EpiRow :=
  let g := epiGroup f.ty
  (groupsOf g (48 / g) vals).map fun rs =>
    let fl := rs.foldl (fun acc r => acc ||| r.2) 0
    let xs := (rs.flatMap (·.1)).map fp32.num
    if f.ty.isBlock then
      let (e, sc, q) := quantRow f.ty xs
      ⟨rowBytes e, (rowBytes sc).take (if f.ty = .mxf4 then 12 else 6), fl ||| q⟩
    else
      let l := xs.map ((fmtOf f.ty).round f.rm f.sat)
      ⟨(rowBytes (ofElems f.ty.width (l.map (·.1)))).take (6 * f.ty.width), [], l.foldl (fun acc x => acc ||| x.2) fl⟩

/-- The bytes of an output row at a scratchpad or pass destination: 256 for the scaled types. -/
def EpiRow.bytes (r : EpiRow) : List Byte := if r.sc.isEmpty then r.e else slice (r.e ++ r.sc) 0 256
/-- Bytes per output row. -/
def epiPitch (t : ETy) : Nat := if t.isBlock then 256 else 6 * t.width

/-- The check block (R158). -/
def checkBlock (f : EpiF) (rvm : BitVec 48) (rows : List (List Byte)) : List Byte :=
  slice (slice (rows.flatMap fun r => leBytes 4 (crc32c r).toNat) 0 192 ++
    leBytes 6 (if f.rv then rvm.toNat else 2 ^ 48 - 1) ++ leBytes 1 f.ty.code.toNat ++ leBytes 1 rows.length) 0 512

/-- The slots of an output row: the elements, and the scale row of a scaled type. -/
def EpiRow.slots (r : EpiRow) (pc : Word) (fin : Bool) (at_ : Nat) : List Slot :=
  ([r.e] ++ (if r.sc.isEmpty then [] else [r.sc])).map fun b =>
    { data := rowOf b, fin := fin, crc := some (crc32c b, b.length, pc), at_ := at_ }

/-- Push output rows from `prog` on while slots are free (R25, R158); the last row ends the queues. -/
def State.pushEpi (s : State) (q : BitVec 2) : Nat → List EpiRow → State
  | _, [] => s
  | fuel, r :: rs =>
    let slots := r.slots s.iss.pc rs.isEmpty (s.keel + 1)
    match (slots.zipIdx.map fun p => q + BitVec.ofNat 2 p.2).find? fun q => !(s.canPush q 1) with
    | some q => s.waitOn 0 (queueObj ⟨true, q⟩) none
    | none =>
      match fuel with
      | 0 => s.again
      | fuel + 1 =>
        let s := slots.zipIdx.foldl (fun s p => s.modMe fun c =>
          let q := q + BitVec.ofNat 2 p.2
          c.setSq q ((c.sq q).push [p.1])) (s.endUnitWait s.iss.src s.iss.id)
        State.pushEpi { (s.orFlags r.fl) with iss := { s.iss with prog := s.iss.prog + 1 } } q fuel rs

/-- The rows go to their destination. An `EPI` to pass whose arrival has already been passed sends nothing, and sets its flags
(log 30). -/
def State.epiSend (s : State) (f : EpiF) (rows : List EpiRow) : State :=
  let flags (s : State) : State := s.orFlags (rows.foldl (fun acc r => acc ||| r.fl) 0)
  match f.dest with
  | .spad r =>
    let x := (s.scalar r).toNat
    let bs := rows.map EpiRow.bytes
    s.withSpad x (rows.length * epiPitch f.ty + 512) fun s =>
      flags (s.spadWrite s.pathK s.myCell x (bs.flatten ++ checkBlock f s.iss.rvm bs))
  | .sq q =>
    -- an attempt that pushed rows has used the unit's issue
    let s' := s.pushEpi q 48 (rows.drop s.iss.prog)
    if s'.iss.flow = .stalled && s'.iss.prog ≠ s.iss.prog then s'.again else s'
  | .pass =>
    let s' := s.passTile none s.iss.rvm (fun h => h.tr = rows.length && h.rb = epiPitch f.ty)
      fun s _ k => k s (rows.map EpiRow.bytes)
    match s'.iss.flow with
    | .fall => flags s'
    | _ => s'

/-- The bias row, read as the instruction begins (R160), and then `k`. -/
def State.withBias (s : State) (c : Reg) (k : State → State) : State :=
  if c = 0 || s.iss.bias.isSome then k s
  else
    let x := (s.scalar c).toNat
    s.withSpad x 192 fun s =>
      if s.spadPoisoned s.myCell x 192 then s.poisoned
      else k { s with iss := { s.iss with bias := some (rowOf (s.spadRead s.pathK s.myCell x 192)) } }

/-- An `EPI` (R156 to R160): the bias row is read first, and the watch traps before the destination is
looked at (log 30). -/
def State.epi (s : State) (f : EpiF) : State :=
  s.withBias f.c fun s =>
    if s.accPoisoned f.acc then s.poisoned
    else
      let scale := if f.b = 0 then none else some (fp32.num ((s.scalar f.b).toNat % 2 ^ 32))
      let vals := epiVals f (s.me.acc f.acc) scale s.iss.bias s.iss.rvm
      if f.watch && s.iss.prog = 0 && vals.any fun r => r.1.any fun v => (fp32.num v).isNan then
        s.trap .numeric (f.acc.setWidth 32)
      else s.epiSend f (epiRows f vals)

def execEpi (f : EpiF) (s : State) : Out := .next (s.epi f)

-- TELL (R342).

def execTell (n : BitVec 4) (s : State) : Out :=
  let t := stepTokens (tellFmt n.toNat) (tellFmt n.toNat) (tellPlanes n.toNat)
  .next (s.withTokens t fun s =>
    let s := s.spend t
    if some (tellCrc n.toNat) = s.iss.xtnd then s else s.damage .telltale (n.setWidth 32))

/-- TILE_SEND (R189): a send of thread `arg.a` that waits, in `ARRV`, `ADMIT` or at the head of its tensor buffer, tries again. -/
def execTileSend (s : State) : Out :=
  let src := s.arg.a
  let send (e : Entry) (k : State → Out) : Out :=
    if s.unitRuns src then
      match k (s.beginU src .t e) with
      | .next t => .next (t.finishU .t)
      | o => o
    else .next s
  match (s.ctx src).bufT with
  | e :: _ =>
    match e.instr with
    | .pass a up => send e (execPass a up)
    | .epi f => if f.dest = .pass then send e (execEpi f) else .next s
    | _ => .next s
  | [] => .next (s.retry src fun i => match i with
      | .admitTile n a b c => some fun t => t.admitTile n a b c
      | .arrv d => some fun t => t.arrv d
      | _ => none)

end Sys2Proof.Machine
end

