-- ==== Sys2Proof/Machine/Preempt.lean ====
section
/-! DEFINITION. The hardware scheduler (24 R389 to R391) and pre-emption (19 R345 to R349, 20 R350, 24 R392 to R396): requests, the
estimator, stopping, saving, restoring, lazy regions, and save slots. -/

namespace Sys2Proof.Machine

-- Queues and slots (R389, R390).

/-- The queue a context's node was launched by. -/
def State.queueOfCtx (s : State) (src : Nat) : Option Nat := ((s.ctx src).node.bind s.launch).map (·.queue)
/-- The context is in use and may be pre-empted: no dump. -/
def State.preemptable (s : State) (src : Nat) : Bool :=
  let st := (s.ctx src).status
  st ≠ .free && st ≠ .frozen && st ≠ .attached
/-- The contexts in use by a queue's nodes that pre-emption can stop. -/
def State.queueCtxs (s : State) (q : Nat) : List Nat :=
  (s.ctxs.map (·.1)).filter fun src => s.preemptable src && s.queueOfCtx src = some q

/-- The queue is busy (R389): packets not taken, a node ready or running, or a team saved by the scheduler. -/
def State.queueBusy (s : State) (q : Nat) : Bool :=
  let u := s.queue q
  decide (u.ridx < u.widx) || u.hand.isSome ||
  (s.launches.any fun l => l.queue = q && l.nodes.any fun n => n.state = 2 || n.state = 3 || s.nodeReady l.part n) ||
  s.slots.any fun k => !k.host && k.queue = some q && !k.members.isEmpty

/-- The queue is enabled, WEIGHT not 0 (R385), and waits for a slot (R389). -/
def State.queueWaits (s : State) (q : Nat) : Bool := (s.queue q).weight ≠ 0 && (s.queue q).slot.isNone && s.queueBusy q
def State.queuesOf (s : State) (part : Nat) : List Nat := (s.queues.map (·.1)).filter fun q => s.partOfQueue q = part
/-- Free active slots of a partition, in order. -/
def State.freeQSlots (s : State) (part : Nat) : List Nat :=
  (List.range (32 / s.nparts)).filter fun i => !((s.queuesOf part).any fun q => (s.queue q).slot = some i)

/-- The queue that has waited longest. -/
def State.longestWait (s : State) (part : Nat) : Option Nat :=
  let l := (s.queuesOf part).filter s.queueWaits
  let w (q : Nat) : Nat := (s.queue q).waitFrom.getD s.keel
  l.find? fun q => l.all fun r => w q < w r || (w q = w r && q ≤ r)

/-- A queue's block as it must stand now: a mapped queue that is busy no more, or whose slice is over, has let its slot go (R389, R391),
and one that waits says since when. -/
def State.queueNow (s : State) (q : Nat) : UQueue :=
  let u := s.queue q
  let busy := u.weight ≠ 0 && s.queueBusy q
  if u.slot.isSome then
    if !busy then { u with slot := none, deficit := 0, slicing := false }
    else if u.slicing && (s.queueCtxs q).isEmpty && (s.part (s.partOfQueue q)).pres.all fun p => p.host || p.queue ≠ some q then
      { u with slot := none, slicing := false, waitFrom := some s.keel }
    else u
  else { u with waitFrom := if busy then some (u.waitFrom.getD s.keel) else none }

/-- A queue whose block does not stand as it must. -/
def State.staleQueue (s : State) : Option Nat := (s.queues.map (·.1)).find? fun q => s.queueNow q ≠ s.queue q

/-- The queues of a partition let go what they hold no more. -/
def State.settleQueues (s : State) (part : Nat) : State :=
  (s.queuesOf part).foldl (fun s q => if s.queueNow q = s.queue q then s else s.modQueue q fun _ => s.queueNow q) s

/-- QUEUE_SLOT_MAP (R389, R390): `arg.a` is the partition. -/
def execQueueSlotMap (s : State) : Out :=
  let s := s.settleQueues s.arg.a
  if !s.fw.service then .next s
  else match s.freeQSlots s.arg.a, s.longestWait s.arg.a with
    | i :: _, some q => .next (s.modQueue q fun u => { u with
        slot := some i, deficit := u.deficit + (u.weight * 10000 : Nat), waitFrom := none, slicing := false })
    | _, _ => .next s

/-- A nanosecond is charged to every mapped queue (R390). -/
def State.queueTick (s : State) : State :=
  { s with queues := s.queues.map fun q => (q.1, if q.2.slot.isSome then { q.2 with deficit := q.2.deficit - 1 } else q.2) }

/-- Slots whose team is restored and whose regions are all back are free. -/
def State.dropSlots (s : State) : State :=
  { s with slots := s.slots.filter fun k => !k.members.isEmpty || k.regions.any fun p =>
      (s.cell p.1).reload.any fun e => e.1 = p.2 }

/-- Deadlines that have passed are dropped. -/
def State.dropSwaps (s : State) : State :=
  { s with parts := s.parts.map fun p => (p.1, { p.2 with swaps := p.2.swaps.filter fun d => s.keel ≤ d }) }

/-- Streams that stand waiting for their queue at the end of a nanosecond wait (R27, R405). -/
def State.markStreams (s : State) : State :=
  s.ctxs.foldl (fun s c =>
    if c.2.streams.isEmpty || !(s.unitRuns c.1) then s else c.2.streams.foldl (fun s t => s.markRow c.1 t.ent.id) s) s

/-- The Keel advances. -/
def State.tick (s : State) : State :=
  let s := { s.markStreams.standChans with keel := s.keel + 1, atoms := [] }
  let s := s.parts.foldl (fun s p => if p.2.notes.isEmpty then s else s.drainNotes p.1) s
  let s := if s.slots.isEmpty then s else s.dropSlots
  s.dropSwaps.queueTick.poolTick.idleFlits.rateTick

-- Requests (R345, R391, R392).

/-- The team of a thread as members that pre-emption stops. -/
def State.mates (s : State) (part src : Nat) : List (Nat × Option Nat) :=
  let l := match (s.ctx src).team with
    | some t => ((s.teamOf part t).elim [] (·.members)).map fun (m : Nat × Nat) => m.2
    | none => [src]
  (l.filter s.preemptable).map fun m => (m, (s.ctx m).node)

/-- A member is still the thread that the request found. -/
def State.sameThread (s : State) (m : Nat × Option Nat) : Bool := s.preemptable m.1 && (s.ctx m.1).node = m.2
def State.liveMembers (s : State) (p : Preempt) : List Nat := (p.members.filter s.sameThread).map (·.1)

/-- The team is already being pre-empted. -/
def State.inRequest (s : State) (part src : Nat) : Bool :=
  (s.part part).pres.any fun p => p.members.any fun m => m.1 = src && s.sameThread m

def State.addPre (s : State) (part : Nat) (p : Preempt) : State := s.modPart part fun x => { x with pres := x.pres ++ [p] }
def State.modPres (s : State) (part : Nat) (p : Preempt) (f : Preempt → Option Preempt) : State :=
  s.modPart part fun x => { x with pres := x.pres.filterMap fun y => if y = p then f y else some y }

/-- End a queue's slice (R391): a request for every team that holds contexts of its nodes, but for those of a request already made. -/
def State.endSlice (s : State) (q : Nat) : State :=
  let part := s.partOfQueue q
  let s := s.modQueue q fun u => { u with slicing := true }
  (s.queueCtxs q).foldl (fun s src =>
    if s.inRequest part src then s
    else s.addPre part { members := s.mates part src, team := (s.ctx src).team, t0 := s.keel, rd := s.keel + 8000, want := 0
                         host := false, queue := some q }) s

/-- The slice goes on as if no queue waited. -/
def State.renewSlice (s : State) (q : Nat) : State :=
  s.modQueue q fun u => { u with slicing := false, deficit := u.deficit + (u.weight * 10000 : Nat) }

/-- A context of a queue whose slice ends stands in no request: the one it stood in came to nothing. -/
def State.orphans (s : State) (q : Nat) : Bool :=
  (s.queue q).slicing && (s.queueCtxs q).any fun src => !(s.inRequest (s.partOfQueue q) src)

/-- SLICE_END (R390): `arg.a` is a mapped queue whose deficit is spent, or whose slice goes on ending. One slice ends for each waiting
queue. -/
def execSliceEnd (s : State) : Out :=
  let q := s.arg.a
  let u := s.queue q
  let part := s.partOfQueue q
  if u.slicing then .next (s.endSlice q)
  else if u.slot.isNone || 0 < u.deficit then .next s
  else
    let waiting := ((s.queuesOf part).filter s.queueWaits).length
    let ending := ((s.queuesOf part).filter fun r => (s.queue r).slicing).length
    .next (if ending < waiting then s.endSlice q else s.renewSlice q)

/-- The PRSTAT word (R392). -/
def prstatWord (state mode slot : Nat) : Nat := state + 8 * mode + 256 * slot
def State.setPrstat (s : State) (part v : Nat) : State := s.modPart part fun p => { p with prstat := v }

/-- PREQ_WRITE (R392): `arg.a` is the partition, `arg.w` the value. A frozen thread names its team, whose other members are pre-empted
(R349). -/
def execPreqWrite (s : State) : Out :=
  let part := s.arg.a
  let v := s.arg.w.toNat
  let p := s.part part
  let id := v % 65536
  let src : Option Nat :=
    if bitsOf v 16 1 = 1 then (if id < 1024 && s.partOfSrc id = part then some id else none)
    else (s.teamOf part id).bind fun t => (t.members.find? fun m => s.preemptable m.2).map (·.2)
  let mates := (src.filter fun m => (s.ctx m).status ≠ .free).elim [] (s.mates part)
  if !p.pres.isEmpty then .next (s.setPrstat part (prstatWord 5 0 0))
  else if mates.isEmpty then .next (s.setPrstat part (prstatWord 3 0 0))
  else
    let team := src.bind fun m => (s.ctx m).team
    let queue := mates.findSome? fun m => s.queueOfCtx m.1
    .next ((s.setPrstat part (prstatWord 1 0 0)).addPre part
      { members := mates, team := team, t0 := s.keel, rd := max p.prdl (s.keel + 8000), want := bitsOf v 18 2
        host := true, queue := queue })

-- The mode (R346).

/-- The strings a team rigged. -/
def State.teamStrs (s : State) (part : Nat) (team : Option Nat) (live : List Nat) : List Str :=
  s.strs.filter fun r => r.part = part && match team with
    | some t => r.team = some t
    | none => r.team.isNone && live.contains r.rigger

def Ctx.eligible (c : Ctx) : Bool := (c.accs.toList.any fun a => a.restart.isSome) && !(c.tstate.getLsbD 0)

/-- Every member is discard-eligible. -/
def State.discardable (s : State) (part : Nat) (p : Preempt) : Bool :=
  let l := s.liveMembers p
  (l.all fun m => (s.ctx m).eligible) && (s.teamStrs part p.team l).isEmpty

/-- The mode a request is carried out in. -/
def State.modeOf (s : State) (part : Nat) (p : Preempt) : Nat :=
  let l := s.liveMembers p
  let hint (m : Nat) : Nat := (s.ctx m).drhint.toNat
  let steps := (l.map fun m => ((s.ctx m).accs.toList.map (·.steps)).sum).sum
  match p.want with
  | 1 => 1
  | 2 => if s.discardable part p then 2 else 3
  | 3 => 3
  | _ =>
    if l.all fun m => hint m ≠ 0 && decide (hint m + 5000 ≤ p.rd) then 1
    else if s.discardable part p && decide (steps ≤ (s.part part).pdisc) then 2
    else 3

-- Save slots (R393, R394).

def insertNat (x : Nat) : List Nat → List Nat
  | [] => [x]
  | y :: l => if x < y then x :: y :: l else if x = y then y :: l else y :: insertNat x l
/-- The cells of some contexts, ascending. -/
def cellsOf (l : List Nat) : List Nat := l.foldl (fun acc m => insertNat (cellOf m) acc) []

/-- STRSZ. -/
def strSize (l : List Str) : Nat := (l.map fun r => 4096 + 4 * (r.hdr.n - 1) * r.hdr.tr * (r.hdr.rb + 4)).sum
def slotNeed (members cells strsz : Nat) : Nat := 8192 + 65536 * members + 1024 * cells + strsz + 0x580000 * cells

/-- The lowest free slot, if it is large enough for the members. -/
def State.freeSlot (s : State) (part : Nat) (p : Preempt) : Option Nat :=
  let x := s.part part
  let l := s.liveMembers p
  if slotNeed l.length (cellsOf l).length (strSize (s.teamStrs part p.team l)) ≤ x.sasz then
    (List.range (min x.sanum 64)).find? fun i =>
      !(s.slots.any fun k => k.part = part && k.slot = i) && !(x.pres.any fun y => y.slot = some i)
  else none

-- Stopping (R347).

/-- The channels of some cells. -/
def chansOf (cells : List Nat) : List Nat := cells.flatMap fun c => [4 * c, 4 * c + 1, 4 * c + 2, 4 * c + 3]

/-- Stop a context under R21, keeping everything: loads in flight go back to the head of the access buffer. -/
def State.stopCtx (s : State) (src : Nat) : State :=
  let s := s.stopWaits src
  (s.modCtx src fun c => { c with
    status := if c.status = .halted then .halted else .stopped
    resumeTo := if c.status = .halted then c.resumeTo else c.status
    bufA := c.loads.map (·.ent) ++ c.bufA, loads := []
    pc := (c.pfx.map (·.pc0)).getD c.pc, pfx := none
    haltWait := false, preempt := 3 }).freezeStr src

/-- What a discard leaves of a context: it goes on at the restart address of its lowest-numbered accumulator that has one. -/
def Ctx.discarded (c : Ctx) : Ctx :=
  { c with
    bufA := [], bufE := [], bufT := [], streams := [], loads := [], qwaits := [], wait := none, preempt := 2
    lqs := c.lqs.map Queue.emptied, sqs := c.sqs.map Queue.emptied
    accs := c.accs.map Acc.cleared
    pc := (c.accs.toList.findSome? (·.restart)).getD c.pc }

/-- Stop some members for a save or a discard into a slot. -/
def State.stopMembers (s : State) (part : Nat) (p : Preempt) (mode slot : Nat) : State :=
  let l := s.liveMembers p
  let s := l.foldl (fun s m => (s.stopCtx m).unpin m) s
  let s := if mode = 2 then l.foldl (fun s m => (s.cleanAccs m).modCtx m Ctx.discarded) s else s
  let s := (chansOf (cellsOf l)).foldl (fun s ch => (s.modChan ch fun c => { c with held := true }).unhold (chanSrc ch)) s
  let s := s.modPres part p fun p => some { p with mode := mode, slot := some slot, stopped := true, stopAt := s.keel }
  if p.host then s.modPart part fun x => { x with prtime := s.keel } else s

/-- The record of kind 6 (R393). -/
def State.noSlot (s : State) (part : Nat) (p : Preempt) (q : Nat) : State :=
  s.postRecord part ⟨s.keel, 2083⟩ (noteBytes s.keel 0 6 (p.team.getD 0xFFFF + 65536 * q) 0 2083)

/-- No save slot is there (R393): nothing is stopped. A slice that goes on needs none of its requests. -/
def State.noRoom (s : State) (part : Nat) (p : Preempt) : State :=
  match p.queue.filter fun _ => !p.host with
  | some q =>
    let s := s.modPart part fun x => { x with pres := x.pres.filter fun y => y.host || y.queue ≠ some q || y.stopped }
    (s.renewSlice q).noSlot part p q
  | none => (s.modPres part p fun _ => none).setPrstat part (prstatWord 4 0 0)

/-- The request is over: the incoming team is to issue by RD (R349). -/
def State.preDone (s : State) (part : Nat) (p : Preempt) (mode slot : Nat) : State :=
  let s := s.modPres part p fun _ => none
  let s := if p.late then s else s.modPart part fun x => { x with swaps := x.swaps ++ [p.rd] }
  if !p.host then s
  else (if mode = 1 then s.modPart part fun x => { x with prtime := s.keel } else s).setPrstat part (prstatWord 2 mode slot)

/-- PREEMPTION_STOP (R346, R347): `arg.a` is the partition; its oldest request whose mode is still to be chosen. -/
def execPreemptionStop (s : State) : Out :=
  let part := s.arg.a
  match (s.part part).pres.find? fun p => p.mode = 0 with
  | none => .next s
  | some p =>
    if (s.liveMembers p).isEmpty then .next (s.preDone part p 1 0)
    else
      match s.modeOf part p with
      | 1 => .next (s.modPres part p fun p => some { p with mode := 1 })
      | m => match s.freeSlot part p with
        | some k => .next (s.stopMembers part p m k)
        | none => .next (s.noRoom part p)

/-- DRAIN_WINDOW_END (R347, R393): `arg.a` is the partition. A drain whose members have all ended is done; at RD - 5,000 those still
running are saved, or run on where no slot is free. -/
def execDrainWindowEnd (s : State) : Out :=
  let part := s.arg.a
  match (s.part part).pres.find? fun p => p.mode = 1 && (s.liveMembers p).isEmpty with
  | some p => .next (s.preDone part p 1 0)
  | none =>
    match (s.part part).pres.find? fun p => p.mode = 1 && !p.late && decide (p.rd ≤ s.keel + 5000) with
    | none => .next s
    | some p => match s.freeSlot part p with
      | some k => .next (s.stopMembers part p 3 k)
      | none => .next (s.modPres part p fun p => some { p with late := true })

-- The exchange (R348).

def CellSt.bankTags (c : CellSt) : BankTags := ⟨c.second, c.verF, c.verS, c.valF, c.valS⟩

/-- The sources of a team's members and of its open episode, renamed. -/
def Team.mapSrc (t : Team) (f : Nat → Nat) : Team :=
  { t with
    members := t.members.map fun m => (m.1, f m.2)
    ep := t.ep.map fun e => ⟨e.waiting.map f, e.arrived.map f⟩ }
/-- The number by which a team names a member that lies in a save slot: its context may run another thread. -/
def savedSrc (slot src : Nat) : Nat := src + 4096 * (slot + 1)

/-- The regions and reloads of one key become those of another. -/
def CellSt.rekey (c : CellSt) (a b : Nat) : CellSt :=
  { c with
    owners := c.owners.map fun o => if o.2 = a then (o.1, b) else o
    reload := c.reload.map fun r => if r.2.1 = a then (r.1, b, r.2.2) else r }

/-- The tiles that strings hold in the scratchpads of their cells (R202). -/
def State.boxesOf (s : State) (l : List Str) : List (Nat × Nat × List Byte) :=
  l.flatMap fun r => r.pos.flatMap fun p =>
    (p.box.map (fun b => p.inbox + b.slot * r.hdr.size) ++ p.meets.map (fun e => p.meetb + e.idx * r.hdr.size) ++
      p.kept.map (fun t => p.retain + t.1 * r.hdr.size)).map fun a => (p.cell, a, s.spadNow p.cell a r.hdr.size)
/-- They stand there again: where another team has written over one, its bytes come back. -/
def State.boxesBack (s : State) (l : List (Nat × Nat × List Byte)) : State :=
  l.foldl (fun s b => if s.spadNow b.1 b.2.1 b.2.2.length = b.2.2 then s else s.spadPut b.1 b.2.1 b.2.2) s

/-- Move the state of stopped members into their slot, and free their contexts. -/
def State.saveTeam (s : State) (part : Nat) (p : Preempt) (slot : Nat) : State :=
  let l := s.liveMembers p
  let cells := cellsOf l
  let mine (v : Ver) : Bool := l.contains v.src && !v.dead
  let strs := s.teamStrs part p.team l
  let k : SaveSlot := {
    part := part, slot := slot, team := p.team, mode := p.mode, host := p.host, queue := p.queue, at_ := p.stopAt
    members := l.map fun m => (m, { s.ctx m with preempt := 0 })
    cells := cells
    chans := (chansOf cells).filterMap fun ch => if s.chan ch = { held := true } then none else some (ch, s.chan ch)
    strs := strs.map fun r => { r with frozen := r.frozen.filter fun m => !(l.contains m) }
    teamSt := p.team.bind (s.teamOf part)
    tags := cells.map fun c => (c, (s.cell c).bankTags)
    vers := (s.vers.filter mine).map (·.seq)
    psnG := s.psnGrid.filter fun g => l.contains g.1
    psnA := s.psnAcc.filter fun g => l.contains (g.1 / 4)
    boxes := s.boxesOf strs
    okey := part * 2 ^ 20 + p.team.getD (2 ^ 17 + (l.head?).getD 0) }
  let s := cells.foldl (fun s c => s.modCell c fun x => x.rekey k.okey k.key) s
  let s := { s with
    slots := s.slots ++ [{ k with flushed := cells.all fun c => (s.cell c).owners.all fun o => o.2 ≠ k.key }]
    strs := s.strs.filter fun r => !(strs.any fun x => x.part = r.part && x.id = r.id)
    vers := s.vers.map fun v => if mine v then { v with dead := true } else v
    psnGrid := s.psnGrid.filter fun g => !(l.contains g.1)
    psnAcc := s.psnAcc.filter fun g => !(l.contains (g.1 / 4))
    teams := s.teams.map fun t => if t.part = part && some t.id = p.team then
      t.mapSrc fun m => if l.contains m then savedSrc slot m else m else t }
  let s := (chansOf cells).foldl (fun s ch => s.modChan ch fun _ => {}) s
  l.foldl (fun s m => s.setCtx m {}) s

-- Slots in memory (R394, R395).

def State.slotOf (s : State) (part slot : Nat) : Option SaveSlot := s.slots.find? fun k => k.part = part && k.slot = slot
def State.modSlot (s : State) (part slot : Nat) (f : SaveSlot → SaveSlot) : State :=
  { s with slots := s.slots.map fun k => if k.part = part && k.slot = slot then f k else k }
def State.slotBase (s : State) (k : SaveSlot) : Nat := (s.part k.part).sabase + k.slot * (s.part k.part).sasz

def SaveSlot.chanPart (k : SaveSlot) : Nat := 0x2000 + 0x10000 * k.members.length
def SaveSlot.strPart (k : SaveSlot) : Nat := k.chanPart + 1024 * k.cells.length
def SaveSlot.regPart (k : SaveSlot) : Nat := k.strPart + strSize k.strs

/-- Where a region of a cell lies in a slot: regions 24 and 25 are the banks by number. -/
def SaveSlot.regOff (k : SaveSlot) (cell r : Nat) : Nat :=
  let flying := b2n ((tfind k.tags cell).elim false (·.second))
  k.regPart + 0x580000 * ((indexOf? (· = cell) k.cells 0).getD 0) +
    (if r < 24 then 65536 * r else if r = 24 + flying then 0x180000 else 0x380000)

/-- The team header, 8,192 bytes (R394). -/
def SaveSlot.header (k : SaveSlot) : List Byte :=
  let wr (c r : Nat) : Bool := k.regions.contains (c, r)
  let flying (c : Nat) : Nat := 24 + b2n ((tfind k.tags c).elim false (·.second))
  let tagWord (t : BankTags) : Nat := t.verF.toNat + 256 * b2n t.valF + 65536 * t.verS.toNat + 2 ^ 24 * b2n t.valS
  let regWord (c : Nat) : Nat :=
    ((List.range 24).map fun r => 2 ^ r * b2n (wr c r)).sum + 2 ^ 24 * b2n (wr c (flying c)) + 2 ^ 25 * b2n (wr c (49 - flying c))
  leBytes 8 (k.team.getD 0 + 2 ^ 16 * k.members.length + 2 ^ 27 * k.mode + 2 ^ 29 * b2n k.host + 2 ^ 32 * k.queue.getD 0) ++
  leBytes 8 k.at_ ++ leBytes 8 (b2n (!k.strs.isEmpty) + 2 * b2n k.written + 4 * b2n k.flushed) ++
  leBytes 8 k.chanPart ++ leBytes 8 k.strPart ++ leBytes 8 k.regPart ++ leBytes 8 (strSize k.strs) ++
  leBytes 8 (k.teamSt.elim 0 (·.done)) ++
  (padTo 1024 0xFFFF (k.members.map (·.1))).flatMap (leBytes 2) ++
  (padTo 256 0xFFFF k.cells).flatMap (leBytes 2) ++
  (padTo 256 0 (k.tags.map fun t => tagWord t.2)).flatMap (leBytes 4) ++
  (padTo 256 0 (k.cells.map regWord)).flatMap (leBytes 4) ++ List.replicate 3520 0

/-- The index of a member in its team. -/
def SaveSlot.index (k : SaveSlot) (src : Nat) : Nat := ((k.teamSt.bind fun t => t.members.find? fun m => m.2 = src).map (·.1)).getD 0

/-- A write of the device into a slot. -/
def State.slotWrite (s : State) (k : SaveSlot) (off : Nat) (bs : List Byte) : State :=
  s.addAt 2083 k.part 0 ⟨s.keel, 2083⟩ .sys (s.slotBase k + off) bs 0 0

/-- The PRSTAT bits of a host's slot. -/
def State.slotStat (s : State) (k : SaveSlot) : State :=
  let v := (s.part k.part).prstat
  if k.host && v % 8 = 2 && bitsOf v 8 6 = k.slot then
    s.setPrstat k.part (setBits (setBits v 5 1 (b2n k.written)) 6 1 (b2n k.flushed))
  else s

/-- SMALL_STATE_EXCHANGE (R348): `arg.a` is the partition. -/
def execSmallStateExchange (s : State) : Out :=
  let part := s.arg.a
  match (s.part part).pres.find? fun p => p.stopped with
  | none => .next s
  | some p =>
    let i := p.slot.getD 0
    let s := (s.saveTeam part p i).preDone part p p.mode i
    .next ((s.slotOf part i).elim s s.slotStat)

/-- SAVE_AREA_WRITEBACK (R348, R396): `arg.a` is the partition, `arg.b` the slot. -/
def execSaveAreaWriteback (s : State) : Out :=
  match s.slotOf s.arg.a s.arg.b with
  | none => .next s
  | some k =>
    if k.written || k.members.isEmpty then .next s
    else
      let k := { k with written := true }
      let s := s.modSlot k.part k.slot fun _ => k
      let s := s.slotWrite k 0 k.header
      let s := k.members.zipIdx.foldl (fun s m =>
        let ps := m.1.2.parts (k.index m.1.1)
        s.slotWrite k (0x2000 + 0x10000 * m.2) ((List.range 0x10000).map (recByte ps))) s
      .next (s.slotStat k)

-- Lazy regions (R348).

/-- Bytes of a region. -/
def regLen (r : Nat) : Nat := if r < 24 then 65536 else 0x200000
def State.regNow (s : State) (cell r : Nat) : List Byte :=
  if r < 24 then s.spadNow cell (65536 * r) 65536 else s.bankNow cell (r = 25) 0 0x200000
def State.regPut (s : State) (cell r : Nat) (bs : List Byte) : State :=
  if r < 24 then s.spadPut cell (65536 * r) bs else s.bankPut cell (r = 25) 0 bs

/-- The first granule of a region, and the poisoned granules among its own. -/
def regGran (cell r : Nat) : Nat := if r < 24 then spadKey cell (65536 * r) / 32 else bankKey cell (r = 25) 0 / 32
def State.regPoison (s : State) (cell r : Nat) : List Nat :=
  ((if r < 24 then s.psnSpad else s.psnBank).filter fun g => regGran cell r ≤ g && g < regGran cell r + regLen r / 32).map
    (· - regGran cell r)

/-- Every region a key owns. -/
def State.ownedRegions (s : State) (key : Nat) : List (Nat × Nat) :=
  s.cells.flatMap fun c => (c.2.owners.filter fun o => o.2 = key).map fun o => (c.1, o.1)

/-- Whether every region that a saved team owns is in its slot: in the slot's header and, for a host's slot, in PRSTAT (R392, R394). -/
def State.markFlushed (s : State) (part slot : Nat) : State :=
  match s.slotOf part slot with
  | none => s
  | some k =>
    let k := { k with flushed := (s.ownedRegions k.key).isEmpty }
    let s := s.modSlot part slot fun _ => k
    (if k.written then s.slotWrite k 0 k.header else s).slotStat k

/-- Write a region its saved team owns to the slot, with its poison; the team owns it no more. -/
def State.saveRegion (s : State) (k : SaveSlot) (cell r : Nat) : State :=
  let a := s.slotBase k + k.regOff cell r
  let psn := (s.regPoison cell r).map fun i => s.canon k.part (a + 32 * i) / 32
  let s := s.addAt 2083 k.part 0 ⟨s.keel, 2083⟩ .sys a (s.regNow cell r) 0 0 psn
  let s := s.modCell cell fun c => { c with owners := tdel c.owners r }
  (s.modSlot k.part k.slot fun k => { k with
    regions := if k.regions.contains (cell, r) then k.regions else k.regions ++ [(cell, r)] }).markFlushed k.part k.slot

/-- A saved team that owns a region has it written to its slot (R348). -/
def State.evict (s : State) (cell r : Nat) : State :=
  match (tfind (s.cell cell).owners r).bind fun key => s.slots.find? fun k => !k.members.isEmpty && k.key = key with
  | none => s
  | some k => s.saveRegion k cell r

/-- LAZY_REGION_SAVE (R348): `arg.a` is the cell, `arg.b` the region. -/
def execLazyRegionSave (s : State) : Out := .next (s.evict s.arg.a s.arg.b)

/-- LAZY_REGION_RELOAD (R348): `arg.a` is the cell, `arg.b` the region. What another saved team has there goes to its slot first. -/
def execLazyRegionReload (s : State) : Out :=
  let cell := s.arg.a
  let r := s.arg.b
  match (s.cell cell).reload.find? fun e => e.1 = r with
  | none => .next s
  | some e =>
    let s := s.evict cell r
    let part := s.partOfCell cell
    let vw := s.engineView 2083 part
    let bs := s.loadBytes vw part e.2.2 (regLen r)
    let psn := ((List.range (regLen r / 32)).filter fun i => s.loadPoisoned vw part (e.2.2 + 32 * i) 32).map (· + regGran cell r)
    let s := s.regPut cell r bs
    let s := if r < 24 then { s with psnSpad := s.psnSpad ++ psn } else { s with psnBank := s.psnBank ++ psn }
    .next (s.modCell cell fun c => { c with
      reload := c.reload.filter (fun x => x ≠ e), owners := tput c.owners r e.2.1 }).dropSlots

-- Host operations on a slot (R392).

/-- The host's slot named. -/
def State.hostSlot (s : State) : Option SaveSlot := (s.slotOf s.arg.a s.arg.b).filter fun k => k.host && !k.members.isEmpty

/-- PRRES_RESTORE (R392): `arg.a` is the partition, `arg.b` the slot. The restore follows once the contexts are free. -/
def execPrresRestore (s : State) : Out :=
  match s.hostSlot with
  | some k => .next (s.modSlot k.part k.slot fun k => { k with restoring := true })
  | none => .next s

/-- PRRES_FLUSH (R392). -/
def execPrresFlush (s : State) : Out :=
  match s.hostSlot with
  | some k =>
    .next (((s.ownedRegions k.key).foldl (fun s p => match s.slotOf k.part k.slot with
      | some k => s.saveRegion k p.1 p.2
      | none => s) s).markFlushed k.part k.slot)
  | none => .next s

/-- The transfers of a channel that are still to complete, in order. -/
def Chan.rest (c : Chan) : List Xfer :=
  ((List.range (c.widx - c.done)).map (· + c.done)).filterMap fun id =>
    if c.isDone id then none
    else
      let b := c.subs.find? fun b => b.id = id
      let new : Xfer := { id := id, pkt := [], by_ := b.bind (·.by_), node := b.bind (·.node), work := b.bind (·.work), follow := b.any (·.follow) }
      some ((c.cur.toList ++ c.shadow.toList).find? (fun x => x.id = id) |>.getD new)

/-- A saved channel whose team is discarded: every transfer still to complete fails with code 12, and CDONE passes it. -/
def Chan.abandoned (c : Chan) : Chan :=
  { (c.rest.foldl (fun c x => c.over x 12) c) with held := false, cur := none, shadow := none, taken := c.widx }

/-- The members of a slot are members of their team no more. -/
def State.leaveSaved (s : State) (k : SaveSlot) : State :=
  let gone := k.members.map fun m => savedSrc k.slot m.1
  let out (t : Team) : Team := { t with
    members := t.members.filter fun m => !(gone.contains m.2)
    ep := (t.ep.map fun e => gone.foldl Episode.gone e).filter fun e => !e.waiting.isEmpty }
  { s with teams := (s.teams.map fun t => if t.part = k.part && some t.id = k.team then out t else t).filter fun t => !t.members.isEmpty }

/-- PRRES_DISCARD (R392). -/
def execPrresDiscard (s : State) : Out :=
  match s.hostSlot with
  | none => .next s
  | some k =>
    let s := { s with slots := s.slots.filter fun x => !(x.part = k.part && x.slot = k.slot) }
    -- handles close
    let objs := k.members.flatMap fun m => (m.2.mhs.toList.filter (·.isOpen)).map (·.obj)
    let s := if objs.isEmpty then s else s.opAt k.part 2056 fun st s => objs.foldl (fun s o => s.dropObj k.part o st) s
    -- nodes fail, the team is left and its regions are freed
    let s := (k.members.filterMap fun m => m.2.node).eraseDups.foldl (fun s n => s.failNode n) s
    let s := (s.leaveSaved k).freeRegions k.key
    let s := if k.team.any fun t => (s.teamOf k.part t).isSome then s else s.freeRegions k.okey
    -- transfers are abandoned; the register block stands again where the channel is not in use
    .next (k.chans.foldl (fun s c =>
      let s := c.2.rest.foldl (fun s x => s.xferEnds 2056 c.1 x 12) s
      if (s.chan c.1).len = 0 then s.modChan c.1 fun _ => c.2.abandoned else s) s)

-- Restoring (R349, R203, R350).

/-- A tether of a context being restored (R266). -/
def State.renewAt (s : State) (part : Nat) (t : Tether) : Tether :=
  if t.stat ≠ .ok then t
  else match s.renewed part t with
    | some t' => { t' with rpend := t.rpend }
    | none => { t with stat := .stale }

/-- A handler thread that had a current arrival restarts its handler (R203, R350). -/
def Ctx.restarted (c : Ctx) (v : Arrival) : Ctx :=
  let e := c.snap.getD {}
  { c.restore e with
    loops := e.loops
    lqs := c.lqs.map Queue.emptied, sqs := c.sqs.map Queue.emptied
    bufA := [], bufE := [], bufT := [], streams := [], loads := [], qwaits := [], wait := none, parked := none
    accs := c.accs.map Acc.zeroed
    wcommit := c.wcommit &&& ~~~4, rvm := v.tag.mask, tstate := 0, resumeTo := .run
    pc := (c.accs.toList.findSome? (·.restart)).getD e.pc }

/-- A field of the record of member `i` as it now stands in its slot. -/
def State.slotField (s : State) (k : SaveSlot) (i n off : Nat) : Nat :=
  let base := s.slotBase k + 0x2000 + 0x10000 * i
  leVal ((List.range n).map fun j => s.loadByte (s.engineView 2083 k.part) (s.canon k.part (base + off + j)))

/-- The context of member `i` of a slot: the shadow, or its record as it now stands in the slot (R396). -/
def State.savedCtx (s : State) (k : SaveSlot) (i : Nat) (m : Nat × Ctx) : Ctx :=
  if !k.written then m.2
  else m.2.ofRecord (s.slotField k i) (cellOf m.1) m.2.parked.isSome ((k.strs.find? fun r => r.handles m.1).elim 0 (·.posOf m.1))

/-- The members of a slot whose record has been written stand in the teams that their records give (R396). -/
def State.restoreMembers (s : State) (k : SaveSlot) : State :=
  if !k.written then s
  else k.members.zipIdx.foldl (fun s m => s.setMember m.1.1 (recTeam (s.slotField k m.2 8 8))) s

/-- Put one member back: tethers renewed, horizon checked, handlers restarted. -/
def State.restoreMember (s : State) (k : SaveSlot) (i : Nat) (m : Nat × Ctx) : State :=
  let c := s.savedCtx k i m
  let handler := k.strs.any fun r => r.handles m.1
  let new := c.teths.map (s.renewAt k.part)
  let s := (c.teths.toList.zip new.toList).zipIdx.foldl (fun s t =>
    if t.1.2.stat = .ok && t.1.2.exp ≠ t.1.1.exp then s.extendStores m.1 (BitVec.ofNat 4 t.2) t.1.1 t.1.2 else s) s
  let c : Ctx := { c with teths := new }
  let c : Ctx := if handler then { c with accs := c.accs.map Acc.zeroed } else c
  let c : Ctx := match c.cur with
    | some v => if handler then c.restarted v else c
    | none => c
  let c : Ctx := { c with
    status := if c.status = .halted then .halted else c.resumeTo
    wait := c.wait.map fun w => { w with since := s.keel } }
  s.setCtx m.1 (c.age s.keel m.1)

/-- The contexts a slot's members need are free, and no dump holds their cells (R406). -/
def State.seatsFree (s : State) (k : SaveSlot) : Bool := k.members.all fun m =>
  (s.ctx m.1).status = .free && (List.range 4).all fun i =>
    let st := (s.ctx (m.1 / 4 * 4 + i)).status
    st ≠ .frozen && st ≠ .attached
/-- The cells of its strings are rigged by no other, and its channels have no transfer pending. -/
def State.placeFree (s : State) (k : SaveSlot) : Bool :=
  (k.strs.all fun r => r.pos.all fun p => (s.cellStr p.cell).isNone) && k.chans.all fun c => (s.chan c.1).pend = 0

/-- The slot is to be restored: by the host's wish, or since its queue is mapped (R391). -/
def State.restoreDue (s : State) (k : SaveSlot) : Bool :=
  !k.members.isEmpty && (if k.host then k.restoring
    else k.queue.any fun q => (s.queue q).slot.isSome && !(s.queue q).slicing)

/-- The members of a slot stand in their team again under their own numbers. -/
def State.restoreTeam (s : State) (k : SaveSlot) : State :=
  let back (m : Nat) : Nat := ((k.members.map (·.1)).find? fun x => savedSrc k.slot x = m).getD m
  { s with teams := s.teams.map fun t => if t.part = k.part && some t.id = k.team then t.mapSrc back else t }

/-- Restore a slot. -/
def State.restoreSlot (s : State) (k : SaveSlot) : State :=
  let revive (v : Ver) : Ver := if k.vers.contains v.seq then { v with dead := false } else v
  let s := { s with vers := s.vers.map revive }
  let s := k.members.zipIdx.foldl (fun s m => s.restoreMember k m.2 m.1) s
  let s := (s.restoreTeam k).restoreMembers k
  let held (m : Nat) : Bool := (s.ctx m).tstate.getLsbD 0 || (s.ctx m).status = .halted
  let back := (k.members.map (·.1)).filter held
  let thaw (r : Str) : Str := { r with frozen := r.frozen ++ back.filter r.handles }
  let s := { s with
    strs := s.strs ++ k.strs.map thaw, psnGrid := s.psnGrid ++ k.psnG
    psnAcc := s.psnAcc ++ k.psnA.filter fun (g : Nat × Nat × Nat) => !(k.strs.any fun r => r.handles (g.1 / 4)) }
  let s := k.chans.foldl (fun s c => s.modChan c.1 fun _ => { c.2.later (s.keel - k.at_) with held := false }) s
  let s := k.tags.foldl (fun s t => s.modCell t.1 fun c =>
    if k.strs.any (fun r => r.pos.any fun p => p.cell = t.1) || !k.regions.isEmpty then
      { c with second := t.2.second, verF := t.2.verF, verS := t.2.verS, valF := t.2.valF, valS := t.2.valS }
    else c) s
  let s := k.cells.foldl (fun s c => s.modCell c fun x => x.rekey k.key k.okey) (s.boxesBack k.boxes)
  let base := s.slotBase k
  let s := k.regions.foldl (fun s p => s.modCell p.1 fun c => { c with reload := c.reload ++ [(p.2, k.okey, base + k.regOff p.1 p.2)] }) s
  let s := { s with slots := s.slots.filter fun x => !(x.part = k.part && x.slot = k.slot) }
  if k.regions.isEmpty then s else { s with slots := s.slots ++ [{ k with restoring := false, members := [] }] }

/-- CONTEXT_RESTORE (R349, R391, R392): `arg.a` is the partition, `arg.b` the slot. Where another team holds a context it needs, that
team's queue ends its slice at once. -/
def execContextRestore (s : State) : Out :=
  match s.slotOf s.arg.a s.arg.b with
  | none => .next s
  | some k =>
    if !(s.restoreDue k) then .next s
    else if s.seatsFree k then .next (if s.placeFree k then s.restoreSlot k else s)
    else
      let qs := (k.members.filterMap fun m => if (s.ctx m.1).status = .free then none else s.queueOfCtx m.1).eraseDups
      .next (qs.foldl (fun s q => if !k.host && (s.queue q).slot.isSome && !(s.queue q).slicing then s.endSlice q else s) s)

end Sys2Proof.Machine
end

