-- ==== Sys2Proof/Machine/Host.lean ====
section
/-! DEFINITION. The host's accesses (13 R239, 24 R381, R382) and the queue mapper's packets (24 R386 to R388). -/

namespace Sys2Proof.Machine

-- Host accesses.

/-- An address range the host reaches as memory: the linear HBM view, or its own memory (R239, R381). -/
def hostMem (pa n : Nat) : Bool := (paKind pa = .hbm && paKind (pa + n - 1) = .hbm) || (paKind pa = .host && paKind (pa + n - 1) = .host)
/-- A naturally aligned register access through BAR0. -/
def hostReg (pa n : Nat) : Bool := (paKind pa = .notify || paKind pa = .device) && devSizeOk pa n

-- A device in recovery answers every request but the read of its status word with Unsupported Request (R407).

/-- HOST_WRITE (R239, R382): `arg.a` is the address, `arg.bytes` the data. -/
def execHostWrite (s : State) : Out :=
  let pa := s.arg.a
  let bs := s.arg.bytes
  if s.fw.recovery then .next (s.emit .unsupported)
  else if bs = [] then .next s
  else if hostReg pa bs.length then .next (s.devStore 2056 pa bs.length (leVal bs) false)
  else if hostMem pa bs.length then .next ((s.loseLines pa bs.length (s.keel + classBound 2)).hostWriteMem pa bs)
  else .next (s.emit .unsupported)

/-- The code of a failure in the status word. -/
def ImageFault.code : ImageFault → Nat
  | .trailer => 1 | .signature => 2 | .hash => 3 | .version => 4

/-- What a device in recovery answers to a read of `n` bytes: its status word, else nothing (R407). -/
def State.recoveryRead (s : State) (pa n : Nat) : Answer :=
  if pa = Config.statusAddr && n = 8 then .data (leBytes 8 (Config.statusWord (s.fw.failure.elim 0 (·.code))).toNat) else .unsupported

/-- HOST_READ (R239, R381): `arg.a` is the address, `arg.b` the bytes. -/
def execHostRead (s : State) : Out :=
  let pa := s.arg.a
  let n := s.arg.b
  if s.fw.recovery then .next (s.emit (s.recoveryRead pa n))
  else if n = 0 then .next s
  else if hostReg pa n then .next (s.emit (.data (leBytes n (s.devRead pa n))))
  else if hostMem pa n then
    .next ((s.loseLines pa n (s.keel + classBound 2)).emit
      (if s.loadPoisoned s.hostView 0 pa n then .poison else .data (s.loadBytes s.hostView 0 pa n)))
  else .next (s.emit .unsupported)

/-- HOST_FETCH_ADD (R381): `arg.a` is the address, `arg.w` the addend; `arg.b` is the AtomicOp, 0 FetchAdd, 1 Swap and 2 CAS, and
`arg.c` is 0 for operands of 64 bits. Only a FetchAdd of 64 bits on QWIDX or CQWIDX is completed. -/
def execHostFetchAdd (s : State) : Out :=
  let pa := s.arg.a
  let ok := !s.fw.recovery && s.arg.b = 0 && s.arg.c = 0 && ((paKind pa = .notify && pa % 4096 = 8) ||
    (0xF00001000000 ≤ pa && pa < 0xF00001040000 && pa % 256 = 0x10))
  if !ok then .next (s.emit .unsupported)
  else
    let old := s.regRead pa
    .next ((s.regWrite 2056 pa ((old + s.arg.w.toNat) % 2 ^ 64) true).emit (.data (leBytes 8 old)))

/-- QNOTE_WRITE (R385): `arg.a` is the queue. -/
def execQnoteWrite (s : State) : Out := .next (s.modQueue s.arg.a fun u => { u with look := true })

-- The mapper (R386).

/-- Every launch taken before the fence has completed or failed (R387). -/
def State.fenceOver (s : State) (u : UQueue) : Bool :=
  u.fence.all fun lid => (s.launches.find? fun l => l.id = lid).all (·.ended)

/-- The mapper may look at a queue's ring. -/
def State.mayLook (s : State) (q : Nat) : Bool :=
  let u := s.queue q
  s.fw.service && u.slot.isSome && u.look && u.configured && decide (u.ridx < u.widx) && u.hand.isNone && s.fenceOver u && !s.skew

/-- The slot at QRIDX: its bytes and where its KIND byte lies. The inner `none` is a slot without a translation; the outer waits for the
walkers. -/
def State.ringSlot (s : State) (q : Nat) : Option (Option (List Byte × Nat)) :=
  let u := s.queue q
  let part := s.partOfQueue q
  let va := u.base + 64 * (u.ridx % u.len)
  match s.engineBytes (s.engineView 2083 part) part (va : Int) 64, s.engineWalk part va true with
  | none, _ | _, none => none
  | some (.ok b), some (.ok pa) => some (some (b, pa))
  | _, _ => some none

/-- The packet kinds of R387, with every byte they do not name 0. -/
def copyreqOk (b : List Byte) : Bool :=
  fieldAt b 0 1 = 2 && fieldAt b 1 1 = 0 && fieldAt b 4 1 < 4 && fieldAt b 5 3 = 0 && fieldAt b 16 48 = 0
def signalOk (b : List Byte) : Bool := fieldAt b 0 1 = 3 && fieldAt b 1 7 = 0 && fieldAt b 24 40 = 0 && fieldAt b 8 8 % 8 = 0
def fenceOk (b : List Byte) : Bool := fieldAt b 0 1 = 4 && fieldAt b 1 63 = 0

/-- The event by which the mapper goes on at the packet `b`: a slot whose KIND reads 0 ends its look. -/
def packetEvent (b : List Byte) : Instr :=
  if fieldAt b 0 1 < 2 then .launchPacket
  else if copyreqOk b then .copyreqPacket
  else if signalOk b then .signalPacket
  else if fenceOk b then .fencePacket
  else .badpkt

/-- The mapper's next event at a queue. -/
def State.mapperEvent (s : State) (q : Nat) : Option Instr :=
  if s.mayLook q then (s.ringSlot q).map fun r => r.elim .launchPacket fun p => packetEvent p.1 else none

/-- The packet is taken: KIND becomes 0, then QRIDX advances. -/
def State.taken (s : State) (q pa : Nat) : State :=
  (s.addAt 2083 (s.partOfQueue q) 0 ⟨s.keel, 2083⟩ .sys pa [0] 0 0).modQueue q fun u => { u with ridx := u.ridx + 1 }

/-- A packet that cannot be read for want of a translation is a rejected launch of as many nodes as a launch may have (R218; log 51). -/
def State.ringLost (s : State) (q : Nat) : State :=
  let u := s.queue q
  let s := s.modQueue q fun u => { u with ridx := u.ridx + 1, ids := tdel u.ids u.ridx }
  (s.rejectLaunch q (u.launchId q u.ridx) 4096).countLaunch q u.ridx u

/-- Run `k` on the packet at queue `arg.a`, if it is of the event's kind. -/
def State.withPacket (s : State) (i : Instr) (k : Nat → List Byte → Nat → State) : State :=
  let q := s.arg.a
  if !(s.mayLook q) then s
  else match s.ringSlot q with
    | none => s
    | some none => if i = .launchPacket then s.ringLost q else s
    | some (some (b, pa)) => if packetEvent b = i then k q b pa else s

/-- LAUNCH_PACKET: the packet is handed to the pool; an unwritten slot ends the mapper's look. -/
def execLaunchPacket (s : State) : Out :=
  .next (s.withPacket .launchPacket fun q b pa =>
    if fieldAt b 0 1 = 0 then s.modQueue q fun u => { u with look := false }
    else (s.taken q pa).modQueue q fun u => { u with hand := some b })

/-- COPYREQ_PACKET (R387): submitted as a COPY node's packet is (R219); it waits for its channel. -/
def execCopyreqPacket (s : State) : Out :=
  .next (s.withPacket .copyreqPacket fun q b pa =>
    let part := s.partOfQueue q
    let cell := fieldAt b 2 2
    let ch := 4 * cell + fieldAt b 4 1
    let fail (_ : Unit) : State := ((s.taken q pa).failNode (2 ^ 64 + q))
    if 256 ≤ cell || s.partOfCell cell ≠ part || (s.chan ch).len = 0 then fail ()
    else if 1 < (s.chan ch).pend then s
    else match s.engineBytes (s.engineView 2083 part) part (fieldAt b 8 8 : Nat) 64 with
      | none => s
      | some (.error _) => fail ()
      | some (.ok pkt) => match (s.taken q pa).submit ch pkt (chanSrc ch) none (some (2 ^ 64 + q)) false with
        | some (.ok (_, _, t)) => t
        | some (.error _) => fail ()
        | none => s)

/-- A flag write at system scope, stamped now (R172, R387): `none` waits. -/
def State.signal (s : State) (part va v : Nat) : Option (Except Why State) :=
  match s.engineWalk part va true with
  | none => none
  | some (.error w) => some (.error w)
  | some (.ok pa) =>
    match paKind pa with
    | .device | .notify => some (.ok (s.devStore 2083 pa 8 v false))
    | .peer => some (.ok s)
    | _ => some (.ok (s.addAt 2083 part 0 ⟨s.keel, 2083⟩ .sys pa (leBytes 8 v) 0 0))

/-- A packet is dropped with a record of kind 5 (R388). -/
def State.badPacket (s : State) (q pa : Nat) : State :=
  (s.taken q pa).postRecord (s.partOfQueue q) ⟨s.keel, 2056⟩
    (noteBytes s.keel 0 5 ((s.queue q).ridx % 2 ^ 54 + 2 ^ 54 * q) 0 2056)

/-- SIGNAL_PACKET (R387): an address without a translation drops the packet as a bad one. -/
def execSignalPacket (s : State) : Out :=
  .next (s.withPacket .signalPacket fun q b pa =>
    match s.signal (s.partOfQueue q) (fieldAt b 8 8) (fieldAt b 16 8) with
    | none => s
    | some (.ok t) => t.taken q pa
    | some (.error _) => s.badPacket q pa)

/-- FENCE_PACKET (R387): later packets wait for the launches taken before. -/
def execFencePacket (s : State) : Out :=
  .next (s.withPacket .fencePacket fun q _ pa =>
    (s.taken q pa).modQueue q fun u => { u with
      fence := (s.launches.filter fun l => l.queue = q && !l.ended).map (·.id) })

/-- BADPKT (R387, R388). -/
def execBadpkt (s : State) : Out := .next (s.withPacket .badpkt fun q _ pa => s.badPacket q pa)

/-- The firmwares, sources 2080 and 2081, reach the partition pages, the debug blocks and the leaf update ports, whose instances check the
source (R268); root firmware reaches the windsock blocks and HOLDLIM too (R405, R406, R408). -/
def firmwareReach (src pa : Nat) : Bool :=
  if src = 2080 then 0xF00001800000 ≤ pa else if src = 2081 then 0xF00001800000 ≤ pa && !(0xF00001C40000 ≤ pa && pa < 0xF00001F00000)
  else true

/-- REGISTER_WRITE: `arg.a` is the physical address, `arg.b` the size in bytes, `arg.w` the value, `arg.c` the source. In recovery there is
no register to write (R407). -/
def execRegisterWrite (s : State) : Out :=
  let pa := s.arg.a
  if s.fw.recovery then .next (s.emit .unsupported)
  else if firmwareReach s.arg.c pa && (paKind pa = .notify || paKind pa = .device) && devSizeOk pa s.arg.b then
    .next (s.devStore s.arg.c pa s.arg.b s.arg.w.toNat false)
  else .next s

end Sys2Proof.Machine
end

