-- ==== Sys2Proof/Machine/Firmware.lean ====
section
/-! DEFINITION. Bring-up, firmware, sensors and management (26 R407 to R413), the partition configuration (24 R383), and soft
errors (19 R333). -/

namespace Sys2Proof.Machine

-- Images (R409).

/-- The trailer of a file. -/
def trailerOf (f : List Byte) : List Byte := f.drop (f.length - 1024)

/-- The file ends in a trailer as it is laid out: magic, image length, and zeros at its end. -/
def trailerOk (f : List Byte) : Bool :=
  let t := trailerOf f
  decide (1024 ≤ f.length) && fieldAt t 0 4 = 0x57494658 && fieldAt t 8 8 = f.length - 1024 && (t.drop 592).all (· = 0)

/-- Why a file does not pass its check: it carries no trailer of the form (log 14), or its signature, its hash or its security version
number, which must be at least the fused minimum `min`, fails. -/
def imageFault (min : Nat) (f : List Byte) : Option ImageFault :=
  let t := trailerOf f
  if !(trailerOk f) then some .trailer
  else if !(Config.imageSigned (slice t 0 80) (slice t 80 512)) then some .signature
  else if BitVec.ofNat 512 (fieldAt t 16 64) ≠ Config.sha512 (imageOf f) then some .hash
  else if fieldAt t 4 4 < min then some .version
  else none
def imageOk (min : Nat) (f : List Byte) : Bool := (imageFault min f).isNone

-- Reset (R407).

/-- Host memory as it stands: what the device has not merged of the host's own writes included. -/
def State.hostMemory (s : State) : List Host.Cell :=
  let own := (s.vers.filter fun v => v.src = 2056).flatMap (·.cells)
  writeCells (s.mem.filter fun c => paKind c.1 = .host) (own.filter fun c => paKind c.1 = .host)

/-- A request of the host over CXL.io, and one over the management port. -/
def overCxl : Instr → Bool
  | .hostRead | .hostWrite | .hostFetchAdd | .registerWrite | .spdmRequest => true
  | _ => false
def overManagement : Instr → Bool
  | .pldmRequest | .flashUpdate => true
  | _ => false

/-- The boot sequence from given flash contents. The stored configuration, the fuses, host memory and what was answered stay. The
requests that wait have come before its step 7: those over CXL.io are answered with Unsupported Request, and those over the management
port go on waiting. -/
def State.boot (s : State) (root service : List Byte) (stagedR stagedS : Option (List Byte)) : State :=
  let fw : Firmware := {
    recovery := !(imageOk s.fw.minVer root), service := imageOk s.fw.minVer service
    failure := imageFault s.fw.minVer root, minVer := s.fw.minVer, minSeen := s.fw.minVer
    rootFlash := root, serviceFlash := service, stagedRoot := stagedR, stagedService := stagedS
    hashRoot := Config.sha512 (imageOf root), hashService := Config.sha512 (imageOf service) }
  { State.reset with
    choices := s.choices, nparts := s.nparts, qowner := s.qowner, mem := s.hostMemory, fw := fw
    outbox := s.outbox ++ ((s.agenda.filter fun e => overCxl e.1).map fun _ => Answer.unsupported)
    agenda := s.agenda.filter fun e => overManagement e.1 }

/-- COLD_RESET: staged images take effect (R413). -/
def execColdReset (s : State) : Out :=
  .next (s.boot (s.fw.stagedRoot.getD s.fw.rootFlash) (s.fw.stagedService.getD s.fw.serviceFlash) none none)
/-- WARM_RESET. -/
def execWarmReset (s : State) : Out :=
  .next (s.boot s.fw.rootFlash s.fw.serviceFlash s.fw.stagedRoot s.fw.stagedService)

-- The partition configuration (R383).

/-- The partitions that a change to `n` partitions with the queue groups' owners `own` affects: all where their number changes, else those
that lose or gain a queue group. -/
def State.affected (s : State) (n : Nat) (own : Nat → Nat) : List Nat :=
  if n ≠ s.nparts then List.range s.nparts
  else ((List.range 64).flatMap fun g => if own g = tget 0 s.qowner g then [] else [own g, tget 0 s.qowner g]).eraseDups

/-- A relay program is stopped by a change of configuration (R322); a node that ran it becomes FAILED (log 53). -/
def State.relayStop (s : State) (e : Nat) : State :=
  (if (s.relay e).active then s.relayEnds e 0 0 else s).modRelay e fun r => { r with ever := false }

/-- Service firmware asks root firmware for a change over the mailbox (R408): where root firmware's check grants it, `k` makes the change; a
denied request changes nothing. -/
def State.throughMailbox (s : State) (src : Nat) (k : State → State) : State :=
  if src = 2081 then
    let s' := { s with choices := s.choices + 1 }
    if s.fw.service && Config.mailboxGrants s.choices then k s' else s'
  else k s

/-- A change of the partition configuration to `n` partitions with the queue groups' owners `own`, whose contexts must have ended. -/
def State.configure (s : State) (n : Nat) (own : Nat → Nat) : State :=
  let l := s.affected n own
  let idle := (s.ctxs.all fun c => c.2.status = .free || !(l.contains (s.partOfSrc c.1))) && s.slots.all fun k => !(l.contains k.part)
  if !idle then s.emit .unsupported
  else
    let s := ((s.relays.map (·.1)).filter fun e => l.contains (s.partOfStack e)).foldl State.relayStop s
    { s with
      nparts := n
      qowner := (List.range 64).filterMap fun g => if own g = 0 then none else some (g, own g)
      fw := { s.fw with cfgChanges := s.fw.cfgChanges + 1 } }

/-- PARTITION_CONFIGURE: `arg.a` is the code of the number of partitions, `arg.bytes` the owner of each queue group, `arg.c` who asks: 2081
is service firmware, through the mailbox. -/
def execPartitionConfigure (s : State) : Out :=
  let n := 2 ^ (s.arg.a % 4)
  let own (g : Nat) : Nat := ((s.arg.bytes[g]?).getD 0).toNat % n
  if s.fw.recovery then .next (s.emit .unsupported)
  else .next (s.throughMailbox s.arg.c fun s => s.configure n own)

-- Power and temperature (R412).

/-- The readings of a column's four die sensors, tier by tier. -/
def State.readTemps (s : State) (col : Nat) (l : List Byte) : State :=
  let one (m : List (Nat × Nat)) (i : Nat) : List (Nat × Nat) := (l[i]?).elim m fun t => tput m (4 * col + i) t.toNat
  { s with fw := { s.fw with temps := (List.range 4).foldl one s.fw.temps } }
def State.setWish (s : State) (col r : Nat) : State := { s with fw := { s.fw with wishes := tput s.fw.wishes col r } }

/-- RATE_UPDATE (R412): `arg.a` is the column, `arg.bytes` its die sensors by tier, `arg.b` the rate firmware means to set, `arg.flg` that
coolant flow is lost. With `arg.c` 2081 it is a request of service firmware for that rate, through the mailbox, and reads no sensor. -/
def execRateUpdate (s : State) : Out :=
  let col := s.arg.a % 64
  if s.fw.recovery then .next s
  else if s.arg.c = 2081 then .next (s.throughMailbox 2081 fun s => (s.setWish col s.arg.b).setColumn col)
  else
    let s := (s.readTemps col s.arg.bytes).setWish col s.arg.b
    let s := { s with fw := { s.fw with coolantLost := s.arg.flg } }
    if s.arg.flg || 110 < s.hottest col then
      let s := (List.range 64).foldl State.setColumn s
      let s := { s with fw := { s.fw with log := s.fw.log ++ [(s.keel, 412)] } }
      .next ((s.ctxs.map (·.1)).foldl (fun s src => s.halt src) s)
    else .next (s.setColumn col)

/-- POWER_MEASUREMENT (R412): `arg.a` is the module power in watts. -/
def execPowerMeasurement (s : State) : Out :=
  .next (if s.fw.recovery then s else { s with fw := { s.fw with power := s.arg.a } })

-- Attestation and management (R410, R413).

/-- The measurements of R410, in its order. -/
def State.measurements (s : State) : List Byte :=
  leBytes 64 s.fw.hashRoot.toNat ++ leBytes 64 s.fw.hashService.toNat ++ leBytes 4 s.fw.minSeen ++
  (List.range s.nparts).flatMap (fun p => leBytes 8 (s.pcfg p)) ++ leBytes 8 s.fw.cfgChanges

/-- SPDM_REQUEST (R410): `arg.bytes` is the requester's nonce. -/
def execSpdmRequest (s : State) : Out :=
  if s.fw.recovery then .next (s.emit .unsupported)
  else
    let r := s.measurements ++ s.arg.bytes
    .next (s.emit (.report (r ++ Config.attestSign r)))

/-- Root firmware raises the fused minimum on a signed request, and never lowers it (R409). -/
def State.raiseMinimum (s : State) (v : Nat) (sig : List Byte) : State :=
  if Config.requestSigned v sig && s.fw.minVer < v then { s with fw := { s.fw with minVer := v } } else s.emit .unsupported

/-- PLDM_REQUEST (R413): served by service firmware, but for a request to raise the fused minimum, which is root firmware's (R408). -/
def execPldmRequest (s : State) : Out :=
  if s.fw.recovery then .next (s.emit .unsupported)
  else match s.arg.pldm with
    | some (.raiseMinimum v sig) => .next (s.raiseMinimum v.toNat sig)
    | p => if !s.fw.service then .next (s.emit .unsupported) else match p with
      | some (.readSensor i) => .next (s.emit (.value (tget 0 s.fw.temps i.toNat)))
      | some .readPower => .next (s.emit (.value s.fw.power))
      | some .readCap => .next (s.emit (.value s.fw.cap))
      | some (.setCap w) =>
        if 600 ≤ w && w ≤ 2400 then .next ({ s with fw := { s.fw with cap := w } } : State) else .next (s.emit .unsupported)
      | some .readErrors => .next (s.emit (.report (s.fw.log.flatMap fun e => leBytes 8 e.1 ++ leBytes 8 e.2)))
      | _ => .next (s.emit .unsupported)

/-- FLASH_UPDATE (R413): `arg.bytes` is the image file, `arg.flg` says that it is service firmware's. An image that passes its check is
staged; in recovery the flash can be rewritten. -/
def execFlashUpdate (s : State) : Out :=
  if !s.fw.recovery && !s.fw.service then .next (s.emit .unsupported)
  else if !(imageOk s.fw.minVer s.arg.bytes) then .next (s.emit .unsupported)
  else if s.arg.flg then .next { s with fw := { s.fw with stagedService := some s.arg.bytes } }
  else .next { s with fw := { s.fw with stagedRoot := some s.arg.bytes } }

-- Soft errors (R333).

/-- One more corrected error on a cell, saturating. -/
def State.countCorrected (s : State) (cell : Nat) : State :=
  s.modCell cell fun c => { c with corrected := if c.corrected = allOnes then c.corrected else c.corrected + 1 }

/-- The cell whose count an error adds to; none for HBM. -/
def errCell : ErrAt → Option Nat
  | .spad c _ | .bank c _ _ => some c
  | .grid s _ _ | .slot s _ _ _ | .acc s _ _ _ => some (cellOf s)
  | .mem _ | .pub _ _ | .check _ | .silent _ _ _ _ _ => none

/-- Poison a slot of a queue by its physical number. -/
def Queue.poisonSlot (q : Queue) (i : Nat) : Queue :=
  let k := (i + 8 - q.popped % 8) % 8
  { q with slots := q.slots.zipIdx.map fun p => if p.2 = k then { p.1 with poison := true } else p.1 }

/-- Change a word of a slot by its physical number, unseen by the code. -/
def Queue.flipSlot (q : Queue) (i w : Nat) (x : W32) : Queue :=
  let k := (i + 8 - q.popped % 8) % 8
  { q with slots := q.slots.zipIdx.map fun p =>
      if p.2 = k then { p.1 with data := rowSetWord p.1.data w (rowWord p.1.data w ^^^ x) } else p.1 }

/-- The granule is poisoned. -/
def State.poisonPlace (s : State) (e : ErrAt) : State :=
  match e with
  | .spad c g => { s with psnSpad := spadKey c (32 * g) / 32 :: s.psnSpad }
  | .bank c b g => { s with psnBank := bankKey c b (32 * g) / 32 :: s.psnBank }
  | .mem g => { s with psnMem := g :: s.psnMem }
  | .pub n g => { s with vers := s.vers.map fun v =>
      if v.seq = n && v.cells.any fun c => c.1 / 32 = g then { v with psn := g :: v.psn } else v }
  | .grid src r g => { s with psnGrid := (src, r.toNat, g.toNat) :: s.psnGrid }
  | .slot src q i _ => s.modCtx src fun c => c.setQueue q ((c.queue q).poisonSlot i.toNat)
  | .acc src a r g => { s with psnAcc := (src * 4 + a.toNat, r.toNat, g.toNat) :: s.psnAcc }
  | .check _ | .silent _ _ _ _ _ => s

/-- SOFT_ERROR (R333): `arg.err` is the place, `arg.flg` that two bits are wrong. An error in a K-step's second datapath, or in
more bits than the code detects, is found by the checks of R152 and R153. -/
def execSoftError (s : State) : Out :=
  match s.arg.err with
  | none => .next s
  | some (.check src) => .next (s.modCtx src fun c => { c with checkErr := true })
  | some (.silent src q i w x) => .next (s.modCtx src fun c => c.setQueue q ((c.queue q).flipSlot i.toNat w.toNat x))
  | some e => .next (if s.arg.flg then s.poisonPlace e else (errCell e).elim s s.countCorrected)

end Sys2Proof.Machine
end

