-- ==== Sys2Proof/Machine/Scalar.lean ====
section
/-! DEFINITION. Scalar arithmetic, compares, predicate logic, moves, branches, loops and thread control (04 R52 to R74). -/

namespace Sys2Proof.Machine

-- ALU and ALUI (R53 to R55).

/-- D receives a function of `sA` and `sB`. -/
def alu2 (f : Word → Word → Word) (d a b : Reg) (s : State) : Out := .next (s.setScalar d (f (s.scalar a) (s.scalar b)))
/-- D receives a function of `sA`. -/
def alu1 (f : Word → Word) (d a : Reg) (s : State) : Out := .next (s.setScalar d (f (s.scalar a)))
/-- D receives a function of `sA` and the immediate of R55. -/
def aluI (f : Word → Word → Word) (d a : Reg) (i : W32) (s : State) : Out :=
  .next (s.setScalar d (f (s.scalar a) (s.imm i)))

def mulhS (a b : Word) : Word := BitVec.ofInt 64 (a.toInt * b.toInt / 2 ^ 64)
def mulhU (a b : Word) : Word := BitVec.ofNat 64 (a.toNat * b.toNat / 2 ^ 64)
/-- R54. -/
def divS (a b : Word) : Word := if b = 0 then allOnes else a.sdiv b
def divU (a b : Word) : Word := if b = 0 then allOnes else a / b
def remS (a b : Word) : Word := if b = 0 then a else a.srem b
def remU (a b : Word) : Word := if b = 0 then a else a % b
/-- The shift count b[5:0]. -/
def sh (b : Word) : Nat := b.toNat % 64
def minS (a b : Word) : Word := if a.slt b then a else b
def maxS (a b : Word) : Word := if a.slt b then b else a
def minU (a b : Word) : Word := if a < b then a else b
def maxU (a b : Word) : Word := if a < b then b else a
/-- Leading zero bits. -/
def clzN (a : Nat) : Nat → Nat
  | 0 => 0
  | n + 1 => if a.testBit n then 0 else 1 + clzN a n
def clz64 (a : Word) : Word := w64 (clzN a.toNat 64)
def popc64 (a : Word) : Word := w64 ((List.range 64).countP fun i => a.getLsbD i)

def execNop (s : State) : Out := .next s
def execAdd (d a b : Reg) (s : State) : Out := alu2 (· + ·) d a b s
def execSub (d a b : Reg) (s : State) : Out := alu2 (· - ·) d a b s
def execMul (d a b : Reg) (s : State) : Out := alu2 (· * ·) d a b s
def execMulh (d a b : Reg) (s : State) : Out := alu2 mulhS d a b s
def execMulhu (d a b : Reg) (s : State) : Out := alu2 mulhU d a b s
def execDiv (d a b : Reg) (s : State) : Out := alu2 divS d a b s
def execDivu (d a b : Reg) (s : State) : Out := alu2 divU d a b s
def execRem (d a b : Reg) (s : State) : Out := alu2 remS d a b s
def execRemu (d a b : Reg) (s : State) : Out := alu2 remU d a b s
def execAnd (d a b : Reg) (s : State) : Out := alu2 (· &&& ·) d a b s
def execOr (d a b : Reg) (s : State) : Out := alu2 (· ||| ·) d a b s
def execXor (d a b : Reg) (s : State) : Out := alu2 (· ^^^ ·) d a b s
def execAndn (d a b : Reg) (s : State) : Out := alu2 (fun x y => x &&& ~~~y) d a b s
def execShl (d a b : Reg) (s : State) : Out := alu2 (fun x y => x <<< sh y) d a b s
def execShr (d a b : Reg) (s : State) : Out := alu2 (fun x y => x >>> sh y) d a b s
def execSra (d a b : Reg) (s : State) : Out := alu2 (fun x y => x.sshiftRight (sh y)) d a b s
def execRot (d a b : Reg) (s : State) : Out := alu2 (fun x y => x.rotateRight (sh y)) d a b s
def execMin (d a b : Reg) (s : State) : Out := alu2 minS d a b s
def execMax (d a b : Reg) (s : State) : Out := alu2 maxS d a b s
def execMinu (d a b : Reg) (s : State) : Out := alu2 minU d a b s
def execMaxu (d a b : Reg) (s : State) : Out := alu2 maxU d a b s
def execClz (d a : Reg) (s : State) : Out := alu1 clz64 d a s
def execPopc (d a : Reg) (s : State) : Out := alu1 popc64 d a s
def execMadd (d a b c : Reg) (s : State) : Out := .next (s.setScalar d (s.scalar a * s.scalar b + s.scalar c))
def execSel (d a b : Reg) (p : BitVec 3) (s : State) : Out :=
  .next (s.setScalar d (if s.me.pred p then s.scalar a else s.scalar b))
def execAddx (d a b : Reg) (n : BitVec 2) (s : State) : Out :=
  .next (s.setScalar d (s.scalar a + (s.scalar b <<< n.toNat)))
def execAddi (d a : Reg) (i : W32) (s : State) : Out := aluI (· + ·) d a i s
def execAndi (d a : Reg) (i : W32) (s : State) : Out := aluI (· &&& ·) d a i s
def execOri (d a : Reg) (i : W32) (s : State) : Out := aluI (· ||| ·) d a i s
def execXori (d a : Reg) (i : W32) (s : State) : Out := aluI (· ^^^ ·) d a i s
def execShli (d a : Reg) (i : BitVec 6) (s : State) : Out := alu1 (fun x => x <<< i.toNat) d a s
def execShri (d a : Reg) (i : BitVec 6) (s : State) : Out := alu1 (fun x => x >>> i.toNat) d a s
def execSrai (d a : Reg) (i : BitVec 6) (s : State) : Out := alu1 (fun x => x.sshiftRight i.toNat) d a s
def execRoti (d a : Reg) (i : BitVec 6) (s : State) : Out := alu1 (fun x => x.rotateRight i.toNat) d a s
def execLi (d : Reg) (i : W32) (s : State) : Out := .next (s.setScalar d (s.imm i))
def execLih (d : Reg) (i : W32) (s : State) : Out := .next (s.setScalar d (i ++ (s.scalar d).extractLsb' 0 32))
def execLiz (d : Reg) (i : W32) (s : State) : Out := .next (s.setScalar d (i.setWidth 64))

-- Compares and predicate logic (R57).

def cmp2 (f : Word → Word → Bool) (p : BitVec 3) (a b : Reg) (s : State) : Out :=
  .next (s.setPred p (f (s.scalar a) (s.scalar b)))
def cmpI (f : Word → Word → Bool) (p : BitVec 3) (a : Reg) (i : W32) (s : State) : Out :=
  .next (s.setPred p (f (s.scalar a) (s.imm i)))
def logic (f : Bool → Bool → Bool) (p a b : BitVec 3) (s : State) : Out :=
  .next (s.setPred p (f (s.me.pred a) (s.me.pred b)))

def execCmpEq (p : BitVec 3) (a b : Reg) (s : State) : Out := cmp2 (fun x y => x == y) p a b s
def execCmpNe (p : BitVec 3) (a b : Reg) (s : State) : Out := cmp2 (fun x y => x != y) p a b s
def execCmpLt (p : BitVec 3) (a b : Reg) (s : State) : Out := cmp2 BitVec.slt p a b s
def execCmpLe (p : BitVec 3) (a b : Reg) (s : State) : Out := cmp2 BitVec.sle p a b s
def execCmpLtu (p : BitVec 3) (a b : Reg) (s : State) : Out := cmp2 BitVec.ult p a b s
def execCmpLeu (p : BitVec 3) (a b : Reg) (s : State) : Out := cmp2 BitVec.ule p a b s
def execPand (p a b : BitVec 3) (s : State) : Out := logic (fun x y => x && y) p a b s
def execPor (p a b : BitVec 3) (s : State) : Out := logic (fun x y => x || y) p a b s
def execPxor (p a b : BitVec 3) (s : State) : Out := logic (fun x y => x != y) p a b s
def execPandn (p a b : BitVec 3) (s : State) : Out := logic (fun x y => x && !y) p a b s
def execCmpiEq (p : BitVec 3) (a : Reg) (i : W32) (s : State) : Out := cmpI (fun x y => x == y) p a i s
def execCmpiNe (p : BitVec 3) (a : Reg) (i : W32) (s : State) : Out := cmpI (fun x y => x != y) p a i s
def execCmpiLt (p : BitVec 3) (a : Reg) (i : W32) (s : State) : Out := cmpI BitVec.slt p a i s
def execCmpiLe (p : BitVec 3) (a : Reg) (i : W32) (s : State) : Out := cmpI BitVec.sle p a i s
def execCmpiLtu (p : BitVec 3) (a : Reg) (i : W32) (s : State) : Out := cmpI BitVec.ult p a i s
def execCmpiLeu (p : BitVec 3) (a : Reg) (i : W32) (s : State) : Out := cmpI BitVec.ule p a i s

-- Moves (R58 to R60).

def execMov (d a : Reg) (s : State) : Out := .next (s.setScalar d (s.scalar a))
def execPget (d : Reg) (s : State) : Out := .next (s.setScalar d ((s.me.preds ||| 1).setWidth 64))
def execPput (a : Reg) (s : State) : Out :=
  .next (s.modMe fun c => { c with preds := (s.scalar a).setWidth 8 ||| 1 })

/-- A tensor instruction that still reads grid rows (R18, R59). -/
def readsGrid : Instr → Bool
  | .mma f => f.a = .grid
  | _ => false

/-- The poisoned granules of one grid row. -/
def State.rowPoisoned (s : State) (src row : Nat) : Bool := s.psnGrid.any fun e => e.1 = src && e.2.1 = row

def execVget (d : Reg) (g lane : Reg) (s : State) : Out :=
  let r := (physRow s.iss.rrb g).toNat
  if !(s.me.bufE.isEmpty) then .next s.hold
  else if s.psnGrid.contains (s.iss.src, r, lane.toNat / 8) then .next s.poisoned
  else .next (s.setScalar d ((rowWord (s.me.row r) lane.toNat).setWidth 64))

def execVput (g : Reg) (a : Reg) (lane : Reg) (s : State) : Out :=
  let r := (physRow s.iss.rrb g).toNat
  if !(s.me.bufE.isEmpty) || s.me.bufT.any (fun e => readsGrid e.instr) then .next s.hold
  else .next (s.modMe fun c => c.setRow r (rowSetWord (c.row r) lane.toNat ((s.scalar a).setWidth 32)))

def execKeel (d : Reg) (s : State) : Out := .next (s.setScalar d (w64 s.keel))

-- Branches (R61).

/-- PC + 8 * Sext(OFF32). -/
def target (pc : Word) (off : W32) : Word := pc + (off.signExtend 64 <<< 3)

/-- A register target must be a multiple of 8 (R30). -/
def jumpTo (t : Word) (s : State) : State := if t.toNat % 8 = 0 then s.goto t else s.fatal .illegal

def execBr (off : W32) (s : State) : Out := .next (s.goto (target s.me.pc off))
def execCall (off : W32) (s : State) : Out := .next ((s.setScalar 62 (s.me.pc + 8)).goto (target s.me.pc off))
def execJmp (a : Reg) (s : State) : Out := .next (jumpTo (s.scalar a) s)
def execCallr (a : Reg) (s : State) : Out :=
  let t := s.scalar a
  .next (if t.toNat % 8 = 0 then (s.setScalar 62 (s.me.pc + 8)).goto t else s.fatal .illegal)
def execRet (a : Reg) (s : State) : Out := .next (jumpTo (s.scalar a) s)

-- Hardware loops (R63 to R69).

/-- PC[14:3] of the loop word. -/
def loopId (pc : Word) : BitVec 12 := pc.extractLsb' 3 12

/-- Push a loop, or skip its body where the count is zero (R64). -/
def pushLoop (n : Nat) (off : W32) (stages : Option Nat) (s : State) : State :=
  let c := s.me
  let last := target c.pc off
  if n = 0 then s.goto (last + 8)
  else
    let total := n + stages.getD 0
    s.modMe fun c => { c with loops := ⟨c.pc + 8, last, total, loopId c.pc, stages, total⟩ :: c.loops }

def execLoop (a : Reg) (off : W32) (s : State) : Out :=
  let n := (s.scalar a).toNat % 2 ^ 32
  if 0 < n && s.me.loops.length ≥ 4 then .next (s.fatal .illegal)
  else .next (pushLoop n off none s)

/-- The predicates `p1` = 1 and `p2` to `pS` = 0 of R67. -/
def stageInit (preds : BitVec 8) (sm1 : Nat) : BitVec 8 :=
  (preds &&& ~~~(BitVec.ofNat 8 (2 ^ (sm1 + 2) - 2))) ||| 2

def execLoopp (a : Reg) (stages : BitVec 3) (off : W32) (s : State) : Out :=
  let n := (s.scalar a).toNat % 2 ^ 32
  if 0 < n && s.me.loops.length ≥ 4 || s.me.inLoopp then .next (s.fatal .illegal)
  else
    let s := pushLoop n off (some stages.toNat) s
    .next (if n = 0 then s else s.modMe fun c => { c with rrb := 0, preds := stageInit c.preds stages.toNat })

def execLbrk (s : State) : Out :=
  match s.me.loops with
  | [] => .next (s.fatal .illegal)
  | e :: rest => .next (((s.modMe fun c => { c with loops := rest }).goto (e.last + 8)).traceExits s.iss.src [e])

def execLnext (s : State) : Out :=
  match s.me.loops with
  | [] => .next (s.fatal .illegal)
  | _ :: _ =>
    let (c, exits, turned) := backEdge 5 s.me
    let s := ((s.modMe fun _ => c).moved).traceExits s.iss.src exits
    .next (if turned then s.loopBoundary s.iss.src else s)

-- Thread control (R73, R74).

/-- The control core's round-robin starts after the thread that issued last, which puts this one at the end. -/
def execYield (s : State) : Out := .next (s.modCell s.myCell fun c => { c with rr := (s.iss.src % 4, c.rr.2) })

def sleepUntil (t : Nat) (s : State) : State := s.modMe fun c => { c with status := .sleeping, wakeAt := t }

def execSleept (a : Reg) (s : State) : Out := .next (sleepUntil (s.scalar a).toNat s)
def execSleepd (a : Reg) (s : State) : Out := .next (sleepUntil (s.keel + (s.scalar a).toNat) s)

/-- The thread sleeps, its deadline has come and its string is not frozen. -/
def State.slept (s : State) (src : Nat) : Bool :=
  (s.ctx src).status = .sleeping && (s.ctx src).wakeAt ≤ s.keel && !(s.strFrozen src)

/-- SLEEP_WAKE (R74): the deadline has come; Boundary(cell), and the thread issues from the following nanosecond. It waits where
the boundary must, and the windsock records a full slice (R174). -/
def execSleepWake (s : State) : Out :=
  let s := { s with iss := { src := s.arg.a } }
  if !(s.slept s.iss.src) then .next s
  else if s.mayBound .cell then
    .next ((s.endWaitDone.boundary .cell).modMe fun c => { c with status := .run, tried := (s.keel + 1, c.tried.2) })
  else match s.fullSlice s.iss.src .cell with
    | some n => .next (s.waitOn 8 n none)
    | none => .next s

-- Prefixes and hints (R42, R49).

/-- Add a prefix to the chain; a second of its kind is ILLEGAL at the first prefix (R44). -/
def addPfx (dup : Pfx → Bool) (f : Pfx → Pfx) (s : State) : State :=
  match s.me.pfx with
  | some p => if dup p then s.fatal .illegal else s.modMe fun c => { c with pfx := some (f p) }
  | none => s.modMe fun c => { c with pfx := some (f { pc0 := c.pc }) }

def execXtnd (i : W32) (s : State) : Out := .next (addPfx (·.xtnd.isSome) (fun p => { p with xtnd := some i }) s)
def execLane (m : BitVec 3) (merge : Bool) (s : State) : Out :=
  .next (addPfx (·.lane.isSome) (fun p => { p with lane := some ⟨merge, m⟩ }) s)

/-- PREF may start a read of the granule; what a load returns does not depend on it (R248). -/
def execPref (_ : PrefF) (s : State) : Out := .next s
def execPrio (p : BitVec 3) (s : State) : Out :=
  .next (s.modMe fun c => { c with prio := if c.ceiling < p then c.ceiling else p })
def execEmptyHint (_ : BitVec 8) (s : State) : Out := .next s
/-- A major opcode of no group (R50). -/
def execUndefinedOpcode (_ : BitVec 8) (s : State) : Out := .next (s.fatal .illegal)

end Sys2Proof.Machine
end

