-- ==== Sys2Proof/Machine/System.lean ====
section
/-! DEFINITION. Traps, drogue regions and error queries (19 R337 to R344), the system registers (25 R397, R398), `BRK`, `EVT`
(25 R399, R400) and `BLST` (21 R356). -/

namespace Sys2Proof.Machine

-- TRAP, BRK and RFE (R338, R339, R399).

def execTrap (code : BitVec 20) (s : State) : Out := .next (s.trap .swtrap (code.setWidth 32))
def execBrk (code : BitVec 20) (s : State) : Out := .next (s.trap .brk (code.setWidth 32))

def execRfe (s : State) : Out :=
  let c := s.me
  if !(c.tstate.getLsbD 0) then .next (s.fatal .illegal)
  else if !s.quiet then .next s.hold
  else if c.epc.toNat % 8 ≠ 0 then .next (s.fatal .illegal)
  else .next s.rfe

-- Drogue regions (R334, R340, R341).

/-- The scalars, predicates, RRB and loop stack as they stand. -/
def Ctx.snapNow (c : Ctx) : Snap := { regs := c.regs, preds := c.preds, rrb := c.rrb, loops := c.loops, pc := c.pc }

def execDropen (off : BitVec 20) (s : State) : Out :=
  let c := s.me
  if c.pending ≠ [] then .next s.hold
  else if 4 ≤ c.drogue.length then .next (s.fatal .illegal)
  else .next (s.modMe fun c => { c with
    drogue := { handler := c.pc + (off.signExtend 64 <<< 3), snap := c.snapNow, depth := c.loops.length } :: c.drogue })

def execDrclose (s : State) : Out :=
  let c := s.me
  if !s.quiet then .next s.hold
  else match c.drogue with
    | [] => .next (s.fatal .illegal)
    | _ :: rest => .next (s.modMe fun c => { c with drogue := rest })

-- ERRQ (R344).

/-- The word of a selector. -/
def State.errq (s : State) (sel : Nat) : Word :=
  let c := s.me
  let e := c.err
  match sel with
  | 0 => w64 (e.cause.toNat + 256 * e.unit.toNat + 1024 * e.depth)
  | 1 => e.pc
  | 2 => e.prodPc
  | 3 => w64 (min c.unwinds (2 ^ 64 - 1))
  | 4 => w64 c.drogue.length
  | 5 => (s.cell s.myCell).corrected
  | 6 => (s.cell s.myCell).consumed
  | _ => w64 e.keel

def execErrq (d : Reg) (sel : BitVec 4) (s : State) : Out := .next (s.setScalar d (s.errq sel.toNat))

-- System registers (R397).

/-- The value of a system register; none for a number that names none. -/
def State.sysReg (s : State) (r : Nat) : Option Word :=
  let c := s.me
  match r with
  | 0x000 => some c.tvec
  | 0x001 => some c.epc
  | 0x002 => some c.tval
  | 0x003 => some c.cause
  | 0x004 => some (c.tstate.setWidth 64)
  | 0x008 => some (c.nflags.setWidth 64)
  | 0x009 => some (w64 c.hzn.keel)
  | 0x00A => some (w64 (b2n c.aged))
  | 0x00B => some (c.rrb.setWidth 64)
  | 0x010 => some (c.wboff.setWidth 64 <<< 3)
  | 0x011 => some (c.rvm.setWidth 64)
  | 0x012 => some (c.wcommit.setWidth 64)
  | 0x013 => some 0
  | 0x018 => some c.xfault
  | 0x019 => some c.drhint
  | _ => if 0x100 ≤ r && r < 0x110 then some ((tellCrc (r - 0x100)).setWidth 64) else none

/-- A register after software has written its RW fields; RO registers keep theirs (R398). -/
def Ctx.writeSys (c : Ctx) (r : Nat) (v : Word) : Ctx :=
  match r with
  | 0x000 => { c with tvec := v &&& ~~~7 }
  | 0x001 => { c with epc := v }
  | 0x004 => { c with tstate := (c.tstate &&& 7) ||| (v.setWidth 4 &&& 8) }
  | 0x008 => { c with nflags := v.setWidth 3 }
  | 0x00A => { c with aged := c.aged && v.getLsbD 0 }
  | 0x00B => { c with rrb := v.setWidth 4 }
  | 0x010 => { c with wboff := v.extractLsb' 3 18 }
  | 0x011 => { c with rvm := v.setWidth 48 }
  | 0x012 => { c with wcommit := v.setWidth 27 }
  | 0x019 => { c with drhint := v }
  | _ => c

/-- A read or write of the register is held (R113, R398). -/
def Ctx.sysHeld (c : Ctx) (r : Nat) (write : Bool) : Bool :=
  (r = 0x008 && !c.flagsReady) || (write && r = 0x00B && (!c.bufE.isEmpty || c.pending ≠ []))

def execRdsys (d : Reg) (r : BitVec 12) (s : State) : Out :=
  if s.me.sysHeld r.toNat false then .next s.hold
  else match s.sysReg r.toNat with
    | some v => .next (s.setScalar d v)
    | none => .next (s.fatal .illegal)

def execWrsys (r : BitVec 12) (a : Reg) (s : State) : Out :=
  let v := s.scalar a
  if s.me.sysHeld r.toNat true then .next s.hold
  else if (s.sysReg r.toNat).isNone then .next (s.fatal .illegal)
  else if r = 0x013 then .next (if v.getLsbD 0 then s.repair else s)
  else .next (s.modMe fun c => c.writeSys r.toNat v)

-- EVT and BLST (R400, R356).

/-- EVT: an EVT record where tracing is on. -/
def execEvt (a : Reg) (code : BitVec 16) (s : State) : Out :=
  .next (s.traceRec s.iss.src s.iss.pc
    (fun _ => (longRec 5 0 (code.toNat + 2 ^ 16 * (s.iss.xtnd.elim 0 (·.toNat))) (s.scalar a).toNat, none)) true)

/-- The K-steps of a column that wait for tokens: at most one of each of its four cells, whose K-step pipe it would enter. -/
def State.waitingSteps (s : State) (col : Nat) : Nat :=
  (((s.colWaits col).filter fun src => (s.ctx src).bufT.head?.any fun e => match e.instr with | .mma _ => true | _ => false).map
    cellOf).eraseDups.length

/-- The word of BLST. -/
def State.blst (s : State) (col : Nat) : Word :=
  let b := s.bucket col
  w64 (b.tok / 16 + 2 ^ 32 * b.rate + 2 ^ 44 * s.waitingSteps col)

def execBlst (d : Reg) (s : State) : Out := .next (s.setScalar d (s.blst (columnOf s.myCell)))

end Sys2Proof.Machine
end

