-- ==== Sys2Proof/Machine/Dispatch.lean ====
section
/-! DEFINITION. What each instruction does: one arm for each constructor of `Instr`, a direct call of its meaning. -/

namespace Sys2Proof.Machine

def exec (i : Instr) (s : State) : Host.Outcome State Fault Refusal :=
  match i with
  | .nop => Sys2Proof.Machine.execNop s
  | .add d a b => Sys2Proof.Machine.execAdd d a b s
  | .sub d a b => Sys2Proof.Machine.execSub d a b s
  | .mul d a b => Sys2Proof.Machine.execMul d a b s
  | .mulh d a b => Sys2Proof.Machine.execMulh d a b s
  | .mulhu d a b => Sys2Proof.Machine.execMulhu d a b s
  | .div d a b => Sys2Proof.Machine.execDiv d a b s
  | .divu d a b => Sys2Proof.Machine.execDivu d a b s
  | .rem d a b => Sys2Proof.Machine.execRem d a b s
  | .remu d a b => Sys2Proof.Machine.execRemu d a b s
  | .and d a b => Sys2Proof.Machine.execAnd d a b s
  | .or d a b => Sys2Proof.Machine.execOr d a b s
  | .xor d a b => Sys2Proof.Machine.execXor d a b s
  | .andn d a b => Sys2Proof.Machine.execAndn d a b s
  | .shl d a b => Sys2Proof.Machine.execShl d a b s
  | .shr d a b => Sys2Proof.Machine.execShr d a b s
  | .sra d a b => Sys2Proof.Machine.execSra d a b s
  | .rot d a b => Sys2Proof.Machine.execRot d a b s
  | .min d a b => Sys2Proof.Machine.execMin d a b s
  | .max d a b => Sys2Proof.Machine.execMax d a b s
  | .minu d a b => Sys2Proof.Machine.execMinu d a b s
  | .maxu d a b => Sys2Proof.Machine.execMaxu d a b s
  | .clz d a => Sys2Proof.Machine.execClz d a s
  | .popc d a => Sys2Proof.Machine.execPopc d a s
  | .madd d a b c => Sys2Proof.Machine.execMadd d a b c s
  | .sel d a b p => Sys2Proof.Machine.execSel d a b p s
  | .addx d a b n => Sys2Proof.Machine.execAddx d a b n s
  | .addi d a imm => Sys2Proof.Machine.execAddi d a imm s
  | .andi d a imm => Sys2Proof.Machine.execAndi d a imm s
  | .ori d a imm => Sys2Proof.Machine.execOri d a imm s
  | .xori d a imm => Sys2Proof.Machine.execXori d a imm s
  | .shli d a imm => Sys2Proof.Machine.execShli d a imm s
  | .shri d a imm => Sys2Proof.Machine.execShri d a imm s
  | .srai d a imm => Sys2Proof.Machine.execSrai d a imm s
  | .roti d a imm => Sys2Proof.Machine.execRoti d a imm s
  | .li d imm => Sys2Proof.Machine.execLi d imm s
  | .lih d imm => Sys2Proof.Machine.execLih d imm s
  | .liz d imm => Sys2Proof.Machine.execLiz d imm s
  | .cmpEq p a b => Sys2Proof.Machine.execCmpEq p a b s
  | .cmpNe p a b => Sys2Proof.Machine.execCmpNe p a b s
  | .cmpLt p a b => Sys2Proof.Machine.execCmpLt p a b s
  | .cmpLe p a b => Sys2Proof.Machine.execCmpLe p a b s
  | .cmpLtu p a b => Sys2Proof.Machine.execCmpLtu p a b s
  | .cmpLeu p a b => Sys2Proof.Machine.execCmpLeu p a b s
  | .pand p a b => Sys2Proof.Machine.execPand p a b s
  | .por p a b => Sys2Proof.Machine.execPor p a b s
  | .pxor p a b => Sys2Proof.Machine.execPxor p a b s
  | .pandn p a b => Sys2Proof.Machine.execPandn p a b s
  | .cmpiEq p a imm => Sys2Proof.Machine.execCmpiEq p a imm s
  | .cmpiNe p a imm => Sys2Proof.Machine.execCmpiNe p a imm s
  | .cmpiLt p a imm => Sys2Proof.Machine.execCmpiLt p a imm s
  | .cmpiLe p a imm => Sys2Proof.Machine.execCmpiLe p a imm s
  | .cmpiLtu p a imm => Sys2Proof.Machine.execCmpiLtu p a imm s
  | .cmpiLeu p a imm => Sys2Proof.Machine.execCmpiLeu p a imm s
  | .mov d a => Sys2Proof.Machine.execMov d a s
  | .pget d => Sys2Proof.Machine.execPget d s
  | .pput a => Sys2Proof.Machine.execPput a s
  | .vget d g lane => Sys2Proof.Machine.execVget d g lane s
  | .vput g a lane => Sys2Proof.Machine.execVput g a lane s
  | .keel d => Sys2Proof.Machine.execKeel d s
  | .br off => Sys2Proof.Machine.execBr off s
  | .call off => Sys2Proof.Machine.execCall off s
  | .jmp a => Sys2Proof.Machine.execJmp a s
  | .callr a => Sys2Proof.Machine.execCallr a s
  | .ret a => Sys2Proof.Machine.execRet a s
  | .loop a off => Sys2Proof.Machine.execLoop a off s
  | .loopp a stages off => Sys2Proof.Machine.execLoopp a stages off s
  | .lbrk => Sys2Proof.Machine.execLbrk s
  | .lnext => Sys2Proof.Machine.execLnext s
  | .exit => Sys2Proof.Machine.execExit s
  | .yield => Sys2Proof.Machine.execYield s
  | .sleept a => Sys2Proof.Machine.execSleept a s
  | .sleepd a => Sys2Proof.Machine.execSleepd a s
  | .qadv q n => Sys2Proof.Machine.execQadv q n s
  | .qstat d q => Sys2Proof.Machine.execQstat d q s
  | .qcfg a q => Sys2Proof.Machine.execQcfg a q s
  | .qclr q => Sys2Proof.Machine.execQclr q s
  | .ldq f => Sys2Proof.Machine.execLdq f s
  | .stq f => Sys2Proof.Machine.execStq f s
  | .ldmq f => Sys2Proof.Machine.execLdmq f s
  | .stmq f => Sys2Proof.Machine.execStmq f s
  | .ldrq f => Sys2Proof.Machine.execLdrq f s
  | .strq f => Sys2Proof.Machine.execStrq f s
  | .lds f => Sys2Proof.Machine.execLds f s
  | .sts f => Sys2Proof.Machine.execSts f s
  | .ldm f => Sys2Proof.Machine.execLdm f s
  | .stm f => Sys2Proof.Machine.execStm f s
  | .amoAdd f => Sys2Proof.Machine.execAmoAdd f s
  | .amoMin f => Sys2Proof.Machine.execAmoMin f s
  | .amoMax f => Sys2Proof.Machine.execAmoMax f s
  | .amoMinu f => Sys2Proof.Machine.execAmoMinu f s
  | .amoMaxu f => Sys2Proof.Machine.execAmoMaxu f s
  | .amoAnd f => Sys2Proof.Machine.execAmoAnd f s
  | .amoOr f => Sys2Proof.Machine.execAmoOr f s
  | .amoXor f => Sys2Proof.Machine.execAmoXor f s
  | .amoSwap f => Sys2Proof.Machine.execAmoSwap f s
  | .amoCas f c => Sys2Proof.Machine.execAmoCas f c s
  | .amosAdd f => Sys2Proof.Machine.execAmosAdd f s
  | .amosMin f => Sys2Proof.Machine.execAmosMin f s
  | .amosMax f => Sys2Proof.Machine.execAmosMax f s
  | .amosMinu f => Sys2Proof.Machine.execAmosMinu f s
  | .amosMaxu f => Sys2Proof.Machine.execAmosMaxu f s
  | .amosAnd f => Sys2Proof.Machine.execAmosAnd f s
  | .amosOr f => Sys2Proof.Machine.execAmosOr f s
  | .amosXor f => Sys2Proof.Machine.execAmosXor f s
  | .amosSwap f => Sys2Proof.Machine.execAmosSwap f s
  | .amosCas f c => Sys2Proof.Machine.execAmosCas f c s
  | .teth th a intent => Sys2Proof.Machine.execTeth th a intent s
  | .trenew th => Sys2Proof.Machine.execTrenew th s
  | .trel th => Sys2Proof.Machine.execTrel th s
  | .tstat d th => Sys2Proof.Machine.execTstat d th s
  | .rprobe a b w => Sys2Proof.Machine.execRprobe a b w s
  | .vadd f => Sys2Proof.Machine.execVadd f s
  | .vsub f => Sys2Proof.Machine.execVsub f s
  | .vmul f => Sys2Proof.Machine.execVmul f s
  | .vfma f => Sys2Proof.Machine.execVfma f s
  | .vfnma f => Sys2Proof.Machine.execVfnma f s
  | .vmax f => Sys2Proof.Machine.execVmax f s
  | .vmin f => Sys2Proof.Machine.execVmin f s
  | .vabs f => Sys2Proof.Machine.execVabs f s
  | .vneg f => Sys2Proof.Machine.execVneg f s
  | .vcpy f => Sys2Proof.Machine.execVcpy f s
  | .vrcp f => Sys2Proof.Machine.execVrcp f s
  | .vrsq f => Sys2Proof.Machine.execVrsq f s
  | .vexp2 f => Sys2Proof.Machine.execVexp2 f s
  | .vlog2 f => Sys2Proof.Machine.execVlog2 f s
  | .vsqrt f => Sys2Proof.Machine.execVsqrt f s
  | .vdiv f => Sys2Proof.Machine.execVdiv f s
  | .viadd f => Sys2Proof.Machine.execViadd f s
  | .visub f => Sys2Proof.Machine.execVisub f s
  | .vimul f => Sys2Proof.Machine.execVimul f s
  | .vand f => Sys2Proof.Machine.execVand f s
  | .vor f => Sys2Proof.Machine.execVor f s
  | .vxor f => Sys2Proof.Machine.execVxor f s
  | .vshl f => Sys2Proof.Machine.execVshl f s
  | .vshr f => Sys2Proof.Machine.execVshr f s
  | .vsra f => Sys2Proof.Machine.execVsra f s
  | .vimin f => Sys2Proof.Machine.execVimin f s
  | .vimax f => Sys2Proof.Machine.execVimax f s
  | .vcmpEq f => Sys2Proof.Machine.execVcmpEq f s
  | .vcmpNe f => Sys2Proof.Machine.execVcmpNe f s
  | .vcmpLt f => Sys2Proof.Machine.execVcmpLt f s
  | .vcmpLe f => Sys2Proof.Machine.execVcmpLe f s
  | .vcmpUn f => Sys2Proof.Machine.execVcmpUn f s
  | .vcmpIeq f => Sys2Proof.Machine.execVcmpIeq f s
  | .vcmpIlt f => Sys2Proof.Machine.execVcmpIlt f s
  | .vcmpIltu f => Sys2Proof.Machine.execVcmpIltu f s
  | .vcvt f => Sys2Proof.Machine.execVcvt f s
  | .vqnt f => Sys2Proof.Machine.execVqnt f s
  | .vdq f => Sys2Proof.Machine.execVdq f s
  | .vsum f => Sys2Proof.Machine.execVsum f s
  | .vrmax f => Sys2Proof.Machine.execVrmax f s
  | .vrmin f => Sys2Proof.Machine.execVrmin f s
  | .vperm f => Sys2Proof.Machine.execVperm f s
  | .vrot f => Sys2Proof.Machine.execVrot f s
  | .vbcast f => Sys2Proof.Machine.execVbcast f s
  | .vsel f => Sys2Proof.Machine.execVsel f s
  | .vldi d ty imm => Sys2Proof.Machine.execVldi d ty imm s
  | .xtnd imm => Sys2Proof.Machine.execXtnd imm s
  | .lane m merge => Sys2Proof.Machine.execLane m merge s
  | .pref f => Sys2Proof.Machine.execPref f s
  | .prio p => Sys2Proof.Machine.execPrio p s
  | .emptyHint op => Sys2Proof.Machine.execEmptyHint op s
  | .mma f => Sys2Proof.Machine.execMma f s
  | .mzero acc => Sys2Proof.Machine.execMzero acc s
  | .mlda acc a => Sys2Proof.Machine.execMlda acc a s
  | .msta acc a => Sys2Proof.Machine.execMsta acc a s
  | .mprog d acc => Sys2Proof.Machine.execMprog d acc s
  | .mrst acc off => Sys2Proof.Machine.execMrst acc off s
  | .epi f => Sys2Proof.Machine.execEpi f s
  | .rig a n => Sys2Proof.Machine.execRig a n s
  | .unrig n => Sys2Proof.Machine.execUnrig n s
  | .admitTile n a b c => Sys2Proof.Machine.execAdmitTile n a b c s
  | .arrv d => Sys2Proof.Machine.execArrv d s
  | .pass a up => Sys2Proof.Machine.execPass a up s
  | .meet d => Sys2Proof.Machine.execMeet d s
  | .wver d => Sys2Proof.Machine.execWver d s
  | .wswap => Sys2Proof.Machine.execWswap s
  | .wstat d n sel => Sys2Proof.Machine.execWstat d n sel s
  | .phase sc => Sys2Proof.Machine.execPhase sc s
  | .phaseb sc => Sys2Proof.Machine.execPhaseb sc s
  | .fencex frm dst => Sys2Proof.Machine.execFencex frm dst s
  | .flagset th a b sc => Sys2Proof.Machine.execFlagset th a b sc s
  | .flagw d th a b c sc cond => Sys2Proof.Machine.execFlagw d th a b c sc cond s
  | .join d a => Sys2Proof.Machine.execJoin d a s
  | .leave a => Sys2Proof.Machine.execLeave a s
  | .teamq d a sel => Sys2Proof.Machine.execTeamq d a sel s
  | .glaunch d a q => Sys2Proof.Machine.execGlaunch d a q s
  | .gsig => Sys2Proof.Machine.execGsig s
  | .gdone => Sys2Proof.Machine.execGdone s
  | .gadd d a => Sys2Proof.Machine.execGadd d a s
  | .gqry d a sel => Sys2Proof.Machine.execGqry d a sel s
  | .copy d b a ch => Sys2Proof.Machine.execCopy d b a ch s
  | .copyf d b a c ch => Sys2Proof.Machine.execCopyf d b a c ch s
  | .cwait ch a => Sys2Proof.Machine.execCwait ch a s
  | .cstat d ch => Sys2Proof.Machine.execCstat d ch s
  | .cchk ch a => Sys2Proof.Machine.execCchk ch a s
  | .wreg d th a b => Sys2Proof.Machine.execWreg d th a b s
  | .wdereg a => Sys2Proof.Machine.execWdereg a s
  | .put th a b c wid => Sys2Proof.Machine.execPut th a b c wid s
  | .wwait sel a b => Sys2Proof.Machine.execWwait sel a b s
  | .wcnt sel d a => Sys2Proof.Machine.execWcnt sel d a s
  | .rstart a e => Sys2Proof.Machine.execRstart a e s
  | .rwait a e => Sys2Proof.Machine.execRwait a e s
  | .rstat d e => Sys2Proof.Machine.execRstat d e s
  | .rarbHbm a => Sys2Proof.Machine.execRarbHbm a s
  | .rarbLink a => Sys2Proof.Machine.execRarbLink a s
  | .mopen mh c a mode => Sys2Proof.Machine.execMopen mh c a mode s
  | .mopenw mh c a b mode => Sys2Proof.Machine.execMopenw mh c a b mode s
  | .mclose mh => Sys2Proof.Machine.execMclose mh s
  | .mbind d a b => Sys2Proof.Machine.execMbind d a b s
  | .munbind d a b => Sys2Proof.Machine.execMunbind d a b s
  | .mqry d a sel => Sys2Proof.Machine.execMqry d a sel s
  | .dropen off => Sys2Proof.Machine.execDropen off s
  | .drclose => Sys2Proof.Machine.execDrclose s
  | .tell n => Sys2Proof.Machine.execTell n s
  | .errq d sel => Sys2Proof.Machine.execErrq d sel s
  | .trap code => Sys2Proof.Machine.execTrap code s
  | .rfe => Sys2Proof.Machine.execRfe s
  | .rdsys d r => Sys2Proof.Machine.execRdsys d r s
  | .wrsys r a => Sys2Proof.Machine.execWrsys r a s
  | .brk code => Sys2Proof.Machine.execBrk code s
  | .evt a code => Sys2Proof.Machine.execEvt a code s
  | .blst d => Sys2Proof.Machine.execBlst d s
  | .undefinedOpcode op => Sys2Proof.Machine.execUndefinedOpcode op s
  | .instructionFetch => Sys2Proof.Machine.execInstructionFetch s
  | .sleepWake => Sys2Proof.Machine.execSleepWake s
  | .loadStreamRow => Sys2Proof.Machine.execLoadStreamRow s
  | .storeStreamRow => Sys2Proof.Machine.execStoreStreamRow s
  | .streamRowGrant => Sys2Proof.Machine.execStreamRowGrant s
  | .memoryLoadLands => Sys2Proof.Machine.execMemoryLoadLands s
  | .memoryStorePerformed => Sys2Proof.Machine.execMemoryStorePerformed s
  | .renewalAnswer => Sys2Proof.Machine.execRenewalAnswer s
  | .kStep => Sys2Proof.Machine.execKStep s
  | .handlerEnd => Sys2Proof.Machine.execHandlerEnd s
  | .arrivalDelivery => Sys2Proof.Machine.execArrivalDelivery s
  | .tileSend => Sys2Proof.Machine.execTileSend s
  | .tileIntoInbox => Sys2Proof.Machine.execTileIntoInbox s
  | .bankExchange => Sys2Proof.Machine.execBankExchange s
  | .barrierRelease => Sys2Proof.Machine.execBarrierRelease s
  | .flagwWake => Sys2Proof.Machine.execFlagwWake s
  | .publishTakesEffect => Sys2Proof.Machine.execPublishTakesEffect s
  | .publishEntryMerge => Sys2Proof.Machine.execPublishEntryMerge s
  | .horizonAging => Sys2Proof.Machine.execHorizonAging s
  | .promiseTimeReached => Sys2Proof.Machine.execPromiseTimeReached s
  | .launchAdmit => Sys2Proof.Machine.execLaunchAdmit s
  | .nodeDispatch => Sys2Proof.Machine.execNodeDispatch s
  | .nodeCompletion => Sys2Proof.Machine.execNodeCompletion s
  | .copyPacketTake => Sys2Proof.Machine.execCopyPacketTake s
  | .copyPacketStep => Sys2Proof.Machine.execCopyPacketStep s
  | .copyTransferComplete => Sys2Proof.Machine.execCopyTransferComplete s
  | .cqnoteWrite => Sys2Proof.Machine.execCqnoteWrite s
  | .cqwidxWrite => Sys2Proof.Machine.execCqwidxWrite s
  | .cfailstClear => Sys2Proof.Machine.execCfailstClear s
  | .relayStep => Sys2Proof.Machine.execRelayStep s
  | .mopenwWake => Sys2Proof.Machine.execMopenwWake s
  | .leaseCacheExpiry => Sys2Proof.Machine.execLeaseCacheExpiry s
  | .leaseExpiryPublish => Sys2Proof.Machine.execLeaseExpiryPublish s
  | .changeRecordLapse => Sys2Proof.Machine.execChangeRecordLapse s
  | .leafUpdateStart => Sys2Proof.Machine.execLeafUpdateStart s
  | .leafUpdateCommit => Sys2Proof.Machine.execLeafUpdateCommit s
  | .migrationAssist => Sys2Proof.Machine.execMigrationAssist s
  | .syncBeat => Sys2Proof.Machine.execSyncBeat s
  | .inboundDataFlit => Sys2Proof.Machine.execInboundDataFlit s
  | .doneFlit => Sys2Proof.Machine.execDoneFlit s
  | .nakFlit => Sys2Proof.Machine.execNakFlit s
  | .idleFlit => Sys2Proof.Machine.execIdleFlit s
  | .linkDown => Sys2Proof.Machine.execLinkDown s
  | .linkRetrain => Sys2Proof.Machine.execLinkRetrain s
  | .syncFlitSend => Sys2Proof.Machine.execSyncFlitSend s
  | .peerCounterRead => Sys2Proof.Machine.execPeerCounterRead s
  | .windowLeaseRenewal => Sys2Proof.Machine.execWindowLeaseRenewal s
  | .qnoteWrite => Sys2Proof.Machine.execQnoteWrite s
  | .hostFetchAdd => Sys2Proof.Machine.execHostFetchAdd s
  | .launchPacket => Sys2Proof.Machine.execLaunchPacket s
  | .copyreqPacket => Sys2Proof.Machine.execCopyreqPacket s
  | .signalPacket => Sys2Proof.Machine.execSignalPacket s
  | .fencePacket => Sys2Proof.Machine.execFencePacket s
  | .badpkt => Sys2Proof.Machine.execBadpkt s
  | .queueSlotMap => Sys2Proof.Machine.execQueueSlotMap s
  | .sliceEnd => Sys2Proof.Machine.execSliceEnd s
  | .preqWrite => Sys2Proof.Machine.execPreqWrite s
  | .preemptionStop => Sys2Proof.Machine.execPreemptionStop s
  | .drainWindowEnd => Sys2Proof.Machine.execDrainWindowEnd s
  | .smallStateExchange => Sys2Proof.Machine.execSmallStateExchange s
  | .lazyRegionSave => Sys2Proof.Machine.execLazyRegionSave s
  | .lazyRegionReload => Sys2Proof.Machine.execLazyRegionReload s
  | .prresRestore => Sys2Proof.Machine.execPrresRestore s
  | .prresDiscard => Sys2Proof.Machine.execPrresDiscard s
  | .prresFlush => Sys2Proof.Machine.execPrresFlush s
  | .contextRestore => Sys2Proof.Machine.execContextRestore s
  | .saveAreaWriteback => Sys2Proof.Machine.execSaveAreaWriteback s
  | .halt => Sys2Proof.Machine.execHalt s
  | .resume => Sys2Proof.Machine.execResume s
  | .step => Sys2Proof.Machine.execStep s
  | .attach => Sys2Proof.Machine.execAttach s
  | .release => Sys2Proof.Machine.execRelease s
  | .holdTimeExpiry => Sys2Proof.Machine.execHoldTimeExpiry s
  | .ddataWrite => Sys2Proof.Machine.execDdataWrite s
  | .breakpointMatch => Sys2Proof.Machine.execBreakpointMatch s
  | .hostWrite => Sys2Proof.Machine.execHostWrite s
  | .hostRead => Sys2Proof.Machine.execHostRead s
  | .registerWrite => Sys2Proof.Machine.execRegisterWrite s
  | .partitionConfigure => Sys2Proof.Machine.execPartitionConfigure s
  | .coldReset => Sys2Proof.Machine.execColdReset s
  | .warmReset => Sys2Proof.Machine.execWarmReset s
  | .rateUpdate => Sys2Proof.Machine.execRateUpdate s
  | .powerMeasurement => Sys2Proof.Machine.execPowerMeasurement s
  | .spdmRequest => Sys2Proof.Machine.execSpdmRequest s
  | .pldmRequest => Sys2Proof.Machine.execPldmRequest s
  | .flashUpdate => Sys2Proof.Machine.execFlashUpdate s
  | .softError => Sys2Proof.Machine.execSoftError s

end Sys2Proof.Machine
end

