-- ==== Sys2Proof/Machine/Moves.lean ====
section
/-! DEFINITION. What may happen next: the events the manual fixes to this nanosecond (`State.duty`), the steps that may be
taken now (`State.moves`), and the free choice among them (log 10). -/

namespace Sys2Proof.Machine

/-- The slots of a cell in round-robin order after the one that issued last (R14, R17). -/
def slotsAfter (k : Nat) : List Nat := [(k + 1) % 4, (k + 2) % 4, (k + 3) % 4, k % 4]

/-- A step the device can take by itself. -/
inductive Move where
  | issue (src : Nat)
  | retry (src : Nat)
  | unit (src : Nat) (u : Unit4)
  | event (i : Instr) (a : EvArg)
  | tick
deriving DecidableEq, Repr

abbrev Ev := Instr × EvArg

-- Events that the manual fixes to a nanosecond.

/-- Contexts and channels, ports and partitions that events look at. -/
def State.srcs (s : State) : List Nat := s.ctxs.map (·.1)
def State.partIds (s : State) : List Nat := List.range s.nparts

/-- A thread whose sleep is over and whose boundary may take effect, or begins to wait for room (R74, R174). -/
def State.wakes (s : State) (src : Nat) : Bool :=
  let t : State := { s with iss := { src := src } }
  s.slept src && (t.mayBound .cell || ((t.fullSlice src .cell).isSome && (s.ctx src).wait.all (·.idle)))

/-- The thread of a cell that issues next (R14): highest priority, then round-robin. One whose instruction waits has issued it. -/
def State.pick (s : State) (cell : Nat) : Option Nat :=
  let c := s.cell cell
  if c.last.1 = s.keel + 1 then none
  else
    let cand := ((slotsAfter c.rr.1).map (cell * 4 + ·)).filter fun src =>
      s.runnable src && (s.ctx src).busy.isNone && (s.ctx src).tried.1 ≠ s.keel + 1
    let best := cand.foldl (fun m src => max m (s.ctx src).prio.toNat) 0
    cand.find? fun src => (s.ctx src).prio.toNat = best

/-- The publishing event that a thread's control core waits for can take effect (R168). -/
def State.corePublishes (s : State) (src : Nat) : Bool :=
  (s.ctx src).pubWait.1.any fun sc => ({ s with iss := { src := src } } : State).mayBound sc

/-- Threads whose waiting instruction is still to be tried in this nanosecond, or once more for its publishing event. -/
def State.retries (s : State) : List Nat :=
  (s.ctxs.filter fun c => c.2.busy.isSome && c.2.lateAt = 0 && s.runnable c.1 &&
    (c.2.tried.1 ≠ s.keel + 1 || s.corePublishes c.1)).map (·.1)

/-- The order in which the causes that one thread's units find in one nanosecond are taken (R328). -/
def Unit4.rank : Unit4 → Nat
  | .c => 0 | .a => 1 | .e => 2 | .t => 3

/-- A later unit of the order has already issued for the thread in this nanosecond. -/
def State.pastUnit (s : State) (src : Nat) (u : Unit4) : Bool :=
  let c := s.cell (cellOf src)
  [Unit4.a, .e, .t].any fun v => decide (u.rank < v.rank) && getTried c.last v = s.keel + 1 && getTried c.rr v = src % 4

/-- A thread's control core is still to issue or to try in this nanosecond: it comes before the thread's units (R328). -/
def State.coreFirst (s : State) (src : Nat) : Bool := s.pick (cellOf src) = some src || s.retries.contains src

/-- The access unit of a thread may find a cause now: its control core has been served, no later unit has, and none has been taken in this
nanosecond (R328). -/
def State.accessTurn (s : State) (src : Nat) : Bool :=
  s.unitRuns src && (s.ctx src).causeAt ≠ s.keel + 1 && !(s.pastUnit src .a) && !(s.coreFirst src)

/-- A load of the thread may land: with poison, only where its unit may find a cause. -/
def State.mayLand (s : State) (src : Nat) (l : PLoad) : Bool :=
  if l.poison || l.late then s.accessTurn src else s.unitRuns src || (s.ctx src).status = .halted

/-- Whether nothing has answered an access of a thread and its time has come (R240): at the head of the access buffer, of a stream, of
a `FLAGW`, or of a `FLAGSET` whose publishing can take effect. -/
def State.dueLate (s : State) (src : Nat) : Option Ev :=
  let c := s.ctx src
  let due (k : Nat) : Bool := decide (k ≠ 0) && decide (k ≤ s.keel)
  let core : Option Ev := if due c.lateAt && s.runnable src then
      match (s.goOn src).map Prod.fst with
      | some (.flagw ..) => some (.memoryLoadLands, { a := src })
      | some (.flagset _ _ _ sc) =>
        if ({ s with iss := { src := src } } : State).mayBound sc then some (.memoryStorePerformed, { a := src }) else none
      | _ => none
    else none
  core.orElse fun _ =>
    if !((c.bufA.take 1 ++ c.streams.map (·.ent)).any fun e => due e.lateAt) || !(s.accessTurn src) then none
    else ((c.bufA.take 1 ++ c.streams.map (·.ent)).find? fun e => due e.lateAt).map fun e => (.memoryLoadLands, { a := src, b := e.id })

/-- Horizons, leases, change records and holds that are due (R174, R256, R269, R270, R406). -/
def State.dueTimes (s : State) : Option Ev :=
  (s.ctxs.findSome? fun c => if c.2.status ≠ .free && c.2.old s.keel then some (.horizonAging, { a := c.1 }) else none)
  |>.orElse fun _ => (s.slots.findSome? fun k => k.members.findSome? fun m =>
    if m.2.old s.keel then some (.horizonAging, { a := m.1 }) else none)
  |>.orElse fun _ => (s.vers.findSome? fun v =>
    if v.due ≠ 0 && v.due ≤ s.keel && v.pubs.all (fun p => p.1 = .cell) then some (.leaseExpiryPublish, { a := v.src }) else none)
  |>.orElse fun _ => (s.cells.findSome? fun c =>
    if c.2.leases.any fun l => l.exp ≤ s.keel then some (.leaseCacheExpiry, { a := c.1 }) else none)
  |>.orElse fun _ => (if s.changes.any fun c => c.till ≤ s.keel then some (.changeRecordLapse, {}) else none)
  |>.orElse fun _ => (s.ctxs.findSome? fun c =>
    if c.2.status = .frozen && (s.dbg c.1).holdTill ≤ s.keel then some (.holdTimeExpiry, { a := c.1 }) else none)

/-- A renewal whose answer must come now (R262). -/
def Tether.answerDue (t : Tether) (keel : Nat) : Bool := t.rpend && t.rdue ≠ 0 && decide (t.rdue ≤ keel)

/-- Wakes, accesses and renewals that are due (R74, R240, R262). -/
def State.dueThreads (s : State) : Option Ev :=
  (s.srcs.findSome? fun src => if s.wakes src then some (.sleepWake, { a := src }) else none)
  |>.orElse fun _ => (s.ctxs.findSome? fun c => c.2.loads.findSome? fun l =>
    if l.due ≤ s.keel && s.mayLand c.1 l then some (.memoryLoadLands, { a := c.1, b := l.ent.id }) else none)
  |>.orElse fun _ => (s.srcs.findSome? s.dueLate)
  |>.orElse fun _ => (s.vers.findSome? fun v =>
    if (!v.done || v.away) && v.perf ≤ s.keel then some (.memoryStorePerformed, { a := v.src, b := v.seq }) else none)
  |>.orElse fun _ => (if s.skew then none else s.ctxs.findSome? fun c =>
    ((List.range 16).find? fun i => (c.2.teth (BitVec.ofNat 4 i)).answerDue s.keel).map fun i => (.renewalAnswer, { a := c.1, b := i }))

/-- The queue whose slice ends or is renewed next (R390), or goes on ending (R391). -/
def State.spentQueue (s : State) : Option Nat := ((s.queues.map (·.1)).find? s.orphans).orElse fun _ =>
  let l := (s.queues.map (·.1)).filter fun q =>
    let u := s.queue q
    u.slot.isSome && !u.slicing && u.configured && u.deficit ≤ 0
  l.find? fun q => l.all fun r => (s.queue q).deficit < (s.queue r).deficit || ((s.queue q).deficit = (s.queue r).deficit && q ≤ r)

/-- A slot's restore can go on: it has its contexts and its place, or a queue in its way does not yet end its slice. -/
def State.restoreMoves (s : State) (k : SaveSlot) : Bool :=
  s.restoreDue k &&
  if s.seatsFree k then s.placeFree k
  else !k.host && k.members.any fun m => (s.queueOfCtx m.1).any fun q => (s.queue q).slot.isSome && !(s.queue q).slicing

/-- The mapper takes the packet at a queue's head now. -/
def State.takesPacket (s : State) (q : Nat) (i : Instr) : Bool :=
  let t := { s with arg := { a := q } }
  let moved (o : Out) : Bool := match o with
    | .next u => (u.queue q).ridx ≠ (s.queue q).ridx
    | _ => false
  match i with
  | .copyreqPacket => moved (execCopyreqPacket t)
  | .signalPacket => moved (execSignalPacket t)
  | _ => true

/-- A packet of a queue that the mapper takes without waiting for anything, or a launch that the pool admits. -/
def State.queueMoves (s : State) (q : Nat) : Option Instr :=
  match (s.queue q).hand with
  | some b => if (s.admitLaunch q b ((s.queue q).launchId q ((s.queue q).ridx - 1))).isSome then some .launchAdmit else none
  | none => (s.mapperEvent q).filter (s.takesPacket q)

/-- Nodes that the rings of a partition's mapped queues may still bring. -/
def State.untaken (s : State) (p : Nat) : Nat :=
  let nodes (b : List Byte) : Nat := if fieldAt b 0 1 = 1 then min 4096 (fieldAt b 2 2) else 0
  ((s.queuesOf p).map fun q =>
    let u := s.queue q
    if u.slot.isNone || u.len = 0 then 0
    else (u.hand.elim 0 nodes) + ((List.range (min u.len (u.widx - u.ridx))).map fun i =>
      match s.engineBytes (s.engineView 2083 p) p ((u.base + 64 * ((u.ridx + i) % u.len) : Nat) : Int) 64 with
      | some (.ok b) => nodes b
      | _ => 0).sum).sum

/-- The pool must act for a partition now: a node has been ready for 256 ns (R219), or the time by which an incoming team issues is near
(R349): one node is dispatched in a nanosecond, so as many are left as there are nodes before it. -/
def State.duePool (s : State) (p : Nat) : Option Ev :=
  let node : Option Ev := (s.nextNode p).map fun n => (.nodeDispatch, { a := n.1 + n.2.idx })
  let near (n : Nat) : Bool := (s.part p).swaps.any fun d => decide (d ≤ s.keel + n)
  if near 8192 && near (8 + (s.freeNodes p).length + s.untaken p) then
    ((s.queuesOf p).findSome? fun q => (s.queueMoves q).map fun i => (i, { a := q })).orElse fun _ => node
  else if s.nodeDue p then node
  else none

/-- Steps of the scheduler and of pre-emption that are due (R345 to R349, R389 to R391): a stopped team's state is exchanged within
2 µs. -/
def State.dueSched (s : State) : Option Ev :=
  (if s.fw.service then s.partIds.findSome? fun p =>
      if !(s.freeQSlots p).isEmpty && (s.longestWait p).isSome then some (.queueSlotMap, { a := p }) else none
    else none)
  |>.orElse fun _ => (s.spentQueue.map fun q => (.sliceEnd, { a := q }))
  |>.orElse fun _ => (s.partIds.findSome? fun p =>
    if (s.part p).pres.any fun x => x.mode = 0 && x.t0 + 200 ≤ s.keel then some (.preemptionStop, { a := p })
    else if (s.part p).pres.any fun x => x.mode = 1 && ((s.liveMembers x).isEmpty || (!x.late && x.rd ≤ s.keel + 5000)) then
      some (.drainWindowEnd, { a := p })
    else if (s.part p).pres.any fun x => x.stopped && (x.rd ≤ s.keel + 1000 || x.stopAt + 2000 ≤ s.keel) then some (.smallStateExchange, { a := p })
    else none)
  |>.orElse fun _ => (s.slots.findSome? fun k => if s.restoreMoves k then some (.contextRestore, { a := k.part, b := k.slot }) else none)
  |>.orElse fun _ => s.partIds.findSome? s.duePool

/-- Link timers (R358, R359). -/
def State.dueLinks (s : State) : Option Ev :=
  (List.range 16).findSome? fun n =>
    let p := s.port n
    if !p.up then none
    else if !p.replay.isEmpty && p.ackAt + 10000 ≤ s.keel then some (.linkDown, { a := n })
    else if p.sentAt + 1000 ≤ s.keel then some (.syncFlitSend, { a := n })
    else none

/-- A publishing event that can take effect does so in this nanosecond (R168): a `PHASE` that waits, or a store that publishes. -/
def State.publishDue (s : State) (src : Nat) : Bool :=
  match (s.ctx src).busy.map decode with
  | some (.ok (.phase sc)) => s.runnable src && ({ s with iss := { src := src } } : State).mayBound sc
  | _ => match (s.ctx src).bufA with
    | e :: _ => (match e.instr with
        | .stm f => e.prog = 1 && f.pub.any ({ s with iss := { src := src, id := e.id } } : State).mayBound
        | _ => false) && s.unitRuns src
    | [] => false
def State.duePublish (s : State) : Option Ev :=
  s.srcs.findSome? fun src => if s.publishDue src then some (.publishTakesEffect, { a := src }) else none

/-- A relay step begins at the first moment it may (R321). -/
def State.dueRelay (s : State) : Option Ev :=
  s.relays.findSome? fun r =>
    if r.2.step = [] && r.2.put.isNone && (s.relayTry r.1).isSome then some (.relayStep, { a := r.1 }) else none

/-- A queue lets go at once what it holds no more (R389). -/
def State.dueQueue (s : State) : Option Ev := s.staleQueue.map fun q => (.queueSlotMap, { a := s.partOfQueue q })

/-- An event that must happen in this nanosecond. -/
def State.duty (s : State) : Option Ev :=
  s.dueQueue |>.orElse fun _ => s.dueTimes |>.orElse fun _ => s.duePublish |>.orElse fun _ => s.dueThreads
  |>.orElse fun _ => s.dueSched |>.orElse fun _ => s.dueLinks |>.orElse fun _ => s.dueRelay

/-- The entry is an `MMA` that has begun: its next K-step is to come. -/
def State.inMma (s : State) (src : Nat) (e : Entry) : Bool :=
  match e.instr with
  | .mma f => ((s.ctx src).acc f.acc).begun
  | _ => false

/-- A row destination of an execute instruction. -/
def gridDst : Dst → Bool
  | .queue _ => false
  | _ => true

/-- An execute instruction that writes grid rows (R18). -/
def writesGrid : Instr → Bool
  | .vadd f | .vsub f | .vmul f | .vdiv f | .vfma f | .vfnma f => gridDst f.od
  | .vmax f | .vmin f | .vand f | .vor f | .vxor f | .vshl f | .vshr f | .vsra f | .vimin f | .vimax f | .vperm f => gridDst f.od
  | .vabs f | .vneg f | .vcpy f | .vrmax f | .vrmin f => gridDst f.od
  | .vrcp f | .vrsq f | .vexp2 f | .vlog2 f | .vsqrt f | .vsum f => gridDst f.od
  | .viadd f | .visub f | .vimul f => gridDst f.od
  | .vcvt f => gridDst f.od | .vqnt f => gridDst f.od | .vdq f => gridDst f.od
  | .vrot f | .vbcast f => gridDst f.od | .vsel f => gridDst f.od
  | .vldi _ _ _ => true
  | _ => false

/-- The grid-row orderings of R18 hold an entry back (R17): a tensor instruction that reads the grid follows every execute
instruction dispatched before it, and an execute instruction that writes a row follows the tensor instructions dispatched before
it that read the grid. -/
def Ctx.gridHeld (c : Ctx) (u : Unit4) (e : Entry) : Bool :=
  match u with
  | .t => readsGrid e.instr && c.bufE.any fun x => decide (x.id < e.id)
  | .e => writesGrid e.instr && c.bufT.any fun x => readsGrid x.instr && decide (x.id < e.id)
  | _ => false

/-- An instruction that spends ballast tokens (R144, R342). -/
def spends : Instr → Bool
  | .mma _ | .tell _ => true
  | _ => false

/-- The streams of a cell with a row ready, in rotation after the one whose row moved last (R80). A row is the access unit's: its thread's
control core comes first (R328). -/
def State.rowTurn (s : State) (cell : Nat) : List (Nat × Stream) :=
  let l := ((List.range 4).map (cell * 4 + ·)).flatMap fun src =>
    let c := s.ctx src
    if !c.streams.isEmpty && s.accessTurn src then (c.streams.filter (c.rowReady s.keel)).map fun t => (src, t) else []
  let last := (s.cell cell).rowLast
  let past (p : Nat × Stream) : Bool := last.1 < p.1 || (last.1 = p.1 && last.2 < p.2.ent.id)
  l.filter past ++ l.filter fun p => !(past p)

/-- Rows of a cell's streams that may move now: the first in the rotation that moves in this cycle (R88, R136), and the rows of load
streams before it; when another row of a load lands is free. -/
def State.rowMoves (s : State) (cell : Nat) : List (Nat × Stream) :=
  if s.keel < (s.cell cell).rowAt then []
  else
    let l := s.rowTurn cell
    (l.takeWhile fun p => !(s.rowDue p.1 p.2)).filter (fun p => !p.2.q.store) ++ (l.find? fun p => s.rowDue p.1 p.2).toList

def rowEvent (p : Nat × Stream) : Ev :=
  (if p.2.q.store then .storeStreamRow else .loadStreamRow, { a := p.1, b := p.2.ent.id })

/-- A stream of a cell has a row to move in this cycle, and no other row has taken the row cycle: the Keel waits (R88, R136). -/
def State.rowOwed (s : State) (cell : Nat) : Bool := (s.rowMoves cell).any fun p => s.rowDue p.1 p.2

/-- A thread's access unit has a row to move in this cycle: it comes before the execute and tensor units (R328). -/
def State.rowFirst (s : State) (src : Nat) : Bool := (s.rowMoves (cellOf src)).any fun p => p.1 = src && s.rowDue p.1 p.2

/-- The publishing event that the head of a thread's access buffer waits for can take effect (R168). -/
def State.headPublishes (s : State) (src : Nat) : Bool :=
  match (s.ctx src).bufA.head?, (s.ctx src).pubWait.2 with
  | some e, some sc => ({ s with iss := { src := src, id := e.id } } : State).mayBound sc
  | _, _ => false

/-- The oldest entry of a thread's buffer may be tried now (R16, R17), or once more for its publishing event; the tiers of a column ask
in their order (R355). -/
def State.mayTry (s : State) (u : Unit4) (src : Nat) : Bool :=
  let x := s.ctx src
  s.unitRuns src && x.causeAt ≠ s.keel + 1 && (getTried x.tried u ≠ s.keel + 1 || (u = .a && s.headPublishes src)) &&
  !(s.pastUnit src u) && match x.buf u with
    | [] => false
    | e :: _ => decide (e.at_ ≤ s.keel) && e.lateAt = 0 && !(x.gridHeld u e) &&
        !(u = .t && spends e.instr && s.tierPast (cellOf src)) && !((u = .e || u = .t) && s.rowFirst src)

/-- The thread whose oldest entry a unit tries next (R17). -/
def State.pickU (s : State) (cell : Nat) (u : Unit4) : Option Nat :=
  let c := s.cell cell
  if getTried c.last u = s.keel + 1 then none
  else ((slotsAfter (getTried c.rr u)).map (cell * 4 + ·)).find? (s.mayTry u)

/-- The cells that hold a context in use. -/
def State.busyCells (s : State) : List Nat :=
  ((s.ctxs.filter fun c => c.2.status ≠ .free).map fun c => cellOf c.1).eraseDups

/-- What the control cores still owe in this nanosecond: at most one issue each (R14), and the attempts of instructions that
wait. -/
def State.issues (s : State) : List Move :=
  s.busyCells.filterMap (fun cell => (s.pick cell).map Move.issue) ++ s.retries.map Move.retry

/-- Issues of the access, execute and tensor units that may happen now or later, at most one per cell and unit in a nanosecond:
how long an entry stands in its buffer is free (R16, R17; log 41). A thread's control core comes first (R328). -/
def State.unitMoves (s : State) : List Move :=
  s.busyCells.flatMap fun cell =>
    [Unit4.a, Unit4.e, Unit4.t].filterMap fun u => match s.pickU cell u with
      | some src => if s.coreFirst src then none else some (Move.unit src u)
      | none => none

-- Events whose time the device chooses.

/-- The units of a thread: grants for rows of streams, loads and renewals. -/
def State.unitEvents (s : State) (src : Nat) : List Ev :=
  let c := s.ctx src
  let grants := if !c.streams.isEmpty && s.accessTurn src then c.streams.filterMap fun t => match t.at_ with
      | .handle _ => if c.rowReady s.keel t then some (Instr.streamRowGrant, ({ a := src, b := t.ent.id } : EvArg)) else none
      | _ => none
    else []
  let loads := (c.loads.filter fun l => !l.late && s.mayLand src l).map fun l => (.memoryLoadLands, ({ a := src, b := l.ent.id } : EvArg))
  let answers := ((List.range 16).filter fun i => (c.teth (BitVec.ofNat 4 i)).rpend).map fun i => (.renewalAnswer, ({ a := src, b := i } : EvArg))
  grants ++ loads ++ answers

/-- The instruction at the control core waits for something that has an event of its own. -/
def State.waitEvents (s : State) (src : Nat) : List Ev :=
  match (s.ctx src).wait with
  | some w =>
    match w.kind with
    | 1 => [(.flagwWake, { a := src })]
    | 3 => if w.deadline.any (· ≤ s.keel) then [(.promiseTimeReached, { a := src })] else []
    | 5 => [(.mopenwWake, { a := src })]
    | 6 => [(.arrivalDelivery, { a := src })]
    | 8 => [(.publishTakesEffect, { a := src })]
    | _ => []
  | none => if (s.ctx src).cur.isSome then [(.handlerEnd, { a := src })] else []

/-- Tiles in links (R189). -/
def State.tileEvents (s : State) : List Ev :=
  s.strs.flatMap fun r => if !r.frozen.isEmpty then [] else r.pos.zipIdx.flatMap fun p =>
    if (Sys2Proof.Machine.freeSlot r.hdr.ni (p.1.box.map (·.slot))).isNone then []
    else (if p.1.linkDown.isEmpty then [] else [(Instr.tileIntoInbox, ({ a := r.part * 256 + r.id, b := p.2 } : EvArg))]) ++
      (if p.1.linkUp.isEmpty then [] else [(Instr.tileIntoInbox, ({ a := r.part * 256 + r.id, b := p.2, flg := true } : EvArg))])

/-- Memory and barriers (R174, R179, R168). -/
def State.memoryEvents (s : State) : List Ev :=
  ((s.vers.filter fun v => (!v.done || v.away) && !v.lost).map fun v => (Instr.memoryStorePerformed, ({ a := v.src, b := v.seq } : EvArg))) ++
  ((s.vers.filter s.mergeable).map fun v => (Instr.publishEntryMerge, ({ a := v.seq } : EvArg))) ++
  ((s.teams.filter s.episodeReady).map fun t => (Instr.barrierRelease, ({ a := t.part, b := t.id } : EvArg)))

/-- Copy engines (R301 to R313). -/
def State.chanEvents (s : State) (ch : Nat) : List Ev :=
  let a : EvArg := { a := ch }
  (if s.mayTake ch then [(.copyPacketTake, a)] else []) ++
  (match (s.chan ch).cur with
    | some x => if !(s.chanRuns ch) then []
      else if x.isOver then [(.copyTransferComplete, a)] else if s.skew then [] else [(.copyPacketStep, a)]
    | none => [])

/-- A node of the pool is over and its completion has not taken effect (R222). -/
def State.nodeOver (s : State) (nid : Nat) (n : Node) : Bool :=
  (n.state = 2 || n.state = 3) && match n.rec_.kind with
    | 3 => n.xfer.any fun x => (s.chan x.1).isDone x.2
    | 4 => !((s.relay n.rec_.target).active && (s.relay n.rec_.target).node = some nid)
    | _ => s.threadsOver n || (n.state = 2 && s.nodeSignalled n)

/-- The ready pool (R218 to R223). -/
def State.poolEvents (s : State) : List Ev :=
  ((s.queues.filter fun q => q.2.hand.isSome).map fun q => (Instr.launchAdmit, ({ a := q.1 } : EvArg))) ++
  (s.partIds.filterMap fun p => (s.nextNode p).map fun n => (Instr.nodeDispatch, ({ a := n.1 + n.2.idx } : EvArg))) ++
  (s.launches.flatMap fun l => (l.nodes.filter fun n => s.nodeOver (l.id + n.idx) n).map fun n =>
    (Instr.nodeCompletion, ({ a := l.id + n.idx } : EvArg)))

/-- Relay engines, leaf ports, the assist, windows, the mapper and save slots. -/
def State.deviceEvents (s : State) : List Ev :=
  ((s.relays.filter fun r => (s.relayTry r.1).isSome).map fun r => (Instr.relayStep, ({ a := r.1 } : EvArg))) ++
  ((s.lports.filter fun l => l.2.lstat = 1).map fun l => (Instr.leafUpdateCommit, ({ a := l.1 } : EvArg))) ++
  (s.partIds.filterMap fun p => (s.part p).assist.bind fun a => (s.assistStep p a).map fun _ => (Instr.migrationAssist, ({ a := p } : EvArg))) ++
  ((s.windows.filter fun w => (s.renewWindow w.1).isSome && if s.keel < w.2.exp then w.2.aging s.keel
      else s.ports.any fun p => p.2.inq.head?.any fun f => f.1 = w.1).map fun w => (Instr.windowLeaseRenewal, ({ a := w.1 } : EvArg))) ++
  ((s.queues.map (·.1)).filterMap fun q => (s.mapperEvent q).map fun i => (i, ({ a := q } : EvArg))) ++
  (s.partIds.flatMap fun p =>
    (if (s.part p).pres.any fun x => x.mode = 0 then [(Instr.preemptionStop, ({ a := p } : EvArg))] else []) ++
    (if (s.part p).pres.any fun x => x.stopped then [(Instr.smallStateExchange, ({ a := p } : EvArg))] else [])) ++
  ((s.slots.filter fun k => !k.written && !k.members.isEmpty).map fun k => (Instr.saveAreaWriteback, ({ a := k.part, b := k.slot } : EvArg))) ++
  (s.cells.flatMap fun c => c.2.reload.map fun e => (Instr.lazyRegionReload, ({ a := c.1, b := e.1 } : EvArg)))

/-- Events that may happen now or later. -/
def State.events (s : State) : List Ev :=
  (s.srcs.flatMap fun src => s.unitEvents src ++ s.waitEvents src) ++
  (s.busyCells.flatMap fun cell => (s.rowMoves cell).map rowEvent) ++ s.tileEvents ++ s.memoryEvents ++
  ((s.chans.map (·.1)).flatMap s.chanEvents) ++ s.poolEvents ++ s.deviceEvents

/-- An atomic of a cell whose publishing can take effect, and the access unit has not issued in this nanosecond (R168). -/
def State.publishOwed (s : State) (cell : Nat) : Bool :=
  (s.pickU cell .a).isSome && (List.range 4).any fun i => s.headPublishes (cell * 4 + i) && s.mayTry .a (cell * 4 + i)

/-- This nanosecond still owes an issue, an attempt, a row or a publishing atomic (R14, R88, R136, R168): the Keel does not advance. -/
def State.owing (s : State) : Bool := !s.issues.isEmpty || s.busyCells.any fun c => s.rowOwed c || s.publishOwed c

/-- What may happen next. -/
def State.moves (s : State) : List Move :=
  let e := s.issues ++ s.unitMoves ++ s.events.map fun p => Move.event p.1 p.2
  if s.owing then e else Move.tick :: e

/-- The step taken: the only one, or one of several by the free schedule. -/
def State.choose (s : State) : Move × State :=
  match s.moves with
  | [] => (.tick, s)
  | [m] => (m, s)
  | m :: ms => (((m :: ms)[Config.schedule s.choices % (ms.length + 1)]?).getD m, { s with choices := s.choices + 1 })

end Sys2Proof.Machine
end

