-- ==== Sys2Proof/Machine/Step.lean ====
section
/-! DEFINITION. One step of the device: an input that has arrived, else an event due now, else a step the device takes by
itself (log 10). -/

namespace Sys2Proof.Machine

/-- Go on from a next state. -/
def andThen (o : Host.Outcome State Fault Refusal) (f : State → State) : Host.Outcome State Fault Refusal :=
  match o with
  | .next s => .next (f s)
  | .fault r => .fault r
  | .refused r => .refused r

/-- Run an event with its operands. -/
def runEvent (s : State) (i : Instr) (a : EvArg) : Host.Outcome State Fault Refusal :=
  exec i { s with arg := a, iss := {} }

/-- The oldest entry of a thread's buffer issues on its unit (R17). -/
def unitStep (s : State) (src : Nat) (u : Unit4) : Host.Outcome State Fault Refusal :=
  match (s.ctx src).buf u with
  | [] => .next s
  | e :: _ =>
    if s.inMma src e then runEvent s .kStep { a := src }
    else andThen (exec e.instr (s.beginU src u e)) fun t => t.finishU u

/-- The state in which a thread has met a fatal cause. -/
def frozenBy (src : Nat) : Host.Outcome State Fault Refusal → Option State
  | .next t => if (t.ctx src).status = .frozen then some t else none
  | _ => none

/-- What another part of the thread finds in this nanosecond is fatal (R328): a load that is due or a row for the access unit, or an entry
of a later unit. It answers whether that must happen in this nanosecond. -/
def fatalBeside (s : State) (src : Nat) (u : Unit4) : Option (Bool × State) :=
  let s := if u = .c then (s.issued src).modCtx src fun c => { c with tried := (s.keel + 1, c.tried.2) } else s
  let at_ (must : Bool) (e : Ev) : Option (Bool × State) := (frozenBy src (runEvent s e.1 e.2)).map (must, ·)
  let loads : List Ev := if u = .c then
      ((s.ctx src).loads.filter fun l => (l.poison || l.late) && decide (l.due ≤ s.keel) && s.mayLand src l).map
        (fun l => (Instr.memoryLoadLands, ({ a := src, b := l.ent.id } : EvArg))) ++ (s.dueLate src).toList
    else []
  let rows := if u.rank < 2 then s.rowMoves (cellOf src) else []
  (loads.findSome? (at_ true)).orElse fun _ =>
    (rows.findSome? fun p => if p.1 = src then at_ (rows.length = 1 && s.rowDue p.1 p.2) (rowEvent p) else none).orElse fun _ =>
      [Unit4.a, Unit4.e, Unit4.t].findSome? fun v =>
        if u.rank < v.rank && s.pickU (cellOf src) v = some src then (frozenBy src (unitStep s src v)).map (false, ·) else none

/-- The thread has entered a trap or unwound a region. -/
def entered (s t : State) (src : Nat) : Bool :=
  (t.ctx src).status ≠ .frozen &&
    (((t.ctx src).tstate.getLsbD 0 && !((s.ctx src).tstate.getLsbD 0)) || (t.ctx src).unwinds ≠ (s.ctx src).unwinds)

/-- One cause is taken of those that a thread's units find in one nanosecond, a fatal one before every other (R328). Whether a later
unit issues in this nanosecond is free (log 41). -/
def oneCause (s : State) (src : Nat) (u : Unit4) (o : Host.Outcome State Fault Refusal) : Host.Outcome State Fault Refusal :=
  match o with
  | .next t =>
    match (if entered s t src then fatalBeside s src u else none) with
    | some (must, t') => .next (if must || Config.schedule s.choices % 2 = 1 then { t' with choices := t'.choices + 1 } else t)
    | none => .next t
  | o => o

/-- An event: a load that lands and a row are work of a thread's access unit (R328). -/
def causeStep (s : State) (i : Instr) (a : EvArg) : Host.Outcome State Fault Refusal :=
  match i with
  | .memoryLoadLands | .loadStreamRow | .storeStreamRow | .streamRowGrant => oneCause s a.a .a (runEvent s i a)
  | _ => runEvent s i a

/-- The thread has met a cause. -/
def caused (s : State) (src : Nat) (o : Host.Outcome State Fault Refusal) : Bool :=
  match o with
  | .next t => entered s t src || (t.ctx src).status = .frozen
  | _ => false

/-- An entry has been dispatched to an empty buffer, and nothing else is to happen in this nanosecond: it issues on its unit in
the next (R16), where it is that unit's turn (R17). Where it would find a cause and the control core issues in that nanosecond too, the
control core comes first (R328). -/
def unitNext (s : State) (src : Nat) (u : Unit4) : Host.Outcome State Fault Refusal :=
  let t := s.tick
  if ((s.ctx src).buf u).length = 1 && !s.owing && s.duty.isNone && s.agenda.isEmpty && t.duty.isNone &&
      t.agenda.isEmpty && t.pickU (cellOf src) u = some src && !(t.coreFirst src && caused t src (unitStep t src u)) then
    oneCause t src u (unitStep t src u)
  else .next s

/-- The next word of a thread issues at the control core. An entry dispatched to an empty buffer goes on to its unit in the same
step of the model, or waits there where `lags` says so (log 41). -/
def issueStep (s : State) (src : Nat) : Host.Outcome State Fault Refusal :=
  let pc := (s.ctx src).pc
  match s.ready src with
  | .fetchMiss => runEvent s .instructionFetch { a := src }
  | .brk n => runEvent s .breakpointMatch { a := src, b := n }
  | .fault t => .next (t.issued src)
  | .wait => .next (s.modCtx src fun c => { c with tried := (s.keel + 1, c.tried.2) })
  | .skip t => .next (t.finishC .nop pc)
  | .run i t => andThen (exec i t) fun t' => t'.finishC i pc
  | .send i u t =>
    let t' := (({ t with lags := t.lags.tail } : State).dispatch i u).finishC i pc
    if t.lags.head?.getD false then .next t' else unitNext t' src u

/-- The instruction that waits at a thread's control core is tried again. -/
def retryStep (s : State) (src : Nat) : Host.Outcome State Fault Refusal :=
  match s.goOn src with
  | some (i, t) => andThen (exec i t) fun t' => t'.finishC i (s.ctx src).pc
  | none => .next (s.modCtx src fun c => { c with busy := none })

def step (s : State) : Host.Outcome State Fault Refusal :=
  match s.dueQueue, s.agenda with
  | some (i, a), _ => runEvent s i a
  | none, (i, a) :: rest => runEvent { s with agenda := rest } i a
  | none, [] =>
    if s.fw.recovery then .fault .inRecovery
    else match s.duty with
      | some (i, a) => causeStep s i a
      | none =>
        match s.choose with
        | (.tick, t) => .next t.tick
        | (.issue src, t) => oneCause t src .c (issueStep t src)
        | (.retry src, t) => oneCause t src .c (retryStep t src)
        | (.unit src u, t) => oneCause t src u (unitStep t src u)
        | (.event i a, t) => causeStep t i a

/-- The instruction of `nbits` bits placed where context 0 fetches its next word, and all that lets it run there now: the
context running and the page of its PC leased for execution. -/
def State.withFetchWord (s : State) (nbits w : Nat) : State :=
  let c := s.ctx 0
  let pc := c.pc.toNat
  let page := pc / 65536 * 65536
  let bs := leBytes 8 (w % 2 ^ nbits)
  let at_ (i : Nat) : Bool := decide (pc % 65536 ≤ i) && decide (i < pc % 65536 + 8)
  { s with
    agenda := [], lags := []
    ctxs := tput s.ctxs 0 { c with
      status := .run, pfx := none, busy := none, wait := none, bufA := [], bufE := [], bufT := [], streams := [], loads := []
      tried := (0, 0, 0, 0), bpSkip := true, hzn := ⟨s.keel, 0⟩, pubWait := (none, none), lateAt := 0, causeAt := 0 }
    cells := tput s.cells 0 { s.cell 0 with
      last := (0, 0, 0, 0)
      leases := [{ va := page, sz := 0, pbase := 0, gen := 0, w := true, x := true, lc := 0, ord := false, cnt := false,
                   exp := s.keel + 1048576, leaf := 0 }] }
    mem := mwrites s.mem (pc % 65536) bs
    psnMem := s.psnMem.filter fun g => !(at_ (32 * g) || at_ (32 * g + 31))
    vers := s.vers.filter fun v => !(v.cells.any fun e => at_ e.1) }

end Sys2Proof.Machine
end

