-- ==== Sys2Proof/Laws/Encode.lean ====
section
/-! SUPPORT. Laws of the encodings: fields of concatenated bits, each operand form read back from its field, and each format of
03 R32 read back from its packing. -/

set_option linter.unusedSimpArgs false

namespace Sys2Proof

set_option Elab.async false

-- Fields of concatenated bits.

theorem extract_hi {a b : Nat} (x : BitVec a) (y : BitVec b) (k n : Nat) (h : b ≤ k) :
    (x ++ y).extractLsb' k n = x.extractLsb' (k - b) n := by
  apply BitVec.eq_of_getLsbD_eq
  intro i hi
  simp only [BitVec.getLsbD_extractLsb', BitVec.getLsbD_append, hi, decide_true, Bool.true_and]
  rw [if_neg (by omega), show k + i - b = k - b + i by omega]

theorem extract_lo {a b : Nat} (x : BitVec a) (y : BitVec b) (k n : Nat) (h : k + n ≤ b) :
    (x ++ y).extractLsb' k n = y.extractLsb' k n := by
  apply BitVec.eq_of_getLsbD_eq
  intro i hi
  simp only [BitVec.getLsbD_extractLsb', BitVec.getLsbD_append, hi, decide_true, Bool.true_and]
  rw [if_pos (by omega)]

theorem flag_hi {a b : Nat} (x : BitVec a) (y : BitVec b) (k : Nat) (h : b ≤ k) : flag (x ++ y) k = flag x (k - b) := by
  simp only [flag, BitVec.getLsbD_append]; rw [if_neg (by omega)]

theorem flag_lo {a b : Nat} (x : BitVec a) (y : BitVec b) (k : Nat) (h : k < b) : flag (x ++ y) k = flag y k := by
  simp only [flag, BitVec.getLsbD_append]; rw [if_pos h]

@[simp] theorem extract_all {a : Nat} (x : BitVec a) : x.extractLsb' 0 a = x := by
  apply BitVec.eq_of_getLsbD_eq; intro i hi; simp [hi]

@[simp] theorem flag_bit (b : Bool) : flag (bit b) 0 = b := by cases b <;> rfl

-- Codes.

@[simp] theorem Scope.ofCode_code (s : Scope) : Scope.ofCode s.code = some s := by cases s <;> rfl
@[simp] theorem ETy.ofCode_code (t : ETy) : ETy.ofCode t.code = t := by cases t <;> rfl
@[simp] theorem MFmt.ofCode_code (t : MFmt) : MFmt.ofCode t.code = some t := by cases t <;> rfl
@[simp] theorem RM.ofCode_code (r : RM) : RM.ofCode r.code = r := by cases r <;> rfl
@[simp] theorem Intent.ofCode_code (t : Intent) : Intent.ofCode t.code = some t := by cases t <;> rfl
@[simp] theorem FlagCond.ofCode_code (t : FlagCond) : FlagCond.ofCode t.code = some t := by cases t <;> rfl
@[simp] theorem WinSel.ofCode_code (t : WinSel) : WinSel.ofCode t.code = some t := by cases t <;> rfl
@[simp] theorem HMode.ofCode_code (t : HMode) : HMode.ofCode t.code = some t := by cases t <;> rfl
@[simp] theorem amoSize_sizeCode (w : Bool) : amoSize (sizeCode w) = some w := by cases w <;> rfl

@[simp] theorem orBad_some {α : Type} (e : Illegal) (x : α) : orBad e (some x) = .ok x := rfl

theorem check_wf (e : Illegal) (i : Instr) (h : i.wf = true) : check e i = .ok i := by simp [check, h]

-- Operand forms.

theorem topBits (c : BitVec 2) (i : Reg) : (c ++ i).extractLsb' 6 2 = c ∧ (c ++ i).extractLsb' 0 6 = i := by
  constructor
  · rw [extract_hi _ _ _ _ (by omega)]; simp
  · rw [extract_lo _ _ _ _ (by omega)]; simp

@[simp] theorem Src.ofField_field (x : Src) : Src.ofField x.field = x := by
  cases x with
  | row i => simp [Src.field, Src.ofField, topBits]
  | col i => simp [Src.field, Src.ofField, topBits]
  | diag i => simp [Src.field, Src.ofField, topBits]
  | queue q k p => revert q k p; decide
  | bcast r => revert r; decide

@[simp] theorem Dst.ofField_field (x : Dst) : Dst.ofField x.field = some x := by
  cases x with
  | row i => simp [Dst.field, Dst.ofField, topBits]
  | col i => simp [Dst.field, Dst.ofField, topBits]
  | diag i => simp [Dst.field, Dst.ofField, topBits]
  | queue q => revert q; decide

@[simp] theorem Opnd.ofField_field (x : Opnd) : Opnd.ofField x.hold x.field = x := by
  cases x <;> simp [Opnd.hold, Opnd.field, Opnd.ofField]

theorem Count.ofFields_fields {n : Nat} (c : Count n) (h : c.wf = true) : Count.ofFields c.regField c.immField = c := by
  cases c with
  | reg r => simp [Count.wf] at h; simp [Count.ofFields, Count.regField, h]
  | imm c => simp [Count.ofFields, Count.regField, Count.immField]

-- Words.

theorem opcodeOf_word (op : BitVec 8) (g : Guard) (b : BitVec 52) : opcodeOf (op ++ bit g.pn ++ g.pr ++ b) = op := by
  simp (disch := omega) only [opcodeOf, extract_hi, extract_lo, flag_hi, flag_lo]; simp

theorem bodyOf_word (op : BitVec 8) (g : Guard) (b : BitVec 52) : bodyOf (op ++ bit g.pn ++ g.pr ++ b) = b := by
  simp (disch := omega) only [bodyOf, extract_hi, extract_lo, flag_hi, flag_lo]; simp

/-- The guard of an encoded word is the one it was encoded with. -/
theorem guardOf_word (op : BitVec 8) (g : Guard) (b : BitVec 52) : guardOf (op ++ bit g.pn ++ g.pr ++ b) = g := by
  obtain ⟨pn, pr⟩ := g
  simp (disch := omega) only [guardOf, extract_hi, extract_lo, flag_hi, flag_lo]; simp

/-- What an encoded word decodes to is what its body decodes to. -/
theorem decode_encode_of {i : Instr} {p : BitVec 8 × BitVec 52} (h : encodeBody i = some p) (hd : decodeBody p.1 p.2 = .ok i)
    (g : Guard) (w : Word) (hw : encode g i = some w) : decode w = .ok i := by
  simp only [encode, h, Option.map_some, Option.some.injEq] at hw
  subst hw
  rw [decode, opcodeOf_word, bodyOf_word, hd]

-- Formats.

section F0
variable (d a b c : Reg) (fn : BitVec 8) (lo : BitVec 20)
@[simp] theorem fD_packF0 : fD (packF0 d a b c fn lo) = d := by simp (disch := omega) only [fD, packF0, extract_hi, extract_lo, flag_hi, flag_lo]; simp
@[simp] theorem fA_packF0 : fA (packF0 d a b c fn lo) = a := by simp (disch := omega) only [fA, packF0, extract_hi, extract_lo, flag_hi, flag_lo]; simp
@[simp] theorem fB_packF0 : fB (packF0 d a b c fn lo) = b := by simp (disch := omega) only [fB, packF0, extract_hi, extract_lo, flag_hi, flag_lo]; simp
@[simp] theorem fC_packF0 : fC (packF0 d a b c fn lo) = c := by simp (disch := omega) only [fC, packF0, extract_hi, extract_lo, flag_hi, flag_lo]; simp
@[simp] theorem fFn0_packF0 : fFn0 (packF0 d a b c fn lo) = fn := by simp (disch := omega) only [fFn0, packF0, extract_hi, extract_lo, flag_hi, flag_lo]; simp
@[simp] theorem fImm20_packF0 : fImm20 (packF0 d a b c fn lo) = lo := by simp (disch := omega) only [fImm20, packF0, extract_hi, extract_lo, flag_hi, flag_lo]; simp
@[simp] theorem fLow_packF0 (n : Nat) (h : n ≤ 20) : fLow (packF0 d a b c fn lo) n = lo.extractLsb' 0 n := by
  simp (disch := omega) only [fLow, packF0, extract_hi, extract_lo, flag_hi, flag_lo]
end F0

section F1
variable (d a : Reg) (fn : BitVec 8) (i : W32)
@[simp] theorem fD_packF1 : fD (packF1 d a fn i) = d := by simp (disch := omega) only [fD, packF1, extract_hi, extract_lo, flag_hi, flag_lo]; simp
@[simp] theorem fA_packF1 : fA (packF1 d a fn i) = a := by simp (disch := omega) only [fA, packF1, extract_hi, extract_lo, flag_hi, flag_lo]; simp
@[simp] theorem fFn1_packF1 : fFn1 (packF1 d a fn i) = fn := by simp (disch := omega) only [fFn1, packF1, extract_hi, extract_lo, flag_hi, flag_lo]; simp
@[simp] theorem fImm32_packF1 : fImm32 (packF1 d a fn i) = i := by simp (disch := omega) only [fImm32, packF1, extract_hi, extract_lo, flag_hi, flag_lo]; simp
end F1

section F3
variable (d : Reg) (th : BitVec 4) (x : Reg) (sc sz : BitVec 2) (disp : BitVec 24) (fn : BitVec 8)
/-- F3 read back, field by field. -/
@[simp] theorem fields_packF3 :
    (packF3 d th x sc sz disp fn).extractLsb' 46 6 = d ∧ (packF3 d th x sc sz disp fn).extractLsb' 42 4 = th ∧
    (packF3 d th x sc sz disp fn).extractLsb' 36 6 = x ∧ (packF3 d th x sc sz disp fn).extractLsb' 34 2 = sc ∧
    (packF3 d th x sc sz disp fn).extractLsb' 32 2 = sz ∧ (packF3 d th x sc sz disp fn).extractLsb' 8 24 = disp ∧
    (packF3 d th x sc sz disp fn).extractLsb' 0 8 = fn ∧ flag (packF3 d th x sc sz disp fn) 0 = flag fn 0 := by
  refine ⟨?_, ?_, ?_, ?_, ?_, ?_, ?_, ?_⟩ <;> simp (disch := omega) only [packF3, extract_hi, extract_lo, flag_lo] <;> simp
end F3

section F4
variable (a : Reg) (th : BitVec 4) (n s : Reg) (q : BitVec 2) (es : BitVec 4) (fn : BitVec 8) (i : BitVec 16)
/-- F4 read back, field by field. -/
@[simp] theorem fields_packF4 :
    (packF4 a th n s q es fn i).extractLsb' 46 6 = a ∧ (packF4 a th n s q es fn i).extractLsb' 42 4 = th ∧
    (packF4 a th n s q es fn i).extractLsb' 36 6 = n ∧ (packF4 a th n s q es fn i).extractLsb' 30 6 = s ∧
    (packF4 a th n s q es fn i).extractLsb' 28 2 = q ∧ (packF4 a th n s q es fn i).extractLsb' 24 4 = es ∧
    (packF4 a th n s q es fn i).extractLsb' 16 8 = fn ∧ (packF4 a th n s q es fn i).extractLsb' 0 16 = i := by
  refine ⟨?_, ?_, ?_, ?_, ?_, ?_, ?_, ?_⟩ <;> simp (disch := omega) only [packF4, extract_hi, extract_lo] <;> simp
end F4

section F6
variable (acc : BitVec 2) (ad : Reg) (asrc : BitVec 2) (aT : Bool) (bd : Reg) (bsrc : BitVec 2) (bT : Bool)
  (af bf : BitVec 4) (ks : BitVec 8) (pd : BitVec 3) (ck z pf : Bool) (fn : BitVec 8)
/-- F6 read back, field by field. -/
@[simp] theorem fields_packF6 :
    let w := packF6 acc ad asrc aT bd bsrc bT af bf ks pd ck z pf fn
    w.extractLsb' 50 2 = acc ∧ w.extractLsb' 44 6 = ad ∧ w.extractLsb' 42 2 = asrc ∧ flag w 41 = aT ∧
    w.extractLsb' 35 6 = bd ∧ w.extractLsb' 33 2 = bsrc ∧ flag w 32 = bT ∧ w.extractLsb' 28 4 = af ∧
    w.extractLsb' 24 4 = bf ∧ w.extractLsb' 16 8 = ks ∧ w.extractLsb' 13 3 = pd ∧ flag w 12 = ck ∧ flag w 11 = z ∧
    flag w 10 = pf ∧ w.extractLsb' 0 8 = fn := by
  intro w
  refine ⟨?_, ?_, ?_, ?_, ?_, ?_, ?_, ?_, ?_, ?_, ?_, ?_, ?_, ?_, ?_⟩ <;>
    simp (disch := omega) only [w, packF6, extract_hi, extract_lo, flag_hi, flag_lo] <;> simp
end F6

/-- F5 read back. -/
@[simp] theorem F5.of_packF5 (od oa ob : BitVec 8) (ty : BitVec 4) (fn : BitVec 8) (rm : BitVec 2) (sat ha hb : Bool)
    (i : BitVec 8) : F5.of (packF5 od oa ob ty fn rm sat ha hb i) = ⟨od, oa, ob, ETy.ofCode ty, fn, RM.ofCode rm, sat, ha, hb, i⟩ := by
  unfold F5.of packF5
  congr 1
  case e_ty => congr 1; simp (disch := omega) only [extract_hi, extract_lo]; simp
  case e_rm => congr 1; simp (disch := omega) only [extract_hi, extract_lo]; simp
  all_goals (simp (disch := omega) only [extract_hi, extract_lo, flag_hi, flag_lo]; try simp)

-- Small fields.

@[simp] theorem low3_reg3 (p : BitVec 3) : low3 (reg3 p) = p := by simp (disch := omega) only [low3, reg3, extract_hi, extract_lo, flag_hi, flag_lo]; simp
@[simp] theorem low2_reg2 (n : BitVec 2) : (reg2 n).extractLsb' 0 2 = n := by simp (disch := omega) only [reg2, extract_hi, extract_lo, flag_hi, flag_lo]; simp
@[simp] theorem low4_reg4 (n : BitVec 4) : (reg4 n).extractLsb' 0 4 = n := by simp (disch := omega) only [reg4, extract_hi, extract_lo, flag_hi, flag_lo]; simp
@[simp] theorem low6_imm6 (n : BitVec 6) : (imm6 n).extractLsb' 0 6 = n := by simp (disch := omega) only [imm6, extract_hi, extract_lo, flag_hi, flag_lo]; simp
@[simp] theorem handleField_reg4 (h : BitVec 4) : handleField (reg4 h) = some h := by
  revert h; decide

-- Immediates.

@[simp] theorem imm_lo_18_2 (x : BitVec 18) (y : BitVec 2) : (x ++ y).extractLsb' 0 2 = y := by
  simp (disch := omega) only [extract_lo]; simp
@[simp] theorem imm_lo_16_4 (x : BitVec 16) (y : BitVec 4) : (x ++ y).extractLsb' 0 4 = y := by
  simp (disch := omega) only [extract_lo]; simp
@[simp] theorem imm_lo_12_8 (x : BitVec 12) (y : BitVec 8) : (x ++ y).extractLsb' 0 8 = y := by
  simp (disch := omega) only [extract_lo]; simp
@[simp] theorem imm_lo_17_3 (x : BitVec 17) (y : BitVec 3) : (x ++ y).extractLsb' 0 3 = y := by
  simp (disch := omega) only [extract_lo]; simp
@[simp] theorem imm_lo_10_10 (x : BitVec 10) (y : BitVec 10) : (x ++ y).extractLsb' 0 10 = y := by
  simp (disch := omega) only [extract_lo]; simp
@[simp] theorem imm_lo_8_12 (x : BitVec 8) (y : BitVec 12) : (x ++ y).extractLsb' 0 12 = y := by
  simp (disch := omega) only [extract_lo]; simp
@[simp] theorem imm_lo_4_16 (x : BitVec 4) (y : BitVec 16) : (x ++ y).extractLsb' 0 16 = y := by
  simp (disch := omega) only [extract_lo]; simp
@[simp] theorem imm_lo_5_3 (x : BitVec 5) (y : BitVec 3) : (x ++ y).extractLsb' 0 3 = y := by
  simp (disch := omega) only [extract_lo]; simp
@[simp] theorem imm_lo_4_4 (x : BitVec 4) (y : BitVec 4) : (x ++ y).extractLsb' 0 4 = y := by
  simp (disch := omega) only [extract_lo]; simp
@[simp] theorem imm_lo_49_3 (x : BitVec 49) (y : BitVec 3) : (x ++ y).extractLsb' 0 3 = y := by
  simp (disch := omega) only [extract_lo]; simp
@[simp] theorem imm_lo_2_4 (x : BitVec 2) (y : BitVec 4) : (x ++ y).extractLsb' 0 4 = y := by
  simp (disch := omega) only [extract_lo]; simp
@[simp] theorem imm_lo_3_3 (x : BitVec 3) (y : BitVec 3) : (x ++ y).extractLsb' 0 3 = y := by
  simp (disch := omega) only [extract_lo]; simp
@[simp] theorem imm_lo_1_3 (x : BitVec 1) (y : BitVec 3) : (x ++ y).extractLsb' 0 3 = y := by
  simp (disch := omega) only [extract_lo]; simp
@[simp] theorem imm_lo_20_32 (x : BitVec 20) (y : BitVec 32) : (x ++ y).extractLsb' 0 32 = y := by
  simp (disch := omega) only [extract_lo]; simp
@[simp] theorem imm_lo_6_2 (x : BitVec 6) (y : BitVec 2) : (x ++ y).extractLsb' 0 2 = y := by
  simp (disch := omega) only [extract_lo]; simp
@[simp] theorem imm_hi_18_2 (x : BitVec 18) (y : BitVec 2) : (x ++ y).extractLsb' 2 18 = x := by
  simp (disch := omega) only [extract_hi]; simp
@[simp] theorem imm_hi_16_4 (x : BitVec 16) (y : BitVec 4) : (x ++ y).extractLsb' 4 16 = x := by
  simp (disch := omega) only [extract_hi]; simp
@[simp] theorem imm_hi_4_2 (x : BitVec 4) (y : BitVec 2) : (x ++ y).extractLsb' 2 4 = x := by
  simp (disch := omega) only [extract_hi]; simp
@[simp] theorem imm3_14_2_4 (x : BitVec 14) (y : BitVec 2) (z : BitVec 4) :
    (x ++ y ++ z).extractLsb' 0 4 = z ∧ (x ++ y ++ z).extractLsb' 4 2 = y := by
  constructor <;> simp (disch := omega) only [extract_hi, extract_lo] <;> simp
@[simp] theorem imm3_8_4_8 (x : BitVec 8) (y : BitVec 4) (z : BitVec 8) :
    (x ++ y ++ z).extractLsb' 0 8 = z ∧ (x ++ y ++ z).extractLsb' 8 4 = y := by
  constructor <;> simp (disch := omega) only [extract_hi, extract_lo] <;> simp
@[simp] theorem imm3_8_6_6 (x : BitVec 8) (y : BitVec 6) (z : BitVec 6) :
    (x ++ y ++ z).extractLsb' 0 6 = z ∧ (x ++ y ++ z).extractLsb' 6 6 = y := by
  constructor <;> simp (disch := omega) only [extract_hi, extract_lo] <;> simp
@[simp] theorem imm3_1_3_4 (x : BitVec 1) (y : BitVec 3) (z : BitVec 4) :
    (x ++ y ++ z).extractLsb' 0 4 = z ∧ (x ++ y ++ z).extractLsb' 4 3 = y := by
  constructor <;> simp (disch := omega) only [extract_hi, extract_lo] <;> simp
@[simp] theorem imm4_12_2_2_4 (x : BitVec 12) (y z : BitVec 2) (t : BitVec 4) :
    (x ++ y ++ z ++ t).extractLsb' 0 4 = t ∧ (x ++ y ++ z ++ t).extractLsb' 4 2 = z ∧
    (x ++ y ++ z ++ t).extractLsb' 6 2 = y := by
  refine ⟨?_, ?_, ?_⟩ <;> simp (disch := omega) only [extract_hi, extract_lo] <;> simp
@[simp] theorem flag_19_1 (x : BitVec 19) (b : Bool) : flag (x ++ bit b) 0 = b := by
  simp (disch := omega) only [flag_lo]; simp
@[simp] theorem flag_7_1 (x : BitVec 7) (b : Bool) : flag (x ++ bit b) 0 = b := by
  simp (disch := omega) only [flag_lo]; simp
@[simp] theorem flag_1_3_4 (b : Bool) (y : BitVec 3) (z : BitVec 4) : flag (bit b ++ y ++ z) 7 = b := by
  simp (disch := omega) only [flag_hi]; simp
@[simp] theorem fields_lane (b : Bool) (m : BitVec 3) :
    (0#48 ++ bit b ++ m).extractLsb' 0 3 = m ∧ flag (0#48 ++ bit b ++ m) 3 = b := by
  constructor <;> simp (disch := omega) only [extract_hi, extract_lo, flag_hi, flag_lo] <;> simp
@[simp] theorem fields_lds (b : Bool) (z : BitVec 2) :
    (0#5 ++ bit b ++ z).extractLsb' 0 2 = z ∧ flag (0#5 ++ bit b ++ z) 2 = b ∧ (0#5 ++ bit b ++ z).toNat < 8 := by
  revert b z; decide
theorem small_sts (z : BitVec 2) : (0#6 ++ z).toNat < 4 := by revert z; decide
theorem small_es (z : BitVec 3) : (0#1 ++ z).toNat < 8 := by revert z; decide
theorem small_ty (z : BitVec 4) : (0#4 ++ z).toNat < 16 := by revert z; decide
@[simp] theorem fields_qImm (q : QSel) (n : BitVec 8) :
    flag (qImm q n) 2 = q.store ∧ (qImm q n).extractLsb' 0 2 = q.q ∧ (qImm q n).extractLsb' 8 8 = n := by
  refine ⟨?_, ?_, ?_⟩ <;> simp (disch := omega) only [qImm, extract_hi, extract_lo, flag_hi, flag_lo] <;> simp
/-- The publishing form of `STM` (R85). -/
@[simp] theorem fields_pub (s : Scope) :
    (0#4 ++ 1#1 ++ s.code ++ 0#1).extractLsb' 1 2 = s.code ∧ flag (0#4 ++ 1#1 ++ s.code ++ 0#1) 3 = true := by
  cases s <;> decide
/-- The fields of an atomic (R46). -/
theorem fields_amo (d a b c : Reg) (op : BitVec 4) (sz sc : BitVec 2) (th : BitVec 4) (pb sp : Bool) :
    let w : BitVec 52 := d ++ a ++ b ++ c ++ op ++ sz ++ sc ++ th ++ bit pb ++ bit sp ++ 0#14
    fD w = d ∧ fA w = a ∧ fB w = b ∧ fC w = c ∧ w.extractLsb' 24 4 = op ∧ w.extractLsb' 22 2 = sz ∧
    w.extractLsb' 20 2 = sc ∧ w.extractLsb' 16 4 = th ∧ flag w 15 = pb ∧ flag w 14 = sp := by
  intro w
  refine ⟨?_, ?_, ?_, ?_, ?_, ?_, ?_, ?_, ?_, ?_⟩ <;>
    simp (disch := omega) only [w, fD, fA, fB, fC, extract_hi, extract_lo, flag_hi, flag_lo] <;> simp
/-- The fields of IMM20 of `EPI` (R154). -/
@[simp] theorem fields_epi (f : EpiF) :
    f.imm20.extractLsb' 0 2 = f.acc ∧ f.imm20.extractLsb' 2 4 = f.ty.code ∧ f.imm20.extractLsb' 6 2 = f.dest.code ∧
    f.imm20.extractLsb' 8 2 = f.dest.qField ∧ f.imm20.extractLsb' 10 4 = f.act ∧ flag f.imm20 14 = f.deriv ∧
    flag f.imm20 15 = f.sat ∧ f.imm20.extractLsb' 16 2 = f.rm.code ∧ flag f.imm20 18 = f.rv ∧ flag f.imm20 19 = f.watch := by
  refine ⟨?_, ?_, ?_, ?_, ?_, ?_, ?_, ?_, ?_, ?_⟩ <;>
    simp (disch := omega) only [EpiF.imm20, extract_hi, extract_lo, flag_hi, flag_lo] <;> simp

end Sys2Proof
end

