-- ==== Sys2Proof/Laws/PerInstr.lean ====
section
/-! SUPPORT. For every constructor: the word the encoder writes decodes to the instruction under the guard it was written with
(the events have no word). -/

set_option linter.unusedSimpArgs false

namespace Sys2Proof.Laws.Encodes

set_option Elab.async false

/-- Encoding and decoding agree on an instruction. -/
def Statement (i : Instr) : Prop :=
  i.wf = true → ∀ (g : Guard) (w : Word), encode g i = some w → decode w = .ok i ∧ guardOf w = g

theorem of_body {i : Instr} {p : BitVec 8 × BitVec 52} (h : encodeBody i = some p)
    (hd : i.wf = true → decodeBody p.1 p.2 = .ok i) : Statement i := by
  intro hi g w hw
  refine ⟨decode_encode_of h (hd hi) g w hw, ?_⟩
  simp only [encode, h, Option.map_some, Option.some.injEq] at hw
  subst hw
  exact guardOf_word _ _ _

theorem of_none {i : Instr} (h : encodeBody i = none) : Statement i := by
  intro _ g w hw
  simp [encode, h] at hw

theorem nop : Statement (.nop) :=
  of_body rfl fun h => by simp [decodeBody, Bind.bind, Except.bind, -BitVec.extractLsb'_toNat]
theorem add (d a b : Reg) : Statement (.add d a b) :=
  of_body rfl fun h => by simp [decodeBody, decodeAlu, Bind.bind, Except.bind, -BitVec.extractLsb'_toNat]
theorem sub (d a b : Reg) : Statement (.sub d a b) :=
  of_body rfl fun h => by simp [decodeBody, decodeAlu, Bind.bind, Except.bind, -BitVec.extractLsb'_toNat]
theorem mul (d a b : Reg) : Statement (.mul d a b) :=
  of_body rfl fun h => by simp [decodeBody, decodeAlu, Bind.bind, Except.bind, -BitVec.extractLsb'_toNat]
theorem mulh (d a b : Reg) : Statement (.mulh d a b) :=
  of_body rfl fun h => by simp [decodeBody, decodeAlu, Bind.bind, Except.bind, -BitVec.extractLsb'_toNat]
theorem mulhu (d a b : Reg) : Statement (.mulhu d a b) :=
  of_body rfl fun h => by simp [decodeBody, decodeAlu, Bind.bind, Except.bind, -BitVec.extractLsb'_toNat]
theorem div (d a b : Reg) : Statement (.div d a b) :=
  of_body rfl fun h => by simp [decodeBody, decodeAlu, Bind.bind, Except.bind, -BitVec.extractLsb'_toNat]
theorem divu (d a b : Reg) : Statement (.divu d a b) :=
  of_body rfl fun h => by simp [decodeBody, decodeAlu, Bind.bind, Except.bind, -BitVec.extractLsb'_toNat]
theorem rem (d a b : Reg) : Statement (.rem d a b) :=
  of_body rfl fun h => by simp [decodeBody, decodeAlu, Bind.bind, Except.bind, -BitVec.extractLsb'_toNat]
theorem remu (d a b : Reg) : Statement (.remu d a b) :=
  of_body rfl fun h => by simp [decodeBody, decodeAlu, Bind.bind, Except.bind, -BitVec.extractLsb'_toNat]
theorem and (d a b : Reg) : Statement (.and d a b) :=
  of_body rfl fun h => by simp [decodeBody, decodeAlu, Bind.bind, Except.bind, -BitVec.extractLsb'_toNat]
theorem or (d a b : Reg) : Statement (.or d a b) :=
  of_body rfl fun h => by simp [decodeBody, decodeAlu, Bind.bind, Except.bind, -BitVec.extractLsb'_toNat]
theorem xor (d a b : Reg) : Statement (.xor d a b) :=
  of_body rfl fun h => by simp [decodeBody, decodeAlu, Bind.bind, Except.bind, -BitVec.extractLsb'_toNat]
theorem andn (d a b : Reg) : Statement (.andn d a b) :=
  of_body rfl fun h => by simp [decodeBody, decodeAlu, Bind.bind, Except.bind, -BitVec.extractLsb'_toNat]
theorem shl (d a b : Reg) : Statement (.shl d a b) :=
  of_body rfl fun h => by simp [decodeBody, decodeAlu, Bind.bind, Except.bind, -BitVec.extractLsb'_toNat]
theorem shr (d a b : Reg) : Statement (.shr d a b) :=
  of_body rfl fun h => by simp [decodeBody, decodeAlu, Bind.bind, Except.bind, -BitVec.extractLsb'_toNat]
theorem sra (d a b : Reg) : Statement (.sra d a b) :=
  of_body rfl fun h => by simp [decodeBody, decodeAlu, Bind.bind, Except.bind, -BitVec.extractLsb'_toNat]
theorem rot (d a b : Reg) : Statement (.rot d a b) :=
  of_body rfl fun h => by simp [decodeBody, decodeAlu, Bind.bind, Except.bind, -BitVec.extractLsb'_toNat]
theorem min (d a b : Reg) : Statement (.min d a b) :=
  of_body rfl fun h => by simp [decodeBody, decodeAlu, Bind.bind, Except.bind, -BitVec.extractLsb'_toNat]
theorem max (d a b : Reg) : Statement (.max d a b) :=
  of_body rfl fun h => by simp [decodeBody, decodeAlu, Bind.bind, Except.bind, -BitVec.extractLsb'_toNat]
theorem minu (d a b : Reg) : Statement (.minu d a b) :=
  of_body rfl fun h => by simp [decodeBody, decodeAlu, Bind.bind, Except.bind, -BitVec.extractLsb'_toNat]
theorem maxu (d a b : Reg) : Statement (.maxu d a b) :=
  of_body rfl fun h => by simp [decodeBody, decodeAlu, Bind.bind, Except.bind, -BitVec.extractLsb'_toNat]
theorem clz (d a : Reg) : Statement (.clz d a) :=
  of_body rfl fun h => by simp [decodeBody, decodeAlu, Bind.bind, Except.bind, -BitVec.extractLsb'_toNat]
theorem popc (d a : Reg) : Statement (.popc d a) :=
  of_body rfl fun h => by simp [decodeBody, decodeAlu, Bind.bind, Except.bind, -BitVec.extractLsb'_toNat]
theorem madd (d a b c : Reg) : Statement (.madd d a b c) :=
  of_body rfl fun h => by simp [decodeBody, decodeAlu, Bind.bind, Except.bind, -BitVec.extractLsb'_toNat]
theorem sel (d a b : Reg) (p : BitVec 3) : Statement (.sel d a b p) :=
  of_body rfl fun h => by simp [decodeBody, decodeAlu, Bind.bind, Except.bind, -BitVec.extractLsb'_toNat]
theorem addx (d a b : Reg) (n : BitVec 2) : Statement (.addx d a b n) :=
  of_body rfl fun h => by simp [decodeBody, decodeAlu, Bind.bind, Except.bind, -BitVec.extractLsb'_toNat]
theorem addi (d a : Reg) (i : W32) : Statement (.addi d a i) :=
  of_body rfl fun h => by simp [decodeBody, decodeAlui, Bind.bind, Except.bind, -BitVec.extractLsb'_toNat]
theorem andi (d a : Reg) (i : W32) : Statement (.andi d a i) :=
  of_body rfl fun h => by simp [decodeBody, decodeAlui, Bind.bind, Except.bind, -BitVec.extractLsb'_toNat]
theorem ori (d a : Reg) (i : W32) : Statement (.ori d a i) :=
  of_body rfl fun h => by simp [decodeBody, decodeAlui, Bind.bind, Except.bind, -BitVec.extractLsb'_toNat]
theorem xori (d a : Reg) (i : W32) : Statement (.xori d a i) :=
  of_body rfl fun h => by simp [decodeBody, decodeAlui, Bind.bind, Except.bind, -BitVec.extractLsb'_toNat]
theorem shli (d a : Reg) (i : BitVec 6) : Statement (.shli d a i) :=
  of_body rfl fun h => by simp [decodeBody, decodeAlui, Bind.bind, Except.bind, -BitVec.extractLsb'_toNat]
theorem shri (d a : Reg) (i : BitVec 6) : Statement (.shri d a i) :=
  of_body rfl fun h => by simp [decodeBody, decodeAlui, Bind.bind, Except.bind, -BitVec.extractLsb'_toNat]
theorem srai (d a : Reg) (i : BitVec 6) : Statement (.srai d a i) :=
  of_body rfl fun h => by simp [decodeBody, decodeAlui, Bind.bind, Except.bind, -BitVec.extractLsb'_toNat]
theorem roti (d a : Reg) (i : BitVec 6) : Statement (.roti d a i) :=
  of_body rfl fun h => by simp [decodeBody, decodeAlui, Bind.bind, Except.bind, -BitVec.extractLsb'_toNat]
theorem li (d : Reg) (i : W32) : Statement (.li d i) :=
  of_body rfl fun h => by simp [decodeBody, decodeAlui, Bind.bind, Except.bind, -BitVec.extractLsb'_toNat]
theorem lih (d : Reg) (i : W32) : Statement (.lih d i) :=
  of_body rfl fun h => by simp [decodeBody, decodeAlui, Bind.bind, Except.bind, -BitVec.extractLsb'_toNat]
theorem liz (d : Reg) (i : W32) : Statement (.liz d i) :=
  of_body rfl fun h => by simp [decodeBody, decodeAlui, Bind.bind, Except.bind, -BitVec.extractLsb'_toNat]
theorem cmpEq (p : BitVec 3) (a b : Reg) : Statement (.cmpEq p a b) :=
  of_body rfl fun h => by simp [decodeBody, decodeCmp, Bind.bind, Except.bind, -BitVec.extractLsb'_toNat]
theorem cmpNe (p : BitVec 3) (a b : Reg) : Statement (.cmpNe p a b) :=
  of_body rfl fun h => by simp [decodeBody, decodeCmp, Bind.bind, Except.bind, -BitVec.extractLsb'_toNat]
theorem cmpLt (p : BitVec 3) (a b : Reg) : Statement (.cmpLt p a b) :=
  of_body rfl fun h => by simp [decodeBody, decodeCmp, Bind.bind, Except.bind, -BitVec.extractLsb'_toNat]
theorem cmpLe (p : BitVec 3) (a b : Reg) : Statement (.cmpLe p a b) :=
  of_body rfl fun h => by simp [decodeBody, decodeCmp, Bind.bind, Except.bind, -BitVec.extractLsb'_toNat]
theorem cmpLtu (p : BitVec 3) (a b : Reg) : Statement (.cmpLtu p a b) :=
  of_body rfl fun h => by simp [decodeBody, decodeCmp, Bind.bind, Except.bind, -BitVec.extractLsb'_toNat]
theorem cmpLeu (p : BitVec 3) (a b : Reg) : Statement (.cmpLeu p a b) :=
  of_body rfl fun h => by simp [decodeBody, decodeCmp, Bind.bind, Except.bind, -BitVec.extractLsb'_toNat]
theorem pand (p a b : BitVec 3) : Statement (.pand p a b) :=
  of_body rfl fun h => by simp [decodeBody, decodeCmp, Bind.bind, Except.bind, -BitVec.extractLsb'_toNat]
theorem por (p a b : BitVec 3) : Statement (.por p a b) :=
  of_body rfl fun h => by simp [decodeBody, decodeCmp, Bind.bind, Except.bind, -BitVec.extractLsb'_toNat]
theorem pxor (p a b : BitVec 3) : Statement (.pxor p a b) :=
  of_body rfl fun h => by simp [decodeBody, decodeCmp, Bind.bind, Except.bind, -BitVec.extractLsb'_toNat]
theorem pandn (p a b : BitVec 3) : Statement (.pandn p a b) :=
  of_body rfl fun h => by simp [decodeBody, decodeCmp, Bind.bind, Except.bind, -BitVec.extractLsb'_toNat]
theorem cmpiEq (p : BitVec 3) (a : Reg) (i : W32) : Statement (.cmpiEq p a i) :=
  of_body rfl fun h => by simp [decodeBody, decodeCmpi, Bind.bind, Except.bind, -BitVec.extractLsb'_toNat]
theorem cmpiNe (p : BitVec 3) (a : Reg) (i : W32) : Statement (.cmpiNe p a i) :=
  of_body rfl fun h => by simp [decodeBody, decodeCmpi, Bind.bind, Except.bind, -BitVec.extractLsb'_toNat]
theorem cmpiLt (p : BitVec 3) (a : Reg) (i : W32) : Statement (.cmpiLt p a i) :=
  of_body rfl fun h => by simp [decodeBody, decodeCmpi, Bind.bind, Except.bind, -BitVec.extractLsb'_toNat]
theorem cmpiLe (p : BitVec 3) (a : Reg) (i : W32) : Statement (.cmpiLe p a i) :=
  of_body rfl fun h => by simp [decodeBody, decodeCmpi, Bind.bind, Except.bind, -BitVec.extractLsb'_toNat]
theorem cmpiLtu (p : BitVec 3) (a : Reg) (i : W32) : Statement (.cmpiLtu p a i) :=
  of_body rfl fun h => by simp [decodeBody, decodeCmpi, Bind.bind, Except.bind, -BitVec.extractLsb'_toNat]
theorem cmpiLeu (p : BitVec 3) (a : Reg) (i : W32) : Statement (.cmpiLeu p a i) :=
  of_body rfl fun h => by simp [decodeBody, decodeCmpi, Bind.bind, Except.bind, -BitVec.extractLsb'_toNat]
theorem mov (d a : Reg) : Statement (.mov d a) :=
  of_body rfl fun h => by simp [decodeBody, decodeMovx, Bind.bind, Except.bind, -BitVec.extractLsb'_toNat]
theorem pget (d : Reg) : Statement (.pget d) :=
  of_body rfl fun h => by simp [decodeBody, decodeMovx, Bind.bind, Except.bind, -BitVec.extractLsb'_toNat]
theorem pput (a : Reg) : Statement (.pput a) :=
  of_body rfl fun h => by simp [decodeBody, decodeMovx, Bind.bind, Except.bind, -BitVec.extractLsb'_toNat]
theorem vget (d : Reg) (g lane : Reg) : Statement (.vget d g lane) :=
  of_body rfl fun h => by simp [decodeBody, decodeMovx, check, h, F5.a, F5.b, Bind.bind, Except.bind, -BitVec.extractLsb'_toNat]
theorem vput (g : Reg) (a : Reg) (lane : Reg) : Statement (.vput g a lane) :=
  of_body rfl fun h => by simp [decodeBody, decodeMovx, check, h, F5.a, F5.b, Bind.bind, Except.bind, -BitVec.extractLsb'_toNat]
theorem keel (d : Reg) : Statement (.keel d) :=
  of_body rfl fun h => by simp [decodeBody, decodeMovx, Bind.bind, Except.bind, -BitVec.extractLsb'_toNat]
theorem br (off : W32) : Statement (.br off) :=
  of_body rfl fun h => by simp [decodeBody, decodeBr, Bind.bind, Except.bind, -BitVec.extractLsb'_toNat]
theorem call (off : W32) : Statement (.call off) :=
  of_body rfl fun h => by simp [decodeBody, decodeBr, Bind.bind, Except.bind, -BitVec.extractLsb'_toNat]
theorem jmp (a : Reg) : Statement (.jmp a) :=
  of_body rfl fun h => by simp [decodeBody, decodeBr, Bind.bind, Except.bind, -BitVec.extractLsb'_toNat]
theorem callr (a : Reg) : Statement (.callr a) :=
  of_body rfl fun h => by simp [decodeBody, decodeBr, Bind.bind, Except.bind, -BitVec.extractLsb'_toNat]
theorem ret (a : Reg) : Statement (.ret a) :=
  of_body rfl fun h => by simp [decodeBody, decodeBr, Bind.bind, Except.bind, -BitVec.extractLsb'_toNat]
theorem loop (a : Reg) (off : W32) : Statement (.loop a off) :=
  of_body rfl fun h => by simp [decodeBody, decodeLoop, check, h, F5.a, F5.b, Bind.bind, Except.bind, -BitVec.extractLsb'_toNat]
theorem loopp (a : Reg) (stages : BitVec 3) (off : W32) : Statement (.loopp a stages off) :=
  of_body rfl fun h => by simp [decodeBody, decodeLoopp, check, h, F5.a, F5.b, Bind.bind, Except.bind, -BitVec.extractLsb'_toNat]
theorem lbrk : Statement (.lbrk) :=
  of_body rfl fun h => by simp [decodeBody, decodeLctl, Bind.bind, Except.bind, -BitVec.extractLsb'_toNat]
theorem lnext : Statement (.lnext) :=
  of_body rfl fun h => by simp [decodeBody, decodeLctl, Bind.bind, Except.bind, -BitVec.extractLsb'_toNat]
theorem exit : Statement (.exit) :=
  of_body rfl fun h => by simp [decodeBody, decodeThrd, Bind.bind, Except.bind, -BitVec.extractLsb'_toNat]
theorem yield : Statement (.yield) :=
  of_body rfl fun h => by simp [decodeBody, decodeThrd, Bind.bind, Except.bind, -BitVec.extractLsb'_toNat]
theorem sleept (a : Reg) : Statement (.sleept a) :=
  of_body rfl fun h => by simp [decodeBody, decodeThrd, Bind.bind, Except.bind, -BitVec.extractLsb'_toNat]
theorem sleepd (a : Reg) : Statement (.sleepd a) :=
  of_body rfl fun h => by simp [decodeBody, decodeThrd, Bind.bind, Except.bind, -BitVec.extractLsb'_toNat]
theorem qadv (q : QSel) (n : Count 8) : Statement (.qadv q n) := by
  refine of_body rfl fun h => ?_
  simp [decodeBody, decodeQop, Bind.bind, Except.bind, fLow, -BitVec.extractLsb'_toNat, Count.ofFields_fields n h]
theorem qstat (d : Reg) (q : QSel) : Statement (.qstat d q) :=
  of_body rfl fun h => by simp [decodeBody, decodeQop, Bind.bind, Except.bind, -BitVec.extractLsb'_toNat]
theorem qcfg (a : Reg) (q : QSel) : Statement (.qcfg a q) :=
  of_body rfl fun h => by simp [decodeBody, decodeQop, Bind.bind, Except.bind, -BitVec.extractLsb'_toNat]
theorem qclr (q : QSel) : Statement (.qclr q) :=
  of_body rfl fun h => by simp [decodeBody, decodeQop, Bind.bind, Except.bind, -BitVec.extractLsb'_toNat]
theorem ldq (f : StreamF) : Statement (.ldq f) := by
  refine of_body rfl fun h => ?_
  simp [decodeBody, decodeStream, Bind.bind, Except.bind, fLow, -BitVec.extractLsb'_toNat, Nat.not_le.mpr (small_es f.es), Count.ofFields_fields f.n h]
theorem stq (f : StreamF) : Statement (.stq f) := by
  refine of_body rfl fun h => ?_
  simp [decodeBody, decodeStream, Bind.bind, Except.bind, fLow, -BitVec.extractLsb'_toNat, Nat.not_le.mpr (small_es f.es), Count.ofFields_fields f.n h]
theorem ldmq (f : MStreamF) : Statement (.ldmq f) := by
  refine of_body rfl fun h => ?_
  simp [decodeBody, decodeStream, Bind.bind, Except.bind, fLow, -BitVec.extractLsb'_toNat, Nat.not_le.mpr (small_es f.es), Count.ofFields_fields f.n h]
theorem stmq (f : MStreamF) : Statement (.stmq f) := by
  refine of_body rfl fun h => ?_
  simp [decodeBody, decodeStream, Bind.bind, Except.bind, fLow, -BitVec.extractLsb'_toNat, Nat.not_le.mpr (small_es f.es), Count.ofFields_fields f.n h]
theorem ldrq (f : HStreamF) : Statement (.ldrq f) := by
  refine of_body rfl fun h => ?_
  simp [decodeBody, decodeStream, Bind.bind, Except.bind, fLow, -BitVec.extractLsb'_toNat, Nat.not_le.mpr (small_es f.es), Count.ofFields_fields f.n h]
theorem strq (f : HStreamF) : Statement (.strq f) := by
  refine of_body rfl fun h => ?_
  simp [decodeBody, decodeStream, Bind.bind, Except.bind, fLow, -BitVec.extractLsb'_toNat, Nat.not_le.mpr (small_es f.es), Count.ofFields_fields f.n h]
theorem lds (f : LdsF) : Statement (.lds f) := by
  refine of_body rfl fun h => ?_
  simp [decodeBody, decodeLds, check, h, Bind.bind, Except.bind, fLow, -BitVec.extractLsb'_toNat, Nat.not_le.mpr (fields_lds f.sx f.sz).2.2]
theorem sts (f : StsF) : Statement (.sts f) := by
  refine of_body rfl fun h => ?_
  simp [decodeBody, decodeSts, Bind.bind, Except.bind, fLow, -BitVec.extractLsb'_toNat, Nat.not_le.mpr (small_sts f.sz)]
theorem ldm (f : LdmF) : Statement (.ldm f) := by
  refine of_body rfl fun h => ?_
  simp [decodeBody, decodeLdm, fD, Bind.bind, Except.bind, fLow, -BitVec.extractLsb'_toNat]
  have : (0#7 ++ bit f.sx).extractLsb' 1 2 = 0#2 := by cases f.sx <;> rfl
  simp [this, Scope.ofCode, orBad]
theorem stm (f : StmF) : Statement (.stm f) := by
  obtain ⟨d, th, x, sc, sz, disp, pub⟩ := f
  cases pub with
  | some s => exact of_body rfl fun h => by cases s <;> simp [decodeBody, decodeStm, fD, Scope.code, Scope.ofCode, orBad, flag, Bind.bind, Except.bind, fLow, -BitVec.extractLsb'_toNat]
  | none => exact of_body rfl fun h => by simp [decodeBody, decodeStm, fD, Scope.ofCode, orBad, flag, Bind.bind, Except.bind, fLow, -BitVec.extractLsb'_toNat]
theorem amoAdd (f : AmoF) : Statement (.amoAdd f) := by
  refine of_body rfl fun h => ?_
  obtain ⟨h1, h2, h3, h4, h5, h6, h7, h8, h9, h10⟩ := fields_amo f.d f.a f.b 0 0 (sizeCode f.wide) f.scope.code f.th f.pb f.sp
  simp only [decodeBody, decodeAmo, h1, h2, h3, h4, h5, h6, h7, h8, h9, h10]
  simp [Bind.bind, Except.bind, fLow, -BitVec.extractLsb'_toNat]
theorem amoMin (f : AmoF) : Statement (.amoMin f) := by
  refine of_body rfl fun h => ?_
  obtain ⟨h1, h2, h3, h4, h5, h6, h7, h8, h9, h10⟩ := fields_amo f.d f.a f.b 0 1 (sizeCode f.wide) f.scope.code f.th f.pb f.sp
  simp only [decodeBody, decodeAmo, h1, h2, h3, h4, h5, h6, h7, h8, h9, h10]
  simp [Bind.bind, Except.bind, fLow, -BitVec.extractLsb'_toNat]
theorem amoMax (f : AmoF) : Statement (.amoMax f) := by
  refine of_body rfl fun h => ?_
  obtain ⟨h1, h2, h3, h4, h5, h6, h7, h8, h9, h10⟩ := fields_amo f.d f.a f.b 0 2 (sizeCode f.wide) f.scope.code f.th f.pb f.sp
  simp only [decodeBody, decodeAmo, h1, h2, h3, h4, h5, h6, h7, h8, h9, h10]
  simp [Bind.bind, Except.bind, fLow, -BitVec.extractLsb'_toNat]
theorem amoMinu (f : AmoF) : Statement (.amoMinu f) := by
  refine of_body rfl fun h => ?_
  obtain ⟨h1, h2, h3, h4, h5, h6, h7, h8, h9, h10⟩ := fields_amo f.d f.a f.b 0 3 (sizeCode f.wide) f.scope.code f.th f.pb f.sp
  simp only [decodeBody, decodeAmo, h1, h2, h3, h4, h5, h6, h7, h8, h9, h10]
  simp [Bind.bind, Except.bind, fLow, -BitVec.extractLsb'_toNat]
theorem amoMaxu (f : AmoF) : Statement (.amoMaxu f) := by
  refine of_body rfl fun h => ?_
  obtain ⟨h1, h2, h3, h4, h5, h6, h7, h8, h9, h10⟩ := fields_amo f.d f.a f.b 0 4 (sizeCode f.wide) f.scope.code f.th f.pb f.sp
  simp only [decodeBody, decodeAmo, h1, h2, h3, h4, h5, h6, h7, h8, h9, h10]
  simp [Bind.bind, Except.bind, fLow, -BitVec.extractLsb'_toNat]
theorem amoAnd (f : AmoF) : Statement (.amoAnd f) := by
  refine of_body rfl fun h => ?_
  obtain ⟨h1, h2, h3, h4, h5, h6, h7, h8, h9, h10⟩ := fields_amo f.d f.a f.b 0 5 (sizeCode f.wide) f.scope.code f.th f.pb f.sp
  simp only [decodeBody, decodeAmo, h1, h2, h3, h4, h5, h6, h7, h8, h9, h10]
  simp [Bind.bind, Except.bind, fLow, -BitVec.extractLsb'_toNat]
theorem amoOr (f : AmoF) : Statement (.amoOr f) := by
  refine of_body rfl fun h => ?_
  obtain ⟨h1, h2, h3, h4, h5, h6, h7, h8, h9, h10⟩ := fields_amo f.d f.a f.b 0 6 (sizeCode f.wide) f.scope.code f.th f.pb f.sp
  simp only [decodeBody, decodeAmo, h1, h2, h3, h4, h5, h6, h7, h8, h9, h10]
  simp [Bind.bind, Except.bind, fLow, -BitVec.extractLsb'_toNat]
theorem amoXor (f : AmoF) : Statement (.amoXor f) := by
  refine of_body rfl fun h => ?_
  obtain ⟨h1, h2, h3, h4, h5, h6, h7, h8, h9, h10⟩ := fields_amo f.d f.a f.b 0 7 (sizeCode f.wide) f.scope.code f.th f.pb f.sp
  simp only [decodeBody, decodeAmo, h1, h2, h3, h4, h5, h6, h7, h8, h9, h10]
  simp [Bind.bind, Except.bind, fLow, -BitVec.extractLsb'_toNat]
theorem amoSwap (f : AmoF) : Statement (.amoSwap f) := by
  refine of_body rfl fun h => ?_
  obtain ⟨h1, h2, h3, h4, h5, h6, h7, h8, h9, h10⟩ := fields_amo f.d f.a f.b 0 8 (sizeCode f.wide) f.scope.code f.th f.pb f.sp
  simp only [decodeBody, decodeAmo, h1, h2, h3, h4, h5, h6, h7, h8, h9, h10]
  simp [Bind.bind, Except.bind, fLow, -BitVec.extractLsb'_toNat]
theorem amoCas (f : AmoF) (c : Reg) : Statement (.amoCas f c) := by
  refine of_body rfl fun h => ?_
  obtain ⟨h1, h2, h3, h4, h5, h6, h7, h8, h9, h10⟩ := fields_amo f.d f.a f.b c 9 (sizeCode f.wide) f.scope.code f.th f.pb f.sp
  simp only [decodeBody, decodeAmo, h1, h2, h3, h4, h5, h6, h7, h8, h9, h10]
  simp [Bind.bind, Except.bind, fLow, -BitVec.extractLsb'_toNat]
theorem amosAdd (f : AmosF) : Statement (.amosAdd f) := by
  refine of_body rfl fun h => ?_
  obtain ⟨h1, h2, h3, h4, h5, h6, h7, h8, h9, h10⟩ := fields_amo f.d f.a f.b 0 0 (sizeCode f.wide) 0#2 0#4 f.pb f.sp
  simp only [decodeBody, decodeAmos, h1, h2, h3, h4, h5, h6, h7, h8, h9, h10]
  simp [Bind.bind, Except.bind, fLow, -BitVec.extractLsb'_toNat]
theorem amosMin (f : AmosF) : Statement (.amosMin f) := by
  refine of_body rfl fun h => ?_
  obtain ⟨h1, h2, h3, h4, h5, h6, h7, h8, h9, h10⟩ := fields_amo f.d f.a f.b 0 1 (sizeCode f.wide) 0#2 0#4 f.pb f.sp
  simp only [decodeBody, decodeAmos, h1, h2, h3, h4, h5, h6, h7, h8, h9, h10]
  simp [Bind.bind, Except.bind, fLow, -BitVec.extractLsb'_toNat]
theorem amosMax (f : AmosF) : Statement (.amosMax f) := by
  refine of_body rfl fun h => ?_
  obtain ⟨h1, h2, h3, h4, h5, h6, h7, h8, h9, h10⟩ := fields_amo f.d f.a f.b 0 2 (sizeCode f.wide) 0#2 0#4 f.pb f.sp
  simp only [decodeBody, decodeAmos, h1, h2, h3, h4, h5, h6, h7, h8, h9, h10]
  simp [Bind.bind, Except.bind, fLow, -BitVec.extractLsb'_toNat]
theorem amosMinu (f : AmosF) : Statement (.amosMinu f) := by
  refine of_body rfl fun h => ?_
  obtain ⟨h1, h2, h3, h4, h5, h6, h7, h8, h9, h10⟩ := fields_amo f.d f.a f.b 0 3 (sizeCode f.wide) 0#2 0#4 f.pb f.sp
  simp only [decodeBody, decodeAmos, h1, h2, h3, h4, h5, h6, h7, h8, h9, h10]
  simp [Bind.bind, Except.bind, fLow, -BitVec.extractLsb'_toNat]
theorem amosMaxu (f : AmosF) : Statement (.amosMaxu f) := by
  refine of_body rfl fun h => ?_
  obtain ⟨h1, h2, h3, h4, h5, h6, h7, h8, h9, h10⟩ := fields_amo f.d f.a f.b 0 4 (sizeCode f.wide) 0#2 0#4 f.pb f.sp
  simp only [decodeBody, decodeAmos, h1, h2, h3, h4, h5, h6, h7, h8, h9, h10]
  simp [Bind.bind, Except.bind, fLow, -BitVec.extractLsb'_toNat]
theorem amosAnd (f : AmosF) : Statement (.amosAnd f) := by
  refine of_body rfl fun h => ?_
  obtain ⟨h1, h2, h3, h4, h5, h6, h7, h8, h9, h10⟩ := fields_amo f.d f.a f.b 0 5 (sizeCode f.wide) 0#2 0#4 f.pb f.sp
  simp only [decodeBody, decodeAmos, h1, h2, h3, h4, h5, h6, h7, h8, h9, h10]
  simp [Bind.bind, Except.bind, fLow, -BitVec.extractLsb'_toNat]
theorem amosOr (f : AmosF) : Statement (.amosOr f) := by
  refine of_body rfl fun h => ?_
  obtain ⟨h1, h2, h3, h4, h5, h6, h7, h8, h9, h10⟩ := fields_amo f.d f.a f.b 0 6 (sizeCode f.wide) 0#2 0#4 f.pb f.sp
  simp only [decodeBody, decodeAmos, h1, h2, h3, h4, h5, h6, h7, h8, h9, h10]
  simp [Bind.bind, Except.bind, fLow, -BitVec.extractLsb'_toNat]
theorem amosXor (f : AmosF) : Statement (.amosXor f) := by
  refine of_body rfl fun h => ?_
  obtain ⟨h1, h2, h3, h4, h5, h6, h7, h8, h9, h10⟩ := fields_amo f.d f.a f.b 0 7 (sizeCode f.wide) 0#2 0#4 f.pb f.sp
  simp only [decodeBody, decodeAmos, h1, h2, h3, h4, h5, h6, h7, h8, h9, h10]
  simp [Bind.bind, Except.bind, fLow, -BitVec.extractLsb'_toNat]
theorem amosSwap (f : AmosF) : Statement (.amosSwap f) := by
  refine of_body rfl fun h => ?_
  obtain ⟨h1, h2, h3, h4, h5, h6, h7, h8, h9, h10⟩ := fields_amo f.d f.a f.b 0 8 (sizeCode f.wide) 0#2 0#4 f.pb f.sp
  simp only [decodeBody, decodeAmos, h1, h2, h3, h4, h5, h6, h7, h8, h9, h10]
  simp [Bind.bind, Except.bind, fLow, -BitVec.extractLsb'_toNat]
theorem amosCas (f : AmosF) (c : Reg) : Statement (.amosCas f c) := by
  refine of_body rfl fun h => ?_
  obtain ⟨h1, h2, h3, h4, h5, h6, h7, h8, h9, h10⟩ := fields_amo f.d f.a f.b c 9 (sizeCode f.wide) 0#2 0#4 f.pb f.sp
  simp only [decodeBody, decodeAmos, h1, h2, h3, h4, h5, h6, h7, h8, h9, h10]
  simp [Bind.bind, Except.bind, fLow, -BitVec.extractLsb'_toNat]
theorem teth (th : BitVec 4) (a : Reg) (intent : Intent) : Statement (.teth th a intent) :=
  of_body rfl fun h => by simp [decodeBody, decodeXlat, Bind.bind, Except.bind, -BitVec.extractLsb'_toNat]
theorem trenew (th : BitVec 4) : Statement (.trenew th) :=
  of_body rfl fun h => by simp [decodeBody, decodeXlat, Bind.bind, Except.bind, -BitVec.extractLsb'_toNat]
theorem trel (th : BitVec 4) : Statement (.trel th) :=
  of_body rfl fun h => by simp [decodeBody, decodeXlat, Bind.bind, Except.bind, -BitVec.extractLsb'_toNat]
theorem tstat (d : Reg) (th : BitVec 4) : Statement (.tstat d th) :=
  of_body rfl fun h => by simp [decodeBody, decodeXlat, Bind.bind, Except.bind, -BitVec.extractLsb'_toNat]
theorem rprobe (a b : Reg) (w : Bool) : Statement (.rprobe a b w) :=
  of_body rfl fun h => by simp [decodeBody, decodeXlat, Bind.bind, Except.bind, -BitVec.extractLsb'_toNat]
theorem vadd (f : VBin) : Statement (.vadd f) :=
  of_body rfl fun h => by simp [decodeBody, decodeVfp, check, h, F5.a, F5.b, Bind.bind, Except.bind, -BitVec.extractLsb'_toNat]
theorem vsub (f : VBin) : Statement (.vsub f) :=
  of_body rfl fun h => by simp [decodeBody, decodeVfp, check, h, F5.a, F5.b, Bind.bind, Except.bind, -BitVec.extractLsb'_toNat]
theorem vmul (f : VBin) : Statement (.vmul f) :=
  of_body rfl fun h => by simp [decodeBody, decodeVfp, check, h, F5.a, F5.b, Bind.bind, Except.bind, -BitVec.extractLsb'_toNat]
theorem vfma (f : VBin) : Statement (.vfma f) :=
  of_body rfl fun h => by simp [decodeBody, decodeVfp, check, h, F5.a, F5.b, Bind.bind, Except.bind, -BitVec.extractLsb'_toNat]
theorem vfnma (f : VBin) : Statement (.vfnma f) :=
  of_body rfl fun h => by simp [decodeBody, decodeVfp, check, h, F5.a, F5.b, Bind.bind, Except.bind, -BitVec.extractLsb'_toNat]
theorem vmax (f : VMov2) : Statement (.vmax f) :=
  of_body rfl fun h => by simp [decodeBody, decodeVfp, check, h, F5.a, F5.b, Bind.bind, Except.bind, -BitVec.extractLsb'_toNat]
theorem vmin (f : VMov2) : Statement (.vmin f) :=
  of_body rfl fun h => by simp [decodeBody, decodeVfp, check, h, F5.a, F5.b, Bind.bind, Except.bind, -BitVec.extractLsb'_toNat]
theorem vabs (f : VMov1) : Statement (.vabs f) :=
  of_body rfl fun h => by simp [decodeBody, decodeVfp, check, h, F5.a, F5.b, Bind.bind, Except.bind, -BitVec.extractLsb'_toNat]
theorem vneg (f : VMov1) : Statement (.vneg f) :=
  of_body rfl fun h => by simp [decodeBody, decodeVfp, check, h, F5.a, F5.b, Bind.bind, Except.bind, -BitVec.extractLsb'_toNat]
theorem vcpy (f : VMov1) : Statement (.vcpy f) :=
  of_body rfl fun h => by simp [decodeBody, decodeVfp, check, h, F5.a, F5.b, Bind.bind, Except.bind, -BitVec.extractLsb'_toNat]
theorem vrcp (f : VUn) : Statement (.vrcp f) :=
  of_body rfl fun h => by simp [decodeBody, decodeVfp, check, h, F5.a, F5.b, Bind.bind, Except.bind, -BitVec.extractLsb'_toNat]
theorem vrsq (f : VUn) : Statement (.vrsq f) :=
  of_body rfl fun h => by simp [decodeBody, decodeVfp, check, h, F5.a, F5.b, Bind.bind, Except.bind, -BitVec.extractLsb'_toNat]
theorem vexp2 (f : VUn) : Statement (.vexp2 f) :=
  of_body rfl fun h => by simp [decodeBody, decodeVfp, check, h, F5.a, F5.b, Bind.bind, Except.bind, -BitVec.extractLsb'_toNat]
theorem vlog2 (f : VUn) : Statement (.vlog2 f) :=
  of_body rfl fun h => by simp [decodeBody, decodeVfp, check, h, F5.a, F5.b, Bind.bind, Except.bind, -BitVec.extractLsb'_toNat]
theorem vsqrt (f : VUn) : Statement (.vsqrt f) :=
  of_body rfl fun h => by simp [decodeBody, decodeVfp, check, h, F5.a, F5.b, Bind.bind, Except.bind, -BitVec.extractLsb'_toNat]
theorem vdiv (f : VBin) : Statement (.vdiv f) :=
  of_body rfl fun h => by simp [decodeBody, decodeVfp, check, h, F5.a, F5.b, Bind.bind, Except.bind, -BitVec.extractLsb'_toNat]
theorem viadd (f : VIntF) : Statement (.viadd f) :=
  of_body rfl fun h => by simp [decodeBody, decodeVint, check, h, F5.a, F5.b, Bind.bind, Except.bind, -BitVec.extractLsb'_toNat]
theorem visub (f : VIntF) : Statement (.visub f) :=
  of_body rfl fun h => by simp [decodeBody, decodeVint, check, h, F5.a, F5.b, Bind.bind, Except.bind, -BitVec.extractLsb'_toNat]
theorem vimul (f : VIntF) : Statement (.vimul f) :=
  of_body rfl fun h => by simp [decodeBody, decodeVint, check, h, F5.a, F5.b, Bind.bind, Except.bind, -BitVec.extractLsb'_toNat]
theorem vand (f : VMov2) : Statement (.vand f) :=
  of_body rfl fun h => by simp [decodeBody, decodeVint, check, h, F5.a, F5.b, Bind.bind, Except.bind, -BitVec.extractLsb'_toNat]
theorem vor (f : VMov2) : Statement (.vor f) :=
  of_body rfl fun h => by simp [decodeBody, decodeVint, check, h, F5.a, F5.b, Bind.bind, Except.bind, -BitVec.extractLsb'_toNat]
theorem vxor (f : VMov2) : Statement (.vxor f) :=
  of_body rfl fun h => by simp [decodeBody, decodeVint, check, h, F5.a, F5.b, Bind.bind, Except.bind, -BitVec.extractLsb'_toNat]
theorem vshl (f : VMov2) : Statement (.vshl f) :=
  of_body rfl fun h => by simp [decodeBody, decodeVint, check, h, F5.a, F5.b, Bind.bind, Except.bind, -BitVec.extractLsb'_toNat]
theorem vshr (f : VMov2) : Statement (.vshr f) :=
  of_body rfl fun h => by simp [decodeBody, decodeVint, check, h, F5.a, F5.b, Bind.bind, Except.bind, -BitVec.extractLsb'_toNat]
theorem vsra (f : VMov2) : Statement (.vsra f) :=
  of_body rfl fun h => by simp [decodeBody, decodeVint, check, h, F5.a, F5.b, Bind.bind, Except.bind, -BitVec.extractLsb'_toNat]
theorem vimin (f : VMov2) : Statement (.vimin f) :=
  of_body rfl fun h => by simp [decodeBody, decodeVint, check, h, F5.a, F5.b, Bind.bind, Except.bind, -BitVec.extractLsb'_toNat]
theorem vimax (f : VMov2) : Statement (.vimax f) :=
  of_body rfl fun h => by simp [decodeBody, decodeVint, check, h, F5.a, F5.b, Bind.bind, Except.bind, -BitVec.extractLsb'_toNat]
theorem vcmpEq (f : VCmpF) : Statement (.vcmpEq f) :=
  of_body rfl fun h => by simp [decodeBody, decodeVcmp, check, h, F5.a, F5.b, Bind.bind, Except.bind, -BitVec.extractLsb'_toNat]
theorem vcmpNe (f : VCmpF) : Statement (.vcmpNe f) :=
  of_body rfl fun h => by simp [decodeBody, decodeVcmp, check, h, F5.a, F5.b, Bind.bind, Except.bind, -BitVec.extractLsb'_toNat]
theorem vcmpLt (f : VCmpF) : Statement (.vcmpLt f) :=
  of_body rfl fun h => by simp [decodeBody, decodeVcmp, check, h, F5.a, F5.b, Bind.bind, Except.bind, -BitVec.extractLsb'_toNat]
theorem vcmpLe (f : VCmpF) : Statement (.vcmpLe f) :=
  of_body rfl fun h => by simp [decodeBody, decodeVcmp, check, h, F5.a, F5.b, Bind.bind, Except.bind, -BitVec.extractLsb'_toNat]
theorem vcmpUn (f : VCmpF) : Statement (.vcmpUn f) :=
  of_body rfl fun h => by simp [decodeBody, decodeVcmp, check, h, F5.a, F5.b, Bind.bind, Except.bind, -BitVec.extractLsb'_toNat]
theorem vcmpIeq (f : VCmpF) : Statement (.vcmpIeq f) :=
  of_body rfl fun h => by simp [decodeBody, decodeVcmp, check, h, F5.a, F5.b, Bind.bind, Except.bind, -BitVec.extractLsb'_toNat]
theorem vcmpIlt (f : VCmpF) : Statement (.vcmpIlt f) :=
  of_body rfl fun h => by simp [decodeBody, decodeVcmp, check, h, F5.a, F5.b, Bind.bind, Except.bind, -BitVec.extractLsb'_toNat]
theorem vcmpIltu (f : VCmpF) : Statement (.vcmpIltu f) :=
  of_body rfl fun h => by simp [decodeBody, decodeVcmp, check, h, F5.a, F5.b, Bind.bind, Except.bind, -BitVec.extractLsb'_toNat]
theorem vcvt (f : VCvtF) : Statement (.vcvt f) :=
  of_body rfl fun h => by simp [decodeBody, decodeVconv, check, h, F5.a, F5.b, Bind.bind, Except.bind, -BitVec.extractLsb'_toNat]
theorem vqnt (f : VQntF) : Statement (.vqnt f) :=
  of_body rfl fun h => by simp [decodeBody, decodeVconv, check, h, F5.a, F5.b, Bind.bind, Except.bind, -BitVec.extractLsb'_toNat]
theorem vdq (f : VDqF) : Statement (.vdq f) := by
  refine of_body rfl fun h => ?_
  have h' := h
  simp only [Instr.wf, VDqF.wf, Bool.and_eq_true] at h'
  obtain ⟨_, h2⟩ := h'
  simp [decodeBody, decodeVconv, check, F5.a, F5.b, Bind.bind, Except.bind, fLow, -BitVec.extractLsb'_toNat]
  by_cases hs : f.src = .pni
  · obtain ⟨od, a, b, dst, src, pd, pf, rm, sat⟩ := f; simp only at hs; subst hs; simp [h]
  · obtain ⟨od, a, b, dst, src, pd, pf, rm, sat⟩ := f
    simp only at hs
    simp [hs] at h2
    obtain ⟨rfl, rfl⟩ := h2
    simp [hs, h]
theorem vsum (f : VUn) : Statement (.vsum f) :=
  of_body rfl fun h => by simp [decodeBody, decodeVred, check, h, F5.a, F5.b, Bind.bind, Except.bind, -BitVec.extractLsb'_toNat]
theorem vrmax (f : VMov1) : Statement (.vrmax f) :=
  of_body rfl fun h => by simp [decodeBody, decodeVred, check, h, F5.a, F5.b, Bind.bind, Except.bind, -BitVec.extractLsb'_toNat]
theorem vrmin (f : VMov1) : Statement (.vrmin f) :=
  of_body rfl fun h => by simp [decodeBody, decodeVred, check, h, F5.a, F5.b, Bind.bind, Except.bind, -BitVec.extractLsb'_toNat]
theorem vperm (f : VMov2) : Statement (.vperm f) :=
  of_body rfl fun h => by simp [decodeBody, decodeVmove, check, h, F5.a, F5.b, Bind.bind, Except.bind, -BitVec.extractLsb'_toNat]
theorem vrot (f : VImmF) : Statement (.vrot f) :=
  of_body rfl fun h => by simp [decodeBody, decodeVmove, check, h, F5.a, F5.b, Bind.bind, Except.bind, -BitVec.extractLsb'_toNat]
theorem vbcast (f : VImmF) : Statement (.vbcast f) :=
  of_body rfl fun h => by simp [decodeBody, decodeVmove, check, h, F5.a, F5.b, Bind.bind, Except.bind, -BitVec.extractLsb'_toNat]
theorem vsel (f : VSelF) : Statement (.vsel f) :=
  of_body rfl fun h => by simp [decodeBody, decodeVsel, check, h, F5.a, F5.b, Bind.bind, Except.bind, -BitVec.extractLsb'_toNat]
theorem vldi (d : Reg) (ty : ETy) (i : W32) : Statement (.vldi d ty i) := by
  refine of_body rfl fun h => ?_
  simp [decodeBody, decodeVldi, check, h, Bind.bind, Except.bind, fLow, -BitVec.extractLsb'_toNat, Nat.not_le.mpr (small_ty ty.code)]
theorem xtnd (i : W32) : Statement (.xtnd i) := by
  refine of_body rfl fun h => ?_
  simp [decodeBody, fImm32, Bind.bind, Except.bind, fLow, -BitVec.extractLsb'_toNat]
theorem lane (m : BitVec 3) (merge : Bool) : Statement (.lane m merge) := by
  refine of_body rfl fun h => ?_
  simp [decodeBody, Bind.bind, Except.bind, fLow, -BitVec.extractLsb'_toNat]
theorem pref (f : PrefF) : Statement (.pref f) := by
  refine of_body rfl fun h => ?_
  simp [decodeBody, decodePref, Bind.bind, Except.bind, fLow, -BitVec.extractLsb'_toNat]
theorem prio (p : BitVec 3) : Statement (.prio p) := by
  refine of_body rfl fun h => ?_
  simp [decodeBody, Bind.bind, Except.bind, fLow, -BitVec.extractLsb'_toNat]
theorem emptyHint (op : BitVec 8) : Statement (.emptyHint op) := by
  refine of_body rfl fun h => ?_
  have h' : 0xF2 ≤ op.toNat := by simpa [Instr.wf] using h
  revert h'; clear h; revert op; decide
theorem mma (f : MmaF) : Statement (.mma f) := by
  obtain ⟨acc, a, b, af, bf, ks, pd, pf, ck, z⟩ := f
  cases a <;> cases b <;> refine of_body rfl fun h => ?_ <;>
    simp [decodeBody, decodeMma, check, h, ASrc.code, ASrc.tBit, ASrc.regField, BSrc.code, BSrc.tBit, BSrc.regField, Bind.bind, Except.bind, fLow, -BitVec.extractLsb'_toNat]
theorem mzero (acc : BitVec 2) : Statement (.mzero acc) :=
  of_body rfl fun h => by simp [decodeBody, decodeMacc, Bind.bind, Except.bind, -BitVec.extractLsb'_toNat]
theorem mlda (acc : BitVec 2) (a : Reg) : Statement (.mlda acc a) :=
  of_body rfl fun h => by simp [decodeBody, decodeMacc, Bind.bind, Except.bind, -BitVec.extractLsb'_toNat]
theorem msta (acc : BitVec 2) (a : Reg) : Statement (.msta acc a) :=
  of_body rfl fun h => by simp [decodeBody, decodeMacc, Bind.bind, Except.bind, -BitVec.extractLsb'_toNat]
theorem mprog (d : Reg) (acc : BitVec 2) : Statement (.mprog d acc) :=
  of_body rfl fun h => by simp [decodeBody, decodeMacc, Bind.bind, Except.bind, -BitVec.extractLsb'_toNat]
theorem mrst (acc : BitVec 2) (off : BitVec 18) : Statement (.mrst acc off) :=
  of_body rfl fun h => by simp [decodeBody, decodeMacc, Bind.bind, Except.bind, -BitVec.extractLsb'_toNat]
theorem epi (f : EpiF) : Statement (.epi f) := by
  obtain ⟨dest, b, c, acc, ty, act, deriv, sat, rm, rv, watch⟩ := f
  cases dest <;> refine of_body rfl fun h => ?_ <;>
    simp [decodeBody, decodeEpi, check, h, EpiDest.code, EpiDest.regField, EpiDest.qField, Bind.bind, Except.bind, fLow, -BitVec.extractLsb'_toNat]
theorem rig (a : Reg) (n : BitVec 8) : Statement (.rig a n) :=
  of_body rfl fun h => by simp [decodeBody, decodeWave, Bind.bind, Except.bind, -BitVec.extractLsb'_toNat]
theorem unrig (n : BitVec 8) : Statement (.unrig n) :=
  of_body rfl fun h => by simp [decodeBody, decodeWave, Bind.bind, Except.bind, -BitVec.extractLsb'_toNat]
theorem admitTile (n : BitVec 8) (a b c : Reg) : Statement (.admitTile n a b c) :=
  of_body rfl fun h => by simp [decodeBody, decodeWave, Bind.bind, Except.bind, -BitVec.extractLsb'_toNat]
theorem arrv (d : Reg) : Statement (.arrv d) :=
  of_body rfl fun h => by simp [decodeBody, decodeWave, Bind.bind, Except.bind, -BitVec.extractLsb'_toNat]
theorem pass (a : Reg) (up : Bool) : Statement (.pass a up) :=
  of_body rfl fun h => by simp [decodeBody, decodeWave, Bind.bind, Except.bind, -BitVec.extractLsb'_toNat]
theorem meet (d : Reg) : Statement (.meet d) :=
  of_body rfl fun h => by simp [decodeBody, decodeWave, Bind.bind, Except.bind, -BitVec.extractLsb'_toNat]
theorem wver (d : Reg) : Statement (.wver d) :=
  of_body rfl fun h => by simp [decodeBody, decodeWave, Bind.bind, Except.bind, -BitVec.extractLsb'_toNat]
theorem wswap : Statement (.wswap) :=
  of_body rfl fun h => by simp [decodeBody, decodeWave, Bind.bind, Except.bind, -BitVec.extractLsb'_toNat]
theorem wstat (d : Reg) (n : BitVec 8) (sel : BitVec 4) : Statement (.wstat d n sel) :=
  of_body rfl fun h => by simp [decodeBody, decodeWave, check, h, F5.a, F5.b, Bind.bind, Except.bind, -BitVec.extractLsb'_toNat]
theorem phase (sc : Scope) : Statement (.phase sc) :=
  of_body rfl fun h => by simp [decodeBody, decodeSync, Bind.bind, Except.bind, -BitVec.extractLsb'_toNat]
theorem phaseb (sc : Scope) : Statement (.phaseb sc) :=
  of_body rfl fun h => by simp [decodeBody, decodeSync, Bind.bind, Except.bind, -BitVec.extractLsb'_toNat]
theorem fencex (frm dst : BitVec 6) : Statement (.fencex frm dst) :=
  of_body rfl fun h => by simp [decodeBody, decodeSync, check, h, F5.a, F5.b, Bind.bind, Except.bind, -BitVec.extractLsb'_toNat]
theorem flagset (th : BitVec 4) (a b : Reg) (sc : Scope) : Statement (.flagset th a b sc) :=
  of_body rfl fun h => by simp [decodeBody, decodeSync, Bind.bind, Except.bind, -BitVec.extractLsb'_toNat]
theorem flagw (d : Reg) (th : BitVec 4) (a b c : Reg) (sc : Scope) (cond : FlagCond) : Statement (.flagw d th a b c sc cond) :=
  of_body rfl fun h => by simp [decodeBody, decodeSync, Bind.bind, Except.bind, -BitVec.extractLsb'_toNat]
theorem join (d a : Reg) : Statement (.join d a) :=
  of_body rfl fun h => by simp [decodeBody, decodeSync, Bind.bind, Except.bind, -BitVec.extractLsb'_toNat]
theorem leave (a : Reg) : Statement (.leave a) :=
  of_body rfl fun h => by simp [decodeBody, decodeSync, Bind.bind, Except.bind, -BitVec.extractLsb'_toNat]
theorem teamq (d a : Reg) (sel : BitVec 4) : Statement (.teamq d a sel) :=
  of_body rfl fun h => by simp [decodeBody, decodeSync, check, h, F5.a, F5.b, Bind.bind, Except.bind, -BitVec.extractLsb'_toNat]
theorem glaunch (d a : Reg) (q : BitVec 10) : Statement (.glaunch d a q) :=
  of_body rfl fun h => by simp [decodeBody, decodeGraph, Bind.bind, Except.bind, -BitVec.extractLsb'_toNat]
theorem gsig : Statement (.gsig) :=
  of_body rfl fun h => by simp [decodeBody, decodeGraph, Bind.bind, Except.bind, -BitVec.extractLsb'_toNat]
theorem gdone : Statement (.gdone) :=
  of_body rfl fun h => by simp [decodeBody, decodeGraph, Bind.bind, Except.bind, -BitVec.extractLsb'_toNat]
theorem gadd (d a : Reg) : Statement (.gadd d a) :=
  of_body rfl fun h => by simp [decodeBody, decodeGraph, Bind.bind, Except.bind, -BitVec.extractLsb'_toNat]
theorem gqry (d a : Reg) (sel : BitVec 4) : Statement (.gqry d a sel) :=
  of_body rfl fun h => by simp [decodeBody, decodeGraph, check, h, F5.a, F5.b, Bind.bind, Except.bind, -BitVec.extractLsb'_toNat]
theorem copy (d b a : Reg) (ch : BitVec 2) : Statement (.copy d b a ch) :=
  of_body rfl fun h => by simp [decodeBody, decodeCopy, Bind.bind, Except.bind, -BitVec.extractLsb'_toNat]
theorem copyf (d b a c : Reg) (ch : BitVec 2) : Statement (.copyf d b a c ch) :=
  of_body rfl fun h => by simp [decodeBody, decodeCopy, Bind.bind, Except.bind, -BitVec.extractLsb'_toNat]
theorem cwait (ch : BitVec 2) (a : Reg) : Statement (.cwait ch a) :=
  of_body rfl fun h => by simp [decodeBody, decodeCopy, Bind.bind, Except.bind, -BitVec.extractLsb'_toNat]
theorem cstat (d : Reg) (ch : BitVec 2) : Statement (.cstat d ch) :=
  of_body rfl fun h => by simp [decodeBody, decodeCopy, Bind.bind, Except.bind, -BitVec.extractLsb'_toNat]
theorem cchk (ch : BitVec 2) (a : Reg) : Statement (.cchk ch a) :=
  of_body rfl fun h => by simp [decodeBody, decodeCopy, Bind.bind, Except.bind, -BitVec.extractLsb'_toNat]
theorem wreg (d : Reg) (th : BitVec 4) (a b : Reg) : Statement (.wreg d th a b) :=
  of_body rfl fun h => by simp [decodeBody, decodeWin, Bind.bind, Except.bind, -BitVec.extractLsb'_toNat]
theorem wdereg (a : Reg) : Statement (.wdereg a) :=
  of_body rfl fun h => by simp [decodeBody, decodeWin, Bind.bind, Except.bind, -BitVec.extractLsb'_toNat]
theorem put (th : BitVec 4) (a b c : Reg) (wid : BitVec 16) : Statement (.put th a b c wid) :=
  of_body rfl fun h => by simp [decodeBody, decodeWin, Bind.bind, Except.bind, -BitVec.extractLsb'_toNat]
theorem wwait (sel : WinSel) (a b : Reg) : Statement (.wwait sel a b) :=
  of_body rfl fun h => by simp [decodeBody, decodeWin, Bind.bind, Except.bind, -BitVec.extractLsb'_toNat]
theorem wcnt (sel : WinSel) (d a : Reg) : Statement (.wcnt sel d a) :=
  of_body rfl fun h => by simp [decodeBody, decodeWin, Bind.bind, Except.bind, -BitVec.extractLsb'_toNat]
theorem rstart (a : Reg) (e : BitVec 3) : Statement (.rstart a e) :=
  of_body rfl fun h => by simp [decodeBody, decodeRelay, Bind.bind, Except.bind, -BitVec.extractLsb'_toNat]
theorem rwait (a : Reg) (e : BitVec 3) : Statement (.rwait a e) :=
  of_body rfl fun h => by simp [decodeBody, decodeRelay, Bind.bind, Except.bind, -BitVec.extractLsb'_toNat]
theorem rstat (d : Reg) (e : BitVec 3) : Statement (.rstat d e) :=
  of_body rfl fun h => by simp [decodeBody, decodeRelay, Bind.bind, Except.bind, -BitVec.extractLsb'_toNat]
theorem rarbHbm (a : Reg) : Statement (.rarbHbm a) :=
  of_body rfl fun h => by simp [decodeBody, decodeRelay, Bind.bind, Except.bind, -BitVec.extractLsb'_toNat]
theorem rarbLink (a : Reg) : Statement (.rarbLink a) :=
  of_body rfl fun h => by simp [decodeBody, decodeRelay, Bind.bind, Except.bind, -BitVec.extractLsb'_toNat]
theorem mopen (mh : BitVec 4) (c a : Reg) (mode : HMode) : Statement (.mopen mh c a mode) :=
  of_body rfl fun h => by simp [decodeBody, decodeMoor, Bind.bind, Except.bind, -BitVec.extractLsb'_toNat]
theorem mopenw (mh : BitVec 4) (c a b : Reg) (mode : HMode) : Statement (.mopenw mh c a b mode) :=
  of_body rfl fun h => by simp [decodeBody, decodeMoor, Bind.bind, Except.bind, -BitVec.extractLsb'_toNat]
theorem mclose (mh : BitVec 4) : Statement (.mclose mh) :=
  of_body rfl fun h => by simp [decodeBody, decodeMoor, Bind.bind, Except.bind, -BitVec.extractLsb'_toNat]
theorem mbind (d a b : Reg) : Statement (.mbind d a b) :=
  of_body rfl fun h => by simp [decodeBody, decodeMoor, Bind.bind, Except.bind, -BitVec.extractLsb'_toNat]
theorem munbind (d a b : Reg) : Statement (.munbind d a b) :=
  of_body rfl fun h => by simp [decodeBody, decodeMoor, Bind.bind, Except.bind, -BitVec.extractLsb'_toNat]
theorem mqry (d a : Reg) (sel : BitVec 4) : Statement (.mqry d a sel) :=
  of_body rfl fun h => by simp [decodeBody, decodeMoor, check, h, F5.a, F5.b, Bind.bind, Except.bind, -BitVec.extractLsb'_toNat]
theorem dropen (off : BitVec 20) : Statement (.dropen off) :=
  of_body rfl fun h => by simp [decodeBody, decodeRel, Bind.bind, Except.bind, -BitVec.extractLsb'_toNat]
theorem drclose : Statement (.drclose) :=
  of_body rfl fun h => by simp [decodeBody, decodeRel, Bind.bind, Except.bind, -BitVec.extractLsb'_toNat]
theorem tell (n : BitVec 4) : Statement (.tell n) :=
  of_body rfl fun h => by simp [decodeBody, decodeRel, Bind.bind, Except.bind, -BitVec.extractLsb'_toNat]
theorem errq (d : Reg) (sel : BitVec 4) : Statement (.errq d sel) :=
  of_body rfl fun h => by simp [decodeBody, decodeRel, check, h, F5.a, F5.b, Bind.bind, Except.bind, -BitVec.extractLsb'_toNat]
theorem trap (code : BitVec 20) : Statement (.trap code) :=
  of_body rfl fun h => by simp [decodeBody, decodeSys, Bind.bind, Except.bind, -BitVec.extractLsb'_toNat]
theorem rfe : Statement (.rfe) :=
  of_body rfl fun h => by simp [decodeBody, decodeSys, Bind.bind, Except.bind, -BitVec.extractLsb'_toNat]
theorem rdsys (d : Reg) (r : BitVec 12) : Statement (.rdsys d r) :=
  of_body rfl fun h => by simp [decodeBody, decodeSys, check, h, F5.a, F5.b, Bind.bind, Except.bind, -BitVec.extractLsb'_toNat]
theorem wrsys (r : BitVec 12) (a : Reg) : Statement (.wrsys r a) :=
  of_body rfl fun h => by simp [decodeBody, decodeSys, check, h, F5.a, F5.b, Bind.bind, Except.bind, -BitVec.extractLsb'_toNat]
theorem brk (code : BitVec 20) : Statement (.brk code) :=
  of_body rfl fun h => by simp [decodeBody, decodeSys, Bind.bind, Except.bind, -BitVec.extractLsb'_toNat]
theorem evt (a : Reg) (code : BitVec 16) : Statement (.evt a code) :=
  of_body rfl fun h => by simp [decodeBody, decodeSys, Bind.bind, Except.bind, -BitVec.extractLsb'_toNat]
theorem blst (d : Reg) : Statement (.blst d) :=
  of_body rfl fun h => by simp [decodeBody, decodeSys, Bind.bind, Except.bind, -BitVec.extractLsb'_toNat]
theorem undefinedOpcode (op : BitVec 8) : Statement (.undefinedOpcode op) := by
  refine of_body rfl fun h => ?_
  revert h; revert op; decide
theorem instructionFetch : Statement (.instructionFetch) := of_none rfl
theorem sleepWake : Statement (.sleepWake) := of_none rfl
theorem loadStreamRow : Statement (.loadStreamRow) := of_none rfl
theorem storeStreamRow : Statement (.storeStreamRow) := of_none rfl
theorem streamRowGrant : Statement (.streamRowGrant) := of_none rfl
theorem memoryLoadLands : Statement (.memoryLoadLands) := of_none rfl
theorem memoryStorePerformed : Statement (.memoryStorePerformed) := of_none rfl
theorem renewalAnswer : Statement (.renewalAnswer) := of_none rfl
theorem kStep : Statement (.kStep) := of_none rfl
theorem handlerEnd : Statement (.handlerEnd) := of_none rfl
theorem arrivalDelivery : Statement (.arrivalDelivery) := of_none rfl
theorem tileSend : Statement (.tileSend) := of_none rfl
theorem tileIntoInbox : Statement (.tileIntoInbox) := of_none rfl
theorem bankExchange : Statement (.bankExchange) := of_none rfl
theorem barrierRelease : Statement (.barrierRelease) := of_none rfl
theorem flagwWake : Statement (.flagwWake) := of_none rfl
theorem publishTakesEffect : Statement (.publishTakesEffect) := of_none rfl
theorem publishEntryMerge : Statement (.publishEntryMerge) := of_none rfl
theorem horizonAging : Statement (.horizonAging) := of_none rfl
theorem promiseTimeReached : Statement (.promiseTimeReached) := of_none rfl
theorem launchAdmit : Statement (.launchAdmit) := of_none rfl
theorem nodeDispatch : Statement (.nodeDispatch) := of_none rfl
theorem nodeCompletion : Statement (.nodeCompletion) := of_none rfl
theorem copyPacketTake : Statement (.copyPacketTake) := of_none rfl
theorem copyPacketStep : Statement (.copyPacketStep) := of_none rfl
theorem copyTransferComplete : Statement (.copyTransferComplete) := of_none rfl
theorem cqnoteWrite : Statement (.cqnoteWrite) := of_none rfl
theorem cqwidxWrite : Statement (.cqwidxWrite) := of_none rfl
theorem cfailstClear : Statement (.cfailstClear) := of_none rfl
theorem relayStep : Statement (.relayStep) := of_none rfl
theorem mopenwWake : Statement (.mopenwWake) := of_none rfl
theorem leaseCacheExpiry : Statement (.leaseCacheExpiry) := of_none rfl
theorem leaseExpiryPublish : Statement (.leaseExpiryPublish) := of_none rfl
theorem changeRecordLapse : Statement (.changeRecordLapse) := of_none rfl
theorem leafUpdateStart : Statement (.leafUpdateStart) := of_none rfl
theorem leafUpdateCommit : Statement (.leafUpdateCommit) := of_none rfl
theorem migrationAssist : Statement (.migrationAssist) := of_none rfl
theorem syncBeat : Statement (.syncBeat) := of_none rfl
theorem inboundDataFlit : Statement (.inboundDataFlit) := of_none rfl
theorem doneFlit : Statement (.doneFlit) := of_none rfl
theorem nakFlit : Statement (.nakFlit) := of_none rfl
theorem idleFlit : Statement (.idleFlit) := of_none rfl
theorem linkDown : Statement (.linkDown) := of_none rfl
theorem linkRetrain : Statement (.linkRetrain) := of_none rfl
theorem syncFlitSend : Statement (.syncFlitSend) := of_none rfl
theorem peerCounterRead : Statement (.peerCounterRead) := of_none rfl
theorem windowLeaseRenewal : Statement (.windowLeaseRenewal) := of_none rfl
theorem qnoteWrite : Statement (.qnoteWrite) := of_none rfl
theorem hostFetchAdd : Statement (.hostFetchAdd) := of_none rfl
theorem launchPacket : Statement (.launchPacket) := of_none rfl
theorem copyreqPacket : Statement (.copyreqPacket) := of_none rfl
theorem signalPacket : Statement (.signalPacket) := of_none rfl
theorem fencePacket : Statement (.fencePacket) := of_none rfl
theorem badpkt : Statement (.badpkt) := of_none rfl
theorem queueSlotMap : Statement (.queueSlotMap) := of_none rfl
theorem sliceEnd : Statement (.sliceEnd) := of_none rfl
theorem preqWrite : Statement (.preqWrite) := of_none rfl
theorem preemptionStop : Statement (.preemptionStop) := of_none rfl
theorem drainWindowEnd : Statement (.drainWindowEnd) := of_none rfl
theorem smallStateExchange : Statement (.smallStateExchange) := of_none rfl
theorem lazyRegionSave : Statement (.lazyRegionSave) := of_none rfl
theorem lazyRegionReload : Statement (.lazyRegionReload) := of_none rfl
theorem prresRestore : Statement (.prresRestore) := of_none rfl
theorem prresDiscard : Statement (.prresDiscard) := of_none rfl
theorem prresFlush : Statement (.prresFlush) := of_none rfl
theorem contextRestore : Statement (.contextRestore) := of_none rfl
theorem saveAreaWriteback : Statement (.saveAreaWriteback) := of_none rfl
theorem halt : Statement (.halt) := of_none rfl
theorem resume : Statement (.resume) := of_none rfl
theorem step : Statement (.step) := of_none rfl
theorem attach : Statement (.attach) := of_none rfl
theorem release : Statement (.release) := of_none rfl
theorem holdTimeExpiry : Statement (.holdTimeExpiry) := of_none rfl
theorem ddataWrite : Statement (.ddataWrite) := of_none rfl
theorem breakpointMatch : Statement (.breakpointMatch) := of_none rfl
theorem hostWrite : Statement (.hostWrite) := of_none rfl
theorem hostRead : Statement (.hostRead) := of_none rfl
theorem registerWrite : Statement (.registerWrite) := of_none rfl
theorem partitionConfigure : Statement (.partitionConfigure) := of_none rfl
theorem coldReset : Statement (.coldReset) := of_none rfl
theorem warmReset : Statement (.warmReset) := of_none rfl
theorem rateUpdate : Statement (.rateUpdate) := of_none rfl
theorem powerMeasurement : Statement (.powerMeasurement) := of_none rfl
theorem spdmRequest : Statement (.spdmRequest) := of_none rfl
theorem pldmRequest : Statement (.pldmRequest) := of_none rfl
theorem flashUpdate : Statement (.flashUpdate) := of_none rfl
theorem softError : Statement (.softError) := of_none rfl

end Sys2Proof.Laws.Encodes
end

