-- ==== Sys2Proof/Safety.lean ====
section
/-! DEFINITION. What a safe run is: a step that answers a next state, and memories in canonical form; and the vocabulary of the
statements: what an instruction reads, writes and leaves alone. -/

namespace Sys2Proof.Machine

/-- The step goes on. -/
def State.goesOn (s : State) : Prop := ∃ t, step s = .next t

/-- Every memory of the device is in its one canonical form. -/
abbrev State.memWf (s : State) : Prop :=
  Memory.wf s.mem = true ∧ Memory.wf s.spad = true ∧ Memory.wf s.banks = true

/-- Every byte of memory, of every scratchpad and of every weight bank reads as before: memory as every possible reader sees it, the
scratchpads and banks as they stand. -/
def SameBytes (s t : State) : Prop :=
  (∀ vw a, t.loadByte vw a = s.loadByte vw a) ∧ (∀ vw fl a, t.byteAt vw fl a = s.byteAt vw fl a) ∧
  (∀ c a, t.spadNow c a 1 = s.spadNow c a 1) ∧ (∀ c b a, t.bankNow c b a 1 = s.bankNow c b a 1)

/-- No write stands in the granules of some bytes of a scratchpad that nothing orders before a path (R245). -/
abbrev State.noneLate (s : State) (p : Path) (cell a n : Nat) : Prop :=
  ∀ k ∈ granulesOf (spadKey cell a) n, ∀ g ∈ tfind s.late k, ∀ w ∈ g.ws, w.shown p = true

/-- Bytes are written to a scratchpad through a path: they stand there, where no write unordered with them does (R245), and no other
byte of a scratchpad changes. -/
def SpadWritten (s t : State) (p : Path) (cell a : Nat) (bs : List Byte) : Prop :=
  (s.noneLate p cell a bs.length → t.spadNow cell a bs.length = bs) ∧
  ∀ c b, b < 2 ^ 21 → (c ≠ cell ∨ b < a ∨ a + bs.length ≤ b) → t.spadNow c b 1 = s.spadNow c b 1

/-- Everything outside the contexts is as before, every context but that of the executing thread too, and every byte. -/
def OnlyMine (s t : State) : Prop :=
  t = { s with ctxs := t.ctxs, iss := t.iss } ∧ t.iss.src = s.iss.src ∧ (∀ n, n ≠ s.iss.src → t.ctx n = s.ctx n) ∧ SameBytes s t

/-- The same but for the thread's trace, to which records may be appended where tracing is on (R404). -/
def MineAndTrace (s t : State) : Prop :=
  t = { s with ctxs := t.ctxs, iss := t.iss, vers := t.vers, seq := t.seq, choices := t.choices, dbgs := t.dbgs } ∧
  t.iss.src = s.iss.src ∧ (∀ n, n ≠ s.iss.src → t.ctx n = s.ctx n) ∧ ((s.dbg s.iss.src).trlen = 0 → OnlyMine s t)

/-- The instruction completes in every state: the scalar `d` names holds `v`, unless it is `s0`, and nothing else changes. -/
def WritesReg (i : Instr) (d : Reg) (v : State → Word) : Prop :=
  ∀ s, ∃ t, exec i s = .next t ∧ OnlyMine s t ∧ t.iss = s.iss ∧
    t.me = { s.me with regs := t.me.regs } ∧
    (d ≠ 0 → t.me.reg (physReg s.iss.rrb d) = v s) ∧
    ∀ r, d = 0 ∨ r ≠ physReg s.iss.rrb d → t.me.reg r = s.me.reg r

/-- The same where a condition on the state holds. -/
def WritesRegIf (ok : State → Prop) (i : Instr) (d : Reg) (v : State → Word) : Prop :=
  ∀ s, ok s → ∃ t, exec i s = .next t ∧ OnlyMine s t ∧ t.iss = s.iss ∧
    t.me = { s.me with regs := t.me.regs } ∧
    (d ≠ 0 → t.me.reg (physReg s.iss.rrb d) = v s) ∧
    ∀ r, d = 0 ∨ r ≠ physReg s.iss.rrb d → t.me.reg r = s.me.reg r

/-- The instruction completes in every state: predicate `p` holds `v`, unless it is `p0`, and nothing else changes. -/
def WritesPred (i : Instr) (p : BitVec 3) (v : State → Bool) : Prop :=
  ∀ s, ∃ t, exec i s = .next t ∧ OnlyMine s t ∧ t.iss = s.iss ∧
    t.me = { s.me with preds := t.me.preds } ∧ t.me.pred 0 = true ∧
    (p ≠ 0 → t.me.pred p = v s) ∧ ∀ q, p = 0 ∨ q ≠ p → t.me.pred q = s.me.pred q

/-- The instruction completes in every state in which `ok` holds; the thread's context becomes `f` of what it was, and nothing
else changes but how the issue ends. -/
def ChangesMe (ok : State → Prop) (i : Instr) (f : State → Ctx → Ctx) : Prop :=
  ∀ s, ok s → ∃ t, exec i s = .next t ∧ OnlyMine s t ∧ t.me = f s s.me

/-- The immediate of R55: IMM32 sign-extended, or below the word of an `XTND`. -/
def immWord (x : Option W32) (i : W32) : Word :=
  match x with
  | some h => h ++ i
  | none => i.signExtend 64

/-- PC + 8 × Sext(OFF32). -/
def relTarget (pc : Word) (off : W32) : Word := pc + 8 * off.signExtend 64

/-- The count of a loop word: bits [31:0] of its register. -/
def State.loopCount (s : State) (a : Reg) : Nat := (s.scalar a).toNat % 2 ^ 32

/-- The entry a loop word pushes (R64), with the count it starts at. -/
def loopEntry (pc : Word) (off : W32) (n : Nat) (stages : Option Nat) : LoopE :=
  ⟨pc + 8, relTarget pc off, n, pc.extractLsb' 3 12, stages, n⟩

/-- The address lies in memory: HBM, interleaved HBM or host memory. -/
abbrev memoryAt (pa : Nat) : Prop := paKind pa = .hbm ∨ paKind pa = .inter ∨ paKind pa = .host

/-- The checks of R84 and R267 pass for an access of `n` bytes at an offset from a tether's anchor. -/
abbrev State.tethUsable (s : State) (th : BitVec 4) (off : Int) (n : Nat) (write stream : Bool) : Prop :=
  let t := s.me.teth th
  let a : Int := t.anchor + off
  t.stat = .ok ∧ s.keel < t.exp ∧ (t.pbase : Int) ≤ a ∧ a + n ≤ (t.pbase : Int) + pageSize t.sz ∧
    (write = true → t.w = true) ∧ (t.lc ≠ 3 ∨ stream = true)

/-- An access of `n` bytes at `x` of the thread's scratchpad is in range (R77) and its regions are not to be saved or reloaded
first (R348). -/
abbrev State.spadUsable (s : State) (x n : Nat) : Prop :=
  x + n ≤ 0x180000 ∧ ∀ r ∈ regionsOf x n, s.regionBusy s.myCell (s.teamKey s.iss.src) r = none

/-- The regions are not to be saved or reloaded before `key` uses them (R348). -/
abbrev State.regionsFree (s : State) (cell key : Nat) (rs : List Nat) : Prop := ∀ r ∈ rs, s.regionBusy cell key r = none

/-- The retain slot that a tile sent from position `i` takes may be written (R348). -/
abbrev State.keepFree (s : State) (r : Str) (i : Nat) : Prop :=
  ∀ p ∈ r.pos? i, s.regionsFree p.cell (s.teamKey p.src) (r.keepRegions p)

/-- Everything outside the contexts and the bookkeeping of regions, counts and waits is as before, and every byte of memory. -/
def KeepsBytes (s t : State) : Prop :=
  t.mem = s.mem ∧ t.spad = s.spad ∧ t.banks = s.banks ∧ t.late = s.late ∧ t.lateB = s.lateB ∧ SameBytes s t

/-- Only the thread's own context may have changed. -/
def OthersKept (s t : State) (src : Nat) : Prop := ∀ n, n ≠ src → t.ctx n = s.ctx n

-- Atomics.

/-- The atomics through a tether, each with what it writes for the old value and its operand; none where it writes nothing (R86). -/
abbrev amoOps (f : AmoF) (c : Reg) (s : State) : List (Instr × ((w : Nat) → BitVec w → BitVec w → Option (BitVec w))) :=
  [(.amoAdd f, fun _ o b => some (o + b)), (.amoMin f, fun _ o b => some (if o.toInt < b.toInt then o else b)),
    (.amoMax f, fun _ o b => some (if o.toInt < b.toInt then b else o)),
    (.amoMinu f, fun _ o b => some (if o.toNat < b.toNat then o else b)),
    (.amoMaxu f, fun _ o b => some (if o.toNat < b.toNat then b else o)),
    (.amoAnd f, fun _ o b => some (o &&& b)), (.amoOr f, fun _ o b => some (o ||| b)), (.amoXor f, fun _ o b => some (o ^^^ b)),
    (.amoSwap f, fun _ _ b => some b), (.amoCas f c, fun w o b => if o = (s.scalar c).setWidth w then some b else none)]

/-- The atomics on the scratchpad. -/
abbrev amosOps (f : AmosF) (c : Reg) (s : State) : List (Instr × ((w : Nat) → BitVec w → BitVec w → Option (BitVec w))) :=
  [(.amosAdd f, fun _ o b => some (o + b)), (.amosMin f, fun _ o b => some (if o.toInt < b.toInt then o else b)),
    (.amosMax f, fun _ o b => some (if o.toInt < b.toInt then b else o)),
    (.amosMinu f, fun _ o b => some (if o.toNat < b.toNat then o else b)),
    (.amosMaxu f, fun _ o b => some (if o.toNat < b.toNat then b else o)),
    (.amosAnd f, fun _ o b => some (o &&& b)), (.amosOr f, fun _ o b => some (o ||| b)), (.amosXor f, fun _ o b => some (o ^^^ b)),
    (.amosSwap f, fun _ _ b => some b), (.amosCas f c, fun w o b => if o = (s.scalar c).setWidth w then some b else none)]

-- Execute instructions.

/-- The queue slots an execute instruction reads: of A a group of `g`, of B one. -/
def queueNeeds (g : Nat) (a : Opnd) (b : Option Opnd) : List (BitVec 2 × Nat × Bool) :=
  ((srcOf a).bind (srcNeed g)).toList ++ ((b.bind srcOf).bind (srcNeed 1)).toList

/-- The operands are there (R23 to R25, R37, R333): the queue slots read are filled, those to push are free and it is the
instruction's turn, a held operand is latched, and nothing read is poisoned. -/
abbrev State.opsReady (s : State) (g : Nat) (a : Opnd) (b : Option Opnd) (also : Option Dst) (push : List (BitVec 2 × Nat)) : Prop :=
  (∀ e ∈ queueNeeds g a b, needOf (queueNeeds g a b) e.1 ≤ (s.me.lq e.1).filled s.keel) ∧
  (∀ p ∈ push, s.canPush p.1 p.2 = true) ∧ (a = .held → s.me.latchA ≠ none) ∧ (b = some .held → s.me.latchB ≠ none) ∧
  (∀ x ∈ srcOf a, ∀ i, i < g → s.vecPoisoned i x = false) ∧ (∀ x ∈ b.bind srcOf, s.vecPoisoned 0 x = false) ∧
  (∀ d ∈ also, s.gridPoisoned d = false)

/-- Vector `i` of an operand: what its latch holds, or what its source reads. -/
def State.opndVec (s : State) (w i : Nat) (held : Option Latch) : Opnd → Row
  | .held => (held.map (·.row)).getD 0
  | .from x => s.vecOf w i x

/-- What every execute instruction leaves after reading its operands: the queues popped that it pops, the latches holding the last
vectors read, and only the grid, the masks, the queues, the latches and NFLAGS of its thread changed. -/
def OpsTaken (s t : State) (g w wb : Nat) (a : Opnd) (b : Option Opnd) : Prop :=
  t = { s with ctxs := t.ctxs, psnGrid := t.psnGrid } ∧ OthersKept s t s.iss.src ∧
  t.me = { s.me with
    grid := t.me.grid, masks := t.me.masks, lqs := t.me.lqs, sqs := t.me.sqs, latchA := t.me.latchA, latchB := t.me.latchB
    nflags := t.me.nflags } ∧
  (∀ q, (t.me.lq q).slots = (s.me.lq q).slots.drop (popOf (queueNeeds g a b) q)) ∧
  t.me.latchA = ((srcOf a).map fun x => s.latchOf w g x).orElse (fun _ => s.me.latchA) ∧
  t.me.latchB = ((b.bind srcOf).map fun x => s.latchOf wb 1 x).orElse (fun _ => s.me.latchB)

/-- The store queues pushed to are the only ones changed. -/
def PushesOnly (s t : State) (qs : List (BitVec 2)) : Prop := ∀ q, q ∉ qs → t.me.sq q = s.me.sq q

/-- A vector `v` of 48 words is written to a destination (R36, R121): included lanes take its words; an excluded lane is zero, or
keeps its old word where `LANE` merges; a queue takes one new slot. No other word of the grid changes. -/
def WritesVec (s t : State) (d : Dst) (v : Nat → W32) : Prop :=
  match d with
  | .queue q => t.me.grid = s.me.grid ∧ PushesOnly s t [q] ∧ ∃ r : Row, (t.me.sq q).slots = (s.me.sq q).slots ++ [⟨r, false, none, false, s.keel + 1⟩] ∧
      ∀ j, j < 48 → rowWord r j = if s.lanes.getLsbD j then v j else 0
  | _ =>
    PushesOnly s t [] ∧
    (∀ j, j < 48 → let p := gridAt s.iss.rrb d j
      p.1 < 48 → p.2 < 48 → rowWord (t.me.row p.1) p.2 =
        if s.lanes.getLsbD j then v j
        else if (s.iss.lane.map (·.merge)) = some true then rowWord (s.me.row p.1) p.2 else 0) ∧
    (∀ r c, r < 48 → c < 48 → (∀ j, j < 48 → gridAt s.iss.rrb d j ≠ (r, c)) → rowWord (t.me.row r) c = rowWord (s.me.row r) c)

/-- The execute instruction completes wherever its operands are there: element by element the results of `f` (code and flags) on
the elements of its operands, in its destination, and the flags of the elements in included lanes are ORed into NFLAGS. -/
def VectorOp (i : Instr) (a : Opnd) (b : Option Opnd) (also : Option Dst) (od : Dst) (wIn wOut : Nat)
    (f : State → Row → Row → List (Nat × NFlags)) : Prop :=
  ∀ s : State, s.opsReady 1 a b also (if also = none then pushesOf od else []) →
    let r := f s (s.opndVec wIn 0 s.me.latchA a) (b.elim 0 fun x => s.opndVec wIn 0 s.me.latchB x)
    ∃ t, exec i s = .next t ∧ OpsTaken s t 1 wIn wIn a b ∧ t.me.masks = s.me.masks ∧
      WritesVec s t od (rowWord (ofElems wOut (r.map (·.1)))) ∧ t.me.nflags = s.me.nflags ||| flagsIn s.lanes wOut r

-- The tensor unit.

/-- The regions an operand's stored rows lie in are not to be saved or reloaded first (R348). -/
abbrev State.opUsable (s : State) (f : MFmt) (t : Bool) (d : Nat) : OpAt → Prop
  | .grid => True
  | .spad row => ∀ p ∈ opRanges f t d row, ∀ r ∈ regionsOf p.1.toNat p.2, s.regionBusy s.myCell (s.teamKey s.iss.src) r = none
  | .bank b _ => s.regionBusy s.myCell (s.teamKey s.iss.src) (24 + b2n b) = none

/-- The column's bucket holds `n` tokens and no other step waits before this one (R355). -/
abbrev State.tokensFor (s : State) (n : Nat) : Prop :=
  let col := s.iss.src / 4 % 64
  16 * n ≤ min (2 ^ 20) ((s.col col).tok + (s.col col).rate * (s.keel - (s.col col).at_)) ∧
  ∀ x ∈ (s.colWaits col).head?, x = s.iss.src

/-- `n` tokens have left the column's bucket. -/
def TokensSpent (s t : State) (n : Nat) : Prop :=
  let c := s.col (s.iss.src / 4 % 64)
  (t.col (s.iss.src / 4 % 64)).tok = min (2 ^ 20) (c.tok + c.rate * (s.keel - c.at_)) - 16 * n ∧
  (t.col (s.iss.src / 4 % 64)).at_ = s.keel

/-- The accumulator as an `MMA` finds it: as it stands where the instruction has begun, else zeroed where Z says so, with PROG 0 and
the K-steps counted (R148). -/
def State.mmaStart (s : State) (f : MmaF) : Acc :=
  let a := s.me.acc f.acc
  if a.begun then a
  else { a with
    rows := if f.z then Vector.replicate 48 0 else a.rows
    prog := 0, begun := true, cnt := if f.ks = 0 then (s.scalar 1).toNat % 65536 else f.ks.toNat }

/-- The thread has just the accumulator `a` changed, and NFLAGS, and its wait for tokens is over. -/
def SetsAcc (s t : State) (a : BitVec 2) (v : Acc) (fl : NFlags) : Prop :=
  OthersKept s t s.iss.src ∧ t.iss.src = s.iss.src ∧
  t.me = { s.me with accs := t.me.accs, nflags := s.me.nflags ||| fl, qwaits := t.me.qwaits } ∧
  t.me.acc a = v ∧ (∀ b, b ≠ a → t.me.acc b = s.me.acc b)

-- The wave array.

/-- A tile has been sent from position `i` of string `r` (R189, R198): the lowest free retain slot keeps it, its bytes stand there, and
it is the last of the link buffer into the next position, or for an admission into the edge itself. A MARK, which has no tile, is not
kept (log 64). -/
def TileSent (s t : State) (r : Str) (up admitTile : Bool) (i : Nat) (tile : Tile) : Prop :=
  ∃ r' p k, t.str r.part r.id = some r' ∧ r.pos? i = some p ∧ freeSlot r.hdr.nr (p.kept.map (·.1)) = some k ∧
    (r'.pos? i).map (·.kept) = some (if tile.tag.kind = 4 then p.kept else p.kept ++ [(k, tile)]) ∧
    (let j := r.nextPos up admitTile i
     (r'.pos? j).map (·.link up) = (r.pos? j).map fun q => q.link up ++ [⟨tile, i, k⟩]) ∧
    SpadWritten s t (s.pathV p.src) p.cell (p.retain + k * r.hdr.size) tile.bytes ∧ r'.hdr = r.hdr

end Sys2Proof.Machine
end

