-- ==== Sys2Proof/Certificates/Slice0/Obligations.lean ====
section
/-! DEFINITION. The statements for the provers, by chapter of the manual. Each says for what states and operands an instruction or event
answers a next state, what that state holds, and what it leaves alone. -/

open Sys2Proof Sys2Proof.Machine

-- Scalar instructions (02, 04).

/-- R53: what the ALU instructions write, and that they write nothing else. R54: division never traps; its results by zero and at
signed overflow, and otherwise the quotient rounded toward zero and the remainder with the sign of a. -/
def Obligations.AluResults : Prop :=
  (∀ (d a b c : Reg) (p : BitVec 3) (n : BitVec 2),
    WritesReg (.add d a b) d (fun s => s.scalar a + s.scalar b) ∧
    WritesReg (.sub d a b) d (fun s => s.scalar a - s.scalar b) ∧
    WritesReg (.mul d a b) d (fun s => s.scalar a * s.scalar b) ∧
    WritesReg (.mulh d a b) d (fun s => BitVec.ofInt 64 ((s.scalar a).toInt * (s.scalar b).toInt / 2 ^ 64)) ∧
    WritesReg (.mulhu d a b) d (fun s => BitVec.ofNat 64 ((s.scalar a).toNat * (s.scalar b).toNat / 2 ^ 64)) ∧
    WritesReg (.and d a b) d (fun s => s.scalar a &&& s.scalar b) ∧
    WritesReg (.or d a b) d (fun s => s.scalar a ||| s.scalar b) ∧
    WritesReg (.xor d a b) d (fun s => s.scalar a ^^^ s.scalar b) ∧
    WritesReg (.andn d a b) d (fun s => s.scalar a &&& ~~~(s.scalar b)) ∧
    WritesReg (.shl d a b) d (fun s => s.scalar a <<< ((s.scalar b).extractLsb' 0 6).toNat) ∧
    WritesReg (.shr d a b) d (fun s => s.scalar a >>> ((s.scalar b).extractLsb' 0 6).toNat) ∧
    WritesReg (.sra d a b) d (fun s => (s.scalar a).sshiftRight ((s.scalar b).extractLsb' 0 6).toNat) ∧
    WritesReg (.rot d a b) d (fun s => (s.scalar a).rotateRight ((s.scalar b).extractLsb' 0 6).toNat) ∧
    WritesReg (.min d a b) d (fun s => if (s.scalar a).toInt < (s.scalar b).toInt then s.scalar a else s.scalar b) ∧
    WritesReg (.max d a b) d (fun s => if (s.scalar a).toInt < (s.scalar b).toInt then s.scalar b else s.scalar a) ∧
    WritesReg (.minu d a b) d (fun s => if (s.scalar a).toNat < (s.scalar b).toNat then s.scalar a else s.scalar b) ∧
    WritesReg (.maxu d a b) d (fun s => if (s.scalar a).toNat < (s.scalar b).toNat then s.scalar b else s.scalar a) ∧
    WritesReg (.clz d a) d (fun s =>
      BitVec.ofNat 64 ((List.range 64).takeWhile fun k => !((s.scalar a).getLsbD (63 - k))).length) ∧
    WritesReg (.popc d a) d (fun s => BitVec.ofNat 64 ((List.range 64).filter fun k => (s.scalar a).getLsbD k).length) ∧
    WritesReg (.madd d a b c) d (fun s => s.scalar a * s.scalar b + s.scalar c) ∧
    WritesReg (.sel d a b p) d (fun s => if s.me.pred p then s.scalar a else s.scalar b) ∧
    WritesReg (.addx d a b n) d (fun s => s.scalar a + (s.scalar b <<< n.toNat))) ∧
  (∀ d a b : Reg,
    WritesReg (.div d a b) d (fun s => if s.scalar b = 0 then BitVec.allOnes 64
      else BitVec.ofInt 64 ((s.scalar a).toInt.tdiv (s.scalar b).toInt)) ∧
    WritesReg (.divu d a b) d (fun s => if s.scalar b = 0 then BitVec.allOnes 64
      else BitVec.ofNat 64 ((s.scalar a).toNat / (s.scalar b).toNat)) ∧
    WritesReg (.rem d a b) d (fun s => if s.scalar b = 0 then s.scalar a
      else BitVec.ofInt 64 ((s.scalar a).toInt.tmod (s.scalar b).toInt)) ∧
    WritesReg (.remu d a b) d (fun s => if s.scalar b = 0 then s.scalar a
      else BitVec.ofNat 64 ((s.scalar a).toNat % (s.scalar b).toNat)))

/-- R53, R55: the immediate forms. The immediate is the sign-extended IMM32, or the two words of an `XTND` chain. -/
def Obligations.ImmediateResults : Prop :=
  ∀ (d a : Reg) (i : W32) (k : BitVec 6),
    WritesReg (.addi d a i) d (fun s => s.scalar a + immWord s.iss.xtnd i) ∧
    WritesReg (.andi d a i) d (fun s => s.scalar a &&& immWord s.iss.xtnd i) ∧
    WritesReg (.ori d a i) d (fun s => s.scalar a ||| immWord s.iss.xtnd i) ∧
    WritesReg (.xori d a i) d (fun s => s.scalar a ^^^ immWord s.iss.xtnd i) ∧
    WritesReg (.shli d a k) d (fun s => s.scalar a <<< k.toNat) ∧
    WritesReg (.shri d a k) d (fun s => s.scalar a >>> k.toNat) ∧
    WritesReg (.srai d a k) d (fun s => (s.scalar a).sshiftRight k.toNat) ∧
    WritesReg (.roti d a k) d (fun s => (s.scalar a).rotateRight k.toNat) ∧
    WritesReg (.li d i) d (fun s => immWord s.iss.xtnd i) ∧
    WritesReg (.liz d i) d (fun _ => 0#32 ++ i) ∧
    WritesReg (.lih d i) d (fun s => i ++ (s.scalar d).extractLsb' 0 32)

/-- R57: the compares and the predicate logic; a write to `p0` is discarded, and `p0` reads 1. -/
def Obligations.CompareResults : Prop :=
  ∀ (p x y : BitVec 3) (a b : Reg) (i : W32),
    WritesPred (.cmpEq p a b) p (fun s => decide (s.scalar a = s.scalar b)) ∧
    WritesPred (.cmpNe p a b) p (fun s => decide (s.scalar a ≠ s.scalar b)) ∧
    WritesPred (.cmpLt p a b) p (fun s => decide ((s.scalar a).toInt < (s.scalar b).toInt)) ∧
    WritesPred (.cmpLe p a b) p (fun s => decide ((s.scalar a).toInt ≤ (s.scalar b).toInt)) ∧
    WritesPred (.cmpLtu p a b) p (fun s => decide ((s.scalar a).toNat < (s.scalar b).toNat)) ∧
    WritesPred (.cmpLeu p a b) p (fun s => decide ((s.scalar a).toNat ≤ (s.scalar b).toNat)) ∧
    WritesPred (.cmpiEq p a i) p (fun s => decide (s.scalar a = immWord s.iss.xtnd i)) ∧
    WritesPred (.cmpiNe p a i) p (fun s => decide (s.scalar a ≠ immWord s.iss.xtnd i)) ∧
    WritesPred (.cmpiLt p a i) p (fun s => decide ((s.scalar a).toInt < (immWord s.iss.xtnd i).toInt)) ∧
    WritesPred (.cmpiLe p a i) p (fun s => decide ((s.scalar a).toInt ≤ (immWord s.iss.xtnd i).toInt)) ∧
    WritesPred (.cmpiLtu p a i) p (fun s => decide ((s.scalar a).toNat < (immWord s.iss.xtnd i).toNat)) ∧
    WritesPred (.cmpiLeu p a i) p (fun s => decide ((s.scalar a).toNat ≤ (immWord s.iss.xtnd i).toNat)) ∧
    WritesPred (.pand p x y) p (fun s => s.me.pred x && s.me.pred y) ∧
    WritesPred (.por p x y) p (fun s => s.me.pred x || s.me.pred y) ∧
    WritesPred (.pxor p x y) p (fun s => s.me.pred x != s.me.pred y) ∧
    WritesPred (.pandn p x y) p (fun s => s.me.pred x && !(s.me.pred y))

/-- R58 to R60: the moves between scalars, predicates, the Keel and the grid, `VGET` and `VPUT` once the thread's execute instructions
(and for `VPUT` its reads of grid rows by the tensor unit) are done. `VGET` of a poisoned granule is not this case (R333). -/
def Obligations.MoveResults : Prop :=
  ∀ (d a g l : Reg), g.toNat < 48 → l.toNat < 48 →
    WritesReg (.mov d a) d (fun s => s.scalar a) ∧
    WritesReg (.pget d) d (fun s => BitVec.ofNat 64
      ((List.range 8).map fun k => if s.me.pred (BitVec.ofNat 3 k) then 2 ^ k else 0).sum) ∧
    WritesReg (.keel d) d (fun s => BitVec.ofNat 64 s.keel) ∧
    WritesRegIf (fun s => s.me.bufE = [] ∧ (s.iss.src, (physRow s.iss.rrb g).toNat, l.toNat / 8) ∉ s.psnGrid)
      (.vget d g l) d (fun s => 0#32 ++ rowWord (s.me.row (physRow s.iss.rrb g).toNat) l.toNat) ∧
    ChangesMe (fun _ => True) (.pput a) (fun s c => { c with preds := (s.scalar a).extractLsb' 1 7 ++ 1#1 }) ∧
    (∀ s, s.me.bufE = [] → (∀ e ∈ s.me.bufT, ∀ f, e.instr = .mma f → f.a ≠ .grid) →
      ∃ t, exec (.vput g a l) s = .next t ∧ OnlyMine s t ∧ t.iss = s.iss ∧ t.me = { s.me with grid := t.me.grid } ∧
        ∀ i j, i < 48 → j < 48 → rowWord (t.me.row i) j =
          if i = (physRow s.iss.rrb g).toNat ∧ j = l.toNat then (s.scalar a).extractLsb' 0 32 else rowWord (s.me.row i) j)

/-- R30, R61: where the branches go; a register target that is no multiple of 8 is ILLEGAL. -/
def Obligations.BranchTargets : Prop :=
  ∀ (a : Reg) (off : W32),
    ChangesMe (fun _ => True) (.br off) (fun s c => { c with pc := relTarget s.me.pc off }) ∧
    ChangesMe (fun _ => True) (.call off) (fun s c => { c with pc := relTarget s.me.pc off, regs := c.regs.set 62 (c.pc + 8) }) ∧
    ChangesMe (fun s => (s.scalar a).toNat % 8 = 0) (.jmp a) (fun s c => { c with pc := s.scalar a }) ∧
    ChangesMe (fun s => (s.scalar a).toNat % 8 = 0) (.ret a) (fun s c => { c with pc := s.scalar a }) ∧
    ChangesMe (fun s => (s.scalar a).toNat % 8 = 0) (.callr a)
      (fun s c => { c with pc := s.scalar a, regs := c.regs.set 62 (c.pc + 8) }) ∧
    ∀ s : State, (s.scalar a).toNat % 8 ≠ 0 →
      exec (.jmp a) s = .next (s.fatal .illegal) ∧ exec (.ret a) s = .next (s.fatal .illegal) ∧
      exec (.callr a) s = .next (s.fatal .illegal)

/-- R64, R67, R69: the loop instructions where they complete. A loop of count 0 continues after its end, whatever the depth of the
stack; else its entry is pushed, a fifth one being ILLEGAL, and a `LOOPP` sets RRB and its stage predicates. `LBRK` pops; `LNEXT`
decides the back edge of the top entry. -/
def Obligations.LoopEffects : Prop :=
  ∀ (a : Reg) (off : W32) (m : BitVec 3),
    ChangesMe (fun s => s.loopCount a = 0) (.loop a off)
      (fun s c => { c with pc := relTarget s.me.pc off + 8 }) ∧
    ChangesMe (fun s => s.me.loops.length < 4 ∧ s.loopCount a ≠ 0) (.loop a off)
      (fun s c => { c with loops := loopEntry s.me.pc off (s.loopCount a) none :: c.loops }) ∧
    ChangesMe (fun s => s.me.inLoopp = false ∧ s.loopCount a = 0) (.loopp a m off)
      (fun s c => { c with pc := relTarget s.me.pc off + 8 }) ∧
    (m ≠ 7 → ∀ s, s.me.loops.length < 4 → s.me.inLoopp = false → s.loopCount a ≠ 0 →
      ∃ t, exec (.loopp a m off) s = .next t ∧ OnlyMine s t ∧
      t.me = { s.me with
        loops := loopEntry s.me.pc off (s.loopCount a + m.toNat) (some m.toNat) :: s.me.loops, rrb := 0, preds := t.me.preds } ∧
      ∀ q : BitVec 3, t.me.pred q =
        if q = 0 ∨ q = 1 then true else if q.toNat ≤ m.toNat + 1 then false else s.me.pred q) ∧
    (∀ s, 4 ≤ s.me.loops.length → s.loopCount a ≠ 0 →
      exec (.loop a off) s = .next (s.fatal .illegal) ∧ exec (.loopp a m off) s = .next (s.fatal .illegal)) ∧
    (∀ s, s.me.inLoopp = true → exec (.loopp a m off) s = .next (s.fatal .illegal)) ∧
    (∀ s, s.me.loops = [] → exec .lbrk s = .next (s.fatal .illegal) ∧ exec .lnext s = .next (s.fatal .illegal)) ∧
    (∀ s e rest, s.me.loops = e :: rest → ∃ t, exec .lbrk s = .next t ∧ MineAndTrace s t ∧
      t.me = { s.me with loops := rest, pc := e.last + 8 }) ∧
    (∀ s e rest, s.me.loops = e :: rest → e.stages = none → 1 < e.count → ∃ t, exec .lnext s = .next t ∧ OnlyMine s t ∧
      t.me = { s.me with loops := { e with count := e.count - 1 } :: rest, pc := e.start }) ∧
    (∀ s e rest k, s.me.loops = e :: rest → e.stages = some k → k < 7 → 1 < e.count → s.me.haltWait = false →
      s.me.stepping = false → s.me.bpWait = none → ∃ t, exec .lnext s = .next t ∧ OnlyMine s t ∧
      t.me = { s.me with loops := { e with count := e.count - 1 } :: rest, pc := e.start, rrb := s.me.rrb + 15, preds := t.me.preds } ∧
      ∀ q : BitVec 3, t.me.pred q =
        if q = 0 then true else if q = 1 then decide (k < e.count - 1)
        else if q.toNat ≤ k + 1 then s.me.pred (q - 1) else s.me.pred q) ∧
    (∀ s e rest, s.me.loops = e :: rest → e.count ≤ 1 → (∀ o ∈ rest.head?, o.last ≠ e.last) → e.stages = none →
      ∃ t, exec .lnext s = .next t ∧ MineAndTrace s t ∧
      t.me = { s.me with loops := rest, pc := e.last + 8 })

-- Phases, publishing, flags and teams (10).

/-- R167, R177: `PHASE`, and `PHASEB` of a thread in no team, are Boundary(scope): every store of the thread is published at the
scope, and a new phase starts stamped (Keel, source). Nothing else changes; no byte of memory moves. -/
def Obligations.PhaseBoundary : Prop :=
  ∀ (s : State) (sc : Scope) (i : Instr), i = .phase sc ∨ (i = .phaseb sc ∧ s.me.team = none ∧ s.me.arrived = 0) →
    s.mayBound sc = true → ∃ t, exec i s = .next t ∧ t = { s with ctxs := t.ctxs, vers := t.vers } ∧
      (∀ n, n ≠ s.iss.src → t.ctx n = s.ctx n) ∧
      t.me = { s.me with hzn := ⟨s.keel, s.iss.src⟩, phase := s.me.phase + 1, lastB := s.keel + 1 } ∧
      t.vers.map (fun v => (v.seq, v.src, v.cells)) = s.vers.map (fun v => (v.seq, v.src, v.cells)) ∧
      (∀ v ∈ t.vers, v.src = s.iss.src → v.dead = false → ∃ p ∈ v.pubs, scopeLe sc p.1 = true) ∧
      ∀ v ∈ s.vers, v.src ≠ s.iss.src → v ∈ t.vers

/-- R178, R179: the team barrier. A member's `PHASEB` publishes and arrives, and waits; when every participant has arrived the barrier
releases them all in a new phase and counts the episode; and then `PHASEB` completes. A thread that an unwind or a discard took out of
its `PHASEB` keeps its arrival, so its next `PHASEB` is the one that waits or completes: the model's choice (log 54). R164, R182,
R183: joining, leaving and asking a team. The index given is the lowest that no member holds; a member of a team gets all ones; the
ids of the ready pool are ILLEGAL to join (R220). -/
def Obligations.Teams : Prop :=
  ((∀ (s : State) (sc : Scope), s.me.arrived = 2 → ∃ t, exec (.phaseb sc) s = .next t ∧ OnlyMine s t ∧ t.iss = s.iss ∧
    t.me = { s.me with arrived := 0 }) ∧
  (∀ (s : State) (sc : Scope), s.me.arrived = 1 → ∃ t, exec (.phaseb sc) s = .next t ∧ t.iss.flow = .stalled ∧
    t.me = { s.me with wait := t.me.wait, qwaits := t.me.qwaits }) ∧
  (∀ (s : State) (sc : Scope) (id : Nat) (tm : Team), s.me.arrived = 0 → s.me.team = some id → s.teamOf s.myPart id = some tm →
    (∀ e ∈ tm.ep, s.iss.src ∈ e.waiting) → Stamp.lt ⟨s.keel, s.iss.src⟩ (s.part s.myPart).ops = false → s.mayBound sc = true →
    ∃ t, exec (.phaseb sc) s = .next t ∧ t.iss.flow = .stalled ∧ t.vers = (s.publish s.iss.src sc).vers ∧
      t = { s with ctxs := t.ctxs, parts := t.parts, vers := t.vers, teams := t.teams, iss := t.iss } ∧
      t.me = { s.me with arrived := 1, lastB := s.keel + 1, wait := t.me.wait, qwaits := t.me.qwaits } ∧
      t.teamOf s.myPart id = some { tm with ep := some (match tm.ep with
        | some e => { e with arrived := e.arrived ++ [s.iss.src] }
        | none => ⟨tm.members.map (·.2), [s.iss.src]⟩) }) ∧
  (∀ (s : State) (tm : Team) (e : Episode), s.teamOf s.arg.a s.arg.b = some tm → tm.ep = some e → s.episodeReady tm = true →
    ∃ t, exec .barrierRelease s = .next t ∧ t = { s with ctxs := t.ctxs, teams := t.teams } ∧
      (∀ n, n ∉ e.arrived → t.ctx n = s.ctx n) ∧
      (e.arrived.Nodup → ∀ n ∈ e.arrived, (t.ctx n).arrived = 2 ∧ (t.ctx n).hzn = ⟨s.keel, n⟩ ∧
        (t.ctx n).phase = (s.ctx n).phase + 1 ∧ (t.ctx n).regs = (s.ctx n).regs) ∧
      t.teamOf s.arg.a s.arg.b = some { tm with ep := none, done := (tm.done + 1) % 2 ^ 64 })) ∧
  (∀ (s : State) (d a : Reg), Stamp.lt ⟨s.keel, s.iss.src⟩ (s.part s.myPart).ops = false →
    let id := (s.scalar a).toNat % 65536
    (0x8000 ≤ id → exec (.join d a) s = .next (s.fatal .illegal)) ∧
    (id < 0x8000 → s.me.team ≠ none → ∃ t, exec (.join d a) s = .next t ∧ OnlyMine s t ∧ t.me = { s.me with regs := t.me.regs } ∧
      (d ≠ 0 → t.me.reg (physReg s.iss.rrb d) = BitVec.allOnes 64)) ∧
    (id < 0x8000 → s.me.team = none → ∀ tm, s.teamOf s.myPart id = some tm →
      ∃ t i, exec (.join d a) s = .next t ∧ t = { s with ctxs := t.ctxs, parts := t.parts, teams := t.teams } ∧
        (∀ m ∈ tm.members, m.1 ≠ i) ∧ (∀ j, j < i → ∃ m ∈ tm.members, m.1 = j) ∧
        t.teamOf s.myPart id = some { tm with members := tm.members ++ [(i, s.iss.src)] } ∧ t.me.team = some id ∧
        (d ≠ 0 → t.me.reg (physReg s.iss.rrb d) = BitVec.ofNat 64 i)) ∧
    (id < 0x8000 → s.me.team = none → s.teamOf s.myPart id = none →
      ∃ t, exec (.join d a) s = .next t ∧ t = { s with ctxs := t.ctxs, parts := t.parts, teams := t.teams } ∧
        t.teams = s.teams ++ [{ part := s.myPart, id := id, members := [(0, s.iss.src)] }] ∧ t.me.team = some id ∧
        (d ≠ 0 → t.me.reg (physReg s.iss.rrb d) = 0)) ∧
    (s.me.team = some id → ∃ t, exec (.leave a) s = .next t ∧
      t = { s with ctxs := t.ctxs, parts := t.parts, teams := t.teams } ∧ t.me = { s.me with team := none }) ∧
    (s.me.team ≠ some id → ∃ t, exec (.leave a) s = .next t ∧ t = { s with parts := t.parts }) ∧
    (∀ sel : BitVec 4, ∃ t, exec (.teamq d a sel) s = .next t ∧ t = { s with ctxs := t.ctxs, parts := t.parts } ∧
      t.me = { s.me with regs := t.me.regs } ∧
      (d ≠ 0 → t.me.reg (physReg s.iss.rrb d) =
        if sel = 0 then BitVec.ofNat 64 ((s.teamOf s.myPart id).elim 0 (·.members.length))
        else if sel = 1 then ((s.teamOf s.myPart id).bind fun tm =>
          (tm.members.find? fun m => m.2 = s.iss.src).map fun m => BitVec.ofNat 64 m.1).getD (BitVec.allOnes 64)
        else if sel = 2 then BitVec.ofNat 64 ((s.teamOf s.myPart id).elim 0 (·.done))
        else if sel = 3 then BitVec.ofNat 64 (((s.teamOf s.myPart id).bind (·.ep)).elim 0 (·.arrived.length))
        else s.me.team.elim (BitVec.allOnes 64) (BitVec.ofNat 64))))

/-- R247: `FENCEX` completes once the accesses of the paths it names are done. The writes of the FROM classes in the scratchpad and
the banks of its cell, for classes L and K its own, are seen by every later access of the TO classes; the device writes of class X and
R that the thread caused are published no later than now; and no byte changes. -/
def Obligations.FencePublishes : Prop :=
  ∀ (s : State) (frm dst : BitVec 6), (frm.getLsbD 0 = true → s.accessDone = true) → (frm.getLsbD 1 = true → s.me.bufT = []) →
    ∃ t, exec (.fencex frm dst) s = .next t ∧ t = { s with vers := t.vers, late := t.late, lateB := t.lateB } ∧
      (∀ e ∈ t.late, spadKey s.myCell 0 ≤ 64 * e.1 → 64 * e.1 < spadKey s.myCell 0x180000 → ∀ w ∈ e.2.ws,
        fenced s.iss.src frm w = true → dst &&& w.seen = dst) ∧
      (∀ e ∈ t.lateB, bankKey s.myCell false 0 ≤ 64 * e.1 → 64 * e.1 < bankKey (s.myCell + 1) false 0 → ∀ w ∈ e.2.ws,
        fenced s.iss.src frm w = true → dst &&& w.seen = dst) ∧
      t.vers.map (fun v => (v.seq, v.cells)) = s.vers.map (fun v => (v.seq, v.cells)) ∧
      ∀ v ∈ t.vers, ∀ p ∈ v.pubs,
        (frm.getLsbD 2 = true ∧ v.by_ = some (s.iss.src, 2)) ∨ (frm.getLsbD 3 = true ∧ v.by_ = some (s.iss.src, 3)) →
        p.2.keel ≤ s.keel

/-- R180, R172: `FLAGSET` through a usable tether to memory publishes the thread's stores and then writes the 8 bytes, published at
its scope in the next nanosecond. R181: a `FLAGW` whose condition holds at its first read writes the value to D and makes
Boundary(scope); one whose condition does not hold and whose deadline has not come waits and writes nothing. R241, R240, R362:
`FLAGSET` writes a device register and nothing at a peer's counter page, which is logged where the link has failed; `FLAGW` reads a
device register. R176: at an address that is no multiple of 8 both are a bad tether access. -/
def Obligations.FlagWrites : Prop :=
  (∀ (s : State) (th : BitVec 4) (a b : Reg) (sc : Scope),
    let pa := ((s.me.teth th).anchor + (s.scalar a).toInt).toNat
    s.me.xlatPending th = false → s.mayBound sc = true → s.tethUsable th (s.scalar a).toInt 8 true false →
    memoryAt pa → pa % 8 = 0 →
    ∃ t v, exec (.flagset th a b sc) s = .next t ∧ t = { s with vers := t.vers, seq := t.seq, ctxs := t.ctxs, cells := t.cells } ∧
      OthersKept s t s.iss.src ∧ t.me = { s.me with lastB := s.keel + 1 } ∧
      t.vers = (s.publish s.iss.src sc).vers ++ [v] ∧
      v.cells = (s.addrs s.myPart pa 8).zip (leBytes 8 (s.scalar b).toNat) ∧
      v.pubs = [(sc, ⟨s.keel + 1, s.iss.src⟩)] ∧ v.src = s.iss.src ∧ v.atm = true) ∧
  ((∀ (s : State) (d : Reg) (th : BitVec 4) (a b c : Reg) (sc : Scope) (k : FlagCond),
    let pa := ((s.me.teth th).anchor + (s.scalar a).toInt).toNat
    let v : Word := BitVec.ofNat 64 (if memoryAt pa then leVal (s.bytesAt s.viewerNow true s.myPart pa 8) else s.devRead pa 8)
    s.iss.unit = .c → s.me.wait = none → s.me.xlatPending th = false → s.tethUsable th (s.scalar a).toInt 8 false false →
    (memoryAt pa ∧ s.poisonAt s.viewerNow true s.myPart pa 8 = false) ∨ paKind pa = .device ∨ paKind pa = .notify → pa % 8 = 0 →
    (FlagCond.holds k v (s.scalar b) = true → s.mayBound sc = true →
      ∃ t, exec (.flagw d th a b c sc k) s = .next t ∧ t = { s with ctxs := t.ctxs, cells := t.cells, vers := t.vers } ∧
        OthersKept s t s.iss.src ∧ t.vers = (s.publish s.iss.src sc).vers ∧
        t.me = { s.me with
          regs := t.me.regs, wait := t.me.wait, hzn := ⟨s.keel, s.iss.src⟩, phase := s.me.phase + 1, lastB := s.keel + 1 } ∧
        (d ≠ 0 → t.me.reg (physReg s.iss.rrb d) = v) ∧ ∀ r, d = 0 ∨ r ≠ physReg s.iss.rrb d → t.me.reg r = s.me.reg r) ∧
    (FlagCond.holds k v (s.scalar b) = false → overdue s.keel (s.deadlineOf c) = false →
      ∃ t, exec (.flagw d th a b c sc k) s = .next t ∧ t = { s with ctxs := t.ctxs, cells := t.cells, iss := t.iss } ∧
        OthersKept s t s.iss.src ∧ t.iss.flow = .stalled ∧ t.me = { s.me with wait := t.me.wait } ∧
        ∃ w, t.me.wait = some w ∧ w.last = some v ∧ w.since = s.keel)) ∧
  (∀ (s : State) (th : BitVec 4) (a b : Reg) (sc : Scope),
    let pa := ((s.me.teth th).anchor + (s.scalar a).toInt).toNat
    let Published (u : State) : Prop := u = { s with vers := (s.publish s.iss.src sc).vers, ctxs := u.ctxs, cells := u.cells } ∧
      OthersKept s u s.iss.src ∧ u.me = { s.me with lastB := s.keel + 1 }
    s.me.xlatPending th = false → s.mayBound sc = true → s.tethUsable th (s.scalar a).toInt 8 true false →
    (paKind pa = .device ∨ paKind pa = .notify → pa % 8 = 0 →
      ∃ u, Published u ∧ exec (.flagset th a b sc) s = .next (u.devStore s.iss.src pa 8 (s.scalar b).toNat false)) ∧
    (paKind pa = .peer → pa % 8 = 0 → ∃ u, Published u ∧ exec (.flagset th a b sc) s = .next (u.peerStore pa)) ∧
    (pa % 8 ≠ 0 → ∃ u, Published u ∧ exec (.flagset th a b sc) s = .next (u.fatal .badTether (th.setWidth 32)))) ∧
  (∀ (s : State) (d : Reg) (th : BitVec 4) (a b c : Reg) (sc : Scope) (k : FlagCond),
    let pa := ((s.me.teth th).anchor + (s.scalar a).toInt).toNat
    s.me.wait = none → s.me.xlatPending th = false → s.tethUsable th (s.scalar a).toInt 8 false false → pa % 8 ≠ 0 →
    exec (.flagw d th a b c sc k) s = .next (s.fatal .badTether (th.setWidth 32))))

/-- R168, R181: the events that end a wait try the waiting instruction again: `FLAGW`, a `PHASE`, and a publishing `STM` in the access
buffer. -/
def Obligations.WaitsTryAgain : Prop :=
  (∀ (s t : State) (d : Reg) (th : BitVec 4) (a b c : Reg) (sc : Scope) (k : FlagCond),
    s.runnable s.arg.a = true → (s.ctx s.arg.a).lateAt = 0 → s.goOn s.arg.a = some (.flagw d th a b c sc k, t) →
    ∃ u, exec (.flagw d th a b c sc k) t = .next u ∧
      exec .flagwWake s = .next (u.finishC (.flagw d th a b c sc k) (s.ctx s.arg.a).pc)) ∧
  (∀ (s t : State) (sc : Scope), ((s.ctx s.arg.a).bufA.any fun e => publishes e.instr) = false →
    s.runnable s.arg.a = true → (s.ctx s.arg.a).lateAt = 0 → s.goOn s.arg.a = some (.phase sc, t) →
    ∃ u, exec (.phase sc) t = .next u ∧ exec .publishTakesEffect s = .next (u.finishC (.phase sc) (s.ctx s.arg.a).pc)) ∧
  (∀ (s : State) (e : Entry) (rest : List Entry) (f : StmF), (s.ctx s.arg.a).bufA = e :: rest → e.instr = .stm f →
    f.pub.isSome = true → e.prog = 1 → s.unitRuns s.arg.a = true →
    ∃ u, exec (.stm f) (s.beginU s.arg.a .a e) = .next u ∧ exec .publishTakesEffect s = .next (u.finishU .a))

/-- R174, R270: a published granule whose bytes every reader finds goes into memory, byte by byte; one that may merge leaves the
buffer; a horizon older than 2^20 ns moves up and the thread is marked AGED; at the expiry of its lease a store is published at
partition scope. -/
def Obligations.PublishBuffer : Prop :=
  (∀ (s : State) (v : Ver), (s.vers.find? fun w => w.seq = s.arg.a) = some v → s.settles v = true →
    ∃ t, exec .publishEntryMerge s = .next t ∧ t = { s with mem := t.mem, psnMem := t.psnMem, vers := t.vers } ∧
      (∀ w ∈ t.vers, w.seq ≠ v.seq) ∧
      (∀ a, (∀ c ∈ v.cells, c.1 ≠ a) → mread t.mem a = mread s.mem a) ∧
      ((v.cells.map (·.1)).Nodup → ∀ c ∈ v.cells, mread t.mem c.1 = c.2)) ∧
  (∀ (s : State) (v : Ver), (s.vers.find? fun w => w.seq = s.arg.a) = some v → s.merges v = true → s.settles v = false →
    ∃ t, exec .publishEntryMerge s = .next t ∧
      t = { s with vers := s.vers.map fun w => if w.seq = v.seq then { w with merged := true } else w }) ∧
  (∀ s : State, (s.ctx s.arg.a).status ≠ .free → ∃ t, exec .horizonAging s = .next t ∧
    t = { s with ctxs := t.ctxs, slots := t.slots } ∧ (∀ n, n ≠ s.arg.a → t.ctx n = s.ctx n) ∧
    t.ctx s.arg.a = if (s.ctx s.arg.a).hzn.keel + 2 ^ 20 < s.keel then
      { s.ctx s.arg.a with hzn := ⟨s.keel, s.arg.a⟩, phase := (s.ctx s.arg.a).phase + 1, lastB := s.keel + 1, aged := true }
      else s.ctx s.arg.a) ∧
  (∀ s : State, ∃ t, exec .leaseExpiryPublish s = .next t ∧ t = { s with vers := t.vers } ∧
    t.vers.map (fun v => (v.seq, v.cells)) = s.vers.map (fun v => (v.seq, v.cells)) ∧
    ∀ v ∈ t.vers, v.src = s.arg.a → v.due ≠ 0 → v.due ≤ s.keel → ∃ p ∈ v.pubs, p.1 ≠ .cell)

-- Traps, drogues, system registers and threads (19, 20, 10).

/-- R327, R330, R338, R399: `TRAP` and `BRK` take their trap when INH is 0 and TVEC is not 0. EPC is the next word for `TRAP` and the
word itself for `BRK`; TVAL is the word, CAUSE holds INFO, UNIT C and the code, TSTATE becomes INH alone, the units' entries are
parked, and the PC is TVEC. Every other register of the thread, every other thread and every byte of memory stays. A cause that
freezes the context instead, since INH is 1 or its vector 0, has the code of the cause raised (for DOUBLE_TRAP the second one) as its
INFO. R339: `RFE` is ILLEGAL while INH is 0, and with an EPC that is no multiple of 8. Else, with the units at rest, it brings the
parked entries, streams and wait back, clears TSTATE and continues at EPC; with SKIP it drops the entry or stream that raised the
cause on another unit, or for a cause of unit C continues at the next word, without the wait. -/
def Obligations.TrapEntry : Prop :=
  (∀ (s : State) (code : BitVec 20), s.me.tstate.getLsbD 0 = false → s.me.tvec ≠ 0 →
    let x := s.me
    let taken (epc cause : Word) : Ctx := { x with
      parked := some ⟨x.bufA.map Entry.stopped, x.bufE, x.bufT, x.streams.map Stream.stopped, x.wait.map Wait.stopped,
        if x.status = .sleeping then some x.wakeAt else none, none⟩
      bufA := [], bufE := [], bufT := [], streams := [], wait := none, qwaits := [], busy := none, pfx := none
      lqs := x.lqs.map Queue.idle, sqs := x.sqs.map Queue.idle, pubWait := (none, none), lateAt := 0, causeAt := s.keel + 1
      epc := epc, tval := s.iss.pc, cause := cause, tstate := 1, status := .run, pc := x.tvec }
    s.iss.unit = .c →
    (∃ t, exec (.trap code) s = .next t ∧ t.iss = { s.iss with flow := .moved } ∧ t.me = taken (s.iss.pc + 8) (code.setWidth 64 <<< 32 ||| 1) ∧
      (∀ n, n ≠ s.iss.src → t.ctx n = s.ctx n) ∧ t.mem = s.mem ∧ t.spad = s.spad ∧ t.banks = s.banks) ∧
    (∃ t, exec (.brk code) s = .next t ∧ t.iss = { s.iss with flow := .moved } ∧ t.me = taken s.iss.pc (code.setWidth 64 <<< 32 ||| 2) ∧
      (∀ n, n ≠ s.iss.src → t.ctx n = s.ctx n) ∧ t.mem = s.mem ∧ t.spad = s.spad ∧ t.banks = s.banks) ∧
    ∀ (src : Nat) (u : Unit4) (pc : Word) (c : Cause) (info : W32), c.kind = .recoverable →
      let y := s.ctx src
      let vector : Nat := if c = .pageFault ∨ c = .skew then (s.part (s.partOfSrc src)).stvec % 2 ^ 64 else y.tvec.toNat
      (y.tstate.getLsbD 0 = true → ((s.trapAt src u pc c info).ctx src).cause = causeWord .doubleTrap u (c.code.setWidth 32)) ∧
      (y.tstate.getLsbD 0 = false → vector = 0 →
        ((s.trapAt src u pc c info).ctx src).cause = causeWord .unhandled u (c.code.setWidth 32))) ∧
  ((∀ s : State, s.me.tstate.getLsbD 0 = false → exec .rfe s = .next (s.fatal .illegal)) ∧
  (∀ s : State, s.me.tstate.getLsbD 0 = true → s.quiet = true → s.me.epc.toNat % 8 ≠ 0 → exec .rfe s = .next (s.fatal .illegal)) ∧
  (∀ (s : State) (p : Parked), s.me.tstate.getLsbD 0 = true → s.quiet = true → s.me.epc.toNat % 8 = 0 → s.me.parked = some p →
    ∃ t, exec .rfe s = .next t ∧ t = { s with ctxs := t.ctxs, iss := t.iss, strs := t.strs } ∧
      (∀ n, n ≠ s.iss.src → t.ctx n = s.ctx n) ∧ t.me.parked = none ∧ t.me.tstate = 0 ∧
      t.me.regs = s.me.regs ∧ t.me.preds = s.me.preds ∧ t.me.epc = s.me.epc ∧ t.me.cause = s.me.cause ∧
      (∀ q, (t.me.queue q).slots = (s.me.queue q).slots ∧ (t.me.queue q).depth = (s.me.queue q).depth) ∧
      t.me.status = (if p.sleep = none then .run else .sleeping) ∧
      let skip := s.me.tstate.getLsbD 3
      let onC := s.me.cause.extractLsb' 8 2 = 0
      let keep (e : Entry) : Bool := !skip || p.fault ≠ some e.id
      t.me.bufA = p.a.filter keep ∧ t.me.bufE = p.e.filter keep ∧ t.me.bufT = p.t.filter keep ∧
      t.me.streams = p.streams.filter (fun x => keep x.ent) ∧
      (skip = false ∨ ¬ onC → t.me.pc = s.me.epc ∧ t.me.wait = p.wait) ∧
      (skip = true → onC → t.me.pc = s.me.epc + 8 ∧ t.me.wait = none)))

/-- R332: a recoverable cause raised while INH is 1 is the fatal DOUBLE_TRAP, one whose vector is 0 the fatal UNHANDLED; both freeze
the context as it stands (whether it is a `TRAP` or any other instruction or step that raises the cause). -/
def Obligations.TrapFreezes : Prop :=
  ∀ (s : State) (src : Nat) (u : Unit4) (pc : Word) (c : Cause) (info : W32), c.kind = .recoverable →
    let x := s.ctx src
    let vector : Nat := if c = .pageFault ∨ c = .skew then (s.part (s.partOfSrc src)).stvec % 2 ^ 64 else x.tvec.toNat
    let freezes (f : Cause) : Prop :=
      let y := (s.trapAt src u pc c info).ctx src
      y = { x with
        status := .frozen, cause := y.cause, tval := pc, pc := y.pc, pfx := none, err := y.err, wait := x.wait.map Wait.stopped
        qwaits := [], busy := none, bufA := x.bufA.map Entry.stopped, streams := x.streams.map Stream.stopped, pubWait := (none, none)
        lateAt := 0 } ∧ y.cause.extractLsb' 0 8 = f.code ∧ y.err.cause = f.code ∧ (x.pfx = none → y.pc = x.pc)
    (x.tstate.getLsbD 0 = true → freezes .doubleTrap) ∧
    (x.tstate.getLsbD 0 = false → vector = 0 → freezes .unhandled) ∧
    ∀ code : BitVec 20, exec (.trap code) s = .next (s.trapAt s.iss.src s.iss.unit s.iss.pc .swtrap (code.setWidth 32)).moved

/-- R334, R340, R341: a drogue region opens with its handler's address and the scalars, predicates, RRB and loop depth as they stand,
at most four deep, and closes innermost first; a close with none open is ILLEGAL, as is a fifth open. -/
def Obligations.DrogueRegions : Prop :=
  ∀ (off : BitVec 20),
    ChangesMe (fun s => s.me.pending = [] ∧ s.me.drogue.length < 4) (.dropen off) (fun s c => { c with
      drogue := ⟨s.me.pc + 8 * off.signExtend 64, ⟨c.regs, c.preds, c.rrb, c.loops, c.pc⟩, c.loops.length⟩ :: c.drogue }) ∧
    ChangesMe (fun s => s.quiet = true ∧ s.me.drogue ≠ []) .drclose (fun _ c => { c with drogue := c.drogue.tail }) ∧
    (∀ s, s.me.pending = [] → 4 ≤ s.me.drogue.length → exec (.dropen off) s = .next (s.fatal .illegal)) ∧
    (∀ s, s.quiet = true → s.me.drogue = [] → exec .drclose s = .next (s.fatal .illegal))

/-- R397, R398: `RDSYS` of each system register, in every state that does not hold it; a number that names none is ILLEGAL. R397,
R398: what `WRSYS` of each register writes: the RW fields, and nothing of a register that is read-only. -/
def Obligations.SystemRegisters : Prop :=
  (∀ d : Reg,
    WritesReg (.rdsys d 0x000) d (·.me.tvec) ∧ WritesReg (.rdsys d 0x001) d (·.me.epc) ∧
    WritesReg (.rdsys d 0x002) d (·.me.tval) ∧ WritesReg (.rdsys d 0x003) d (·.me.cause) ∧
    WritesReg (.rdsys d 0x004) d (·.me.tstate.setWidth 64) ∧
    WritesRegIf (fun s => s.me.bufE = [] ∧ s.me.bufT = []) (.rdsys d 0x008) d (·.me.nflags.setWidth 64) ∧
    WritesReg (.rdsys d 0x009) d (fun s => BitVec.ofNat 64 s.me.hzn.keel) ∧
    WritesReg (.rdsys d 0x00A) d (fun s => if s.me.aged then 1 else 0) ∧
    WritesReg (.rdsys d 0x00B) d (·.me.rrb.setWidth 64) ∧ WritesReg (.rdsys d 0x010) d (fun s => 8 * s.me.wboff.setWidth 64) ∧
    WritesReg (.rdsys d 0x011) d (·.me.rvm.setWidth 64) ∧ WritesReg (.rdsys d 0x012) d (·.me.wcommit.setWidth 64) ∧
    WritesReg (.rdsys d 0x013) d (fun _ => 0) ∧ WritesReg (.rdsys d 0x018) d (·.me.xfault) ∧
    WritesReg (.rdsys d 0x019) d (·.me.drhint) ∧
    (∀ n : BitVec 4, WritesReg (.rdsys d (0x100 + n.setWidth 12)) d (fun _ => (tellCrc n.toNat).setWidth 64)) ∧
    ∀ (s : State) (r : BitVec 12), r.toNat ∉ [0, 1, 2, 3, 4, 8, 9, 0xA, 0xB, 0x10, 0x11, 0x12, 0x13, 0x18, 0x19] →
      ¬ (0x100 ≤ r.toNat ∧ r.toNat < 0x110) →
      exec (.rdsys d r) s = .next (s.fatal .illegal) ∧ ∀ a, exec (.wrsys r a) s = .next (s.fatal .illegal)) ∧
  (∀ a : Reg,
    let Sets (ok : State → Prop) (r : BitVec 12) (f : Word → Ctx → Ctx) := ChangesMe ok (.wrsys r a) (fun s c => f (s.scalar a) c)
    let yes : State → Prop := fun _ => True
    Sets yes 0x000 (fun v c => { c with tvec := v.extractLsb' 3 61 ++ 0#3 }) ∧
    Sets yes 0x001 (fun v c => { c with epc := v }) ∧
    Sets yes 0x004 (fun v c => { c with tstate := v.extractLsb' 3 1 ++ c.tstate.extractLsb' 0 3 }) ∧
    Sets (fun s => s.me.bufE = [] ∧ s.me.bufT = []) 0x008 (fun v c => { c with nflags := v.extractLsb' 0 3 }) ∧
    Sets yes 0x00A (fun v c => { c with aged := c.aged && v.getLsbD 0 }) ∧
    Sets (fun s => s.me.bufE = [] ∧ s.me.pending = []) 0x00B (fun v c => { c with rrb := v.extractLsb' 0 4 }) ∧
    Sets yes 0x010 (fun v c => { c with wboff := v.extractLsb' 3 18 }) ∧
    Sets yes 0x011 (fun v c => { c with rvm := v.extractLsb' 0 48 }) ∧
    Sets yes 0x012 (fun v c => { c with wcommit := v.extractLsb' 0 27 }) ∧
    Sets yes 0x019 (fun v c => { c with drhint := v }) ∧
    Sets (fun s => (s.scalar a).getLsbD 0 = false) 0x013 (fun _ c => c) ∧
    (∀ r : BitVec 12, r.toNat ∈ [2, 3, 9, 0x18] ∨ (0x100 ≤ r.toNat ∧ r.toNat < 0x110) → Sets yes r (fun _ c => c)))

/-- R344, R356, R400: each selector of `ERRQ`; the ballast word of `BLST`, with the bucket as it has refilled by now; and `EVT`, which
changes nothing where tracing is off and else appends its record to the thread's ring, if the trace port takes it: whether it does is
not given (log 37). The record comes here after no dropped one and is not the first of 4,096 (R404). -/
def Obligations.ErrorAndBallastReads : Prop :=
  ∀ (d a : Reg) (code : BitVec 16),
    WritesReg (.errq d 0) d (fun s =>
      BitVec.ofNat 64 s.me.err.depth <<< 10 ||| s.me.err.unit.setWidth 64 <<< 8 ||| s.me.err.cause.setWidth 64) ∧
    WritesReg (.errq d 1) d (·.me.err.pc) ∧ WritesReg (.errq d 2) d (·.me.err.prodPc) ∧
    WritesReg (.errq d 3) d (fun s => if s.me.unwinds < 2 ^ 64 then BitVec.ofNat 64 s.me.unwinds else BitVec.allOnes 64) ∧
    WritesReg (.errq d 4) d (fun s => BitVec.ofNat 64 s.me.drogue.length) ∧
    WritesReg (.errq d 5) d (fun s => (s.cell (s.iss.src / 4)).corrected) ∧
    WritesReg (.errq d 6) d (fun s => (s.cell (s.iss.src / 4)).consumed) ∧
    WritesReg (.errq d 7) d (fun s => BitVec.ofNat 64 s.me.err.keel) ∧
    (∀ s, ∃ t, exec (.blst d) s = .next t ∧ OnlyMine s t ∧ t.me = { s.me with regs := t.me.regs } ∧
      let c := s.col (s.iss.src / 4 % 64)
      (d ≠ 0 → t.me.reg (physReg s.iss.rrb d) = BitVec.ofNat 64
        (min (2 ^ 16) ((c.tok + c.rate * (s.keel - c.at_)) / 16) + 2 ^ 32 * c.rate +
          2 ^ 44 * s.waitingSteps (s.iss.src / 4 % 64)))) ∧
    (∀ s, (s.dbg s.iss.src).trlen = 0 → exec (.evt a code) s = .next s) ∧
    (∀ s, let d := s.dbg s.iss.src
      d.trlen ≠ 0 → d.trLost = 0 → d.trRecs % 4096 ≠ 0 →
      ∃ t, exec (.evt a code) s = .next t ∧ t.me = s.me ∧ t.mem = s.mem ∧
        (∀ m, m ≠ s.iss.src → t.dbg m = s.dbg m) ∧
        if Config.traceTakes s.choices then
          ∃ v, t.vers = s.vers ++ [v] ∧ (t.dbg s.iss.src).tridx = d.tridx + 16 ∧ (t.dbg s.iss.src).trRecs = d.trRecs + 1 ∧
            v.cells = ((List.range 16).map fun i => s.canon s.myPart (d.trbase + (d.tridx + i) % d.trlen)).zip
              (leBytes 16 (11 + 2 ^ 16 * code.toNat + 2 ^ 32 * (s.iss.xtnd.getD 0).toNat + 2 ^ 64 * (s.scalar a).toNat))
        else t = { s with choices := s.choices + 1, dbgs := t.dbgs } ∧ t.dbg s.iss.src = { d with trLost := 1 })

/-- R72 to R74: `EXIT` of a thread whose units are at rest and whose publish may take effect publishes its stores and frees its
context; `YIELD` moves only the round-robin order; the sleeps set their deadline, and at it the thread wakes with Boundary(cell). That
an `EXIT` in a trap handler ends the thread as any other does, and what an empty context holds, are the model's choices (logs 52 and
1). R42 to R44, R49, R50: the prefixes add to their chain, `PRIO` sets the priority up to the ceiling, `NOP` and the hints change
nothing, and an opcode of no group is ILLEGAL. A second prefix of one kind is ILLEGAL. -/
def Obligations.ThreadControl : Prop :=
  ((∀ s : State, s.quiet = true → s.mayBound .part = true → Stamp.lt ⟨s.keel, s.iss.src⟩ (s.part s.myPart).ops = false →
    ∃ t, exec .exit s = .next t ∧ t.iss.src = s.iss.src ∧ t.me = {} ∧ (∀ n, n ≠ s.iss.src → t.ctx n = s.ctx n) ∧
      (∀ w ∈ s.vers, w.src = s.iss.src → w.dead = false →
        ∃ v ∈ t.vers, v.seq = w.seq ∧ v.cells = w.cells ∧ ∃ p ∈ v.pubs, scopeLe .part p.1 = true)) ∧
  (∀ s : State, ∃ t, exec .yield s = .next t ∧ t = { s with cells := t.cells } ∧
    t.cell (s.iss.src / 4) = { s.cell (s.iss.src / 4) with rr := (s.iss.src % 4, (s.cell (s.iss.src / 4)).rr.2) }) ∧
  (∀ a : Reg,
    ChangesMe (fun _ => True) (.sleept a) (fun s c => { c with status := .sleeping, wakeAt := (s.scalar a).toNat }) ∧
    ChangesMe (fun _ => True) (.sleepd a) (fun s c => { c with status := .sleeping, wakeAt := s.keel + (s.scalar a).toNat })) ∧
  (∀ s : State, s.arg.a = s.iss.src → s.iss = { src := s.arg.a } → s.me.status = .sleeping → s.me.wakeAt ≤ s.keel →
    s.strFrozen s.iss.src = false → s.me.wait = none → s.mayBound .cell = true → ∃ t, exec .sleepWake s = .next t ∧
    t = { s with ctxs := t.ctxs, vers := t.vers } ∧ t.vers = (s.publish s.iss.src .cell).vers ∧
    (∀ n, n ≠ s.iss.src → t.ctx n = s.ctx n) ∧
    t.me = { s.me with status := .run, tried := (s.keel + 1, s.me.tried.2), hzn := ⟨s.keel, s.iss.src⟩,
                       phase := s.me.phase + 1, lastB := s.keel + 1 }) ∧
  (∀ s : State, (s.ctx s.arg.a).status = .sleeping → s.keel < (s.ctx s.arg.a).wakeAt →
    exec .sleepWake s = .next { s with iss := { src := s.arg.a } })) ∧
  (∀ (i : W32) (m p : BitVec 3) (mg : Bool) (f : PrefF) (op : BitVec 8),
    (∀ s, exec .nop s = .next s ∧ exec (.pref f) s = .next s ∧ exec (.emptyHint op) s = .next s ∧
      exec (.undefinedOpcode op) s = .next (s.fatal .illegal)) ∧
    ChangesMe (fun _ => True) (.prio p) (fun s c => { c with prio := if s.me.ceiling.toNat < p.toNat then s.me.ceiling else p }) ∧
    ChangesMe (fun s => s.me.pfx = none) (.xtnd i) (fun s c => { c with pfx := some ⟨s.me.pc, some i, none⟩ }) ∧
    ChangesMe (fun s => s.me.pfx = none) (.lane m mg) (fun s c => { c with pfx := some ⟨s.me.pc, none, some ⟨mg, m⟩⟩ }) ∧
    (∀ s q, s.me.pfx = some q → q.xtnd = none → ∃ t, exec (.xtnd i) s = .next t ∧ OnlyMine s t ∧
      t.me = { s.me with pfx := some { q with xtnd := some i } }) ∧
    (∀ s q, s.me.pfx = some q → q.lane = none → ∃ t, exec (.lane m mg) s = .next t ∧ OnlyMine s t ∧
      t.me = { s.me with pfx := some { q with lane := some ⟨mg, m⟩ } }) ∧
    (∀ s q, s.me.pfx = some q → q.xtnd ≠ none → exec (.xtnd i) s = .next (s.fatal .illegal)) ∧
    (∀ s q, s.me.pfx = some q → q.lane ≠ none → exec (.lane m mg) s = .next (s.fatal .illegal)))

-- Tethers, leases and leaf updates (14, 15).

/-- R260, R261, R258: `TETH` copies the lease its cell holds for the address, or leaves MISS or NOPERM; `TREL` releases; `TSTAT` reads
the fields. No other tether, register or thread changes. R262, R266: `TRENEW` sets RPEND once, and the walkers' answer either extends
the tether by the leaf's lease or denies it. -/
def Obligations.TetherResults : Prop :=
  (∀ (th : BitVec 4) (a d : Reg) (it : Intent),
    let Sets (s t : State) (v : Tether) : Prop := (∀ n, n ≠ s.iss.src → t.ctx n = s.ctx n) ∧ t.me = s.me.setTeth th v ∧
      t.mem = s.mem ∧ t.spad = s.spad ∧ t.banks = s.banks
    (∀ s, s.me.tetherBusy th = false → (s.scalar a).toNat < 2 ^ 56 → s.lease s.myCell (s.scalar a).toNat = none →
      ∃ t, exec (.teth th a it) s = .next t ∧ Sets s t { s.me.teth th with stat := .miss, rdenied := false, rpend := false, rdue := 0 }) ∧
    (∀ s, s.me.tetherBusy th = false → 2 ^ 56 ≤ (s.scalar a).toNat →
      ∃ t, exec (.teth th a it) s = .next t ∧ Sets s t { s.me.teth th with stat := .miss, rdenied := false, rpend := false, rdue := 0 }) ∧
    (∀ s l, s.me.tetherBusy th = false → (s.scalar a).toNat < 2 ^ 56 → s.lease s.myCell (s.scalar a).toNat = some l →
      (it = .write ∧ l.w = false ∨ it = .exec ∧ l.x = false) →
      ∃ t, exec (.teth th a it) s = .next t ∧ Sets s t { s.me.teth th with stat := .noperm, rdenied := false, rpend := false, rdue := 0 }) ∧
    (∀ s l, s.me.tetherBusy th = false → (s.scalar a).toNat < 2 ^ 56 → s.lease s.myCell (s.scalar a).toNat = some l →
      (it = .write → l.w = true) → (it = .exec → l.x = true) →
      ∃ t, exec (.teth th a it) s = .next t ∧ Sets s t
        ⟨s.scalar a, l.pbase, l.sz, l.gen, l.w, l.x, l.lc, l.ord, l.cnt, l.exp, .ok, false, false, 0⟩) ∧
    (∀ s, s.me.tetherBusy th = false → (s.me.teth th).stat ≠ .none → (s.me.teth th).stat ≠ .released →
      ∃ t, exec (.trel th) s = .next t ∧ Sets s t { s.me.teth th with stat := .released }) ∧
    WritesReg (.tstat d th) d (fun s =>
      let t := s.me.teth th
      let one (b : Bool) : BitVec 1 := if b then 1 else 0
      let stat : BitVec 4 := match t.stat with
        | .ok => 0 | .miss => 1 | .noperm => 2 | .skewed => 3 | .released => 4 | .none => 5 | .stale => 6
      BitVec.ofNat 32 (if t.stat = .ok then min (t.exp - s.keel) (2 ^ 32 - 1) else 0) ++ t.gen ++ one t.cnt ++ one t.ord ++ t.lc ++
        t.sz ++ one t.x ++ one t.w ++ 0#2 ++ one t.rpend ++ one t.rdenied ++ stat)) ∧
  ((∀ (s : State) (th : BitVec 4), s.me.tetherBusy th = false →
    ((s.me.teth th).rpend = true → exec (.trenew th) s = .next s) ∧
    ((s.me.teth th).rpend = false → ∃ t, exec (.trenew th) s = .next t ∧ (∀ n, n ≠ s.iss.src → t.ctx n = s.ctx n) ∧
      t.me = s.me.setTeth th { s.me.teth th with rpend := true, rdue := s.answerBy (s.me.teth th) } ∧ t.mem = s.mem ∧ t.spad = s.spad ∧ t.banks = s.banks)) ∧
  (∀ (s : State) (th : BitVec 4), s.arg.b = th.toNat →
    let c := s.ctx s.arg.a
    let x := c.teth th
    (x.rpend = false → exec .renewalAnswer s = .next s) ∧
    (∀ l, x.rpend = true → s.skew = false → x.stat = .ok → s.walk (s.partOfSrc s.arg.a) x.vanc.toNat = .ok l →
      l.pa = x.pbase → l.sz = x.sz → l.lc = x.lc → l.ord = x.ord →
      (x.w = true → l.w = true ∧ l.wb = false ∧ s.writeLeaseAllowed l = true) → (x.x = true → l.x = true) →
      let e := s.keel + 2 ^ (l.f 10 4 + 8) - 64
      ∃ t, exec .renewalAnswer s = .next t ∧ t = { s with ctxs := t.ctxs, cells := t.cells, vers := t.vers } ∧
        (∀ n, n ≠ s.arg.a → t.ctx n = s.ctx n) ∧
        t.ctx s.arg.a = c.setTeth th { x with exp := e, gen := l.gen, rpend := false, rdue := 0 } ∧
        ∀ v ∈ s.vers, v ∈ t.vers ∨ v.src = s.arg.a ∧ s.keel < v.due ∧ { v with due := e } ∈ t.vers) ∧
    (x.rpend = true →
      s.skew = true ∨ x.stat ≠ .ok ∨ (∃ w, s.walk (s.partOfSrc s.arg.a) x.vanc.toNat = .error w) ∨
        (∃ l, s.walk (s.partOfSrc s.arg.a) x.vanc.toNat = .ok l ∧
          (l.pa ≠ x.pbase ∨ l.sz ≠ x.sz ∨ l.lc ≠ x.lc ∨ l.ord ≠ x.ord ∨ (x.w = true ∧ (l.w = false ∨ l.wb = true ∨ s.writeLeaseAllowed l = false)) ∨
            (x.x = true ∧ l.x = false))) →
      ∃ t, exec .renewalAnswer s = .next t ∧ t = { s with ctxs := t.ctxs } ∧ (∀ n, n ≠ s.arg.a → t.ctx n = s.ctx n) ∧
        t.ctx s.arg.a = c.setTeth th { x with rdenied := true, rpend := false, rdue := 0 })))

/-- R264, R255, R269, R414: `RPROBE` of a range in one page, and a fetch the cell's cache misses, put the lease the walkers grant into
the cache: for writing unless a write block or a change record forbids it. A walk that fails is a PAGE_FAULT, which goes through STVEC
with XFAULT; `RPROBE` of no bytes does nothing. A fetch under the skew fault is the model's reading (log 48). -/
def Obligations.ProbeAndFetch : Prop :=
  (∀ (s : State) (a b : Reg) (w : Bool), s.scalar b = 0 → ∃ t, exec (.rprobe a b w) s = .next t ∧ t = { s with cells := t.cells } ∧
    (∀ c, c ≠ s.myCell → t.cell c = s.cell c) ∧ (s.iss.prog = 0 → ∀ l ∈ (t.cell s.myCell).leases, s.iss.src ∉ l.pin)) ∧
  (∀ (s : State) (a b : Reg) (w : Bool) (lf : Leaf), s.skew = false → s.iss.prog = 0 → s.walk s.myPart (s.scalar a).toNat = .ok lf →
    s.scalar b ≠ 0 → (s.scalar a).toNat + (s.scalar b).toNat ≤ pageBase lf (s.scalar a).toNat + pageSize lf.sz →
    (w = true → lf.w = true ∧ lf.wb = false ∧ s.writeLeaseAllowed lf = true) →
    ∃ t l, exec (.rprobe a b w) s = .next t ∧ t.ctxs = s.ctxs ∧ t.mem = s.mem ∧ t.spad = s.spad ∧ t.banks = s.banks ∧
      l ∈ (t.cell s.myCell).leases ∧ l.va = pageBase lf (s.scalar a).toNat ∧ l.pbase = lf.pa ∧ l.sz = lf.sz ∧ l.x = lf.x ∧
      l.w = (lf.w && !lf.wb && s.writeLeaseAllowed lf) ∧ l.exp = s.keel + 2 ^ (lf.f 10 4 + 8) - 64 ∧ s.iss.src ∈ l.pin) ∧
  (∀ (s : State) (a b : Reg) (w : Bool) (y : Why), s.skew = false → s.iss.prog = 0 → s.walk s.myPart (s.scalar a).toNat = .error y →
    s.scalar b ≠ 0 → s.me.tstate.getLsbD 0 = false → (s.part s.myPart).stvec % 2 ^ 64 ≠ 0 →
    ∃ t, exec (.rprobe a b w) s = .next t ∧ t.me.pc = BitVec.ofNat 64 (s.part s.myPart).stvec ∧
      t.me.xfault = BitVec.ofNat 64 (y.code.toNat * 2 ^ 56 + (s.scalar a).toNat % 2 ^ 56) ∧ t.me.cause.extractLsb' 0 8 = 6 ∧
      t.me.tval = s.iss.pc ∧ t.me.tstate.getLsbD 0 = true ∧ t.me.regs = s.me.regs) ∧
  (∀ (s : State) (lf : Leaf), let src := s.arg.a
    s.skew = false → s.walk (s.partOfSrc src) (s.ctx src).pc.toNat = .ok lf → lf.x = true →
    ∃ t l, exec .instructionFetch s = .next t ∧ t.ctxs = s.ctxs ∧ l ∈ (t.cell (src / 4)).leases ∧ l.x = true ∧
      l.va = pageBase lf (s.ctx src).pc.toNat ∧ l.pbase = lf.pa ∧ l.exp = s.keel + 2 ^ (lf.f 10 4 + 8) - 64) ∧
  (∀ (s : State) (lf : Leaf), let src := s.arg.a
    s.skew = false → s.walk (s.partOfSrc src) (s.ctx src).pc.toNat = .ok lf → lf.x = false →
    (s.ctx src).tstate.getLsbD 0 = false → (s.part (s.partOfSrc src)).stvec % 2 ^ 64 ≠ 0 →
    ∃ t, exec .instructionFetch s = .next t ∧ (t.ctx src).pc = BitVec.ofNat 64 (s.part (s.partOfSrc src)).stvec ∧
      (t.ctx src).xfault = BitVec.ofNat 64 (6 * 2 ^ 56 + (s.ctx src).pc.toNat % 2 ^ 56))

/-- R268 to R271: the leaf update port. A start compares GEN and the right to change, and takes the job as it stands; the commit
writes the entry of the job with the next GEN and keeps or clears ACNT, records the change until the old lease is over, and tells when
the old page may be reused. Changes of one nanosecond are made in the order of their sources, one of each. -/
def Obligations.LeafUpdates : Prop :=
  ∀ s : State,
    let n := s.arg.a
    let l := s.lport n
    let e := s.pte l.leaf
    let j := l.job
    let o := s.pte j.leaf
    let owner := (stackOf j.leaf).elim 0 s.partOfStack
    let first : Prop := ¬ ∃ p ∈ s.lports, n ≤ p.1 ∧ p.2.last = s.keel + 1
    let right : Prop := s.mayChange n j.leaf = true ∧ (o.getLsbD 0 = true → o.getLsbD 1 = true)
    (l.lstat ≠ 1 → s.mayChange n l.leaf = true → (e.getLsbD 0 = true → e.getLsbD 1 = true) → e.extractLsb' 64 16 = l.expGen →
      ∃ t, exec .leafUpdateStart s = .next t ∧ t = { s with lports := t.lports, agenda := t.agenda } ∧
        t.lport n = { l with lstat := 1, job := ⟨l.leaf, l.expGen, l.newLo, l.newHi, decide (s.arg.b / 2 % 2 = 1)⟩ } ∧
        t.agenda = s.agenda ++ [(.leafUpdateCommit, { a := n })]) ∧
    (l.lstat ≠ 1 → s.mayChange n l.leaf = true → (e.getLsbD 0 = true → e.getLsbD 1 = true) → e.extractLsb' 64 16 ≠ l.expGen →
      ∃ t, exec .leafUpdateStart s = .next t ∧ t = { s with lports := t.lports } ∧ (t.lport n).lstat = 3) ∧
    (l.lstat ≠ 1 → s.mayChange n l.leaf = false → ∃ t, exec .leafUpdateStart s = .next t ∧ t = { s with lports := t.lports } ∧
      (t.lport n).lstat = 4) ∧
    (l.lstat ≠ 1 ∨ ¬ first → exec .leafUpdateCommit s = .next s) ∧
    (l.lstat = 1 → first → ¬ right → ∃ t, exec .leafUpdateCommit s = .next t ∧ t = { s with lports := t.lports } ∧
      (t.lport n).lstat = 4) ∧
    (l.lstat = 1 → first → right → o.extractLsb' 64 16 ≠ j.expGen → ∃ t, exec .leafUpdateCommit s = .next t ∧
      t = { s with lports := t.lports } ∧ (t.lport n).lstat = 3) ∧
    (l.lstat = 1 → first → right → o.extractLsb' 64 16 = j.expGen → (s.changes.filter fun c => c.part = owner).length < 4096 →
      swFields (j.newHi ++ j.newLo) ≠ swFields o →
      ∃ t, exec .leafUpdateCommit s = .next t ∧ t.ctxs = s.ctxs ∧ t.mem = s.mem ∧
        (t.pte j.leaf).extractLsb' 0 64 = j.newLo ∧ (t.pte j.leaf).extractLsb' 64 16 = j.expGen + 1 ∧
        (t.pte j.leaf).extractLsb' 80 16 = (if j.resetCnt then 0 else o.extractLsb' 80 16) ∧
        (t.pte j.leaf).extractLsb' 96 32 = j.newHi.extractLsb' 32 32 ∧ (∀ a, a ≠ j.leaf → t.pte a = s.pte a) ∧
        t.changes = s.changes ++ [⟨owner, j.leaf, s.keel + 2 ^ (o.extractLsb' 10 4).toNat * 256⟩] ∧
        ∃ r, t.lport n = { l with lstat := 2, tcommit := s.keel, reuse := r, last := s.keel + 1 } ∧
          r = s.keel + max (2 ^ (o.extractLsb' 10 4).toNat * 256) (2 ^ (j.newLo.extractLsb' 10 4).toNat * 256) + 2 ^ 20 + 64) ∧
    (l.lstat = 1 → first → right → o.extractLsb' 64 16 = j.expGen → 4096 ≤ (s.changes.filter fun c => c.part = owner).length →
      exec .leafUpdateCommit s = .next s)

/-- R256, R269, R278: a cell drops its lapsed leases and no other; a change record lapses at its end; the assist takes a page up where
it is idle, and copies it in pieces of 4 KiB (the model's choice, log 31). -/
def Obligations.LeaseExpiryAndAssist : Prop :=
  (∀ s : State, ∃ t, exec .leaseCacheExpiry s = .next t ∧ t.ctxs = s.ctxs ∧ t.mem = s.mem ∧
    ∀ l, l ∈ (t.cell s.arg.a).leases ↔ l ∈ (s.cell s.arg.a).leases ∧
      ∀ k ∈ (s.cell s.arg.a).leases, k.exp ≤ s.keel → ¬ (k.va = l.va ∧ k.sz = l.sz ∧ k.leaf = l.leaf)) ∧
  (∀ s : State, ∃ t, exec .changeRecordLapse s = .next t ∧ t = { s with changes := t.changes } ∧
    ∀ c, c ∈ t.changes ↔ c ∈ s.changes ∧ s.keel < c.till) ∧
  (∀ s : State, (s.part s.arg.a).assist = none → s.arg.b ≠ 0 → ∃ t, exec .migrationAssist s = .next t ∧
    t = { s with parts := t.parts } ∧ t.part s.arg.a = { s.part s.arg.a with
      assist := some ⟨0, s.arg.b, s.arg.c, 0, s.arg.w.extractLsb' 0 16, 0, 0, false⟩ }) ∧
  (∀ (s : State) (x : Assist), (s.part s.arg.a).assist = some x → s.arg.b = 0 ∨ s.arg.b = x.leaf → x.stage = 3 → x.copied < 65536 →
    s.assistMayCopy s.arg.a = true →
    let pa := (⟨x.leaf, s.pte x.leaf⟩ : Leaf).pa + x.copied
    memoryAt pa → s.loadPoisoned (s.engineView 1027 s.arg.a) s.arg.a pa 4096 = false →
    ∃ t v, exec .migrationAssist s = .next t ∧ t.ctxs = s.ctxs ∧ t.mem = s.mem ∧ t.vers = s.vers ++ [v] ∧
      v.cells = (s.addrs s.arg.a (x.newPa + x.copied) 4096).zip (s.loadBytes (s.engineView 1027 s.arg.a) s.arg.a pa 4096) ∧
      (t.part s.arg.a).assist = some { x with copied := x.copied + 4096 })

-- Scratchpad, memory, atomics, queues and streams (04, 13).

/-- R76, R77: `LDS` and `STS` at an address in range: the bytes of the cell's scratchpad, extended as SX says; a store changes its
bytes and no others. Out of range is fatal. R333: a load of a poisoned granule writes nothing and is UNCORRECTABLE. -/
def Obligations.ScratchpadAccess : Prop :=
  (∀ (s : State) (f : LdsF),
    let x : Int := (s.scalar f.a).toNat + f.disp.toInt
    let n := 2 ^ f.sz.toNat
    let v := leVal (s.spadRead s.pathL (s.iss.src / 4) x.toNat n)
    (0 ≤ x → s.spadUsable x.toNat n → spadHeld s.me.streams x.toNat n = false → s.spadPoisoned (s.iss.src / 4) x.toNat n = false →
      ∃ t, exec (.lds f) s = .next t ∧ t = { s with ctxs := t.ctxs, cells := t.cells } ∧ KeepsBytes s t ∧ OthersKept s t s.iss.src ∧
        t.me = { s.me with regs := t.me.regs } ∧
        (f.d ≠ 0 → t.me.reg (physReg s.iss.rrb f.d) = if f.sx then (BitVec.ofNat (8 * n) v).signExtend 64 else BitVec.ofNat 64 v) ∧
        ∀ r, f.d = 0 ∨ r ≠ physReg s.iss.rrb f.d → t.me.reg r = s.me.reg r) ∧
    (x < 0 ∨ 0x180000 < x.toNat + n → exec (.lds f) s = .next (s.fatal .spadRange))) ∧
  (∀ (s : State) (f : StsF),
    let x : Int := (s.scalar f.a).toNat + f.disp.toInt
    let n := 2 ^ f.sz.toNat
    (0 ≤ x → s.spadUsable x.toNat n → spadHeld s.me.streams x.toNat n = false →
      ∃ t, exec (.sts f) s = .next t ∧ t = { s with spad := t.spad, late := t.late, psnSpad := t.psnSpad, cells := t.cells } ∧
        SpadWritten s t s.pathL (s.iss.src / 4) x.toNat (leBytes n (s.scalar f.d).toNat)) ∧
    (x < 0 ∨ 0x180000 < x.toNat + n → exec (.sts f) s = .next (s.fatal .spadRange))) ∧
  (∀ (s : State) (f : LdsF),
    let x : Int := (s.scalar f.a).toNat + f.disp.toInt
    let n := 2 ^ f.sz.toNat
    0 ≤ x → s.spadUsable x.toNat n → spadHeld s.me.streams x.toNat n = false → s.spadPoisoned (s.iss.src / 4) x.toNat n = true →
    s.me.drogue = [] →
    ∃ t, exec (.lds f) s = .next t ∧ t.me.status = .frozen ∧ t.me.cause.extractLsb' 0 8 = 20 ∧ t.me.tval = s.iss.pc ∧
      t.me.regs = s.me.regs ∧ t.mem = s.mem ∧ t.spad = s.spad ∧ OthersKept s t s.iss.src)

/-- R82 to R85, R171, R173, R240, R241: a load through a usable tether reads its bytes as the thread's horizon shows them, or at
memory for an ORD page, or from a device register, and lands later within the bound of its latency class; a store is a store of the
thread not yet published, or for an ORD page published at once, or a write of a device register; a publishing `STM` then waits until
it is performed, and publishes. A peer's counter page gives a value the manual leaves open and takes no store; a failed link gives
poison. An access the tether does not allow, one of latency class 3 among them, is a bad tether access; a `SKEWED` or `STALE` tether
traps. R83, R240: a load lands in its register; a store is performed. An access of class 1 or 2 that nothing answers is completed when
four times its bound has passed: the load with poison, which is consumed there (R333), the store by being dropped and logged. The
log's code is the model's (log 42). -/
def Obligations.MemoryAccess : Prop :=
  ((∀ (s : State) (f : LdmF) (e : Entry),
    let off := s.offset f.x f.sc f.disp
    let n := 2 ^ f.sz.toNat
    let th := s.me.teth f.th
    let pa := ((th.anchor : Int) + off).toNat
    let v := leVal (if th.ord then s.bytesAt s.ordView false s.myPart pa n else s.loadBytes s.viewer s.myPart pa n)
    let psn := if th.ord then s.poisonAt s.ordView false s.myPart pa n else s.loadPoisoned s.viewer s.myPart pa n
    let bound := if th.lc = 0 then 400 else if th.lc = 1 then 1500 else if th.lc = 2 then 3000 else 0
    s.tethUsable f.th off n false false → memoryAt pa → s.memHeld s.iss.src s.me.streams pa n = false →
    s.me.bufA.find? (fun e => e.id = s.iss.id) = some e →
    ∃ t, exec (.ldm f) s = .next t ∧ t = { s with ctxs := t.ctxs, cells := t.cells } ∧ KeepsBytes s t ∧ OthersKept s t s.iss.src ∧
      t.me = { s.me with loads := s.me.loads ++ [⟨e, physReg s.iss.rrb f.d,
        if f.sx then (BitVec.ofNat (8 * n) v).signExtend 64 else BitVec.ofNat 64 v, psn,
          s.keel + (if bound = 0 then 2 ^ 64 else bound), bound, false⟩] }) ∧
  (∀ (s : State) (f : StmF),
    let off := s.offset f.x f.sc f.disp
    let n := 2 ^ f.sz.toNat
    let th := s.me.teth f.th
    let pa := ((th.anchor : Int) + off).toNat
    s.iss.prog ≠ 1 → f.pub = none → s.tethUsable f.th off n true false → memoryAt pa → s.memHeld s.iss.src s.me.streams pa n = false →
    (th.ord = true → s.atomLater pa n = false) →
    ∃ t v, exec (.stm f) s = .next t ∧ t = { s with vers := t.vers, seq := t.seq, cells := t.cells } ∧
      t.vers = s.vers ++ [v] ∧ v.cells = (s.addrs s.myPart pa n).zip (leBytes n (s.scalar f.d).toNat) ∧ v.src = s.iss.src ∧
      v.seq = s.seq ∧ v.own = s.iss.phase ∧
      (th.ord = true → v.atm = true ∧ v.pubs = [(.sys, ⟨s.keel, s.iss.src⟩)]) ∧
      (th.ord = false → v.pubs = [] ∧ v.done = false ∧ v.due = th.exp)) ∧
  (∀ (s : State) (f : StmF) (sc : Scope),
    let off := s.offset f.x f.sc f.disp
    let n := 2 ^ f.sz.toNat
    let th := s.me.teth f.th
    let pa := ((th.anchor : Int) + off).toNat
    s.iss.prog ≠ 1 → f.pub = some sc → s.tethUsable f.th off n true false → memoryAt pa → th.ord = false →
    s.memHeld s.iss.src s.me.streams pa n = false →
    ∃ t v, exec (.stm f) s = .next t ∧ t = { s with vers := t.vers, seq := t.seq, cells := t.cells, ctxs := t.ctxs, iss := t.iss } ∧
      OthersKept s t s.iss.src ∧ t.me = { s.me with wait := t.me.wait, qwaits := t.me.qwaits } ∧ t.iss.prog = 1 ∧ t.iss.flow = .stalled ∧
      t.vers = s.vers ++ [v] ∧ v.cells = (s.addrs s.myPart pa n).zip (leBytes n (s.scalar f.d).toNat) ∧ v.src = s.iss.src ∧
      v.pubs = [] ∧ v.done = false) ∧
  (∀ (s : State) (f : StmF) (sc : Scope), s.iss.prog = 1 → f.pub = some sc → s.mayBound sc = true →
    exec (.stm f) s = .next (s.publishNow sc)) ∧
  (∀ (s : State) (f : LdmF) (e : Entry),
    let off := s.offset f.x f.sc f.disp
    let n := 2 ^ f.sz.toNat
    let th := s.me.teth f.th
    let pa := ((th.anchor : Int) + off).toNat
    let bound := if th.lc = 0 then 400 else if th.lc = 1 then 1500 else if th.lc = 2 then 3000 else 0
    let lands (t : State) (v : Word) (psn : Bool) : Prop :=
      OthersKept s t s.iss.src ∧
        t.me = { s.me with loads := s.me.loads ++ [⟨e, physReg s.iss.rrb f.d, v, psn,
          s.keel + (if bound = 0 then 2 ^ 64 else bound), bound, false⟩] }
    s.tethUsable f.th off n false false → s.memHeld s.iss.src s.me.streams pa n = false →
    s.me.bufA.find? (fun e => e.id = s.iss.id) = some e →
    (paKind pa = .device ∨ paKind pa = .notify → devSizeOk pa n = true →
      ∃ t, exec (.ldm f) s = .next t ∧ t = { s with ctxs := t.ctxs, cells := t.cells } ∧ KeepsBytes s t ∧
        lands t (if f.sx then (BitVec.ofNat (8 * n) (s.devRead pa n)).signExtend 64 else (BitVec.ofNat (8 * n) (s.devRead pa n)).setWidth 64)
          false) ∧
    (paKind pa = .peer → ∃ t v, exec (.ldm f) s = .next t ∧ t = { s with ctxs := t.ctxs, cells := t.cells, choices := t.choices } ∧
      lands t v (!(s.port ((pa - 0xF10000000000) / 2 ^ 24)).up))) ∧
  (∀ (s : State) (f : StmF),
    let off := s.offset f.x f.sc f.disp
    let n := 2 ^ f.sz.toNat
    let th := s.me.teth f.th
    let pa := ((th.anchor : Int) + off).toNat
    s.iss.prog ≠ 1 → f.pub = none → s.tethUsable f.th off n true false → s.memHeld s.iss.src s.me.streams pa n = false →
    (th.ord = true → s.atomLater pa n = false) →
    (paKind pa = .device ∨ paKind pa = .notify → devSizeOk pa n = true →
      ∃ t u : State, exec (.stm f) s = .next t ∧ u = { s with cells := u.cells } ∧
        t = u.devStore s.iss.src pa n (leVal (leBytes n (s.scalar f.d).toNat)) false) ∧
    (paKind pa = .peer → ∃ t, exec (.stm f) s = .next t ∧ t = { s with cells := t.cells, fw := t.fw } ∧
      t.fw = if (s.port ((pa - 0xF10000000000) / 2 ^ 24)).up then s.fw else { s.fw with log := s.fw.log ++ [(s.keel, 20)] })) ∧
  (∀ (s : State) (f : LdmF) (g : StmF),
    let bad (th : BitVec 4) (off : Int) (n : Nat) (w : Bool) : Prop :=
      (s.me.teth th).stat ∈ [TStat.miss, .noperm, .released, .none] ∨
      ((s.me.teth th).stat = .ok ∧ ((s.me.teth th).exp ≤ s.keel ∨ ((s.me.teth th).anchor : Int) + off < (s.me.teth th).pbase ∨
        ((s.me.teth th).pbase : Int) + pageSize (s.me.teth th).sz < (s.me.teth th).anchor + off + n ∨ (w = true ∧ (s.me.teth th).w = false) ∨
        (s.me.teth th).lc = 3))
    (bad f.th (s.offset f.x f.sc f.disp) (2 ^ f.sz.toNat) false →
      exec (.ldm f) s = .next (s.fatal .badTether (f.th.setWidth 32))) ∧
    (s.iss.prog ≠ 1 → bad g.th (s.offset g.x g.sc g.disp) (2 ^ g.sz.toNat) true →
      exec (.stm g) s = .next (s.fatal .badTether (g.th.setWidth 32))) ∧
    ((s.me.teth f.th).stat = .skewed → exec (.ldm f) s = .next (s.trap .skew)) ∧
    ((s.me.teth f.th).stat = .stale → exec (.ldm f) s = .next (s.pageFault f.th.toNat .stale (s.me.teth f.th).vanc.toNat)) ∧
    (s.iss.prog ≠ 1 → (s.me.teth g.th).stat = .skewed → exec (.stm g) s = .next (s.trap .skew)) ∧
    (s.iss.prog ≠ 1 → (s.me.teth g.th).stat = .stale →
      exec (.stm g) s = .next (s.pageFault g.th.toNat .stale (s.me.teth g.th).vanc.toNat)))) ∧
  ((∀ (s : State) (l : PLoad), (s.ctx s.arg.a).loads.find? (fun l => l.ent.id = s.arg.b) = some l → l.poison = false →
    l.late = false → s.arg.flg = false → ∃ t, exec .memoryLoadLands s = .next t ∧ t = { s with ctxs := t.ctxs } ∧ OthersKept s t s.arg.a ∧
      t.ctx s.arg.a = { s.ctx s.arg.a with
        loads := (s.ctx s.arg.a).loads.filter (fun x => x.ent.id ≠ s.arg.b)
        regs := if l.dest = 0 then (s.ctx s.arg.a).regs else (s.ctx s.arg.a).regs.set l.dest.toNat l.value l.dest.isLt }) ∧
  (∀ (s : State) (l : PLoad), l ∈ (s.ctx s.arg.a).loads → l.ent.id = s.arg.b → s.arg.b ≠ 0 → s.arg.flg = true → 400 < l.bound →
    l.late = false → ∃ t, exec .memoryLoadLands s = .next t ∧ t = { s with ctxs := t.ctxs } ∧ OthersKept s t s.arg.a ∧
      (t.ctx s.arg.a).regs = (s.ctx s.arg.a).regs ∧ { l with late := true, due := l.due + 3 * l.bound } ∈ (t.ctx s.arg.a).loads) ∧
  (∀ (s : State) (l : PLoad), (s.ctx s.arg.a).loads.find? (fun l => l.ent.id = s.arg.b) = some l → s.arg.flg = false →
    (l.late = true → s.keel < l.due → exec .memoryLoadLands s = .next s) ∧
    (l.poison = true ∨ l.late = true → (l.late = true → l.due ≤ s.keel) → (s.ctx s.arg.a).drogue = [] →
      ∃ t, exec .memoryLoadLands s = .next t ∧ OthersKept s t s.arg.a ∧ (t.ctx s.arg.a).status = .frozen ∧
        (t.ctx s.arg.a).cause.extractLsb' 0 8 = 20 ∧ (t.ctx s.arg.a).tval = l.ent.pc ∧
        (t.ctx s.arg.a).regs = (s.ctx s.arg.a).regs ∧ t.mem = s.mem)) ∧
  (∀ (s : State) (v : Ver),
    let mine (w : Ver) : Bool := decide (w.src = s.arg.a ∧ w.seq = s.arg.b ∧ (w.done = false ∨ w.away = true))
    s.arg.flg = false → s.arg.b ≠ 0 → s.vers.find? mine = some v →
    (v.lost = false → ∃ t, exec .memoryStorePerformed s = .next t ∧
      t = { s with vers := t.vers, ctxs := t.ctxs } ∧ OthersKept s t s.arg.a ∧
      t.ctx s.arg.a = { s.ctx s.arg.a with tried := (t.ctx s.arg.a).tried } ∧
      t.vers = s.vers.map fun w => if mine w then { w with done := true, away := false } else w) ∧
    (v.lost = true → s.keel < v.perf → exec .memoryStorePerformed s = .next s) ∧
    (v.lost = true → v.perf ≤ s.keel → ∃ t, exec .memoryStorePerformed s = .next t ∧
      t = { s with vers := t.vers, ctxs := t.ctxs, fw := t.fw } ∧ OthersKept s t s.arg.a ∧ t.fw.log = s.fw.log ++ [(s.keel, 20)] ∧
      ∀ w, w ∈ t.vers ↔ w ∈ s.vers ∧ mine w = false)) ∧
  (∀ (s : State) (v : Ver), s.arg.flg = true → s.arg.b ≠ 0 → v ∈ s.vers → v.src = s.arg.a → v.seq = s.arg.b → v.done = false →
    400 < v.bound → v.lost = false → ∃ t, exec .memoryStorePerformed s = .next t ∧ t = { s with vers := t.vers } ∧
      { v with lost := true, perf := v.perf + 3 * v.bound } ∈ t.vers))

/-- R86, R87, R172: what each atomic through a tether to memory reads, writes and returns. With PB the thread's stores are published
at the same stamp; with SP a new phase begins. `amoOps` and `amosOps` list the ten forms of each, `amoAdd` to `amoCas` and `amosAdd`
to `amosCas`. R86, R87: the atomics on the scratchpad; PB publishes at cell scope. R241, R362: an atomic on a device register reads
and writes it; one on a peer's counter page reads a value that the manual leaves open and writes nothing; a misaligned one is a bad
tether access. -/
def Obligations.Atomics : Prop :=
  (∀ (s : State) (f : AmoF) (c : Reg) (i : Instr) (op : (w : Nat) → BitVec w → BitVec w → Option (BitVec w)),
    (i, op) ∈ amoOps f c s →
    let n := if f.wide then 8 else 4
    let pa := (((s.me.teth f.th).anchor : Int) + (s.scalar f.a).toInt).toNat
    let p := if f.pb then s.publish s.iss.src f.scope else s
    let b := decide (f.pb = true ∨ f.sp = true)
    let old : BitVec (8 * n) := BitVec.ofNat (8 * n) (leVal (p.bytesAt s.viewerNow false s.myPart pa n))
    let new := op (8 * n) old ((s.scalar f.b).setWidth (8 * n))
    s.tethUsable f.th (s.scalar f.a).toInt n true false → memoryAt pa → pa % n = 0 → s.memHeld s.iss.src s.me.streams pa n = false →
    s.atomLater pa n = false → s.poisonAt s.viewerNow false s.myPart pa n = false → (f.pb = true → s.mayPublish f.scope = true) →
    (b = true → s.me.lastB ≤ s.keel) →
    ∃ t, exec i s = .next t ∧
      t = { s with ctxs := t.ctxs, vers := t.vers, seq := t.seq, cells := t.cells, atoms := t.atoms } ∧ OthersKept s t s.iss.src ∧
      (f.sp = false → t.me = { s.me with regs := t.me.regs, lastB := if f.pb then s.keel + 1 else s.me.lastB }) ∧
      (f.sp = true → t.me = { s.me with
        regs := t.me.regs, hzn := ⟨s.keel, s.iss.src⟩, phase := s.me.phase + 1, lastB := s.keel + 1 }) ∧
      (f.d ≠ 0 → t.me.reg (physReg s.iss.rrb f.d) = old.signExtend 64) ∧
      (∀ r, f.d = 0 ∨ r ≠ physReg s.iss.rrb f.d → t.me.reg r = s.me.reg r) ∧
      (new = none → t.vers = p.vers) ∧
      (∀ x, new = some x → ∃ v, t.vers = p.vers ++ [v] ∧ v.cells = (s.addrs s.myPart pa n).zip (leBytes n x.toNat) ∧
        v.src = s.iss.src ∧ v.atm = true ∧ v.pubs = [(f.scope, ⟨s.keel, s.iss.src⟩)])) ∧
  ((∀ (s : State) (f : AmosF) (c : Reg) (i : Instr) (op : (w : Nat) → BitVec w → BitVec w → Option (BitVec w)),
    (i, op) ∈ amosOps f c s →
    let n := if f.wide then 8 else 4
    let x := (s.scalar f.a).toNat
    let old : BitVec (8 * n) := BitVec.ofNat (8 * n) (leVal (s.spadRead s.pathL (s.iss.src / 4) x n))
    let new := op (8 * n) old ((s.scalar f.b).setWidth (8 * n))
    (x % n ≠ 0 → exec i s = .next (s.fatal .spadRange)) ∧
    (x % n = 0 → s.spadUsable x n → spadHeld s.me.streams x n = false → s.spadPoisoned (s.iss.src / 4) x n = false →
      (f.pb = true → s.mayPublish .cell = true) → (f.pb = true ∨ f.sp = true → s.me.lastB ≤ s.keel) →
      ∃ t, exec i s = .next t ∧
        t = { s with ctxs := t.ctxs, vers := t.vers, spad := t.spad, late := t.late, psnSpad := t.psnSpad, cells := t.cells } ∧
        OthersKept s t s.iss.src ∧ t.vers = (if f.pb then s.publish s.iss.src .cell else s).vers ∧
        (f.d ≠ 0 → t.me.reg (physReg s.iss.rrb f.d) = old.signExtend 64) ∧
        (∀ r, f.d = 0 ∨ r ≠ physReg s.iss.rrb f.d → t.me.reg r = s.me.reg r) ∧
        (new = none → t.spad = s.spad ∧ t.late = s.late) ∧
        ∀ y, new = some y → SpadWritten s t s.pathL (s.iss.src / 4) x (leBytes n y.toNat))) ∧
  (∀ (s : State) (f : AmoF) (c : Reg) (i : Instr) (op : (w : Nat) → BitVec w → BitVec w → Option (BitVec w)),
    (i, op) ∈ amoOps f c s →
    let n := if f.wide then 8 else 4
    let pa := (((s.me.teth f.th).anchor : Int) + (s.scalar f.a).toInt).toNat
    let p := if f.pb then s.publish s.iss.src f.scope else s
    let old : BitVec (8 * n) := BitVec.ofNat (8 * n) (s.devRead pa n)
    let new := op (8 * n) old ((s.scalar f.b).setWidth (8 * n))
    let Reads (t : State) (v : Word) : Prop := (f.d ≠ 0 → t.me.reg (physReg s.iss.rrb f.d) = v) ∧
      ∀ r, f.d = 0 ∨ r ≠ physReg s.iss.rrb f.d → t.me.reg r = s.me.reg r
    s.tethUsable f.th (s.scalar f.a).toInt n true false →
    (pa % n ≠ 0 → exec i s = .next (s.fatal .badTether (f.th.setWidth 32))) ∧
    (pa % n = 0 → s.memHeld s.iss.src s.me.streams pa n = false → s.atomLater pa n = false → (f.pb = true → s.mayPublish f.scope = true) →
      (f.pb = true ∨ f.sp = true → s.me.lastB ≤ s.keel) →
      (paKind pa = .device ∨ paKind pa = .notify → ∃ t u : State, exec i s = .next t ∧
        u = { s with ctxs := u.ctxs, vers := p.vers, cells := u.cells } ∧ Reads t (old.signExtend 64) ∧
        (new = none → t = { u with ctxs := t.ctxs }) ∧
        ∀ x, new = some x → t = { u.devStore s.iss.src pa n x.toNat true with ctxs := t.ctxs }) ∧
      (paKind pa = .peer → (s.port (peerPort pa)).up = true → ∃ (t : State) (v : Word), exec i s = .next t ∧
        t = { s with ctxs := t.ctxs, vers := p.vers, cells := t.cells, choices := t.choices } ∧ Reads t v))))

/-- R75: the queue instructions. `QADV` discards filled slots as far as it counts; `QSTAT` tells; `QCFG` sets the depth; `QCLR`
empties the queue and the latches fed from it. Which latches `QCLR` empties is the model's reading (log 22). -/
def Obligations.QueueInstructions : Prop :=
  ∀ (d a : Reg) (q : QSel) (n : Count 8),
    ChangesMe (fun s => s.iss.prog = 0 ∧ s.count 16 n ≤ (s.me.queue q).filled s.keel ∧ (s.count 16 n = 0 ∨ s.me.poppers q = false))
      (.qadv q n) (fun s c => if s.count 16 n = 0 then c else c.setQueue q { c.queue q with
        slots := (c.queue q).slots.drop (s.count 16 n), popped := (c.queue q).popped + s.count 16 n
        pops := (s.keel + 1, (if (c.queue q).pops.1 = s.keel + 1 then (c.queue q).pops.2 else 0) + s.count 16 n) }) ∧
    WritesReg (.qstat d q) d (fun s => BitVec.ofNat 64 ((s.me.queue q).slots.length % 16 +
      (if ∃ x ∈ (s.me.queue q).slots.head?, x.fin = true then 16 else 0) + (if s.me.producerWaits q then 32 else 0))) ∧
    ChangesMe (fun _ => True) (.qcfg a q) (fun s c => c.setQueue q { c.queue q with
      depth := if 1 ≤ (s.scalar a).toNat % 16 ∧ (s.scalar a).toNat % 16 ≤ 8 then (s.scalar a).toNat % 16 else 8 }) ∧
    (∀ s, s.me.poppers q = false → ∃ t, exec (.qclr q) s = .next t ∧ OnlyMine s t ∧
      t.me = { s.me with lqs := t.me.lqs, sqs := t.me.sqs, latchA := t.me.latchA, latchB := t.me.latchB } ∧
      (t.me.queue q).slots = [] ∧ (t.me.queue q).depth = (s.me.queue q).depth ∧ (t.me.queue q).prods = (s.me.queue q).prods ∧
      (∀ p, p ≠ q → t.me.queue p = s.me.queue p) ∧
      (q.store = true → t.me.latchA = s.me.latchA ∧ t.me.latchB = s.me.latchB) ∧
      (∀ r k, q.store = false → s.me.latchA = some ⟨r, some (q.q, k)⟩ → (s.me.queue q).popped ≤ k → t.me.latchA = none) ∧
      (∀ r k, q.store = false → s.me.latchB = some ⟨r, some (q.q, k)⟩ → (s.me.queue q).popped ≤ k → t.me.latchB = none))

/-- R78, R80, R296: a stream instruction becomes an active stream with the values it captured, at most four of a thread; a handle
stream needs its handle open in a fitting mode. R79 to R81, R296, R297: a row of a load stream lands in its queue, the last with END;
a row of a store stream pops its slot and stores it. A row that needs a lease its cell does not hold gets it from the walkers. -/
def Obligations.Streams : Prop :=
  (∀ (f : StreamF) (g : MStreamF) (h : HStreamF) (s : State) (e : Entry), s.me.streams.length + s.me.endedNow s.keel < 4 →
    s.me.bufA.find? (fun e => e.id = s.iss.id) = some e →
    let Starts (i : Instr) (base stride : Word) (n : Count 16) : Prop := ∃ t, exec i s = .next t ∧ OnlyMine s t ∧ t.iss = s.iss ∧
      t.me = { s.me with streams := s.me.streams ++ [⟨{ e with prog := s.iss.prog }, base, stride,
        match n with | .reg r => (s.scalar r).toNat % 2 ^ 32 | .imm k => k.toNat⟩] }
    Starts (.ldq f) (s.scalar f.a) (s.scalar f.s) f.n ∧ Starts (.stq f) (s.scalar f.a) (s.scalar f.s) f.n ∧
    Starts (.ldmq g) (s.scalar g.a) (s.scalar g.s) g.n ∧ Starts (.stmq g) (s.scalar g.a) (s.scalar g.s) g.n ∧
    ((s.me.mh h.mh).isOpen = true → (s.me.mh h.mh).mode ≠ 1 → Starts (.ldrq h) (s.scalar h.a) 0 h.n) ∧
    ((s.me.mh h.mh).isOpen = true → (s.me.mh h.mh).mode ≠ 0 → Starts (.strq h) (s.scalar h.a) 0 h.n) ∧
    ((s.me.mh h.mh).isOpen = false → exec (.ldrq h) s = .next (s.fatal .badHandle (h.mh.setWidth 32)) ∧
      exec (.strq h) s = .next (s.fatal .badHandle (h.mh.setWidth 32)))) ∧
  ((∀ (s : State) (x : Stream),
    let src := s.arg.a
    let c := s.ctx src
    let a : Int := x.base.toNat + x.ent.prog * x.stride.toInt
    let last := decide (x.ent.prog + 1 = x.count)
    let b := s.beginU src .a x.ent
    (s.cell (src / 4)).rowAt ≤ s.keel → s.eventStream = some x → x.at_ = .spad → x.q.store = false → c.rowReady s.keel x = true → x.count ≠ 0 → 0 ≤ a →
    b.spadUsable a.toNat x.n → spadHeld (c.before x) a.toNat x.n = false → s.spadPoisoned (src / 4) a.toNat x.n = false →
    ∃ t, exec .loadStreamRow s = .next t ∧ t.mem = s.mem ∧ t.spad = s.spad ∧ t.banks = s.banks ∧ OthersKept s t src ∧
      ((t.ctx src).queue x.q).slots = (c.queue x.q).slots ++ [⟨rowOf (s.spadRead b.pathL (src / 4) a.toNat x.n), last, none, false, s.keel + 1⟩] ∧
      (t.ctx src).regs = c.regs ∧ (t.ctx src).pc = c.pc ∧
      (t.ctx src).streams = if last then c.streams.filter (fun y => y.ent.id ≠ x.ent.id) else
        c.streams.map fun y => if y.ent.id = x.ent.id then { y with ent := { y.ent with prog := y.ent.prog + 1 } } else y) ∧
  (∀ (s : State) (x : Stream) (sl : Slot) (rest : List Slot) (th : BitVec 4),
    let src := s.arg.a
    let c := s.ctx src
    let off : Int := x.base.toInt + x.ent.prog * x.stride.toInt
    let b := s.beginU src .a x.ent
    let pa := (((c.teth th).anchor : Int) + off).toNat
    (s.cell (src / 4)).rowAt ≤ s.keel → s.eventStream = some x → x.at_ = .teth th → x.q.store = true → c.rowReady s.keel x = true → (c.queue x.q).slots = sl :: rest →
    sl.at_ ≤ s.keel → sl.poison = false → sl.crc = none → b.tethUsable th off x.n true true → memoryAt pa → (c.teth th).ord = false →
    s.memHeld src (c.before x) pa x.n = false →
    ∃ t v, exec .storeStreamRow s = .next t ∧ t.mem = s.mem ∧ t.spad = s.spad ∧ t.banks = s.banks ∧ OthersKept s t src ∧
      t.vers.take (s.vers.length + 1) = s.vers ++ [v] ∧
      v.cells = (s.addrs (s.partOfSrc src) pa x.n).zip ((rowBytes sl.data).take x.n) ∧ v.src = src ∧ v.pubs = [] ∧
      ((t.ctx src).queue x.q).slots = rest ∧ ((t.ctx src).queue x.q).popped = (c.queue x.q).popped + 1 ∧
      ((x.count ≠ 0 ∧ x.ent.prog + 1 = x.count) ∨ (x.count = 0 ∧ sl.fin = true) →
        (t.ctx src).streams = c.streams.filter (fun y => y.ent.id ≠ x.ent.id))) ∧
  (∀ (s : State) (x : Stream) (mh : BitVec 4) (va : Int) (n a : Nat) (lf : Leaf),
    let src := s.arg.a
    s.eventStream = some x → x.at_ = .handle mh → s.handleRow src x mh x.ent.prog = some (va, n) →
    s.handlePieces (src / 4) x.q.store va n = .error a → s.skew = false → s.walk (s.partOfSrc src) a = .ok lf →
    (x.q.store = true → lf.w = true ∧ lf.wb = false ∧ s.writeLeaseAllowed lf = true) →
    ∃ t l, exec .streamRowGrant s = .next t ∧ t.ctxs = s.ctxs ∧ l ∈ (t.cell (src / 4)).leases ∧ l.va = pageBase lf a ∧
      l.pbase = lf.pa ∧ l.exp = s.keel + 2 ^ (lf.f 10 4 + 8) - 64))

-- Vector instructions (06, 07).

/-- R124, R99: the floating-point instructions: each element is the exact result of the operation rounded once, or for the moves the
element's bits with a NaN made canonical. -/
def Obligations.VectorFloats : Prop :=
  ∀ (f : VBin) (g : VUn) (m : VMov2) (v : VMov1),
    let two (i : Instr) (op : Sys2Proof.Num → Sys2Proof.Num → Sys2Proof.Num × Bool) := VectorOp i f.a (some f.b) none f.od f.ty.width f.ty.width (fun _ x y =>
      ((elems f.ty.width x).zip (elems f.ty.width y)).map fun p => rounded f.ty f.rm f.sat (op (f.ty.num p.1) (f.ty.num p.2)))
    let three (i : Instr) (neg : Bool) := f.od ∉ (List.range 4).map (fun q => Dst.queue (BitVec.ofNat 2 q)) →
      VectorOp i f.a (some f.b) (some f.od) f.od f.ty.width f.ty.width (fun s x y =>
        (((elems f.ty.width x).zip (elems f.ty.width y)).zip (elems f.ty.width (s.me.gridVec s.iss.rrb f.od))).map fun p =>
          rounded f.ty f.rm f.sat (Sys2Proof.Num.fma f.rm neg (f.ty.num p.1.1) (f.ty.num p.1.2) (f.ty.num p.2)))
    let one (i : Instr) (op : Sys2Proof.Num → Sys2Proof.Num × Bool) := VectorOp i g.a none none g.od g.ty.width g.ty.width (fun _ x _ =>
      (elems g.ty.width x).map fun x => rounded g.ty g.rm g.sat (op (g.ty.num x)))
    let pick (i : Instr) (larger : Bool) := VectorOp i m.a (some m.b) none m.od m.ty.width m.ty.width (fun _ x y =>
      ((elems m.ty.width x).zip (elems m.ty.width y)).map fun p =>
        if (m.ty.num p.1).isNan ∨ (m.ty.num p.2).isNan then ((fmtOf m.ty).nanCode, fNP)
        else if (if larger then Sys2Proof.Num.lt true (m.ty.num p.1) (m.ty.num p.2) else Sys2Proof.Num.lt true (m.ty.num p.2) (m.ty.num p.1))
          then (p.2, 0) else (p.1, 0))
    let bits (i : Instr) (op : Nat → Nat) := VectorOp i v.a none none v.od v.ty.width v.ty.width (fun _ x _ =>
      (elems v.ty.width x).map fun x => if (v.ty.num x).isNan then ((fmtOf v.ty).nanCode, fNP) else (op x, 0))
    two (.vadd f) (Sys2Proof.Num.add f.rm) ∧ two (.vsub f) (fun a b => Sys2Proof.Num.add f.rm a b.neg) ∧ two (.vmul f) Sys2Proof.Num.mul ∧ two (.vdiv f) Sys2Proof.Num.div ∧
    three (.vfma f) false ∧ three (.vfnma f) true ∧
    one (.vrcp g) (Sys2Proof.Num.div (.fin false 1 0 false)) ∧ one (.vrsq g) Sys2Proof.Num.rsqrt ∧ one (.vsqrt g) Sys2Proof.Num.sqrt ∧ one (.vlog2 g) Sys2Proof.Num.log2 ∧
    one (.vexp2 g) (fun x => (x.exp2, false)) ∧ pick (.vmax m) true ∧ pick (.vmin m) false ∧
    bits (.vabs v) (fun x => x % 2 ^ (v.ty.width - 1)) ∧ bits (.vneg v) (fun x => (x + 2 ^ (v.ty.width - 1)) % 2 ^ v.ty.width) ∧
    bits (.vcpy v) id

/-- R125: the integer instructions. Add, subtract and multiply wrap, or saturate with SAT; a shift count is taken modulo the element's
width; no flag is set. -/
def Obligations.VectorIntegers : Prop :=
  ∀ (f : VIntF) (m : VMov2),
    let arith (i : Instr) (op : Int → Int → Int) := VectorOp i f.a (some f.b) none f.od f.ty.width f.ty.width (fun _ x y =>
      ((elems f.ty.width x).zip (elems f.ty.width y)).map fun p =>
        let r := op (f.ty.int p.1) (f.ty.int p.2)
        (((if f.sat then max f.ty.least (min f.ty.greatest r) else r) % 2 ^ f.ty.width).toNat, 0))
    let bits (i : Instr) (op : BitVec m.ty.width → BitVec m.ty.width → BitVec m.ty.width) :=
      VectorOp i m.a (some m.b) none m.od m.ty.width m.ty.width (fun _ x y =>
        ((elems m.ty.width x).zip (elems m.ty.width y)).map fun p => ((op (BitVec.ofNat _ p.1) (BitVec.ofNat _ p.2)).toNat, 0))
    arith (.viadd f) (· + ·) ∧ arith (.visub f) (· - ·) ∧ arith (.vimul f) (· * ·) ∧
    bits (.vand m) (· &&& ·) ∧ bits (.vor m) (· ||| ·) ∧ bits (.vxor m) (· ^^^ ·) ∧
    bits (.vshl m) (fun a b => a <<< (b.toNat % m.ty.width)) ∧ bits (.vshr m) (fun a b => a >>> (b.toNat % m.ty.width)) ∧
    bits (.vsra m) (fun a b => a.sshiftRight (b.toNat % m.ty.width)) ∧
    bits (.vimin m) (fun a b => if m.ty.isSigned then (if b.toInt < a.toInt then b else a) else (if b.toNat < a.toNat then b else a)) ∧
    bits (.vimax m) (fun a b => if m.ty.isSigned then (if a.toInt < b.toInt then b else a) else (if a.toNat < b.toNat then b else a))

/-- R126: a compare writes its mask: a lane's bit is 1 where the test holds for every element of the lane and the lane is included; an
excluded lane's bit is 0, or kept where `LANE` merges. Nothing else of the thread changes but what reading its operands does. -/
def Obligations.VectorCompares : Prop :=
  ∀ f : VCmpF,
    let cmp (i : Instr) (test : Nat → Nat → Bool) := ∀ s : State, s.opsReady 1 f.a (some f.b) none [] →
      let x := elems f.ty.width (s.opndVec f.ty.width 0 s.me.latchA f.a)
      let y := elems f.ty.width (s.opndVec f.ty.width 0 s.me.latchB f.b)
      let k := 32 / f.ty.width
      ∃ t, exec i s = .next t ∧ OpsTaken s t 1 f.ty.width f.ty.width f.a (some f.b) ∧ t.me.grid = s.me.grid ∧
        t.me.sqs = s.me.sqs ∧ t.me.nflags = s.me.nflags ∧ (∀ q, q ≠ f.m → t.me.mask q = s.me.mask q) ∧
        ∀ j, j < 48 → (t.me.mask f.m).getLsbD j =
          if s.lanes.getLsbD j then decide (∀ e, j * k ≤ e → e < j * k + k → test (x[e]?.getD 0) (y[e]?.getD 0) = true)
          else decide ((s.iss.lane.map (·.merge)) = some true) && (s.me.mask f.m).getLsbD j
    cmp (.vcmpEq f) (fun a b => (f.ty.num a).eq (f.ty.num b)) ∧ cmp (.vcmpNe f) (fun a b => !((f.ty.num a).eq (f.ty.num b))) ∧
    cmp (.vcmpLt f) (fun a b => (f.ty.num a).lt false (f.ty.num b)) ∧
    cmp (.vcmpLe f) (fun a b => (f.ty.num a).lt false (f.ty.num b) || (f.ty.num a).eq (f.ty.num b)) ∧
    cmp (.vcmpUn f) (fun a b => (f.ty.num a).isNan || (f.ty.num b).isNan) ∧ cmp (.vcmpIeq f) (fun a b => decide (a = b)) ∧
    cmp (.vcmpIlt f) (fun a b => decide ((BitVec.ofNat f.ty.width a).toInt < (BitVec.ofNat f.ty.width b).toInt)) ∧
    cmp (.vcmpIltu f) (fun a b => decide (a < b))

/-- R127 to R135: the conversions, quantisations, reductions and moves, wherever their operands are there. -/
def Obligations.VectorConversionsAndMoves : Prop :=
  (∀ f : VCvtF, VectorOp (.vcvt f) f.a none none f.od f.src.width f.dst.width (fun _ x _ =>
    ((elems f.src.width x).take (min f.dst.count f.src.count)).map (convert f.dst f.src f.rm f.sat) ++
      List.replicate (f.dst.count - min f.dst.count f.src.count) (0, 0))) ∧
  (∀ f : VMov2, VectorOp (.vperm f) f.a (some f.b) none f.od f.ty.width f.ty.width (fun _ x y =>
    (elems f.ty.width y).map fun i => movElem f.ty ((elems f.ty.width x)[i]?.getD 0))) ∧
  (∀ f : VImmF, VectorOp (.vrot f) f.a none none f.od f.ty.width f.ty.width (fun _ x _ =>
    (List.range f.ty.count).map fun i => movElem f.ty ((elems f.ty.width x)[(i + f.n.toNat) % f.ty.count]?.getD 0))) ∧
  (∀ f : VImmF, VectorOp (.vbcast f) f.a none none f.od f.ty.width f.ty.width (fun _ x _ =>
    (List.range f.ty.count).map fun _ => movElem f.ty ((elems f.ty.width x)[f.n.toNat]?.getD 0))) ∧
  (∀ f : VSelF, VectorOp (.vsel f) f.a (some f.b) none f.od f.ty.width f.ty.width (fun s x y =>
    ((elems f.ty.width x).zip (elems f.ty.width y)).zipIdx.map fun p =>
      movElem f.ty (if (s.me.mask f.m).getLsbD (p.2 * f.ty.width / 32) then p.1.1 else p.1.2))) ∧
  (∀ (d : Reg) (ty : ETy) (i : W32) (s : State), ∃ t, exec (.vldi d ty i) s = .next t ∧
    t = { s with ctxs := t.ctxs, psnGrid := t.psnGrid } ∧ OthersKept s t s.iss.src ∧ t.me = { s.me with grid := t.me.grid } ∧
    WritesVec s t (.row d) (fun j => BitVec.ofNat 32 (((List.range (32 / ty.width)).map fun k =>
      2 ^ (ty.width * k) * ((if j % 2 = 1 then s.iss.xtnd.getD i else i).toNat % 2 ^ ty.width)).sum))) ∧
  (∀ (f : VMov1) (larger : Bool) (s : State), s.opsReady 1 f.a none none (pushesOf f.od) →
    let w := f.ty.width
    let l := ((elems w (s.opndVec w 0 s.me.latchA f.a)).zipIdx.filter fun p => inLanes s.lanes w p.2).map (·.1)
    let all := { s with iss := { s.iss with lane := none } }
    ∃ t c, exec (if larger then .vrmax f else .vrmin f) s = .next t ∧ t.mem = s.mem ∧ t.spad = s.spad ∧ OthersKept s t s.iss.src ∧
      WritesVec all t f.od (rowWord (ofElems w (List.replicate (1536 / w) c))) ∧
      (l = [] → c = redIdentity f.ty larger ∧ t.me.nflags = s.me.nflags) ∧
      ((∃ x ∈ l, (f.ty.num x).isNan = true) → c = (fmtOf f.ty).nanCode ∧ t.me.nflags = s.me.nflags ||| fNP) ∧
      (l ≠ [] → (∀ x ∈ l, (f.ty.num x).isNan = false) → c ∈ l ∧ t.me.nflags = s.me.nflags ∧
        ∀ x ∈ l, (if larger then Sys2Proof.Num.lt true (f.ty.num c) (f.ty.num x) else Sys2Proof.Num.lt true (f.ty.num x) (f.ty.num c)) = false)) ∧
  (∀ (f : VUn) (s : State), s.opsReady 1 f.a none none (pushesOf f.od) →
    let v := s.opndVec f.ty.width 0 s.me.latchA f.a
    let all := { s with iss := { s.iss with lane := none } }
    let r := treeSum f.rm f.sat ((List.range 48).map fun j =>
      if s.lanes.getLsbD j then laneSum f.ty f.rm f.sat (rowWord v j) else (0, 0))
    let c := convert f.ty .f32 f.rm f.sat r.1
    ∃ t, exec (.vsum f) s = .next t ∧ t.mem = s.mem ∧ t.spad = s.spad ∧ OthersKept s t s.iss.src ∧
      WritesVec all t f.od (rowWord (ofElems f.ty.width (List.replicate (1536 / f.ty.width) c.1))) ∧
      t.me.nflags = s.me.nflags ||| (r.2 ||| c.2)) ∧
  (∀ (f : VQntF) (s : State),
    let g := groupSize f.dst f.src
    let r := quantRow f.dst (((List.range g).flatMap fun i => elems f.src.width (s.vecOf f.src.width i f.a)).map f.src.num)
    let Done (t : State) : Prop := exec (.vqnt f) s = .next t ∧ OpsTaken s t g f.src.width f.src.width (.from f.a) none ∧
      t.me.masks = s.me.masks ∧ t.me.nflags = s.me.nflags ||| r.2.2
    (∀ q, f.od = .queue q → s.opsReady g (.from f.a) none none [(q, 1), (q + 1, 1)] → ∃ t, Done t ∧ t.me.grid = s.me.grid ∧
      PushesOnly s t [q, q + 1] ∧ (t.me.sq q).slots = (s.me.sq q).slots ++ [⟨r.1, false, none, false, s.keel + 1⟩] ∧
      (t.me.sq (q + 1)).slots = (s.me.sq (q + 1)).slots ++ [⟨r.2.1, false, none, false, s.keel + 1⟩]) ∧
    (∀ i, f.od = .row i → s.iss.lane = none → i.toNat < 47 → s.opsReady g (.from f.a) none none [] → ∃ t, Done t ∧ PushesOnly s t [] ∧
      ∀ k, k < 48 → t.me.row k = if k = (physRow s.iss.rrb (i + 1)).toNat then r.2.1
        else if k = (physRow s.iss.rrb i).toNat then r.1 else s.me.row k)) ∧
  (∀ (f : VDqF) (s : State),
    let g := groupSize f.src f.dst
    let sc := s.opndVec 8 0 s.me.latchB f.b
    let rs := (blockElems f.src (s.opndVec 8 0 s.me.latchA f.a)).zipIdx.map fun p =>
      rounded f.dst f.rm f.sat (blockNum f.src p.1 (scaleAt sc p.2) (f.pd.toNat + 2) f.pf, false)
    let row (k : Nat) : Row := ofElems f.dst.width (((rs.map (·.1)).drop (k * (1536 / f.dst.width))).take (1536 / f.dst.width))
    let Done (t : State) : Prop := exec (.vdq f) s = .next t ∧ OpsTaken s t 1 8 8 f.a (some f.b) ∧
      t.me.masks = s.me.masks ∧ t.me.nflags = s.me.nflags ||| (rs.foldl (fun acc r => acc ||| r.2) 0)
    (∀ q, f.od = .queue q → s.opsReady 1 f.a (some f.b) none [(q, g)] → ∃ t, Done t ∧ t.me.grid = s.me.grid ∧ PushesOnly s t [q] ∧
      (t.me.sq q).slots = (s.me.sq q).slots ++ (List.range g).map fun k => ⟨row k, false, none, false, s.keel + 1⟩) ∧
    (∀ i, f.od = .row i → s.iss.lane = none → i.toNat + g ≤ 48 → s.opsReady 1 f.a (some f.b) none [] →
      ∃ t, Done t ∧ PushesOnly s t [] ∧ (∀ k, k < g → t.me.row (physRow s.iss.rrb (i + BitVec.ofNat 6 k)).toNat = row k) ∧
        ∀ r, r < 48 → (∀ k, k < g → r ≠ (physRow s.iss.rrb (i + BitVec.ofNat 6 k)).toNat) → t.me.row r = s.me.row r))

/-- R90, R99 to R101: a value a format holds rounds to its own code with no flag; rounding to nearest is within half a unit, with ties
to even, and the directed modes round their way. A number overflows when, rounded as if the exponent range were unbounded, it lies
above the largest finite value (said of the whole numbers, as no smaller number overflows); R100's table says what is written then,
and an infinite input is no overflow. Zeros, and the operations without a numeric result, are as R101 lists them. -/
def Obligations.RoundingOnce : Prop :=
  (∀ f ∈ [fp32, fp16, fpB16, fpE4M3, fpE5M2], ∀ (rm : RM) (sat : Bool) (c : Nat), c < 2 ^ f.w → (f.num c).isNan = false →
    f.round rm sat (f.num c) = (c, 0)) ∧
  (∀ (neg : Bool) (m k : Nat),
    let r (rm : RM) : Int := (roundInt rm neg m k false : Int) * 2 ^ k
    2 * |r .rne - m| ≤ 2 ^ k ∧ (2 * |r .rne - m| = 2 ^ k → k ≠ 0 → roundInt .rne neg m k false % 2 = 0) ∧
    r .rz ≤ m ∧ m < r .rz + 2 ^ k ∧ r .rup = (if neg then r .rz else -(-(m : Int) / 2 ^ k) * 2 ^ k) ∧
    r .rdn = (if neg then -(-(m : Int) / 2 ^ k) * 2 ^ k else r .rz)) ∧
  (∀ f ∈ [fp32, fp16, fpB16, fpE4M3, fpE5M2], ∀ neg : Bool,
    let top := (f.sign neg + f.top, fOF)
    let inf := f.infCode.elim (f.nanCode, fOF ||| fNP) fun i => (f.sign neg + i, fOF)
    f.overflow .rne false neg = inf ∧ f.overflow .rz false neg = top ∧ f.overflow .rdn false neg = (if neg then inf else top) ∧
    f.overflow .rup false neg = (if neg then top else inf) ∧ ∀ rm, f.overflow rm true neg = top ∧
      ∀ sat, (∀ i, f.infCode = some i → f.round rm sat (.inf neg) = (f.sign neg + i, 0)) ∧
        (f.infCode = none → (f.round rm sat (.inf neg)).1 = if sat then f.sign neg + f.top else f.nanCode)) ∧
  (∀ p ∈ [(fp32, (2 ^ 24 - 1) * 2 ^ 104), (fp16, 65504), (fpB16, 255 * 2 ^ 120), (fpE4M3, 448), (fpE5M2, 57344)],
    ∀ (rm : RM) (sat neg : Bool) (m k : Nat), 2 ^ (k + p.1.mw) ≤ m → m < 2 ^ (k + p.1.mw + 1) →
      let r := roundInt rm neg m k false * 2 ^ k
      (p.2 < r → p.1.round rm sat (.fin neg m 0 false) = p.1.overflow rm sat neg) ∧
      (r ≤ p.2 → (p.1.round rm sat (.fin neg m 0 false)).2 = 0)) ∧
  (∀ (rm : RM) (a b x y : Bool) (m : Nat) (e : Int),
    Sys2Proof.Num.add rm (.zero a) (.zero b) = (.zero (if a = b then a else decide (rm = .rdn)), false) ∧
    Sys2Proof.Num.add rm (.fin a m e x) (.fin (!a) m e y) = (.zero (decide (rm = .rdn)), false) ∧
    Sys2Proof.Num.add rm (.inf a) (.inf (!a)) = (.nan, true) ∧ Sys2Proof.Num.mul (.zero a) (.inf b) = (.nan, true) ∧
    Sys2Proof.Num.mul (.inf a) (.zero b) = (.nan, true) ∧ Sys2Proof.Num.div (.zero a) (.zero b) = (.nan, true) ∧
    Sys2Proof.Num.div (.inf a) (.inf b) = (.nan, true) ∧ Sys2Proof.Num.sqrt (.fin true m e x) = (.nan, true) ∧
    Sys2Proof.Num.rsqrt (.fin true m e x) = (.nan, true) ∧ Sys2Proof.Num.log2 (.fin true m e x) = (.nan, true) ∧
    Sys2Proof.Num.div (.fin a m e x) (.zero b) = (.inf (a != b), false) ∧ Sys2Proof.Num.log2 (.zero a) = (.inf true, false))

/-- R23 to R25, R27, R37, R333: an execute instruction waits, with nothing read or written, for a queue slot it reads; a held operand
that was never latched is ILLEGAL; a poisoned source is an uncorrectable error. Stated of `VADD` and `VCPY`, whose operands are those
of every two- and one-source form. That poison is consumed at the instruction is the model's reading (log 25). -/
def Obligations.VectorWaits : Prop :=
  ∀ (s : State) (f : VBin) (v : VMov1),
    ((∃ e ∈ queueNeeds 1 f.a (some f.b), (s.me.lq e.1).filled s.keel < needOf (queueNeeds 1 f.a (some f.b)) e.1) →
      ∃ t, exec (.vadd f) s = .next t ∧ t.iss.flow = .stalled ∧ OnlyMine s t ∧ t.me = { s.me with wait := t.me.wait, qwaits := t.me.qwaits }) ∧
    (v.a = .held → s.me.latchA = none → (∀ p ∈ pushesOf v.od, s.canPush p.1 p.2 = true) →
      exec (.vcpy v) s = .next (s.fatal .illegal)) ∧
    (∀ x, v.a = .from x → (∀ e ∈ srcNeed 1 x, e.2.1 ≤ (s.me.lq e.1).filled s.keel) → (∀ p ∈ pushesOf v.od, s.canPush p.1 p.2 = true) →
      s.vecPoisoned 0 x = true → exec (.vcpy v) s = .next s.poisoned)

-- The tensor unit (09).

/-- R144, R148, R149, R107: one K-step of an `MMA` whose operands can be fetched: the accumulator gets the step's products, PROG
counts it, and the instruction goes on until PROG reaches its count. The step spends its tokens. An `MMA` of no steps only begins. The
event makes the next step of the `MMA` at the head of a tensor buffer. R107, R108: each position of a K-step is the old value and the
products added exactly and rounded once, to nearest; an exact zero is +0. That the tokens come before the banks are resolved is the
model's reading (log 29). -/
def Obligations.TensorSteps : Prop :=
  ((∀ (s : State) (f : MmaF) (x y : OpAt) (as bs : List (List Sys2Proof.Num)),
    let a := s.mmaStart f
    let d := f.pd.toNat + 2
    let n := if f.af = .pni ∧ f.bf = .pni ∧ d < 8 then 16 * ((d + 1) / 2) else 96
    let r := a.kStep as bs
    s.wakeOf = none → a.prog < a.cnt → s.aAt f a.prog = some x → s.bAt f a.prog = some (.ok y) → s.tokensFor n →
    s.opUsable f.af f.a.trans d x → s.opUsable f.bf f.b.trans d y →
    s.fetchOp f.af f.a.trans d f.pf x = .vals as → s.fetchOp f.bf f.b.trans d f.pf y = .vals bs →
    (f.ck = true → ∀ t row, f.a = .arrv t → x = .spad row → s.badRow (opRanges f.af t d row) = none) →
    s.accPoisoned f.acc = false → s.me.checkErr = false →
    ∃ t, exec (.mma f) s = .next t ∧ SetsAcc s t f.acc { r.1 with begun := decide (a.prog + 1 < a.cnt) } r.2 ∧
      r.1.prog = a.prog + 1 ∧ t.iss = { s.iss with flow := if a.prog + 1 < a.cnt then .again else s.iss.flow } ∧
      TokensSpent s t n ∧ t.mem = s.mem ∧ t.spad = s.spad ∧ t.banks = s.banks) ∧
  (∀ (s : State) (f : MmaF), s.wakeOf = none → (s.me.acc f.acc).begun = false → f.ks = 0 → (s.scalar 1).toNat % 65536 = 0 →
    (∀ t, f.a ≠ .arrv t) → (∀ t, f.b ≠ .ver t) →
    ∃ t, exec (.mma f) s = .next t ∧ SetsAcc s t f.acc { s.mmaStart f with begun := false } 0 ∧ t.mem = s.mem ∧ t.spad = s.spad) ∧
  (∀ (s : State) (f : MmaF), s.wakeOf = none → (∃ t, f.a = .arrv t) ∨ (∃ t, f.b = .ver t) → s.me.cur = none →
    exec (.mma f) s = .next (s.fatal .illegal)) ∧
  (∀ (s : State) (e : Entry) (rest : List Entry) (f : MmaF), (s.ctx s.arg.a).bufT = e :: rest → e.instr = .mma f →
    s.unitRuns s.arg.a = true →
    ∃ u, exec (.mma f) (s.beginU s.arg.a .t e) = .next u ∧ exec .kStep s = .next (u.finishU .t))) ∧
  ((∀ (a : Acc) (as bs : List (List Sys2Proof.Num)) (i j : Nat), as.length = 48 → bs.length = 48 → i < 48 → j < 48 →
    ∃ x y, as[i]? = some x ∧ bs[j]? = some y ∧
      (elems 32 ((a.kStep as bs).1.rows.toList[i]?.getD 0))[j]? =
        some (kDot x y (fp32.num ((elems 32 (a.rows.toList[i]?.getD 0))[j]?.getD 0))).1) ∧
  (∀ (xs ys : List Int) (v : Int), xs.length = ys.length →
    let sum := ((xs.zip ys).map fun p => p.1 * p.2).sum + v
    kDot (xs.map Sys2Proof.Num.ofInt) (ys.map Sys2Proof.Num.ofInt) (Sys2Proof.Num.ofInt v) =
      if sum = 0 then (0, 0) else fp32.round .rne false (Sys2Proof.Num.ofInt sum)))

/-- R161, R162, R346: the accumulator instructions. -/
def Obligations.AccumulatorInstructions : Prop :=
  (∀ (s : State) (a : BitVec 2), ∃ t, exec (.mzero a) s = .next t ∧ t = { s with ctxs := t.ctxs, psnAcc := t.psnAcc } ∧
    SetsAcc s t a ⟨Vector.replicate 48 0, 0, 0, false, (s.me.acc a).restart, 0⟩ 0 ∧ t.accPoisoned a = false) ∧
  (∀ (s : State) (a : BitVec 2) (r : Reg), let x := (s.scalar r).toNat
    s.spadUsable x 9216 → s.spadPoisoned (s.iss.src / 4) x 9216 = false →
    ∃ t, exec (.mlda a r) s = .next t ∧ t = { s with ctxs := t.ctxs, psnAcc := t.psnAcc, cells := t.cells } ∧
      SetsAcc s t a ⟨Vector.ofFn fun i => rowOf (s.spadRead s.pathK (s.iss.src / 4) (x + 192 * i.val) 192), 0, 0, false,
        (s.me.acc a).restart, 0⟩ 0) ∧
  (∀ (s : State) (a : BitVec 2) (r : Reg), let x := (s.scalar r).toNat
    s.spadUsable x 9216 → s.accPoisoned a = false →
    ∃ t, exec (.msta a r) s = .next t ∧ t = { s with spad := t.spad, late := t.late, psnSpad := t.psnSpad, cells := t.cells } ∧
      SpadWritten s t s.pathK (s.iss.src / 4) x ((s.me.acc a).rows.toList.flatMap rowBytes)) ∧
  (∀ (r : Reg) (a : BitVec 2) (s : State), 0x180000 < (s.scalar r).toNat + 9216 →
    exec (.mlda a r) s = .next (s.fatal .spadRange) ∧ exec (.msta a r) s = .next (s.fatal .spadRange)) ∧
  (∀ (d : Reg) (a : BitVec 2), WritesReg (.mprog d a) d (fun s =>
    let x := s.me.acc a
    BitVec.ofNat 64 (x.prog % 65536 + 2 ^ 16 * (x.cnt % 65536) + (if x.begun then 2 ^ 32 else 0) +
      (if x.restart.isSome then 2 ^ 33 else 0)))) ∧
  (∀ (a : BitVec 2) (off : BitVec 18), ChangesMe (fun _ => True) (.mrst a off) (fun s c => c.setAcc a { c.acc a with
    restart := if off = 0 then none else some (s.iss.pc + 8 * off.signExtend 64), steps := 0 }))

/-- R156, R158, R160: `EPI` to the scratchpad writes its output rows and check block, and to a store queue pushes its rows, END on the
last, once slots are free; the rows' flags go into NFLAGS. With WATCH a NaN traps first. That the flags are set with the rows is the
model's reading (log 30). -/
def Obligations.EpilogueResults : Prop :=
  ∀ (s : State) (f : EpiF),
    let x := (s.scalar f.c).toNat
    let bias := if f.c = 0 then s.iss.bias else some (s.iss.bias.getD (rowOf (s.spadRead s.pathK (s.iss.src / 4) x 192)))
    let scale := if f.b = 0 then none else some (fp32.num ((s.scalar f.b).toNat % 2 ^ 32))
    let vals := epiVals f (s.me.acc f.acc) scale bias s.iss.rvm
    let rows := epiRows f vals
    let fl (l : List EpiRow) := l.foldl (fun acc r => acc ||| r.fl) (0 : NFlags)
    (f.c = 0 ∨ s.iss.bias ≠ none ∨ (s.spadUsable x 192 ∧ s.spadPoisoned (s.iss.src / 4) x 192 = false)) →
    s.accPoisoned f.acc = false →
    ((f.watch = true → s.iss.prog = 0 → ∀ r ∈ vals, ∀ v ∈ r.1, (fp32.num v).isNan = false) →
      (∀ r, f.dest = .spad r →
        let y := (s.scalar r).toNat
        let bs := (rows.map EpiRow.bytes).flatten ++ checkBlock f s.iss.rvm (rows.map EpiRow.bytes)
        bs.length = rows.length * epiPitch f.ty + 512 → s.spadUsable y bs.length →
        ∃ t, exec (.epi f) s = .next t ∧ OthersKept s t s.iss.src ∧ t.mem = s.mem ∧ t.banks = s.banks ∧
          t.me = { s.me with nflags := s.me.nflags ||| fl rows } ∧
          SpadWritten s t s.pathK (s.iss.src / 4) y bs) ∧
      (∀ q, f.dest = .sq q →
        let rest := rows.drop s.iss.prog
        let ks : List Nat := if f.ty.isBlock then [0, 1] else [0]
        (∀ k ∈ ks, (s.me.sq (q + BitVec.ofNat 2 k)).prods.head? = some s.iss.id ∧
          (s.me.sq (q + BitVec.ofNat 2 k)).slots.length + rest.length ≤ (s.me.sq (q + BitVec.ofNat 2 k)).depth) →
        ∃ t, exec (.epi f) s = .next t ∧ t.iss.flow = s.iss.flow ∧ OthersKept s t s.iss.src ∧ t.mem = s.mem ∧ t.spad = s.spad ∧
          t.me.nflags = s.me.nflags ||| fl rest ∧ t.me.regs = s.me.regs ∧ t.me.accs = s.me.accs ∧
          (∀ k ∈ ks, (t.me.sq (q + BitVec.ofNat 2 k)).slots = (s.me.sq (q + BitVec.ofNat 2 k)).slots ++
            rest.zipIdx.map fun r => ((r.1.slots s.iss.pc (decide (r.2 + 1 = rest.length)) (s.keel + 1))[k]?).getD {}) ∧
          ∀ p, (∀ k ∈ ks, p ≠ q + BitVec.ofNat 2 k) → t.me.sq p = s.me.sq p)) ∧
    (f.watch = true → s.iss.prog = 0 → (∃ r ∈ vals, ∃ v ∈ r.1, (fp32.num v).isNan = true) → s.me.tstate.getLsbD 0 = false →
      s.me.tvec ≠ 0 → s.iss.unit = .t →
      ∃ t, exec (.epi f) s = .next t ∧ t.me.pc = s.me.tvec ∧ t.me.cause = f.acc.setWidth 64 <<< 32 ||| 0x303 ∧ t.me.tval = s.iss.pc ∧
        t.me.accs = s.me.accs ∧ (∀ q, (t.me.sq q).slots = (s.me.sq q).slots) ∧ t.spad = s.spad)

/-- R342, R334, R344: `TELL` with its constant leaves the thread as it was but for its tokens; with another constant inside a drogue
region it unwinds: scalars, predicates, RRB and loops come back, the units' work, queues, latches and accumulators go, the error is
recorded and the PC is the region's handler; with none open it is fatal. That the PC recorded is the chain's is the model's reading
(log 47). -/
def Obligations.TellAndUnwind : Prop :=
  ∀ (s : State) (n : BitVec 4),
    let d := if 8 ≤ n.toNat ∧ n.toNat < 15 then n.toNat - 6 else 8
    let cost := if 7 ≤ n.toNat ∧ n.toNat < 15 ∧ d < 8 then 16 * ((d + 1) / 2) else 96
    s.tokensFor cost →
    (s.iss.xtnd = some (tellCrc n.toNat) → ∃ t, exec (.tell n) s = .next t ∧ t.me = { s.me with qwaits := t.me.qwaits } ∧
      t.iss = s.iss ∧ OthersKept s t s.iss.src ∧ TokensSpent s t cost ∧ t.mem = s.mem ∧ t.spad = s.spad ∧ t.banks = s.banks) ∧
    (∀ e rest, s.iss.xtnd ≠ some (tellCrc n.toNat) → s.iss.unit = .t → s.me.drogue = e :: rest →
      ∃ t, exec (.tell n) s = .next t ∧ OthersKept s t s.iss.src ∧ t.mem = s.mem ∧ t.spad = s.spad ∧ t.banks = s.banks ∧
        t.me.pc = e.handler ∧ t.me.regs = e.snap.regs ∧ t.me.preds = e.snap.preds ||| 1 ∧ t.me.rrb = e.snap.rrb ∧
        t.me.loops = s.me.loops.drop (s.me.loops.length - e.depth) ∧ t.me.drogue = s.me.drogue ∧
        t.me.bufA = [] ∧ t.me.bufE = [] ∧ t.me.bufT = [] ∧ t.me.streams = [] ∧ t.me.loads = [] ∧
        t.me.latchA = none ∧ t.me.latchB = none ∧ (∀ q, (t.me.queue q).slots = [] ∧ (t.me.queue q).depth = (s.me.queue q).depth) ∧
        (∀ a, t.me.acc a = ⟨Vector.replicate 48 0, 0, 0, false, (s.me.acc a).restart, 0⟩) ∧
        t.me.grid = s.me.grid ∧ t.me.masks = s.me.masks ∧ t.me.teths = s.me.teths ∧
        t.me.cause = s.me.cause ∧ t.me.tval = s.me.tval ∧ t.me.epc = s.me.epc ∧ t.me.unwinds = s.me.unwinds + 1 ∧
        t.me.err = ⟨23, 3, s.me.drogue.length, s.iss.pc, s.iss.pc, s.keel⟩) ∧
    (s.iss.xtnd ≠ some (tellCrc n.toNat) → s.me.drogue = [] →
      ∃ t, exec (.tell n) s = .next t ∧ t.me.status = .frozen ∧ t.me.regs = s.me.regs ∧ t.me.err.cause = 23)

-- The wave array (11).

/-- R189, R192, R193, R207, R209: `ADMIT`, `PASS` and `EPI` to the next position send their tile where there is room, and update the
admission state or mark the arrival as passed; a tile in a link buffer goes into the lowest free inbox slot. A REC tile (R210) goes
into a meet entry too, the one that holds its micro-batch, which it replaces and MEETDUP tells, or else the lowest free one (the
model's choice, log 49); with no meet entry free, or while that one is bound, it waits. A MARK has no tile (R187): that no retain slot
keeps it is the model's reading (log 64). That the lowest free retain slot keeps a tile is the model's choice (log 49). -/
def Obligations.TileTransfers : Prop :=
  (∀ (s : State) (n : BitVec 8) (a b c : Reg) (r : Str),
    let w := s.scalar b
    let kind := (w.extractLsb' 24 3).toNat
    let v : BitVec 8 := if kind = 0 then r.u else if kind = 3 then r.u + 1 else w.extractLsb' 16 8
    let up := decide (kind = 2 ∨ kind = 4 ∧ w.getLsbD 27 = true)
    let edge := if up then r.hdr.n - 1 else 0
    let x := (s.scalar a).toNat
    let len := (r.hdr.tr - 1) * r.hdr.rp + r.hdr.rb
    let rows := if kind = 4 then [] else tileRows r.hdr (s.spadRead s.pathL (s.iss.src / 4) x len)
    let tag : Tag := ⟨w.extractLsb' 24 3, w.extractLsb' 0 16, v, (s.scalar c).extractLsb' 0 48, up⟩
    s.str s.myPart n.toNat = some r → r.hdr.adm = s.iss.src → kind ≤ 4 → (kind = 1 ∨ kind = 2 → v = r.u ∨ v = r.u - 1) →
    (kind = 3 → r.livePrev = 0) → (kind = 0 ∨ kind = 1 → r.hdr.mbmax = 0 ∨ r.mbc ≠ r.hdr.mbmax) → r.canSend up true edge = true →
    (kind ≠ 4 → s.keepFree r edge ∧ s.me.bufA = [] ∧ s.me.streams = [] ∧ s.spadUsable x len ∧ s.spadPoisoned (s.iss.src / 4) x len = false) →
    ∃ t r', exec (.admitTile n a b c) s = .next t ∧ t.me = s.me ∧ t.iss = s.iss ∧ OthersKept s t s.iss.src ∧ t.mem = s.mem ∧
      TileSent s t r up true edge (mkTile r.hdr tag rows) ∧ t.str r.part r.id = some r' ∧
      r'.u = (if kind = 3 then r.u + 1 else r.u) ∧
      r'.mbc = (if kind ≤ 1 then r.mbc + 1 else if kind = 3 then 0 else r.mbc) ∧
      r'.liveCur = (if kind = 2 ∧ v = r.u then r.liveCur + 1 else if kind = 3 then 0 else r.liveCur) ∧
      r'.livePrev = (if kind = 2 ∧ v ≠ r.u then r.livePrev + 1 else if kind = 3 then r.liveCur else r.livePrev)) ∧
  (∀ (s : State) (a : Reg) (r : Str) (i : Nat) (v : Arrival), s.me.cur = some v → s.handlerOf s.iss.src = some (r, i) →
    s.str r.part r.id = some r → v.tag.kind.toNat < 3 → r.far v.tag.up i = false →
    let x := (s.scalar a).toNat
    let len := (r.hdr.tr - 1) * r.hdr.rp + r.hdr.rb
    (v.passed = true → exec (.pass a v.tag.up) s = .next s) ∧
    (v.passed = false → r.canSend v.tag.up false i = true → s.keepFree r i → s.spadUsable x len → s.spadPoisoned (s.iss.src / 4) x len = false →
      ∃ t, exec (.pass a v.tag.up) s = .next t ∧ t.me = { s.me with cur := some { v with passed := true } } ∧ t.iss = s.iss ∧
        OthersKept s t s.iss.src ∧ t.mem = s.mem ∧ TileSent s t r v.tag.up false i
          (mkTile r.hdr { v.tag with mask := s.iss.rvm } (tileRows r.hdr (s.spadRead s.pathK (s.iss.src / 4) x len)))) ∧
    (exec (.pass a (!v.tag.up)) s = .next (s.fatal .illegal))) ∧
  (∀ (s : State) (f : EpiF) (r : Str) (i : Nat) (v : Arrival), s.me.cur = some v → s.handlerOf s.iss.src = some (r, i) →
    s.str r.part r.id = some r → v.tag.kind.toNat < 3 → r.far v.tag.up i = false → v.passed = false →
    r.canSend v.tag.up false i = true → s.keepFree r i → f.dest = .pass → f.c = 0 → f.watch = false → s.accPoisoned f.acc = false →
    let scale := if f.b = 0 then none else some (fp32.num ((s.scalar f.b).toNat % 2 ^ 32))
    let rows := epiRows f (epiVals f (s.me.acc f.acc) scale s.iss.bias s.iss.rvm)
    r.hdr.tr = rows.length → r.hdr.rb = epiPitch f.ty → s.iss.flow = .fall →
    ∃ t, exec (.epi f) s = .next t ∧ OthersKept s t s.iss.src ∧ t.me = { s.me with
        cur := some { v with passed := true }, nflags := s.me.nflags ||| rows.foldl (fun acc r => acc ||| r.fl) 0 } ∧
      TileSent s t r v.tag.up false i (mkTile r.hdr { v.tag with mask := s.iss.rvm } (rows.map EpiRow.bytes))) ∧
  (∀ (s : State) (r : Str) (p : Pos) (f : Flight) (rest : List Flight) (k : Nat),
    let up := s.arg.flg
    s.str (s.arg.a / 256) (s.arg.a % 256) = some r → r.pos? s.arg.b = some p → p.link up = f :: rest → r.frozen = [] →
    freeSlot r.hdr.ni (p.box.map (·.slot)) = some k → f.tile.tag.kind ≠ 1 →
    s.regionsFree p.cell (s.teamKey p.src) (regionsOf (p.inbox + k * r.hdr.size) f.tile.bytes.length) →
    ∃ t r' q, exec .tileIntoInbox s = .next t ∧ t.ctxs = s.ctxs ∧ t.mem = s.mem ∧ t.str r.part r.id = some r' ∧
      r'.pos? s.arg.b = some q ∧ q.link up = rest ∧ q.link (!up) = p.link (!up) ∧ q.kept = p.kept ∧ q.meets = p.meets ∧
      (∀ b, b ∈ q.box ↔ b ∈ p.box ∨ b = ⟨k, f, s.keel, false⟩) ∧
      SpadWritten s t (s.pathV p.src) p.cell (p.inbox + k * r.hdr.size) f.tile.bytes) ∧
  (∀ (s : State) (r : Str) (p : Pos) (f : Flight) (rest : List Flight) (k n : Nat),
    let up := s.arg.flg
    let old := p.meets.find? fun e => e.mb = f.tile.tag.mb
    let m := old.elim n (·.idx)
    s.str (s.arg.a / 256) (s.arg.a % 256) = some r → r.pos? s.arg.b = some p → p.link up = f :: rest → r.frozen = [] →
    freeSlot r.hdr.ni (p.box.map (·.slot)) = some k → f.tile.tag.kind = 1 →
    (freeSlot r.hdr.nm (p.meets.map (·.idx)) = none → exec .tileIntoInbox s = .next s) ∧
    (freeSlot r.hdr.nm (p.meets.map (·.idx)) = some n →
      (∀ e, old = some e → e.bound = true → exec .tileIntoInbox s = .next s) ∧
      ((∀ e, old = some e → e.bound = false) →
        s.regionsFree p.cell (s.teamKey p.src) (regionsOf (p.inbox + k * r.hdr.size) f.tile.bytes.length ++
          regionsOf (p.meetb + m * r.hdr.size) f.tile.bytes.length) →
        ∃ t r' q u, exec .tileIntoInbox s = .next t ∧ t.ctxs = s.ctxs ∧ t.mem = s.mem ∧ t.str r.part r.id = some r' ∧
          r'.pos? s.arg.b = some q ∧ q.link up = rest ∧ q.link (!up) = p.link (!up) ∧ q.kept = p.kept ∧
          (∀ b, b ∈ q.box ↔ b ∈ p.box ∨ b = ⟨k, f, s.keel, false⟩) ∧ q.meetDup = (p.meetDup || old.isSome) ∧
          (∀ e, e ∈ q.meets ↔ (e ∈ p.meets ∧ e.idx ≠ m) ∨ e = { idx := m, mb := f.tile.tag.mb, crcs := f.tile.crcs }) ∧
          u = { s with spad := u.spad, late := u.late, psnSpad := u.psnSpad, cells := u.cells } ∧
          SpadWritten s u (s.pathV p.src) p.cell (p.meetb + m * r.hdr.size) f.tile.bytes ∧
          SpadWritten u t (s.pathV p.src) p.cell (p.inbox + k * r.hdr.size) f.tile.bytes)))

/-- R190, R191, R208: `ARRV` delivers the first arrival of its position: the descriptor, RVM, a snapshot and Boundary(cell); with a
current arrival it first ends the handler, which frees the inbox slot and commits an accumulator where WCOMMIT says so. The events try
a waiting `ARRV`, `PASS`, `EPI` or `ADMIT` again. -/
def Obligations.Arrivals : Prop :=
  (∀ (s : State) (d : Reg) (r : Str) (i : Nat) (p : Pos) (b : Inbox), s.me.waitOver 6 = false → s.handlerOf s.iss.src = some (r, i) →
    s.me.cur = none → r.pos? i = some p → p.box.find? (fun b => !b.current) = some b → r.frozen = [] → b.at_ < s.keel →
    s.mayBound .cell = true →
    let g := b.fl.tile.tag
    let addr := p.inbox + b.slot * r.hdr.size
    ∃ t x, exec (.arrv d) s = .next t ∧ OthersKept s t s.iss.src ∧ t.mem = s.mem ∧ t.spad = s.spad ∧
      t.me.cur = some ⟨r.id, i, b.slot, addr, g, false, none⟩ ∧ t.me.rvm = g.mask ∧ t.me.snap = some x ∧ x.regs = t.me.regs ∧
      (d ≠ 0 → t.me.reg (physReg s.iss.rrb d) = BitVec.ofNat 64 (2 ^ 56 * r.id + 2 ^ 32 * addr + 2 ^ 28 * b.slot +
        (if g.up then 2 ^ 27 else 0) + 2 ^ 24 * g.kind.toNat + 2 ^ 16 * g.ver.toNat + g.mb.toNat)) ∧
      t.me.hzn = ⟨s.keel, s.iss.src⟩ ∧ t.me.phase = s.me.phase + 1 ∧ t.vers = (s.publish s.iss.src .cell).vers) ∧
  (∀ (s : State) (d : Reg) (r : Str) (i : Nat) (p : Pos) (v : Arrival), s.me.waitOver 6 = false → s.handlerOf s.iss.src = some (r, i) →
    s.str r.part r.id = some r → r.pos? i = some p → s.me.cur = some v → s.handlerMayEnd r i v = true → v.tag.kind.toNat < 3 →
    s.me.commitOn = false →
    ∃ t r' q, exec (.arrv d) s = .next t ∧ t.iss.flow = .stalled ∧ OthersKept s t s.iss.src ∧
      t.me = { s.me with cur := none, copies := s.me.copies.map fun x => (x.1, x.2.1, false) } ∧
      t.mem = s.mem ∧ t.spad = s.spad ∧ t.str r.part r.id = some r' ∧ r'.pos? i = some q ∧
      q.box = p.box.filter (fun b => b.slot ≠ v.slot)) ∧
  (∀ (s : State) (d : Reg) (r : Str) (i : Nat) (v : Arrival), s.me.waitOver 6 = false → s.handlerOf s.iss.src = some (r, i) →
    s.me.cur = some v → s.handlerMayEnd r i v = true → v.tag.kind.toNat < 3 → s.me.commitOn = true →
    s.spadUsable s.me.commitAddr 9216 → s.accPoisoned s.me.commitAcc = false →
    ∃ t, exec (.arrv d) s = .next t ∧ t.me.cur = none ∧ t.me.commitOn = false ∧
      SpadWritten s t s.pathK (s.iss.src / 4) s.me.commitAddr ((s.me.acc s.me.commitAcc).rows.toList.flatMap rowBytes)) ∧
  (∀ (s t : State) (d : Reg), s.runnable s.arg.a = true → (s.ctx s.arg.a).lateAt = 0 → s.goOn s.arg.a = some (.arrv d, t) →
    ∃ u, exec (.arrv d) t = .next u ∧ exec .arrivalDelivery s = .next (u.finishC (.arrv d) (s.ctx s.arg.a).pc) ∧
      exec .handlerEnd s = .next (u.finishC (.arrv d) (s.ctx s.arg.a).pc)) ∧
  (∀ (s : State) (e : Entry) (rest : List Entry), (s.ctx s.arg.a).bufT = e :: rest → s.unitRuns s.arg.a = true →
    (∃ a up, e.instr = .pass a up) ∨ (∃ f, e.instr = .epi f ∧ f.dest = .pass) →
    ∃ u, exec e.instr (s.beginU s.arg.a .t e) = .next u ∧ exec .tileSend s = .next (u.finishU .t)) ∧
  (∀ (s t : State) (n : BitVec 8) (a b c : Reg), (s.ctx s.arg.a).bufT = [] → s.runnable s.arg.a = true → (s.ctx s.arg.a).lateAt = 0 →
    s.goOn s.arg.a = some (.admitTile n a b c, t) →
    ∃ u, exec (.admitTile n a b c) t = .next u ∧ exec .tileSend s = .next (u.finishC (.admitTile n a b c) (s.ctx s.arg.a).pc))

/-- R185, R186, R205, R206: `RIG` reads its record and either rigs the string, with the weights' first version in every cell's flying
bank, or only reports why not; `UNRIG` takes an idle string down, and waits for no handler thread that has ended (the model's choice,
log 49). R194, R199, R210 to R213: `MEET`, `WVER`, `WSWAP`, `WSTAT`, the exchange of a cell's banks, and repair through WREPAIR. The
order of RIG's checks and WSTAT of an id that is not rigged are the model's choices (log 49). -/
def Obligations.RigAndQueries : Prop :=
  ((∀ (s : State) (a : Reg) (n : BitVec 8),
    let x := (s.scalar a).toNat
    let len := 32 + 32 * fieldAt (s.spadRead s.pathL (s.iss.src / 4) x 32) 0 1
    let b := s.spadRead s.pathL (s.iss.src / 4) x len
    let h := rigHeader b
    let code := s.rigCode n.toNat b
    x % 8 = 0 → x + 32 ≤ 0x180000 → s.me.bufA = [] → s.me.streams = [] → s.spadUsable x len →
    s.spadPoisoned (s.iss.src / 4) x len = false →
    ∃ t, exec (.rig a n) s = .next t ∧ t.ctxs = s.ctxs ∧ t.iss = s.iss ∧ t.mem = s.mem ∧ t.spad = s.spad ∧ t.banks = s.banks ∧
      tget 0 (t.part s.myPart).rigStat n.toNat = code ∧ (code ≠ 0 → t.strs = s.strs) ∧
      (code = 0 → t.strs = s.strs ++ [{
          part := s.myPart, id := n.toNat, hdr := h, team := s.me.team, rigger := s.iss.src, u := h.v0
          pos := (List.range h.n).map fun i => rigPos (slice b (32 + 32 * i) 32) }] ∧
        ∀ i, i < h.n → let c := t.cell (rigPos (slice b (32 + 32 * i) 32)).cell
          c.verF = h.v0 ∧ c.valF = true ∧ c.valS = false)) ∧
  (∀ (s : State) (n : BitVec 8), s.str s.myPart n.toNat = none → exec (.unrig n) s = .next s) ∧
  (∀ (s : State) (n : BitVec 8) (r : Str), s.str s.myPart n.toNat = some r →
    (if r.team.isSome then s.me.team = r.team else r.rigger = s.iss.src) →
    (∀ p ∈ r.pos, p.box = [] ∧ p.linkDown = [] ∧ p.linkUp = [] ∧
      (p.gone = true ∨ s.inArrv (p.cell * 4 + p.slot) = true)) →
    ∃ t, exec (.unrig n) s = .next t ∧ t = { s with strs := t.strs, ctxs := t.ctxs } ∧ t.str s.myPart n.toNat = none ∧
      ∀ m, (∀ p ∈ r.pos, m ≠ p.cell * 4 + p.slot) → t.ctx m = s.ctx m) ∧
  (∀ (s : State) (n : BitVec 8) (r : Str), s.str s.myPart n.toNat = some r →
    ¬ (if r.team.isSome then s.me.team = r.team else r.rigger = s.iss.src) → exec (.unrig n) s = .next (s.fatal .illegal))) ∧
  ((∀ (s : State) (d : Reg) (r : Str) (i : Nat) (p : Pos) (v : Arrival) (e : MeetE), s.me.cur = some v →
    s.handlerOf s.iss.src = some (r, i) → r.pos? i = some p → v.tag.kind = 2 → v.meet = none →
    p.meets.find? (fun e => e.mb = v.tag.mb) = some e → s.mayBound .cell = true →
    ∃ t, exec (.meet d) s = .next t ∧ OthersKept s t s.iss.src ∧ t.mem = s.mem ∧ t.spad = s.spad ∧
      t.me.cur = some { v with meet := some e.idx } ∧ t.me.hzn = ⟨s.keel, s.iss.src⟩ ∧
      (d ≠ 0 → t.me.reg (physReg s.iss.rrb d) = BitVec.ofNat 64 (p.meetb + e.idx * r.hdr.size))) ∧
  (∀ d : Reg, WritesReg (.wver d) d (fun s => let c := s.cell (s.iss.src / 4)
    0#39 ++ (if c.valS then 1#1 else 0#1) ++ c.verS ++ 0#7 ++ (if c.valF then 1#1 else 0#1) ++ c.verF)) ∧
  (∀ s : State, s.cellStr (s.iss.src / 4) = none → s.me.bufT = [] → ∃ t, exec .wswap s = .next t ∧
    t = { s with cells := t.cells, lateB := t.lateB } ∧
    let c := s.cell (s.iss.src / 4)
    t.cell (s.iss.src / 4) = { c with second := !c.second, verF := c.verS, verS := c.verF, valF := c.valS, valS := c.valF }) ∧
  (∀ s : State, s.cellStr (s.iss.src / 4) ≠ none → exec .wswap s = .next (s.fatal .illegal)) ∧
  (∀ s : State, ∃ t, exec .bankExchange s = .next t ∧ t = { s with cells := t.cells, lateB := t.lateB } ∧
    let c := s.cell s.arg.a
    t.cell s.arg.a = { c with
      second := !c.second, verS := c.verF, valS := c.valF
      verF := if s.arg.flg then BitVec.ofNat 8 s.arg.b else c.verS, valF := if s.arg.flg then true else c.valS }) ∧
  (∀ (d : Reg) (n : BitVec 8),
    WritesRegIf (fun s => s.str s.myPart n.toNat = none) (.wstat d n 0) d (fun s =>
      BitVec.ofNat 64 (tget 0 (s.part s.myPart).rigStat n.toNat)) ∧
    ∀ r : Str,
      let has : State → Prop := fun s => s.str s.myPart n.toNat = some r
      WritesRegIf has (.wstat d n 0) d (fun s =>
        BitVec.ofNat 64 (tget 0 (s.part s.myPart).rigStat n.toNat + 256 * r.hdr.n + 65536)) ∧
      WritesRegIf has (.wstat d n 1) d (fun _ => BitVec.ofNat 64 (r.u.toNat + 2 ^ 8 * (r.liveCur % 65536) +
        2 ^ 24 * (r.livePrev % 65536) + 2 ^ 40 * (r.mbc % 65536))) ∧
      WritesRegIf has (.wstat d n 2) d (fun _ => BitVec.ofNat 64 (r.marksDown + 65536 * r.marksUp)) ∧
      WritesRegIf has (.wstat d n 4) d (fun _ => BitVec.ofNat 64 (r.hdr.ltrip + 65536 * r.hdr.mbmax))) ∧
  (∀ (s : State) (a : Reg) (r : Str) (i : Nat) (p q : Pos) (v : Arrival) (b : Inbox), s.me.cur = some v →
    s.handlerOf s.iss.src = some (r, i) → r.pos? i = some p → v.tag.kind.toNat = 0 ∨ v.tag.kind.toNat = 2 →
    p.box.find? (fun b => b.slot = v.slot) = some b → r.pos? b.fl.frm = some q → (s.scalar a).getLsbD 0 = true →
    s.regionsFree q.cell (s.teamKey q.src) (regionsOf (q.retain + b.fl.keep * r.hdr.size) r.hdr.size) →
    s.regionsFree p.cell (s.teamKey p.src) (regionsOf v.addr r.hdr.size) →
    ∃ t, exec (.wrsys 0x013 a) s = .next t ∧ t = { s with spad := t.spad, late := t.late, psnSpad := t.psnSpad, cells := t.cells } ∧
      SpadWritten s t (s.pathV p.src) p.cell v.addr
        (s.spadRead (s.pathV p.src) q.cell (q.retain + b.fl.keep * r.hdr.size) r.hdr.size)))

-- Task graphs and the ready pool (12).

/-- R226 to R229: the graph instructions where they take effect. `GLAUNCH` puts its packet into a free slot of a queue of the
partition and answers the launch's id; `GSIG` signals; `GDONE` of a thread that owes nothing ends it; `GADD` refuses a record that
breaks the rules, and else adds the node behind its issuer, or with no predecessor where that is signalled; `GQRY` reads a node of the
partition, and all ones for any other id. The model's choices are here: a publication is a boundary of the thread's next nanosecond
(log 56), a `GDONE` in a trap handler ends the thread without what the trap parked (log 52), and a record of `GADD` with PREDS not 0
is refused (log 51). All ones for a ring slot that does not translate is the model's choice (log 51). -/
def Obligations.GraphInstructions : Prop :=
  (∀ (s : State) (d a : Reg) (q : BitVec 10) (pa : Nat),
    let x := (s.scalar a).toNat
    let pkt := s.spadRead s.pathL (s.iss.src / 4) x 64
    let u := s.queue q.toNat
    let lid := q.toNat * 2 ^ 54 + u.seq % 2 ^ 42 * 4096
    (∀ c ∈ s.me.claims, ¬ (c.pc = s.iss.pc ∧ c.queue = q.toNat)) →
    x % 8 = 0 → s.me.bufA = [] → s.me.streams = [] → s.spadUsable x 64 → s.spadPoisoned (s.iss.src / 4) x 64 = false →
    s.mayBound .part = true → s.partOfQueue q.toNat = s.myPart → u.configured = true → fieldAt pkt 0 1 = 1 → u.widx < u.ridx + u.len →
    s.engineWalk s.myPart (u.base + 64 * (u.widx % u.len)) true = some (.ok pa) →
    ∃ t v, exec (.glaunch d a q) s = .next t ∧ t.iss = s.iss ∧ OthersKept s t s.iss.src ∧ t.mem = s.mem ∧ t.spad = s.spad ∧
      t.vers = (s.publish s.iss.src .part).vers ++ [v] ∧ v.cells = (s.addrs s.myPart pa 64).zip pkt ∧
      t.queue q.toNat = { u with widx := u.widx + 1, look := true, seq := (u.seq + 1) % 2 ^ 42, ids := tput u.ids u.widx lid } ∧
      t.me = { s.me with regs := t.me.regs, lastB := s.keel + 1 } ∧
      (d ≠ 0 → t.me.reg (physReg s.iss.rrb d) = BitVec.ofNat 64 lid) ∧ ∀ r, d = 0 ∨ r ≠ physReg s.iss.rrb d → t.me.reg r = s.me.reg r) ∧
  (∀ (s : State) (nid : Nat) (n : Node), s.me.node = some nid → s.nodeOf nid = some n → s.mayBound .part = true →
    ∃ t m, exec .gsig s = .next t ∧ t.me = { s.me with lastB := s.keel + 1 } ∧ OthersKept s t s.iss.src ∧ t.mem = s.mem ∧
      (s.iss.src ∈ n.threads → s.iss.src ∉ n.fin → t.vers = (s.publish s.iss.src .part).vers) ∧ t.nodeOf nid = some m ∧ s.iss.src ∈ m.sigd) ∧
  (∀ (s : State) (nid : Nat), s.me.node = some nid → s.quiet = true → s.me.deliver = [] → s.me.copies = [] → s.me.puts = [] →
    s.mayBound .part = true → Stamp.lt ⟨s.keel, s.iss.src⟩ (s.part s.myPart).ops = false →
    ∃ t, exec .gdone s = .next t ∧ t.iss.src = s.iss.src ∧ t.me = {} ∧ OthersKept s t s.iss.src ∧
      ∀ n, s.nodeOf nid = some n → ∃ m, t.nodeOf nid = some m ∧ m.fin = n.fin ++ [s.iss.src]) ∧
  (∀ (s : State) (d a : Reg) (nid : Nat) (l : Launch) (me : Node),
    let x := (s.scalar a).toNat
    let b := s.spadRead s.pathL (s.iss.src / 4) x 128
    s.me.node = some nid → s.launch nid = some l → s.nodeOf nid = some me → x % 8 = 0 → s.me.bufA = [] → s.me.streams = [] →
    s.spadUsable x 128 → s.spadPoisoned (s.iss.src / 4) x 128 = false →
    (nodeRecOk b l.nodes.length = false ∨ (nodeRecOf b).preds ≠ 0 ∨ 4096 ≤ l.nodes.length ∨
      (∃ i ∈ (nodeRecOf b).succ, ∀ n, l.nodes.find? (fun n => n.idx = i) = some n → n.state ≠ 0) → ∃ t, exec (.gadd d a) s = .next t ∧ t.launches = s.launches ∧
      (d ≠ 0 → t.me.reg (physReg s.iss.rrb d) = BitVec.allOnes 64)) ∧
    (nodeRecOk b l.nodes.length = true → (nodeRecOf b).preds = 0 → (nodeRecOf b).succ = [] → l.nodes.length < 4096 →
      s.poolUsed < Config.poolEntries → me.released = true →
      ∃ t l', exec (.gadd d a) s = .next t ∧ t.launch nid = some l' ∧ OthersKept s t s.iss.src ∧ t.mem = s.mem ∧ t.spad = s.spad ∧
        l'.nodes = l.nodes ++ [{ idx := l.nodes.length, rec_ := nodeRecOf b, rem := 0, relAt := s.keel }] ∧
        (d ≠ 0 → t.me.reg (physReg s.iss.rrb d) = BitVec.ofNat 64 (l.id + l.nodes.length))) ∧
    (nodeRecOk b l.nodes.length = true → (nodeRecOf b).preds = 0 → (nodeRecOf b).succ = [] → l.nodes.length < 4096 →
      s.poolUsed < Config.poolEntries → me.released = false →
      ∃ t l', exec (.gadd d a) s = .next t ∧ t.launch nid = some l' ∧ OthersKept s t s.iss.src ∧ t.mem = s.mem ∧ t.spad = s.spad ∧
        l'.nodes.length = l.nodes.length + 1 ∧
        l'.nodes.getLast? = some { idx := l.nodes.length, rec_ := nodeRecOf b, rem := 1, relAt := s.keel } ∧
        { me with rec_ := { me.rec_ with succ := me.rec_.succ ++ [l.nodes.length] } } ∈ l'.nodes ∧
        (∀ m ∈ l.nodes, m.idx ≠ me.idx → m ∈ l'.nodes) ∧
        (d ≠ 0 → t.me.reg (physReg s.iss.rrb d) = BitVec.ofNat 64 (l.id + l.nodes.length)))) ∧
  (∀ (d a : Reg) (l : Launch) (n : Node),
    let has : State → Prop := fun s => s.launch (s.scalar a).toNat = some l ∧ s.nodeOf (s.scalar a).toNat = some n ∧ l.part = s.myPart
    WritesRegIf has (.gqry d a 1) d (fun _ => BitVec.ofNat 64 n.rem) ∧
    WritesRegIf has (.gqry d a 3) d (fun _ => BitVec.ofNat 64 (l.nodes.filter fun n => n.state ≠ 4).length) ∧
    WritesRegIf has (.gqry d a 4) d (fun _ => BitVec.ofNat 64 n.doneAt) ∧
    WritesRegIf has (.gqry d a 2) d (fun s => BitVec.ofNat 64 (n.rec_.ops.zipIdx.map fun p =>
      if p.1.2 % 4 ≠ 0 ∧ 4 ≤ p.1.2 ∧ tget 0 (s.part s.myPart).dir.names p.1.1.toNat = 0 then 2 ^ p.2 else 0).sum) ∧
    WritesRegIf (fun s => has s ∧ n.rec_.deadline = 0) (.gqry d a 0) d (fun s => BitVec.ofNat 64
      (if n.state = 0 ∧ s.nodeReady s.myPart n = true then 1 else n.state)) ∧
    ∀ sel, WritesRegIf (fun s => ¬ ∃ l n, s.launch (s.scalar a).toNat = some l ∧ s.nodeOf (s.scalar a).toNat = some n ∧ l.part = s.myPart)
      (.gqry d a sel) d (fun _ => BitVec.allOnes 64))

/-- R216 to R224: a launch packet that keeps the rules is admitted with all its nodes, or rejected with all of them failed; a node
that is ready and next starts a thread in each of its seats, with s1 to s4 and its handles; a completed node releases its successors,
and a failed one ends its launch. That a packet passes through the queue is the model's reading (log 36). -/
def Obligations.PoolEvents : Prop :=
  (∀ (s : State) (b : List Byte) (rs : List NodeRec),
    let q := s.arg.a
    let u := s.queue q
    let n := fieldAt b 2 2
    let lid := u.launchId q (u.ridx - 1)
    u.hand = some b → launchOk b = true → s.poolUsed + n ≤ Config.poolEntries →
    s.readNodes (s.partOfQueue q) (fieldAt b 8 8) n n = some (some rs) →
    ∃ t, exec .launchAdmit s = .next t ∧ t.ctxs = s.ctxs ∧ t.mem = s.mem ∧ (t.queue q).hand = none ∧
      t.launches = s.launches ++ [{
        id := lid, part := s.partOfQueue q, queue := q
        flag := if fieldAt b 1 1 = 1 then some (BitVec.ofNat 64 (fieldAt b 16 8), BitVec.ofNat 64 (fieldAt b 24 8)) else none
        nodes := rs.zipIdx.map fun p => { idx := p.2, rec_ := p.1, rem := p.1.preds, relAt := s.keel } }]) ∧
  (∀ (s : State) (b : List Byte), let q := s.arg.a
    (s.queue q).hand = some b → launchOk b = false →
    ∃ t l, exec .launchAdmit s = .next t ∧ t.ctxs = s.ctxs ∧ t.mem = s.mem ∧ (t.queue q).hand = none ∧
      t.launches = s.launches ++ [l] ∧ l.ended = true ∧ ∀ n ∈ l.nodes, n.state = 5) ∧
  (∀ (s : State) (l : Launch) (n : Node) (ops : List (Nat × Nat × HMode)) (seats : List Nat) (team : Option Nat),
    let nid := s.arg.a
    s.launch nid = some l → s.nextNode l.part = some (l.id, n) → l.id + n.idx = nid → s.operands l.part n.rec_ = some ops →
    n.rec_.kind < 3 → s.seats l.part n.rec_ = some seats → seats.Nodup →
    (n.rec_.kind = 0 ∧ team = none ∨ n.rec_.kind ≠ 0 ∧ team ≠ none ∧ team = s.freeTeam l.part) →
    ∃ t, exec .nodeDispatch s = .next t ∧ t.mem = s.mem ∧ t.spad = s.spad ∧ (∀ m, m ∉ seats → t.ctx m = s.ctx m) ∧
      ∀ i src, seats[i]? = some src → ∃ c : Ctx, t.ctx src = { c with mhs := (t.ctx src).mhs } ∧ c.status = .run ∧ c.pc = n.rec_.entry ∧
        c.node = some nid ∧ c.team = team ∧ c.hzn = ⟨s.keel, src⟩ ∧ c.preds = 1 ∧
        c.reg 1 = n.rec_.arg ∧ c.reg 2 = BitVec.ofNat 64 nid ∧ c.reg 3 = BitVec.ofNat 64 i ∧
        c.reg 4 = team.elim (BitVec.allOnes 64) (BitVec.ofNat 64) ∧ (∀ r : Reg, 4 < r.toNat → c.reg r = 0) ∧
        (∀ o ∈ ops, (t.ctx src).mh (BitVec.ofNat 4 o.1) = ⟨true, o.2.1, (Config.recordIndex o.2.1).toNat,
          ((s.objOf l.part o.2.1).map (·.vers)).getD 0, (match o.2.2 with | .r => 0 | .w => 1 | .rw => 2), ⟨s.keel, src⟩⟩) ∧
        ∀ j : BitVec 4, (∀ o ∈ ops, o.1 ≠ j.toNat) → (t.ctx src).mh j = {}) ∧
  (∀ (s : State) (l : Launch) (n : Node),
    let nid := s.arg.a
    nid < 2 ^ 64 → s.arg.flg = false → s.launch nid = some l → s.nodeOf nid = some n → n.state = 2 ∨ n.state = 3 →
    (n.rec_.kind < 3 → ∀ t ∈ n.threads, s.threadDone n t = true) → l.flag = none → n.held = [] → n.released = false →
    (l.nodes.map (·.idx)).Nodup →
    ∃ t l', exec .nodeCompletion s = .next t ∧ t.ctxs = s.ctxs ∧ t.mem = s.mem ∧ t.launch nid = some l' ∧
      (∃ m ∈ l'.nodes, m.idx = n.idx ∧ m.state = 4 ∧ m.doneAt = s.keel ∧ m.released = true) ∧
      (∀ m ∈ l.nodes, m.idx ≠ n.idx → ∃ k ∈ l'.nodes, k.idx = m.idx ∧ k.rem = m.rem - n.rec_.succ.count m.idx ∧ k.state = m.state) ∧
      (l'.ended = true ↔ l.ended = true ∨ ∀ m ∈ l.nodes, m.idx = n.idx ∨ m.state = 4)) ∧
  (∀ (s : State) (l : Launch) (n : Node), let nid := s.arg.a
    nid < 2 ^ 64 → s.arg.flg = true → s.launch nid = some l → s.nodeOf nid = some n →
    ∃ t l', exec .nodeCompletion s = .next t ∧ t.ctxs = s.ctxs ∧ t.mem = s.mem ∧ t.launch nid = some l' ∧ l'.ended = true)

-- Copy and relay engines (18).

/-- R300, R306, R315 to R318: `COPY` and `COPYF` claim the next id of their channel, put the packet in its slot and answer id and
promise; on a channel that is not configured they answer all ones and 0; that the publication of a `COPY` is a boundary of its thread,
so that its next one comes in a later nanosecond, is the model's reading (log 56). `CWAIT` goes on with Boundary(partition) once CDONE
has passed the id, `CSTAT` reads CDONE, and `CCHK` goes on, traps or waits by the promise. The event looks again. -/
def Obligations.CopyInstructions : Prop :=
  (∀ (s : State) (d b a c : Reg) (ch : BitVec 2) (pa : Nat) (fo : Option Instr),
    let k := 4 * (s.iss.src / 4) + ch.toNat
    let x := (s.scalar a).toNat
    let n := s.chan k
    let bytes := s.spadRead s.pathL (s.iss.src / 4) x 64
    let set := if fo.isSome then bytes.take 1 ++ [bytes[1]?.getD 0 ||| 2] ++ bytes.drop 2 else bytes
    let pkt := set.take 60 ++ leBytes 4 n.widx
    let tr : Xfer := { id := n.widx, pkt := pkt, by_ := some s.iss.src, work := s.me.node, follow := fo.isSome }
    let p := s.promise k s.keel tr
    x % 8 = 0 → n.len ≠ 0 → n.pend ≤ 1 → (fo.isSome = true → s.me.bufT.length < 4) → s.me.bufA = [] → s.me.streams = [] →
    s.spadUsable x 64 → s.spadPoisoned (s.iss.src / 4) x 64 = false → s.mayBound .part = true →
    s.engineWalk s.myPart (n.base + 64 * (n.widx % n.len)) true = some (.ok pa) → tr.zero = false → n.isDone n.widx = false →
    (fo = none ∨ fo = followOn (s.scalar c)) →
    ∃ t v, exec (if fo.isSome then .copyf d b a c ch else .copy d b a ch) s = .next t ∧ t.iss = s.iss ∧ OthersKept s t s.iss.src ∧
      t.mem = s.mem ∧ t.spad = s.spad ∧ t.vers = (s.publish s.iss.src .part).vers ++ [v] ∧
      v.cells = (s.addrs s.myPart pa 64).zip pkt ∧ (t.chan k).widx = n.widx + 1 ∧ (t.chan k).look = true ∧ (t.chan k).prom = p ∧
      t.me = { s.me with regs := t.me.regs, copies := t.me.copies, bufT := t.me.bufT, lastB := s.keel + 1 } ∧
      t.me.copies = s.me.copies ++ [(k, n.widx, s.me.cur.isSome)] ∧
      (b ≠ 0 → t.me.reg (physReg s.iss.rrb b) = BitVec.ofNat 64 p) ∧
      (d ≠ 0 → b = 0 ∨ physReg s.iss.rrb d ≠ physReg s.iss.rrb b → t.me.reg (physReg s.iss.rrb d) = BitVec.ofNat 64 n.widx) ∧
      (fo = none → t.me.bufT = s.me.bufT) ∧
      (fo.isSome = true → ∃ e, t.me.bufT = s.me.bufT ++ [e] ∧ some e.instr = fo ∧ e.wake = some (k, n.widx))) ∧
  (∀ (s : State) (d b a : Reg) (ch : BitVec 2), (s.scalar a).toNat % 8 = 0 → (s.scalar a).toNat + 64 ≤ 0x180000 →
    (s.chan (4 * (s.iss.src / 4) + ch.toNat)).len = 0 →
    exec (.copy d b a ch) s = .next ((s.setScalar d (BitVec.allOnes 64)).setScalar b 0) ∧
    ∀ c, followOn (s.scalar c) ≠ none → exec (.copyf d b a c ch) s = .next ((s.setScalar d (BitVec.allOnes 64)).setScalar b 0)) ∧
  (∀ (s : State) (d b a c : Reg) (ch : BitVec 2), followOn (s.scalar c) = none → exec (.copyf d b a c ch) s = .next (s.fatal .illegal)) ∧
  (∀ (s : State) (a : Reg) (ch : BitVec 2), let k := 4 * (s.iss.src / 4) + ch.toNat
    ((s.scalar a).toNat < (s.chan k).done → s.me.deliver = [] → s.me.wait = none → s.mayBound .part = true →
      ∃ t, exec (.cwait ch a) s = .next t ∧ t = { s.boundary .part with ctxs := t.ctxs } ∧ OthersKept s t s.iss.src ∧
        t.me = { (s.boundary .part).me with wait := t.me.wait }) ∧
    ((s.chan k).done ≤ (s.scalar a).toNat → s.iss.unit = .c → ∃ t, exec (.cwait ch a) s = .next t ∧ t.iss.flow = .stalled ∧ OnlyMine s t ∧
      t.me = { s.me with wait := t.me.wait })) ∧
  (∀ (d : Reg) (ch : BitVec 2), WritesReg (.cstat d ch) d (fun s => BitVec.ofNat 64 (s.chan (4 * (s.iss.src / 4) + ch.toNat)).done)) ∧
  (∀ (s : State) (a : Reg) (ch : BitVec 2), let k := 4 * (s.iss.src / 4) + ch.toNat
    let id := (s.scalar a).toNat
    ((s.chan k).isDone id = true → s.me.deliver = [] → s.me.wait = none → exec (.cchk ch a) s = .next s) ∧
    (∀ p, (s.chan k).isDone id = false → tfind (s.chan k).proms id = some p → p ≤ s.keel → s.me.tstate.getLsbD 0 = false →
      s.me.tvec ≠ 0 → s.iss.unit = .c →
      ∃ t, exec (.cchk ch a) s = .next t ∧ t.me.pc = s.me.tvec ∧ t.me.cause = (s.scalar a).setWidth 32 ++ 4#32 ∧ t.me.epc = s.iss.pc) ∧
    (∀ p, (s.chan k).isDone id = false → tfind (s.chan k).proms id = some p → s.keel < p → s.iss.unit = .c →
      ∃ t, exec (.cchk ch a) s = .next t ∧ t.iss.flow = .stalled ∧ OnlyMine s t ∧ t.me = { s.me with wait := t.me.wait })) ∧
  (∀ (s t : State) (ch : BitVec 2) (a : Reg), s.runnable s.arg.a = true → (s.ctx s.arg.a).lateAt = 0 → s.goOn s.arg.a = some (.cchk ch a, t) →
    ∃ u, exec (.cchk ch a) t = .next u ∧ exec .promiseTimeReached s = .next (u.finishC (.cchk ch a) (s.ctx s.arg.a).pc))

/-- R300, R301, R304, R307 to R310: the steps of a copy engine: it takes the packet its next id names, moves the bytes of a row
between scratchpads, and completes: CDONE passes the id, the causing thread waits for it no longer, and the next transfer is current.
A write of CQNOTE makes it look, of CQWIDX sets an idle channel's counts, of CFAILST clears the failure. -/
def Obligations.CopyEngineSteps : Prop :=
  (∀ (s : State) (pkt : List Byte),
    let k := s.arg.a
    let c := s.chan k
    let w := c.next (c.early.length + 1) (max c.taken c.done)
    s.mayTake k = true → c.cur = none →
    s.engineBytes (s.chanView k) (s.chanPart k) ((c.base + 64 * (w % c.len) : Nat) : Int) 64 = some (.ok pkt) → w < c.widx →
    fieldAt pkt 60 4 = w % 2 ^ 32 →
    ∃ t x, exec .copyPacketTake s = .next t ∧ t = { s with chans := t.chans } ∧ (t.chan k).cur = some x ∧ x.id = w ∧ x.pkt = pkt ∧
      x.begun = false ∧ (t.chan k).taken = w + 1 ∧ (t.chan k).done = c.done) ∧
  (∀ (s : State) (x : Xfer),
    let k := s.arg.a
    let n := min 4096 (x.len0 - x.off)
    let a := epBase x.src + ((if x.kind = 1 then (x.row : Int) * x.sstr1 else 0) + x.off)
    let b := epBase x.dst + ((if x.kind = 1 then (x.row : Int) * x.dstr1 else 0) + x.off)
    s.chanRuns k = true → s.skew = false → (s.chan k).cur = some x → x.begun = true → x.code = 0 → x.kind < 2 → x.flg 2 = false →
    x.row < x.rows → (x.kind = 0 → x.row = 0) → epSpace x.src = 1 → epSpace x.dst = 1 → x.old = [] → x.rowInRange x.row = true →
    0 ≤ a → a.toNat + n ≤ 0x180000 → 0 ≤ b → b.toNat + n ≤ 0x180000 →
    (∀ r ∈ regionsOf a.toNat n, s.regionBusy (epCell k x.src) (s.chanKey x.by_) r = none) →
    (∀ r ∈ regionsOf b.toNat n, s.regionBusy (epCell k x.dst) (s.chanKey x.by_) r = none) →
    s.spadPoisoned (epCell k x.src) a.toNat n = false →
    ∃ t, exec .copyPacketStep s = .next t ∧ t.ctxs = s.ctxs ∧ t.mem = s.mem ∧ t.banks = s.banks ∧
      SpadWritten s t (x.path k) (epCell k x.dst) b.toNat (s.spadRead (x.path k) (epCell k x.src) a.toNat n) ∧
      (t.chan k).cur = some (if x.off + n < x.len0 then { x with off := x.off + n } else { x with off := 0, row := x.row + 1 })) ∧
  (∀ (s : State) (x : Xfer),
    let k := s.arg.a
    s.chanRuns k = true → (s.chan k).cur = some x → x.code = 0 → x.begun = true → x.steps ≤ x.row → x.flg 0 = false → x.obj = none →
    x.node = none →
    ∃ t, exec .copyTransferComplete s = .next t ∧ t.mem = s.mem ∧ t.spad = s.spad ∧ (t.chan k).isDone x.id = true ∧
      (s.chan k).done ≤ (t.chan k).done ∧ (t.chan k).cur = (s.chan k).shadow ∧ (t.chan k).shadow = none ∧
      (t.chan k).failV = (s.chan k).failV ∧ t.vers = s.vers ∧
      ∀ th, x.by_ = some th → s.slots = [] → ∀ y ∈ (t.ctx th).copies, ¬ (y.1 = k ∧ y.2.1 = x.id)) ∧
  (∀ s : State, ∃ t, exec .cqnoteWrite s = .next t ∧ t = { s with chans := t.chans } ∧
    t.chan s.arg.a = { s.chan s.arg.a with look := true }) ∧
  (∀ s : State, (s.chan s.arg.a).pend = 0 → ∃ t, exec .cqwidxWrite s = .next t ∧ t = { s with chans := t.chans } ∧
    (t.chan s.arg.a).widx = s.arg.b ∧ (t.chan s.arg.a).done = s.arg.b ∧ (t.chan s.arg.a).pend = 0) ∧
  (∀ s : State, (s.chan s.arg.a).pend ≠ 0 → ∃ t, exec .cqwidxWrite s = .next t ∧ t = { s with chans := t.chans } ∧
    t.chan s.arg.a = s.chan s.arg.a) ∧
  (∀ s : State, ∃ t, exec .cfailstClear s = .next t ∧ t = { s with chans := t.chans } ∧
    t.chan s.arg.a = { s.chan s.arg.a with failV := false })

/-- R320 to R326: `RSTART` publishes and starts a program on an idle engine of the partition, `RWAIT` goes on with Boundary(system)
once the step is complete or the engine idle, `RSTAT` and `RARB` read and set; another partition's engine is ILLEGAL. A step whose
time has come and whose gate holds writes its output, published at system scope, element by element: the input rounded to the output's
format, or for an ADD the two inputs added, rounded to FP32 and then to that format. That the publication of an `RSTART` is a boundary
of its thread is the model's reading (log 56). That a step writes its whole block as it begins is the model's reading (log 32). -/
def Obligations.RelayBehaviour : Prop :=
  (∀ (s : State) (a : Reg) (e : BitVec 3) (h : List Byte),
    s.partOfStack e.toNat = s.myPart → s.mayBound .sys = true → (s.relay e.toNat).active = false →
    (s.publish s.iss.src .sys).relayBytes e.toNat 0 (s.scalar a).toNat 64 = some (.ok h) →
    1 ≤ fieldAt h 0 2 → fieldAt h 0 2 ≤ 4096 → fieldAt h 2 6 = 0 → fieldAt h 16 48 = 0 →
    ∃ t, exec (.rstart a e) s = .next t ∧ t = { s with vers := t.vers, relays := t.relays, ctxs := t.ctxs } ∧
      OthersKept s t s.iss.src ∧ t.me = { s.me with lastB := s.keel + 1 } ∧
      t.vers = (s.publish s.iss.src .sys).vers ∧ (∀ k, k ≠ e.toNat → t.relay k = s.relay k) ∧
      t.relay e.toNat = { active := true, ever := true, prog := (s.scalar a).toNat, nstep := fieldAt h 0 2, t0 := fieldAt h 8 8
                          state := 1, by_ := some s.iss.src, work := s.me.node, late := (s.relay e.toNat).late, first := s.seq }) ∧
  (∀ (s : State) (a d : Reg) (e : BitVec 3), s.partOfStack e.toNat ≠ s.myPart →
    exec (.rstart a e) s = .next (s.fatal .illegal) ∧ exec (.rwait a e) s = .next (s.fatal .illegal) ∧
    exec (.rstat d e) s = .next (s.fatal .illegal)) ∧
  (∀ (s : State) (a : Reg) (e : BitVec 3), s.partOfStack e.toNat = s.myPart → s.me.wait = none →
    ((s.relay e.toNat).active = false ∨ (s.scalar a).toNat < (s.relay e.toNat).done → s.mayBound .sys = true →
      ∃ t, exec (.rwait a e) s = .next t ∧ t = { s.boundary .sys with ctxs := t.ctxs } ∧ OthersKept s t s.iss.src ∧
        t.me = { (s.boundary .sys).me with wait := t.me.wait }) ∧
    ((s.relay e.toNat).active = true → (s.relay e.toNat).done ≤ (s.scalar a).toNat → s.iss.unit = .c →
      ∃ t, exec (.rwait a e) s = .next t ∧ t.iss.flow = .stalled ∧ OnlyMine s t ∧ t.me = { s.me with wait := t.me.wait })) ∧
  (∀ (d : Reg) (e : BitVec 3), WritesRegIf (fun s => s.partOfStack e.toNat = s.myPart) (.rstat d e) d
    (fun s => let r := s.relay e.toNat
      BitVec.ofNat 64 (r.late * 2 ^ 32 + r.code * 2 ^ 16 + s.relayState e.toNat * 2 ^ 13 + r.done))) ∧
  (∀ (s : State) (e : Nat), let r := s.relay e
    (r.active = false → s.relayState e = r.state) ∧ (r.active = true → r.step ≠ [] → s.relayState e = 3) ∧
    (∀ n, r.active = true → r.step = [] → s.relayFind e = .wait n → s.relayState e = n)) ∧
  (∀ (s : State) (a : Reg),
    let w (k : Nat) : Nat := if k = 0 then 1 else k
    let v : Nat × Nat := (w ((s.scalar a).extractLsb' 0 8).toNat, w ((s.scalar a).extractLsb' 8 8).toNat)
    (∃ t, exec (.rarbHbm a) s = .next t ∧ t = { s with parts := t.parts } ∧ t.part s.myPart = { s.part s.myPart with wHbm := v }) ∧
    (∃ t, exec (.rarbLink a) s = .next t ∧ t = { s with parts := t.parts } ∧ t.part s.myPart = { s.part s.myPart with wLink := v })) ∧
  (∀ (s : State) (x : RStep) (as bs : List Byte) (pa : Nat),
    let e := s.arg.a
    let r := s.relay e
    let n := x.nelem
    let wa := x.ta.width / 8
    let wb := x.tb.width / 8
    let wo := x.to.width / 8
    let h0 := s.relayHold e 0 (r.prog + 64 + 64 * r.done) 64 false
    let h1 := if x.gate = 1 then h0.relayHold e 4 (x.f 48 8) 8 false else h0
    let h2 := h1.relayHold e 1 (x.f 24 8) (n * x.ta.width / 8) false
    let h2 := if x.op = 2 then h2.relayHold e 2 (x.f 32 8) (n * x.tb.width / 8) false else h2
    let h3 := h2.relayHold e 3 (x.f 40 8) (n * wo) true
    let apart (va w : Nat) : Prop := va = x.f 40 8 ∨ meets va (n * w / 8) (x.f 40 8) (n * x.to.width / 8) = false
    r.active = true → r.put = none → r.step = [] → r.out = none → h0.relayFind e = .go x → x.op = 3 ∨ x.op = 2 →
    apart (x.f 24 8) x.ta.width → (x.op = 2 → apart (x.f 32 8) x.tb.width) →
    h2.relayBytes e 1 (x.f 24 8) (n * x.ta.width / 8) = some (.ok as) →
    (x.op = 2 → h2.relayBytes e 2 (x.f 32 8) (n * x.tb.width / 8) = some (.ok bs)) →
    h3.pieces (h3.heldBy (2048 + e) 3) (s.partOfStack e) (x.f 40 8 : Int) (n * wo) true = some (.ok [(pa, n * wo)]) → memoryAt pa → r.done + 1 < r.nstep →
    n * wo = n * x.to.width / 8 →
    ∃ t v, exec .relayStep s = .next t ∧ t.ctxs = s.ctxs ∧ t.mem = s.mem ∧ (t.relay e).done = r.done + 1 ∧ (t.relay e).active = true ∧
      t.vers = s.vers ++ [v] ∧ v.src = 2048 + e ∧ v.pubs.map (·.1) = [.sys] ∧
      v.cells = (s.addrs (s.partOfStack e) pa (n * wo)).zip ((List.range n).flatMap fun j =>
        let a := x.ta.num (fieldAt as (j * wa) wa)
        let y := if x.op = 2 then fp32.num (fp32.round .rne false (Sys2Proof.Num.add .rne a (x.tb.num (fieldAt bs (j * wb) wb))).1).1 else a
        leBytes wo ((fmtOf x.to).round .rne x.sat y).1))

-- Windows and Spar links (21).

/-- R364 to R366: `WREG` registers a range at the lowest free entry with ARRIVED 0 and answers its id, all ones for no bytes; `WDEREG`
frees an entry of the partition; `PUT` counts itself issued and sends its bytes as DATA flits of up to 224, the last with LAST;
`WWAIT` goes on with Boundary(system) once its count is reached, or at once for an id the partition does not own; `WCNT` reads a
count. -/
def Obligations.WindowInstructions : Prop :=
  (∀ (s : State) (d a b : Reg) (th : BitVec 4) (i : Nat),
    let pa := ((s.me.teth th).anchor + (s.scalar a).toInt).toNat
    let len := (s.scalar b).toNat
    len ≠ 0 → s.me.xlatPending th = false → s.tethUsable th (s.scalar a).toInt len true false → memoryAt pa →
    i < 4096 → s.window i = none → (∀ j, j < i → s.window j ≠ none) →
    ∃ t w, exec (.wreg d th a b) s = .next t ∧ t = { s with ctxs := t.ctxs, windows := t.windows } ∧ OthersKept s t s.iss.src ∧
      t.window i = some w ∧ w.part = s.myPart ∧ w.base = pa ∧ w.len = len ∧ w.arrived = {} ∧ w.exp = (s.me.teth th).exp ∧ (∀ j, j ≠ i → t.window j = s.window j) ∧
      t.me = { s.me with regs := t.me.regs } ∧ (d ≠ 0 → t.me.reg (physReg s.iss.rrb d) = BitVec.ofNat 64 i) ∧
      ∀ r, d = 0 ∨ r ≠ physReg s.iss.rrb d → t.me.reg r = s.me.reg r) ∧
  (∀ (d a b : Reg) (th : BitVec 4), WritesRegIf (fun s => s.scalar b = 0 ∧ s.me.xlatPending th = false ∧
    s.tethUsable th (s.scalar a).toInt 0 true false ∧ memoryAt ((s.me.teth th).anchor + (s.scalar a).toInt).toNat) (.wreg d th a b) d
    (fun _ => BitVec.allOnes 64)) ∧
  (∀ (s : State) (d a b : Reg) (th : BitVec 4), s.me.xlatPending th = false → (s.me.teth th).stat = .ok → (s.me.teth th).w = false →
    exec (.wreg d th a b) s = .next (s.fatal .badTether (th.setWidth 32))) ∧
  (∀ (s : State) (a : Reg),
    let w := (s.scalar a).toNat % 4096
    ((∃ x, s.window w = some x ∧ x.part = s.myPart) → s.putInto w = false →
      ∃ t, exec (.wdereg a) s = .next t ∧ t = { s with windows := t.windows } ∧ t.window w = none ∧
        ∀ j, j ≠ w → t.window j = s.window j) ∧
    ((∀ x, s.window w = some x → x.part ≠ s.myPart) → exec (.wdereg a) s = .next s)) ∧
  (∀ (s : State) (th : BitVec 4) (a b c : Reg) (wid : BitVec 16),
    let n := wid.toNat / 4096
    let w := wid.toNat % 4096
    let p := s.port n
    let len := (s.scalar c).toNat
    let pa := ((s.me.teth th).anchor + (s.scalar a).toInt).toNat
    let num := (p.pair w).issued.n + 1
    s.partOfPort n = s.myPart → 0 < len → len ≤ 2 ^ 24 → s.me.xlatPending th = false →
    s.tethUsable th (s.scalar a).toInt len false false → memoryAt pa → p.puts.length < 256 → s.me.bufA = [] → s.me.streams = [] →
    s.readPoisoned (s.me.teth th).ord pa len = false → p.up = true → p.sendq = [] → p.txSeq < 65536 →
    p.replay.length + (len + 223) / 224 ≤ 512 →
    ∃ (t : State) (fl : List OutFlit), exec (.put th a b c wid) s = .next t ∧ t.iss = s.iss ∧ OthersKept s t s.iss.src ∧ t.mem = s.mem ∧ t.spad = s.spad ∧
      t.vers = s.vers ∧ t.me = { s.me with puts := s.me.puts ++ [(wid.toNat, num)] } ∧ (∀ k, k ≠ n → t.port k = s.port k) ∧
      (t.port n).puts = p.puts ++ [⟨w, num⟩] ∧ (t.port n).pair w = { p.pair w with issued := (p.pair w).issued.add ⟨s.keel, s.iss.src⟩ 1 } ∧
      (∀ v, v ≠ w → (t.port n).pair v = p.pair v) ∧ t.outbox = s.outbox ++ fl.map (.flit n) ∧ (t.port n).replay = p.replay ++ fl.map (fun f => (f, 0)) ∧
      fl.length = (len + 223) / 224 ∧
      ∀ i f, fl[i]? = some f → f.type_ = 1 ∧ f.wid = w ∧ f.off = (s.scalar b).toNat + 224 * i ∧ f.seq = (p.txSeq + i) % 65536 ∧
        f.bytes.length = min 224 (len - 224 * i) ∧ (f.flg = true ↔ i + 1 = fl.length) ∧
        ∀ k, k < f.bytes.length →
          f.bytes[k]? = (s.readAt (s.me.teth th).ord pa len).1[224 * i + k]? ∨
          f.bytes[k]? = (s.loadBytes ⟨s.iss.src, some s.myPart, some s.myCell, ⟨s.keel + 1, 0⟩, some 0, none⟩ s.myPart pa len)[224 * i + k]?) ∧
  (∀ (s : State) (th : BitVec 4) (a b c : Reg) (wid : BitVec 16),
    let n := wid.toNat / 4096
    let w := wid.toNat % 4096
    (s.partOfPort n ≠ s.myPart → exec (.put th a b c wid) s = .next (s.fatal .illegal)) ∧
    (s.partOfPort n = s.myPart → s.scalar c = 0 → ∃ t, exec (.put th a b c wid) s = .next t ∧ t = { s with ports := t.ports } ∧
      (t.port n).pair w = { (s.port n).pair w with
        issued := ((s.port n).pair w).issued.add ⟨s.keel, s.iss.src⟩ 1
        completed := ((s.port n).pair w).completed.add ⟨s.keel, s.iss.src⟩ 1 })) ∧
  (∀ (s : State) (sel : WinSel) (a b : Reg), s.me.wait = none →
    let n := s.winCount sel ((s.scalar a).toNat % 65536)
    (s.mayBound .sys = true → (∀ x ∈ n, (s.scalar b).toNat ≤ x.1.seen ⟨s.keel, s.iss.src⟩) →
      ∃ t, exec (.wwait sel a b) s = .next t ∧ t = { s.boundary .sys with ctxs := t.ctxs } ∧ OthersKept s t s.iss.src ∧
        t.me = { (s.boundary .sys).me with wait := t.me.wait }) ∧
    (s.iss.unit = .c → (∃ x ∈ n, x.1.seen ⟨s.keel, s.iss.src⟩ < (s.scalar b).toNat) → ∃ t, exec (.wwait sel a b) s = .next t ∧ t.iss.flow = .stalled ∧
      OnlyMine s t ∧ t.me = { s.me with wait := t.me.wait })) ∧
  (∀ (d a : Reg) (w : Window) (p : Pair),
    let id (s : State) : Nat := (s.scalar a).toNat % 65536
    let mine (s : State) : Prop := s.partOfPort (id s / 4096) = s.myPart ∧ (s.port (id s / 4096)).pair (id s % 4096) = p
    WritesRegIf (fun s => s.window (id s % 4096) = some w ∧ w.part = s.myPart) (.wcnt .arr d a) d
      (fun s => BitVec.ofNat 64 (w.arrived.seen ⟨s.keel, s.iss.src⟩)) ∧
    WritesRegIf mine (.wcnt .iss d a) d
      (fun s => BitVec.ofNat 64 (p.issued.seen ⟨s.keel, s.iss.src⟩ + (if p.err then 2 ^ 63 else 0))) ∧
    WritesRegIf mine (.wcnt .cmp d a) d
      (fun s => BitVec.ofNat 64 (p.completed.seen ⟨s.keel, s.iss.src⟩ + (if p.err then 2 ^ 63 else 0))) ∧
    (∀ (c : Tally) (st : Stamp), (∀ e ∈ c.fresh, e.1.lt st = true) → c.seen st = c.n % 2 ^ 48) ∧
    WritesRegIf (fun s => s.window (id s % 4096) = none) (.wcnt .arr d a) d (fun _ => BitVec.allOnes 64) ∧
    ∀ sel, sel = .iss ∨ sel = .cmp → WritesRegIf (fun s => s.partOfPort (id s / 4096) ≠ s.myPart) (.wcnt sel d a) d
      (fun _ => BitVec.allOnes 64))

/-- R357 to R362: flits. A DATA flit in order is written in its window, and the last of a `PUT` raises ARRIVED and is answered by a
DONE flit, with ERR where the window is not registered; a flit out of order or in error is answered by a NAK with the SEQ expected; a
DONE flit completes the `PUT`s it covers; a NAK makes every kept flit from its SEQ leave again; an ACK frees what it covers; a link
that goes down completes every `PUT` with ERR, and a retrained one starts anew; a SYNC flit measures twice the offset, an offset past
32 ns is the skew fault, and it ends once every link measures 16 ns or less; a flit of an unknown TYPE is counted, or answered by a
NAK where its CRC fails; a window's lease is renewed where its page now lies. How the clock slews toward its upstream port is outside
the statement (log 62). -/
def Obligations.LinkFlits : Prop :=
  let counted (p q : Port) (l : List OPut) (err : Bool) : Prop := ∀ w,
    (q.pair w).issued = (p.pair w).issued ∧ (q.pair w).completed.n = (p.pair w).completed.n + (l.filter fun o => o.wid = w).length ∧
    (q.pair w).err = ((p.pair w).err || (err && l.any fun o => o.wid = w))
  (∀ (s : State) (f : DataFlit) (x : Window),
    let n := s.arg.a
    let p := s.port n
    s.arg.data = some f → p.up = true → f.ok = true → f.seq.toNat = p.rxSeq → s.window f.wid.toNat = some x →
    x.part = s.partOfPort n → 1 ≤ f.bytes.length → f.bytes.length ≤ 224 → f.off.toNat + f.bytes.length ≤ x.len →
    (p.inWid.isSome && p.inDrop) = false → p.inq = [] → s.keel < x.exp → p.sendq = [] → p.replay.length < 512 →
    (∀ g ∈ p.replay, g.1.seq ≠ f.ack.toNat) →
    ∃ t v, exec .inboundDataFlit s = .next t ∧ t.ctxs = s.ctxs ∧ t.mem = s.mem ∧ t.spad = s.spad ∧ t.banks = s.banks ∧
      (t.port n).rxSeq = (p.rxSeq + 1) % 65536 ∧ v ∈ t.vers ∧ v.src = 2064 + n ∧
      v.cells = (s.addrs x.part (x.base + f.off.toNat) f.bytes.length).zip f.bytes ∧
      (f.last = false → (t.port n).inLen = p.inLen + f.bytes.length ∧ t.outbox = s.outbox ∧ t.windows = s.windows) ∧
      (f.last = true → (∀ q ∈ v.pubs, q.2.keel ≤ s.keel) ∧
        (t.window f.wid.toNat).map (·.arrived) = some (x.arrived.add ⟨s.keel + 1, 2064 + n⟩ (p.inLen + f.bytes.length)) ∧
        ∃ g, t.outbox = s.outbox ++ [.flit n g] ∧ g.type_ = 4 ∧ g.flg = false ∧ g.off = p.doneTx + 1)) ∧
  (∀ (s : State) (f : DataFlit),
    let n := s.arg.a
    let p := s.port n
    s.arg.data = some f → p.up = true → p.sendq = [] → p.replay.length < 512 →
    (f.ok = false ∨ f.seq.toNat ≠ p.rxSeq → ∃ t g, exec .inboundDataFlit s = .next t ∧ t.ctxs = s.ctxs ∧ t.mem = s.mem ∧
      t.vers = s.vers ∧ t.windows = s.windows ∧ (t.port n).rxSeq = p.rxSeq ∧ t.outbox = s.outbox ++ [.flit n g] ∧ g.type_ = 3 ∧
      g.off = p.rxSeq) ∧
    (f.ok = true → f.seq.toNat = p.rxSeq → s.window f.wid.toNat = none → f.last = true → p.inq = [] →
      (∀ g ∈ p.replay, g.1.seq ≠ f.ack.toNat) → ∃ t g, exec .inboundDataFlit s = .next t ∧ t.ctxs = s.ctxs ∧ t.mem = s.mem ∧
      t.vers = s.vers ∧ t.windows = s.windows ∧ t.outbox = s.outbox ++ [.flit n g] ∧ g.type_ = 4 ∧ g.flg = true ∧
      g.off = p.doneTx + 1)) ∧
  (∀ (s : State) (f : CtlFlit),
    let n := s.arg.a
    let p := s.port n
    s.arg.ctl = some f → p.up = true → f.ok = true → f.seq.toNat = p.rxSeq → p.doneRx ≤ f.off.toNat →
    ∃ t, exec .doneFlit s = .next t ∧ t.ctxs = s.ctxs ∧ t.mem = s.mem ∧ t.vers = s.vers ∧ (t.port n).doneRx = f.off.toNat ∧
      (t.port n).puts = p.puts.drop (f.off.toNat - p.doneRx) ∧
      counted p (t.port n) (p.puts.take (f.off.toNat - p.doneRx)) f.err) ∧
  (∀ (s : State) (f : CtlFlit) (pre post : List (OutFlit × Nat)),
    let n := s.arg.a
    let p := s.port n
    s.arg.ctl = some f → p.up = true → f.ok = true → f.seq.toNat = p.rxSeq → p.rxSeq < 65536 → p.replay = pre ++ post →
    (post.head?).map (·.1.seq) = some (f.off.toNat % 65536) → (∀ g ∈ pre, g.1.seq ≠ f.off.toNat % 65536) →
    (∀ g ∈ p.replay, g.1.seq ≠ f.ack.toNat) → (∀ g ∈ post, g.2 < 7) →
    ∃ t, exec .nakFlit s = .next t ∧ t.ctxs = s.ctxs ∧ t.mem = s.mem ∧ t.vers = s.vers ∧ t.agenda = s.agenda ∧
      (t.port n).replay = pre ++ post.map (fun g => ({ g.1 with ack := p.rxSeq }, g.2 + 1)) ∧
      t.outbox = s.outbox ++ post.map fun g => .flit n { g.1 with ack := p.rxSeq }) ∧
  (∀ (s : State) (f : CtlFlit) (pre post : List (OutFlit × Nat)) (g : OutFlit × Nat),
    let n := s.arg.a
    let p := s.port n
    s.arg.ctl = some f → p.up = true → f.ok = true → p.replay = pre ++ g :: post → g.1.seq = f.ack.toNat →
    (∀ h ∈ pre, h.1.seq ≠ f.ack.toNat) → p.sendq = [] → s.arg.b < 5 →
    ∃ t, exec .idleFlit s = .next t ∧ t = { s with ports := t.ports } ∧ (t.port n).replay = post) ∧
  (∀ (s : State) (f : CtlFlit),
    let n := s.arg.a
    let p := s.port n
    s.arg.ctl = some f → p.up = true →
    (5 ≤ s.arg.b → f.ok = true → ∃ t, exec .idleFlit s = .next t ∧ t = { s with ports := t.ports } ∧
      t.port n = { p with errors := p.errors + 1 }) ∧
    (f.ok = false → p.sendq = [] → p.replay.length < 512 → ∃ t g, exec .idleFlit s = .next t ∧
      t = { s with ports := t.ports, outbox := s.outbox ++ [.flit n g] } ∧ (t.port n).errors = p.errors ∧ g.type_ = 3 ∧ g.off = p.rxSeq)) ∧
  (∀ s : State, let p := s.port s.arg.a
    p.up = true → ∃ t, exec .linkDown s = .next t ∧ t = { s with ports := t.ports, relays := t.relays } ∧
      (t.port s.arg.a).up = false ∧ (t.port s.arg.a).puts = [] ∧ (t.port s.arg.a).replay = [] ∧ (t.port s.arg.a).sendq = [] ∧
      counted p (t.port s.arg.a) p.puts true) ∧
  (∀ s : State, ∃ t, exec .linkRetrain s = .next t ∧ t = { s with ports := t.ports, relays := t.relays } ∧
    let p := t.port s.arg.a
    p.up = true ∧ p.txSeq = 0 ∧ p.rxSeq = 0 ∧ p.replay = [] ∧ p.sendq = [] ∧ p.puts = [] ∧ p.inq = [] ∧
      p.sentAt = s.keel / 1000 * 1000 ∧
      counted (s.port s.arg.a) p (if (s.port s.arg.a).up then (s.port s.arg.a).puts else []) true) ∧
  (∀ (s : State) (f : SyncFlit),
    let n := s.arg.a
    let b1 : Int := f.time.toNat - f.hold.toNat
    let o : Int := 2 * (b1 - f.echo.toNat) - ((s.keel : Int) - f.echo.toNat - f.hold.toNat)
    s.arg.sync = some f → (s.port n).up = true → f.ok = true →
    ∃ t, exec .syncBeat s = .next t ∧ t.mem = s.mem ∧ (t.port n).echo = f.time.toNat ∧ (t.port n).echoAt = s.keel ∧
      (f.echo ≠ 0 → (t.port n).offset = o) ∧ (f.echo = 0 ∨ o.natAbs ≤ 64 → t.ctxs = s.ctxs ∧ t.vers = s.vers ∧ (s.skew = false → t.skew = false)) ∧
      (f.echo ≠ 0 → s.skew = true → 32 < o.natAbs → t.skew = true) ∧
      (f.echo ≠ 0 → o.natAbs ≤ 32 → (∀ p ∈ s.ports, p.1 ≠ n → p.2.sync = true → p.2.offset.natAbs ≤ 32) → t.skew = false) ∧
      (f.echo ≠ 0 → 64 < o.natAbs → s.skew = false → t.skew = true ∧ (∀ c, (t.cell c).leases = []) ∧
        ∀ m th, ((s.ctx m).teth th).stat = .ok → m ∈ s.ctxs.map (·.1) → ((t.ctx m).teth th).stat = .skewed)) ∧
  (∀ s : State, (s.port s.arg.a).up = true →
    ∃ t g, exec .syncFlitSend s = .next t ∧ t = { s with ports := t.ports, outbox := s.outbox ++ [.flit s.arg.a g] } ∧ g.type_ = 2 ∧
      g.off = s.keel ∧ (t.port s.arg.a).sentAt = s.keel / 1000 * 1000) ∧
  (∀ (s : State),
    (∀ w, s.window s.arg.b = some w → w.len < 2 ^ 64 →
      ∃ bs, exec .peerCounterRead s = .next { s with outbox := s.outbox ++ [.data bs] } ∧ bs.length = 64 ∧
        fieldAt bs 0 8 = w.arrived.seen ⟨s.keel, 2064 + s.arg.a⟩ ∧ fieldAt bs 8 8 = w.len ∧ fieldAt bs 16 48 = 0) ∧
    (s.window s.arg.b = none →
      exec .peerCounterRead s = .next { s with outbox := s.outbox ++ [.data (List.replicate 64 0)] })) ∧
  (∀ (s : State) (x : Window) (pa : Nat) (l : Leaf), s.window s.arg.a = some x → s.engineWalk x.part x.va true = some (.ok pa) →
    s.walk x.part x.va = .ok l → (s.keel < x.exp → pa = x.base) → (∀ p ∈ s.ports, p.2.inq = []) →
    ∃ t, exec .windowLeaseRenewal s = .next t ∧ t = { s with windows := t.windows } ∧
      t.window s.arg.a = some { x with base := pa, exp := s.keel + l.lease - 64, lease := l.lease })

-- The Mooring Directory (16).

/-- R284 to R293: directory instructions, each at one stamp that no earlier one follows. `MOPEN` opens a handle on the object its name
is bound to, or answers 1 or 2; `MOPENW` does the same with Boundary(partition), or waits; `MCLOSE` gives the object back; `MBIND`
binds a name to a new or an existing object, and `MUNBIND` unbinds it, or answer the code of the first entry that fails and change
nothing; `MQRY` reads. The order of the checks is the model's reading (log 23). -/
def Obligations.DirectoryInstructions : Prop :=
  let dirOf (s : State) : Dir := (s.part s.myPart).dir
  -- nothing but the thread, its partition's directory, the records posted and the publishes changes
  let keeps (s t : State) : Prop := t.iss = s.iss ∧ OthersKept s t s.iss.src ∧ t.mem = s.mem ∧ t.banks = s.banks ∧
    (t.part s.myPart).ops = ⟨s.keel, s.iss.src⟩ ∧ ∀ p, p ≠ s.myPart → (t.part p).dir = (s.part p).dir
  let inTurn (s : State) : Prop := Stamp.lt ⟨s.keel, s.iss.src⟩ (s.part s.myPart).ops = false
  let answers (s t : State) (d : Reg) (v : Nat) : Prop := (d ≠ 0 → t.me.reg (physReg s.iss.rrb d) = BitVec.ofNat 64 v) ∧
    ∀ r, d = 0 ∨ r ≠ physReg s.iss.rrb d → t.me.reg r = s.me.reg r
  (∀ (s : State) (mh : BitVec 4) (c a : Reg) (mode : HMode) (o : Obj), inTurn s →
    let n := (dirOf s).bound (s.scalar a).toNat
    ((s.me.mh mh).isOpen = false → n ≠ 0 → tfind (dirOf s).objs n = some o →
      ∃ t, exec (.mopen mh c a mode) s = .next t ∧ keeps s t ∧ answers s t c 0 ∧ t.vers = s.vers ∧ t.spad = s.spad ∧
        t.me = { s.me with regs := t.me.regs, mhs := t.me.mhs } ∧
        t.me.mh mh = { isOpen := true, obj := n, lrec := (Config.recordIndex n).toNat, vers := o.vers, stamp := ⟨s.keel, s.iss.src⟩
                       mode := match mode with | .r => 0 | .w => 1 | .rw => 2 } ∧
        (∀ k, k ≠ mh → t.me.mh k = s.me.mh k) ∧ tfind (dirOf t).objs n = some { o with opens := o.opens + 1 } ∧
        (dirOf t).names = (dirOf s).names ∧ (∀ k, k ≠ n → tfind (dirOf t).objs k = tfind (dirOf s).objs k) ∧
        (s.me.wait = none → s.mayBound .part = true → ∀ b, ∃ u, exec (.mopenw mh c a b mode) s = .next u ∧
          u = { t.boundary .part with ctxs := u.ctxs } ∧ OthersKept s u s.iss.src ∧
          u.me = { (t.boundary .part).me with wait := u.me.wait })) ∧
    ((s.me.mh mh).isOpen = false → n = 0 → ∃ t, exec (.mopen mh c a mode) s = .next t ∧ keeps s t ∧ answers s t c 1 ∧
      dirOf t = dirOf s ∧ t.me = { s.me with regs := t.me.regs } ∧ t.vers = s.vers ∧ t.spad = s.spad) ∧
    ((s.me.mh mh).isOpen = false → n = 0 → s.iss.unit = .c → s.me.wait = none → ∀ b, overdue s.keel (s.deadlineOf b) = false →
      ∃ t, exec (.mopenw mh c a b mode) s = .next t ∧ t.iss.flow = .stalled ∧ t.me = { s.me with wait := t.me.wait } ∧
        dirOf t = dirOf s) ∧
    ((s.me.mh mh).isOpen = true → ∃ t, exec (.mopen mh c a mode) s = .next t ∧ keeps s t ∧ answers s t c 2 ∧
      dirOf t = dirOf s ∧ t.me = { s.me with regs := t.me.regs } ∧ t.vers = s.vers ∧ t.spad = s.spad)) ∧
  (∀ (s t : State) (mh : BitVec 4) (c a b : Reg) (mode : HMode), s.runnable s.arg.a = true →
    s.goOn s.arg.a = some (.mopenw mh c a b mode, t) → ∃ u, exec (.mopenw mh c a b mode) t = .next u ∧
      exec .mopenwWake s = .next (u.finishC (.mopenw mh c a b mode) (s.ctx s.arg.a).pc)) ∧
  (∀ (s : State) (mh : BitVec 4), let h := s.me.mh mh
    s.me.handleBusy mh = false → inTurn s →
    ∃ t, exec (.mclose mh) s = .next t ∧ keeps s t ∧ t.spad = s.spad ∧ (t.me.mh mh).isOpen = false ∧
      (∀ k, k ≠ mh → t.me.mh k = s.me.mh k) ∧ t.me = { s.me with mhs := t.me.mhs } ∧ (dirOf t).names = (dirOf s).names ∧
      (h.isOpen = false → dirOf t = dirOf s) ∧
      ∀ o, h.isOpen = true → tfind (dirOf s).objs h.obj = some o →
        (1 < o.opens ∨ (dirOf s).isBound h.obj = true → tfind (dirOf t).objs h.obj = some { o with opens := o.opens - 1 }) ∧
        (o.opens = 1 → (dirOf s).isBound h.obj = false → tfind (dirOf t).objs h.obj = none)) ∧
  (∀ (s : State) (mh : BitVec 4), (∃ x ∈ s.me.bufA ++ s.me.streams.map (·.ent), (streamOf x.instr).map (·.1) = some (.handle mh)) →
    exec (.mclose mh) s = .next s.stall) ∧
  (∀ (s : State) (d a b : Reg) (o : Obj),
    let x := (s.scalar a).toNat
    let e := s.spadRead s.pathL (s.iss.src / 4) x 64
    let name := fieldAt e 0 8
    let ex := fieldAt e 8 8
    let obj := fieldAt e 24 8 % 2 ^ 48
    let cur := (dirOf s).bound name
    s.scalar b = 1 → x % 8 = 0 → s.me.bufA = [] → s.me.streams = [] → s.spadUsable x 64 → s.mayPublish .part = true →
    s.spadPoisoned (s.iss.src / 4) x 64 = false → inTurn s → name ≠ 0 → bitsOf ex 48 15 = 0 → fieldAt e 17 3 = 0 →
    fieldAt e 56 8 = 0 → (ex / 2 ^ 63 = 1 ∨ ex % 2 ^ 48 = cur) → (dirOf s).names.length < Config.dirLimit →
    (dirOf s).objs.length < Config.dirLimit →
    -- BIND
    (fieldAt e 16 1 = 1 → fieldAt e 20 4 = 0 → fieldAt e 32 8 = 0 → fieldAt e 40 8 = 0 → obj ≠ 0 →
      tfind (dirOf s).objs obj = some o →
      ∃ t, exec (.mbind d a b) s = .next t ∧ keeps s t ∧ answers s t d 0 ∧ (dirOf t).bound name = obj ∧
        (∀ k, k ≠ name → (dirOf t).bound k = (dirOf s).bound k) ∧ tfind (dirOf t).objs obj = some o ∧
        tfind (dirOf t).changed name = some ⟨s.keel, s.iss.src⟩ ∧
        (s.noneLate s.pathL (s.iss.src / 4) x 64 → fieldAt (t.spadNow (s.iss.src / 4) (x + 24) 8) 0 8 = obj ∧
          fieldAt (t.spadNow (s.iss.src / 4) (x + 48) 8) 0 8 = cur % 2 ^ 64) ∧
        ∀ k y, y < 2 ^ 21 → k ≠ s.iss.src / 4 ∨ y < x + 24 ∨ (x + 32 ≤ y ∧ y < x + 48) ∨ x + 56 ≤ y →
          t.spadNow k y 1 = s.spadNow k y 1) ∧
    -- NEW
    (∀ r, fieldAt e 16 1 = 0 → fieldAt e 40 8 % 64 = 0 → fieldAt e 40 8 < 2 ^ 56 → (dirOf s).next ≠ 0 →
      (s.publish s.iss.src .part).engineRead 2056 s.myPart (fieldAt e 40 8) 64 = some (.ok r) →
      layoutOk r (fieldAt e 32 8 % 2 ^ 56) = true →
      ∃ t, exec (.mbind d a b) s = .next t ∧ keeps s t ∧ answers s t d 0 ∧ (dirOf t).bound name = (dirOf s).next ∧
        (∀ k, k ≠ name → (dirOf t).bound k = (dirOf s).bound k) ∧ (dirOf t).next = (dirOf s).next + 1 ∧
        tfind (dirOf t).objs (dirOf s).next = some { base := fieldAt e 32 8 % 2 ^ 56, vers := BitVec.ofNat 32 (fieldAt e 20 4), layout := r })) ∧
  (∀ (s : State) (d a b : Reg),
    let n := (s.scalar b).toNat
    let x := (s.scalar a).toNat
    (n < 1 ∨ 8 < n → exec (.mbind d a b) s = .next (s.setScalar d 9)) ∧
    (∀ rs c i, 1 ≤ n → n ≤ 8 → x % 8 = 0 → s.me.bufA = [] → s.me.streams = [] → s.spadUsable x (64 * n) → s.mayPublish .part = true →
      s.spadPoisoned (s.iss.src / 4) x (64 * n) = false → inTurn s →
      let es := (List.range n).map fun i => bindEntry (s.spadRead s.pathL (s.iss.src / 4) (x + 64 * i) 64)
      (s.publish s.iss.src .part).layouts s.myPart es = some rs →
      (dirOf s).checks [] (dirOf s).names.length (dirOf s).objs.length (es.zip rs) = some (c, i) →
      ∃ t, exec (.mbind d a b) s = .next t ∧ keeps s t ∧ answers s t d (c + 256 * i) ∧ dirOf t = dirOf s ∧ t.spad = s.spad)) ∧
  (∀ (s : State) (d a b : Reg),
    let name := (s.scalar a).toNat
    let v := (s.scalar b).toNat
    let cur := (dirOf s).bound name
    s.mayPublish .part = true → inTurn s → (dirOf s).names.length ≤ Config.dirLimit → (dirOf s).objs.length ≤ Config.dirLimit →
    (name ≠ 0 → cur ≠ 0 → (v / 2 ^ 63 = 1 ∨ v % 2 ^ 48 = cur) →
      ∃ t, exec (.munbind d a b) s = .next t ∧ keeps s t ∧ answers s t d 0 ∧ (dirOf t).bound name = 0 ∧
        ∀ k, k ≠ name → (dirOf t).bound k = (dirOf s).bound k) ∧
    (name ≠ 0 → cur ≠ 0 → v / 2 ^ 63 ≠ 1 → v % 2 ^ 48 ≠ cur →
      ∃ t, exec (.munbind d a b) s = .next t ∧ keeps s t ∧ answers s t d 4 ∧ dirOf t = dirOf s) ∧
    (name = 0 ∨ cur = 0 → ∃ t, exec (.munbind d a b) s = .next t ∧ keeps s t ∧ answers s t d 5 ∧ dirOf t = dirOf s)) ∧
  (∀ (s : State) (d a : Reg) (sel : BitVec 4) (v : Nat), inTurn s →
    let name := (s.scalar a).toNat
    let n := (dirOf s).bound name
    let o := tfind (dirOf s).objs n
    let h := s.me.mh ((s.scalar a).setWidth 4)
    (sel = 0 ∧ v = n ∨ sel = 1 ∧ v = o.elim 0 (·.vers.toNat) ∨ sel = 2 ∧ v = o.elim 0 (·.opens) ∨
      sel = 3 ∧ v = ((tfind (dirOf s).changed name).map (·.keel)).getD 0 ∨ sel = 4 ∧ v = (dirOf s).names.length ∨
      sel = 8 ∧ v = (if h.isOpen then h.obj else 2 ^ 64 - 1) ∨ sel = 9 ∧ v = (if h.isOpen then h.vers.toNat else 2 ^ 64 - 1) ∨
      sel = 10 ∧ v = h.mode.toNat + (if h.isOpen then 4 else 0) ∨
      sel = 11 ∧ v = (if h.isOpen then (tfind (dirOf s).objs h.obj).elim 0 (·.opens) else 2 ^ 64 - 1)) →
    ∃ t, exec (.mqry d a sel) s = .next t ∧ keeps s t ∧ answers s t d v ∧ dirOf t = dirOf s ∧ t.spad = s.spad ∧ t.vers = s.vers ∧
      t.me = { s.me with regs := t.me.regs })

-- The host and the queue mapper (13, 24).

/-- R239, R381, R382, R385, R384: the host reads and writes memory and registers; what it may not reach answers Unsupported Request,
and poisoned data answers poison; a 64-bit FetchAdd of QWIDX answers the old value and claims; a write of QNOTE makes the mapper look;
a register takes the bits it has, and a queue's ceiling holds the threads of that queue, saved ones too (R49, log 39). A host's access
to a line takes the line's poisoned and locked copies with it as log 46 reads R239. A device in recovery answers every request but the
read of its status word with Unsupported Request (R407), whose address and bits are left free (log 42). Which addresses the host
reaches is the model's reading (log 40). -/
def Obligations.HostAccesses : Prop :=
  (∀ s : State, let pa := s.arg.a
    let n := s.arg.bytes.length
    s.fw.recovery = false → 0 < n → (paKind pa = .hbm ∧ paKind (pa + n - 1) = .hbm ∨ paKind pa = .host ∧ paKind (pa + n - 1) = .host) →
    ∃ t v, exec .hostWrite s = .next t ∧ t = { s with seq := t.seq, vers := (s.loseLines pa n (s.keel + 3000)).vers ++ [v] } ∧
      v.src = 2056 ∧ v.pubs = [(.sys, ⟨s.keel, 2056⟩)] ∧ v.cells = (s.addrs 0 pa n).zip s.arg.bytes) ∧
  (∀ s : State, let pa := s.arg.a
    let n := s.arg.b
    s.fw.recovery = false → 0 < n → (paKind pa = .hbm ∧ paKind (pa + n - 1) = .hbm ∨ paKind pa = .host ∧ paKind (pa + n - 1) = .host) →
    let s' := s.loseLines pa n (s.keel + 3000)
    exec .hostRead s = .next { s' with outbox := s.outbox ++
      [if s'.loadPoisoned s'.hostView 0 pa n then .poison else .data (s'.loadBytes s'.hostView 0 pa n)] }) ∧
  (∀ s : State, let pa := s.arg.a
    let n := s.arg.b
    s.fw.recovery = false → 0 < n → paKind pa = .inter ∨ paKind pa = .peer ∨ paKind pa = .nothing →
    exec .hostRead s = .next { s with outbox := s.outbox ++ [.unsupported] } ∧
    ∀ b bs, exec .hostWrite { s with arg := { s.arg with bytes := b :: bs } } =
      .next { s with arg := { s.arg with bytes := b :: bs }, outbox := s.outbox ++ [.unsupported] }) ∧
  (∀ (s : State) (q : Nat), q < 1024 → s.fw.recovery = false → s.arg.a = 0xF00000000008 + 4096 * q → s.arg.b = 0 → s.arg.c = 0 →
    ∃ t, exec .hostFetchAdd s = .next t ∧
      t = { s with queues := t.queues, outbox := s.outbox ++ [.data (leBytes 8 (s.queue q).widx)] } ∧
      t.queue q = { s.queue q with widx := ((s.queue q).widx + s.arg.w.toNat) % 2 ^ 64 } ∧ ∀ r, r ≠ q → t.queue r = s.queue r) ∧
  (∀ (s : State) (k : Nat), k < 1024 → s.fw.recovery = false → s.arg.a = 0xF00001000010 + 256 * k → s.arg.b = 0 → s.arg.c = 0 →
    ∃ t, exec .hostFetchAdd s = .next t ∧
      t = { s with chans := t.chans, outbox := s.outbox ++ [.data (leBytes 8 (s.chan k).widx)] } ∧
      t.chan k = { s.chan k with widx := ((s.chan k).widx + s.arg.w.toNat) % 2 ^ 64 } ∧ ∀ r, r ≠ k → t.chan r = s.chan r) ∧
  (∀ s : State, paKind s.arg.a = .hbm ∨ paKind s.arg.a = .host ∨ s.arg.b ≠ 0 ∨ s.arg.c ≠ 0 →
    exec .hostFetchAdd s = .next { s with outbox := s.outbox ++ [.unsupported] }) ∧
  (∀ s : State, ∃ t, exec .qnoteWrite s = .next t ∧ t = { s with queues := t.queues } ∧
    t.queue s.arg.a = { s.queue s.arg.a with look := true } ∧ ∀ r, r ≠ s.arg.a → t.queue r = s.queue r) ∧
  -- registers by the host's own reads and writes
  (∀ s : State, let pa := s.arg.a
    let n := s.arg.b
    s.fw.recovery = false → paKind pa = .device ∨ paKind pa = .notify → n = 4 ∨ n = 8 → pa % n = 0 →
    exec .hostRead s = .next { s with outbox := s.outbox ++ [.data (leBytes n (s.devRead pa n))] }) ∧
  (∀ (s : State) (q : Nat), q < 1024 → s.fw.recovery = false → s.arg.a = 0xF00000000008 + 4096 * q →
    (s.arg.b = 8 → exec .hostRead s = .next { s with outbox := s.outbox ++ [.data (leBytes 8 (s.queue q).widx)] }) ∧
    (s.arg.bytes.length = 8 → (s.queue q).weight = 0 → ∃ t, exec .hostWrite s = .next t ∧ t = { s with queues := t.queues } ∧
      t.queue q = { s.queue q with widx := leVal s.arg.bytes } ∧ ∀ r, r ≠ q → t.queue r = s.queue r) ∧
    (s.arg.bytes.length = 8 → (s.queue q).weight ≠ 0 → exec .hostWrite s = .next s)) ∧
  (∀ (s : State) (k : Nat), k < 1024 → s.fw.recovery = false → s.arg.a = 0xF00001000000 + 256 * k →
    (s.arg.b = 8 → exec .hostRead s = .next { s with outbox := s.outbox ++ [.data (leBytes 8 (s.chan k).base)] }) ∧
    (s.arg.bytes.length = 8 → (s.chan k).pend = 0 → ∃ t, exec .hostWrite s = .next t ∧ t = { s with chans := t.chans } ∧
      t.chan k = { s.chan k with base := bitsOf (leVal s.arg.bytes) 6 50 * 64 } ∧ ∀ r, r ≠ k → t.chan r = s.chan r)) ∧
  (∀ (s : State) (n : Nat), n < s.nparts → n < 8 → s.fw.recovery = false → s.arg.b = 8 →
    let v := s.arg.w.toNat
    let page := 0xF00001800000 + 0x20000 * n
    let writes (off : Nat) (f : Part → Part) : Prop := s.arg.a = page + off →
      ∃ t, exec .registerWrite s = .next t ∧ t = { s with parts := t.parts } ∧ t.part n = f (s.part n) ∧
        ∀ m, m ≠ n → t.part m = s.part m
    writes 0x008 (fun p => { p with ptroot := bitsOf v 16 36 * 2 ^ 16 }) ∧
    writes 0x010 (fun p => { p with stvec := bitsOf v 3 61 * 8 }) ∧
    writes 0x018 (fun p => { p with pdisc := v % 2 ^ 16 }) ∧
    writes 0x030 (fun p => { p with nrbase := bitsOf v 5 51 * 32 }) ∧
    writes 0x048 (fun p => { p with nrridx := v }) ∧
    writes 0x080 (fun p => { p with sabase := bitsOf v 16 36 * 2 ^ 16 }) ∧
    writes 0x0A0 (fun p => { p with prdl := v }) ∧
    (s.arg.a = page ∨ s.arg.a = page + 0x098 ∨ s.arg.a = page + 0x0B0 → exec .registerWrite s = .next s)) ∧
  (∀ (s : State) (q : Nat), q < 1024 → s.fw.recovery = false → s.arg.b = 8 → s.arg.a = 0xF00000000008 + 4096 * q → s.arg.c ≠ 2080 → s.arg.c ≠ 2081 →
    ((s.queue q).weight = 0 → ∃ t, exec .registerWrite s = .next t ∧ t = { s with queues := t.queues } ∧
      t.queue q = { s.queue q with widx := s.arg.w.toNat }) ∧
    ((s.queue q).weight ≠ 0 → exec .registerWrite s = .next s)) ∧
  (∀ (s : State) (n q : Nat), n < s.nparts → n < 8 → q < 1024 → s.partOfQueue q = n → s.fw.recovery = false → s.arg.b = 8 →
    s.arg.a = 0xF00001810010 + 0x20000 * n + 64 * q →
    ∃ t, exec .registerWrite s = .next t ∧ t = { s with queues := t.queues, ctxs := t.ctxs, slots := t.slots } ∧
      t.queue q = { s.queue q with weight := s.arg.w.toNat % 256, ceiling := s.arg.w.extractLsb' 8 3 } ∧
      ∀ m, (s.queueOf (s.ctx m) ≠ some q → t.ctx m = s.ctx m) ∧
        (s.queueOf (s.ctx m) = some q → t.ctx m = { s.ctx m with
          ceiling := s.arg.w.extractLsb' 8 3
          prio := if s.arg.w.extractLsb' 8 3 < (s.ctx m).prio then s.arg.w.extractLsb' 8 3 else (s.ctx m).prio })) ∧
  (∀ s : State, s.fw.recovery = false → s.arg.a % s.arg.b ≠ 0 ∨ s.arg.b ≠ 4 ∧ s.arg.b ≠ 8 → exec .registerWrite s = .next s) ∧
  (∀ s : State, s.fw.recovery = false → s.arg.c = 2080 ∨ s.arg.c = 2081 → s.arg.a < 0xF00001800000 → exec .registerWrite s = .next s) ∧
  (∀ s : State, s.fw.recovery = false → s.arg.a = 0xF00001C40400 → s.arg.b = 8 →
    (s.arg.c = 2080 → exec .registerWrite s = .next { s with holdlim := s.arg.w.toNat }) ∧
    (s.arg.c ≠ 2080 → exec .registerWrite s = .next s)) ∧
  (∀ s : State, let no : State := { s with outbox := s.outbox ++ [.unsupported] }
    s.fw.recovery = true → exec .hostWrite s = .next no ∧ exec .hostFetchAdd s = .next no ∧ exec .registerWrite s = .next no ∧
      (s.arg.a ≠ Config.statusAddr ∨ s.arg.b ≠ 8 → exec .hostRead s = .next no) ∧
      (s.arg.a = Config.statusAddr → s.arg.b = 8 →
        ∃ w, exec .hostRead s = .next { s with outbox := s.outbox ++ [.data (leBytes 8 w)] }))

/-- R386 to R389, R390, R391: the mapper at a queue it may look at takes the packet at QRIDX, writing 0 to its KIND byte at system
scope: a `LAUNCH` goes to the pool, a COPYREQ to its channel, a SIGNAL writes its word, a FENCE waits for the launches taken before,
any other is dropped; a slot that reads 0 ends its look, and one that cannot be read is a rejected launch (log 51). A queue busy no
more leaves its slot; a free slot of a partition goes to the queue that waited longest; the slice of one whose deficit is spent ends
where a queue waits, and else is renewed. Which slot is taken and what a packet that cannot be served becomes are the model's readings
(log 39). -/
def Obligations.MapperAndSlots : Prop :=
  let took (s t : State) (q pa : Nat) (vs : List Ver) : Prop :=
    t.ctxs = s.ctxs ∧ t.mem = s.mem ∧ t.spad = s.spad ∧ (t.queue q).ridx = (s.queue q).ridx + 1 ∧
    (∀ r, r ≠ q → t.queue r = s.queue r) ∧ ∃ v, t.vers = s.vers ++ vs ++ [v] ∧ v.src = 2083 ∧ v.cells = (s.addrs (s.partOfQueue q) pa 1).zip [0] ∧
      v.pubs = [(.sys, ⟨s.keel, 2083⟩)]
  (∀ (s : State) (b : List Byte) (pa : Nat),
    let q := s.arg.a
    let part := s.partOfQueue q
    s.mayLook q = true → s.ringSlot q = some (some (b, pa)) →
    (fieldAt b 0 1 = 0 → ∃ t, exec .launchPacket s = .next t ∧ t = { s with queues := t.queues } ∧
      t.queue q = { s.queue q with look := false }) ∧
    (fieldAt b 0 1 = 1 → ∃ t, exec .launchPacket s = .next t ∧ took s t q pa [] ∧ (t.queue q).hand = some b ∧ t.chans = s.chans) ∧
    (signalOk b = true → ∀ w, s.engineWalk part (fieldAt b 8 8) true = some (.ok w) → memoryAt w →
      ∃ t v, exec .signalPacket s = .next t ∧ took s t q pa [v] ∧ v.src = 2083 ∧
        v.cells = (s.addrs part w 8).zip (leBytes 8 (fieldAt b 16 8)) ∧ v.pubs = [(.sys, ⟨s.keel, 2083⟩)] ∧
        (t.queue q).hand = (s.queue q).hand) ∧
    (fenceOk b = true → ∃ t, exec .fencePacket s = .next t ∧ took s t q pa [] ∧
      (t.queue q).fence = (s.launches.filter fun l => l.queue = q && !l.ended).map (·.id)) ∧
    (2 ≤ fieldAt b 0 1 → copyreqOk b = false → signalOk b = false → fenceOk b = false → (s.part part).nrlen = 0 → (s.part part).notes = [] →
      ∃ t, exec .badpkt s = .next t ∧ took s t q pa [] ∧ (t.queue q).hand = (s.queue q).hand ∧ t.launches = s.launches ∧
        t.chans = s.chans) ∧
    (copyreqOk b = true → ∀ pkt w,
      let cell := fieldAt b 2 2
      let ch := 4 * cell + fieldAt b 4 1
      let c := s.chan ch
      let p := slice pkt 0 60 ++ leBytes 4 c.widx
      cell < 256 → s.partOfCell cell = part → c.len ≠ 0 → c.pend ≤ 1 →
      s.engineBytes (s.engineView 2083 part) part (fieldAt b 8 8 : Nat) 64 = some (.ok pkt) →
      s.engineWalk part (c.base + 64 * (c.widx % c.len)) true = some (.ok w) →
      ({ id := c.widx, pkt := p, by_ := none, follow := false } : Xfer).zero = false →
      ∃ t v x, exec .copyreqPacket s = .next t ∧ t.ctxs = s.ctxs ∧ t.mem = s.mem ∧ t.spad = s.spad ∧
        (t.queue q).ridx = (s.queue q).ridx + 1 ∧ t.vers = s.vers ++ [x, v] ∧
        x.cells = (s.addrs part pa 1).zip [0] ∧ v.cells = (s.addrs part w 64).zip p ∧ (t.chan ch).widx = c.widx + 1 ∧
        (t.chan ch).look = true)) ∧
  (∀ s : State, let q := s.arg.a
    s.mayLook q = true → s.ringSlot q = some none →
    ∃ t l, exec .launchPacket s = .next t ∧ t.ctxs = s.ctxs ∧ t.mem = s.mem ∧ t.launches = s.launches ++ [l] ∧ l.queue = q ∧
      l.ended = true ∧ (∀ n ∈ l.nodes, n.state = 5) ∧ (t.queue q).ridx = (s.queue q).ridx + 1 ∧ ∀ r, r ≠ q → t.queue r = s.queue r) ∧
  (∀ (s : State) (i q : Nat) (rest : List Nat), s.fw.service = true → (∀ r ∈ s.queuesOf s.arg.a, s.queueNow r = s.queue r) →
    s.freeQSlots s.arg.a = i :: rest → s.longestWait s.arg.a = some q →
    ∃ t, exec .queueSlotMap s = .next t ∧ t = { s with queues := t.queues } ∧ (∀ r, r ≠ q → t.queue r = s.queue r) ∧
      t.queue q = { s.queue q with
        slot := some i, waitFrom := none, slicing := false, deficit := (s.queue q).deficit + 10000 * (s.queue q).weight }) ∧
  (∀ (s : State) (q : Nat), q ∈ s.queuesOf s.arg.a → (s.queue q).slot ≠ none → s.queueBusy q = false →
    ∃ t, exec .queueSlotMap s = .next t ∧ t = { s with queues := t.queues } ∧ (t.queue q).slot = none ∧ (t.queue q).deficit = 0) ∧
  (∀ s : State,
    let q := s.arg.a
    let u := s.queue q
    let part := s.partOfQueue q
    let waiting := ((s.queuesOf part).filter s.queueWaits).length
    let ending := ((s.queuesOf part).filter fun r => (s.queue r).slicing).length
    (u.slot ≠ none → u.slicing = false → u.deficit ≤ 0 → waiting ≤ ending →
      ∃ t, exec .sliceEnd s = .next t ∧ t = { s with queues := t.queues } ∧ (∀ r, r ≠ q → t.queue r = s.queue r) ∧
        t.queue q = { u with deficit := u.deficit + 10000 * u.weight, slicing := false }) ∧
    (u.slicing = true ∨ u.slot ≠ none ∧ u.deficit ≤ 0 ∧ ending < waiting →
      ∃ t, exec .sliceEnd s = .next t ∧ t = { s with queues := t.queues, parts := t.parts } ∧ (t.queue q).slicing = true ∧
        (∀ src ∈ s.queueCtxs q, (s.ctx src).team = none → ∃ p ∈ (t.part part).pres, src ∈ p.members.map (·.1)) ∧
        ∀ p ∈ (t.part part).pres, p ∈ (s.part part).pres ∨
          p.rd = s.keel + 8000 ∧ p.want = 0 ∧ p.queue = some q ∧ p.host = false))

-- Pre-emption and save slots (19, 24).

/-- R345 to R347, R392, R393: a request of the host is refused as BUSY, NOTEAM, or taken with its deadline; it is carried out as a
drain, in which nothing is stopped, or as a save or a discard into the lowest free slot, in which every member stops, with its
registers, and its channels are held; with no slot nothing is stopped. A drain whose members have ended is done; one at the end of its
window is saved where a slot is free. What the record of a thread without a team names is the model's reading (log 38). -/
def Obligations.PreemptionRequests : Prop :=
  let ends (s t : State) (x : Part) (p : Preempt) : Prop :=
    t = { s with parts := t.parts } ∧ t.part s.arg.a = { x with
      pres := [], prstat := 2 + 8 * 1, prtime := s.keel, swaps := if p.late then x.swaps else x.swaps ++ [p.rd] }
  (∀ s : State,
    let part := s.arg.a
    let v := s.arg.w.toNat
    let id := v % 65536
    let x := s.part part
    (x.pres ≠ [] → ∃ t, exec .preqWrite s = .next t ∧ t = { s with parts := t.parts } ∧ t.part part = { x with prstat := 5 }) ∧
    (x.pres = [] → bitsOf v 16 1 = 1 → (1024 ≤ id ∨ s.partOfSrc id ≠ part ∨ (s.ctx id).status = .free) →
      ∃ t, exec .preqWrite s = .next t ∧ t = { s with parts := t.parts } ∧ t.part part = { x with prstat := 3 }) ∧
    (x.pres = [] → bitsOf v 16 1 = 1 → id < 1024 → s.partOfSrc id = part → s.preemptable id = false → (s.ctx id).team = none →
      ∃ t, exec .preqWrite s = .next t ∧ t = { s with parts := t.parts } ∧ t.part part = { x with prstat := 3 }) ∧
    (x.pres = [] → bitsOf v 16 1 = 1 → id < 1024 → s.partOfSrc id = part → s.preemptable id = true → (s.ctx id).team = none →
      ∃ t, exec .preqWrite s = .next t ∧ t = { s with parts := t.parts } ∧ t.part part = { x with
        prstat := 1
        pres := [{ members := [(id, (s.ctx id).node)], team := none, t0 := s.keel, rd := max x.prdl (s.keel + 8000)
                   want := bitsOf v 18 2, host := true, queue := s.queueOfCtx id }] }) ∧
    (∀ tm : Team, x.pres = [] → bitsOf v 16 1 = 0 → s.teamOf part id = some tm → (∃ m ∈ tm.members, s.preemptable m.2 = true) →
      (∀ m ∈ tm.members, (s.ctx m.2).team = some id) →
      ∃ t p, exec .preqWrite s = .next t ∧ t = { s with parts := t.parts } ∧ t.part part = { x with prstat := 1, pres := [p] } ∧
        p.members.map (·.1) = (tm.members.map (·.2)).filter s.preemptable ∧ p.team = some id ∧
        p.rd = max x.prdl (s.keel + 8000) ∧ p.want = bitsOf v 18 2 ∧
        ∀ q, (∀ m ∈ p.members, s.queueOfCtx m.1 = some q) → p.queue = some q)) ∧
  (∀ (s : State) (p : Preempt),
    let part := s.arg.a
    let x := s.part part
    let l := s.liveMembers p
    x.pres = [p] → p.mode = 0 →
    (l = [] → p.host = true → ∃ t, exec .preemptionStop s = .next t ∧ ends s t x p) ∧
    (l ≠ [] → p.want = 1 → ∃ t, exec .preemptionStop s = .next t ∧ t = { s with parts := t.parts } ∧
      t.part part = { x with pres := [{ p with mode := 1 }] }) ∧
    (∀ k, l ≠ [] → p.want = 3 → s.freeSlot part p = some k →
      ∃ t, exec .preemptionStop s = .next t ∧ t.mem = s.mem ∧ t.spad = s.spad ∧ t.slots = s.slots ∧
        (t.part part).pres = [{ p with mode := 3, slot := some k, stopped := true, stopAt := s.keel }] ∧
        (p.host = true → (t.part part).prtime = s.keel) ∧ (∀ m, m ∉ l → t.ctx m = s.ctx m) ∧
        (∀ m ∈ l, let c := s.ctx m
          let d := t.ctx m
          d.status = (if c.status = .halted then .halted else .stopped) ∧ d.regs = c.regs ∧ d.preds = c.preds ∧ d.grid = c.grid ∧
          d.accs = c.accs ∧ d.lqs = c.lqs ∧ d.sqs = c.sqs ∧ d.teths = c.teths ∧ d.bufE = c.bufE ∧ d.bufT = c.bufT ∧ d.preempt = 3) ∧
        ∀ m ∈ l, ∀ i, i < 4 → (t.chan (4 * (m / 4) + i)).held = true) ∧
    (∀ k, l ≠ [] → p.want = 2 → s.discardable part p = true → s.freeSlot part p = some k → l.Nodup →
      ∃ t, exec .preemptionStop s = .next t ∧ t.mem = s.mem ∧
        (t.part part).pres = [{ p with mode := 2, slot := some k, stopped := true, stopAt := s.keel }] ∧ (∀ m, m ∉ l → t.ctx m = s.ctx m) ∧
        ∀ m ∈ l, let c := s.ctx m
          let d := t.ctx m
          some d.pc = c.accs.toList.findSome? (·.restart) ∧ d.regs = c.regs ∧ d.grid = c.grid ∧ d.bufA = [] ∧ d.bufE = [] ∧ d.bufT = [] ∧
          d.streams = [] ∧ (∀ a, (d.acc a).begun = false ∧ (d.acc a).prog = 0) ∧ ∀ q, (d.lq q).slots = [] ∧ (d.sq q).slots = []) ∧
    (l ≠ [] → p.want = 3 → s.freeSlot part p = none → p.host = true ∨ p.queue = none →
      ∃ t, exec .preemptionStop s = .next t ∧ t = { s with parts := t.parts } ∧ t.part part = { x with pres := [], prstat := 4 }) ∧
    (∀ q, l ≠ [] → p.want = 3 → s.freeSlot part p = none → p.host = false → p.queue = some q → p.stopped = false →
      ∃ t, exec .preemptionStop s = .next t ∧ t.ctxs = s.ctxs ∧ t.mem = s.mem ∧ (t.part part).pres = [] ∧ t.queue q = { s.queue q with
        slicing := false, deficit := (s.queue q).deficit + 10000 * (s.queue q).weight })) ∧
  (∀ (s : State) (p : Preempt),
    let part := s.arg.a
    let x := s.part part
    let l := s.liveMembers p
    x.pres = [p] → p.mode = 1 →
    (l = [] → p.host = true → ∃ t, exec .drainWindowEnd s = .next t ∧ ends s t x p) ∧
    (l ≠ [] → s.keel + 5000 < p.rd → exec .drainWindowEnd s = .next s) ∧
    (∀ k, l ≠ [] → p.late = false → p.rd ≤ s.keel + 5000 → s.freeSlot part p = some k →
      ∃ t, exec .drainWindowEnd s = .next t ∧ t.mem = s.mem ∧ (∀ m, m ∉ l → t.ctx m = s.ctx m) ∧
        (t.part part).pres = [{ p with mode := 3, slot := some k, stopped := true, stopAt := s.keel }] ∧
        ∀ m ∈ l, (t.ctx m).regs = (s.ctx m).regs ∧ (t.ctx m).accs = (s.ctx m).accs ∧ (t.ctx m).preempt = 3) ∧
    (l ≠ [] → p.late = false → p.rd ≤ s.keel + 5000 → s.freeSlot part p = none →
      ∃ t, exec .drainWindowEnd s = .next t ∧ t = { s with parts := t.parts } ∧ t.part part = { x with pres := [{ p with late := true }] }))

/-- R348, R349, R391, R392, R394, R396: the exchange moves the stopped members into the slot and frees their contexts; the writeback
writes the team header and the records; a region goes to the slot when another team uses it, and comes back; the host restores,
discards or flushes a slot it saved; a restore puts every member back with its registers. What stands in memory and what a restore
keeps are the model's readings (log 38). -/
def Obligations.SaveSlots : Prop :=
  (∀ (s : State) (p : Preempt),
    let part := s.arg.a
    let k := p.slot.getD 0
    (s.part part).pres = [p] → p.stopped = true → p.host = true → p.mode ≤ 3 → k < 64 → s.slotOf part k = none →
    (∀ m ∈ p.members, s.sameThread m = true) →
    ∃ t x, exec .smallStateExchange s = .next t ∧ t.mem = s.mem ∧ t.spad = s.spad ∧ t.banks = s.banks ∧ t.slots = s.slots ++ [x] ∧
      x.part = part ∧ x.slot = k ∧ x.team = p.team ∧ x.mode = p.mode ∧ x.written = false ∧ x.at_ = p.stopAt ∧
      x.members = p.members.map (fun m => (m.1, { s.ctx m.1 with preempt := 0 })) ∧
      (∀ m ∈ p.members, t.ctx m.1 = {}) ∧ (∀ n, n ∉ p.members.map (·.1) → t.ctx n = s.ctx n) ∧
      (t.part part).pres = [] ∧ (t.part part).prstat = 2 + 8 * p.mode + 64 * b2n x.flushed + 256 * k ∧
      (p.late = false → (t.part part).swaps = (s.part part).swaps ++ [p.rd])) ∧
  (∀ (s : State) (k : SaveSlot), s.slotOf s.arg.a s.arg.b = some k → k.written = false → k.members ≠ [] →
    ∃ t, exec .saveAreaWriteback s = .next t ∧ t.ctxs = s.ctxs ∧ t.mem = s.mem ∧
      t.slotOf s.arg.a s.arg.b = some { k with written := true } ∧
      (∃ v ∈ t.vers, v.src = 2083 ∧ v.cells = (s.addrs k.part (s.slotBase k) 8192).zip ({ k with written := true } : SaveSlot).header) ∧
      ∀ i, i < k.members.length → ∃ v ∈ t.vers, v.src = 2083 ∧
        v.cells.map (·.1) = s.addrs k.part (s.slotBase k + (0x2000 + 0x10000 * i)) 0x10000) ∧
  (∀ (s : State) (key : Nat) (k : SaveSlot),
    let cell := s.arg.a
    let r := s.arg.b
    tfind (s.cell cell).owners r = some key → (s.slots.find? fun k => !k.members.isEmpty && k.key = key) = some k → k.written = false →
    s.slotOf k.part k.slot = some k →
    ∃ t v, exec .lazyRegionSave s = .next t ∧ t.ctxs = s.ctxs ∧ t.mem = s.mem ∧ t.spad = s.spad ∧ t.banks = s.banks ∧
      t.vers = s.vers ++ [v] ∧ v.src = 2083 ∧
      v.cells = (s.addrs k.part (s.slotBase k + k.regOff cell r) (if r < 24 then 65536 else 0x200000)).zip
        (if r < 24 then s.spadNow cell (65536 * r) 65536 else s.bankNow cell (r = 25) 0 0x200000) ∧
      tfind (t.cell cell).owners r = none ∧
      (t.slotOf k.part k.slot).map (·.regions) = some (if (cell, r) ∈ k.regions then k.regions else k.regions ++ [(cell, r)])) ∧
  (∀ (s : State) (key pa : Nat),
    let cell := s.arg.a
    let r := s.arg.b
    let part := s.partOfCell cell
    let s' := s.evict cell r
    ((s.cell cell).reload.find? fun e => e.1 = r) = some (r, key, pa) →
    ∃ t, exec .lazyRegionReload s = .next t ∧ t.ctxs = s.ctxs ∧ t.mem = s.mem ∧ tfind (t.cell cell).owners r = some key ∧
      (∀ e ∈ (t.cell cell).reload, e.1 ≠ r) ∧
      (r < 24 → t.banks = s.banks ∧ t.spadNow cell (65536 * r) 65536 = s'.loadBytes (s'.engineView 2083 part) part pa 65536 ∧
        ∀ c x, x < 2 ^ 21 → (c ≠ cell ∨ x < 65536 * r ∨ 65536 * (r + 1) ≤ x) → t.spadNow c x 1 = s.spadNow c x 1) ∧
      (24 ≤ r → t.spad = s.spad ∧ t.bankNow cell (r = 25) 0 0x200000 = s'.loadBytes (s'.engineView 2083 part) part pa 0x200000)) ∧
  (∀ (s : State) (k : SaveSlot), s.slotOf s.arg.a s.arg.b = some k → k.host = true → k.members ≠ [] →
    (∃ t, exec .prresRestore s = .next t ∧ t = { s with slots := t.slots } ∧
      t.slotOf s.arg.a s.arg.b = some { k with restoring := true }) ∧
    (∃ t x, exec .prresFlush s = .next t ∧ t.ctxs = s.ctxs ∧ t.mem = s.mem ∧ t.spad = s.spad ∧
      t.slotOf s.arg.a s.arg.b = some x ∧ x.flushed = (t.ownedRegions k.key).isEmpty ∧
      (∀ c r, tfind (t.cell c).owners r ≠ some k.key) ∧ x.members = k.members ∧ (∀ p ∈ k.regions, p ∈ x.regions) ∧
      ∀ p ∈ s.ownedRegions k.key, p ∈ x.regions) ∧
    (∃ t, exec .prresDiscard s = .next t ∧ t.mem = s.mem ∧ t.spad = s.spad ∧
      t.slotOf s.arg.a s.arg.b = none ∧ (∀ c, ∀ o ∈ (t.cell c).owners, o.2 ≠ k.key) ∧
      (k.chans = [] → t.ctxs = s.ctxs ∧ ∀ x ∈ s.slots, ¬ (x.part = k.part ∧ x.slot = k.slot) → x ∈ t.slots))) ∧
  (∀ (s : State), (∀ k, s.slotOf s.arg.a s.arg.b = some k → k.host = false) →
    exec .prresRestore s = .next s ∧ exec .prresFlush s = .next s ∧ exec .prresDiscard s = .next s) ∧
  (∀ (s : State) (k : SaveSlot), s.slotOf s.arg.a s.arg.b = some k → s.restoreDue k = true →
    (s.seatsFree k = true → s.placeFree k = true → k.written = false → k.strs = [] → k.regions = [] →
      (k.members.map (·.1)).Nodup →
      ∃ t, exec .contextRestore s = .next t ∧ t.mem = s.mem ∧ t.spad = s.spad ∧ t.slotOf s.arg.a s.arg.b = none ∧
        (∀ n, n ∉ k.members.map (·.1) → t.ctx n = s.ctx n) ∧
        ∀ m ∈ k.members, let d := t.ctx m.1
          d.status = (if m.2.status = .halted then .halted else m.2.resumeTo) ∧ d.pc = m.2.pc ∧ d.regs = m.2.regs ∧
          d.preds = m.2.preds ∧ d.masks = m.2.masks ∧ d.grid = m.2.grid ∧ d.accs = m.2.accs ∧ d.lqs = m.2.lqs ∧ d.sqs = m.2.sqs ∧
          d.bufA = m.2.bufA ∧ d.bufE = m.2.bufE ∧ d.bufT = m.2.bufT ∧ d.streams = m.2.streams ∧ d.drogue = m.2.drogue ∧ d.mhs = m.2.mhs) ∧
    (s.seatsFree k = true → s.placeFree k = false → exec .contextRestore s = .next s) ∧
    (s.seatsFree k = false → k.host = true → exec .contextRestore s = .next s))

-- Debug, firmware and management (25, 26).

/-- R402, R403, R401, R406: a halted thread keeps everything and goes on exactly, with the edit made of a register or of its PC; a
step halts it again once an instruction has issued; a breakpoint halts or traps; a dump is attached to and released, at the latest at
the end of its hold time. The other handlers of the thread's string stop with it (R200): their waits are recorded, and their registers
stay. Where a breakpoint is compared and what a dump's release leaves are the model's readings (logs 34 and 37). -/
def Obligations.DebuggerActions : Prop :=
  let m (s : State) : Ctx := s.ctx s.arg.a
  let apart (s : State) (n : Nat) : Prop := ∀ r ∈ s.strs, r.handles s.arg.a = true → r.handles n = false
  let others (s t : State) : Prop := t.mem = s.mem ∧ t.spad = s.spad ∧ t.banks = s.banks ∧ ∀ n, n ≠ s.arg.a →
    (apart s n → t.ctx n = s.ctx n) ∧ (t.ctx n).regs = (s.ctx n).regs ∧ (t.ctx n).pc = (s.ctx n).pc ∧ (t.ctx n).status = (s.ctx n).status
  (∀ s : State,
    ((m s).status = .run → (m s).inLoopp = false → (m s).pfx = none →
      ∃ t, exec .halt s = .next t ∧ others s t ∧ m t = { m s with
        status := .halted, resumeTo := .run, haltWait := false, stepping := false, qwaits := [], busy := none
        wait := (m s).wait.map Wait.stopped, bufA := (m s).bufA.map Entry.stopped, streams := (m s).streams.map Stream.stopped
        pubWait := (none, none), lateAt := 0 }) ∧
    ((m s).status = .sleeping → (m s).inLoopp = false → (m s).pfx = none → ∃ t, exec .halt s = .next t ∧ others s t ∧ (m t).status = .halted ∧
      (m t).resumeTo = .sleeping ∧ (m t).pc = (m s).pc ∧ (m t).regs = (m s).regs) ∧
    ((m s).status = .run ∨ (m s).status = .sleeping → (m s).inLoopp = true → ∃ t, exec .halt s = .next t ∧ t = { s with ctxs := t.ctxs } ∧ others s t ∧
      m t = { m s with haltWait := true })) ∧
  (∀ s : State, (m s).status = .halted → (s.dbg s.arg.a).edits = [] →
    (∃ t, exec .resume s = .next t ∧ others s t ∧
      m t = { m s with status := (m s).resumeTo, resumeTo := .run, stepping := false, bpSkip := true }) ∧
    (∃ t, exec .step s = .next t ∧ others s t ∧
      m t = { m s with status := (m s).resumeTo, resumeTo := .run, stepping := true, bpSkip := true })) ∧
  -- an edit of register r, or of the PC
  (∀ (s : State) (w : Word), (m s).status = .halted →
    (∀ r : Reg, r ≠ 0 → (s.dbg s.arg.a).edits = [(0x270 + 8 * (r.toNat - 1), w)] →
      ∃ t, exec .resume s = .next t ∧ t.mem = s.mem ∧ t.spad = s.spad ∧ (∀ n, n ≠ s.arg.a → t.ctx n = s.ctx n) ∧ (m t).reg r = w ∧
        (∀ q, q ≠ r → (m t).reg q = (m s).reg q) ∧ (m t).bpSkip = true ∧ (t.dbg s.arg.a).edits = []) ∧
    ((s.dbg s.arg.a).edits = [(0, w)] →
      ∃ t, exec .resume s = .next t ∧ (∀ n, n ≠ s.arg.a → t.ctx n = s.ctx n) ∧ (m t).pc = w &&& ~~~7#64 ∧
        ∀ q, (m t).reg q = (m s).reg q)) ∧
  -- the issue that ends a step
  (∀ (s : State) (i : Instr) (pc : Word), let c := s.me
    c.stepping = true → c.status = .run → c.inLoopp = false → isPrefix i = false → s.iss.flow = .moved ∨ s.iss.flow = .fall ∧ c.loops = [] →
    let d := (s.finishC i pc).ctx s.iss.src
    d.status = .halted ∧ d.resumeTo = .run ∧ d.stepping = false ∧ d.regs = c.regs ∧
      d.pc = (if s.iss.flow = .moved then c.pc else c.pc + 8)) ∧
  (∀ s : State, (m s).status ≠ .halted → exec .resume s = .next s ∧ exec .step s = .next s) ∧
  (∀ s : State,
    ((m s).status = .frozen → ∃ t, exec .attach s = .next t ∧ t = { s with ctxs := t.ctxs } ∧ others s t ∧
      m t = { m s with status := .attached }) ∧
    ((m s).status ≠ .frozen → exec .attach s = .next s) ∧
    ((m s).status = .frozen ∨ (m s).status = .attached → ∃ t, exec .release s = .next t ∧ others s t ∧ m t = {}) ∧
    ((m s).status ≠ .frozen → (m s).status ≠ .attached → exec .release s = .next s) ∧
    ((m s).status = .frozen → (s.dbg s.arg.a).holdTill ≤ s.keel → ∃ t, exec .holdTimeExpiry s = .next t ∧ others s t ∧ m t = {}) ∧
    ((m s).status = .frozen → s.keel < (s.dbg s.arg.a).holdTill → exec .holdTimeExpiry s = .next s)) ∧
  (∀ s : State, let d := s.dbg s.arg.a
    ((m s).status = .halted ∨ (m s).status = .frozen ∨ (m s).status = .attached →
      ∃ t, exec .ddataWrite s = .next t ∧ t = { s with dbgs := t.dbgs } ∧
        t.dbg s.arg.a = { d with edits := d.edits ++ [(d.dsel, s.arg.w)] }) ∧
    ((m s).status = .run ∨ (m s).status = .sleeping → exec .ddataWrite s = .next s)) ∧
  (∀ s : State,
    let b := ((s.dbg s.arg.a).bps[s.arg.b]?).getD 0
    (m s).status = .run ∧ (m s).inLoopp = false ∨ s.arg.flg = true ∧ ((m s).status = .run ∨ (m s).status = .sleeping) →
    (b.getLsbD 1 = true → (m s).pfx = none → ∃ t, exec .breakpointMatch s = .next t ∧ others s t ∧ (m t).status = .halted ∧
      (m t).resumeTo = (m s).status ∧ (m t).pc = (m s).pc ∧ (m t).regs = (m s).regs) ∧
    (b.getLsbD 1 = false → (m s).tvec ≠ 0 → (m s).tstate.getLsbD 0 = false → ∃ t, exec .breakpointMatch s = .next t ∧ others s t ∧
      (m t).pc = (m s).tvec ∧ (m t).epc = (m s).pc ∧ (m t).regs = (m s).regs ∧
      (m t).cause = (BitVec.ofNat 32 (0x80000000 + s.arg.b)) ++ 2#32 ∧ (m t).tstate.getLsbD 0 = true)) ∧
  (∀ s : State, (m s).status = .run → (m s).inLoopp = true → s.arg.flg = false →
    ∃ t, exec .breakpointMatch s = .next t ∧ others s t ∧ m t = { m s with bpWait := some (BitVec.ofNat 2 s.arg.b) })

/-- R407 to R410, R412, R413, R383, R333: resets, the check of an image, the partition configuration, the rate bound by temperature,
measurements, management requests, flash updates, the fused minimum (which a signed request raises and nothing lowers) and soft
errors. Service firmware's requests for the configuration or a rate pass through the mailbox, whose check is left free (log 42). The
bytes of the measurements and the management answers are the model's forms (log 43), signatures are left free (log 14), and sensors
read 0 until they have been read (log 6). What a reset keeps, the log's code and when a configuration is taken are the model's
readings (logs 42 and 44). -/
def Obligations.FirmwareActions : Prop :=
  let booted (s t : State) : Prop :=
    t.keel = 0 ∧ t.ctxs = [] ∧ t.cells = [] ∧ t.spad = [] ∧ t.banks = [] ∧ t.vers = [] ∧ t.parts = [] ∧ t.chans = [] ∧ t.queues = [] ∧
    t.ports = [] ∧ t.windows = [] ∧ t.launches = [] ∧ t.slots = [] ∧ t.nparts = s.nparts ∧ t.qowner = s.qowner ∧
    t.outbox = s.outbox ++ (s.agenda.filter fun e => e.1 ∈ [.hostRead, .hostWrite, .hostFetchAdd, .registerWrite, .spdmRequest]).map
      (fun _ => .unsupported) ∧ t.agenda = s.agenda.filter (fun e => e.1 ∈ [.pldmRequest, .flashUpdate]) ∧
    t.fw.hashRoot = Config.sha512 (imageOf t.fw.rootFlash) ∧ t.fw.hashService = Config.sha512 (imageOf t.fw.serviceFlash) ∧
    t.fw.failure = imageFault s.fw.minVer t.fw.rootFlash ∧
    (∀ a, paKind a ≠ .host → mread t.mem a = 0) ∧ ((∀ v ∈ s.vers, v.src ≠ 2056) → ∀ a, paKind a = .host → mread t.mem a = mread s.mem a) ∧
    (t.fw.recovery = true ↔ imageOk s.fw.minVer t.fw.rootFlash = false) ∧
    (t.fw.service = true ↔ imageOk s.fw.minVer t.fw.serviceFlash = true) ∧ t.fw.minVer = s.fw.minVer ∧ t.fw.minSeen = s.fw.minVer ∧
    t.fw.cap = 2400
  let emits (s : State) (i : Instr) (a : Answer) : Prop := exec i s = .next { s with outbox := s.outbox ++ [a] }
  (∀ s : State, ∃ t, exec .coldReset s = .next t ∧ booted s t ∧ t.fw.rootFlash = s.fw.stagedRoot.getD s.fw.rootFlash ∧
    t.fw.serviceFlash = s.fw.stagedService.getD s.fw.serviceFlash ∧ t.fw.stagedRoot = none ∧ t.fw.stagedService = none) ∧
  (∀ s : State, ∃ t, exec .warmReset s = .next t ∧ booted s t ∧ t.fw.rootFlash = s.fw.rootFlash ∧
    t.fw.serviceFlash = s.fw.serviceFlash ∧ t.fw.stagedRoot = s.fw.stagedRoot ∧ t.fw.stagedService = s.fw.stagedService) ∧
  (∀ (min : Nat) (f : List Byte), let t := f.drop (f.length - 1024)
    imageOk min f = true ↔ 1024 ≤ f.length ∧ fieldAt t 0 4 = 0x57494658 ∧ fieldAt t 8 8 = f.length - 1024 ∧ (∀ b ∈ t.drop 592, b = 0) ∧
      Config.imageSigned (slice t 0 80) (slice t 80 512) = true ∧ BitVec.ofNat 512 (fieldAt t 16 64) = Config.sha512 (imageOf f) ∧
      min ≤ fieldAt t 4 4) ∧
  (∀ s : State, s.fw.recovery = false → s.arg.c = 2081 → (s.fw.service && Config.mailboxGrants s.choices) = false →
    exec .partitionConfigure s = .next { s with choices := s.choices + 1 } ∧
    exec .rateUpdate s = .next { s with choices := s.choices + 1 }) ∧
  (∀ s : State, let n := 2 ^ (s.arg.a % 4)
    let own (g : Nat) : Nat := ((s.arg.bytes[g]?).getD 0).toNat % n
    let hit (p : Nat) : Prop := (n ≠ s.nparts ∧ p < s.nparts) ∨
      (n = s.nparts ∧ ∃ g, g < 64 ∧ own g ≠ s.partOfQueue (16 * g) ∧ (p = own g ∨ p = s.partOfQueue (16 * g)))
    let asks := s.arg.c = 2081 → (s.fw.service && Config.mailboxGrants s.choices) = true
    s.fw.recovery = false →
    (asks → (∀ c ∈ s.ctxs, c.2.status = .free ∨ ¬ hit (s.partOfSrc c.1)) → (∀ k ∈ s.slots, ¬ hit k.part) →
      (∀ r ∈ s.relays, r.2.active = false) →
      ∃ t, exec .partitionConfigure s = .next t ∧
        t = { s with nparts := n, qowner := t.qowner, relays := t.relays, fw := t.fw, choices := t.choices } ∧
        t.fw = { s.fw with cfgChanges := s.fw.cfgChanges + 1 } ∧ ∀ q, q < 1024 → t.partOfQueue q = own (q / 16)) ∧
    (s.arg.c ≠ 2081 → (∃ c ∈ s.ctxs, c.2.status ≠ .free ∧ hit (s.partOfSrc c.1)) → emits s .partitionConfigure .unsupported)) ∧
  -- a setting of root firmware, from the column's four sensors, the power, and the sensors of the other columns as last read
  (∀ s : State,
    let col := s.arg.a % 64
    let hot := (s.arg.bytes.map (·.toNat)).foldl max 0
    let bound := if hot ≤ 95 then 1023 else if hot ≤ 105 then 256 * (105 - hot) / 10 else 0
    let r := min s.arg.b bound
    let now := (s.readTemps col s.arg.bytes).fw.temps
    s.fw.recovery = false → s.arg.c ≠ 2081 → s.arg.bytes.length = 4 →
    (∀ i b, s.arg.bytes[i]? = some b → tget 0 now (4 * col + i) = b.toNat) ∧ (∀ k, k / 4 ≠ col → tget 0 now k = tget 0 s.fw.temps k) ∧
    (hot ≤ 110 → s.arg.flg = false → ∃ t, exec .rateUpdate s = .next t ∧ t = { s with cols := t.cols, fw := t.fw } ∧
      t.fw = { s.fw with temps := now, wishes := t.fw.wishes, coolantLost := false } ∧ tget 256 t.fw.wishes col = s.arg.b ∧
      (t.col col).rate = (if now.any (fun p => 110 < p.2) then 0 else if s.fw.cap < s.fw.power then r * s.fw.cap / s.fw.power else r) ∧
      ((t.col col).rate ≠ (s.col col).rate → (t.col col).at_ = s.keel ∧
        (t.col col).tok = min (2 ^ 20) ((s.col col).tok + (s.col col).rate * (s.keel - (s.col col).at_))) ∧
      ∀ k, k ≠ col → t.col k = s.col k) ∧
    (110 < hot ∨ s.arg.flg = true → ∃ t, exec .rateUpdate s = .next t ∧ t.mem = s.mem ∧ t.spad = s.spad ∧
      (∀ k, k < 64 → (t.col k).rate = 0) ∧ t.fw.log = s.fw.log ++ [(s.keel, 412)] ∧ t.fw.coolantLost = s.arg.flg ∧
      ∀ n ∈ s.ctxs.map (·.1), (s.ctx n).status = .run → (s.ctx n).inLoopp = false → (t.ctx n).status = .halted)) ∧
  -- the settings of every 10 µs
  (∀ (s : State) (k : Nat), s.fw.recovery = false → s.keel % 10000 = 0 → k < 64 →
    let hot := max (max (tget 0 s.fw.temps (4 * k)) (tget 0 s.fw.temps (4 * k + 1)))
      (max (tget 0 s.fw.temps (4 * k + 2)) (tget 0 s.fw.temps (4 * k + 3)))
    (s.rateTick.col k).rate = if s.fw.coolantLost || s.fw.temps.any (fun p => 110 < p.2) then 0 else s.rateFor hot (tget 256 s.fw.wishes k)) ∧
  (∀ s : State, s.fw.recovery = false → exec .powerMeasurement s = .next { s with fw := { s.fw with power := s.arg.a } }) ∧
  (∀ s : State,
    let r := leBytes 64 s.fw.hashRoot.toNat ++ leBytes 64 s.fw.hashService.toNat ++ leBytes 4 s.fw.minSeen ++
      (List.range s.nparts).flatMap (fun p => leBytes 8 (s.pcfg p)) ++ leBytes 8 s.fw.cfgChanges ++ s.arg.bytes
    (s.fw.recovery = false → emits s .spdmRequest (.report (r ++ Config.attestSign r))) ∧
    (s.fw.recovery = true → emits s .spdmRequest .unsupported)) ∧
  (∀ s : State,
    let up := s.fw.recovery = false ∧ s.fw.service = true
    (up → ∀ i, s.arg.pldm = some (.readSensor i) → emits s .pldmRequest (.value (tget 0 s.fw.temps i.toNat))) ∧
    (up → s.arg.pldm = some .readPower → emits s .pldmRequest (.value s.fw.power)) ∧
    (up → s.arg.pldm = some .readCap → emits s .pldmRequest (.value s.fw.cap)) ∧
    (up → s.arg.pldm = some .readErrors →
      emits s .pldmRequest (.report (s.fw.log.flatMap fun e => leBytes 8 e.1 ++ leBytes 8 e.2))) ∧
    (up → ∀ w, s.arg.pldm = some (.setCap w) →
      (600 ≤ w ∧ w ≤ 2400 → exec .pldmRequest s = .next { s with fw := { s.fw with cap := w } }) ∧
      (¬ (600 ≤ w ∧ w ≤ 2400) → emits s .pldmRequest .unsupported)) ∧
    (¬ up → (∀ v sig, s.arg.pldm ≠ some (.raiseMinimum v sig)) → emits s .pldmRequest .unsupported) ∧
    (∀ v sig, s.arg.pldm = some (.raiseMinimum v sig) → s.fw.recovery = false → exec .pldmRequest s = .next (
      if Config.requestSigned v.toNat sig = true ∧ s.fw.minVer < v.toNat then { s with fw := { s.fw with minVer := v.toNat } }
      else { s with outbox := s.outbox ++ [.unsupported] }))) ∧
  (∀ s : State,
    (s.fw.recovery = true ∨ s.fw.service = true → exec .flashUpdate s = .next (
      if imageOk s.fw.minVer s.arg.bytes then
        if s.arg.flg then { s with fw := { s.fw with stagedService := some s.arg.bytes } }
        else { s with fw := { s.fw with stagedRoot := some s.arg.bytes } }
      else { s with outbox := s.outbox ++ [.unsupported] })) ∧
    (s.fw.recovery = false → s.fw.service = false → emits s .flashUpdate .unsupported)) ∧
  (∀ (s : State) (c g : Nat),
    (s.arg.err = some (.spad c g) → s.arg.flg = false → ∃ t, exec .softError s = .next t ∧ t = { s with cells := t.cells } ∧
      (∀ k, k ≠ c → t.cell k = s.cell k) ∧ t.cell c = { s.cell c with
        corrected := if (s.cell c).corrected = BitVec.allOnes 64 then BitVec.allOnes 64 else (s.cell c).corrected + 1 }) ∧
    (s.arg.err = some (.spad c g) → s.arg.flg = true → ∃ t, exec .softError s = .next t ∧ t = { s with psnSpad := t.psnSpad } ∧
      t.spadPoisoned c (32 * g) 32 = true) ∧
    (s.arg.err = some (.mem g) → s.arg.flg = true → exec .softError s = .next { s with psnMem := g :: s.psnMem }) ∧
    (s.arg.err = some (.pub c g) → s.arg.flg = true → ∃ t, exec .softError s = .next t ∧ t = { s with vers := t.vers } ∧
      ∀ v ∈ t.vers, v.seq = c → (∃ e ∈ v.cells, e.1 / 32 = g) → g ∈ v.psn))

-- The step, the encoding, and the whole machine (02, 03, 26).

/-- R14 to R17, R29, R31, R328: a step at which thread `src` issues runs the instruction its word decodes to. With no prefix before
it: on the control core where its guard holds, the PC advanced and the loops decided by `finishC`; as nothing but the advance where
its guard is false; as an entry of its unit's buffer else, which waits there or issues there in the next nanosecond. A waiting
instruction is tried again, and a step of a unit runs the instruction of the oldest entry; of the causes one thread's units find at
once one is taken. An event that waits runs with its operands; a word that decodes to nothing is ILLEGAL. That what waits in the
agenda comes before all else (log 9), which of the moves open to the device comes next (log 10), that a cycle is a nanosecond (log
19), and when an entry just dispatched goes on and which causes are found together (log 41) are the model's choices. -/
def Obligations.StepRunsDecoded : Prop :=
  let idle (s : State) : Prop := s.dueQueue = none ∧ s.agenda = [] ∧ s.fw.recovery = false ∧ s.duty = none
  (∀ (s t : State) (src : Nat) (w : Word) (i : Instr),
    let c := t.ctx src
    let u := (t.touch (cellOf src) c.pc.toNat).beginC src w
    let held := (c.pred (guardOf w).pr == (guardOf w).pn) = false
    let runs (o : Host.Outcome State Fault Refusal) : Prop := step s = oneCause t src .c o
    idle s → s.choose = (.issue src, t) → (c.bufA.any fun e => publishes e.instr || holdsForRest e.instr) = false →
    t.fetch src c.pc = some w → t.bpMatch src = none → u.fetchPoisoned src c.pc = false → decode w = .ok i → c.pfx = none →
    (∀ f, i ≠ .tell f) → isPrefix i = false →
    (i = .nop ∨ (∃ op, i = .undefinedOpcode op) → runs (andThen (exec i u) fun t => t.finishC i c.pc)) ∧
    (i ≠ .nop → (∀ op, i ≠ .undefinedOpcode op) → held → c.pending = [] → (∀ a b th, i = .rprobe a b th → u.quiet = true) →
      (unitOf i = .c → runs (andThen (exec i u) fun t => t.finishC i c.pc)) ∧
      (unitOf i ≠ .c → (c.buf (unitOf i)).length < depthOf (unitOf i) →
        let d := (({ u with lags := u.lags.tail } : State).dispatch i (unitOf i)).finishC i c.pc
        (u.lags.head? = some true → runs (.next d)) ∧ (u.lags = [] → runs (unitNext d src (unitOf i))))) ∧
    (i ≠ .nop → (∀ op, i ≠ .undefinedOpcode op) → ¬ held → runs (.next (u.finishC .nop c.pc)))) ∧
  (∀ (s t : State) (src : Nat) (w : Word) (e : Illegal),
    let c := t.ctx src
    let u := (t.touch (cellOf src) c.pc.toNat).beginC src w
    idle s → s.choose = (.issue src, t) → (c.bufA.any fun e => publishes e.instr || holdsForRest e.instr) = false →
    t.fetch src c.pc = some w → t.bpMatch src = none → u.fetchPoisoned src c.pc = false → decode w = .error e →
    step s = oneCause t src .c (.next ((u.fatal .illegal).issued src))) ∧
  (∀ s : State, idle s → step s = match s.choose with
    | (.tick, t) => .next t.tick
    | (.issue src, t) => oneCause t src .c (issueStep t src)
    | (.retry src, t) => oneCause t src .c (retryStep t src)
    | (.unit src v, t) => oneCause t src v (unitStep t src v)
    | (.event i a, t) => causeStep t i a) ∧
  (∀ (s : State) (i : Instr) (a : EvArg), i ∉ [.memoryLoadLands, .loadStreamRow, .storeStreamRow, .streamRowGrant] →
    causeStep s i a = exec i { s with arg := a, iss := {} }) ∧
  (∀ (d : State) (src : Nat) (v : Unit4), unitNext d src v = .next d ∨
    d.tick.pickU (cellOf src) v = some src ∧ unitNext d src v = oneCause d.tick src v (unitStep d.tick src v)) ∧
  (∀ (t : State) (src : Nat) (v : Unit4) (e : Entry) (es : List Entry), (t.ctx src).buf v = e :: es → t.inMma src e = false →
    unitStep t src v = andThen (exec e.instr (t.beginU src v e)) fun t => t.finishU v) ∧
  (∀ (t : State) (src : Nat) (w : Word) (i : Instr), (t.ctx src).busy = some w → decode w = .ok i →
    let u := t.beginC src w
    retryStep t src = andThen (exec i { u with iss := { u.iss with waited := true } }) fun r => r.finishC i (t.ctx src).pc) ∧
  (∀ (t t' : State) (src : Nat) (v : Unit4),
    (entered t t' src = false ∨ fatalBeside t src v = none → oneCause t src v (.next t') = .next t') ∧
    (∀ f, entered t t' src = true → fatalBeside t src v = some (true, f) →
      oneCause t src v (.next t') = .next { f with choices := f.choices + 1 }) ∧
    ∀ b f, fatalBeside t src v = some (b, f) → (f.ctx src).status = .frozen) ∧
  (∀ (s : State) (i : Instr) (a : EvArg) (rest : List (Instr × EvArg)), s.dueQueue = none → s.agenda = (i, a) :: rest →
    step s = exec i { s with agenda := rest, arg := a, iss := {} }) ∧
  (∀ (s : State) (i : Instr) (a : EvArg), s.dueQueue = some (i, a) → step s = exec i { s with arg := a, iss := {} })

/-- R29, R32 to R50: every word the encoding gives a well-formed instruction decodes to that instruction, with its guard. -/
def Obligations.EncodeDecode : Prop := ∀ i, Laws.Encodes.Statement i

/-- R31: the decoder answers only well-formed instructions. -/
def Obligations.DecodedIsWellFormed : Prop := ∀ w i, decode w = .ok i → i.wf = true

/-- Memory, the scratchpads and the weight banks keep their one canonical form over every step. -/
def Obligations.StepKeepsMemories : Prop := ∀ s t, s.memWf → step s = .next t → t.memWf

/-- R1, R407: after reset the Keel is 0, every context is free, memory, scratchpads and banks read zero in canonical form, and the
registers hold the values the manual gives. That host memory reads 0 and that there is one partition are the model's choices (logs 4
and 5). -/
def Obligations.AfterReset : Prop :=
  let s := State.reset
  s.memWf ∧ s.keel = 0 ∧ (∀ n, (s.ctx n).status = .free) ∧ (∀ a, mread s.mem a = 0) ∧ (∀ c a, s.spadNow c a 1 = [0]) ∧
  (∀ c b a, s.bankNow c b a 1 = [0]) ∧ (∀ p, (s.part p).pdisc = 512 ∧ (s.part p).ptroot = 0 ∧ (s.part p).stvec = 0) ∧
  (∀ n r, (s.ctx n).reg r = 0) ∧ (∀ n, (s.ctx n).rvm = BitVec.allOnes 48) ∧ (∀ k, (s.chan k).len = 0) ∧ (∀ q, (s.queue q).weight = 0) ∧
  (∀ k, (s.col k).rate = 256) ∧ s.holdlim = 60 * 10 ^ 9 ∧ s.fw.cap = 2400

/-- R32 to R50: words of the manual's examples, field by field, and what they stand for. -/
def Obligations.DecodeWords : Prop :=
  decode 0x0200_C040_0000_00C0#64 = .ok (.li 3 0xC0) ∧ decode 0x1101_4000_0000_0003#64 = .ok (.loop 5 3) ∧
  decode 0x4000_1C3E_4003_0000#64 = .ok (.vfma ⟨.row 1, .from (.queue 0 1 true), .from (.bcast 4), .f32, .rne, false⟩) ∧
  decode 0x5000_8452_0001_0800#64 = .ok (.mma ⟨0, .desc 8 false, .desc 10 false, .bf16, .bf16, 1, 0, false, false, true⟩) ∧
  decode 0x2100_0000_C000_0004#64 = .ok (.ldq ⟨0, 0, 3, .imm 4, 0⟩) ∧ decode 0x7900_0000_0000_0015#64 = .ok (.trap 0x15) ∧
  decode 0x6001_C420_9040_0013#64 = .ok (.flagw 7 3 4 8 9 .part .eq) ∧ decode 0x6900_0414_6023_0072#64 = .ok (.put 2 4 5 6 0x3007) ∧
  decode 0x7000_C51C_6010_0002#64 = .ok (.mopenw 3 6 5 7 .rw) ∧ decode 0x6803_903D_1010_0000#64 = .ok (.copyf 14 15 16 17 0)
end

