-- ==== Sys2Proof/Laws/Table.lean ====
section
/-! SUPPORT. Laws of the tables and of the byte memories: read after write, frames, and the canonical form. -/

namespace Sys2Proof.Machine

-- Tables.

@[simp] theorem tget_tput {α : Type} (d v : α) (l : List (Nat × α)) (n k : Nat) :
    tget d (tput l n v) k = if n = k then v else tget d l k := by
  induction l with
  | nil => simp [tput, tget]
  | cons e t ih =>
    obtain ⟨a, w⟩ := e
    grind [tput, tget]

theorem tget_tput_self {α : Type} (d v : α) (l : List (Nat × α)) (n : Nat) : tget d (tput l n v) n = v := by simp

theorem tget_tput_other {α : Type} (d v : α) (l : List (Nat × α)) {n k : Nat} (h : n ≠ k) :
    tget d (tput l n v) k = tget d l k := by simp [h]

@[simp] theorem tget_nil {α : Type} (d : α) (k : Nat) : tget d [] k = d := rfl

@[simp] theorem tfind_tput {α : Type} (v : α) (l : List (Nat × α)) (n k : Nat) :
    tfind (tput l n v) k = if n = k then some v else tfind l k := by
  induction l with
  | nil => simp [tput, tfind]
  | cons e t ih =>
    obtain ⟨a, w⟩ := e
    grind [tput, tfind]

theorem tget_tdel {α : Type} (d : α) (l : List (Nat × α)) (n k : Nat) :
    tget d (tdel l n) k = if n = k then d else tget d l k := by
  induction l with
  | nil => simp [tdel]
  | cons e t ih =>
    obtain ⟨a, w⟩ := e
    by_cases ha : a = n
    · subst ha
      have : tdel ((a, w) :: t) a = tdel t a := by simp [tdel]
      rw [this, ih]; simp only [tget]; split_ifs <;> rfl
    · have : tdel ((a, w) :: t) n = (a, w) :: tdel t n := by simp [tdel, ha]
      rw [this]; simp only [tget, ih]
      split_ifs <;> first | rfl | omega

-- One byte of a memory.

@[simp] theorem mread_mwrite (m : List Host.Cell) (a b : Nat) (v : Byte) :
    mread (mwrite m a v) b = if a = b then v else mread m b := by
  unfold mread mwrite
  by_cases h : v = 0
  · rw [if_pos h, tget_tdel, h]
  · rw [if_neg h, tget_tput]

/-- Bytes outside those written read as before. -/
theorem mread_mwrites_other (bs : List Byte) (m : List Host.Cell) (a b : Nat) (h : b < a ∨ a + bs.length ≤ b) :
    mread (mwrites m a bs) b = mread m b := by
  induction bs generalizing m a with
  | nil => rfl
  | cons x xs ih =>
    simp only [List.length_cons] at h
    simp only [mwrites]
    rw [ih _ _ (by omega), mread_mwrite]
    simp; omega

/-- Byte `i` of those written reads back. -/
theorem mread_mwrites_self (bs : List Byte) (m : List Host.Cell) (a i : Nat) (h : i < bs.length) :
    mread (mwrites m a bs) (a + i) = bs[i] := by
  induction bs generalizing m a i with
  | nil => simp at h
  | cons x xs ih =>
    simp only [mwrites]
    cases i with
    | zero => rw [mread_mwrites_other _ _ _ _ (by omega)]; simp
    | succ j =>
      have := ih (mwrite m a x) (a + 1) j (by simpa using h)
      simpa [Nat.add_assoc, Nat.add_comm 1 j] using this

@[simp] theorem mreads_length (m : List Host.Cell) (a n : Nat) : (mreads m a n).length = n := by
  induction n generalizing a with
  | zero => rfl
  | succ n ih => simp [mreads, ih]

/-- What was written is read back. -/
theorem mreads_mwrites (bs : List Byte) (m : List Host.Cell) (a : Nat) : mreads (mwrites m a bs) a bs.length = bs := by
  induction bs generalizing m a with
  | nil => rfl
  | cons x xs ih =>
    simp only [List.length_cons, mreads, mwrites, ih]
    rw [mread_mwrites_other _ _ _ _ (by omega)]; simp

-- The canonical form.

theorem rising_cons (a : Host.Cell) (t : List Host.Cell) :
    rising (a :: t) = true ↔ (∀ b ∈ t, a.1 < b.1) ∧ rising t = true := by
  induction t generalizing a with
  | nil => simp [rising]
  | cons b t ih =>
    have := ih b
    simp only [rising, Bool.and_eq_true, decide_eq_true_eq] at this ⊢
    rw [this]
    simp only [List.mem_cons, forall_eq_or_imp]
    constructor
    · rintro ⟨h, h1, h2⟩; exact ⟨⟨h, fun c hc => lt_trans h (h1 c hc)⟩, h1, h2⟩
    · rintro ⟨⟨h, _⟩, h1, h2⟩; exact ⟨h, h1, h2⟩

theorem rising_tdel (m : List Host.Cell) (a : Nat) (h : rising m = true) : rising (tdel m a) = true := by
  induction m with
  | nil => rfl
  | cons c t ih =>
    rw [rising_cons] at h
    by_cases hc : c.1 = a
    · simpa [tdel, hc] using ih h.2
    · have e : tdel (c :: t) a = c :: tdel t a := by simp [tdel, hc]
      rw [e, rising_cons]
      exact ⟨fun b hb => h.1 b (List.mem_filter.mp hb).1, ih h.2⟩

theorem mem_tput {α : Type} (l : List (Nat × α)) (n : Nat) (v : α) (e : Nat × α) (h : e ∈ tput l n v) :
    e = (n, v) ∨ e ∈ l := by
  induction l with
  | nil => simpa [tput] using h
  | cons c t ih =>
    obtain ⟨k, w⟩ := c
    simp only [tput] at h
    split_ifs at h with h1 h2
    · rcases List.mem_cons.mp h with h | h
      · exact .inl h
      · exact .inr (List.mem_cons_of_mem _ h)
    · rcases List.mem_cons.mp h with h | h
      · exact .inl h
      · exact .inr h
    · rcases List.mem_cons.mp h with h | h
      · exact .inr (h ▸ List.mem_cons_self ..)
      · exact (ih h).imp id (List.mem_cons_of_mem _)

theorem rising_tput (m : List Host.Cell) (a : Nat) (v : Byte) (h : rising m = true) : rising (tput m a v) = true := by
  induction m with
  | nil => rfl
  | cons c t ih =>
    obtain ⟨k, w⟩ := c
    have h' := (rising_cons _ _).mp h
    simp only [tput]
    split_ifs with h1 h2
    · subst h1; exact (rising_cons _ _).mpr h'
    · refine (rising_cons _ _).mpr ⟨fun b hb => ?_, h⟩
      rcases List.mem_cons.mp hb with rfl | hb
      · exact h2
      · exact lt_trans h2 (h'.1 b hb)
    · refine (rising_cons _ _).mpr ⟨fun b hb => ?_, ih h'.2⟩
      rcases mem_tput t a v b hb with rfl | hb
      · simp only; omega
      · exact h'.1 b hb

theorem wf_mwrite (m : List Host.Cell) (a : Nat) (v : Byte) (h : Memory.wf m = true) : Memory.wf (mwrite m a v) = true := by
  simp only [Memory.wf, Bool.and_eq_true, List.all_eq_true, decide_eq_true_eq] at h ⊢
  unfold mwrite
  split_ifs with hv
  · exact ⟨rising_tdel m a h.1, fun c hc => h.2 c (List.mem_filter.mp hc).1⟩
  · refine ⟨rising_tput m a v h.1, fun c hc => ?_⟩
    rcases mem_tput m a v c hc with rfl | hc
    · exact hv
    · exact h.2 c hc

theorem wf_mwrites (bs : List Byte) (m : List Host.Cell) (a : Nat) (h : Memory.wf m = true) :
    Memory.wf (mwrites m a bs) = true := by
  induction bs generalizing m a with
  | nil => exact h
  | cons x xs ih => exact ih _ _ (wf_mwrite m a x h)

/-- In canonical form, memories that read alike are equal. -/
theorem tget_eq_of_wf (m : List Host.Cell) (c : Host.Cell) (h : rising m = true) (hc : c ∈ m) : mread m c.1 = c.2 := by
  induction m with
  | nil => simp at hc
  | cons e t ih =>
    obtain ⟨k, w⟩ := e
    have h' := (rising_cons _ _).mp h
    rcases List.mem_cons.mp hc with rfl | hc
    · simp [mread, tget]
    · have : k ≠ c.1 := by have := h'.1 c hc; simp only at this; omega
      simpa [mread, tget, this] using ih h'.2 hc

-- Little-endian bytes.

@[simp] theorem leBytes_length (n v : Nat) : (leBytes n v).length = n := by
  induction n generalizing v with
  | zero => rfl
  | succ n ih => simp [leBytes, ih]

/-- The bytes of a value give it back, modulo their number. -/
@[simp] theorem leVal_leBytes (n v : Nat) : leVal (leBytes n v) = v % 2 ^ (8 * n) := by
  induction n generalizing v with
  | zero => simp [leBytes, leVal, Nat.mod_one]
  | succ n ih =>
    simp only [leBytes, leVal, ih, BitVec.toNat_ofNat]
    have : 2 ^ (8 * (n + 1)) = 256 * 2 ^ (8 * n) := by rw [Nat.mul_add, Nat.pow_add]; norm_num [Nat.mul_comm]
    rw [this, Nat.mod_mul]

end Sys2Proof.Machine
end

