-- ==== Sys2Proof/Laws/State.lean ====
section
/-! SUPPORT. What each update of the state leaves alone and what it changes, field by field. -/

set_option linter.unusedSimpArgs false

namespace Sys2Proof.Machine

set_option Elab.async false

-- setCtx: changes `ctxs` alone.
@[simp] theorem State.setCtx_keel (s : State) (n : Nat) (c : Ctx) : (s.setCtx n c).keel = s.keel := rfl
@[simp] theorem State.setCtx_iss (s : State) (n : Nat) (c : Ctx) : (s.setCtx n c).iss = s.iss := rfl
@[simp] theorem State.setCtx_arg (s : State) (n : Nat) (c : Ctx) : (s.setCtx n c).arg = s.arg := rfl
@[simp] theorem State.setCtx_agenda (s : State) (n : Nat) (c : Ctx) : (s.setCtx n c).agenda = s.agenda := rfl
@[simp] theorem State.setCtx_choices (s : State) (n : Nat) (c : Ctx) : (s.setCtx n c).choices = s.choices := rfl
@[simp] theorem State.setCtx_lags (s : State) (n : Nat) (c : Ctx) : (s.setCtx n c).lags = s.lags := rfl
@[simp] theorem State.setCtx_outbox (s : State) (n : Nat) (c : Ctx) : (s.setCtx n c).outbox = s.outbox := rfl
@[simp] theorem State.setCtx_seq (s : State) (n : Nat) (c : Ctx) : (s.setCtx n c).seq = s.seq := rfl
@[simp] theorem State.setCtx_nparts (s : State) (n : Nat) (c : Ctx) : (s.setCtx n c).nparts = s.nparts := rfl
@[simp] theorem State.setCtx_qowner (s : State) (n : Nat) (c : Ctx) : (s.setCtx n c).qowner = s.qowner := rfl
@[simp] theorem State.setCtx_cells (s : State) (n : Nat) (c : Ctx) : (s.setCtx n c).cells = s.cells := rfl
@[simp] theorem State.setCtx_spad (s : State) (n : Nat) (c : Ctx) : (s.setCtx n c).spad = s.spad := rfl
@[simp] theorem State.setCtx_banks (s : State) (n : Nat) (c : Ctx) : (s.setCtx n c).banks = s.banks := rfl
@[simp] theorem State.setCtx_late (s : State) (n : Nat) (c : Ctx) : (s.setCtx n c).late = s.late := rfl
@[simp] theorem State.setCtx_lateB (s : State) (n : Nat) (c : Ctx) : (s.setCtx n c).lateB = s.lateB := rfl
@[simp] theorem State.setCtx_mem (s : State) (n : Nat) (c : Ctx) : (s.setCtx n c).mem = s.mem := rfl
@[simp] theorem State.setCtx_pt (s : State) (n : Nat) (c : Ctx) : (s.setCtx n c).pt = s.pt := rfl
@[simp] theorem State.setCtx_psnSpad (s : State) (n : Nat) (c : Ctx) : (s.setCtx n c).psnSpad = s.psnSpad := rfl
@[simp] theorem State.setCtx_psnBank (s : State) (n : Nat) (c : Ctx) : (s.setCtx n c).psnBank = s.psnBank := rfl
@[simp] theorem State.setCtx_psnMem (s : State) (n : Nat) (c : Ctx) : (s.setCtx n c).psnMem = s.psnMem := rfl
@[simp] theorem State.setCtx_psnGrid (s : State) (n : Nat) (c : Ctx) : (s.setCtx n c).psnGrid = s.psnGrid := rfl
@[simp] theorem State.setCtx_psnAcc (s : State) (n : Nat) (c : Ctx) : (s.setCtx n c).psnAcc = s.psnAcc := rfl
@[simp] theorem State.setCtx_vers (s : State) (n : Nat) (c : Ctx) : (s.setCtx n c).vers = s.vers := rfl
@[simp] theorem State.setCtx_atoms (s : State) (n : Nat) (c : Ctx) : (s.setCtx n c).atoms = s.atoms := rfl
@[simp] theorem State.setCtx_teams (s : State) (n : Nat) (c : Ctx) : (s.setCtx n c).teams = s.teams := rfl
@[simp] theorem State.setCtx_strs (s : State) (n : Nat) (c : Ctx) : (s.setCtx n c).strs = s.strs := rfl
@[simp] theorem State.setCtx_launches (s : State) (n : Nat) (c : Ctx) : (s.setCtx n c).launches = s.launches := rfl
@[simp] theorem State.setCtx_queues (s : State) (n : Nat) (c : Ctx) : (s.setCtx n c).queues = s.queues := rfl
@[simp] theorem State.setCtx_chans (s : State) (n : Nat) (c : Ctx) : (s.setCtx n c).chans = s.chans := rfl
@[simp] theorem State.setCtx_relays (s : State) (n : Nat) (c : Ctx) : (s.setCtx n c).relays = s.relays := rfl
@[simp] theorem State.setCtx_held (s : State) (n : Nat) (c : Ctx) : (s.setCtx n c).held = s.held := rfl
@[simp] theorem State.setCtx_windows (s : State) (n : Nat) (c : Ctx) : (s.setCtx n c).windows = s.windows := rfl
@[simp] theorem State.setCtx_ports (s : State) (n : Nat) (c : Ctx) : (s.setCtx n c).ports = s.ports := rfl
@[simp] theorem State.setCtx_parts (s : State) (n : Nat) (c : Ctx) : (s.setCtx n c).parts = s.parts := rfl
@[simp] theorem State.setCtx_lports (s : State) (n : Nat) (c : Ctx) : (s.setCtx n c).lports = s.lports := rfl
@[simp] theorem State.setCtx_changes (s : State) (n : Nat) (c : Ctx) : (s.setCtx n c).changes = s.changes := rfl
@[simp] theorem State.setCtx_skew (s : State) (n : Nat) (c : Ctx) : (s.setCtx n c).skew = s.skew := rfl
@[simp] theorem State.setCtx_cols (s : State) (n : Nat) (c : Ctx) : (s.setCtx n c).cols = s.cols := rfl
@[simp] theorem State.setCtx_dbgs (s : State) (n : Nat) (c : Ctx) : (s.setCtx n c).dbgs = s.dbgs := rfl
@[simp] theorem State.setCtx_slots (s : State) (n : Nat) (c : Ctx) : (s.setCtx n c).slots = s.slots := rfl
@[simp] theorem State.setCtx_holdlim (s : State) (n : Nat) (c : Ctx) : (s.setCtx n c).holdlim = s.holdlim := rfl
@[simp] theorem State.setCtx_fw (s : State) (n : Nat) (c : Ctx) : (s.setCtx n c).fw = s.fw := rfl

-- modCtx: changes `ctxs` alone.
@[simp] theorem State.modCtx_keel (s : State) (n : Nat) (f : Ctx → Ctx) : (s.modCtx n f).keel = s.keel := rfl
@[simp] theorem State.modCtx_iss (s : State) (n : Nat) (f : Ctx → Ctx) : (s.modCtx n f).iss = s.iss := rfl
@[simp] theorem State.modCtx_arg (s : State) (n : Nat) (f : Ctx → Ctx) : (s.modCtx n f).arg = s.arg := rfl
@[simp] theorem State.modCtx_agenda (s : State) (n : Nat) (f : Ctx → Ctx) : (s.modCtx n f).agenda = s.agenda := rfl
@[simp] theorem State.modCtx_choices (s : State) (n : Nat) (f : Ctx → Ctx) : (s.modCtx n f).choices = s.choices := rfl
@[simp] theorem State.modCtx_lags (s : State) (n : Nat) (f : Ctx → Ctx) : (s.modCtx n f).lags = s.lags := rfl
@[simp] theorem State.modCtx_outbox (s : State) (n : Nat) (f : Ctx → Ctx) : (s.modCtx n f).outbox = s.outbox := rfl
@[simp] theorem State.modCtx_seq (s : State) (n : Nat) (f : Ctx → Ctx) : (s.modCtx n f).seq = s.seq := rfl
@[simp] theorem State.modCtx_nparts (s : State) (n : Nat) (f : Ctx → Ctx) : (s.modCtx n f).nparts = s.nparts := rfl
@[simp] theorem State.modCtx_qowner (s : State) (n : Nat) (f : Ctx → Ctx) : (s.modCtx n f).qowner = s.qowner := rfl
@[simp] theorem State.modCtx_cells (s : State) (n : Nat) (f : Ctx → Ctx) : (s.modCtx n f).cells = s.cells := rfl
@[simp] theorem State.modCtx_spad (s : State) (n : Nat) (f : Ctx → Ctx) : (s.modCtx n f).spad = s.spad := rfl
@[simp] theorem State.modCtx_banks (s : State) (n : Nat) (f : Ctx → Ctx) : (s.modCtx n f).banks = s.banks := rfl
@[simp] theorem State.modCtx_late (s : State) (n : Nat) (f : Ctx → Ctx) : (s.modCtx n f).late = s.late := rfl
@[simp] theorem State.modCtx_lateB (s : State) (n : Nat) (f : Ctx → Ctx) : (s.modCtx n f).lateB = s.lateB := rfl
@[simp] theorem State.modCtx_mem (s : State) (n : Nat) (f : Ctx → Ctx) : (s.modCtx n f).mem = s.mem := rfl
@[simp] theorem State.modCtx_pt (s : State) (n : Nat) (f : Ctx → Ctx) : (s.modCtx n f).pt = s.pt := rfl
@[simp] theorem State.modCtx_psnSpad (s : State) (n : Nat) (f : Ctx → Ctx) : (s.modCtx n f).psnSpad = s.psnSpad := rfl
@[simp] theorem State.modCtx_psnBank (s : State) (n : Nat) (f : Ctx → Ctx) : (s.modCtx n f).psnBank = s.psnBank := rfl
@[simp] theorem State.modCtx_psnMem (s : State) (n : Nat) (f : Ctx → Ctx) : (s.modCtx n f).psnMem = s.psnMem := rfl
@[simp] theorem State.modCtx_psnGrid (s : State) (n : Nat) (f : Ctx → Ctx) : (s.modCtx n f).psnGrid = s.psnGrid := rfl
@[simp] theorem State.modCtx_psnAcc (s : State) (n : Nat) (f : Ctx → Ctx) : (s.modCtx n f).psnAcc = s.psnAcc := rfl
@[simp] theorem State.modCtx_vers (s : State) (n : Nat) (f : Ctx → Ctx) : (s.modCtx n f).vers = s.vers := rfl
@[simp] theorem State.modCtx_atoms (s : State) (n : Nat) (f : Ctx → Ctx) : (s.modCtx n f).atoms = s.atoms := rfl
@[simp] theorem State.modCtx_teams (s : State) (n : Nat) (f : Ctx → Ctx) : (s.modCtx n f).teams = s.teams := rfl
@[simp] theorem State.modCtx_strs (s : State) (n : Nat) (f : Ctx → Ctx) : (s.modCtx n f).strs = s.strs := rfl
@[simp] theorem State.modCtx_launches (s : State) (n : Nat) (f : Ctx → Ctx) : (s.modCtx n f).launches = s.launches := rfl
@[simp] theorem State.modCtx_queues (s : State) (n : Nat) (f : Ctx → Ctx) : (s.modCtx n f).queues = s.queues := rfl
@[simp] theorem State.modCtx_chans (s : State) (n : Nat) (f : Ctx → Ctx) : (s.modCtx n f).chans = s.chans := rfl
@[simp] theorem State.modCtx_relays (s : State) (n : Nat) (f : Ctx → Ctx) : (s.modCtx n f).relays = s.relays := rfl
@[simp] theorem State.modCtx_held (s : State) (n : Nat) (f : Ctx → Ctx) : (s.modCtx n f).held = s.held := rfl
@[simp] theorem State.modCtx_windows (s : State) (n : Nat) (f : Ctx → Ctx) : (s.modCtx n f).windows = s.windows := rfl
@[simp] theorem State.modCtx_ports (s : State) (n : Nat) (f : Ctx → Ctx) : (s.modCtx n f).ports = s.ports := rfl
@[simp] theorem State.modCtx_parts (s : State) (n : Nat) (f : Ctx → Ctx) : (s.modCtx n f).parts = s.parts := rfl
@[simp] theorem State.modCtx_lports (s : State) (n : Nat) (f : Ctx → Ctx) : (s.modCtx n f).lports = s.lports := rfl
@[simp] theorem State.modCtx_changes (s : State) (n : Nat) (f : Ctx → Ctx) : (s.modCtx n f).changes = s.changes := rfl
@[simp] theorem State.modCtx_skew (s : State) (n : Nat) (f : Ctx → Ctx) : (s.modCtx n f).skew = s.skew := rfl
@[simp] theorem State.modCtx_cols (s : State) (n : Nat) (f : Ctx → Ctx) : (s.modCtx n f).cols = s.cols := rfl
@[simp] theorem State.modCtx_dbgs (s : State) (n : Nat) (f : Ctx → Ctx) : (s.modCtx n f).dbgs = s.dbgs := rfl
@[simp] theorem State.modCtx_slots (s : State) (n : Nat) (f : Ctx → Ctx) : (s.modCtx n f).slots = s.slots := rfl
@[simp] theorem State.modCtx_holdlim (s : State) (n : Nat) (f : Ctx → Ctx) : (s.modCtx n f).holdlim = s.holdlim := rfl
@[simp] theorem State.modCtx_fw (s : State) (n : Nat) (f : Ctx → Ctx) : (s.modCtx n f).fw = s.fw := rfl

-- modMe: changes `ctxs` alone.
@[simp] theorem State.modMe_keel (s : State) (f : Ctx → Ctx) : (s.modMe f).keel = s.keel := rfl
@[simp] theorem State.modMe_iss (s : State) (f : Ctx → Ctx) : (s.modMe f).iss = s.iss := rfl
@[simp] theorem State.modMe_arg (s : State) (f : Ctx → Ctx) : (s.modMe f).arg = s.arg := rfl
@[simp] theorem State.modMe_agenda (s : State) (f : Ctx → Ctx) : (s.modMe f).agenda = s.agenda := rfl
@[simp] theorem State.modMe_choices (s : State) (f : Ctx → Ctx) : (s.modMe f).choices = s.choices := rfl
@[simp] theorem State.modMe_lags (s : State) (f : Ctx → Ctx) : (s.modMe f).lags = s.lags := rfl
@[simp] theorem State.modMe_outbox (s : State) (f : Ctx → Ctx) : (s.modMe f).outbox = s.outbox := rfl
@[simp] theorem State.modMe_seq (s : State) (f : Ctx → Ctx) : (s.modMe f).seq = s.seq := rfl
@[simp] theorem State.modMe_nparts (s : State) (f : Ctx → Ctx) : (s.modMe f).nparts = s.nparts := rfl
@[simp] theorem State.modMe_qowner (s : State) (f : Ctx → Ctx) : (s.modMe f).qowner = s.qowner := rfl
@[simp] theorem State.modMe_cells (s : State) (f : Ctx → Ctx) : (s.modMe f).cells = s.cells := rfl
@[simp] theorem State.modMe_spad (s : State) (f : Ctx → Ctx) : (s.modMe f).spad = s.spad := rfl
@[simp] theorem State.modMe_banks (s : State) (f : Ctx → Ctx) : (s.modMe f).banks = s.banks := rfl
@[simp] theorem State.modMe_late (s : State) (f : Ctx → Ctx) : (s.modMe f).late = s.late := rfl
@[simp] theorem State.modMe_lateB (s : State) (f : Ctx → Ctx) : (s.modMe f).lateB = s.lateB := rfl
@[simp] theorem State.modMe_mem (s : State) (f : Ctx → Ctx) : (s.modMe f).mem = s.mem := rfl
@[simp] theorem State.modMe_pt (s : State) (f : Ctx → Ctx) : (s.modMe f).pt = s.pt := rfl
@[simp] theorem State.modMe_psnSpad (s : State) (f : Ctx → Ctx) : (s.modMe f).psnSpad = s.psnSpad := rfl
@[simp] theorem State.modMe_psnBank (s : State) (f : Ctx → Ctx) : (s.modMe f).psnBank = s.psnBank := rfl
@[simp] theorem State.modMe_psnMem (s : State) (f : Ctx → Ctx) : (s.modMe f).psnMem = s.psnMem := rfl
@[simp] theorem State.modMe_psnGrid (s : State) (f : Ctx → Ctx) : (s.modMe f).psnGrid = s.psnGrid := rfl
@[simp] theorem State.modMe_psnAcc (s : State) (f : Ctx → Ctx) : (s.modMe f).psnAcc = s.psnAcc := rfl
@[simp] theorem State.modMe_vers (s : State) (f : Ctx → Ctx) : (s.modMe f).vers = s.vers := rfl
@[simp] theorem State.modMe_atoms (s : State) (f : Ctx → Ctx) : (s.modMe f).atoms = s.atoms := rfl
@[simp] theorem State.modMe_teams (s : State) (f : Ctx → Ctx) : (s.modMe f).teams = s.teams := rfl
@[simp] theorem State.modMe_strs (s : State) (f : Ctx → Ctx) : (s.modMe f).strs = s.strs := rfl
@[simp] theorem State.modMe_launches (s : State) (f : Ctx → Ctx) : (s.modMe f).launches = s.launches := rfl
@[simp] theorem State.modMe_queues (s : State) (f : Ctx → Ctx) : (s.modMe f).queues = s.queues := rfl
@[simp] theorem State.modMe_chans (s : State) (f : Ctx → Ctx) : (s.modMe f).chans = s.chans := rfl
@[simp] theorem State.modMe_relays (s : State) (f : Ctx → Ctx) : (s.modMe f).relays = s.relays := rfl
@[simp] theorem State.modMe_held (s : State) (f : Ctx → Ctx) : (s.modMe f).held = s.held := rfl
@[simp] theorem State.modMe_windows (s : State) (f : Ctx → Ctx) : (s.modMe f).windows = s.windows := rfl
@[simp] theorem State.modMe_ports (s : State) (f : Ctx → Ctx) : (s.modMe f).ports = s.ports := rfl
@[simp] theorem State.modMe_parts (s : State) (f : Ctx → Ctx) : (s.modMe f).parts = s.parts := rfl
@[simp] theorem State.modMe_lports (s : State) (f : Ctx → Ctx) : (s.modMe f).lports = s.lports := rfl
@[simp] theorem State.modMe_changes (s : State) (f : Ctx → Ctx) : (s.modMe f).changes = s.changes := rfl
@[simp] theorem State.modMe_skew (s : State) (f : Ctx → Ctx) : (s.modMe f).skew = s.skew := rfl
@[simp] theorem State.modMe_cols (s : State) (f : Ctx → Ctx) : (s.modMe f).cols = s.cols := rfl
@[simp] theorem State.modMe_dbgs (s : State) (f : Ctx → Ctx) : (s.modMe f).dbgs = s.dbgs := rfl
@[simp] theorem State.modMe_slots (s : State) (f : Ctx → Ctx) : (s.modMe f).slots = s.slots := rfl
@[simp] theorem State.modMe_holdlim (s : State) (f : Ctx → Ctx) : (s.modMe f).holdlim = s.holdlim := rfl
@[simp] theorem State.modMe_fw (s : State) (f : Ctx → Ctx) : (s.modMe f).fw = s.fw := rfl

-- modCell: changes `cells` alone.
@[simp] theorem State.modCell_keel (s : State) (n : Nat) (f : CellSt → CellSt) : (s.modCell n f).keel = s.keel := rfl
@[simp] theorem State.modCell_iss (s : State) (n : Nat) (f : CellSt → CellSt) : (s.modCell n f).iss = s.iss := rfl
@[simp] theorem State.modCell_arg (s : State) (n : Nat) (f : CellSt → CellSt) : (s.modCell n f).arg = s.arg := rfl
@[simp] theorem State.modCell_agenda (s : State) (n : Nat) (f : CellSt → CellSt) : (s.modCell n f).agenda = s.agenda := rfl
@[simp] theorem State.modCell_choices (s : State) (n : Nat) (f : CellSt → CellSt) : (s.modCell n f).choices = s.choices := rfl
@[simp] theorem State.modCell_lags (s : State) (n : Nat) (f : CellSt → CellSt) : (s.modCell n f).lags = s.lags := rfl
@[simp] theorem State.modCell_outbox (s : State) (n : Nat) (f : CellSt → CellSt) : (s.modCell n f).outbox = s.outbox := rfl
@[simp] theorem State.modCell_seq (s : State) (n : Nat) (f : CellSt → CellSt) : (s.modCell n f).seq = s.seq := rfl
@[simp] theorem State.modCell_nparts (s : State) (n : Nat) (f : CellSt → CellSt) : (s.modCell n f).nparts = s.nparts := rfl
@[simp] theorem State.modCell_qowner (s : State) (n : Nat) (f : CellSt → CellSt) : (s.modCell n f).qowner = s.qowner := rfl
@[simp] theorem State.modCell_ctxs (s : State) (n : Nat) (f : CellSt → CellSt) : (s.modCell n f).ctxs = s.ctxs := rfl
@[simp] theorem State.modCell_spad (s : State) (n : Nat) (f : CellSt → CellSt) : (s.modCell n f).spad = s.spad := rfl
@[simp] theorem State.modCell_banks (s : State) (n : Nat) (f : CellSt → CellSt) : (s.modCell n f).banks = s.banks := rfl
@[simp] theorem State.modCell_late (s : State) (n : Nat) (f : CellSt → CellSt) : (s.modCell n f).late = s.late := rfl
@[simp] theorem State.modCell_lateB (s : State) (n : Nat) (f : CellSt → CellSt) : (s.modCell n f).lateB = s.lateB := rfl
@[simp] theorem State.modCell_mem (s : State) (n : Nat) (f : CellSt → CellSt) : (s.modCell n f).mem = s.mem := rfl
@[simp] theorem State.modCell_pt (s : State) (n : Nat) (f : CellSt → CellSt) : (s.modCell n f).pt = s.pt := rfl
@[simp] theorem State.modCell_psnSpad (s : State) (n : Nat) (f : CellSt → CellSt) : (s.modCell n f).psnSpad = s.psnSpad := rfl
@[simp] theorem State.modCell_psnBank (s : State) (n : Nat) (f : CellSt → CellSt) : (s.modCell n f).psnBank = s.psnBank := rfl
@[simp] theorem State.modCell_psnMem (s : State) (n : Nat) (f : CellSt → CellSt) : (s.modCell n f).psnMem = s.psnMem := rfl
@[simp] theorem State.modCell_psnGrid (s : State) (n : Nat) (f : CellSt → CellSt) : (s.modCell n f).psnGrid = s.psnGrid := rfl
@[simp] theorem State.modCell_psnAcc (s : State) (n : Nat) (f : CellSt → CellSt) : (s.modCell n f).psnAcc = s.psnAcc := rfl
@[simp] theorem State.modCell_vers (s : State) (n : Nat) (f : CellSt → CellSt) : (s.modCell n f).vers = s.vers := rfl
@[simp] theorem State.modCell_atoms (s : State) (n : Nat) (f : CellSt → CellSt) : (s.modCell n f).atoms = s.atoms := rfl
@[simp] theorem State.modCell_teams (s : State) (n : Nat) (f : CellSt → CellSt) : (s.modCell n f).teams = s.teams := rfl
@[simp] theorem State.modCell_strs (s : State) (n : Nat) (f : CellSt → CellSt) : (s.modCell n f).strs = s.strs := rfl
@[simp] theorem State.modCell_launches (s : State) (n : Nat) (f : CellSt → CellSt) : (s.modCell n f).launches = s.launches := rfl
@[simp] theorem State.modCell_queues (s : State) (n : Nat) (f : CellSt → CellSt) : (s.modCell n f).queues = s.queues := rfl
@[simp] theorem State.modCell_chans (s : State) (n : Nat) (f : CellSt → CellSt) : (s.modCell n f).chans = s.chans := rfl
@[simp] theorem State.modCell_relays (s : State) (n : Nat) (f : CellSt → CellSt) : (s.modCell n f).relays = s.relays := rfl
@[simp] theorem State.modCell_held (s : State) (n : Nat) (f : CellSt → CellSt) : (s.modCell n f).held = s.held := rfl
@[simp] theorem State.modCell_windows (s : State) (n : Nat) (f : CellSt → CellSt) : (s.modCell n f).windows = s.windows := rfl
@[simp] theorem State.modCell_ports (s : State) (n : Nat) (f : CellSt → CellSt) : (s.modCell n f).ports = s.ports := rfl
@[simp] theorem State.modCell_parts (s : State) (n : Nat) (f : CellSt → CellSt) : (s.modCell n f).parts = s.parts := rfl
@[simp] theorem State.modCell_lports (s : State) (n : Nat) (f : CellSt → CellSt) : (s.modCell n f).lports = s.lports := rfl
@[simp] theorem State.modCell_changes (s : State) (n : Nat) (f : CellSt → CellSt) : (s.modCell n f).changes = s.changes := rfl
@[simp] theorem State.modCell_skew (s : State) (n : Nat) (f : CellSt → CellSt) : (s.modCell n f).skew = s.skew := rfl
@[simp] theorem State.modCell_cols (s : State) (n : Nat) (f : CellSt → CellSt) : (s.modCell n f).cols = s.cols := rfl
@[simp] theorem State.modCell_dbgs (s : State) (n : Nat) (f : CellSt → CellSt) : (s.modCell n f).dbgs = s.dbgs := rfl
@[simp] theorem State.modCell_slots (s : State) (n : Nat) (f : CellSt → CellSt) : (s.modCell n f).slots = s.slots := rfl
@[simp] theorem State.modCell_holdlim (s : State) (n : Nat) (f : CellSt → CellSt) : (s.modCell n f).holdlim = s.holdlim := rfl
@[simp] theorem State.modCell_fw (s : State) (n : Nat) (f : CellSt → CellSt) : (s.modCell n f).fw = s.fw := rfl

-- modChan: changes `chans` alone.
@[simp] theorem State.modChan_keel (s : State) (n : Nat) (f : Chan → Chan) : (s.modChan n f).keel = s.keel := rfl
@[simp] theorem State.modChan_iss (s : State) (n : Nat) (f : Chan → Chan) : (s.modChan n f).iss = s.iss := rfl
@[simp] theorem State.modChan_arg (s : State) (n : Nat) (f : Chan → Chan) : (s.modChan n f).arg = s.arg := rfl
@[simp] theorem State.modChan_agenda (s : State) (n : Nat) (f : Chan → Chan) : (s.modChan n f).agenda = s.agenda := rfl
@[simp] theorem State.modChan_choices (s : State) (n : Nat) (f : Chan → Chan) : (s.modChan n f).choices = s.choices := rfl
@[simp] theorem State.modChan_lags (s : State) (n : Nat) (f : Chan → Chan) : (s.modChan n f).lags = s.lags := rfl
@[simp] theorem State.modChan_outbox (s : State) (n : Nat) (f : Chan → Chan) : (s.modChan n f).outbox = s.outbox := rfl
@[simp] theorem State.modChan_seq (s : State) (n : Nat) (f : Chan → Chan) : (s.modChan n f).seq = s.seq := rfl
@[simp] theorem State.modChan_nparts (s : State) (n : Nat) (f : Chan → Chan) : (s.modChan n f).nparts = s.nparts := rfl
@[simp] theorem State.modChan_qowner (s : State) (n : Nat) (f : Chan → Chan) : (s.modChan n f).qowner = s.qowner := rfl
@[simp] theorem State.modChan_ctxs (s : State) (n : Nat) (f : Chan → Chan) : (s.modChan n f).ctxs = s.ctxs := rfl
@[simp] theorem State.modChan_cells (s : State) (n : Nat) (f : Chan → Chan) : (s.modChan n f).cells = s.cells := rfl
@[simp] theorem State.modChan_spad (s : State) (n : Nat) (f : Chan → Chan) : (s.modChan n f).spad = s.spad := rfl
@[simp] theorem State.modChan_banks (s : State) (n : Nat) (f : Chan → Chan) : (s.modChan n f).banks = s.banks := rfl
@[simp] theorem State.modChan_late (s : State) (n : Nat) (f : Chan → Chan) : (s.modChan n f).late = s.late := rfl
@[simp] theorem State.modChan_lateB (s : State) (n : Nat) (f : Chan → Chan) : (s.modChan n f).lateB = s.lateB := rfl
@[simp] theorem State.modChan_mem (s : State) (n : Nat) (f : Chan → Chan) : (s.modChan n f).mem = s.mem := rfl
@[simp] theorem State.modChan_pt (s : State) (n : Nat) (f : Chan → Chan) : (s.modChan n f).pt = s.pt := rfl
@[simp] theorem State.modChan_psnSpad (s : State) (n : Nat) (f : Chan → Chan) : (s.modChan n f).psnSpad = s.psnSpad := rfl
@[simp] theorem State.modChan_psnBank (s : State) (n : Nat) (f : Chan → Chan) : (s.modChan n f).psnBank = s.psnBank := rfl
@[simp] theorem State.modChan_psnMem (s : State) (n : Nat) (f : Chan → Chan) : (s.modChan n f).psnMem = s.psnMem := rfl
@[simp] theorem State.modChan_psnGrid (s : State) (n : Nat) (f : Chan → Chan) : (s.modChan n f).psnGrid = s.psnGrid := rfl
@[simp] theorem State.modChan_psnAcc (s : State) (n : Nat) (f : Chan → Chan) : (s.modChan n f).psnAcc = s.psnAcc := rfl
@[simp] theorem State.modChan_vers (s : State) (n : Nat) (f : Chan → Chan) : (s.modChan n f).vers = s.vers := rfl
@[simp] theorem State.modChan_atoms (s : State) (n : Nat) (f : Chan → Chan) : (s.modChan n f).atoms = s.atoms := rfl
@[simp] theorem State.modChan_teams (s : State) (n : Nat) (f : Chan → Chan) : (s.modChan n f).teams = s.teams := rfl
@[simp] theorem State.modChan_strs (s : State) (n : Nat) (f : Chan → Chan) : (s.modChan n f).strs = s.strs := rfl
@[simp] theorem State.modChan_launches (s : State) (n : Nat) (f : Chan → Chan) : (s.modChan n f).launches = s.launches := rfl
@[simp] theorem State.modChan_queues (s : State) (n : Nat) (f : Chan → Chan) : (s.modChan n f).queues = s.queues := rfl
@[simp] theorem State.modChan_relays (s : State) (n : Nat) (f : Chan → Chan) : (s.modChan n f).relays = s.relays := rfl
@[simp] theorem State.modChan_held (s : State) (n : Nat) (f : Chan → Chan) : (s.modChan n f).held = s.held := rfl
@[simp] theorem State.modChan_windows (s : State) (n : Nat) (f : Chan → Chan) : (s.modChan n f).windows = s.windows := rfl
@[simp] theorem State.modChan_ports (s : State) (n : Nat) (f : Chan → Chan) : (s.modChan n f).ports = s.ports := rfl
@[simp] theorem State.modChan_parts (s : State) (n : Nat) (f : Chan → Chan) : (s.modChan n f).parts = s.parts := rfl
@[simp] theorem State.modChan_lports (s : State) (n : Nat) (f : Chan → Chan) : (s.modChan n f).lports = s.lports := rfl
@[simp] theorem State.modChan_changes (s : State) (n : Nat) (f : Chan → Chan) : (s.modChan n f).changes = s.changes := rfl
@[simp] theorem State.modChan_skew (s : State) (n : Nat) (f : Chan → Chan) : (s.modChan n f).skew = s.skew := rfl
@[simp] theorem State.modChan_cols (s : State) (n : Nat) (f : Chan → Chan) : (s.modChan n f).cols = s.cols := rfl
@[simp] theorem State.modChan_dbgs (s : State) (n : Nat) (f : Chan → Chan) : (s.modChan n f).dbgs = s.dbgs := rfl
@[simp] theorem State.modChan_slots (s : State) (n : Nat) (f : Chan → Chan) : (s.modChan n f).slots = s.slots := rfl
@[simp] theorem State.modChan_holdlim (s : State) (n : Nat) (f : Chan → Chan) : (s.modChan n f).holdlim = s.holdlim := rfl
@[simp] theorem State.modChan_fw (s : State) (n : Nat) (f : Chan → Chan) : (s.modChan n f).fw = s.fw := rfl

-- modRelay: changes `relays` alone.
@[simp] theorem State.modRelay_keel (s : State) (n : Nat) (f : Relay → Relay) : (s.modRelay n f).keel = s.keel := rfl
@[simp] theorem State.modRelay_iss (s : State) (n : Nat) (f : Relay → Relay) : (s.modRelay n f).iss = s.iss := rfl
@[simp] theorem State.modRelay_arg (s : State) (n : Nat) (f : Relay → Relay) : (s.modRelay n f).arg = s.arg := rfl
@[simp] theorem State.modRelay_agenda (s : State) (n : Nat) (f : Relay → Relay) : (s.modRelay n f).agenda = s.agenda := rfl
@[simp] theorem State.modRelay_choices (s : State) (n : Nat) (f : Relay → Relay) : (s.modRelay n f).choices = s.choices := rfl
@[simp] theorem State.modRelay_lags (s : State) (n : Nat) (f : Relay → Relay) : (s.modRelay n f).lags = s.lags := rfl
@[simp] theorem State.modRelay_outbox (s : State) (n : Nat) (f : Relay → Relay) : (s.modRelay n f).outbox = s.outbox := rfl
@[simp] theorem State.modRelay_seq (s : State) (n : Nat) (f : Relay → Relay) : (s.modRelay n f).seq = s.seq := rfl
@[simp] theorem State.modRelay_nparts (s : State) (n : Nat) (f : Relay → Relay) : (s.modRelay n f).nparts = s.nparts := rfl
@[simp] theorem State.modRelay_qowner (s : State) (n : Nat) (f : Relay → Relay) : (s.modRelay n f).qowner = s.qowner := rfl
@[simp] theorem State.modRelay_ctxs (s : State) (n : Nat) (f : Relay → Relay) : (s.modRelay n f).ctxs = s.ctxs := rfl
@[simp] theorem State.modRelay_cells (s : State) (n : Nat) (f : Relay → Relay) : (s.modRelay n f).cells = s.cells := rfl
@[simp] theorem State.modRelay_spad (s : State) (n : Nat) (f : Relay → Relay) : (s.modRelay n f).spad = s.spad := rfl
@[simp] theorem State.modRelay_banks (s : State) (n : Nat) (f : Relay → Relay) : (s.modRelay n f).banks = s.banks := rfl
@[simp] theorem State.modRelay_late (s : State) (n : Nat) (f : Relay → Relay) : (s.modRelay n f).late = s.late := rfl
@[simp] theorem State.modRelay_lateB (s : State) (n : Nat) (f : Relay → Relay) : (s.modRelay n f).lateB = s.lateB := rfl
@[simp] theorem State.modRelay_mem (s : State) (n : Nat) (f : Relay → Relay) : (s.modRelay n f).mem = s.mem := rfl
@[simp] theorem State.modRelay_pt (s : State) (n : Nat) (f : Relay → Relay) : (s.modRelay n f).pt = s.pt := rfl
@[simp] theorem State.modRelay_psnSpad (s : State) (n : Nat) (f : Relay → Relay) : (s.modRelay n f).psnSpad = s.psnSpad := rfl
@[simp] theorem State.modRelay_psnBank (s : State) (n : Nat) (f : Relay → Relay) : (s.modRelay n f).psnBank = s.psnBank := rfl
@[simp] theorem State.modRelay_psnMem (s : State) (n : Nat) (f : Relay → Relay) : (s.modRelay n f).psnMem = s.psnMem := rfl
@[simp] theorem State.modRelay_psnGrid (s : State) (n : Nat) (f : Relay → Relay) : (s.modRelay n f).psnGrid = s.psnGrid := rfl
@[simp] theorem State.modRelay_psnAcc (s : State) (n : Nat) (f : Relay → Relay) : (s.modRelay n f).psnAcc = s.psnAcc := rfl
@[simp] theorem State.modRelay_vers (s : State) (n : Nat) (f : Relay → Relay) : (s.modRelay n f).vers = s.vers := rfl
@[simp] theorem State.modRelay_atoms (s : State) (n : Nat) (f : Relay → Relay) : (s.modRelay n f).atoms = s.atoms := rfl
@[simp] theorem State.modRelay_teams (s : State) (n : Nat) (f : Relay → Relay) : (s.modRelay n f).teams = s.teams := rfl
@[simp] theorem State.modRelay_strs (s : State) (n : Nat) (f : Relay → Relay) : (s.modRelay n f).strs = s.strs := rfl
@[simp] theorem State.modRelay_launches (s : State) (n : Nat) (f : Relay → Relay) : (s.modRelay n f).launches = s.launches := rfl
@[simp] theorem State.modRelay_queues (s : State) (n : Nat) (f : Relay → Relay) : (s.modRelay n f).queues = s.queues := rfl
@[simp] theorem State.modRelay_chans (s : State) (n : Nat) (f : Relay → Relay) : (s.modRelay n f).chans = s.chans := rfl
@[simp] theorem State.modRelay_held (s : State) (n : Nat) (f : Relay → Relay) : (s.modRelay n f).held = s.held := rfl
@[simp] theorem State.modRelay_windows (s : State) (n : Nat) (f : Relay → Relay) : (s.modRelay n f).windows = s.windows := rfl
@[simp] theorem State.modRelay_ports (s : State) (n : Nat) (f : Relay → Relay) : (s.modRelay n f).ports = s.ports := rfl
@[simp] theorem State.modRelay_parts (s : State) (n : Nat) (f : Relay → Relay) : (s.modRelay n f).parts = s.parts := rfl
@[simp] theorem State.modRelay_lports (s : State) (n : Nat) (f : Relay → Relay) : (s.modRelay n f).lports = s.lports := rfl
@[simp] theorem State.modRelay_changes (s : State) (n : Nat) (f : Relay → Relay) : (s.modRelay n f).changes = s.changes := rfl
@[simp] theorem State.modRelay_skew (s : State) (n : Nat) (f : Relay → Relay) : (s.modRelay n f).skew = s.skew := rfl
@[simp] theorem State.modRelay_cols (s : State) (n : Nat) (f : Relay → Relay) : (s.modRelay n f).cols = s.cols := rfl
@[simp] theorem State.modRelay_dbgs (s : State) (n : Nat) (f : Relay → Relay) : (s.modRelay n f).dbgs = s.dbgs := rfl
@[simp] theorem State.modRelay_slots (s : State) (n : Nat) (f : Relay → Relay) : (s.modRelay n f).slots = s.slots := rfl
@[simp] theorem State.modRelay_holdlim (s : State) (n : Nat) (f : Relay → Relay) : (s.modRelay n f).holdlim = s.holdlim := rfl
@[simp] theorem State.modRelay_fw (s : State) (n : Nat) (f : Relay → Relay) : (s.modRelay n f).fw = s.fw := rfl

-- modQueue: changes `queues` alone.
@[simp] theorem State.modQueue_keel (s : State) (n : Nat) (f : UQueue → UQueue) : (s.modQueue n f).keel = s.keel := rfl
@[simp] theorem State.modQueue_iss (s : State) (n : Nat) (f : UQueue → UQueue) : (s.modQueue n f).iss = s.iss := rfl
@[simp] theorem State.modQueue_arg (s : State) (n : Nat) (f : UQueue → UQueue) : (s.modQueue n f).arg = s.arg := rfl
@[simp] theorem State.modQueue_agenda (s : State) (n : Nat) (f : UQueue → UQueue) : (s.modQueue n f).agenda = s.agenda := rfl
@[simp] theorem State.modQueue_choices (s : State) (n : Nat) (f : UQueue → UQueue) : (s.modQueue n f).choices = s.choices := rfl
@[simp] theorem State.modQueue_lags (s : State) (n : Nat) (f : UQueue → UQueue) : (s.modQueue n f).lags = s.lags := rfl
@[simp] theorem State.modQueue_outbox (s : State) (n : Nat) (f : UQueue → UQueue) : (s.modQueue n f).outbox = s.outbox := rfl
@[simp] theorem State.modQueue_seq (s : State) (n : Nat) (f : UQueue → UQueue) : (s.modQueue n f).seq = s.seq := rfl
@[simp] theorem State.modQueue_nparts (s : State) (n : Nat) (f : UQueue → UQueue) : (s.modQueue n f).nparts = s.nparts := rfl
@[simp] theorem State.modQueue_qowner (s : State) (n : Nat) (f : UQueue → UQueue) : (s.modQueue n f).qowner = s.qowner := rfl
@[simp] theorem State.modQueue_ctxs (s : State) (n : Nat) (f : UQueue → UQueue) : (s.modQueue n f).ctxs = s.ctxs := rfl
@[simp] theorem State.modQueue_cells (s : State) (n : Nat) (f : UQueue → UQueue) : (s.modQueue n f).cells = s.cells := rfl
@[simp] theorem State.modQueue_spad (s : State) (n : Nat) (f : UQueue → UQueue) : (s.modQueue n f).spad = s.spad := rfl
@[simp] theorem State.modQueue_banks (s : State) (n : Nat) (f : UQueue → UQueue) : (s.modQueue n f).banks = s.banks := rfl
@[simp] theorem State.modQueue_late (s : State) (n : Nat) (f : UQueue → UQueue) : (s.modQueue n f).late = s.late := rfl
@[simp] theorem State.modQueue_lateB (s : State) (n : Nat) (f : UQueue → UQueue) : (s.modQueue n f).lateB = s.lateB := rfl
@[simp] theorem State.modQueue_mem (s : State) (n : Nat) (f : UQueue → UQueue) : (s.modQueue n f).mem = s.mem := rfl
@[simp] theorem State.modQueue_pt (s : State) (n : Nat) (f : UQueue → UQueue) : (s.modQueue n f).pt = s.pt := rfl
@[simp] theorem State.modQueue_psnSpad (s : State) (n : Nat) (f : UQueue → UQueue) : (s.modQueue n f).psnSpad = s.psnSpad := rfl
@[simp] theorem State.modQueue_psnBank (s : State) (n : Nat) (f : UQueue → UQueue) : (s.modQueue n f).psnBank = s.psnBank := rfl
@[simp] theorem State.modQueue_psnMem (s : State) (n : Nat) (f : UQueue → UQueue) : (s.modQueue n f).psnMem = s.psnMem := rfl
@[simp] theorem State.modQueue_psnGrid (s : State) (n : Nat) (f : UQueue → UQueue) : (s.modQueue n f).psnGrid = s.psnGrid := rfl
@[simp] theorem State.modQueue_psnAcc (s : State) (n : Nat) (f : UQueue → UQueue) : (s.modQueue n f).psnAcc = s.psnAcc := rfl
@[simp] theorem State.modQueue_vers (s : State) (n : Nat) (f : UQueue → UQueue) : (s.modQueue n f).vers = s.vers := rfl
@[simp] theorem State.modQueue_atoms (s : State) (n : Nat) (f : UQueue → UQueue) : (s.modQueue n f).atoms = s.atoms := rfl
@[simp] theorem State.modQueue_teams (s : State) (n : Nat) (f : UQueue → UQueue) : (s.modQueue n f).teams = s.teams := rfl
@[simp] theorem State.modQueue_strs (s : State) (n : Nat) (f : UQueue → UQueue) : (s.modQueue n f).strs = s.strs := rfl
@[simp] theorem State.modQueue_launches (s : State) (n : Nat) (f : UQueue → UQueue) : (s.modQueue n f).launches = s.launches := rfl
@[simp] theorem State.modQueue_chans (s : State) (n : Nat) (f : UQueue → UQueue) : (s.modQueue n f).chans = s.chans := rfl
@[simp] theorem State.modQueue_relays (s : State) (n : Nat) (f : UQueue → UQueue) : (s.modQueue n f).relays = s.relays := rfl
@[simp] theorem State.modQueue_held (s : State) (n : Nat) (f : UQueue → UQueue) : (s.modQueue n f).held = s.held := rfl
@[simp] theorem State.modQueue_windows (s : State) (n : Nat) (f : UQueue → UQueue) : (s.modQueue n f).windows = s.windows := rfl
@[simp] theorem State.modQueue_ports (s : State) (n : Nat) (f : UQueue → UQueue) : (s.modQueue n f).ports = s.ports := rfl
@[simp] theorem State.modQueue_parts (s : State) (n : Nat) (f : UQueue → UQueue) : (s.modQueue n f).parts = s.parts := rfl
@[simp] theorem State.modQueue_lports (s : State) (n : Nat) (f : UQueue → UQueue) : (s.modQueue n f).lports = s.lports := rfl
@[simp] theorem State.modQueue_changes (s : State) (n : Nat) (f : UQueue → UQueue) : (s.modQueue n f).changes = s.changes := rfl
@[simp] theorem State.modQueue_skew (s : State) (n : Nat) (f : UQueue → UQueue) : (s.modQueue n f).skew = s.skew := rfl
@[simp] theorem State.modQueue_cols (s : State) (n : Nat) (f : UQueue → UQueue) : (s.modQueue n f).cols = s.cols := rfl
@[simp] theorem State.modQueue_dbgs (s : State) (n : Nat) (f : UQueue → UQueue) : (s.modQueue n f).dbgs = s.dbgs := rfl
@[simp] theorem State.modQueue_slots (s : State) (n : Nat) (f : UQueue → UQueue) : (s.modQueue n f).slots = s.slots := rfl
@[simp] theorem State.modQueue_holdlim (s : State) (n : Nat) (f : UQueue → UQueue) : (s.modQueue n f).holdlim = s.holdlim := rfl
@[simp] theorem State.modQueue_fw (s : State) (n : Nat) (f : UQueue → UQueue) : (s.modQueue n f).fw = s.fw := rfl

-- modPort: changes `ports` alone.
@[simp] theorem State.modPort_keel (s : State) (n : Nat) (f : Port → Port) : (s.modPort n f).keel = s.keel := rfl
@[simp] theorem State.modPort_iss (s : State) (n : Nat) (f : Port → Port) : (s.modPort n f).iss = s.iss := rfl
@[simp] theorem State.modPort_arg (s : State) (n : Nat) (f : Port → Port) : (s.modPort n f).arg = s.arg := rfl
@[simp] theorem State.modPort_agenda (s : State) (n : Nat) (f : Port → Port) : (s.modPort n f).agenda = s.agenda := rfl
@[simp] theorem State.modPort_choices (s : State) (n : Nat) (f : Port → Port) : (s.modPort n f).choices = s.choices := rfl
@[simp] theorem State.modPort_lags (s : State) (n : Nat) (f : Port → Port) : (s.modPort n f).lags = s.lags := rfl
@[simp] theorem State.modPort_outbox (s : State) (n : Nat) (f : Port → Port) : (s.modPort n f).outbox = s.outbox := rfl
@[simp] theorem State.modPort_seq (s : State) (n : Nat) (f : Port → Port) : (s.modPort n f).seq = s.seq := rfl
@[simp] theorem State.modPort_nparts (s : State) (n : Nat) (f : Port → Port) : (s.modPort n f).nparts = s.nparts := rfl
@[simp] theorem State.modPort_qowner (s : State) (n : Nat) (f : Port → Port) : (s.modPort n f).qowner = s.qowner := rfl
@[simp] theorem State.modPort_ctxs (s : State) (n : Nat) (f : Port → Port) : (s.modPort n f).ctxs = s.ctxs := rfl
@[simp] theorem State.modPort_cells (s : State) (n : Nat) (f : Port → Port) : (s.modPort n f).cells = s.cells := rfl
@[simp] theorem State.modPort_spad (s : State) (n : Nat) (f : Port → Port) : (s.modPort n f).spad = s.spad := rfl
@[simp] theorem State.modPort_banks (s : State) (n : Nat) (f : Port → Port) : (s.modPort n f).banks = s.banks := rfl
@[simp] theorem State.modPort_late (s : State) (n : Nat) (f : Port → Port) : (s.modPort n f).late = s.late := rfl
@[simp] theorem State.modPort_lateB (s : State) (n : Nat) (f : Port → Port) : (s.modPort n f).lateB = s.lateB := rfl
@[simp] theorem State.modPort_mem (s : State) (n : Nat) (f : Port → Port) : (s.modPort n f).mem = s.mem := rfl
@[simp] theorem State.modPort_pt (s : State) (n : Nat) (f : Port → Port) : (s.modPort n f).pt = s.pt := rfl
@[simp] theorem State.modPort_psnSpad (s : State) (n : Nat) (f : Port → Port) : (s.modPort n f).psnSpad = s.psnSpad := rfl
@[simp] theorem State.modPort_psnBank (s : State) (n : Nat) (f : Port → Port) : (s.modPort n f).psnBank = s.psnBank := rfl
@[simp] theorem State.modPort_psnMem (s : State) (n : Nat) (f : Port → Port) : (s.modPort n f).psnMem = s.psnMem := rfl
@[simp] theorem State.modPort_psnGrid (s : State) (n : Nat) (f : Port → Port) : (s.modPort n f).psnGrid = s.psnGrid := rfl
@[simp] theorem State.modPort_psnAcc (s : State) (n : Nat) (f : Port → Port) : (s.modPort n f).psnAcc = s.psnAcc := rfl
@[simp] theorem State.modPort_vers (s : State) (n : Nat) (f : Port → Port) : (s.modPort n f).vers = s.vers := rfl
@[simp] theorem State.modPort_atoms (s : State) (n : Nat) (f : Port → Port) : (s.modPort n f).atoms = s.atoms := rfl
@[simp] theorem State.modPort_teams (s : State) (n : Nat) (f : Port → Port) : (s.modPort n f).teams = s.teams := rfl
@[simp] theorem State.modPort_strs (s : State) (n : Nat) (f : Port → Port) : (s.modPort n f).strs = s.strs := rfl
@[simp] theorem State.modPort_launches (s : State) (n : Nat) (f : Port → Port) : (s.modPort n f).launches = s.launches := rfl
@[simp] theorem State.modPort_queues (s : State) (n : Nat) (f : Port → Port) : (s.modPort n f).queues = s.queues := rfl
@[simp] theorem State.modPort_chans (s : State) (n : Nat) (f : Port → Port) : (s.modPort n f).chans = s.chans := rfl
@[simp] theorem State.modPort_relays (s : State) (n : Nat) (f : Port → Port) : (s.modPort n f).relays = s.relays := rfl
@[simp] theorem State.modPort_held (s : State) (n : Nat) (f : Port → Port) : (s.modPort n f).held = s.held := rfl
@[simp] theorem State.modPort_windows (s : State) (n : Nat) (f : Port → Port) : (s.modPort n f).windows = s.windows := rfl
@[simp] theorem State.modPort_parts (s : State) (n : Nat) (f : Port → Port) : (s.modPort n f).parts = s.parts := rfl
@[simp] theorem State.modPort_lports (s : State) (n : Nat) (f : Port → Port) : (s.modPort n f).lports = s.lports := rfl
@[simp] theorem State.modPort_changes (s : State) (n : Nat) (f : Port → Port) : (s.modPort n f).changes = s.changes := rfl
@[simp] theorem State.modPort_skew (s : State) (n : Nat) (f : Port → Port) : (s.modPort n f).skew = s.skew := rfl
@[simp] theorem State.modPort_cols (s : State) (n : Nat) (f : Port → Port) : (s.modPort n f).cols = s.cols := rfl
@[simp] theorem State.modPort_dbgs (s : State) (n : Nat) (f : Port → Port) : (s.modPort n f).dbgs = s.dbgs := rfl
@[simp] theorem State.modPort_slots (s : State) (n : Nat) (f : Port → Port) : (s.modPort n f).slots = s.slots := rfl
@[simp] theorem State.modPort_holdlim (s : State) (n : Nat) (f : Port → Port) : (s.modPort n f).holdlim = s.holdlim := rfl
@[simp] theorem State.modPort_fw (s : State) (n : Nat) (f : Port → Port) : (s.modPort n f).fw = s.fw := rfl

-- modPart: changes `parts` alone.
@[simp] theorem State.modPart_keel (s : State) (n : Nat) (f : Part → Part) : (s.modPart n f).keel = s.keel := rfl
@[simp] theorem State.modPart_iss (s : State) (n : Nat) (f : Part → Part) : (s.modPart n f).iss = s.iss := rfl
@[simp] theorem State.modPart_arg (s : State) (n : Nat) (f : Part → Part) : (s.modPart n f).arg = s.arg := rfl
@[simp] theorem State.modPart_agenda (s : State) (n : Nat) (f : Part → Part) : (s.modPart n f).agenda = s.agenda := rfl
@[simp] theorem State.modPart_choices (s : State) (n : Nat) (f : Part → Part) : (s.modPart n f).choices = s.choices := rfl
@[simp] theorem State.modPart_lags (s : State) (n : Nat) (f : Part → Part) : (s.modPart n f).lags = s.lags := rfl
@[simp] theorem State.modPart_outbox (s : State) (n : Nat) (f : Part → Part) : (s.modPart n f).outbox = s.outbox := rfl
@[simp] theorem State.modPart_seq (s : State) (n : Nat) (f : Part → Part) : (s.modPart n f).seq = s.seq := rfl
@[simp] theorem State.modPart_nparts (s : State) (n : Nat) (f : Part → Part) : (s.modPart n f).nparts = s.nparts := rfl
@[simp] theorem State.modPart_qowner (s : State) (n : Nat) (f : Part → Part) : (s.modPart n f).qowner = s.qowner := rfl
@[simp] theorem State.modPart_ctxs (s : State) (n : Nat) (f : Part → Part) : (s.modPart n f).ctxs = s.ctxs := rfl
@[simp] theorem State.modPart_cells (s : State) (n : Nat) (f : Part → Part) : (s.modPart n f).cells = s.cells := rfl
@[simp] theorem State.modPart_spad (s : State) (n : Nat) (f : Part → Part) : (s.modPart n f).spad = s.spad := rfl
@[simp] theorem State.modPart_banks (s : State) (n : Nat) (f : Part → Part) : (s.modPart n f).banks = s.banks := rfl
@[simp] theorem State.modPart_late (s : State) (n : Nat) (f : Part → Part) : (s.modPart n f).late = s.late := rfl
@[simp] theorem State.modPart_lateB (s : State) (n : Nat) (f : Part → Part) : (s.modPart n f).lateB = s.lateB := rfl
@[simp] theorem State.modPart_mem (s : State) (n : Nat) (f : Part → Part) : (s.modPart n f).mem = s.mem := rfl
@[simp] theorem State.modPart_pt (s : State) (n : Nat) (f : Part → Part) : (s.modPart n f).pt = s.pt := rfl
@[simp] theorem State.modPart_psnSpad (s : State) (n : Nat) (f : Part → Part) : (s.modPart n f).psnSpad = s.psnSpad := rfl
@[simp] theorem State.modPart_psnBank (s : State) (n : Nat) (f : Part → Part) : (s.modPart n f).psnBank = s.psnBank := rfl
@[simp] theorem State.modPart_psnMem (s : State) (n : Nat) (f : Part → Part) : (s.modPart n f).psnMem = s.psnMem := rfl
@[simp] theorem State.modPart_psnGrid (s : State) (n : Nat) (f : Part → Part) : (s.modPart n f).psnGrid = s.psnGrid := rfl
@[simp] theorem State.modPart_psnAcc (s : State) (n : Nat) (f : Part → Part) : (s.modPart n f).psnAcc = s.psnAcc := rfl
@[simp] theorem State.modPart_vers (s : State) (n : Nat) (f : Part → Part) : (s.modPart n f).vers = s.vers := rfl
@[simp] theorem State.modPart_atoms (s : State) (n : Nat) (f : Part → Part) : (s.modPart n f).atoms = s.atoms := rfl
@[simp] theorem State.modPart_teams (s : State) (n : Nat) (f : Part → Part) : (s.modPart n f).teams = s.teams := rfl
@[simp] theorem State.modPart_strs (s : State) (n : Nat) (f : Part → Part) : (s.modPart n f).strs = s.strs := rfl
@[simp] theorem State.modPart_launches (s : State) (n : Nat) (f : Part → Part) : (s.modPart n f).launches = s.launches := rfl
@[simp] theorem State.modPart_queues (s : State) (n : Nat) (f : Part → Part) : (s.modPart n f).queues = s.queues := rfl
@[simp] theorem State.modPart_chans (s : State) (n : Nat) (f : Part → Part) : (s.modPart n f).chans = s.chans := rfl
@[simp] theorem State.modPart_relays (s : State) (n : Nat) (f : Part → Part) : (s.modPart n f).relays = s.relays := rfl
@[simp] theorem State.modPart_held (s : State) (n : Nat) (f : Part → Part) : (s.modPart n f).held = s.held := rfl
@[simp] theorem State.modPart_windows (s : State) (n : Nat) (f : Part → Part) : (s.modPart n f).windows = s.windows := rfl
@[simp] theorem State.modPart_ports (s : State) (n : Nat) (f : Part → Part) : (s.modPart n f).ports = s.ports := rfl
@[simp] theorem State.modPart_lports (s : State) (n : Nat) (f : Part → Part) : (s.modPart n f).lports = s.lports := rfl
@[simp] theorem State.modPart_changes (s : State) (n : Nat) (f : Part → Part) : (s.modPart n f).changes = s.changes := rfl
@[simp] theorem State.modPart_skew (s : State) (n : Nat) (f : Part → Part) : (s.modPart n f).skew = s.skew := rfl
@[simp] theorem State.modPart_cols (s : State) (n : Nat) (f : Part → Part) : (s.modPart n f).cols = s.cols := rfl
@[simp] theorem State.modPart_dbgs (s : State) (n : Nat) (f : Part → Part) : (s.modPart n f).dbgs = s.dbgs := rfl
@[simp] theorem State.modPart_slots (s : State) (n : Nat) (f : Part → Part) : (s.modPart n f).slots = s.slots := rfl
@[simp] theorem State.modPart_holdlim (s : State) (n : Nat) (f : Part → Part) : (s.modPart n f).holdlim = s.holdlim := rfl
@[simp] theorem State.modPart_fw (s : State) (n : Nat) (f : Part → Part) : (s.modPart n f).fw = s.fw := rfl

-- modDbg: changes `dbgs` alone.
@[simp] theorem State.modDbg_keel (s : State) (n : Nat) (f : Dbg → Dbg) : (s.modDbg n f).keel = s.keel := rfl
@[simp] theorem State.modDbg_iss (s : State) (n : Nat) (f : Dbg → Dbg) : (s.modDbg n f).iss = s.iss := rfl
@[simp] theorem State.modDbg_arg (s : State) (n : Nat) (f : Dbg → Dbg) : (s.modDbg n f).arg = s.arg := rfl
@[simp] theorem State.modDbg_agenda (s : State) (n : Nat) (f : Dbg → Dbg) : (s.modDbg n f).agenda = s.agenda := rfl
@[simp] theorem State.modDbg_choices (s : State) (n : Nat) (f : Dbg → Dbg) : (s.modDbg n f).choices = s.choices := rfl
@[simp] theorem State.modDbg_lags (s : State) (n : Nat) (f : Dbg → Dbg) : (s.modDbg n f).lags = s.lags := rfl
@[simp] theorem State.modDbg_outbox (s : State) (n : Nat) (f : Dbg → Dbg) : (s.modDbg n f).outbox = s.outbox := rfl
@[simp] theorem State.modDbg_seq (s : State) (n : Nat) (f : Dbg → Dbg) : (s.modDbg n f).seq = s.seq := rfl
@[simp] theorem State.modDbg_nparts (s : State) (n : Nat) (f : Dbg → Dbg) : (s.modDbg n f).nparts = s.nparts := rfl
@[simp] theorem State.modDbg_qowner (s : State) (n : Nat) (f : Dbg → Dbg) : (s.modDbg n f).qowner = s.qowner := rfl
@[simp] theorem State.modDbg_ctxs (s : State) (n : Nat) (f : Dbg → Dbg) : (s.modDbg n f).ctxs = s.ctxs := rfl
@[simp] theorem State.modDbg_cells (s : State) (n : Nat) (f : Dbg → Dbg) : (s.modDbg n f).cells = s.cells := rfl
@[simp] theorem State.modDbg_spad (s : State) (n : Nat) (f : Dbg → Dbg) : (s.modDbg n f).spad = s.spad := rfl
@[simp] theorem State.modDbg_banks (s : State) (n : Nat) (f : Dbg → Dbg) : (s.modDbg n f).banks = s.banks := rfl
@[simp] theorem State.modDbg_late (s : State) (n : Nat) (f : Dbg → Dbg) : (s.modDbg n f).late = s.late := rfl
@[simp] theorem State.modDbg_lateB (s : State) (n : Nat) (f : Dbg → Dbg) : (s.modDbg n f).lateB = s.lateB := rfl
@[simp] theorem State.modDbg_mem (s : State) (n : Nat) (f : Dbg → Dbg) : (s.modDbg n f).mem = s.mem := rfl
@[simp] theorem State.modDbg_pt (s : State) (n : Nat) (f : Dbg → Dbg) : (s.modDbg n f).pt = s.pt := rfl
@[simp] theorem State.modDbg_psnSpad (s : State) (n : Nat) (f : Dbg → Dbg) : (s.modDbg n f).psnSpad = s.psnSpad := rfl
@[simp] theorem State.modDbg_psnBank (s : State) (n : Nat) (f : Dbg → Dbg) : (s.modDbg n f).psnBank = s.psnBank := rfl
@[simp] theorem State.modDbg_psnMem (s : State) (n : Nat) (f : Dbg → Dbg) : (s.modDbg n f).psnMem = s.psnMem := rfl
@[simp] theorem State.modDbg_psnGrid (s : State) (n : Nat) (f : Dbg → Dbg) : (s.modDbg n f).psnGrid = s.psnGrid := rfl
@[simp] theorem State.modDbg_psnAcc (s : State) (n : Nat) (f : Dbg → Dbg) : (s.modDbg n f).psnAcc = s.psnAcc := rfl
@[simp] theorem State.modDbg_vers (s : State) (n : Nat) (f : Dbg → Dbg) : (s.modDbg n f).vers = s.vers := rfl
@[simp] theorem State.modDbg_atoms (s : State) (n : Nat) (f : Dbg → Dbg) : (s.modDbg n f).atoms = s.atoms := rfl
@[simp] theorem State.modDbg_teams (s : State) (n : Nat) (f : Dbg → Dbg) : (s.modDbg n f).teams = s.teams := rfl
@[simp] theorem State.modDbg_strs (s : State) (n : Nat) (f : Dbg → Dbg) : (s.modDbg n f).strs = s.strs := rfl
@[simp] theorem State.modDbg_launches (s : State) (n : Nat) (f : Dbg → Dbg) : (s.modDbg n f).launches = s.launches := rfl
@[simp] theorem State.modDbg_queues (s : State) (n : Nat) (f : Dbg → Dbg) : (s.modDbg n f).queues = s.queues := rfl
@[simp] theorem State.modDbg_chans (s : State) (n : Nat) (f : Dbg → Dbg) : (s.modDbg n f).chans = s.chans := rfl
@[simp] theorem State.modDbg_relays (s : State) (n : Nat) (f : Dbg → Dbg) : (s.modDbg n f).relays = s.relays := rfl
@[simp] theorem State.modDbg_held (s : State) (n : Nat) (f : Dbg → Dbg) : (s.modDbg n f).held = s.held := rfl
@[simp] theorem State.modDbg_windows (s : State) (n : Nat) (f : Dbg → Dbg) : (s.modDbg n f).windows = s.windows := rfl
@[simp] theorem State.modDbg_ports (s : State) (n : Nat) (f : Dbg → Dbg) : (s.modDbg n f).ports = s.ports := rfl
@[simp] theorem State.modDbg_parts (s : State) (n : Nat) (f : Dbg → Dbg) : (s.modDbg n f).parts = s.parts := rfl
@[simp] theorem State.modDbg_lports (s : State) (n : Nat) (f : Dbg → Dbg) : (s.modDbg n f).lports = s.lports := rfl
@[simp] theorem State.modDbg_changes (s : State) (n : Nat) (f : Dbg → Dbg) : (s.modDbg n f).changes = s.changes := rfl
@[simp] theorem State.modDbg_skew (s : State) (n : Nat) (f : Dbg → Dbg) : (s.modDbg n f).skew = s.skew := rfl
@[simp] theorem State.modDbg_cols (s : State) (n : Nat) (f : Dbg → Dbg) : (s.modDbg n f).cols = s.cols := rfl
@[simp] theorem State.modDbg_slots (s : State) (n : Nat) (f : Dbg → Dbg) : (s.modDbg n f).slots = s.slots := rfl
@[simp] theorem State.modDbg_holdlim (s : State) (n : Nat) (f : Dbg → Dbg) : (s.modDbg n f).holdlim = s.holdlim := rfl
@[simp] theorem State.modDbg_fw (s : State) (n : Nat) (f : Dbg → Dbg) : (s.modDbg n f).fw = s.fw := rfl

-- modLport: changes `lports` alone.
@[simp] theorem State.modLport_keel (s : State) (n : Nat) (f : LeafPort → LeafPort) : (s.modLport n f).keel = s.keel := rfl
@[simp] theorem State.modLport_iss (s : State) (n : Nat) (f : LeafPort → LeafPort) : (s.modLport n f).iss = s.iss := rfl
@[simp] theorem State.modLport_arg (s : State) (n : Nat) (f : LeafPort → LeafPort) : (s.modLport n f).arg = s.arg := rfl
@[simp] theorem State.modLport_agenda (s : State) (n : Nat) (f : LeafPort → LeafPort) : (s.modLport n f).agenda = s.agenda := rfl
@[simp] theorem State.modLport_choices (s : State) (n : Nat) (f : LeafPort → LeafPort) : (s.modLport n f).choices = s.choices := rfl
@[simp] theorem State.modLport_lags (s : State) (n : Nat) (f : LeafPort → LeafPort) : (s.modLport n f).lags = s.lags := rfl
@[simp] theorem State.modLport_outbox (s : State) (n : Nat) (f : LeafPort → LeafPort) : (s.modLport n f).outbox = s.outbox := rfl
@[simp] theorem State.modLport_seq (s : State) (n : Nat) (f : LeafPort → LeafPort) : (s.modLport n f).seq = s.seq := rfl
@[simp] theorem State.modLport_nparts (s : State) (n : Nat) (f : LeafPort → LeafPort) : (s.modLport n f).nparts = s.nparts := rfl
@[simp] theorem State.modLport_qowner (s : State) (n : Nat) (f : LeafPort → LeafPort) : (s.modLport n f).qowner = s.qowner := rfl
@[simp] theorem State.modLport_ctxs (s : State) (n : Nat) (f : LeafPort → LeafPort) : (s.modLport n f).ctxs = s.ctxs := rfl
@[simp] theorem State.modLport_cells (s : State) (n : Nat) (f : LeafPort → LeafPort) : (s.modLport n f).cells = s.cells := rfl
@[simp] theorem State.modLport_spad (s : State) (n : Nat) (f : LeafPort → LeafPort) : (s.modLport n f).spad = s.spad := rfl
@[simp] theorem State.modLport_banks (s : State) (n : Nat) (f : LeafPort → LeafPort) : (s.modLport n f).banks = s.banks := rfl
@[simp] theorem State.modLport_late (s : State) (n : Nat) (f : LeafPort → LeafPort) : (s.modLport n f).late = s.late := rfl
@[simp] theorem State.modLport_lateB (s : State) (n : Nat) (f : LeafPort → LeafPort) : (s.modLport n f).lateB = s.lateB := rfl
@[simp] theorem State.modLport_mem (s : State) (n : Nat) (f : LeafPort → LeafPort) : (s.modLport n f).mem = s.mem := rfl
@[simp] theorem State.modLport_pt (s : State) (n : Nat) (f : LeafPort → LeafPort) : (s.modLport n f).pt = s.pt := rfl
@[simp] theorem State.modLport_psnSpad (s : State) (n : Nat) (f : LeafPort → LeafPort) : (s.modLport n f).psnSpad = s.psnSpad := rfl
@[simp] theorem State.modLport_psnBank (s : State) (n : Nat) (f : LeafPort → LeafPort) : (s.modLport n f).psnBank = s.psnBank := rfl
@[simp] theorem State.modLport_psnMem (s : State) (n : Nat) (f : LeafPort → LeafPort) : (s.modLport n f).psnMem = s.psnMem := rfl
@[simp] theorem State.modLport_psnGrid (s : State) (n : Nat) (f : LeafPort → LeafPort) : (s.modLport n f).psnGrid = s.psnGrid := rfl
@[simp] theorem State.modLport_psnAcc (s : State) (n : Nat) (f : LeafPort → LeafPort) : (s.modLport n f).psnAcc = s.psnAcc := rfl
@[simp] theorem State.modLport_vers (s : State) (n : Nat) (f : LeafPort → LeafPort) : (s.modLport n f).vers = s.vers := rfl
@[simp] theorem State.modLport_atoms (s : State) (n : Nat) (f : LeafPort → LeafPort) : (s.modLport n f).atoms = s.atoms := rfl
@[simp] theorem State.modLport_teams (s : State) (n : Nat) (f : LeafPort → LeafPort) : (s.modLport n f).teams = s.teams := rfl
@[simp] theorem State.modLport_strs (s : State) (n : Nat) (f : LeafPort → LeafPort) : (s.modLport n f).strs = s.strs := rfl
@[simp] theorem State.modLport_launches (s : State) (n : Nat) (f : LeafPort → LeafPort) : (s.modLport n f).launches = s.launches := rfl
@[simp] theorem State.modLport_queues (s : State) (n : Nat) (f : LeafPort → LeafPort) : (s.modLport n f).queues = s.queues := rfl
@[simp] theorem State.modLport_chans (s : State) (n : Nat) (f : LeafPort → LeafPort) : (s.modLport n f).chans = s.chans := rfl
@[simp] theorem State.modLport_relays (s : State) (n : Nat) (f : LeafPort → LeafPort) : (s.modLport n f).relays = s.relays := rfl
@[simp] theorem State.modLport_held (s : State) (n : Nat) (f : LeafPort → LeafPort) : (s.modLport n f).held = s.held := rfl
@[simp] theorem State.modLport_windows (s : State) (n : Nat) (f : LeafPort → LeafPort) : (s.modLport n f).windows = s.windows := rfl
@[simp] theorem State.modLport_ports (s : State) (n : Nat) (f : LeafPort → LeafPort) : (s.modLport n f).ports = s.ports := rfl
@[simp] theorem State.modLport_parts (s : State) (n : Nat) (f : LeafPort → LeafPort) : (s.modLport n f).parts = s.parts := rfl
@[simp] theorem State.modLport_changes (s : State) (n : Nat) (f : LeafPort → LeafPort) : (s.modLport n f).changes = s.changes := rfl
@[simp] theorem State.modLport_skew (s : State) (n : Nat) (f : LeafPort → LeafPort) : (s.modLport n f).skew = s.skew := rfl
@[simp] theorem State.modLport_cols (s : State) (n : Nat) (f : LeafPort → LeafPort) : (s.modLport n f).cols = s.cols := rfl
@[simp] theorem State.modLport_dbgs (s : State) (n : Nat) (f : LeafPort → LeafPort) : (s.modLport n f).dbgs = s.dbgs := rfl
@[simp] theorem State.modLport_slots (s : State) (n : Nat) (f : LeafPort → LeafPort) : (s.modLport n f).slots = s.slots := rfl
@[simp] theorem State.modLport_holdlim (s : State) (n : Nat) (f : LeafPort → LeafPort) : (s.modLport n f).holdlim = s.holdlim := rfl
@[simp] theorem State.modLport_fw (s : State) (n : Nat) (f : LeafPort → LeafPort) : (s.modLport n f).fw = s.fw := rfl

-- modCol: changes `cols` alone.
@[simp] theorem State.modCol_keel (s : State) (n : Nat) (f : Column → Column) : (s.modCol n f).keel = s.keel := rfl
@[simp] theorem State.modCol_iss (s : State) (n : Nat) (f : Column → Column) : (s.modCol n f).iss = s.iss := rfl
@[simp] theorem State.modCol_arg (s : State) (n : Nat) (f : Column → Column) : (s.modCol n f).arg = s.arg := rfl
@[simp] theorem State.modCol_agenda (s : State) (n : Nat) (f : Column → Column) : (s.modCol n f).agenda = s.agenda := rfl
@[simp] theorem State.modCol_choices (s : State) (n : Nat) (f : Column → Column) : (s.modCol n f).choices = s.choices := rfl
@[simp] theorem State.modCol_lags (s : State) (n : Nat) (f : Column → Column) : (s.modCol n f).lags = s.lags := rfl
@[simp] theorem State.modCol_outbox (s : State) (n : Nat) (f : Column → Column) : (s.modCol n f).outbox = s.outbox := rfl
@[simp] theorem State.modCol_seq (s : State) (n : Nat) (f : Column → Column) : (s.modCol n f).seq = s.seq := rfl
@[simp] theorem State.modCol_nparts (s : State) (n : Nat) (f : Column → Column) : (s.modCol n f).nparts = s.nparts := rfl
@[simp] theorem State.modCol_qowner (s : State) (n : Nat) (f : Column → Column) : (s.modCol n f).qowner = s.qowner := rfl
@[simp] theorem State.modCol_ctxs (s : State) (n : Nat) (f : Column → Column) : (s.modCol n f).ctxs = s.ctxs := rfl
@[simp] theorem State.modCol_cells (s : State) (n : Nat) (f : Column → Column) : (s.modCol n f).cells = s.cells := rfl
@[simp] theorem State.modCol_spad (s : State) (n : Nat) (f : Column → Column) : (s.modCol n f).spad = s.spad := rfl
@[simp] theorem State.modCol_banks (s : State) (n : Nat) (f : Column → Column) : (s.modCol n f).banks = s.banks := rfl
@[simp] theorem State.modCol_late (s : State) (n : Nat) (f : Column → Column) : (s.modCol n f).late = s.late := rfl
@[simp] theorem State.modCol_lateB (s : State) (n : Nat) (f : Column → Column) : (s.modCol n f).lateB = s.lateB := rfl
@[simp] theorem State.modCol_mem (s : State) (n : Nat) (f : Column → Column) : (s.modCol n f).mem = s.mem := rfl
@[simp] theorem State.modCol_pt (s : State) (n : Nat) (f : Column → Column) : (s.modCol n f).pt = s.pt := rfl
@[simp] theorem State.modCol_psnSpad (s : State) (n : Nat) (f : Column → Column) : (s.modCol n f).psnSpad = s.psnSpad := rfl
@[simp] theorem State.modCol_psnBank (s : State) (n : Nat) (f : Column → Column) : (s.modCol n f).psnBank = s.psnBank := rfl
@[simp] theorem State.modCol_psnMem (s : State) (n : Nat) (f : Column → Column) : (s.modCol n f).psnMem = s.psnMem := rfl
@[simp] theorem State.modCol_psnGrid (s : State) (n : Nat) (f : Column → Column) : (s.modCol n f).psnGrid = s.psnGrid := rfl
@[simp] theorem State.modCol_psnAcc (s : State) (n : Nat) (f : Column → Column) : (s.modCol n f).psnAcc = s.psnAcc := rfl
@[simp] theorem State.modCol_vers (s : State) (n : Nat) (f : Column → Column) : (s.modCol n f).vers = s.vers := rfl
@[simp] theorem State.modCol_atoms (s : State) (n : Nat) (f : Column → Column) : (s.modCol n f).atoms = s.atoms := rfl
@[simp] theorem State.modCol_teams (s : State) (n : Nat) (f : Column → Column) : (s.modCol n f).teams = s.teams := rfl
@[simp] theorem State.modCol_strs (s : State) (n : Nat) (f : Column → Column) : (s.modCol n f).strs = s.strs := rfl
@[simp] theorem State.modCol_launches (s : State) (n : Nat) (f : Column → Column) : (s.modCol n f).launches = s.launches := rfl
@[simp] theorem State.modCol_queues (s : State) (n : Nat) (f : Column → Column) : (s.modCol n f).queues = s.queues := rfl
@[simp] theorem State.modCol_chans (s : State) (n : Nat) (f : Column → Column) : (s.modCol n f).chans = s.chans := rfl
@[simp] theorem State.modCol_relays (s : State) (n : Nat) (f : Column → Column) : (s.modCol n f).relays = s.relays := rfl
@[simp] theorem State.modCol_held (s : State) (n : Nat) (f : Column → Column) : (s.modCol n f).held = s.held := rfl
@[simp] theorem State.modCol_windows (s : State) (n : Nat) (f : Column → Column) : (s.modCol n f).windows = s.windows := rfl
@[simp] theorem State.modCol_ports (s : State) (n : Nat) (f : Column → Column) : (s.modCol n f).ports = s.ports := rfl
@[simp] theorem State.modCol_parts (s : State) (n : Nat) (f : Column → Column) : (s.modCol n f).parts = s.parts := rfl
@[simp] theorem State.modCol_lports (s : State) (n : Nat) (f : Column → Column) : (s.modCol n f).lports = s.lports := rfl
@[simp] theorem State.modCol_changes (s : State) (n : Nat) (f : Column → Column) : (s.modCol n f).changes = s.changes := rfl
@[simp] theorem State.modCol_skew (s : State) (n : Nat) (f : Column → Column) : (s.modCol n f).skew = s.skew := rfl
@[simp] theorem State.modCol_dbgs (s : State) (n : Nat) (f : Column → Column) : (s.modCol n f).dbgs = s.dbgs := rfl
@[simp] theorem State.modCol_slots (s : State) (n : Nat) (f : Column → Column) : (s.modCol n f).slots = s.slots := rfl
@[simp] theorem State.modCol_holdlim (s : State) (n : Nat) (f : Column → Column) : (s.modCol n f).holdlim = s.holdlim := rfl
@[simp] theorem State.modCol_fw (s : State) (n : Nat) (f : Column → Column) : (s.modCol n f).fw = s.fw := rfl

-- post: changes `agenda` alone.
@[simp] theorem State.post_keel (s : State) (i : Instr) (a : EvArg) : (s.post i a).keel = s.keel := rfl
@[simp] theorem State.post_iss (s : State) (i : Instr) (a : EvArg) : (s.post i a).iss = s.iss := rfl
@[simp] theorem State.post_arg (s : State) (i : Instr) (a : EvArg) : (s.post i a).arg = s.arg := rfl
@[simp] theorem State.post_choices (s : State) (i : Instr) (a : EvArg) : (s.post i a).choices = s.choices := rfl
@[simp] theorem State.post_lags (s : State) (i : Instr) (a : EvArg) : (s.post i a).lags = s.lags := rfl
@[simp] theorem State.post_outbox (s : State) (i : Instr) (a : EvArg) : (s.post i a).outbox = s.outbox := rfl
@[simp] theorem State.post_seq (s : State) (i : Instr) (a : EvArg) : (s.post i a).seq = s.seq := rfl
@[simp] theorem State.post_nparts (s : State) (i : Instr) (a : EvArg) : (s.post i a).nparts = s.nparts := rfl
@[simp] theorem State.post_qowner (s : State) (i : Instr) (a : EvArg) : (s.post i a).qowner = s.qowner := rfl
@[simp] theorem State.post_ctxs (s : State) (i : Instr) (a : EvArg) : (s.post i a).ctxs = s.ctxs := rfl
@[simp] theorem State.post_cells (s : State) (i : Instr) (a : EvArg) : (s.post i a).cells = s.cells := rfl
@[simp] theorem State.post_spad (s : State) (i : Instr) (a : EvArg) : (s.post i a).spad = s.spad := rfl
@[simp] theorem State.post_banks (s : State) (i : Instr) (a : EvArg) : (s.post i a).banks = s.banks := rfl
@[simp] theorem State.post_late (s : State) (i : Instr) (a : EvArg) : (s.post i a).late = s.late := rfl
@[simp] theorem State.post_lateB (s : State) (i : Instr) (a : EvArg) : (s.post i a).lateB = s.lateB := rfl
@[simp] theorem State.post_mem (s : State) (i : Instr) (a : EvArg) : (s.post i a).mem = s.mem := rfl
@[simp] theorem State.post_pt (s : State) (i : Instr) (a : EvArg) : (s.post i a).pt = s.pt := rfl
@[simp] theorem State.post_psnSpad (s : State) (i : Instr) (a : EvArg) : (s.post i a).psnSpad = s.psnSpad := rfl
@[simp] theorem State.post_psnBank (s : State) (i : Instr) (a : EvArg) : (s.post i a).psnBank = s.psnBank := rfl
@[simp] theorem State.post_psnMem (s : State) (i : Instr) (a : EvArg) : (s.post i a).psnMem = s.psnMem := rfl
@[simp] theorem State.post_psnGrid (s : State) (i : Instr) (a : EvArg) : (s.post i a).psnGrid = s.psnGrid := rfl
@[simp] theorem State.post_psnAcc (s : State) (i : Instr) (a : EvArg) : (s.post i a).psnAcc = s.psnAcc := rfl
@[simp] theorem State.post_vers (s : State) (i : Instr) (a : EvArg) : (s.post i a).vers = s.vers := rfl
@[simp] theorem State.post_atoms (s : State) (i : Instr) (a : EvArg) : (s.post i a).atoms = s.atoms := rfl
@[simp] theorem State.post_teams (s : State) (i : Instr) (a : EvArg) : (s.post i a).teams = s.teams := rfl
@[simp] theorem State.post_strs (s : State) (i : Instr) (a : EvArg) : (s.post i a).strs = s.strs := rfl
@[simp] theorem State.post_launches (s : State) (i : Instr) (a : EvArg) : (s.post i a).launches = s.launches := rfl
@[simp] theorem State.post_queues (s : State) (i : Instr) (a : EvArg) : (s.post i a).queues = s.queues := rfl
@[simp] theorem State.post_chans (s : State) (i : Instr) (a : EvArg) : (s.post i a).chans = s.chans := rfl
@[simp] theorem State.post_relays (s : State) (i : Instr) (a : EvArg) : (s.post i a).relays = s.relays := rfl
@[simp] theorem State.post_held (s : State) (i : Instr) (a : EvArg) : (s.post i a).held = s.held := rfl
@[simp] theorem State.post_windows (s : State) (i : Instr) (a : EvArg) : (s.post i a).windows = s.windows := rfl
@[simp] theorem State.post_ports (s : State) (i : Instr) (a : EvArg) : (s.post i a).ports = s.ports := rfl
@[simp] theorem State.post_parts (s : State) (i : Instr) (a : EvArg) : (s.post i a).parts = s.parts := rfl
@[simp] theorem State.post_lports (s : State) (i : Instr) (a : EvArg) : (s.post i a).lports = s.lports := rfl
@[simp] theorem State.post_changes (s : State) (i : Instr) (a : EvArg) : (s.post i a).changes = s.changes := rfl
@[simp] theorem State.post_skew (s : State) (i : Instr) (a : EvArg) : (s.post i a).skew = s.skew := rfl
@[simp] theorem State.post_cols (s : State) (i : Instr) (a : EvArg) : (s.post i a).cols = s.cols := rfl
@[simp] theorem State.post_dbgs (s : State) (i : Instr) (a : EvArg) : (s.post i a).dbgs = s.dbgs := rfl
@[simp] theorem State.post_slots (s : State) (i : Instr) (a : EvArg) : (s.post i a).slots = s.slots := rfl
@[simp] theorem State.post_holdlim (s : State) (i : Instr) (a : EvArg) : (s.post i a).holdlim = s.holdlim := rfl
@[simp] theorem State.post_fw (s : State) (i : Instr) (a : EvArg) : (s.post i a).fw = s.fw := rfl

-- emit: changes `outbox` alone.
@[simp] theorem State.emit_keel (s : State) (a : Answer) : (s.emit a).keel = s.keel := rfl
@[simp] theorem State.emit_iss (s : State) (a : Answer) : (s.emit a).iss = s.iss := rfl
@[simp] theorem State.emit_arg (s : State) (a : Answer) : (s.emit a).arg = s.arg := rfl
@[simp] theorem State.emit_agenda (s : State) (a : Answer) : (s.emit a).agenda = s.agenda := rfl
@[simp] theorem State.emit_choices (s : State) (a : Answer) : (s.emit a).choices = s.choices := rfl
@[simp] theorem State.emit_lags (s : State) (a : Answer) : (s.emit a).lags = s.lags := rfl
@[simp] theorem State.emit_seq (s : State) (a : Answer) : (s.emit a).seq = s.seq := rfl
@[simp] theorem State.emit_nparts (s : State) (a : Answer) : (s.emit a).nparts = s.nparts := rfl
@[simp] theorem State.emit_qowner (s : State) (a : Answer) : (s.emit a).qowner = s.qowner := rfl
@[simp] theorem State.emit_ctxs (s : State) (a : Answer) : (s.emit a).ctxs = s.ctxs := rfl
@[simp] theorem State.emit_cells (s : State) (a : Answer) : (s.emit a).cells = s.cells := rfl
@[simp] theorem State.emit_spad (s : State) (a : Answer) : (s.emit a).spad = s.spad := rfl
@[simp] theorem State.emit_banks (s : State) (a : Answer) : (s.emit a).banks = s.banks := rfl
@[simp] theorem State.emit_late (s : State) (a : Answer) : (s.emit a).late = s.late := rfl
@[simp] theorem State.emit_lateB (s : State) (a : Answer) : (s.emit a).lateB = s.lateB := rfl
@[simp] theorem State.emit_mem (s : State) (a : Answer) : (s.emit a).mem = s.mem := rfl
@[simp] theorem State.emit_pt (s : State) (a : Answer) : (s.emit a).pt = s.pt := rfl
@[simp] theorem State.emit_psnSpad (s : State) (a : Answer) : (s.emit a).psnSpad = s.psnSpad := rfl
@[simp] theorem State.emit_psnBank (s : State) (a : Answer) : (s.emit a).psnBank = s.psnBank := rfl
@[simp] theorem State.emit_psnMem (s : State) (a : Answer) : (s.emit a).psnMem = s.psnMem := rfl
@[simp] theorem State.emit_psnGrid (s : State) (a : Answer) : (s.emit a).psnGrid = s.psnGrid := rfl
@[simp] theorem State.emit_psnAcc (s : State) (a : Answer) : (s.emit a).psnAcc = s.psnAcc := rfl
@[simp] theorem State.emit_vers (s : State) (a : Answer) : (s.emit a).vers = s.vers := rfl
@[simp] theorem State.emit_atoms (s : State) (a : Answer) : (s.emit a).atoms = s.atoms := rfl
@[simp] theorem State.emit_teams (s : State) (a : Answer) : (s.emit a).teams = s.teams := rfl
@[simp] theorem State.emit_strs (s : State) (a : Answer) : (s.emit a).strs = s.strs := rfl
@[simp] theorem State.emit_launches (s : State) (a : Answer) : (s.emit a).launches = s.launches := rfl
@[simp] theorem State.emit_queues (s : State) (a : Answer) : (s.emit a).queues = s.queues := rfl
@[simp] theorem State.emit_chans (s : State) (a : Answer) : (s.emit a).chans = s.chans := rfl
@[simp] theorem State.emit_relays (s : State) (a : Answer) : (s.emit a).relays = s.relays := rfl
@[simp] theorem State.emit_held (s : State) (a : Answer) : (s.emit a).held = s.held := rfl
@[simp] theorem State.emit_windows (s : State) (a : Answer) : (s.emit a).windows = s.windows := rfl
@[simp] theorem State.emit_ports (s : State) (a : Answer) : (s.emit a).ports = s.ports := rfl
@[simp] theorem State.emit_parts (s : State) (a : Answer) : (s.emit a).parts = s.parts := rfl
@[simp] theorem State.emit_lports (s : State) (a : Answer) : (s.emit a).lports = s.lports := rfl
@[simp] theorem State.emit_changes (s : State) (a : Answer) : (s.emit a).changes = s.changes := rfl
@[simp] theorem State.emit_skew (s : State) (a : Answer) : (s.emit a).skew = s.skew := rfl
@[simp] theorem State.emit_cols (s : State) (a : Answer) : (s.emit a).cols = s.cols := rfl
@[simp] theorem State.emit_dbgs (s : State) (a : Answer) : (s.emit a).dbgs = s.dbgs := rfl
@[simp] theorem State.emit_slots (s : State) (a : Answer) : (s.emit a).slots = s.slots := rfl
@[simp] theorem State.emit_holdlim (s : State) (a : Answer) : (s.emit a).holdlim = s.holdlim := rfl
@[simp] theorem State.emit_fw (s : State) (a : Answer) : (s.emit a).fw = s.fw := rfl

-- stall: changes `iss` alone.
@[simp] theorem State.stall_keel (s : State) : (s.stall).keel = s.keel := rfl
@[simp] theorem State.stall_arg (s : State) : (s.stall).arg = s.arg := rfl
@[simp] theorem State.stall_agenda (s : State) : (s.stall).agenda = s.agenda := rfl
@[simp] theorem State.stall_choices (s : State) : (s.stall).choices = s.choices := rfl
@[simp] theorem State.stall_lags (s : State) : (s.stall).lags = s.lags := rfl
@[simp] theorem State.stall_outbox (s : State) : (s.stall).outbox = s.outbox := rfl
@[simp] theorem State.stall_seq (s : State) : (s.stall).seq = s.seq := rfl
@[simp] theorem State.stall_nparts (s : State) : (s.stall).nparts = s.nparts := rfl
@[simp] theorem State.stall_qowner (s : State) : (s.stall).qowner = s.qowner := rfl
@[simp] theorem State.stall_ctxs (s : State) : (s.stall).ctxs = s.ctxs := rfl
@[simp] theorem State.stall_cells (s : State) : (s.stall).cells = s.cells := rfl
@[simp] theorem State.stall_spad (s : State) : (s.stall).spad = s.spad := rfl
@[simp] theorem State.stall_banks (s : State) : (s.stall).banks = s.banks := rfl
@[simp] theorem State.stall_late (s : State) : (s.stall).late = s.late := rfl
@[simp] theorem State.stall_lateB (s : State) : (s.stall).lateB = s.lateB := rfl
@[simp] theorem State.stall_mem (s : State) : (s.stall).mem = s.mem := rfl
@[simp] theorem State.stall_pt (s : State) : (s.stall).pt = s.pt := rfl
@[simp] theorem State.stall_psnSpad (s : State) : (s.stall).psnSpad = s.psnSpad := rfl
@[simp] theorem State.stall_psnBank (s : State) : (s.stall).psnBank = s.psnBank := rfl
@[simp] theorem State.stall_psnMem (s : State) : (s.stall).psnMem = s.psnMem := rfl
@[simp] theorem State.stall_psnGrid (s : State) : (s.stall).psnGrid = s.psnGrid := rfl
@[simp] theorem State.stall_psnAcc (s : State) : (s.stall).psnAcc = s.psnAcc := rfl
@[simp] theorem State.stall_vers (s : State) : (s.stall).vers = s.vers := rfl
@[simp] theorem State.stall_atoms (s : State) : (s.stall).atoms = s.atoms := rfl
@[simp] theorem State.stall_teams (s : State) : (s.stall).teams = s.teams := rfl
@[simp] theorem State.stall_strs (s : State) : (s.stall).strs = s.strs := rfl
@[simp] theorem State.stall_launches (s : State) : (s.stall).launches = s.launches := rfl
@[simp] theorem State.stall_queues (s : State) : (s.stall).queues = s.queues := rfl
@[simp] theorem State.stall_chans (s : State) : (s.stall).chans = s.chans := rfl
@[simp] theorem State.stall_relays (s : State) : (s.stall).relays = s.relays := rfl
@[simp] theorem State.stall_held (s : State) : (s.stall).held = s.held := rfl
@[simp] theorem State.stall_windows (s : State) : (s.stall).windows = s.windows := rfl
@[simp] theorem State.stall_ports (s : State) : (s.stall).ports = s.ports := rfl
@[simp] theorem State.stall_parts (s : State) : (s.stall).parts = s.parts := rfl
@[simp] theorem State.stall_lports (s : State) : (s.stall).lports = s.lports := rfl
@[simp] theorem State.stall_changes (s : State) : (s.stall).changes = s.changes := rfl
@[simp] theorem State.stall_skew (s : State) : (s.stall).skew = s.skew := rfl
@[simp] theorem State.stall_cols (s : State) : (s.stall).cols = s.cols := rfl
@[simp] theorem State.stall_dbgs (s : State) : (s.stall).dbgs = s.dbgs := rfl
@[simp] theorem State.stall_slots (s : State) : (s.stall).slots = s.slots := rfl
@[simp] theorem State.stall_holdlim (s : State) : (s.stall).holdlim = s.holdlim := rfl
@[simp] theorem State.stall_fw (s : State) : (s.stall).fw = s.fw := rfl

-- moved: changes `iss` alone.
@[simp] theorem State.moved_keel (s : State) : (s.moved).keel = s.keel := rfl
@[simp] theorem State.moved_arg (s : State) : (s.moved).arg = s.arg := rfl
@[simp] theorem State.moved_agenda (s : State) : (s.moved).agenda = s.agenda := rfl
@[simp] theorem State.moved_choices (s : State) : (s.moved).choices = s.choices := rfl
@[simp] theorem State.moved_lags (s : State) : (s.moved).lags = s.lags := rfl
@[simp] theorem State.moved_outbox (s : State) : (s.moved).outbox = s.outbox := rfl
@[simp] theorem State.moved_seq (s : State) : (s.moved).seq = s.seq := rfl
@[simp] theorem State.moved_nparts (s : State) : (s.moved).nparts = s.nparts := rfl
@[simp] theorem State.moved_qowner (s : State) : (s.moved).qowner = s.qowner := rfl
@[simp] theorem State.moved_ctxs (s : State) : (s.moved).ctxs = s.ctxs := rfl
@[simp] theorem State.moved_cells (s : State) : (s.moved).cells = s.cells := rfl
@[simp] theorem State.moved_spad (s : State) : (s.moved).spad = s.spad := rfl
@[simp] theorem State.moved_banks (s : State) : (s.moved).banks = s.banks := rfl
@[simp] theorem State.moved_late (s : State) : (s.moved).late = s.late := rfl
@[simp] theorem State.moved_lateB (s : State) : (s.moved).lateB = s.lateB := rfl
@[simp] theorem State.moved_mem (s : State) : (s.moved).mem = s.mem := rfl
@[simp] theorem State.moved_pt (s : State) : (s.moved).pt = s.pt := rfl
@[simp] theorem State.moved_psnSpad (s : State) : (s.moved).psnSpad = s.psnSpad := rfl
@[simp] theorem State.moved_psnBank (s : State) : (s.moved).psnBank = s.psnBank := rfl
@[simp] theorem State.moved_psnMem (s : State) : (s.moved).psnMem = s.psnMem := rfl
@[simp] theorem State.moved_psnGrid (s : State) : (s.moved).psnGrid = s.psnGrid := rfl
@[simp] theorem State.moved_psnAcc (s : State) : (s.moved).psnAcc = s.psnAcc := rfl
@[simp] theorem State.moved_vers (s : State) : (s.moved).vers = s.vers := rfl
@[simp] theorem State.moved_atoms (s : State) : (s.moved).atoms = s.atoms := rfl
@[simp] theorem State.moved_teams (s : State) : (s.moved).teams = s.teams := rfl
@[simp] theorem State.moved_strs (s : State) : (s.moved).strs = s.strs := rfl
@[simp] theorem State.moved_launches (s : State) : (s.moved).launches = s.launches := rfl
@[simp] theorem State.moved_queues (s : State) : (s.moved).queues = s.queues := rfl
@[simp] theorem State.moved_chans (s : State) : (s.moved).chans = s.chans := rfl
@[simp] theorem State.moved_relays (s : State) : (s.moved).relays = s.relays := rfl
@[simp] theorem State.moved_held (s : State) : (s.moved).held = s.held := rfl
@[simp] theorem State.moved_windows (s : State) : (s.moved).windows = s.windows := rfl
@[simp] theorem State.moved_ports (s : State) : (s.moved).ports = s.ports := rfl
@[simp] theorem State.moved_parts (s : State) : (s.moved).parts = s.parts := rfl
@[simp] theorem State.moved_lports (s : State) : (s.moved).lports = s.lports := rfl
@[simp] theorem State.moved_changes (s : State) : (s.moved).changes = s.changes := rfl
@[simp] theorem State.moved_skew (s : State) : (s.moved).skew = s.skew := rfl
@[simp] theorem State.moved_cols (s : State) : (s.moved).cols = s.cols := rfl
@[simp] theorem State.moved_dbgs (s : State) : (s.moved).dbgs = s.dbgs := rfl
@[simp] theorem State.moved_slots (s : State) : (s.moved).slots = s.slots := rfl
@[simp] theorem State.moved_holdlim (s : State) : (s.moved).holdlim = s.holdlim := rfl
@[simp] theorem State.moved_fw (s : State) : (s.moved).fw = s.fw := rfl

-- Reading a table after a change to one of its keys.

@[simp] theorem State.ctx_modCtx (s : State) (n k : Nat) (f : Ctx → Ctx) :
    (s.modCtx n f).ctx k = if n = k then f (s.ctx n) else s.ctx k := by
  simp [State.modCtx, State.ctx, State.setCtx]
@[simp] theorem State.cell_modCell (s : State) (n k : Nat) (f : CellSt → CellSt) :
    (s.modCell n f).cell k = if n = k then f (s.cell n) else s.cell k := by
  simp [State.modCell, State.cell]
@[simp] theorem State.chan_modChan (s : State) (n k : Nat) (f : Chan → Chan) :
    (s.modChan n f).chan k = if n = k then f (s.chan n) else s.chan k := by
  simp [State.modChan, State.chan]
@[simp] theorem State.relay_modRelay (s : State) (n k : Nat) (f : Relay → Relay) :
    (s.modRelay n f).relay k = if n = k then f (s.relay n) else s.relay k := by
  simp [State.modRelay, State.relay]
@[simp] theorem State.queue_modQueue (s : State) (n k : Nat) (f : UQueue → UQueue) :
    (s.modQueue n f).queue k = if n = k then f (s.queue n) else s.queue k := by
  simp [State.modQueue, State.queue]
@[simp] theorem State.port_modPort (s : State) (n k : Nat) (f : Port → Port) :
    (s.modPort n f).port k = if n = k then f (s.port n) else s.port k := by
  simp [State.modPort, State.port]
@[simp] theorem State.part_modPart (s : State) (n k : Nat) (f : Part → Part) :
    (s.modPart n f).part k = if n = k then f (s.part n) else s.part k := by
  simp [State.modPart, State.part]
@[simp] theorem State.dbg_modDbg (s : State) (n k : Nat) (f : Dbg → Dbg) :
    (s.modDbg n f).dbg k = if n = k then f (s.dbg n) else s.dbg k := by
  simp [State.modDbg, State.dbg]
@[simp] theorem State.lport_modLport (s : State) (n k : Nat) (f : LeafPort → LeafPort) :
    (s.modLport n f).lport k = if n = k then f (s.lport n) else s.lport k := by
  simp [State.modLport, State.lport]
@[simp] theorem State.col_modCol (s : State) (n k : Nat) (f : Column → Column) :
    (s.modCol n f).col k = if n = k then f (s.col n) else s.col k := by
  simp [State.modCol, State.col]

@[simp] theorem State.ctx_setCtx (s : State) (n k : Nat) (c : Ctx) : (s.setCtx n c).ctx k = if n = k then c else s.ctx k := by
  simp [State.setCtx, State.ctx]
@[simp] theorem State.me_modMe (s : State) (f : Ctx → Ctx) : (s.modMe f).me = f s.me := by
  simp [State.modMe, State.me]
@[simp] theorem State.ctx_modMe (s : State) (k : Nat) (f : Ctx → Ctx) :
    (s.modMe f).ctx k = if s.iss.src = k then f s.me else s.ctx k := by
  simp [State.modMe, State.me]

@[simp] theorem State.cell_setCtx_other (s : State) (k : Nat) (n : Nat) (c : Ctx) : (s.setCtx n c).cell k = s.cell k := rfl
@[simp] theorem State.chan_setCtx_other (s : State) (k : Nat) (n : Nat) (c : Ctx) : (s.setCtx n c).chan k = s.chan k := rfl
@[simp] theorem State.relay_setCtx_other (s : State) (k : Nat) (n : Nat) (c : Ctx) : (s.setCtx n c).relay k = s.relay k := rfl
@[simp] theorem State.queue_setCtx_other (s : State) (k : Nat) (n : Nat) (c : Ctx) : (s.setCtx n c).queue k = s.queue k := rfl
@[simp] theorem State.port_setCtx_other (s : State) (k : Nat) (n : Nat) (c : Ctx) : (s.setCtx n c).port k = s.port k := rfl
@[simp] theorem State.part_setCtx_other (s : State) (k : Nat) (n : Nat) (c : Ctx) : (s.setCtx n c).part k = s.part k := rfl
@[simp] theorem State.dbg_setCtx_other (s : State) (k : Nat) (n : Nat) (c : Ctx) : (s.setCtx n c).dbg k = s.dbg k := rfl
@[simp] theorem State.lport_setCtx_other (s : State) (k : Nat) (n : Nat) (c : Ctx) : (s.setCtx n c).lport k = s.lport k := rfl
@[simp] theorem State.col_setCtx_other (s : State) (k : Nat) (n : Nat) (c : Ctx) : (s.setCtx n c).col k = s.col k := rfl
@[simp] theorem State.cell_modCtx_other (s : State) (k : Nat) (n : Nat) (f : Ctx → Ctx) : (s.modCtx n f).cell k = s.cell k := rfl
@[simp] theorem State.chan_modCtx_other (s : State) (k : Nat) (n : Nat) (f : Ctx → Ctx) : (s.modCtx n f).chan k = s.chan k := rfl
@[simp] theorem State.relay_modCtx_other (s : State) (k : Nat) (n : Nat) (f : Ctx → Ctx) : (s.modCtx n f).relay k = s.relay k := rfl
@[simp] theorem State.queue_modCtx_other (s : State) (k : Nat) (n : Nat) (f : Ctx → Ctx) : (s.modCtx n f).queue k = s.queue k := rfl
@[simp] theorem State.port_modCtx_other (s : State) (k : Nat) (n : Nat) (f : Ctx → Ctx) : (s.modCtx n f).port k = s.port k := rfl
@[simp] theorem State.part_modCtx_other (s : State) (k : Nat) (n : Nat) (f : Ctx → Ctx) : (s.modCtx n f).part k = s.part k := rfl
@[simp] theorem State.dbg_modCtx_other (s : State) (k : Nat) (n : Nat) (f : Ctx → Ctx) : (s.modCtx n f).dbg k = s.dbg k := rfl
@[simp] theorem State.lport_modCtx_other (s : State) (k : Nat) (n : Nat) (f : Ctx → Ctx) : (s.modCtx n f).lport k = s.lport k := rfl
@[simp] theorem State.col_modCtx_other (s : State) (k : Nat) (n : Nat) (f : Ctx → Ctx) : (s.modCtx n f).col k = s.col k := rfl
@[simp] theorem State.cell_modMe_other (s : State) (k : Nat) (f : Ctx → Ctx) : (s.modMe f).cell k = s.cell k := rfl
@[simp] theorem State.chan_modMe_other (s : State) (k : Nat) (f : Ctx → Ctx) : (s.modMe f).chan k = s.chan k := rfl
@[simp] theorem State.relay_modMe_other (s : State) (k : Nat) (f : Ctx → Ctx) : (s.modMe f).relay k = s.relay k := rfl
@[simp] theorem State.queue_modMe_other (s : State) (k : Nat) (f : Ctx → Ctx) : (s.modMe f).queue k = s.queue k := rfl
@[simp] theorem State.port_modMe_other (s : State) (k : Nat) (f : Ctx → Ctx) : (s.modMe f).port k = s.port k := rfl
@[simp] theorem State.part_modMe_other (s : State) (k : Nat) (f : Ctx → Ctx) : (s.modMe f).part k = s.part k := rfl
@[simp] theorem State.dbg_modMe_other (s : State) (k : Nat) (f : Ctx → Ctx) : (s.modMe f).dbg k = s.dbg k := rfl
@[simp] theorem State.lport_modMe_other (s : State) (k : Nat) (f : Ctx → Ctx) : (s.modMe f).lport k = s.lport k := rfl
@[simp] theorem State.col_modMe_other (s : State) (k : Nat) (f : Ctx → Ctx) : (s.modMe f).col k = s.col k := rfl
@[simp] theorem State.ctx_modCell_other (s : State) (k : Nat) (n : Nat) (f : CellSt → CellSt) : (s.modCell n f).ctx k = s.ctx k := rfl
@[simp] theorem State.chan_modCell_other (s : State) (k : Nat) (n : Nat) (f : CellSt → CellSt) : (s.modCell n f).chan k = s.chan k := rfl
@[simp] theorem State.relay_modCell_other (s : State) (k : Nat) (n : Nat) (f : CellSt → CellSt) : (s.modCell n f).relay k = s.relay k := rfl
@[simp] theorem State.queue_modCell_other (s : State) (k : Nat) (n : Nat) (f : CellSt → CellSt) : (s.modCell n f).queue k = s.queue k := rfl
@[simp] theorem State.port_modCell_other (s : State) (k : Nat) (n : Nat) (f : CellSt → CellSt) : (s.modCell n f).port k = s.port k := rfl
@[simp] theorem State.part_modCell_other (s : State) (k : Nat) (n : Nat) (f : CellSt → CellSt) : (s.modCell n f).part k = s.part k := rfl
@[simp] theorem State.dbg_modCell_other (s : State) (k : Nat) (n : Nat) (f : CellSt → CellSt) : (s.modCell n f).dbg k = s.dbg k := rfl
@[simp] theorem State.lport_modCell_other (s : State) (k : Nat) (n : Nat) (f : CellSt → CellSt) : (s.modCell n f).lport k = s.lport k := rfl
@[simp] theorem State.col_modCell_other (s : State) (k : Nat) (n : Nat) (f : CellSt → CellSt) : (s.modCell n f).col k = s.col k := rfl
@[simp] theorem State.me_modCell (s : State) (n : Nat) (f : CellSt → CellSt) : (s.modCell n f).me = s.me := rfl
@[simp] theorem State.ctx_modChan_other (s : State) (k : Nat) (n : Nat) (f : Chan → Chan) : (s.modChan n f).ctx k = s.ctx k := rfl
@[simp] theorem State.cell_modChan_other (s : State) (k : Nat) (n : Nat) (f : Chan → Chan) : (s.modChan n f).cell k = s.cell k := rfl
@[simp] theorem State.relay_modChan_other (s : State) (k : Nat) (n : Nat) (f : Chan → Chan) : (s.modChan n f).relay k = s.relay k := rfl
@[simp] theorem State.queue_modChan_other (s : State) (k : Nat) (n : Nat) (f : Chan → Chan) : (s.modChan n f).queue k = s.queue k := rfl
@[simp] theorem State.port_modChan_other (s : State) (k : Nat) (n : Nat) (f : Chan → Chan) : (s.modChan n f).port k = s.port k := rfl
@[simp] theorem State.part_modChan_other (s : State) (k : Nat) (n : Nat) (f : Chan → Chan) : (s.modChan n f).part k = s.part k := rfl
@[simp] theorem State.dbg_modChan_other (s : State) (k : Nat) (n : Nat) (f : Chan → Chan) : (s.modChan n f).dbg k = s.dbg k := rfl
@[simp] theorem State.lport_modChan_other (s : State) (k : Nat) (n : Nat) (f : Chan → Chan) : (s.modChan n f).lport k = s.lport k := rfl
@[simp] theorem State.col_modChan_other (s : State) (k : Nat) (n : Nat) (f : Chan → Chan) : (s.modChan n f).col k = s.col k := rfl
@[simp] theorem State.me_modChan (s : State) (n : Nat) (f : Chan → Chan) : (s.modChan n f).me = s.me := rfl
@[simp] theorem State.ctx_modRelay_other (s : State) (k : Nat) (n : Nat) (f : Relay → Relay) : (s.modRelay n f).ctx k = s.ctx k := rfl
@[simp] theorem State.cell_modRelay_other (s : State) (k : Nat) (n : Nat) (f : Relay → Relay) : (s.modRelay n f).cell k = s.cell k := rfl
@[simp] theorem State.chan_modRelay_other (s : State) (k : Nat) (n : Nat) (f : Relay → Relay) : (s.modRelay n f).chan k = s.chan k := rfl
@[simp] theorem State.queue_modRelay_other (s : State) (k : Nat) (n : Nat) (f : Relay → Relay) : (s.modRelay n f).queue k = s.queue k := rfl
@[simp] theorem State.port_modRelay_other (s : State) (k : Nat) (n : Nat) (f : Relay → Relay) : (s.modRelay n f).port k = s.port k := rfl
@[simp] theorem State.part_modRelay_other (s : State) (k : Nat) (n : Nat) (f : Relay → Relay) : (s.modRelay n f).part k = s.part k := rfl
@[simp] theorem State.dbg_modRelay_other (s : State) (k : Nat) (n : Nat) (f : Relay → Relay) : (s.modRelay n f).dbg k = s.dbg k := rfl
@[simp] theorem State.lport_modRelay_other (s : State) (k : Nat) (n : Nat) (f : Relay → Relay) : (s.modRelay n f).lport k = s.lport k := rfl
@[simp] theorem State.col_modRelay_other (s : State) (k : Nat) (n : Nat) (f : Relay → Relay) : (s.modRelay n f).col k = s.col k := rfl
@[simp] theorem State.me_modRelay (s : State) (n : Nat) (f : Relay → Relay) : (s.modRelay n f).me = s.me := rfl
@[simp] theorem State.ctx_modQueue_other (s : State) (k : Nat) (n : Nat) (f : UQueue → UQueue) : (s.modQueue n f).ctx k = s.ctx k := rfl
@[simp] theorem State.cell_modQueue_other (s : State) (k : Nat) (n : Nat) (f : UQueue → UQueue) : (s.modQueue n f).cell k = s.cell k := rfl
@[simp] theorem State.chan_modQueue_other (s : State) (k : Nat) (n : Nat) (f : UQueue → UQueue) : (s.modQueue n f).chan k = s.chan k := rfl
@[simp] theorem State.relay_modQueue_other (s : State) (k : Nat) (n : Nat) (f : UQueue → UQueue) : (s.modQueue n f).relay k = s.relay k := rfl
@[simp] theorem State.port_modQueue_other (s : State) (k : Nat) (n : Nat) (f : UQueue → UQueue) : (s.modQueue n f).port k = s.port k := rfl
@[simp] theorem State.part_modQueue_other (s : State) (k : Nat) (n : Nat) (f : UQueue → UQueue) : (s.modQueue n f).part k = s.part k := rfl
@[simp] theorem State.dbg_modQueue_other (s : State) (k : Nat) (n : Nat) (f : UQueue → UQueue) : (s.modQueue n f).dbg k = s.dbg k := rfl
@[simp] theorem State.lport_modQueue_other (s : State) (k : Nat) (n : Nat) (f : UQueue → UQueue) : (s.modQueue n f).lport k = s.lport k := rfl
@[simp] theorem State.col_modQueue_other (s : State) (k : Nat) (n : Nat) (f : UQueue → UQueue) : (s.modQueue n f).col k = s.col k := rfl
@[simp] theorem State.me_modQueue (s : State) (n : Nat) (f : UQueue → UQueue) : (s.modQueue n f).me = s.me := rfl
@[simp] theorem State.ctx_modPort_other (s : State) (k : Nat) (n : Nat) (f : Port → Port) : (s.modPort n f).ctx k = s.ctx k := rfl
@[simp] theorem State.cell_modPort_other (s : State) (k : Nat) (n : Nat) (f : Port → Port) : (s.modPort n f).cell k = s.cell k := rfl
@[simp] theorem State.chan_modPort_other (s : State) (k : Nat) (n : Nat) (f : Port → Port) : (s.modPort n f).chan k = s.chan k := rfl
@[simp] theorem State.relay_modPort_other (s : State) (k : Nat) (n : Nat) (f : Port → Port) : (s.modPort n f).relay k = s.relay k := rfl
@[simp] theorem State.queue_modPort_other (s : State) (k : Nat) (n : Nat) (f : Port → Port) : (s.modPort n f).queue k = s.queue k := rfl
@[simp] theorem State.part_modPort_other (s : State) (k : Nat) (n : Nat) (f : Port → Port) : (s.modPort n f).part k = s.part k := rfl
@[simp] theorem State.dbg_modPort_other (s : State) (k : Nat) (n : Nat) (f : Port → Port) : (s.modPort n f).dbg k = s.dbg k := rfl
@[simp] theorem State.lport_modPort_other (s : State) (k : Nat) (n : Nat) (f : Port → Port) : (s.modPort n f).lport k = s.lport k := rfl
@[simp] theorem State.col_modPort_other (s : State) (k : Nat) (n : Nat) (f : Port → Port) : (s.modPort n f).col k = s.col k := rfl
@[simp] theorem State.me_modPort (s : State) (n : Nat) (f : Port → Port) : (s.modPort n f).me = s.me := rfl
@[simp] theorem State.ctx_modPart_other (s : State) (k : Nat) (n : Nat) (f : Part → Part) : (s.modPart n f).ctx k = s.ctx k := rfl
@[simp] theorem State.cell_modPart_other (s : State) (k : Nat) (n : Nat) (f : Part → Part) : (s.modPart n f).cell k = s.cell k := rfl
@[simp] theorem State.chan_modPart_other (s : State) (k : Nat) (n : Nat) (f : Part → Part) : (s.modPart n f).chan k = s.chan k := rfl
@[simp] theorem State.relay_modPart_other (s : State) (k : Nat) (n : Nat) (f : Part → Part) : (s.modPart n f).relay k = s.relay k := rfl
@[simp] theorem State.queue_modPart_other (s : State) (k : Nat) (n : Nat) (f : Part → Part) : (s.modPart n f).queue k = s.queue k := rfl
@[simp] theorem State.port_modPart_other (s : State) (k : Nat) (n : Nat) (f : Part → Part) : (s.modPart n f).port k = s.port k := rfl
@[simp] theorem State.dbg_modPart_other (s : State) (k : Nat) (n : Nat) (f : Part → Part) : (s.modPart n f).dbg k = s.dbg k := rfl
@[simp] theorem State.lport_modPart_other (s : State) (k : Nat) (n : Nat) (f : Part → Part) : (s.modPart n f).lport k = s.lport k := rfl
@[simp] theorem State.col_modPart_other (s : State) (k : Nat) (n : Nat) (f : Part → Part) : (s.modPart n f).col k = s.col k := rfl
@[simp] theorem State.me_modPart (s : State) (n : Nat) (f : Part → Part) : (s.modPart n f).me = s.me := rfl
@[simp] theorem State.ctx_modDbg_other (s : State) (k : Nat) (n : Nat) (f : Dbg → Dbg) : (s.modDbg n f).ctx k = s.ctx k := rfl
@[simp] theorem State.cell_modDbg_other (s : State) (k : Nat) (n : Nat) (f : Dbg → Dbg) : (s.modDbg n f).cell k = s.cell k := rfl
@[simp] theorem State.chan_modDbg_other (s : State) (k : Nat) (n : Nat) (f : Dbg → Dbg) : (s.modDbg n f).chan k = s.chan k := rfl
@[simp] theorem State.relay_modDbg_other (s : State) (k : Nat) (n : Nat) (f : Dbg → Dbg) : (s.modDbg n f).relay k = s.relay k := rfl
@[simp] theorem State.queue_modDbg_other (s : State) (k : Nat) (n : Nat) (f : Dbg → Dbg) : (s.modDbg n f).queue k = s.queue k := rfl
@[simp] theorem State.port_modDbg_other (s : State) (k : Nat) (n : Nat) (f : Dbg → Dbg) : (s.modDbg n f).port k = s.port k := rfl
@[simp] theorem State.part_modDbg_other (s : State) (k : Nat) (n : Nat) (f : Dbg → Dbg) : (s.modDbg n f).part k = s.part k := rfl
@[simp] theorem State.lport_modDbg_other (s : State) (k : Nat) (n : Nat) (f : Dbg → Dbg) : (s.modDbg n f).lport k = s.lport k := rfl
@[simp] theorem State.col_modDbg_other (s : State) (k : Nat) (n : Nat) (f : Dbg → Dbg) : (s.modDbg n f).col k = s.col k := rfl
@[simp] theorem State.me_modDbg (s : State) (n : Nat) (f : Dbg → Dbg) : (s.modDbg n f).me = s.me := rfl
@[simp] theorem State.ctx_modLport_other (s : State) (k : Nat) (n : Nat) (f : LeafPort → LeafPort) : (s.modLport n f).ctx k = s.ctx k := rfl
@[simp] theorem State.cell_modLport_other (s : State) (k : Nat) (n : Nat) (f : LeafPort → LeafPort) : (s.modLport n f).cell k = s.cell k := rfl
@[simp] theorem State.chan_modLport_other (s : State) (k : Nat) (n : Nat) (f : LeafPort → LeafPort) : (s.modLport n f).chan k = s.chan k := rfl
@[simp] theorem State.relay_modLport_other (s : State) (k : Nat) (n : Nat) (f : LeafPort → LeafPort) : (s.modLport n f).relay k = s.relay k := rfl
@[simp] theorem State.queue_modLport_other (s : State) (k : Nat) (n : Nat) (f : LeafPort → LeafPort) : (s.modLport n f).queue k = s.queue k := rfl
@[simp] theorem State.port_modLport_other (s : State) (k : Nat) (n : Nat) (f : LeafPort → LeafPort) : (s.modLport n f).port k = s.port k := rfl
@[simp] theorem State.part_modLport_other (s : State) (k : Nat) (n : Nat) (f : LeafPort → LeafPort) : (s.modLport n f).part k = s.part k := rfl
@[simp] theorem State.dbg_modLport_other (s : State) (k : Nat) (n : Nat) (f : LeafPort → LeafPort) : (s.modLport n f).dbg k = s.dbg k := rfl
@[simp] theorem State.col_modLport_other (s : State) (k : Nat) (n : Nat) (f : LeafPort → LeafPort) : (s.modLport n f).col k = s.col k := rfl
@[simp] theorem State.me_modLport (s : State) (n : Nat) (f : LeafPort → LeafPort) : (s.modLport n f).me = s.me := rfl
@[simp] theorem State.ctx_modCol_other (s : State) (k : Nat) (n : Nat) (f : Column → Column) : (s.modCol n f).ctx k = s.ctx k := rfl
@[simp] theorem State.cell_modCol_other (s : State) (k : Nat) (n : Nat) (f : Column → Column) : (s.modCol n f).cell k = s.cell k := rfl
@[simp] theorem State.chan_modCol_other (s : State) (k : Nat) (n : Nat) (f : Column → Column) : (s.modCol n f).chan k = s.chan k := rfl
@[simp] theorem State.relay_modCol_other (s : State) (k : Nat) (n : Nat) (f : Column → Column) : (s.modCol n f).relay k = s.relay k := rfl
@[simp] theorem State.queue_modCol_other (s : State) (k : Nat) (n : Nat) (f : Column → Column) : (s.modCol n f).queue k = s.queue k := rfl
@[simp] theorem State.port_modCol_other (s : State) (k : Nat) (n : Nat) (f : Column → Column) : (s.modCol n f).port k = s.port k := rfl
@[simp] theorem State.part_modCol_other (s : State) (k : Nat) (n : Nat) (f : Column → Column) : (s.modCol n f).part k = s.part k := rfl
@[simp] theorem State.dbg_modCol_other (s : State) (k : Nat) (n : Nat) (f : Column → Column) : (s.modCol n f).dbg k = s.dbg k := rfl
@[simp] theorem State.lport_modCol_other (s : State) (k : Nat) (n : Nat) (f : Column → Column) : (s.modCol n f).lport k = s.lport k := rfl
@[simp] theorem State.me_modCol (s : State) (n : Nat) (f : Column → Column) : (s.modCol n f).me = s.me := rfl
@[simp] theorem State.ctx_post_other (s : State) (k : Nat) (i : Instr) (a : EvArg) : (s.post i a).ctx k = s.ctx k := rfl
@[simp] theorem State.cell_post_other (s : State) (k : Nat) (i : Instr) (a : EvArg) : (s.post i a).cell k = s.cell k := rfl
@[simp] theorem State.chan_post_other (s : State) (k : Nat) (i : Instr) (a : EvArg) : (s.post i a).chan k = s.chan k := rfl
@[simp] theorem State.relay_post_other (s : State) (k : Nat) (i : Instr) (a : EvArg) : (s.post i a).relay k = s.relay k := rfl
@[simp] theorem State.queue_post_other (s : State) (k : Nat) (i : Instr) (a : EvArg) : (s.post i a).queue k = s.queue k := rfl
@[simp] theorem State.port_post_other (s : State) (k : Nat) (i : Instr) (a : EvArg) : (s.post i a).port k = s.port k := rfl
@[simp] theorem State.part_post_other (s : State) (k : Nat) (i : Instr) (a : EvArg) : (s.post i a).part k = s.part k := rfl
@[simp] theorem State.dbg_post_other (s : State) (k : Nat) (i : Instr) (a : EvArg) : (s.post i a).dbg k = s.dbg k := rfl
@[simp] theorem State.lport_post_other (s : State) (k : Nat) (i : Instr) (a : EvArg) : (s.post i a).lport k = s.lport k := rfl
@[simp] theorem State.col_post_other (s : State) (k : Nat) (i : Instr) (a : EvArg) : (s.post i a).col k = s.col k := rfl
@[simp] theorem State.me_post (s : State) (i : Instr) (a : EvArg) : (s.post i a).me = s.me := rfl
@[simp] theorem State.ctx_emit_other (s : State) (k : Nat) (a : Answer) : (s.emit a).ctx k = s.ctx k := rfl
@[simp] theorem State.cell_emit_other (s : State) (k : Nat) (a : Answer) : (s.emit a).cell k = s.cell k := rfl
@[simp] theorem State.chan_emit_other (s : State) (k : Nat) (a : Answer) : (s.emit a).chan k = s.chan k := rfl
@[simp] theorem State.relay_emit_other (s : State) (k : Nat) (a : Answer) : (s.emit a).relay k = s.relay k := rfl
@[simp] theorem State.queue_emit_other (s : State) (k : Nat) (a : Answer) : (s.emit a).queue k = s.queue k := rfl
@[simp] theorem State.port_emit_other (s : State) (k : Nat) (a : Answer) : (s.emit a).port k = s.port k := rfl
@[simp] theorem State.part_emit_other (s : State) (k : Nat) (a : Answer) : (s.emit a).part k = s.part k := rfl
@[simp] theorem State.dbg_emit_other (s : State) (k : Nat) (a : Answer) : (s.emit a).dbg k = s.dbg k := rfl
@[simp] theorem State.lport_emit_other (s : State) (k : Nat) (a : Answer) : (s.emit a).lport k = s.lport k := rfl
@[simp] theorem State.col_emit_other (s : State) (k : Nat) (a : Answer) : (s.emit a).col k = s.col k := rfl
@[simp] theorem State.me_emit (s : State) (a : Answer) : (s.emit a).me = s.me := rfl
@[simp] theorem State.ctx_stall_other (s : State) (k : Nat) : (s.stall).ctx k = s.ctx k := rfl
@[simp] theorem State.cell_stall_other (s : State) (k : Nat) : (s.stall).cell k = s.cell k := rfl
@[simp] theorem State.chan_stall_other (s : State) (k : Nat) : (s.stall).chan k = s.chan k := rfl
@[simp] theorem State.relay_stall_other (s : State) (k : Nat) : (s.stall).relay k = s.relay k := rfl
@[simp] theorem State.queue_stall_other (s : State) (k : Nat) : (s.stall).queue k = s.queue k := rfl
@[simp] theorem State.port_stall_other (s : State) (k : Nat) : (s.stall).port k = s.port k := rfl
@[simp] theorem State.part_stall_other (s : State) (k : Nat) : (s.stall).part k = s.part k := rfl
@[simp] theorem State.dbg_stall_other (s : State) (k : Nat) : (s.stall).dbg k = s.dbg k := rfl
@[simp] theorem State.lport_stall_other (s : State) (k : Nat) : (s.stall).lport k = s.lport k := rfl
@[simp] theorem State.col_stall_other (s : State) (k : Nat) : (s.stall).col k = s.col k := rfl
@[simp] theorem State.ctx_moved_other (s : State) (k : Nat) : (s.moved).ctx k = s.ctx k := rfl
@[simp] theorem State.cell_moved_other (s : State) (k : Nat) : (s.moved).cell k = s.cell k := rfl
@[simp] theorem State.chan_moved_other (s : State) (k : Nat) : (s.moved).chan k = s.chan k := rfl
@[simp] theorem State.relay_moved_other (s : State) (k : Nat) : (s.moved).relay k = s.relay k := rfl
@[simp] theorem State.queue_moved_other (s : State) (k : Nat) : (s.moved).queue k = s.queue k := rfl
@[simp] theorem State.port_moved_other (s : State) (k : Nat) : (s.moved).port k = s.port k := rfl
@[simp] theorem State.part_moved_other (s : State) (k : Nat) : (s.moved).part k = s.part k := rfl
@[simp] theorem State.dbg_moved_other (s : State) (k : Nat) : (s.moved).dbg k = s.dbg k := rfl
@[simp] theorem State.lport_moved_other (s : State) (k : Nat) : (s.moved).lport k = s.lport k := rfl
@[simp] theorem State.col_moved_other (s : State) (k : Nat) : (s.moved).col k = s.col k := rfl
@[simp] theorem State.me_stall (s : State) : s.stall.me = s.me := rfl
@[simp] theorem State.me_moved (s : State) : s.moved.me = s.me := rfl
@[simp] theorem State.stall_flow (s : State) : s.stall.iss = { s.iss with flow := .stalled } := rfl
@[simp] theorem State.moved_flow (s : State) : s.moved.iss = { s.iss with flow := .moved } := rfl
@[simp] theorem State.post_agenda (s : State) (i : Instr) (a : EvArg) : (s.post i a).agenda = s.agenda ++ [(i, a)] := rfl
@[simp] theorem State.emit_outbox (s : State) (a : Answer) : (s.emit a).outbox = s.outbox ++ [a] := rfl

-- Registers of a context.

theorem physReg_ne_zero (k : BitVec 4) (d : Reg) (h : d ≠ 0) : physReg k d ≠ 0 := by
  unfold physReg
  split
  · revert k d; decide
  · exact h

theorem Ctx.reg_zero (c : Ctx) : c.reg 0 = 0 := if_pos rfl

theorem Ctx.reg_setReg (c : Ctx) (d r : Reg) (v : Word) : (c.setReg d v).reg r = if r = d ∧ d ≠ 0 then v else c.reg r := by
  unfold Ctx.setReg
  by_cases hd : d = 0
  · rw [if_pos hd, if_neg (fun h => h.2 hd)]
  · rw [if_neg hd]
    unfold Ctx.reg
    by_cases hr : r = 0
    · rw [if_pos hr, if_pos hr, if_neg]
      rintro ⟨h, _⟩
      exact hd (h ▸ hr)
    · rw [if_neg hr, if_neg hr]
      simp only [Vector.getElem_set]
      by_cases h : r = d
      · subst h; rw [if_pos rfl, if_pos ⟨rfl, hr⟩]
      · rw [if_neg (fun e => h (BitVec.eq_of_toNat_eq e.symm)), if_neg (fun e => h e.1)]

theorem Ctx.setReg_rest (c : Ctx) (d : Reg) (v : Word) : c.setReg d v = { c with regs := (c.setReg d v).regs } := by
  unfold Ctx.setReg; split <;> rfl

theorem Ctx.setPred_rest (c : Ctx) (p : BitVec 3) (v : Bool) : c.setPred p v = { c with preds := (c.setPred p v).preds } := by
  unfold Ctx.setPred; split <;> rfl

theorem onePred (p q : BitVec 3) : ((1#8 <<< p.toNat).getLsbD q.toNat) = decide (p = q) := by revert p q; decide
theorem Ctx.pred_setPred (c : Ctx) (p q : BitVec 3) (v : Bool) :
    (c.setPred p v).pred q = if q = p ∧ p ≠ 0 then v else c.pred q := by
  have hb : q.toNat < 8 := q.isLt
  have hk : (if v then c.preds ||| (1#8 <<< p.toNat) else c.preds &&& ~~~(1#8 <<< p.toNat)).getLsbD q.toNat =
      if q = p then v else c.preds.getLsbD q.toNat := by
    cases v <;> by_cases h : q = p <;>
      simp only [if_true, Bool.false_eq_true, if_false, BitVec.getLsbD_or, BitVec.getLsbD_and, BitVec.getLsbD_not, onePred, h,
        hb, decide_true, Bool.true_and, Bool.or_true, Bool.and_false, Bool.not_true, Bool.not_false] <;>
      simp [Ne.symm h, h]
  unfold Ctx.setPred Ctx.pred
  by_cases hp : p = 0
  · subst hp; simp
  · simp only [if_neg hp, hk]
    by_cases hq : q = p
    · subst hq; simp; grind
    · simp [hq]

theorem Ctx.mask_setMask (c : Ctx) (m n : BitVec 3) (v : BitVec 48) : (c.setMask m v).mask n = if m = n then v else c.mask n := by
  unfold Ctx.setMask Ctx.mask
  simp only [Vector.getElem_set]
  by_cases h : m = n
  · subst h; simp
  · rw [if_neg h, if_neg (fun e => h (BitVec.eq_of_toNat_eq e))]

theorem Ctx.row_eq (c : Ctx) (k : Nat) : c.row k = if h : k < 48 then c.grid[k] else 0 := by
  unfold Ctx.row
  by_cases h : k < 48
  · rw [dif_pos h]; simp only [Vector.getD, h]; simp [Array.getD, h]
  · rw [dif_neg h]; simp only [Vector.getD]; simp [Array.getD, h]
theorem Ctx.row_setRow (c : Ctx) (i k : Nat) (v : Row) : (c.setRow i v).row k = if i = k ∧ i < 48 then v else c.row k := by
  simp only [Ctx.row_eq, Ctx.setRow, Vector.getElem_setIfInBounds]
  grind

theorem Ctx.teth_setTeth (c : Ctx) (a b : BitVec 4) (v : Tether) : (c.setTeth a v).teth b = if a = b then v else c.teth b := by
  unfold Ctx.setTeth Ctx.teth
  simp only [Vector.getElem_set]
  by_cases h : a = b
  · subst h; simp
  · rw [if_neg h, if_neg (fun e => h (BitVec.eq_of_toNat_eq e))]

theorem Ctx.mh_setMh (c : Ctx) (a b : BitVec 4) (v : Handle) : (c.setMh a v).mh b = if a = b then v else c.mh b := by
  unfold Ctx.setMh Ctx.mh
  simp only [Vector.getElem_set]
  by_cases h : a = b
  · subst h; simp
  · rw [if_neg h, if_neg (fun e => h (BitVec.eq_of_toNat_eq e))]

theorem Ctx.acc_setAcc (c : Ctx) (a b : BitVec 2) (v : Acc) : (c.setAcc a v).acc b = if a = b then v else c.acc b := by
  unfold Ctx.setAcc Ctx.acc
  simp only [Vector.getElem_set]
  by_cases h : a = b
  · subst h; simp
  · rw [if_neg h, if_neg (fun e => h (BitVec.eq_of_toNat_eq e))]

theorem Ctx.queue_setQueue (c : Ctx) (a b : QSel) (v : Queue) : (c.setQueue a v).queue b = if a = b then v else c.queue b := by
  obtain ⟨sa, qa⟩ := a
  obtain ⟨sb, qb⟩ := b
  have hn : qa ≠ qb → ¬ qa.toNat = qb.toNat := fun h e => h (BitVec.eq_of_toNat_eq e)
  by_cases h : qa = qb
  · subst h
    cases sa <;> cases sb <;> simp [Ctx.setQueue, Ctx.queue, Ctx.setSq, Ctx.sq, Ctx.setLq, Ctx.lq]
  · cases sa <;> cases sb <;> simp [Ctx.setQueue, Ctx.queue, Ctx.setSq, Ctx.sq, Ctx.setLq, Ctx.lq, h, hn h, Vector.getElem_set]

end Sys2Proof.Machine
end

