-- ==== Sys2Proof/Laws/Claims.lean ====
section
/-! SUPPORT. The predicates of the statements, reached from what the meanings answer. -/

set_option linter.unusedSimpArgs false

namespace Sys2Proof.Machine

theorem SameBytes.rfl_ (s : State) : SameBytes s s := ⟨fun _ _ => rfl, fun _ _ _ => rfl, fun _ _ => rfl, fun _ _ _ => rfl⟩

theorem OnlyMine.refl (s : State) : OnlyMine s s := ⟨rfl, rfl, fun _ _ => rfl, SameBytes.rfl_ s⟩

theorem OnlyMine.modMe (s : State) (f : Ctx → Ctx) : OnlyMine s (s.modMe f) := by
  refine ⟨rfl, rfl, fun n h => ?_, ⟨fun _ _ => rfl, fun _ _ _ => rfl, fun _ _ => rfl, fun _ _ _ => rfl⟩⟩
  simp [State.modMe, Ne.symm h]

/-- How an issue ends is outside what `OnlyMine` compares. -/
theorem OnlyMine.flow {s t : State} (h : OnlyMine s t) (fl : Flow) : OnlyMine s { t with iss := { t.iss with flow := fl } } := by
  obtain ⟨h1, h2, h3, h4⟩ := h
  refine ⟨?_, h2, h3, ⟨h4.1, h4.2.1, h4.2.2.1, h4.2.2.2⟩⟩
  rw [h1]

theorem OnlyMine.trans {s t u : State} (h : OnlyMine s t) (k : OnlyMine t u) : OnlyMine s u := by
  obtain ⟨h1, h2, h3, h4, h5, h6, h7⟩ := h
  obtain ⟨k1, k2, k3, k4, k5, k6, k7⟩ := k
  refine ⟨?_, k2.trans h2, fun n hn => (k3 n (by rwa [h2])).trans (h3 n hn),
    fun a b => (k4 a b).trans (h4 a b), fun a b c => (k5 a b c).trans (h5 a b c), fun a b => (k6 a b).trans (h6 a b),
    fun a b c => (k7 a b c).trans (h7 a b c)⟩
  rw [k1, h1]

/-- Writing the scalar a field names: that scalar and nothing else. -/
theorem setScalar_spec (s : State) (d : Reg) (v : Word) :
    OnlyMine s (s.setScalar d v) ∧ (s.setScalar d v).iss = s.iss ∧
    (s.setScalar d v).me = { s.me with regs := (s.setScalar d v).me.regs } ∧
    (d ≠ 0 → (s.setScalar d v).me.reg (physReg s.iss.rrb d) = v) ∧
    ∀ r, d = 0 ∨ r ≠ physReg s.iss.rrb d → (s.setScalar d v).me.reg r = s.me.reg r := by
  unfold State.setScalar
  by_cases hd : d = 0
  · rw [if_pos hd]
    exact ⟨OnlyMine.refl s, rfl, rfl, fun h => absurd hd h, fun _ _ => rfl⟩
  · rw [if_neg hd]
    refine ⟨OnlyMine.modMe _ _, rfl, ?_, fun _ => ?_, fun r hr => ?_⟩
    · rw [State.me_modMe]; exact Ctx.setReg_rest _ _ _
    · rw [State.me_modMe, Ctx.reg_setReg, if_pos ⟨rfl, physReg_ne_zero _ _ hd⟩]
    · rw [State.me_modMe, Ctx.reg_setReg, if_neg]
      rintro ⟨e, _⟩
      exact hr.elim hd (fun h => h e)

theorem WritesReg.of_eq {i : Instr} {d : Reg} {v : State → Word} (h : ∀ s, exec i s = .next (s.setScalar d (v s))) :
    WritesReg i d v := fun s => ⟨_, h s, setScalar_spec s d (v s)⟩

theorem WritesRegIf.of_eq {ok : State → Prop} {i : Instr} {d : Reg} {v : State → Word}
    (h : ∀ s, ok s → exec i s = .next (s.setScalar d (v s))) : WritesRegIf ok i d v :=
  fun s hs => ⟨_, h s hs, setScalar_spec s d (v s)⟩

/-- Writing a predicate: that predicate and nothing else. -/
theorem WritesPred.of_eq {i : Instr} {p : BitVec 3} {v : State → Bool} (h : ∀ s, exec i s = .next (s.setPred p (v s))) :
    WritesPred i p v := by
  intro s
  refine ⟨_, h s, OnlyMine.modMe _ _, rfl, ?_, rfl, fun hp => ?_, fun q hq => ?_⟩
  · rw [State.setPred, State.me_modMe]; exact Ctx.setPred_rest _ _ _
  · rw [State.setPred, State.me_modMe, Ctx.pred_setPred, if_pos ⟨rfl, hp⟩]
  · rw [State.setPred, State.me_modMe, Ctx.pred_setPred, if_neg]
    rintro ⟨e, h⟩
    exact hq.elim h (fun k => k e)

/-- A meaning that changes the thread's context alone. -/
theorem ChangesMe.of_mod {ok : State → Prop} {i : Instr} {f : State → Ctx → Ctx}
    (h : ∀ s, ok s → exec i s = .next (s.modMe (f s))) : ChangesMe ok i f :=
  fun s hs => ⟨_, h s hs, OnlyMine.modMe _ _, State.me_modMe _ _⟩

/-- The same where it sets the PC. -/
theorem ChangesMe.of_moved {ok : State → Prop} {i : Instr} {f : State → Ctx → Ctx}
    (h : ∀ s, ok s → exec i s = .next (s.modMe (f s)).moved) : ChangesMe ok i f :=
  fun s hs => ⟨_, h s hs, (OnlyMine.modMe _ _).flow .moved, State.me_modMe _ _⟩

end Sys2Proof.Machine
end

