-- ==== Sys2Proof/Tests/Slice0.lean ====
section
/-! SUPPORT. The model's own tests: an instruction's word for every encoded constructor, written from the field layouts of 03 R32
to R47; ill-formed terms for each check of `Instr.wf`; worked values of the spec; and, for every statement with hypotheses, a
witness that meets them. -/
namespace Sys2Proof.Tests
open Sys2Proof Sys2Proof.Machine
set_option Elab.async false

/-! Every encoded instruction, one theorem per family: operation and function codes from R45, fields from R32 to R36, R46 and R47;
the registers 4 to 9 stand in fields D, A, B, C, with values in the reserved fields of some words. -/

theorem test_decode_alu :
    decode 0x0101_461C_0000_0000#64 = .ok (.add 5 6 7) ∧
    decode 0x0101_461C_0010_0000#64 = .ok (.sub 5 6 7) ∧
    decode 0x0101_461C_0020_0000#64 = .ok (.mul 5 6 7) ∧
    decode 0x0101_461C_0030_0000#64 = .ok (.mulh 5 6 7) ∧
    decode 0x0101_461C_0040_0000#64 = .ok (.mulhu 5 6 7) ∧
    decode 0x0101_461C_0050_0000#64 = .ok (.div 5 6 7) ∧
    decode 0x0101_461C_0060_0000#64 = .ok (.divu 5 6 7) ∧
    decode 0x0101_461C_0070_0000#64 = .ok (.rem 5 6 7) ∧
    decode 0x0101_461C_0080_0000#64 = .ok (.remu 5 6 7) ∧
    decode 0x0101_461C_0100_0000#64 = .ok (.and 5 6 7) ∧
    decode 0x0101_461C_0110_0000#64 = .ok (.or 5 6 7) ∧
    decode 0x0101_461C_0120_0000#64 = .ok (.xor 5 6 7) ∧
    decode 0x0101_461C_0130_0000#64 = .ok (.andn 5 6 7) ∧
    decode 0x0101_461C_0180_0000#64 = .ok (.shl 5 6 7) ∧
    decode 0x0101_461C_0190_0000#64 = .ok (.shr 5 6 7) ∧
    decode 0x0101_461C_01A0_0000#64 = .ok (.sra 5 6 7) ∧
    decode 0x0101_461C_01B0_0000#64 = .ok (.rot 5 6 7) ∧
    decode 0x0101_461C_0200_0000#64 = .ok (.min 5 6 7) ∧
    decode 0x0101_461C_0210_0000#64 = .ok (.max 5 6 7) ∧
    decode 0x0101_461C_0220_0000#64 = .ok (.minu 5 6 7) ∧
    decode 0x0101_461C_0230_0000#64 = .ok (.maxu 5 6 7) ∧
    decode 0x0101_4600_0280_0000#64 = .ok (.clz 5 6) ∧
    decode 0x0101_4600_0290_0000#64 = .ok (.popc 5 6) ∧
    decode 0x0101_461C_9300_0000#64 = .ok (.madd 5 6 7 9) ∧
    decode 0x0101_461C_3310_0000#64 = .ok (.sel 5 6 7 3) ∧
    decode 0x0101_461C_2380_0000#64 = .ok (.addx 5 6 7 2) := by
  refine ⟨?_, ?_, ?_, ?_, ?_, ?_, ?_, ?_, ?_, ?_, ?_, ?_, ?_, ?_, ?_, ?_, ?_, ?_, ?_, ?_, ?_, ?_, ?_, ?_, ?_, ?_⟩ <;> rfl

theorem test_decode_alui :
    decode 0x0200_FE00_FFFF_FFFE#64 = .ok (.addi 3 62 0xFFFFFFFE) ∧
    decode 0x0200_FE10_FFFF_FFFE#64 = .ok (.andi 3 62 0xFFFFFFFE) ∧
    decode 0x0200_FE11_FFFF_FFFE#64 = .ok (.ori 3 62 0xFFFFFFFE) ∧
    decode 0x0200_FE12_FFFF_FFFE#64 = .ok (.xori 3 62 0xFFFFFFFE) ∧
    decode 0x0200_FE18_FFFF_FFC5#64 = .ok (.shli 3 62 5) ∧
    decode 0x0200_FE19_FFFF_FFC5#64 = .ok (.shri 3 62 5) ∧
    decode 0x0200_FE1A_FFFF_FFC5#64 = .ok (.srai 3 62 5) ∧
    decode 0x0200_FE1B_FFFF_FFC5#64 = .ok (.roti 3 62 5) ∧
    decode 0x0200_C040_0000_00C0#64 = .ok (.li 3 0xC0) ∧
    decode 0x0200_C041_0000_00C0#64 = .ok (.lih 3 0xC0) ∧
    decode 0x0200_C042_0000_00C0#64 = .ok (.liz 3 0xC0) := by
  refine ⟨?_, ?_, ?_, ?_, ?_, ?_, ?_, ?_, ?_, ?_, ?_⟩ <;> rfl

theorem test_decode_cmp :
    decode 0x030F_4108_0000_0000#64 = .ok (.cmpEq 5 1 2) ∧
    decode 0x030F_4108_0010_0000#64 = .ok (.cmpNe 5 1 2) ∧
    decode 0x030F_4108_0020_0000#64 = .ok (.cmpLt 5 1 2) ∧
    decode 0x030F_4108_0030_0000#64 = .ok (.cmpLe 5 1 2) ∧
    decode 0x030F_4108_0040_0000#64 = .ok (.cmpLtu 5 1 2) ∧
    decode 0x030F_4108_0050_0000#64 = .ok (.cmpLeu 5 1 2) ∧
    decode 0x030F_4108_0200_0000#64 = .ok (.pand 5 1 2) ∧
    decode 0x030F_4108_0210_0000#64 = .ok (.por 5 1 2) ∧
    decode 0x030F_4108_0220_0000#64 = .ok (.pxor 5 1 2) ∧
    decode 0x030F_4108_0230_0000#64 = .ok (.pandn 5 1 2) ∧
    decode 0x0401_8900_0000_0010#64 = .ok (.cmpiEq 6 9 0x10) ∧
    decode 0x0401_8901_0000_0010#64 = .ok (.cmpiNe 6 9 0x10) ∧
    decode 0x0401_8902_0000_0010#64 = .ok (.cmpiLt 6 9 0x10) ∧
    decode 0x0401_8903_0000_0010#64 = .ok (.cmpiLe 6 9 0x10) ∧
    decode 0x0401_8904_0000_0010#64 = .ok (.cmpiLtu 6 9 0x10) ∧
    decode 0x0401_8905_0000_0010#64 = .ok (.cmpiLeu 6 9 0x10) := by
  refine ⟨?_, ?_, ?_, ?_, ?_, ?_, ?_, ?_, ?_, ?_, ?_, ?_, ?_, ?_, ?_, ?_⟩ <;> rfl

theorem test_decode_movx :
    decode 0x0501_0518_7000_0000#64 = .ok (.mov 4 5) ∧
    decode 0x0501_0518_7010_0000#64 = .ok (.pget 4) ∧
    decode 0x0501_0518_7020_0000#64 = .ok (.pput 5) ∧
    decode 0x0501_0518_7030_0000#64 = .ok (.vget 4 5 7) ∧
    decode 0x0501_0518_7040_0000#64 = .ok (.vput 4 5 7) ∧
    decode 0x0501_0518_7050_0000#64 = .ok (.keel 4) := by
  refine ⟨?_, ?_, ?_, ?_, ?_, ?_⟩ <;> rfl

theorem test_decode_branch :
    decode 0x1002_4000_8000_0000#64 = .ok (.br 0x80000000) ∧
    decode 0x1002_4001_8000_0000#64 = .ok (.call 0x80000000) ∧
    decode 0x1002_4002_8000_0000#64 = .ok (.jmp 9) ∧
    decode 0x1002_4003_8000_0000#64 = .ok (.callr 9) ∧
    decode 0x1002_4004_8000_0000#64 = .ok (.ret 9) ∧
    decode 0x1101_4000_0000_0003#64 = .ok (.loop 5 3) ∧
    decode 0x1201_4000_0000_0003#64 = .ok (.loopp 5 0 3) ∧
    decode 0x1300_0000_0000_0000#64 = .ok (.lbrk) ∧
    decode 0x1300_0001_0000_0000#64 = .ok (.lnext) := by
  refine ⟨?_, ?_, ?_, ?_, ?_, ?_, ?_, ?_, ?_⟩ <;> rfl

theorem test_decode_thread :
    decode 0x1400_4708_3001_2345#64 = .ok (.exit) ∧
    decode 0x1400_4708_3011_2345#64 = .ok (.yield) ∧
    decode 0x1400_4708_3021_2345#64 = .ok (.sleept 7) ∧
    decode 0x1400_4708_3031_2345#64 = .ok (.sleepd 7) := by
  refine ⟨?_, ?_, ?_, ?_⟩ <;> rfl

theorem test_decode_queue :
    decode 0x2002_0000_0000_0906#64 = .ok (.qadv ⟨true, 2⟩ (.imm 9)) ∧
    decode 0x2002_0000_0010_0906#64 = .ok (.qstat 8 ⟨true, 2⟩) ∧
    decode 0x2002_0000_0020_0906#64 = .ok (.qcfg 0 ⟨true, 2⟩) ∧
    decode 0x2002_0000_0030_0906#64 = .ok (.qclr ⟨true, 2⟩) ∧
    decode 0x2000_0B00_0000_0001#64 = .ok (.qadv ⟨false, 1⟩ (.reg 11)) ∧
    decode 0x2101_4C91_A500_0000#64 = .ok (.ldq ⟨2, 5, 6, .reg 9, 5⟩) ∧
    decode 0x2101_4C91_A501_0000#64 = .ok (.stq ⟨2, 5, 6, .reg 9, 5⟩) ∧
    decode 0x2101_4C01_A502_8001#64 = .ok (.ldmq ⟨2, 3, 5, 6, .imm 0x8001, 5⟩) ∧
    decode 0x2101_4C01_A503_8001#64 = .ok (.stmq ⟨2, 3, 5, 6, .imm 0x8001, 5⟩) ∧
    decode 0x2101_4C9D_6704_0000#64 = .ok (.ldrq ⟨2, 5, 5, .reg 9, 7⟩) ∧
    decode 0x2101_4C9D_6705_0000#64 = .ok (.strq ⟨2, 5, 5, .reg 9, 7⟩) := by
  refine ⟨?_, ?_, ?_, ?_, ?_, ?_, ?_, ?_, ?_, ?_, ?_⟩ <;> rfl

theorem test_decode_access :
    decode 0x2201_0506_FFFF_FFF8#64 = .ok (.lds ⟨4, 5, 2, true, 0xFFFFFFF8⟩) ∧
    decode 0x2301_0503_0000_0010#64 = .ok (.sts ⟨4, 5, 3, 16⟩) ∧
    decode 0x2401_087E_FFFF_FE01#64 = .ok (.ldm ⟨4, 2, 7, 3, 2, 0xFFFFFE, true⟩) ∧
    decode 0x2501_0873_0000_080A#64 = .ok (.stm ⟨4, 2, 7, 0, 3, 8, some .part⟩) := by
  refine ⟨?_, ?_, ?_, ?_⟩ <;> rfl

theorem test_decode_amo :
    decode 0x2601_461C_80E3_8000#64 = .ok (.amoAdd ⟨5, 3, 6, 7, true, .sys, true, false⟩) ∧
    decode 0x2701_461C_8080_4000#64 = .ok (.amosAdd ⟨5, 6, 7, false, false, true⟩) ∧
    decode 0x2601_461C_81E3_8000#64 = .ok (.amoMin ⟨5, 3, 6, 7, true, .sys, true, false⟩) ∧
    decode 0x2701_461C_8180_4000#64 = .ok (.amosMin ⟨5, 6, 7, false, false, true⟩) ∧
    decode 0x2601_461C_82E3_8000#64 = .ok (.amoMax ⟨5, 3, 6, 7, true, .sys, true, false⟩) ∧
    decode 0x2701_461C_8280_4000#64 = .ok (.amosMax ⟨5, 6, 7, false, false, true⟩) ∧
    decode 0x2601_461C_83E3_8000#64 = .ok (.amoMinu ⟨5, 3, 6, 7, true, .sys, true, false⟩) ∧
    decode 0x2701_461C_8380_4000#64 = .ok (.amosMinu ⟨5, 6, 7, false, false, true⟩) ∧
    decode 0x2601_461C_84E3_8000#64 = .ok (.amoMaxu ⟨5, 3, 6, 7, true, .sys, true, false⟩) ∧
    decode 0x2701_461C_8480_4000#64 = .ok (.amosMaxu ⟨5, 6, 7, false, false, true⟩) ∧
    decode 0x2601_461C_85E3_8000#64 = .ok (.amoAnd ⟨5, 3, 6, 7, true, .sys, true, false⟩) ∧
    decode 0x2701_461C_8580_4000#64 = .ok (.amosAnd ⟨5, 6, 7, false, false, true⟩) ∧
    decode 0x2601_461C_86E3_8000#64 = .ok (.amoOr ⟨5, 3, 6, 7, true, .sys, true, false⟩) ∧
    decode 0x2701_461C_8680_4000#64 = .ok (.amosOr ⟨5, 6, 7, false, false, true⟩) ∧
    decode 0x2601_461C_87E3_8000#64 = .ok (.amoXor ⟨5, 3, 6, 7, true, .sys, true, false⟩) ∧
    decode 0x2701_461C_8780_4000#64 = .ok (.amosXor ⟨5, 6, 7, false, false, true⟩) ∧
    decode 0x2601_461C_88E3_8000#64 = .ok (.amoSwap ⟨5, 3, 6, 7, true, .sys, true, false⟩) ∧
    decode 0x2701_461C_8880_4000#64 = .ok (.amosSwap ⟨5, 6, 7, false, false, true⟩) ∧
    decode 0x2601_461C_89E3_8000#64 = .ok (.amoCas ⟨5, 3, 6, 7, true, .sys, true, false⟩ 8) ∧
    decode 0x2701_461C_8980_4000#64 = .ok (.amosCas ⟨5, 6, 7, false, false, true⟩ 8) := by
  refine ⟨?_, ?_, ?_, ?_, ?_, ?_, ?_, ?_, ?_, ?_, ?_, ?_, ?_, ?_, ?_, ?_, ?_, ?_, ?_, ?_⟩ <;> rfl

theorem test_decode_xlat :
    decode 0x3002_0724_0000_0023#64 = .ok (.teth 3 7 .exec) ∧
    decode 0x3002_0724_0010_0023#64 = .ok (.trenew 3) ∧
    decode 0x3002_0724_0020_0023#64 = .ok (.trel 3) ∧
    decode 0x3002_0724_0030_0023#64 = .ok (.tstat 8 3) ∧
    decode 0x3002_0724_0040_0023#64 = .ok (.rprobe 7 9 true) := by
  refine ⟨?_, ?_, ?_, ?_, ?_⟩ <;> rfl

theorem test_decode_vfp :
    decode 0x4000_1C3E_4100_A000#64 = .ok (.vadd ⟨.row 1, .from (.queue 0 1 true), .from (.bcast 4), .f16, .rdn, true⟩) ∧
    decode 0x4000_1C3E_4101_A000#64 = .ok (.vsub ⟨.row 1, .from (.queue 0 1 true), .from (.bcast 4), .f16, .rdn, true⟩) ∧
    decode 0x4000_1C3E_4102_A000#64 = .ok (.vmul ⟨.row 1, .from (.queue 0 1 true), .from (.bcast 4), .f16, .rdn, true⟩) ∧
    decode 0x4000_1C3E_4103_A000#64 = .ok (.vfma ⟨.row 1, .from (.queue 0 1 true), .from (.bcast 4), .f16, .rdn, true⟩) ∧
    decode 0x4000_1C3E_4104_A000#64 = .ok (.vfnma ⟨.row 1, .from (.queue 0 1 true), .from (.bcast 4), .f16, .rdn, true⟩) ∧
    decode 0x4000_1C3E_4108_A000#64 = .ok (.vmax ⟨.row 1, .from (.queue 0 1 true), .from (.bcast 4), .f16⟩) ∧
    decode 0x4000_1C3E_4109_A000#64 = .ok (.vmin ⟨.row 1, .from (.queue 0 1 true), .from (.bcast 4), .f16⟩) ∧
    decode 0x4000_1C3E_410A_A000#64 = .ok (.vabs ⟨.row 1, .from (.queue 0 1 true), .f16⟩) ∧
    decode 0x4000_1C3E_410B_A000#64 = .ok (.vneg ⟨.row 1, .from (.queue 0 1 true), .f16⟩) ∧
    decode 0x4000_1C3E_410C_A000#64 = .ok (.vcpy ⟨.row 1, .from (.queue 0 1 true), .f16⟩) ∧
    decode 0x4000_1C3E_4110_A000#64 = .ok (.vrcp ⟨.row 1, .from (.queue 0 1 true), .f16, .rdn, true⟩) ∧
    decode 0x4000_1C3E_4111_A000#64 = .ok (.vrsq ⟨.row 1, .from (.queue 0 1 true), .f16, .rdn, true⟩) ∧
    decode 0x4000_1C3E_4112_A000#64 = .ok (.vexp2 ⟨.row 1, .from (.queue 0 1 true), .f16, .rdn, true⟩) ∧
    decode 0x4000_1C3E_4113_A000#64 = .ok (.vlog2 ⟨.row 1, .from (.queue 0 1 true), .f16, .rdn, true⟩) ∧
    decode 0x4000_1C3E_4114_A000#64 = .ok (.vsqrt ⟨.row 1, .from (.queue 0 1 true), .f16, .rdn, true⟩) ∧
    decode 0x4000_1C3E_4115_A000#64 = .ok (.vdiv ⟨.row 1, .from (.queue 0 1 true), .from (.bcast 4), .f16, .rdn, true⟩) ∧
    decode 0x4000_F00C_7003_1000#64 = .ok (.vfma ⟨.row 15, .held, .from (.queue 0 3 true), .f32, .rne, false⟩) := by
  refine ⟨?_, ?_, ?_, ?_, ?_, ?_, ?_, ?_, ?_, ?_, ?_, ?_, ?_, ?_, ?_, ?_, ?_⟩ <;> rfl

theorem test_decode_vint :
    decode 0x4104_5028_3600_2000#64 = .ok (.viadd ⟨.col 5, .from (.row 2), .from (.diag 3), .i16, true⟩) ∧
    decode 0x4104_5028_3601_2000#64 = .ok (.visub ⟨.col 5, .from (.row 2), .from (.diag 3), .i16, true⟩) ∧
    decode 0x4104_5028_3602_2000#64 = .ok (.vimul ⟨.col 5, .from (.row 2), .from (.diag 3), .i16, true⟩) ∧
    decode 0x4104_5028_3610_2000#64 = .ok (.vand ⟨.col 5, .from (.row 2), .from (.diag 3), .i16⟩) ∧
    decode 0x4104_5028_3611_2000#64 = .ok (.vor ⟨.col 5, .from (.row 2), .from (.diag 3), .i16⟩) ∧
    decode 0x4104_5028_3612_2000#64 = .ok (.vxor ⟨.col 5, .from (.row 2), .from (.diag 3), .i16⟩) ∧
    decode 0x4104_5028_3618_2000#64 = .ok (.vshl ⟨.col 5, .from (.row 2), .from (.diag 3), .i16⟩) ∧
    decode 0x4104_5028_3619_2000#64 = .ok (.vshr ⟨.col 5, .from (.row 2), .from (.diag 3), .i16⟩) ∧
    decode 0x4104_5028_361A_2000#64 = .ok (.vsra ⟨.col 5, .from (.row 2), .from (.diag 3), .i16⟩) ∧
    decode 0x4104_5028_3620_2000#64 = .ok (.vimin ⟨.col 5, .from (.row 2), .from (.diag 3), .i16⟩) ∧
    decode 0x4104_5028_3621_2000#64 = .ok (.vimax ⟨.col 5, .from (.row 2), .from (.diag 3), .i16⟩) := by
  refine ⟨?_, ?_, ?_, ?_, ?_, ?_, ?_, ?_, ?_, ?_, ?_⟩ <;> rfl

theorem test_decode_vcmp :
    decode 0x4200_3010_2200_0800#64 = .ok (.vcmpEq ⟨3, .from (.row 1), .held, .bf16⟩) ∧
    decode 0x4200_3010_2201_0800#64 = .ok (.vcmpNe ⟨3, .from (.row 1), .held, .bf16⟩) ∧
    decode 0x4200_3010_2202_0800#64 = .ok (.vcmpLt ⟨3, .from (.row 1), .held, .bf16⟩) ∧
    decode 0x4200_3010_2203_0800#64 = .ok (.vcmpLe ⟨3, .from (.row 1), .held, .bf16⟩) ∧
    decode 0x4200_3010_2204_0800#64 = .ok (.vcmpUn ⟨3, .from (.row 1), .held, .bf16⟩) ∧
    decode 0x4200_3010_2508_0800#64 = .ok (.vcmpIeq ⟨3, .from (.row 1), .held, .i32⟩) ∧
    decode 0x4200_3010_2509_0800#64 = .ok (.vcmpIlt ⟨3, .from (.row 1), .held, .i32⟩) ∧
    decode 0x4200_3010_250A_0800#64 = .ok (.vcmpIltu ⟨3, .from (.row 1), .held, .i32⟩) := by
  refine ⟨?_, ?_, ?_, ?_, ?_, ?_, ?_, ?_⟩ <;> rfl

theorem test_decode_vconv :
    decode 0x4300_1020_0500_4000#64 = .ok (.vcvt ⟨.row 1, .from (.row 2), .i32, .f32, .rz, false⟩) ∧
    decode 0x4300_4080_0C01_0002#64 = .ok (.vqnt ⟨.row 4, .row 8, .mxf8e4, .bf16⟩) ∧
    decode 0x4300_4080_9202_C00F#64 = .ok (.vdq ⟨.row 4, .from (.row 8), .from (.row 9), .bf16, .pni, 0, false, .rup, false⟩) ∧
    decode 0x4400_2010_0100_E000#64 = .ok (.vsum ⟨.row 2, .from (.row 1), .f16, .rup, true⟩) ∧
    decode 0x4400_2010_0501_0000#64 = .ok (.vrmax ⟨.row 2, .from (.row 1), .i32⟩) ∧
    decode 0x4400_2010_0502_0000#64 = .ok (.vrmin ⟨.row 2, .from (.row 1), .i32⟩) ∧
    decode 0x4500_2010_3A00_0000#64 = .ok (.vperm ⟨.row 2, .from (.row 1), .from (.row 3), .u8⟩) ∧
    decode 0x4500_2010_0001_0005#64 = .ok (.vrot ⟨.row 2, .from (.row 1), .f32, 5⟩) ∧
    decode 0x450D_9010_0002_0005#64 = .ok (.vbcast ⟨.queue 3, .from (.row 1), .f32, 5⟩) ∧
    decode 0x4600_2010_3000_0006#64 = .ok (.vsel ⟨.row 2, .from (.row 1), .from (.row 3), .f32, 6⟩) ∧
    decode 0x4702_4005_FFFF_FFFF#64 = .ok (.vldi 9 .i32 0xFFFFFFFF) := by
  refine ⟨?_, ?_, ?_, ?_, ?_, ?_, ?_, ?_, ?_, ?_, ?_⟩ <;> rfl

theorem test_decode_tensor :
    decode 0x5000_8452_0001_0800#64 = .ok (.mma ⟨0, .desc 8 false, .desc 10 false, .bf16, .bf16, 1, 0, false, false, true⟩) ∧
    decode 0x500C_0A07_1200_5400#64 = .ok (.mma ⟨3, .arrv true, .ver true, .e4m3, .e5m2, 0, 2, true, true, false⟩) ∧
    decode 0x5101_0500_0008_0007#64 = .ok (.mzero 3) ∧
    decode 0x5101_0500_0018_0007#64 = .ok (.mlda 3 5) ∧
    decode 0x5101_0500_0028_0007#64 = .ok (.msta 3 5) ∧
    decode 0x5101_0500_0038_0007#64 = .ok (.mprog 4 3) ∧
    decode 0x5101_0500_0048_0007#64 = .ok (.mrst 3 0x20001) ∧
    decode 0x5200_0518_7000_864E#64 = .ok (.epi ⟨.sq 2, 6, 7, 2, .e4m3, 1, false, true, .rne, false, false⟩) ∧
    decode 0x5200_0518_7006_4032#64 = .ok (.epi ⟨.spad 5, 6, 7, 2, .mxf8e4, 0, true, false, .rdn, true, false⟩) := by
  refine ⟨?_, ?_, ?_, ?_, ?_, ?_, ?_, ?_, ?_⟩ <;> rfl

theorem test_decode_wave :
    decode 0x5801_0518_7000_0203#64 = .ok (.rig 5 3) ∧
    decode 0x5801_0518_7010_0203#64 = .ok (.unrig 3) ∧
    decode 0x5801_0518_7020_0203#64 = .ok (.admitTile 3 5 6 7) ∧
    decode 0x5801_0518_7030_0203#64 = .ok (.arrv 4) ∧
    decode 0x5801_0518_7040_0203#64 = .ok (.pass 5 true) ∧
    decode 0x5801_0518_7050_0203#64 = .ok (.meet 4) ∧
    decode 0x5801_0518_7060_0203#64 = .ok (.wver 4) ∧
    decode 0x5801_0518_7070_0203#64 = .ok (.wswap) ∧
    decode 0x5801_0518_7080_0203#64 = .ok (.wstat 4 3 2) := by
  refine ⟨?_, ?_, ?_, ?_, ?_, ?_, ?_, ?_, ?_⟩ <;> rfl

theorem test_decode_sync :
    decode 0x6001_0518_7000_0001#64 = .ok (.phase .part) ∧
    decode 0x6001_0518_7010_0001#64 = .ok (.phaseb .part) ∧
    decode 0x6001_0518_7020_0801#64 = .ok (.fencex 1 0x20) ∧
    decode 0x6001_0518_7030_0001#64 = .ok (.flagset 1 5 6 .cell) ∧
    decode 0x6001_0518_7040_0041#64 = .ok (.flagw 4 1 5 6 7 .cell .geu) ∧
    decode 0x6001_0518_7050_0001#64 = .ok (.join 4 5) ∧
    decode 0x6001_0518_7060_0001#64 = .ok (.leave 5) ∧
    decode 0x6001_0518_7070_0001#64 = .ok (.teamq 4 5 1) := by
  refine ⟨?_, ?_, ?_, ?_, ?_, ?_, ?_, ?_⟩ <;> rfl

theorem test_decode_graph :
    decode 0x6101_0518_7000_0203#64 = .ok (.glaunch 4 5 0x203) ∧
    decode 0x6101_0518_7010_0203#64 = .ok (.gsig) ∧
    decode 0x6101_0518_7020_0203#64 = .ok (.gdone) ∧
    decode 0x6101_0518_7030_0203#64 = .ok (.gadd 4 5) ∧
    decode 0x6101_0518_7040_0003#64 = .ok (.gqry 4 5 3) := by
  refine ⟨?_, ?_, ?_, ?_, ?_⟩ <;> rfl

theorem test_decode_copy :
    decode 0x6801_0518_7000_0003#64 = .ok (.copy 4 6 5 3) ∧
    decode 0x6801_0518_7010_0003#64 = .ok (.copyf 4 6 5 7 3) ∧
    decode 0x6801_0518_7020_0003#64 = .ok (.cwait 3 5) ∧
    decode 0x6801_0518_7030_0003#64 = .ok (.cstat 4 3) ∧
    decode 0x6801_0518_7040_0003#64 = .ok (.cchk 3 5) := by
  refine ⟨?_, ?_, ?_, ?_, ?_⟩ <;> rfl

theorem test_decode_win :
    decode 0x6901_0518_7008_0012#64 = .ok (.wreg 4 2 5 6) ∧
    decode 0x6901_0518_7018_0012#64 = .ok (.wdereg 5) ∧
    decode 0x6901_0518_7028_0012#64 = .ok (.put 2 5 6 7 0x8001) ∧
    decode 0x6901_0518_7038_0012#64 = .ok (.wwait .arr 5 6) ∧
    decode 0x6901_0518_7048_0012#64 = .ok (.wcnt .arr 4 5) ∧
    decode 0x6A01_0500_0000_0006#64 = .ok (.rstart 5 6) ∧
    decode 0x6A01_0500_0010_0006#64 = .ok (.rwait 5 6) ∧
    decode 0x6A01_0500_0020_0006#64 = .ok (.rstat 4 6) ∧
    decode 0x6A01_0500_0030_0000#64 = .ok (.rarbHbm 5) ∧
    decode 0x6A01_0500_0030_0001#64 = .ok (.rarbLink 5) := by
  refine ⟨?_, ?_, ?_, ?_, ?_, ?_, ?_, ?_, ?_, ?_⟩ <;> rfl

theorem test_decode_moor :
    decode 0x7000_C518_7000_0002#64 = .ok (.mopen 3 7 5 .rw) ∧
    decode 0x7000_C518_7010_0002#64 = .ok (.mopenw 3 7 5 6 .rw) ∧
    decode 0x7000_C518_7020_0002#64 = .ok (.mclose 3) ∧
    decode 0x7000_C518_7030_0002#64 = .ok (.mbind 3 5 6) ∧
    decode 0x7000_C518_7040_0002#64 = .ok (.munbind 3 5 6) ∧
    decode 0x7000_C518_7050_0002#64 = .ok (.mqry 3 5 2) := by
  refine ⟨?_, ?_, ?_, ?_, ?_, ?_⟩ <;> rfl

theorem test_decode_system :
    decode 0x7801_0518_7008_0001#64 = .ok (.dropen 0x80001) ∧
    decode 0x7801_0518_7010_0007#64 = .ok (.drclose) ∧
    decode 0x7801_0518_7020_0007#64 = .ok (.tell 7) ∧
    decode 0x7801_0518_7030_0003#64 = .ok (.errq 4 3) ∧
    decode 0x7901_0518_7008_0012#64 = .ok (.trap 0x80012) ∧
    decode 0x7901_0518_7018_0012#64 = .ok (.rdsys 4 0x012) ∧
    decode 0x7901_0518_7028_0012#64 = .ok (.wrsys 0x012 5) ∧
    decode 0x7901_0518_7038_0012#64 = .ok (.brk 0x80012) ∧
    decode 0x7901_0518_7048_8012#64 = .ok (.evt 5 0x8012) ∧
    decode 0x7901_0518_7058_0012#64 = .ok (.rfe) ∧
    decode 0x7901_0518_7068_0012#64 = .ok (.blst 4) := by
  refine ⟨?_, ?_, ?_, ?_, ?_, ?_, ?_, ?_, ?_, ?_, ?_⟩ <;> rfl

theorem test_decode_fate :
    decode 0xE000_0000_8000_0001#64 = .ok (.xtnd 0x80000001) ∧
    decode 0xE100_0000_0000_000D#64 = .ok (.lane 5 true) ∧
    decode 0x0000_0000_0000_0000#64 = .ok (.nop) ∧
    decode 0xF000_087C_FFFF_FE01#64 = .ok (.pref ⟨2, 7, 3, 0xFFFFFE, true⟩) ∧
    decode 0xF100_0000_0000_0005#64 = .ok (.prio 5) ∧
    decode 0xFF12_3456_789A_BCDE#64 = .ok (.emptyHint 0xFF) ∧
    decode 0x8012_3456_789A_BCDE#64 = .ok (.undefinedOpcode 0x80) := by
  refine ⟨?_, ?_, ?_, ?_, ?_, ?_, ?_⟩ <;> rfl

/-- Words that are ILLEGAL: grid index 48, odd AD, BF of another K, opcode FN, selector 11, th 16 (R33, R35, R40, R41, R45, R47). -/
theorem test_decode_refuses : ([
    0x4003_0000_0000_0000#64, 0x5000_9452_0001_0800#64, 0x5000_8452_0101_0800#64,
    0x0100_0000_0090_0000#64, 0x6900_0720_0030_0003#64, 0x2400_0000_0000_0006#64] : List (BitVec 64)).all
    (fun w => match decode w with | .ok _ => false | .error _ => true) = true := by decide +kernel

/-- An ill-formed term for each check of `Instr.wf`. -/
theorem test_wf_refuses : ([
    -- grid indexes (R35, R58)
    .vget 1 48 0, .vget 1 0 48, .vput 48 0 1, .vput 0 1 48, .vldi 48 .f32 0, .vadd ⟨.row 48, .held, .held, .f32, .rne, false⟩,
    .vadd ⟨.row 0, .from (.col 48), .held, .f32, .rne, false⟩, .vadd ⟨.row 0, .held, .from (.diag 63), .f32, .rne, false⟩,
    -- loops (R63)
    .loop 1 0, .loop 1 0xFFFFFFFF, .loopp 1 7 4, .loopp 1 0 0,
    -- counts (R34, R47)
    .qadv ⟨false, 0⟩ (.reg 0), .ldq ⟨0, 0, 0, .reg 0, 0⟩, .stq ⟨0, 0, 0, .reg 0, 0⟩, .ldmq ⟨0, 0, 0, 0, .reg 0, 0⟩,
    .stmq ⟨0, 0, 0, 0, .reg 0, 0⟩, .ldrq ⟨0, 0, 0, .reg 0, 0⟩, .strq ⟨0, 0, 0, .reg 0, 0⟩,
    -- sizes (R76)
    .lds ⟨0, 0, 3, true, 0⟩,
    -- element types (R39)
    .vsub ⟨.row 0, .held, .held, .i32, .rne, false⟩, .vmul ⟨.row 0, .held, .held, .e4m3, .rne, false⟩,
    .vdiv ⟨.row 0, .held, .held, .u8, .rne, false⟩, .vmax ⟨.row 0, .held, .held, .i8⟩, .vmin ⟨.row 0, .held, .held, .pni⟩,
    .vabs ⟨.row 0, .held, .i32⟩, .vneg ⟨.row 0, .held, .i32⟩, .vcpy ⟨.row 0, .held, .i32⟩,
    .vrcp ⟨.row 0, .held, .i32, .rne, false⟩, .vrsq ⟨.row 0, .held, .i32, .rne, false⟩, .vexp2 ⟨.row 0, .held, .i32, .rne, false⟩,
    .vlog2 ⟨.row 0, .held, .i32, .rne, false⟩, .vsqrt ⟨.row 0, .held, .i32, .rne, false⟩,
    .viadd ⟨.row 0, .held, .held, .f32, false⟩, .visub ⟨.row 0, .held, .held, .f32, false⟩, .vimul ⟨.row 0, .held, .held, .f32, false⟩,
    .vand ⟨.row 0, .held, .held, .f32⟩, .vor ⟨.row 0, .held, .held, .f32⟩, .vxor ⟨.row 0, .held, .held, .f32⟩,
    .vshl ⟨.row 0, .held, .held, .f32⟩, .vshr ⟨.row 0, .held, .held, .f32⟩, .vsra ⟨.row 0, .held, .held, .f32⟩,
    .vimin ⟨.row 0, .held, .held, .f32⟩, .vimax ⟨.row 0, .held, .held, .f32⟩, .vcmpEq ⟨0, .held, .held, .i32⟩,
    .vcmpNe ⟨0, .held, .held, .i32⟩, .vcmpLt ⟨0, .held, .held, .i32⟩, .vcmpLe ⟨0, .held, .held, .i32⟩,
    .vcmpUn ⟨0, .held, .held, .i32⟩, .vcmpIeq ⟨0, .held, .held, .f32⟩, .vcmpIlt ⟨0, .held, .held, .f32⟩,
    .vcmpIltu ⟨0, .held, .held, .f32⟩, .vsum ⟨.row 0, .held, .i32, .rne, false⟩, .vrmax ⟨.row 0, .held, .mxf4⟩,
    .vrmin ⟨.row 0, .held, .mxi8⟩, .vperm ⟨.row 0, .held, .held, .pni⟩, .vrot ⟨.row 0, .held, .mxf4, 0⟩,
    .vbcast ⟨.row 0, .held, .mxf4, 0⟩, .vsel ⟨.row 0, .held, .held, .mxf4, 0⟩, .vldi 0 .mxf4 0,
    .vcvt ⟨.row 0, .held, .mxf4, .f32, .rne, false⟩, .vcvt ⟨.row 0, .held, .f32, .pni, .rne, false⟩,
    .vqnt ⟨.row 0, .row 0, .f32, .f32⟩, .vqnt ⟨.row 0, .row 0, .mxi8, .i32⟩,
    .vdq ⟨.row 0, .held, .held, .i32, .mxi8, 0, false, .rne, false⟩, .vdq ⟨.row 0, .held, .held, .f32, .f32, 0, false, .rne, false⟩,
    -- destinations and groups (R36, R127, R129, R130)
    .vfma ⟨.queue 0, .held, .held, .f32, .rne, false⟩, .vfnma ⟨.queue 0, .held, .held, .f32, .rne, false⟩,
    .vsum ⟨.col 0, .held, .f32, .rne, false⟩, .vrmax ⟨.diag 0, .held, .i32⟩, .vrmin ⟨.col 0, .held, .i32⟩,
    .vqnt ⟨.row 47, .row 0, .mxi8, .f32⟩, .vqnt ⟨.col 0, .row 0, .mxi8, .f32⟩, .vqnt ⟨.row 0, .row 45, .mxi8, .f32⟩,
    .vqnt ⟨.row 0, .queue 0 1 false, .mxi8, .f32⟩, .vqnt ⟨.row 0, .col 0, .mxi8, .f32⟩,
    -- tensor words (R40, R41, R154)
    .mma ⟨0, .desc 9 false, .desc 10 false, .bf16, .bf16, 1, 0, false, false, true⟩,
    .mma ⟨0, .desc 8 false, .desc 11 false, .bf16, .bf16, 1, 0, false, false, true⟩,
    .mma ⟨0, .desc 8 false, .desc 10 false, .bf16, .e4m3, 1, 0, false, false, true⟩,
    .mma ⟨0, .desc 8 false, .desc 10 false, .pni, .pni, 1, 7, false, false, true⟩,
    .epi ⟨.pass, 0, 0, 0, .i32, 0, false, false, .rne, false, false⟩,
    -- selectors, masks, registers and opcodes (R47, R49, R50)
    .emptyHint 0xF1, .wstat 1 0 5, .fencex 0 1, .fencex 1 0, .teamq 1 2 5, .gqry 1 2 5, .mqry 1 2 5, .mqry 1 2 12, .errq 1 8,
    .rdsys 1 5, .wrsys 0x20 1, .undefinedOpcode 0x01].all fun i : Instr => !i.wf) = true := by decide

/-! Witnesses: for every statement with hypotheses, states and operands that meet the hypotheses of each of its clauses, at the
edges of the ranges the clauses give. -/

/-- A thread that runs, with a usable tether in every slot. -/
def c0 : Ctx := { status := .run, pc := 0x1000, tvec := 0x4000, teths := Vector.replicate 16 {
  pbase := 0x10000000, sz := 3, w := true, x := true, exp := 9000, stat := .ok } }

/-- The thread alone on the device at Keel 1,000: one page of 256 MB from address 0, leased for execution. -/
def on (c : Ctx) : State := {
  keel := 1000, ctxs := [(0, c)], parts := [(0, { ptroot := 0x10000, stvec := 0x8000 })]
  pt := [(0x10000, 0x20001), (0x20000, 0x30001), (0x30000, 0x1000003F)]
  cells := [(0, { leases := [⟨0, 3, 0x10000000, 0, true, true, 0, false, false, 9000, 0x30000, 0, [], 0⟩] })] }

abbrev z : State := on c0
/-- With a value in scalar 1. -/
abbrev z1 (v : Word) : State := on (c0.setReg 1 v)
/-- As an instruction of another unit, entry 1 of its buffer. -/
abbrev inU (u : Unit4) (s : State) : State := { s with iss := { s.iss with unit := u, id := 1 } }
/-- The word of an instruction that executes always. -/
abbrev wordOf (i : Instr) : Word := (encode ⟨false, 0⟩ i).getD 0
/-- With a word at the PC. -/
abbrev prog (w : Word) (s : State) : State := { s with mem := mwrites [] 0x10001000 (leBytes 8 w.toNat) }
/-- With the operands of an event. -/
abbrev ev (a : EvArg) (s : State) : State := { s with arg := a }
/-- An entry of a dispatch buffer. -/
abbrev ent (i : Instr) : Entry := { id := 1, instr := i, word := 0, pc := 0x1000 }
abbrev ldm0 : LdmF := ⟨5, 0, 0, 0, 3, 0, false⟩
abbrev stm0 : StmF := ⟨5, 0, 0, 0, 3, 0, none⟩

abbrev mma0 : MmaF := ⟨0, .grid, .flying false, .bf16, .bf16, 1, 0, false, false, true⟩
abbrev epi0 : EpiF := ⟨.spad 1, 0, 0, 0, .f32, 0, false, false, .rne, false, false⟩
/-- Instruction 1 is first at every queue. -/
abbrev front : Ctx := { c0 with lqs := Vector.replicate 4 { prods := [1] }, sqs := Vector.replicate 4 { prods := [1] } }
abbrev flight0 : Flight := ⟨⟨{}, [], []⟩, 1, 0⟩
abbrev pos0 : Pos := { cell := 0, slot := 0, inbox := 0, retain := 0, meetb := 0 }
abbrev pos1 : Pos := { cell := 1, slot := 0, inbox := 0, retain := 0, meetb := 0 }
/-- String 7 of the cells 0 and 1, its first position as given; thread 0 is its first handler and its admission thread. -/
abbrev str0 (p : Pos) : Str := {
  part := 0, id := 7, hdr := ⟨2, 2, 2, 2, 48, 96, 96, 0, 0, 4608, 0, 0, 0⟩, pos := [p, pos1], u := 0, team := none, rigger := 0 }
abbrev arr0 : Arrival := { str := 7, pos := 0, slot := 0, addr := 0, tag := {} }
/-- A launch of one node, numbered 4,096, which thread 0 runs. -/
abbrev node0 (r : NodeRec) (st : Nat) : Node := { idx := 0, rec_ := r, rem := 0, state := st }
abbrev rec0 : NodeRec := ⟨0, 0, 0, 1, 0, 0, 0, 0, 0, [], []⟩
abbrev launch0 (n : Node) : Launch := { id := 4096, part := 0, queue := 0, flag := none, nodes := [n] }
/-- A copy channel 0 with its ring of 64-byte slots at address 0. -/
abbrev chan0 : Chan := { base := 0, len := 1 }

/-- The values of an operand that is read. -/
abbrev valsOf : Fetched → List (List Sys2Proof.Num)
  | .vals l => l
  | _ => []
theorem fetched_vals {x : Fetched} (h : (match x with | .vals _ => true | _ => false) = true) : x = .vals (valsOf x) := by
  cases x <;> simp_all

abbrev copy0 (row : Nat) : Xfer := {
  id := 0, begun := true, row := row
  pkt := [0, 0, 0, 0, 0, 16] ++ List.replicate 17 0 ++ [0x40, 0, 16, 0, 0, 0, 0, 0, 0x40] ++ List.replicate 32 0 }
abbrev data0 : DataFlit := ⟨true, 0, 0, 0xFFF, 0, false, List.replicate 224 0⟩
abbrev ctl0 : CtlFlit := ⟨true, 0, 0, 0, false⟩
abbrev win0 : Window := { part := 0, va := 0, base := 0x10000000, len := 224, exp := 1001 }

/-- Name 9 is bound to object 5. -/
abbrev dz (s : State) : State := { s with parts := [(0, {
  ptroot := 0x10000, dir := { names := [(9, 5)], objs := [(5, ⟨0, 0, [], 0⟩)], next := 6 } })] }
/-- Queue 0 is mapped and its ring, at address 0, holds one packet. -/
abbrev mz (m : List Host.Cell) : State := {
  z with mem := m, queues := [(0, { slot := some 0, look := true, weight := 1, len := 1, widx := 1 })] }
abbrev pre0 (want : Nat) : Preempt := {
  members := [(0, none)], team := none, t0 := 0, rd := 6000, want := want, host := true, queue := none }
/-- A request is in progress, with `n` slots in the save area. -/
abbrev pz (p : Preempt) (n : Nat) (s : State) : State := {
  s with parts := [(0, { ptroot := 0x10000, sasz := 0x1000000, sanum := n, pres := [p] })] }
abbrev slot0 : SaveSlot := {
  part := 0, slot := 0, team := none, members := [(0, c0)], cells := [0], mode := 3, host := true, queue := none, at_ := 0 }

/-- The thread before its word, no event being due. -/
abbrev q (w : Word) : State := { prog w z with keel := 999 }
abbrev lds0 : Instr := .lds ⟨5, 1, 3, false, 0⟩
/-- A thread that waits in instruction `i`, and the machine once it goes on with it. -/
abbrev busyOn (i : Instr) : State := on { c0 with busy := some (wordOf i) }
abbrev goneOn (i : Instr) : State := ((busyOn i).goOn 0).elim z (·.2)
/-- A store in the publish buffer, with the points at which it is published. -/
abbrev ver0 (pubs : List (Scope × Stamp)) : Ver := {
  cells := [(0, 1)], src := 4, part := 0, cell := 1, seq := 0, own := 0, pubs := pubs }
/-- A thread whose unit A holds an entry that ends in a fatal cause. -/
abbrev besideS : State := on { c0 with bufA := [ent (.lds ⟨5, 0, 3, false, 0x180000⟩)] }
/-- A load of it is due and reads poison. -/
abbrev lateS : State := on { c0 with loads := [{ ent := ent (.ldm ldm0), dest := 5, value := 7, poison := true }] }
theorem some_pair {x : Option (Bool × State)} (h : x.isSome = true) : x = some ((x.getD (true, z)).1, (x.getD (true, z)).2) := by
  cases x <;> simp_all
theorem some_must {x : Option (Bool × State)} (h : x.any (·.1) = true) : x = some (true, (x.getD (true, z)).2) := by
  obtain _ | ⟨b, f⟩ := x <;> simp_all

/-! One-step tests against the worked values of the spec. -/

/-- Thread 0 with the 32-bit lane values given in rows 1, 2, ... (the same word in every lane). -/
abbrev rows (l : List Nat) : State := on { c0 with
  grid := Vector.ofFn fun i : Fin 48 => match l[i.val - 1]? with
    | some v => if i.val = 0 then 0 else lanes v
    | none => 0 }
where
  /-- A row with one word in every lane. -/
  lanes (v : Nat) : Row := BitVec.ofNat 1536 (v * ((2 ^ 1536 - 1) / (2 ^ 32 - 1)))
/-- Word `j` of row `r` after the instruction. -/
abbrev wordAfter (i : Instr) (s : State) (r j : Nat) : Nat :=
  match exec i s with
  | .next t => (rowWord (t.me.row r) j).toNat
  | _ => 0
/-- Scalar `r` after the instruction. -/
abbrev regAfter (i : Instr) (s : State) (r : Nat) : Nat :=
  match exec i s with
  | .next t => (t.me.reg r).toNat
  | _ => 0

-- 04, after R55: LI sign-extends its 32 bits
theorem test_li_sign : regAfter (.li 1 0x80000000) z 1 = 0xFFFFFFFF80000000 := by decide +kernel
-- 05, the trace: 2.5 × 4.0 + 1.0 = 11.0 and 2.5 × 0.5 − 3.0 = −1.75
theorem test_vfma_saxpy :
    wordAfter (.vfma ⟨.row 1, .from (.row 2), .from (.row 3), .f32, .rne, false⟩) (rows [0x3F800000, 0x40800000, 0x40200000]) 1 47 = 0x41300000 ∧
    wordAfter (.vfma ⟨.row 1, .from (.row 2), .from (.row 3), .f32, .rne, false⟩) (rows [0xC0400000, 0x3F000000, 0x40200000]) 1 0 = 0xBFE00000 := by
  decide +kernel
-- 05, the fused line: 1 + 2^−12 squared less 1 + 2^−11 is 2^−24, rounded once; the product alone ties to even
theorem test_vfma_once :
    wordAfter (.vfma ⟨.row 1, .from (.row 2), .from (.row 2), .f32, .rne, false⟩) (rows [0xBF801000, 0x3F800800]) 1 5 = 0x33800000 ∧
    wordAfter (.vmul ⟨.row 1, .from (.row 2), .from (.row 2), .f32, .rne, false⟩) (rows [0xBF801000, 0x3F800800]) 1 5 = 0x3F801000 := by
  decide +kernel
-- 07, after R124: an exact zero of opposite signs
theorem test_vfnma_zero :
    wordAfter (.vfnma ⟨.row 3, .from (.row 1), .from (.row 2), .f32, .rne, false⟩) (rows [0x40400000, 0x3F000000, 0x3FC00000]) 3 1 = 0 ∧
    wordAfter (.vfnma ⟨.row 3, .from (.row 1), .from (.row 2), .f32, .rdn, false⟩) (rows [0x40400000, 0x3F000000, 0x3FC00000]) 3 1 = 0x80000000 := by
  decide +kernel
-- 07, after R128: 0.1 to BF16 and back
theorem test_vcvt_bf16 :
    wordAfter (.vcvt ⟨.row 2, .from (.row 1), .bf16, .f32, .rne, false⟩) (rows [0x3DCCCCCD]) 2 23 = 0x3DCD3DCD ∧
    wordAfter (.vcvt ⟨.row 2, .from (.row 1), .bf16, .f32, .rne, false⟩) (rows [0x3DCCCCCD]) 2 24 = 0 ∧
    wordAfter (.vcvt ⟨.row 2, .from (.row 1), .f32, .bf16, .rne, false⟩) (rows [0x3DCD3DCD]) 2 47 = 0x3DCD0000 := by decide +kernel
-- 06, the table of worked conversions: 500.0, 70,000.0 and −0.003
theorem test_vcvt_table :
    ([(0x43FA0000, .e4m3, false, 0x7F), (0x43FA0000, .e4m3, true, 0x7E), (0x43FA0000, .e5m2, false, 0x60),
      (0x4788B800, .e5m2, false, 0x7C), (0x4788B800, .e5m2, true, 0x7B), (0x4788B800, .f16, true, 0x7BFF),
      (0x4788B800, .f16, false, 0x7C00), (0xBB449BA6, .e4m3, false, 0x82), (0xBB449BA6, .f16, false, 0x9A25)] :
      List (Nat × ETy × Bool × Nat)).all (fun (v, ty, sat, w) =>
        wordAfter (.vcvt ⟨.row 2, .from (.row 1), ty, .f32, .rne, sat⟩) (rows [v]) 2 0 % (if ty = .f16 then 65536 else 256) == w) = true := by
  decide +kernel
-- 07, the example of negative lanes: an even value and an odd one
theorem test_vldi_pair : (match exec (.vldi 5 .f32 0xC0000000) { z with iss := { xtnd := some 0x40400000 } } with
    | .next t => [(rowWord (t.me.row 5) 46).toNat, (rowWord (t.me.row 5) 47).toNat]
    | _ => []) = [0xC0000000, 0x40400000] := by decide +kernel
-- 04 R53: the division corners
theorem test_div_corners : regAfter (.div 2 1 0) (z1 5) 2 = 2 ^ 64 - 1 ∧ regAfter (.rem 2 1 0) (z1 5) 2 = 5 ∧
    regAfter (.div 2 1 3) (on ((c0.setReg 1 0x8000000000000000).setReg 3 0xFFFFFFFFFFFFFFFF)) 2 = 0x8000000000000000 := by decide +kernel
-- 04 R61: CALL saves the next PC in s62 and goes to PC + 8 × off
theorem test_call : (match exec (.call 0xFFFFFFFE) z with
    | .next t => (t.me.pc.toNat, (t.me.reg 62).toNat)
    | _ => (0, 0)) = (0xFF0, 0x1008) := by decide +kernel

/-! The witnesses. -/

theorem witness_MoveResults :
    (∃ (g l : Reg), g.toNat < 48 ∧ l.toNat < 48) ∧
    (∃ (g l : Reg) (s : State), g.toNat < 48 ∧ l.toNat < 48 ∧ s.me.bufE = [] ∧ (∀ e ∈ s.me.bufT, ∀ f, e.instr = .mma f → f.a ≠ .grid)) :=
  ⟨⟨47, 47, by decide +kernel⟩,
    ⟨47, 47, z, ⟨by decide +kernel, by decide +kernel, rfl, fun _ h => (List.not_mem_nil h).elim⟩⟩⟩

theorem witness_BranchTargets :
    ∃ (a : Reg) (s : State), (s.scalar a).toNat % 8 ≠ 0 :=
  ⟨1, z1 1, by decide +kernel⟩

theorem witness_LoopEffects :
    (∃ (a : Reg) (m : BitVec 3) (s : State), m ≠ 7 ∧ s.me.loops.length < 4 ∧ s.me.inLoopp = false ∧ s.loopCount a ≠ 0) ∧
    (∃ (a : Reg) (s : State), 4 ≤ s.me.loops.length ∧ s.loopCount a ≠ 0) ∧
    (∃ (s : State), s.me.inLoopp = true) ∧
    (∃ (s : State), s.me.loops = []) ∧
    (∃ (s : State) (e : LoopE) (rest : List LoopE), s.me.loops = e :: rest) ∧
    (∃ (s : State) (e : LoopE) (rest : List LoopE), s.me.loops = e :: rest ∧ e.stages = none ∧ 1 < e.count) ∧
    (∃ (s : State) (e : LoopE) (rest : List LoopE) (k : Nat), s.me.loops = e :: rest ∧ e.stages = some k ∧ k < 7 ∧ 1 < e.count ∧
      s.me.haltWait = false ∧ s.me.stepping = false ∧ s.me.bpWait = none) ∧
    (∃ (s : State) (e : LoopE) (rest : List LoopE), s.me.loops = e :: rest ∧ e.count ≤ 1 ∧ (∀ o ∈ rest.head?, o.last ≠ e.last) ∧ e.stages = none) :=
  ⟨⟨1, 6, on { c0.setReg 1 1 with loops := List.replicate 3 ⟨0x1000, 0x1040, 5, 0, none, 5⟩ }, by decide +kernel⟩,
    ⟨1, on { c0.setReg 1 1 with loops := List.replicate 4 ⟨0x1000, 0x1040, 5, 0, none, 5⟩ }, by decide +kernel⟩,
    ⟨on { c0 with loops := [⟨0x1000, 0x1040, 5, 0, some 1, 5⟩] }, by decide +kernel⟩,
    ⟨z, by decide +kernel⟩,
    ⟨on { c0 with loops := [⟨0x1000, 0x1040, 5, 0, none, 5⟩] }, _, _, rfl⟩,
    ⟨on { c0 with loops := [⟨0x1000, 0x1040, 2, 0, none, 5⟩] }, _, _, rfl, by decide +kernel⟩,
    ⟨on { c0 with loops := [⟨0x1000, 0x1040, 2, 0, some 6, 5⟩] }, _, _, 6, rfl, by decide +kernel⟩,
    ⟨on { c0 with loops := [⟨0x1000, 0x1040, 1, 0, none, 5⟩] }, _, _, rfl, by decide +kernel⟩⟩

theorem witness_PhaseBoundary :
    ∃ (s : State) (sc : Scope) (i : Instr), (i = .phase sc ∨ (i = .phaseb sc ∧ s.me.team = none ∧ s.me.arrived = 0)) ∧ s.mayBound sc = true :=
  ⟨z, .cell, .phaseb .cell, by decide +kernel⟩

theorem witness_Teams :
    (∃ (s : State), s.me.arrived = 2) ∧
    (∃ (s : State), s.me.arrived = 1) ∧
    (∃ (s : State) (sc : Scope) (id : Nat) (tm : Team), s.me.arrived = 0 ∧ s.me.team = some id ∧ s.teamOf s.myPart id = some tm ∧ (∀ e ∈ tm.ep,
      s.iss.src ∈ e.waiting) ∧ Stamp.lt ⟨s.keel, s.iss.src⟩ (s.part s.myPart).ops = false ∧ s.mayBound sc = true) ∧
    (∃ (s : State) (tm : Team) (e : Episode), s.teamOf s.arg.a s.arg.b = some tm ∧ tm.ep = some e ∧ s.episodeReady tm = true) ∧
    (∃ (s : State) (a : Reg), let id := (s.scalar a).toNat % 65536; Stamp.lt ⟨s.keel, s.iss.src⟩ (s.part s.myPart).ops = false ∧ 0x8000 ≤ id) ∧
    (∃ (s : State) (a : Reg), let id := (s.scalar a).toNat % 65536; Stamp.lt ⟨s.keel, s.iss.src⟩ (s.part s.myPart).ops = false ∧ id < 0x8000 ∧
      s.me.team ≠ none) ∧
    (∃ (s : State) (a : Reg), ∃ tm, let id := (s.scalar a).toNat % 65536; Stamp.lt ⟨s.keel, s.iss.src⟩ (s.part s.myPart).ops = false ∧ id < 0x8000 ∧
      s.me.team = none ∧ s.teamOf s.myPart id = some tm) ∧
    (∃ (s : State) (a : Reg), let id := (s.scalar a).toNat % 65536; Stamp.lt ⟨s.keel, s.iss.src⟩ (s.part s.myPart).ops = false ∧ id < 0x8000 ∧
      s.me.team = none ∧ s.teamOf s.myPart id = none) ∧
    (∃ (s : State) (a : Reg), let id := (s.scalar a).toNat % 65536; Stamp.lt ⟨s.keel, s.iss.src⟩ (s.part s.myPart).ops = false ∧ s.me.team = some id) ∧
    (∃ (s : State) (a : Reg), let id := (s.scalar a).toNat % 65536; Stamp.lt ⟨s.keel, s.iss.src⟩ (s.part s.myPart).ops = false ∧ s.me.team ≠ some id) ∧
    (∃ (s : State), Stamp.lt ⟨s.keel, s.iss.src⟩ (s.part s.myPart).ops = false) :=
  ⟨⟨on { c0 with arrived := 2 }, by decide +kernel⟩,
    ⟨on { c0 with arrived := 1 }, by decide +kernel⟩,
    ⟨{ on { c0 with team := some 3 } with teams := [⟨0, 3, [(0, 0)], 0, none⟩] }, .part, 3, ⟨0, 3, [(0, 0)], 0, none⟩, by decide +kernel⟩,
    ⟨{ ev { a := 0, b := 3 } (on { c0 with arrived := 1 }) with teams := [⟨0, 3, [(0, 0)], 0, some ⟨[0], [0]⟩⟩] }, _, ⟨[0], [0]⟩, rfl, by decide +kernel⟩,
    ⟨z1 0x8000, 1, by dsimp only; decide +kernel⟩,
    ⟨on { c0.setReg 1 9 with team := some 9 }, 1, by dsimp only; decide +kernel⟩,
    ⟨{ z1 0x7FFF with teams := [⟨0, 0x7FFF, [], 0, none⟩] }, 1, ⟨0, 0x7FFF, [], 0, none⟩, by dsimp only; decide +kernel⟩,
    ⟨z1 0x7FFF, 1, by dsimp only; decide +kernel⟩,
    ⟨on { c0.setReg 1 9 with team := some 9 }, 1, by dsimp only; decide +kernel⟩,
    ⟨z1 9, 1, by dsimp only; decide +kernel⟩,
    ⟨z, by decide +kernel⟩⟩

theorem witness_FencePublishes :
    ∃ (s : State) (frm : BitVec 6), (frm.getLsbD 0 = true → s.accessDone = true) ∧ (frm.getLsbD 1 = true → s.me.bufT = []) :=
  ⟨z, 3, by decide +kernel⟩

theorem witness_FlagWrites :
    (∃ (s : State) (th : BitVec 4) (a : Reg) (sc : Scope), let pa := ((s.me.teth th).anchor + (s.scalar a).toInt).toNat; s.me.xlatPending th = false ∧
      s.mayBound sc = true ∧ s.tethUsable th (s.scalar a).toInt 8 true false ∧ memoryAt pa ∧ pa % 8 = 0) ∧
    (∃ (s : State) (th : BitVec 4) (a b : Reg) (sc : Scope) (k : FlagCond), let pa := ((s.me.teth th).anchor + (s.scalar a).toInt).toNat;
      let v : Word := BitVec.ofNat 64 (if memoryAt pa then leVal (s.bytesAt s.viewerNow true s.myPart pa 8) else s.devRead pa 8); s.iss.unit = .c ∧
      s.me.wait = none ∧ s.me.xlatPending th = false ∧ s.tethUsable th (s.scalar a).toInt 8 false false ∧ ((memoryAt pa ∧
      s.poisonAt s.viewerNow true s.myPart pa 8 = false) ∨ paKind pa = .device ∨ paKind pa = .notify) ∧ pa % 8 = 0 ∧
      FlagCond.holds k v (s.scalar b) = true ∧ s.mayBound sc = true) ∧
    (∃ (s : State) (th : BitVec 4) (a b c : Reg) (k : FlagCond), let pa := ((s.me.teth th).anchor + (s.scalar a).toInt).toNat;
      let v : Word := BitVec.ofNat 64 (if memoryAt pa then leVal (s.bytesAt s.viewerNow true s.myPart pa 8) else s.devRead pa 8); s.iss.unit = .c ∧
      s.me.wait = none ∧ s.me.xlatPending th = false ∧ s.tethUsable th (s.scalar a).toInt 8 false false ∧ ((memoryAt pa ∧
      s.poisonAt s.viewerNow true s.myPart pa 8 = false) ∨ paKind pa = .device ∨ paKind pa = .notify) ∧ pa % 8 = 0 ∧
      FlagCond.holds k v (s.scalar b) = false ∧ overdue s.keel (s.deadlineOf c) = false) ∧
    (∃ (s : State) (th : BitVec 4) (a : Reg) (sc : Scope), let pa := ((s.me.teth th).anchor + (s.scalar a).toInt).toNat; s.me.xlatPending th = false ∧
      s.mayBound sc = true ∧ s.tethUsable th (s.scalar a).toInt 8 true false ∧ (paKind pa = .device ∨ paKind pa = .notify) ∧ pa % 8 = 0) ∧
    (∃ (s : State) (th : BitVec 4) (a : Reg) (sc : Scope), let pa := ((s.me.teth th).anchor + (s.scalar a).toInt).toNat; s.me.xlatPending th = false ∧
      s.mayBound sc = true ∧ s.tethUsable th (s.scalar a).toInt 8 true false ∧ paKind pa = .peer ∧ pa % 8 = 0) ∧
    (∃ (s : State) (th : BitVec 4) (a : Reg) (sc : Scope), let pa := ((s.me.teth th).anchor + (s.scalar a).toInt).toNat; s.me.xlatPending th = false ∧
      s.mayBound sc = true ∧ s.tethUsable th (s.scalar a).toInt 8 true false ∧ pa % 8 ≠ 0) ∧
    (∃ (s : State) (th : BitVec 4) (a : Reg), let pa := ((s.me.teth th).anchor + (s.scalar a).toInt).toNat; s.me.wait = none ∧
      s.me.xlatPending th = false ∧ s.tethUsable th (s.scalar a).toInt 8 false false ∧ pa % 8 ≠ 0) :=
  ⟨⟨z1 0xFFFFFF8, 0, 1, .sys, by dsimp only; decide +kernel⟩,
    ⟨z, 0, 0, 0, .sys, .eq, by dsimp only; decide +kernel⟩,
    ⟨z1 1001, 0, 0, 0, 1, .ne, by dsimp only; decide +kernel⟩,
    ⟨on { c0.setReg 1 8 with teths := Vector.replicate 16 { pbase := 0xF00001000000, sz := 0, w := true, exp := 9000, stat := .ok } }, 0, 1, .sys, by dsimp only; decide +kernel⟩,
    ⟨on { c0.setReg 1 8 with teths := Vector.replicate 16 { pbase := 0xF10000000000, sz := 0, w := true, exp := 9000, stat := .ok } }, 0, 1, .sys, by dsimp only; decide +kernel⟩,
    ⟨z1 4, 0, 1, .part, by dsimp only; decide +kernel⟩,
    ⟨z1 4, 0, 1, by dsimp only; decide +kernel⟩⟩

theorem witness_WaitsTryAgain :
    (∃ (s t : State) (d : Reg) (th : BitVec 4) (a b c : Reg) (sc : Scope) (k : FlagCond), s.runnable s.arg.a = true ∧ (s.ctx s.arg.a).lateAt = 0 ∧
      s.goOn s.arg.a = some (.flagw d th a b c sc k, t)) ∧
    (∃ (s t : State) (sc : Scope), ((s.ctx s.arg.a).bufA.any fun e => publishes e.instr) = false ∧ s.runnable s.arg.a = true ∧
      (s.ctx s.arg.a).lateAt = 0 ∧ s.goOn s.arg.a = some (.phase sc, t)) ∧
    (∃ (s : State) (e : Entry) (rest : List Entry) (f : StmF), (s.ctx s.arg.a).bufA = e :: rest ∧ e.instr = .stm f ∧ f.pub.isSome = true ∧
      e.prog = 1 ∧ s.unitRuns s.arg.a = true) :=
  ⟨⟨busyOn (.flagw 0 0 0 0 0 .cell .eq), goneOn (.flagw 0 0 0 0 0 .cell .eq), 0, 0, 0, 0, 0, .cell, .eq, ⟨by decide +kernel, by decide +kernel, by rfl⟩⟩,
    ⟨busyOn (.phase .cell), goneOn (.phase .cell), .cell, ⟨by decide +kernel, by decide +kernel, by decide +kernel, by rfl⟩⟩,
    ⟨on { c0 with bufA := [{ ent (.stm { stm0 with pub := some .cell }) with prog := 1 }] }, _, _, _, rfl, rfl, by decide +kernel⟩⟩

theorem witness_PublishBuffer :
    (∃ (s : State) (v : Ver), (s.vers.find? fun w => w.seq = s.arg.a) = some v ∧ s.settles v = true) ∧
    (∃ (s : State) (v : Ver), (s.vers.find? fun w => w.seq = s.arg.a) = some v ∧ s.merges v = true ∧ s.settles v = false) ∧
    (∃ (s : State), (s.ctx s.arg.a).status ≠ .free) :=
  ⟨⟨{ z with vers := [ver0 [(.sys, ⟨5, 4⟩)]], ctxs := [] }, _, rfl, by decide +kernel⟩,
    ⟨{ z with vers := [ver0 [(.part, ⟨5, 4⟩)]], ctxs := [] }, _, rfl, by decide +kernel⟩,
    ⟨z, by decide +kernel⟩⟩

theorem witness_TrapEntry :
    (∃ (s : State), s.me.tstate.getLsbD 0 = false ∧ s.me.tvec ≠ 0 ∧ s.iss.unit = .c) ∧
    (∃ (s : State), s.me.tstate.getLsbD 0 = false) ∧
    (∃ (s : State), s.me.tstate.getLsbD 0 = true ∧ s.quiet = true ∧ s.me.epc.toNat % 8 ≠ 0) ∧
    (∃ (s : State) (p : Parked), s.me.tstate.getLsbD 0 = true ∧ s.quiet = true ∧ s.me.epc.toNat % 8 = 0 ∧ s.me.parked = some p) :=
  ⟨⟨z, by decide +kernel⟩,
    ⟨z, by decide +kernel⟩,
    ⟨on { c0 with tstate := 1, epc := 4 }, by decide +kernel⟩,
    ⟨on { c0 with tstate := 1, parked := some {} }, {}, by decide +kernel⟩⟩

theorem witness_TrapFreezes :
    (∃ (s : State) (src : Nat) (c : Cause), let x := s.ctx src; c.kind = .recoverable ∧ x.tstate.getLsbD 0 = true) ∧
    (∃ (s : State) (src : Nat) (c : Cause), let x := s.ctx src;
      let vector : Nat := if c = .pageFault ∨ c = .skew then (s.part (s.partOfSrc src)).stvec % 2 ^ 64 else x.tvec.toNat; c.kind = .recoverable ∧
      x.tstate.getLsbD 0 = false ∧ vector = 0) ∧
    (∃ (c : Cause), c.kind = .recoverable) :=
  ⟨⟨on { c0 with tstate := 1 }, 0, .numeric, by dsimp only; decide +kernel⟩,
    ⟨on { c0 with tvec := 0 }, 0, .numeric, by dsimp only; decide +kernel⟩,
    ⟨.numeric, by decide +kernel⟩⟩

theorem witness_DrogueRegions :
    (∃ (s : State), s.me.pending = [] ∧ 4 ≤ s.me.drogue.length) ∧
    (∃ (s : State), s.quiet = true ∧ s.me.drogue = []) :=
  ⟨⟨on { c0 with drogue := List.replicate 4 ⟨0, {}, 0⟩ }, by decide +kernel⟩,
    ⟨z, by decide +kernel⟩⟩

theorem witness_SystemRegisters :
    (∃ (r : BitVec 12), r.toNat ∉ [0, 1, 2, 3, 4, 8, 9, 0xA, 0xB, 0x10, 0x11, 0x12, 0x13, 0x18, 0x19] ∧ ¬ (0x100 ≤ r.toNat ∧ r.toNat < 0x110)) ∧
    (∃ (r : BitVec 12), (r.toNat ∈ [2, 3, 9, 0x18] ∨ (0x100 ≤ r.toNat ∧ r.toNat < 0x110))) :=
  ⟨⟨5, by decide +kernel⟩,
    ⟨0x10F, by decide +kernel⟩⟩

theorem witness_ErrorAndBallastReads :
    (∃ (s : State), (s.dbg s.iss.src).trlen = 0) ∧
    (∃ (d : Reg) (s : State), let d := s.dbg s.iss.src; d.trlen ≠ 0 ∧ d.trLost = 0 ∧ d.trRecs % 4096 ≠ 0) :=
  ⟨⟨z, by decide +kernel⟩,
    ⟨0, { z with dbgs := [(0, { trlen := 64, trRecs := 1 })] }, by dsimp only; decide +kernel⟩⟩

theorem witness_ThreadControl :
    (∃ (s : State), s.quiet = true ∧ s.mayBound .part = true ∧ Stamp.lt ⟨s.keel, s.iss.src⟩ (s.part s.myPart).ops = false) ∧
    (∃ (s : State), s.arg.a = s.iss.src ∧ s.iss = { src := s.arg.a } ∧ s.me.status = .sleeping ∧ s.me.wakeAt ≤ s.keel ∧
      s.strFrozen s.iss.src = false ∧ s.me.wait = none ∧ s.mayBound .cell = true) ∧
    (∃ (s : State), (s.ctx s.arg.a).status = .sleeping ∧ s.keel < (s.ctx s.arg.a).wakeAt) ∧
    (∃ (s : State) (q : Pfx), s.me.pfx = some q ∧ q.xtnd = none) ∧
    (∃ (s : State) (q : Pfx), s.me.pfx = some q ∧ q.lane = none) ∧
    (∃ (s : State) (q : Pfx), s.me.pfx = some q ∧ q.xtnd ≠ none) ∧
    (∃ (s : State) (q : Pfx), s.me.pfx = some q ∧ q.lane ≠ none) :=
  ⟨⟨z, by decide +kernel⟩,
    ⟨on { c0 with status := .sleeping, wakeAt := 1000 }, by decide +kernel⟩,
    ⟨on { c0 with status := .sleeping, wakeAt := 1001 }, by decide +kernel⟩,
    ⟨on { c0 with pfx := some ⟨0x1000, none, none⟩ }, _, rfl, rfl⟩,
    ⟨on { c0 with pfx := some ⟨0x1000, none, none⟩ }, _, rfl, rfl⟩,
    ⟨on { c0 with pfx := some ⟨0x1000, some 1, none⟩ }, _, rfl, by decide +kernel⟩,
    ⟨on { c0 with pfx := some ⟨0x1000, none, some ⟨true, 1⟩⟩ }, _, rfl, by decide +kernel⟩⟩

theorem witness_TetherResults :
    (∃ (th : BitVec 4) (a : Reg) (s : State), s.me.tetherBusy th = false ∧ (s.scalar a).toNat < 2 ^ 56 ∧ s.lease s.myCell (s.scalar a).toNat = none) ∧
    (∃ (th : BitVec 4) (a : Reg) (s : State), s.me.tetherBusy th = false ∧ 2 ^ 56 ≤ (s.scalar a).toNat) ∧
    (∃ (th : BitVec 4) (a : Reg) (it : Intent) (s : State) (l : Lease), s.me.tetherBusy th = false ∧ (s.scalar a).toNat < 2 ^ 56 ∧
      s.lease s.myCell (s.scalar a).toNat = some l ∧ (it = .write ∧ l.w = false ∨ it = .exec ∧ l.x = false)) ∧
    (∃ (th : BitVec 4) (a : Reg) (it : Intent) (s : State) (l : Lease), s.me.tetherBusy th = false ∧ (s.scalar a).toNat < 2 ^ 56 ∧
      s.lease s.myCell (s.scalar a).toNat = some l ∧ (it = .write → l.w = true) ∧ (it = .exec → l.x = true)) ∧
    (∃ (th : BitVec 4) (s : State), s.me.tetherBusy th = false ∧ (s.me.teth th).stat ≠ .none ∧ (s.me.teth th).stat ≠ .released) ∧
    (∃ (s : State) (th : BitVec 4), s.me.tetherBusy th = false ∧ (s.me.teth th).rpend = true) ∧
    (∃ (s : State) (th : BitVec 4), s.me.tetherBusy th = false ∧ (s.me.teth th).rpend = false) ∧
    (∃ (s : State) (th : BitVec 4), let c := s.ctx s.arg.a; let x := c.teth th; s.arg.b = th.toNat ∧ x.rpend = false) ∧
    (∃ (s : State) (th : BitVec 4) (l : Leaf), let c := s.ctx s.arg.a; let x := c.teth th; s.arg.b = th.toNat ∧ x.rpend = true ∧ s.skew = false ∧
      x.stat = .ok ∧ s.walk (s.partOfSrc s.arg.a) x.vanc.toNat = .ok l ∧ l.pa = x.pbase ∧ l.sz = x.sz ∧ l.lc = x.lc ∧ l.ord = x.ord ∧
      (x.w = true → l.w = true ∧ l.wb = false ∧ s.writeLeaseAllowed l = true) ∧ (x.x = true → l.x = true)) ∧
    (∃ (s : State) (th : BitVec 4), let c := s.ctx s.arg.a; let x := c.teth th; s.arg.b = th.toNat ∧ x.rpend = true ∧
      (s.skew = true ∨ x.stat ≠ .ok ∨ (∃ w, s.walk (s.partOfSrc s.arg.a) x.vanc.toNat = .error w) ∨ (∃ l,
      s.walk (s.partOfSrc s.arg.a) x.vanc.toNat = .ok l ∧ (l.pa ≠ x.pbase ∨ l.sz ≠ x.sz ∨ l.lc ≠ x.lc ∨ l.ord ≠ x.ord ∨ (x.w = true ∧
      (l.w = false ∨ l.wb = true ∨ s.writeLeaseAllowed l = false)) ∨ (x.x = true ∧ l.x = false))))) :=
  ⟨⟨0, 1, z1 0x10000000, by decide +kernel⟩,
    ⟨0, 1, z1 0x100000000000000, by decide +kernel⟩,
    ⟨0, 1, .write, { z1 0xFFFFFFF with cells := [(0, { leases := [⟨0, 3, 0x10000000, 0, false, true, 0, false, false, 1001, 0, 0, [], 0⟩] })] }, ⟨0, 3, 0x10000000, 0, false, true, 0, false, false, 1001, 0, 0, [], 0⟩, by decide +kernel⟩,
    ⟨0, 1, .exec, z1 0xFFFFFFF, _, by decide +kernel, by decide +kernel, rfl, by decide +kernel⟩,
    ⟨15, z, by decide +kernel⟩,
    ⟨on { c0 with teths := Vector.replicate 16 { rpend := true } }, 15, by decide +kernel⟩,
    ⟨z, 15, by decide +kernel⟩,
    ⟨ev { b := 15 } z, 15, by dsimp only; decide +kernel⟩,
    ⟨ev { b := 15 } (on { c0 with teths := Vector.replicate 16 { pbase := 0x10000000, sz := 3, w := true, x := true, exp := 9000, stat := .ok, rpend := true } }), 15, ⟨0x30000, 0x1000003F⟩, by dsimp only; decide +kernel⟩,
    ⟨{ ev { b := 15 } (on { c0 with teths := Vector.replicate 16 { rpend := true } }) with skew := true }, 15, ⟨by decide +kernel, by decide +kernel, .inl rfl⟩⟩⟩

theorem witness_ProbeAndFetch :
    (∃ (s : State) (b : Reg), s.scalar b = 0) ∧
    (∃ (s : State) (a b : Reg) (w : Bool) (lf : Leaf), s.skew = false ∧ s.iss.prog = 0 ∧ s.walk s.myPart (s.scalar a).toNat = .ok lf ∧
      s.scalar b ≠ 0 ∧ (s.scalar a).toNat + (s.scalar b).toNat ≤ pageBase lf (s.scalar a).toNat + pageSize lf.sz ∧ (w = true → lf.w = true ∧
      lf.wb = false ∧ s.writeLeaseAllowed lf = true)) ∧
    (∃ (s : State) (a b : Reg) (y : Why), s.skew = false ∧ s.iss.prog = 0 ∧ s.walk s.myPart (s.scalar a).toNat = .error y ∧ s.scalar b ≠ 0 ∧
      s.me.tstate.getLsbD 0 = false ∧ (s.part s.myPart).stvec % 2 ^ 64 ≠ 0) ∧
    (∃ (s : State) (lf : Leaf), let src := s.arg.a; s.skew = false ∧ s.walk (s.partOfSrc src) (s.ctx src).pc.toNat = .ok lf ∧ lf.x = true) ∧
    (∃ (s : State) (lf : Leaf), let src := s.arg.a; s.skew = false ∧ s.walk (s.partOfSrc src) (s.ctx src).pc.toNat = .ok lf ∧ lf.x = false ∧
      (s.ctx src).tstate.getLsbD 0 = false ∧ (s.part (s.partOfSrc src)).stvec % 2 ^ 64 ≠ 0) :=
  ⟨⟨z, 1, by decide +kernel⟩,
    ⟨on ((c0.setReg 1 0xFFFFFFF).setReg 2 1), 1, 2, true, ⟨0x30000, 0x1000003F⟩, by decide +kernel⟩,
    ⟨on ((c0.setReg 1 0x10000000).setReg 2 1), 1, 2, .notMapped, by decide +kernel⟩,
    ⟨z, ⟨0x30000, 0x1000003F⟩, by dsimp only; decide +kernel⟩,
    ⟨{ z with pt := [(0x10000, 0x20001), (0x20000, 0x30001), (0x30000, 0x1000001F)] }, ⟨0x30000, 0x1000001F⟩, by dsimp only; decide +kernel⟩⟩

theorem witness_LeafUpdates :
    (∃ (s : State), let n := s.arg.a; let l := s.lport n; let e := s.pte l.leaf; l.lstat ≠ 1 ∧ s.mayChange n l.leaf = true ∧
      (e.getLsbD 0 = true → e.getLsbD 1 = true) ∧ e.extractLsb' 64 16 = l.expGen) ∧
    (∃ (s : State), let n := s.arg.a; let l := s.lport n; let e := s.pte l.leaf; l.lstat ≠ 1 ∧ s.mayChange n l.leaf = true ∧
      (e.getLsbD 0 = true → e.getLsbD 1 = true) ∧ e.extractLsb' 64 16 ≠ l.expGen) ∧
    (∃ (s : State), let n := s.arg.a; let l := s.lport n; l.lstat ≠ 1 ∧ s.mayChange n l.leaf = false) ∧
    (∃ (s : State), let n := s.arg.a; let l := s.lport n; let first : Prop := ¬ ∃ p ∈ s.lports, n ≤ p.1 ∧ p.2.last = s.keel + 1;
      (l.lstat ≠ 1 ∨ ¬ first)) ∧
    (∃ (s : State), let n := s.arg.a; let l := s.lport n; let j := l.job; let o := s.pte j.leaf; let first : Prop := ¬ ∃ p ∈ s.lports, n ≤ p.1 ∧
      p.2.last = s.keel + 1; let right : Prop := s.mayChange n j.leaf = true ∧ (o.getLsbD 0 = true → o.getLsbD 1 = true); l.lstat = 1 ∧ first ∧ ¬ right) ∧
    (∃ (s : State), let n := s.arg.a; let l := s.lport n; let j := l.job; let o := s.pte j.leaf; let first : Prop := ¬ ∃ p ∈ s.lports, n ≤ p.1 ∧
      p.2.last = s.keel + 1; let right : Prop := s.mayChange n j.leaf = true ∧ (o.getLsbD 0 = true → o.getLsbD 1 = true); l.lstat = 1 ∧ first ∧ right ∧
      o.extractLsb' 64 16 ≠ j.expGen) ∧
    (∃ (s : State), let n := s.arg.a; let l := s.lport n; let j := l.job; let o := s.pte j.leaf; let owner := (stackOf j.leaf).elim 0 s.partOfStack;
      let first : Prop := ¬ ∃ p ∈ s.lports, n ≤ p.1 ∧ p.2.last = s.keel + 1; let right : Prop := s.mayChange n j.leaf = true ∧
      (o.getLsbD 0 = true → o.getLsbD 1 = true); l.lstat = 1 ∧ first ∧ right ∧ o.extractLsb' 64 16 = j.expGen ∧
      (s.changes.filter fun c => c.part = owner).length < 4096 ∧ swFields (j.newHi ++ j.newLo) ≠ swFields o) ∧
    (∃ (s : State), let n := s.arg.a; let l := s.lport n; let j := l.job; let o := s.pte j.leaf; let owner := (stackOf j.leaf).elim 0 s.partOfStack;
      let first : Prop := ¬ ∃ p ∈ s.lports, n ≤ p.1 ∧ p.2.last = s.keel + 1; let right : Prop := s.mayChange n j.leaf = true ∧
      (o.getLsbD 0 = true → o.getLsbD 1 = true); l.lstat = 1 ∧ first ∧ right ∧ o.extractLsb' 64 16 = j.expGen ∧
      4096 ≤ (s.changes.filter fun c => c.part = owner).length) :=
  ⟨⟨{ z with lports := [(0, { leaf := 0x30000 })] }, by dsimp only; decide +kernel⟩,
    ⟨{ z with lports := [(0, { leaf := 0x30000, expGen := 1 })] }, by dsimp only; decide +kernel⟩,
    ⟨{ z with lports := [(0, { leaf := 0x8000000000 })] }, by dsimp only; decide +kernel⟩,
    ⟨z, by dsimp only; decide +kernel⟩,
    ⟨{ z with lports := [(0, { lstat := 1, job := ⟨0x8000000000, 0, 0, 0, false⟩ })] }, by dsimp only; decide +kernel⟩,
    ⟨{ z with lports := [(0, { lstat := 1, job := ⟨0x30000, 1, 0, 0, false⟩ })] }, by dsimp only; decide +kernel⟩,
    ⟨{ z with lports := [(0, { lstat := 1, job := ⟨0x30000, 0, 0x1000001F, 0, false⟩ })] }, by dsimp only; decide +kernel⟩,
    ⟨{ z with lports := [(0, { lstat := 1, job := ⟨0x30000, 0, 0x1000001F, 0, false⟩ })], changes := List.replicate 4096 ⟨0, 0, 0⟩ }, by dsimp only; decide +kernel⟩⟩

theorem witness_LeaseExpiryAndAssist :
    (∃ (s : State), (s.part s.arg.a).assist = none ∧ s.arg.b ≠ 0) ∧
    (∃ (s : State) (x : Assist), let pa := (⟨x.leaf, s.pte x.leaf⟩ : Leaf).pa + x.copied; (s.part s.arg.a).assist = some x ∧
      (s.arg.b = 0 ∨ s.arg.b = x.leaf) ∧ x.stage = 3 ∧ x.copied < 65536 ∧ s.assistMayCopy s.arg.a = true ∧ memoryAt pa ∧
      s.loadPoisoned (s.engineView 1027 s.arg.a) s.arg.a pa 4096 = false) :=
  ⟨⟨ev { b := 1 } z, by decide +kernel⟩,
    ⟨{ z with parts := [(0, { assist := some ⟨3, 0x30000, 0, 0, 0, 0, 65535, true⟩ })] }, ⟨3, 0x30000, 0, 0, 0, 0, 65535, true⟩, by dsimp only; decide +kernel⟩⟩

theorem witness_ScratchpadAccess :
    (∃ (s : State) (f : LdsF), let x : Int := (s.scalar f.a).toNat + f.disp.toInt; let n := 2 ^ f.sz.toNat; 0 ≤ x ∧ s.spadUsable x.toNat n ∧
      spadHeld s.me.streams x.toNat n = false ∧ s.spadPoisoned (s.iss.src / 4) x.toNat n = false) ∧
    (∃ (s : State) (f : LdsF), let x : Int := (s.scalar f.a).toNat + f.disp.toInt; let n := 2 ^ f.sz.toNat; (x < 0 ∨ 0x180000 < x.toNat + n)) ∧
    (∃ (s : State) (f : StsF), let x : Int := (s.scalar f.a).toNat + f.disp.toInt; let n := 2 ^ f.sz.toNat; 0 ≤ x ∧ s.spadUsable x.toNat n ∧
      spadHeld s.me.streams x.toNat n = false) ∧
    (∃ (s : State) (f : StsF), let x : Int := (s.scalar f.a).toNat + f.disp.toInt; let n := 2 ^ f.sz.toNat; (x < 0 ∨ 0x180000 < x.toNat + n)) ∧
    (∃ (s : State) (f : LdsF), let x : Int := (s.scalar f.a).toNat + f.disp.toInt; let n := 2 ^ f.sz.toNat; 0 ≤ x ∧ s.spadUsable x.toNat n ∧
      spadHeld s.me.streams x.toNat n = false ∧ s.spadPoisoned (s.iss.src / 4) x.toNat n = true ∧ s.me.drogue = []) :=
  ⟨⟨inU .a (z1 0x17FFF8), ⟨5, 1, 3, false, 0⟩, by dsimp only; decide +kernel⟩,
    ⟨inU .a (z1 0x17FFF9), ⟨5, 1, 3, false, 0⟩, by dsimp only; decide +kernel⟩,
    ⟨inU .a (z1 0x17FFF9), ⟨5, 1, 3, -1⟩, by dsimp only; decide +kernel⟩,
    ⟨inU .a z, ⟨5, 1, 0, -1⟩, by dsimp only; decide +kernel⟩,
    ⟨{ inU .a (z1 0) with psnSpad := [0] }, ⟨5, 1, 3, false, 0⟩, by dsimp only; decide +kernel⟩⟩

theorem witness_MemoryAccess :
    (∃ (s : State) (f : LdmF) (e : Entry), let off := s.offset f.x f.sc f.disp; let n := 2 ^ f.sz.toNat; let th := s.me.teth f.th;
      let pa := ((th.anchor : Int) + off).toNat; s.tethUsable f.th off n false false ∧ memoryAt pa ∧ s.memHeld s.iss.src s.me.streams pa n = false ∧
      s.me.bufA.find? (fun e => e.id = s.iss.id) = some e) ∧
    (∃ (s : State) (f : StmF), let off := s.offset f.x f.sc f.disp; let n := 2 ^ f.sz.toNat; let th := s.me.teth f.th;
      let pa := ((th.anchor : Int) + off).toNat; s.iss.prog ≠ 1 ∧ f.pub = none ∧ s.tethUsable f.th off n true false ∧ memoryAt pa ∧
      s.memHeld s.iss.src s.me.streams pa n = false ∧ (th.ord = true → s.atomLater pa n = false)) ∧
    (∃ (s : State) (f : StmF) (sc : Scope), let off := s.offset f.x f.sc f.disp; let n := 2 ^ f.sz.toNat; let th := s.me.teth f.th;
      let pa := ((th.anchor : Int) + off).toNat; s.iss.prog ≠ 1 ∧ f.pub = some sc ∧ s.tethUsable f.th off n true false ∧ memoryAt pa ∧ th.ord = false ∧
      s.memHeld s.iss.src s.me.streams pa n = false) ∧
    (∃ (s : State) (f : StmF) (sc : Scope), s.iss.prog = 1 ∧ f.pub = some sc ∧ s.mayBound sc = true) ∧
    (∃ (s : State) (f : LdmF) (e : Entry), let off := s.offset f.x f.sc f.disp; let n := 2 ^ f.sz.toNat; let th := s.me.teth f.th;
      let pa := ((th.anchor : Int) + off).toNat; s.tethUsable f.th off n false false ∧ s.memHeld s.iss.src s.me.streams pa n = false ∧
      s.me.bufA.find? (fun e => e.id = s.iss.id) = some e ∧ (paKind pa = .device ∨ paKind pa = .notify) ∧ devSizeOk pa n = true) ∧
    (∃ (s : State) (f : LdmF) (e : Entry), let off := s.offset f.x f.sc f.disp; let n := 2 ^ f.sz.toNat; let th := s.me.teth f.th;
      let pa := ((th.anchor : Int) + off).toNat; s.tethUsable f.th off n false false ∧ s.memHeld s.iss.src s.me.streams pa n = false ∧
      s.me.bufA.find? (fun e => e.id = s.iss.id) = some e ∧ paKind pa = .peer) ∧
    (∃ (s : State) (f : StmF), let off := s.offset f.x f.sc f.disp; let n := 2 ^ f.sz.toNat; let th := s.me.teth f.th;
      let pa := ((th.anchor : Int) + off).toNat; s.iss.prog ≠ 1 ∧ f.pub = none ∧ s.tethUsable f.th off n true false ∧
      s.memHeld s.iss.src s.me.streams pa n = false ∧ (th.ord = true → s.atomLater pa n = false) ∧ (paKind pa = .device ∨ paKind pa = .notify) ∧
      devSizeOk pa n = true) ∧
    (∃ (s : State) (f : StmF), let off := s.offset f.x f.sc f.disp; let n := 2 ^ f.sz.toNat; let th := s.me.teth f.th;
      let pa := ((th.anchor : Int) + off).toNat; s.iss.prog ≠ 1 ∧ f.pub = none ∧ s.tethUsable f.th off n true false ∧
      s.memHeld s.iss.src s.me.streams pa n = false ∧ (th.ord = true → s.atomLater pa n = false) ∧ paKind pa = .peer) ∧
    (∃ (s : State) (f : LdmF),
      let bad (th : BitVec 4) (off : Int) (n : Nat) (w : Bool) : Prop := (s.me.teth th).stat ∈ [TStat.miss, .noperm, .released, .none] ∨ ((s.me.teth th).stat = .ok ∧
      ((s.me.teth th).exp ≤ s.keel ∨ ((s.me.teth th).anchor : Int) + off < (s.me.teth th).pbase ∨ ((s.me.teth th).pbase : Int) + pageSize (s.me.teth th).sz < (s.me.teth th).anchor + off + n ∨ (w = true ∧
      (s.me.teth th).w = false) ∨ (s.me.teth th).lc = 3)); bad f.th (s.offset f.x f.sc f.disp) (2 ^ f.sz.toNat) false) ∧
    (∃ (s : State) (g : StmF),
      let bad (th : BitVec 4) (off : Int) (n : Nat) (w : Bool) : Prop := (s.me.teth th).stat ∈ [TStat.miss, .noperm, .released, .none] ∨ ((s.me.teth th).stat = .ok ∧
      ((s.me.teth th).exp ≤ s.keel ∨ ((s.me.teth th).anchor : Int) + off < (s.me.teth th).pbase ∨ ((s.me.teth th).pbase : Int) + pageSize (s.me.teth th).sz < (s.me.teth th).anchor + off + n ∨ (w = true ∧
      (s.me.teth th).w = false) ∨ (s.me.teth th).lc = 3)); s.iss.prog ≠ 1 ∧ bad g.th (s.offset g.x g.sc g.disp) (2 ^ g.sz.toNat) true) ∧
    (∃ (s : State) (f : LdmF), (s.me.teth f.th).stat = .skewed) ∧
    (∃ (s : State) (f : LdmF), (s.me.teth f.th).stat = .stale) ∧
    (∃ (s : State) (g : StmF), s.iss.prog ≠ 1 ∧ (s.me.teth g.th).stat = .skewed) ∧
    (∃ (s : State) (g : StmF), s.iss.prog ≠ 1 ∧ (s.me.teth g.th).stat = .stale) ∧
    (∃ (s : State) (l : PLoad), (s.ctx s.arg.a).loads.find? (fun l => l.ent.id = s.arg.b) = some l ∧ l.poison = false ∧ l.late = false ∧
      s.arg.flg = false) ∧
    (∃ (s : State) (l : PLoad), l ∈ (s.ctx s.arg.a).loads ∧ l.ent.id = s.arg.b ∧ s.arg.b ≠ 0 ∧ s.arg.flg = true ∧ 400 < l.bound ∧ l.late = false) ∧
    (∃ (s : State) (l : PLoad), (s.ctx s.arg.a).loads.find? (fun l => l.ent.id = s.arg.b) = some l ∧ s.arg.flg = false ∧ l.late = true ∧
      s.keel < l.due) ∧
    (∃ (s : State) (l : PLoad), (s.ctx s.arg.a).loads.find? (fun l => l.ent.id = s.arg.b) = some l ∧ s.arg.flg = false ∧
      (l.poison = true ∨ l.late = true) ∧ (l.late = true → l.due ≤ s.keel) ∧ (s.ctx s.arg.a).drogue = []) ∧
    (∃ (s : State) (v : Ver), let mine (w : Ver) : Bool := decide (w.src = s.arg.a ∧ w.seq = s.arg.b ∧ (w.done = false ∨ w.away = true));
      s.arg.flg = false ∧ s.arg.b ≠ 0 ∧ s.vers.find? mine = some v ∧ v.lost = false) ∧
    (∃ (s : State) (v : Ver), let mine (w : Ver) : Bool := decide (w.src = s.arg.a ∧ w.seq = s.arg.b ∧ (w.done = false ∨ w.away = true));
      s.arg.flg = false ∧ s.arg.b ≠ 0 ∧ s.vers.find? mine = some v ∧ v.lost = true ∧ s.keel < v.perf) ∧
    (∃ (s : State) (v : Ver), let mine (w : Ver) : Bool := decide (w.src = s.arg.a ∧ w.seq = s.arg.b ∧ (w.done = false ∨ w.away = true));
      s.arg.flg = false ∧ s.arg.b ≠ 0 ∧ s.vers.find? mine = some v ∧ v.lost = true ∧ v.perf ≤ s.keel) ∧
    (∃ (s : State) (v : Ver), s.arg.flg = true ∧ s.arg.b ≠ 0 ∧ v ∈ s.vers ∧ v.src = s.arg.a ∧ v.seq = s.arg.b ∧ v.done = false ∧ 400 < v.bound ∧
      v.lost = false) :=
  ⟨⟨inU .a (on { c0.setReg 1 0xFFFFFF8 with bufA := [ent (.ldm { ldm0 with x := 1 })] }), { ldm0 with x := 1 }, ent (.ldm { ldm0 with x := 1 }), by dsimp only; decide +kernel⟩,
    ⟨inU .a (z1 0xFFFFFF8), { stm0 with x := 1 }, by dsimp only; decide +kernel⟩,
    ⟨inU .a (z1 0xFFFFFF8), { stm0 with x := 1, pub := some .sys }, .sys, by dsimp only; decide +kernel⟩,
    ⟨{ z with iss := { unit := .a, prog := 1 } }, { stm0 with pub := some .sys }, .sys, by decide +kernel⟩,
    ⟨inU .a (on { c0 with teths := Vector.replicate 16 { pbase := 0xF00001000000, sz := 0, w := true, exp := 9000, stat := .ok, ord := true }, bufA := [ent (.ldm { ldm0 with disp := 8 })] }), { ldm0 with disp := 8 }, ent (.ldm { ldm0 with disp := 8 }), by dsimp only; decide +kernel⟩,
    ⟨inU .a (on { c0 with teths := Vector.replicate 16 { pbase := 0xF10000000000, sz := 0, w := true, exp := 9000, stat := .ok, ord := true, lc := 1 }, bufA := [ent (.ldm { ldm0 with disp := 8 })] }), { ldm0 with disp := 8 }, ent (.ldm { ldm0 with disp := 8 }), by dsimp only; decide +kernel⟩,
    ⟨inU .a (on { c0 with teths := Vector.replicate 16 { pbase := 0xF00001000000, sz := 0, w := true, exp := 9000, stat := .ok, ord := true } }), { stm0 with disp := 8 }, by dsimp only; decide +kernel⟩,
    ⟨inU .a (on { c0 with teths := Vector.replicate 16 { pbase := 0xF10000000000, sz := 0, w := true, exp := 9000, stat := .ok, ord := true, lc := 1 } }), { stm0 with disp := 8 }, by dsimp only; decide +kernel⟩,
    ⟨inU .a (z1 0xFFFFFF9), { ldm0 with x := 1 }, by dsimp only; decide +kernel⟩,
    ⟨inU .a z, { stm0 with disp := -1 }, by dsimp only; decide +kernel⟩,
    ⟨on { c0 with teths := Vector.replicate 16 { stat := .skewed } }, ldm0, by decide +kernel⟩,
    ⟨on { c0 with teths := Vector.replicate 16 { stat := .stale } }, ldm0, by decide +kernel⟩,
    ⟨on { c0 with teths := Vector.replicate 16 { stat := .skewed } }, stm0, by decide +kernel⟩,
    ⟨on { c0 with teths := Vector.replicate 16 { stat := .stale } }, stm0, by decide +kernel⟩,
    ⟨ev { b := 1 } (on { c0 with loads := [{ ent := ent (.ldm ldm0), dest := 5, value := 7 }] }), { ent := ent (.ldm ldm0), dest := 5, value := 7 }, by decide +kernel⟩,
    ⟨ev { b := 1, flg := true } (on { c0 with loads := [{ ent := ent (.ldm ldm0), dest := 5, value := 7, bound := 401 }] }), { ent := ent (.ldm ldm0), dest := 5, value := 7, bound := 401 }, by decide +kernel⟩,
    ⟨ev { b := 1 } (on { c0 with loads := [{ ent := ent (.ldm ldm0), dest := 5, value := 7, late := true, due := 1001 }] }), { ent := ent (.ldm ldm0), dest := 5, value := 7, late := true, due := 1001 }, by decide +kernel⟩,
    ⟨ev { b := 1 } (on { c0 with loads := [{ ent := ent (.ldm ldm0), dest := 5, value := 7, late := true, due := 1000 }] }), { ent := ent (.ldm ldm0), dest := 5, value := 7, late := true, due := 1000 }, by decide +kernel⟩,
    ⟨ev { b := 1 } { z with vers := [{ ver0 [] with src := 0, seq := 1, done := false }] }, { ver0 [] with src := 0, seq := 1, done := false }, by dsimp only; decide +kernel⟩,
    ⟨ev { b := 1 } { z with vers := [{ ver0 [] with src := 0, seq := 1, done := false, lost := true, perf := 1001 }] }, { ver0 [] with src := 0, seq := 1, done := false, lost := true, perf := 1001 }, by dsimp only; decide +kernel⟩,
    ⟨ev { b := 1 } { z with vers := [{ ver0 [] with src := 0, seq := 1, done := false, lost := true, perf := 1000 }] }, { ver0 [] with src := 0, seq := 1, done := false, lost := true, perf := 1000 }, by dsimp only; decide +kernel⟩,
    ⟨ev { a := 0, b := 1, flg := true } { z with vers := [{ ver0 [] with src := 0, seq := 1, done := false, bound := 401 }] }, { ver0 [] with src := 0, seq := 1, done := false, bound := 401 }, by decide +kernel⟩⟩

theorem witness_Atomics :
    (∃ (s : State) (f : AmoF) (c : Reg) (i : Instr) (op : (w : Nat) → BitVec w → BitVec w → Option (BitVec w)), let n := if f.wide then 8 else 4;
      let pa := (((s.me.teth f.th).anchor : Int) + (s.scalar f.a).toInt).toNat; let b := decide (f.pb = true ∨ f.sp = true); (i, op) ∈ amoOps f c s ∧
      s.tethUsable f.th (s.scalar f.a).toInt n true false ∧ memoryAt pa ∧ pa % n = 0 ∧ s.memHeld s.iss.src s.me.streams pa n = false ∧
      s.atomLater pa n = false ∧ s.poisonAt s.viewerNow false s.myPart pa n = false ∧ (f.pb = true → s.mayPublish f.scope = true) ∧
      (b = true → s.me.lastB ≤ s.keel)) ∧
    (∃ (s : State) (f : AmosF) (c : Reg) (i : Instr) (op : (w : Nat) → BitVec w → BitVec w → Option (BitVec w)), let n := if f.wide then 8 else 4;
      let x := (s.scalar f.a).toNat; (i, op) ∈ amosOps f c s ∧ x % n ≠ 0) ∧
    (∃ (s : State) (f : AmosF) (c : Reg) (i : Instr) (op : (w : Nat) → BitVec w → BitVec w → Option (BitVec w)), let n := if f.wide then 8 else 4;
      let x := (s.scalar f.a).toNat; (i, op) ∈ amosOps f c s ∧ x % n = 0 ∧ s.spadUsable x n ∧ spadHeld s.me.streams x n = false ∧
      s.spadPoisoned (s.iss.src / 4) x n = false ∧ (f.pb = true → s.mayPublish .cell = true) ∧ (f.pb = true ∨ f.sp = true → s.me.lastB ≤ s.keel)) ∧
    (∃ (s : State) (f : AmoF) (c : Reg) (i : Instr) (op : (w : Nat) → BitVec w → BitVec w → Option (BitVec w)), let n := if f.wide then 8 else 4;
      let pa := (((s.me.teth f.th).anchor : Int) + (s.scalar f.a).toInt).toNat; (i, op) ∈ amoOps f c s ∧
      s.tethUsable f.th (s.scalar f.a).toInt n true false ∧ pa % n ≠ 0) ∧
    (∃ (s : State) (f : AmoF) (c : Reg) (i : Instr) (op : (w : Nat) → BitVec w → BitVec w → Option (BitVec w)), let n := if f.wide then 8 else 4;
      let pa := (((s.me.teth f.th).anchor : Int) + (s.scalar f.a).toInt).toNat; (i, op) ∈ amoOps f c s ∧
      s.tethUsable f.th (s.scalar f.a).toInt n true false ∧ pa % n = 0 ∧ s.memHeld s.iss.src s.me.streams pa n = false ∧ s.atomLater pa n = false ∧
      (f.pb = true → s.mayPublish f.scope = true) ∧ (f.pb = true ∨ f.sp = true → s.me.lastB ≤ s.keel) ∧ (paKind pa = .device ∨ paKind pa = .notify)) ∧
    (∃ (s : State) (f : AmoF) (c : Reg) (i : Instr) (op : (w : Nat) → BitVec w → BitVec w → Option (BitVec w)), let n := if f.wide then 8 else 4;
      let pa := (((s.me.teth f.th).anchor : Int) + (s.scalar f.a).toInt).toNat; (i, op) ∈ amoOps f c s ∧
      s.tethUsable f.th (s.scalar f.a).toInt n true false ∧ pa % n = 0 ∧ s.memHeld s.iss.src s.me.streams pa n = false ∧ s.atomLater pa n = false ∧
      (f.pb = true → s.mayPublish f.scope = true) ∧ (f.pb = true ∨ f.sp = true → s.me.lastB ≤ s.keel) ∧ paKind pa = .peer ∧
      (s.port (peerPort pa)).up = true) :=
  ⟨⟨inU .a (z1 0xFFFFFF8), ⟨5, 0, 1, 2, true, .sys, true, true⟩, 0, .amoAdd ⟨5, 0, 1, 2, true, .sys, true, true⟩, fun _ o b => some (o + b), by dsimp only; exact ⟨.head _, by decide +kernel⟩⟩,
    ⟨inU .a (z1 4), ⟨5, 1, 2, true, true, true⟩, 0, .amosAdd ⟨5, 1, 2, true, true, true⟩, fun _ o b => some (o + b), by dsimp only; exact ⟨.head _, by decide +kernel⟩⟩,
    ⟨inU .a (z1 0x17FFF8), ⟨5, 1, 2, true, true, true⟩, 0, .amosAdd ⟨5, 1, 2, true, true, true⟩, fun _ o b => some (o + b), by dsimp only; exact ⟨.head _, by decide +kernel⟩⟩,
    ⟨inU .a (z1 0xFFFFFF4), ⟨5, 0, 1, 2, true, .sys, true, true⟩, 0, .amoAdd ⟨5, 0, 1, 2, true, .sys, true, true⟩, fun _ o b => some (o + b), by dsimp only; exact ⟨.head _, by decide +kernel⟩⟩,
    ⟨inU .a (on { c0.setReg 1 8 with teths := Vector.replicate 16 { pbase := 0xF00001000000, sz := 0, w := true, exp := 9000, stat := .ok } }), ⟨5, 0, 1, 2, true, .sys, true, true⟩, 0, .amoAdd ⟨5, 0, 1, 2, true, .sys, true, true⟩, fun _ o b => some (o + b), by dsimp only; exact ⟨.head _, by decide +kernel⟩⟩,
    ⟨inU .a (on { c0.setReg 1 8 with teths := Vector.replicate 16 { pbase := 0xF10000000000, sz := 0, w := true, exp := 9000, stat := .ok } }), ⟨5, 0, 1, 2, true, .sys, true, true⟩, 0, .amoAdd ⟨5, 0, 1, 2, true, .sys, true, true⟩, fun _ o b => some (o + b), by dsimp only; exact ⟨.head _, by decide +kernel⟩⟩⟩

theorem witness_QueueInstructions :
    ∃ (q : QSel) (s : State), s.me.poppers q = false :=
  ⟨⟨true, 3⟩, z, by decide +kernel⟩

theorem witness_Streams :
    (∃ (s : State) (e : Entry), s.me.streams.length + s.me.endedNow s.keel < 4 ∧ s.me.bufA.find? (fun e => e.id = s.iss.id) = some e) ∧
    (∃ (h : HStreamF) (s : State) (e : Entry), s.me.streams.length + s.me.endedNow s.keel < 4 ∧ s.me.bufA.find? (fun e => e.id = s.iss.id) = some e ∧
      (s.me.mh h.mh).isOpen = true ∧ (s.me.mh h.mh).mode ≠ 1) ∧
    (∃ (h : HStreamF) (s : State) (e : Entry), s.me.streams.length + s.me.endedNow s.keel < 4 ∧ s.me.bufA.find? (fun e => e.id = s.iss.id) = some e ∧
      (s.me.mh h.mh).isOpen = true ∧ (s.me.mh h.mh).mode ≠ 0) ∧
    (∃ (h : HStreamF) (s : State) (e : Entry), s.me.streams.length + s.me.endedNow s.keel < 4 ∧ s.me.bufA.find? (fun e => e.id = s.iss.id) = some e ∧
      (s.me.mh h.mh).isOpen = false) ∧
    (∃ (s : State) (x : Stream), let src := s.arg.a; let c := s.ctx src; let a : Int := x.base.toNat + x.ent.prog * x.stride.toInt;
      let b := s.beginU src .a x.ent; (s.cell (src / 4)).rowAt ≤ s.keel ∧ s.eventStream = some x ∧ x.at_ = .spad ∧ x.q.store = false ∧
      c.rowReady s.keel x = true ∧ x.count ≠ 0 ∧ 0 ≤ a ∧ b.spadUsable a.toNat x.n ∧ spadHeld (c.before x) a.toNat x.n = false ∧
      s.spadPoisoned (src / 4) a.toNat x.n = false) ∧
    (∃ (s : State) (x : Stream) (sl : Slot) (rest : List Slot) (th : BitVec 4), let src := s.arg.a; let c := s.ctx src;
      let off : Int := x.base.toInt + x.ent.prog * x.stride.toInt; let b := s.beginU src .a x.ent; let pa := (((c.teth th).anchor : Int) + off).toNat;
      (s.cell (src / 4)).rowAt ≤ s.keel ∧ s.eventStream = some x ∧ x.at_ = .teth th ∧ x.q.store = true ∧ c.rowReady s.keel x = true ∧
      (c.queue x.q).slots = sl :: rest ∧ sl.at_ ≤ s.keel ∧ sl.poison = false ∧ sl.crc = none ∧ b.tethUsable th off x.n true true ∧ memoryAt pa ∧
      (c.teth th).ord = false ∧ s.memHeld src (c.before x) pa x.n = false) ∧
    (∃ (s : State) (x : Stream) (mh : BitVec 4) (va : Int) (n a : Nat) (lf : Leaf), let src := s.arg.a; s.eventStream = some x ∧ x.at_ = .handle mh ∧
      s.handleRow src x mh x.ent.prog = some (va, n) ∧ s.handlePieces (src / 4) x.q.store va n = .error a ∧ s.skew = false ∧
      s.walk (s.partOfSrc src) a = .ok lf ∧ (x.q.store = true → lf.w = true ∧ lf.wb = false ∧ s.writeLeaseAllowed lf = true)) :=
  ⟨⟨inU .a (on { c0 with streams := List.replicate 3 ⟨ent .nop, 0, 0, 1⟩, bufA := [ent .nop] }), ent .nop, by decide +kernel⟩,
    ⟨⟨0, 15, 0, .imm 1, 0⟩, inU .a (on { c0 with mhs := Vector.replicate 16 { isOpen := true, mode := 2 }, bufA := [ent .nop] }), ent .nop, by decide +kernel⟩,
    ⟨⟨0, 15, 0, .imm 1, 0⟩, inU .a (on { c0 with mhs := Vector.replicate 16 { isOpen := true, mode := 1 }, bufA := [ent .nop] }), ent .nop, by decide +kernel⟩,
    ⟨⟨0, 15, 0, .imm 1, 0⟩, inU .a (on { c0 with bufA := [ent .nop] }), ent .nop, by decide +kernel⟩,
    ⟨ev { b := 1 } (on { front with streams := [⟨ent (.ldq ⟨0, 1, 2, .imm 1, 0⟩), 0x17FF40, 0, 1⟩] }), ⟨ent (.ldq ⟨0, 1, 2, .imm 1, 0⟩), 0x17FF40, 0, 1⟩, by dsimp only; decide +kernel⟩,
    ⟨ev { b := 1 } (on { c0 with sqs := Vector.replicate 4 { slots := [{}] }, streams := [⟨ent (.stmq ⟨0, 0, 1, 2, .imm 1, 0⟩), 0xFFFFF40, 0, 1⟩] }), ⟨ent (.stmq ⟨0, 0, 1, 2, .imm 1, 0⟩), 0xFFFFF40, 0, 1⟩, {}, [], 0, by dsimp only; decide +kernel⟩,
    ⟨ev { b := 1 } { on { c0 with mhs := Vector.replicate 16 { obj := 5 }, streams := [⟨ent (.strq ⟨0, 0, 1, .imm 1, 0⟩), 0, 0, 1⟩] } with cells := [], parts := [(0, { ptroot := 0x10000, dir := { objs := [(5, ⟨0, 0, [1, 0, 0, 0, 0, 0, 0, 0, 48], 0⟩)] } })] }, ⟨ent (.strq ⟨0, 0, 1, .imm 1, 0⟩), 0, 0, 1⟩, 0, 0, 192, 0, ⟨0x30000, 0x1000003F⟩, by dsimp only; decide +kernel⟩⟩

theorem witness_VectorConversionsAndMoves :
    (∃ (f : VMov1) (s : State), s.opsReady 1 f.a none none (pushesOf f.od)) ∧
    (∃ (f : VUn) (s : State), s.opsReady 1 f.a none none (pushesOf f.od)) ∧
    (∃ (f : VQntF) (s : State) (q : BitVec 2), let g := groupSize f.dst f.src; f.od = .queue q ∧ s.opsReady g (.from f.a) none none [(q, 1),
      (q + 1, 1)]) ∧
    (∃ (f : VQntF) (s : State) (i : Reg), let g := groupSize f.dst f.src; f.od = .row i ∧ s.iss.lane = none ∧ i.toNat < 47 ∧
      s.opsReady g (.from f.a) none none []) ∧
    (∃ (f : VDqF) (s : State) (q : BitVec 2), let g := groupSize f.src f.dst; f.od = .queue q ∧ s.opsReady 1 f.a (some f.b) none [(q, g)]) ∧
    (∃ (f : VDqF) (s : State) (i : Reg), let g := groupSize f.src f.dst; f.od = .row i ∧ s.iss.lane = none ∧ i.toNat + g ≤ 48 ∧
      s.opsReady 1 f.a (some f.b) none []) :=
  ⟨⟨⟨.queue 3, .from (.row 0), .f32⟩, inU .e (on front), by decide +kernel⟩,
    ⟨⟨.queue 3, .from (.row 0), .f32, .rne, false⟩, inU .e (on front), by decide +kernel⟩,
    ⟨⟨.queue 2, .row 0, .mxi8, .f32⟩, inU .e (on front), 2, by dsimp only; decide +kernel⟩,
    ⟨⟨.row 46, .row 0, .mxi8, .f32⟩, inU .e z, 46, by dsimp only; decide +kernel⟩,
    ⟨⟨.queue 0, .from (.row 0), .from (.row 1), .f32, .mxi8, 0, false, .rne, false⟩, inU .e (on front), 0, by dsimp only; decide +kernel⟩,
    ⟨⟨.row 44, .from (.row 0), .from (.row 1), .f32, .mxi8, 0, false, .rne, false⟩, inU .e z, 44, by dsimp only; decide +kernel⟩⟩

theorem witness_RoundingOnce :
    (∃ f, ∃ (c : Nat), f ∈ [fp32, fp16, fpB16, fpE4M3, fpE5M2] ∧ c < 2 ^ f.w ∧ (f.num c).isNan = false) ∧
    (∃ (neg : Bool) (m k : Nat), let r (rm : RM) : Int := (roundInt rm neg m k false : Int) * 2 ^ k; 2 * |r .rne - m| = 2 ^ k ∧ k ≠ 0) ∧
    (∃ f, ∃ i, f ∈ [fp32, fp16, fpB16, fpE4M3, fpE5M2] ∧ f.infCode = some i) ∧
    (∃ f, f ∈ [fp32, fp16, fpB16, fpE4M3, fpE5M2] ∧ f.infCode = none) ∧
    (∃ p, ∃ (rm : RM) (neg : Bool) (m k : Nat), let r := roundInt rm neg m k false * 2 ^ k; p ∈ [(fp32, (2 ^ 24 - 1) * 2 ^ 104), (fp16, 65504),
      (fpB16, 255 * 2 ^ 120), (fpE4M3, 448), (fpE5M2, 57344)] ∧ 2 ^ (k + p.1.mw) ≤ m ∧ m < 2 ^ (k + p.1.mw + 1) ∧ p.2 < r) ∧
    (∃ p, ∃ (rm : RM) (neg : Bool) (m k : Nat), let r := roundInt rm neg m k false * 2 ^ k; p ∈ [(fp32, (2 ^ 24 - 1) * 2 ^ 104), (fp16, 65504),
      (fpB16, 255 * 2 ^ 120), (fpE4M3, 448), (fpE5M2, 57344)] ∧ 2 ^ (k + p.1.mw) ≤ m ∧ m < 2 ^ (k + p.1.mw + 1) ∧ r ≤ p.2) :=
  ⟨⟨fp32, 0x7F800000, ⟨.head _, by decide +kernel⟩⟩,
    ⟨false, 1, 1, by dsimp only; decide +kernel⟩,
    ⟨fp32, 0x7F800000, ⟨.head _, rfl⟩⟩,
    ⟨fpE4M3, ⟨.tail _ (.tail _ (.tail _ (.head _))), rfl⟩⟩,
    ⟨(fp16, 65504), .rne, false, 2 ^ 20 + 2 ^ 19, 10, by dsimp only; decide +kernel⟩,
    ⟨(fp16, 65504), .rne, false, 2 ^ 11 - 1, 0, by dsimp only; decide +kernel⟩⟩

theorem witness_VectorWaits :
    (∃ (s : State) (f : VBin), (∃ e ∈ queueNeeds 1 f.a (some f.b), (s.me.lq e.1).filled s.keel < needOf (queueNeeds 1 f.a (some f.b)) e.1)) ∧
    (∃ (s : State) (v : VMov1), v.a = .held ∧ s.me.latchA = none ∧ (∀ p ∈ pushesOf v.od, s.canPush p.1 p.2 = true)) ∧
    (∃ (s : State) (v : VMov1) (x : Src), v.a = .from x ∧ (∀ e ∈ srcNeed 1 x, e.2.1 ≤ (s.me.lq e.1).filled s.keel) ∧ (∀ p ∈ pushesOf v.od,
      s.canPush p.1 p.2 = true) ∧ s.vecPoisoned 0 x = true) :=
  ⟨⟨inU .e z, ⟨.row 0, .from (.queue 0 0 true), .from (.row 0), .f32, .rne, false⟩, by decide +kernel⟩,
    ⟨inU .e z, ⟨.row 0, .held, .f32⟩, by decide +kernel⟩,
    ⟨{ inU .e z with psnGrid := [(0, 5, 0)] }, ⟨.row 0, .from (.row 5), .f32⟩, .row 5, by decide +kernel⟩⟩

theorem witness_TensorSteps :
    (∃ (s : State) (f : MmaF) (x y : OpAt) (as bs : List (List Sys2Proof.Num)), let a := s.mmaStart f; let d := f.pd.toNat + 2;
      let n := if f.af = .pni ∧ f.bf = .pni ∧ d < 8 then 16 * ((d + 1) / 2) else 96; s.wakeOf = none ∧ a.prog < a.cnt ∧ s.aAt f a.prog = some x ∧
      s.bAt f a.prog = some (.ok y) ∧ s.tokensFor n ∧ s.opUsable f.af f.a.trans d x ∧ s.opUsable f.bf f.b.trans d y ∧
      s.fetchOp f.af f.a.trans d f.pf x = .vals as ∧ s.fetchOp f.bf f.b.trans d f.pf y = .vals bs ∧
      (f.ck = true → ∀ t row, f.a = .arrv t → x = .spad row → s.badRow (opRanges f.af t d row) = none) ∧ s.accPoisoned f.acc = false ∧
      s.me.checkErr = false) ∧
    (∃ (s : State) (f : MmaF), s.wakeOf = none ∧ (s.me.acc f.acc).begun = false ∧ f.ks = 0 ∧ (s.scalar 1).toNat % 65536 = 0 ∧ (∀ t, f.a ≠ .arrv t) ∧
      (∀ t, f.b ≠ .ver t)) ∧
    (∃ (s : State) (f : MmaF), s.wakeOf = none ∧ ((∃ t, f.a = .arrv t) ∨ (∃ t, f.b = .ver t)) ∧ s.me.cur = none) ∧
    (∃ (s : State) (e : Entry) (rest : List Entry) (f : MmaF), (s.ctx s.arg.a).bufT = e :: rest ∧ e.instr = .mma f ∧ s.unitRuns s.arg.a = true) ∧
    (∃ (as bs : List (List Sys2Proof.Num)) (i j : Nat), as.length = 48 ∧ bs.length = 48 ∧ i < 48 ∧ j < 48) ∧
    (∃ (xs ys : List Int), xs.length = ys.length) :=
  ⟨⟨inU .t z, mma0, .grid, _, _, _, by decide +kernel, by decide +kernel, rfl, rfl, by decide +kernel, trivial, by decide +kernel, fetched_vals (by decide +kernel), fetched_vals (by decide +kernel), ⟨nofun, by decide +kernel, by decide +kernel⟩⟩,
    ⟨inU .t z, { mma0 with ks := 0 }, ⟨by decide +kernel, by decide +kernel, rfl, by decide +kernel, nofun, nofun⟩⟩,
    ⟨inU .t z, { mma0 with a := .arrv false }, ⟨by decide +kernel, .inl ⟨false, rfl⟩, by decide +kernel⟩⟩,
    ⟨on { c0 with bufT := [ent (.mma mma0)] }, _, _, _, rfl, rfl, by decide +kernel⟩,
    ⟨List.replicate 48 [], List.replicate 48 [], 47, 47, by decide +kernel⟩,
    ⟨[1], [2], by decide +kernel⟩⟩

theorem witness_AccumulatorInstructions :
    (∃ (s : State) (r : Reg), let x := (s.scalar r).toNat; s.spadUsable x 9216 ∧ s.spadPoisoned (s.iss.src / 4) x 9216 = false) ∧
    (∃ (s : State) (a : BitVec 2) (r : Reg), let x := (s.scalar r).toNat; s.spadUsable x 9216 ∧ s.accPoisoned a = false) ∧
    (∃ (r : Reg) (s : State), 0x180000 < (s.scalar r).toNat + 9216) :=
  ⟨⟨inU .t (z1 0x17DC00), 1, by dsimp only; decide +kernel⟩,
    ⟨inU .t (z1 0x17DC00), 0, 1, by dsimp only; decide +kernel⟩,
    ⟨1, inU .t (z1 0x17DC01), by decide +kernel⟩⟩

theorem witness_EpilogueResults :
    (∃ (s : State) (f : EpiF) (r : Reg), let x := (s.scalar f.c).toNat;
      let bias := if f.c = 0 then s.iss.bias else some (s.iss.bias.getD (rowOf (s.spadRead s.pathK (s.iss.src / 4) x 192)));
      let scale := if f.b = 0 then none else some (fp32.num ((s.scalar f.b).toNat % 2 ^ 32));
      let vals := epiVals f (s.me.acc f.acc) scale bias s.iss.rvm; let rows := epiRows f vals; let y := (s.scalar r).toNat;
      let bs := (rows.map EpiRow.bytes).flatten ++ checkBlock f s.iss.rvm (rows.map EpiRow.bytes); (f.c = 0 ∨ s.iss.bias ≠ none ∨ (s.spadUsable x 192 ∧
      s.spadPoisoned (s.iss.src / 4) x 192 = false)) ∧ s.accPoisoned f.acc = false ∧ (f.watch = true → s.iss.prog = 0 → ∀ r ∈ vals, ∀ v ∈ r.1,
      (fp32.num v).isNan = false) ∧ f.dest = .spad r ∧ bs.length = rows.length * epiPitch f.ty + 512 ∧ s.spadUsable y bs.length) ∧
    (∃ (s : State) (f : EpiF) (q : BitVec 2), let x := (s.scalar f.c).toNat;
      let bias := if f.c = 0 then s.iss.bias else some (s.iss.bias.getD (rowOf (s.spadRead s.pathK (s.iss.src / 4) x 192)));
      let scale := if f.b = 0 then none else some (fp32.num ((s.scalar f.b).toNat % 2 ^ 32));
      let vals := epiVals f (s.me.acc f.acc) scale bias s.iss.rvm; let rows := epiRows f vals; let rest := rows.drop s.iss.prog;
      let ks : List Nat := if f.ty.isBlock then [0, 1] else [0]; (f.c = 0 ∨ s.iss.bias ≠ none ∨ (s.spadUsable x 192 ∧
      s.spadPoisoned (s.iss.src / 4) x 192 = false)) ∧ s.accPoisoned f.acc = false ∧ (f.watch = true → s.iss.prog = 0 → ∀ r ∈ vals, ∀ v ∈ r.1,
      (fp32.num v).isNan = false) ∧ f.dest = .sq q ∧ (∀ k ∈ ks, (s.me.sq (q + BitVec.ofNat 2 k)).prods.head? = some s.iss.id ∧
      (s.me.sq (q + BitVec.ofNat 2 k)).slots.length + rest.length ≤ (s.me.sq (q + BitVec.ofNat 2 k)).depth)) ∧
    (∃ (s : State) (f : EpiF), let x := (s.scalar f.c).toNat;
      let bias := if f.c = 0 then s.iss.bias else some (s.iss.bias.getD (rowOf (s.spadRead s.pathK (s.iss.src / 4) x 192)));
      let scale := if f.b = 0 then none else some (fp32.num ((s.scalar f.b).toNat % 2 ^ 32));
      let vals := epiVals f (s.me.acc f.acc) scale bias s.iss.rvm; (f.c = 0 ∨ s.iss.bias ≠ none ∨ (s.spadUsable x 192 ∧
      s.spadPoisoned (s.iss.src / 4) x 192 = false)) ∧ s.accPoisoned f.acc = false ∧ f.watch = true ∧ s.iss.prog = 0 ∧ (∃ r ∈ vals, ∃ v ∈ r.1,
      (fp32.num v).isNan = true) ∧ s.me.tstate.getLsbD 0 = false ∧ s.me.tvec ≠ 0 ∧ s.iss.unit = .t) :=
  ⟨⟨inU .t z, epi0, 1, by dsimp only; decide +kernel⟩,
    ⟨{ on front with iss := { unit := .t, id := 1, prog := 40 } }, { epi0 with dest := .sq 0 }, 0, by dsimp only; decide +kernel⟩,
    ⟨inU .t (on { c0 with accs := Vector.replicate 4 { rows := Vector.replicate 48 (-1) } }), { epi0 with watch := true }, by dsimp only; decide +kernel⟩⟩

theorem witness_TellAndUnwind :
    (∃ (s : State) (n : BitVec 4), let d := if 8 ≤ n.toNat ∧ n.toNat < 15 then n.toNat - 6 else 8; let cost := if 7 ≤ n.toNat ∧ n.toNat < 15 ∧
      d < 8 then 16 * ((d + 1) / 2) else 96; s.tokensFor cost ∧ s.iss.xtnd = some (tellCrc n.toNat)) ∧
    (∃ (s : State) (n : BitVec 4) (e : DrogueE) (rest : List DrogueE), let d := if 8 ≤ n.toNat ∧ n.toNat < 15 then n.toNat - 6 else 8;
      let cost := if 7 ≤ n.toNat ∧ n.toNat < 15 ∧ d < 8 then 16 * ((d + 1) / 2) else 96; s.tokensFor cost ∧ s.iss.xtnd ≠ some (tellCrc n.toNat) ∧
      s.iss.unit = .t ∧ s.me.drogue = e :: rest) ∧
    (∃ (s : State) (n : BitVec 4), let d := if 8 ≤ n.toNat ∧ n.toNat < 15 then n.toNat - 6 else 8; let cost := if 7 ≤ n.toNat ∧ n.toNat < 15 ∧
      d < 8 then 16 * ((d + 1) / 2) else 96; s.tokensFor cost ∧ s.iss.xtnd ≠ some (tellCrc n.toNat) ∧ s.me.drogue = []) :=
  ⟨⟨{ z with iss := { unit := .t, xtnd := some (tellCrc (14 : BitVec 4).toNat) } }, 14, by dsimp only; exact ⟨by decide +kernel, rfl⟩⟩,
    ⟨inU .t (on { c0 with drogue := [⟨0x2000, {}, 0⟩] }), 15, ⟨0x2000, {}, 0⟩, [], by dsimp only; decide +kernel⟩,
    ⟨inU .t z, 15, by dsimp only; decide +kernel⟩⟩

theorem witness_TileTransfers :
    (∃ (s : State) (n : BitVec 8) (a b : Reg) (r : Str), let w := s.scalar b; let kind := (w.extractLsb' 24 3).toNat;
      let v : BitVec 8 := if kind = 0 then r.u else if kind = 3 then r.u + 1 else w.extractLsb' 16 8; let up := decide (kind = 2 ∨ kind = 4 ∧
      w.getLsbD 27 = true); let edge := if up then r.hdr.n - 1 else 0; let x := (s.scalar a).toNat; let len := (r.hdr.tr - 1) * r.hdr.rp + r.hdr.rb;
      s.str s.myPart n.toNat = some r ∧ r.hdr.adm = s.iss.src ∧ kind ≤ 4 ∧ (kind = 1 ∨ kind = 2 → v = r.u ∨ v = r.u - 1) ∧ (kind = 3 → r.livePrev = 0) ∧
      (kind = 0 ∨ kind = 1 → r.hdr.mbmax = 0 ∨ r.mbc ≠ r.hdr.mbmax) ∧ r.canSend up true edge = true ∧ (kind ≠ 4 → s.keepFree r edge ∧ s.me.bufA = [] ∧
      s.me.streams = [] ∧ s.spadUsable x len ∧ s.spadPoisoned (s.iss.src / 4) x len = false)) ∧
    (∃ (s : State) (r : Str) (i : Nat) (v : Arrival), s.me.cur = some v ∧ s.handlerOf s.iss.src = some (r, i) ∧ s.str r.part r.id = some r ∧
      v.tag.kind.toNat < 3 ∧ r.far v.tag.up i = false ∧ v.passed = true) ∧
    (∃ (s : State) (a : Reg) (r : Str) (i : Nat) (v : Arrival), let x := (s.scalar a).toNat; let len := (r.hdr.tr - 1) * r.hdr.rp + r.hdr.rb;
      s.me.cur = some v ∧ s.handlerOf s.iss.src = some (r, i) ∧ s.str r.part r.id = some r ∧ v.tag.kind.toNat < 3 ∧ r.far v.tag.up i = false ∧
      v.passed = false ∧ r.canSend v.tag.up false i = true ∧ s.keepFree r i ∧ s.spadUsable x len ∧ s.spadPoisoned (s.iss.src / 4) x len = false) ∧
    (∃ (s : State) (r : Str) (i : Nat) (v : Arrival), s.me.cur = some v ∧ s.handlerOf s.iss.src = some (r, i) ∧ s.str r.part r.id = some r ∧
      v.tag.kind.toNat < 3 ∧ r.far v.tag.up i = false) ∧
    (∃ (s : State) (f : EpiF) (r : Str) (i : Nat) (v : Arrival),
      let scale := if f.b = 0 then none else some (fp32.num ((s.scalar f.b).toNat % 2 ^ 32));
      let rows := epiRows f (epiVals f (s.me.acc f.acc) scale s.iss.bias s.iss.rvm); s.me.cur = some v ∧ s.handlerOf s.iss.src = some (r, i) ∧
      s.str r.part r.id = some r ∧ v.tag.kind.toNat < 3 ∧ r.far v.tag.up i = false ∧ v.passed = false ∧ r.canSend v.tag.up false i = true ∧
      s.keepFree r i ∧ f.dest = .pass ∧ f.c = 0 ∧ f.watch = false ∧ s.accPoisoned f.acc = false ∧ r.hdr.tr = rows.length ∧ r.hdr.rb = epiPitch f.ty ∧
      s.iss.flow = .fall) ∧
    (∃ (s : State) (r : Str) (p : Pos) (f : Flight) (rest : List Flight) (k : Nat), let up := s.arg.flg;
      s.str (s.arg.a / 256) (s.arg.a % 256) = some r ∧ r.pos? s.arg.b = some p ∧ p.link up = f :: rest ∧ r.frozen = [] ∧
      freeSlot r.hdr.ni (p.box.map (·.slot)) = some k ∧ f.tile.tag.kind ≠ 1 ∧
      s.regionsFree p.cell (s.teamKey p.src) (regionsOf (p.inbox + k * r.hdr.size) f.tile.bytes.length)) ∧
    (∃ (s : State) (r : Str) (p : Pos) (f : Flight) (rest : List Flight) (k : Nat), let up := s.arg.flg;
      s.str (s.arg.a / 256) (s.arg.a % 256) = some r ∧ r.pos? s.arg.b = some p ∧ p.link up = f :: rest ∧ r.frozen = [] ∧
      freeSlot r.hdr.ni (p.box.map (·.slot)) = some k ∧ f.tile.tag.kind = 1 ∧ freeSlot r.hdr.nm (p.meets.map (·.idx)) = none) ∧
    (∃ (s : State) (r : Str) (p : Pos) (f : Flight) (rest : List Flight) (k n : Nat), ∃ e, let up := s.arg.flg;
      let old := p.meets.find? fun e => e.mb = f.tile.tag.mb; s.str (s.arg.a / 256) (s.arg.a % 256) = some r ∧ r.pos? s.arg.b = some p ∧
      p.link up = f :: rest ∧ r.frozen = [] ∧ freeSlot r.hdr.ni (p.box.map (·.slot)) = some k ∧ f.tile.tag.kind = 1 ∧
      freeSlot r.hdr.nm (p.meets.map (·.idx)) = some n ∧ old = some e ∧ e.bound = true) ∧
    (∃ (s : State) (r : Str) (p : Pos) (f : Flight) (rest : List Flight) (k n : Nat), let up := s.arg.flg;
      let old := p.meets.find? fun e => e.mb = f.tile.tag.mb; let m := old.elim n (·.idx); s.str (s.arg.a / 256) (s.arg.a % 256) = some r ∧
      r.pos? s.arg.b = some p ∧ p.link up = f :: rest ∧ r.frozen = [] ∧ freeSlot r.hdr.ni (p.box.map (·.slot)) = some k ∧ f.tile.tag.kind = 1 ∧
      freeSlot r.hdr.nm (p.meets.map (·.idx)) = some n ∧ (∀ e, old = some e → e.bound = false) ∧
      s.regionsFree p.cell (s.teamKey p.src) (regionsOf (p.inbox + k * r.hdr.size) f.tile.bytes.length ++ regionsOf (p.meetb + m * r.hdr.size) f.tile.bytes.length)) :=
  ⟨⟨{ z1 0x17EE00 with strs := [str0 pos0] }, 7, 1, 2, str0 pos0, by dsimp only; decide +kernel⟩,
    ⟨{ inU .t (on { c0 with cur := some { arr0 with passed := true } }) with strs := [str0 pos0] }, str0 pos0, 0, { arr0 with passed := true }, by decide +kernel⟩,
    ⟨{ inU .t (on { c0.setReg 1 0x17EE00 with cur := some arr0 }) with strs := [str0 pos0] }, 1, str0 pos0, 0, arr0, by dsimp only; decide +kernel⟩,
    ⟨{ inU .t (on { c0 with cur := some arr0 }) with strs := [str0 pos0] }, str0 pos0, 0, arr0, by decide +kernel⟩,
    ⟨{ inU .t (on { c0 with cur := some arr0 }) with strs := [str0 pos0] }, { epi0 with dest := .pass, ty := .bf16 }, str0 pos0, 0, arr0, by dsimp only; decide +kernel⟩,
    ⟨ev { a := 7 } { z with strs := [str0 { pos0 with linkDown := [flight0] }] }, str0 { pos0 with linkDown := [flight0] }, { pos0 with linkDown := [flight0] }, flight0, [], 0, by dsimp only; decide +kernel⟩,
    ⟨ev { a := 7 } { z with strs := [str0 { pos0 with linkDown := [{ flight0 with tile := { flight0.tile with tag := { flight0.tile.tag with kind := 1 } } }], meets := [⟨0, 9, false, []⟩, ⟨1, 8, false, []⟩] }] }, str0 { pos0 with linkDown := [{ flight0 with tile := { flight0.tile with tag := { flight0.tile.tag with kind := 1 } } }], meets := [⟨0, 9, false, []⟩, ⟨1, 8, false, []⟩] }, { pos0 with linkDown := [{ flight0 with tile := { flight0.tile with tag := { flight0.tile.tag with kind := 1 } } }], meets := [⟨0, 9, false, []⟩, ⟨1, 8, false, []⟩] }, { flight0 with tile := { flight0.tile with tag := { flight0.tile.tag with kind := 1 } } }, [], 0, by dsimp only; decide +kernel⟩,
    ⟨ev { a := 7 } { z with strs := [str0 { pos0 with linkDown := [{ flight0 with tile := { flight0.tile with tag := { flight0.tile.tag with kind := 1 } } }], meets := [⟨1, 0, true, []⟩] }] }, str0 { pos0 with linkDown := [{ flight0 with tile := { flight0.tile with tag := { flight0.tile.tag with kind := 1 } } }], meets := [⟨1, 0, true, []⟩] }, { pos0 with linkDown := [{ flight0 with tile := { flight0.tile with tag := { flight0.tile.tag with kind := 1 } } }], meets := [⟨1, 0, true, []⟩] }, { flight0 with tile := { flight0.tile with tag := { flight0.tile.tag with kind := 1 } } }, [], 0, 0, ⟨1, 0, true, []⟩, by dsimp only; decide +kernel⟩,
    ⟨ev { a := 7 } { z with strs := [str0 { pos0 with linkDown := [{ flight0 with tile := { flight0.tile with tag := { flight0.tile.tag with kind := 1 } } }], meets := [] }] }, str0 { pos0 with linkDown := [{ flight0 with tile := { flight0.tile with tag := { flight0.tile.tag with kind := 1 } } }], meets := [] }, { pos0 with linkDown := [{ flight0 with tile := { flight0.tile with tag := { flight0.tile.tag with kind := 1 } } }], meets := [] }, { flight0 with tile := { flight0.tile with tag := { flight0.tile.tag with kind := 1 } } }, [], 0, 0, by dsimp only; exact ⟨by decide +kernel, by decide +kernel, by decide +kernel, by decide +kernel, by decide +kernel, by decide +kernel, by decide +kernel, nofun, by decide +kernel⟩⟩⟩

theorem witness_Arrivals :
    (∃ (s : State) (r : Str) (i : Nat) (p : Pos) (b : Inbox), s.me.waitOver 6 = false ∧ s.handlerOf s.iss.src = some (r, i) ∧ s.me.cur = none ∧
      r.pos? i = some p ∧ p.box.find? (fun b => !b.current) = some b ∧ r.frozen = [] ∧ b.at_ < s.keel ∧ s.mayBound .cell = true) ∧
    (∃ (s : State) (r : Str) (i : Nat) (p : Pos) (v : Arrival), s.me.waitOver 6 = false ∧ s.handlerOf s.iss.src = some (r, i) ∧
      s.str r.part r.id = some r ∧ r.pos? i = some p ∧ s.me.cur = some v ∧ s.handlerMayEnd r i v = true ∧ v.tag.kind.toNat < 3 ∧ s.me.commitOn = false) ∧
    (∃ (s : State) (r : Str) (i : Nat) (v : Arrival), s.me.waitOver 6 = false ∧ s.handlerOf s.iss.src = some (r, i) ∧ s.me.cur = some v ∧
      s.handlerMayEnd r i v = true ∧ v.tag.kind.toNat < 3 ∧ s.me.commitOn = true ∧ s.spadUsable s.me.commitAddr 9216 ∧
      s.accPoisoned s.me.commitAcc = false) ∧
    (∃ (s t : State) (d : Reg), s.runnable s.arg.a = true ∧ (s.ctx s.arg.a).lateAt = 0 ∧ s.goOn s.arg.a = some (.arrv d, t)) ∧
    (∃ (s : State) (e : Entry) (rest : List Entry), (s.ctx s.arg.a).bufT = e :: rest ∧ s.unitRuns s.arg.a = true ∧
      ((∃ a up, e.instr = .pass a up) ∨ (∃ f, e.instr = .epi f ∧ f.dest = .pass))) ∧
    (∃ (s t : State) (n : BitVec 8) (a b c : Reg), (s.ctx s.arg.a).bufT = [] ∧ s.runnable s.arg.a = true ∧ (s.ctx s.arg.a).lateAt = 0 ∧
      s.goOn s.arg.a = some (.admitTile n a b c, t)) :=
  ⟨⟨{ z with strs := [str0 { pos0 with box := [⟨0, flight0, 999, false⟩] }] }, str0 { pos0 with box := [⟨0, flight0, 999, false⟩] }, 0, { pos0 with box := [⟨0, flight0, 999, false⟩] }, ⟨0, flight0, 999, false⟩, by decide +kernel⟩,
    ⟨{ on { c0 with cur := some arr0 } with strs := [str0 pos0] }, str0 pos0, 0, pos0, arr0, by decide +kernel⟩,
    ⟨{ on { c0 with cur := some arr0, wcommit := 0x17DC04 } with strs := [str0 pos0] }, str0 pos0, 0, arr0, by decide +kernel⟩,
    ⟨busyOn (.arrv 1), goneOn (.arrv 1), 1, ⟨by decide +kernel, by decide +kernel, by rfl⟩⟩,
    ⟨on { c0 with bufT := [ent (.pass 0 false)] }, _, _, rfl, by decide +kernel, .inl ⟨0, false, rfl⟩⟩,
    ⟨busyOn (.admitTile 7 1 2 3), goneOn (.admitTile 7 1 2 3), 7, 1, 2, 3, ⟨by decide +kernel, by decide +kernel, by decide +kernel, by rfl⟩⟩⟩

theorem witness_RigAndQueries :
    (∃ (s : State) (a : Reg), let x := (s.scalar a).toNat; let len := 32 + 32 * fieldAt (s.spadRead s.pathL (s.iss.src / 4) x 32) 0 1; x % 8 = 0 ∧
      x + 32 ≤ 0x180000 ∧ s.me.bufA = [] ∧ s.me.streams = [] ∧ s.spadUsable x len ∧ s.spadPoisoned (s.iss.src / 4) x len = false) ∧
    (∃ (s : State) (n : BitVec 8), s.str s.myPart n.toNat = none) ∧
    (∃ (s : State) (n : BitVec 8) (r : Str), s.str s.myPart n.toNat = some r ∧ (if r.team.isSome then s.me.team = r.team else r.rigger = s.iss.src) ∧
      (∀ p ∈ r.pos, p.box = [] ∧ p.linkDown = [] ∧ p.linkUp = [] ∧ (p.gone = true ∨ s.inArrv (p.cell * 4 + p.slot) = true))) ∧
    (∃ (s : State) (n : BitVec 8) (r : Str), s.str s.myPart n.toNat = some r ∧ ¬ (if r.team.isSome then s.me.team = r.team else r.rigger = s.iss.src)) ∧
    (∃ (s : State) (r : Str) (i : Nat) (p : Pos) (v : Arrival) (e : MeetE), s.me.cur = some v ∧ s.handlerOf s.iss.src = some (r, i) ∧
      r.pos? i = some p ∧ v.tag.kind = 2 ∧ v.meet = none ∧ p.meets.find? (fun e => e.mb = v.tag.mb) = some e ∧ s.mayBound .cell = true) ∧
    (∃ (s : State), s.cellStr (s.iss.src / 4) = none ∧ s.me.bufT = []) ∧
    (∃ (s : State), s.cellStr (s.iss.src / 4) ≠ none) ∧
    (∃ (s : State) (a : Reg) (r : Str) (i : Nat) (p q : Pos) (v : Arrival) (b : Inbox), s.me.cur = some v ∧ s.handlerOf s.iss.src = some (r, i) ∧
      r.pos? i = some p ∧ (v.tag.kind.toNat = 0 ∨ v.tag.kind.toNat = 2) ∧ p.box.find? (fun b => b.slot = v.slot) = some b ∧ r.pos? b.fl.frm = some q ∧
      (s.scalar a).getLsbD 0 = true ∧ s.regionsFree q.cell (s.teamKey q.src) (regionsOf (q.retain + b.fl.keep * r.hdr.size) r.hdr.size) ∧
      s.regionsFree p.cell (s.teamKey p.src) (regionsOf v.addr r.hdr.size)) :=
  ⟨⟨z1 0x17FFE0, 1, by dsimp only; decide +kernel⟩,
    ⟨z, 255, by decide +kernel⟩,
    ⟨{ on { c0 with busy := some (wordOf (.arrv 1)), wait := some { since := 0, deadline := none, kind := 6, obj := 7 } } with strs := [{ str0 pos0 with pos := [pos0, { pos1 with gone := true }] }] }, 7, { str0 pos0 with pos := [pos0, { pos1 with gone := true }] }, by decide +kernel⟩,
    ⟨{ z with strs := [{ str0 pos0 with rigger := 5 }] }, 7, { str0 pos0 with rigger := 5 }, by decide +kernel⟩,
    ⟨{ on { c0 with cur := some { arr0 with tag := { kind := 2 } } } with strs := [str0 { pos0 with meets := [⟨0, 0, false, []⟩] }] }, str0 { pos0 with meets := [⟨0, 0, false, []⟩] }, 0, { pos0 with meets := [⟨0, 0, false, []⟩] }, { arr0 with tag := { kind := 2 } }, ⟨0, 0, false, []⟩, by decide +kernel⟩,
    ⟨z, by decide +kernel⟩,
    ⟨{ z with strs := [str0 pos0] }, by decide +kernel⟩,
    ⟨{ on { c0.setReg 1 1 with cur := some arr0 } with strs := [str0 { pos0 with box := [⟨0, flight0, 0, true⟩] }] }, 1, str0 { pos0 with box := [⟨0, flight0, 0, true⟩] }, 0, { pos0 with box := [⟨0, flight0, 0, true⟩] }, pos1, arr0, ⟨0, flight0, 0, true⟩, by decide +kernel⟩⟩

theorem witness_GraphInstructions :
    (∃ (s : State) (a : Reg) (q : BitVec 10) (pa : Nat), let x := (s.scalar a).toNat; let pkt := s.spadRead s.pathL (s.iss.src / 4) x 64;
      let u := s.queue q.toNat; (∀ c ∈ s.me.claims, ¬ (c.pc = s.iss.pc ∧ c.queue = q.toNat)) ∧ x % 8 = 0 ∧ s.me.bufA = [] ∧ s.me.streams = [] ∧
      s.spadUsable x 64 ∧ s.spadPoisoned (s.iss.src / 4) x 64 = false ∧ s.mayBound .part = true ∧ s.partOfQueue q.toNat = s.myPart ∧
      u.configured = true ∧ fieldAt pkt 0 1 = 1 ∧ u.widx < u.ridx + u.len ∧ s.engineWalk s.myPart (u.base + 64 * (u.widx % u.len)) true = some (.ok pa)) ∧
    (∃ (s : State) (nid : Nat) (n : Node), s.me.node = some nid ∧ s.nodeOf nid = some n ∧ s.mayBound .part = true) ∧
    (∃ (s : State) (nid : Nat), s.me.node = some nid ∧ s.quiet = true ∧ s.me.deliver = [] ∧ s.me.copies = [] ∧ s.me.puts = [] ∧
      s.mayBound .part = true ∧ Stamp.lt ⟨s.keel, s.iss.src⟩ (s.part s.myPart).ops = false) ∧
    (∃ (s : State) (a : Reg) (nid : Nat) (l : Launch) (me : Node), let x := (s.scalar a).toNat; let b := s.spadRead s.pathL (s.iss.src / 4) x 128;
      s.me.node = some nid ∧ s.launch nid = some l ∧ s.nodeOf nid = some me ∧ x % 8 = 0 ∧ s.me.bufA = [] ∧ s.me.streams = [] ∧ s.spadUsable x 128 ∧
      s.spadPoisoned (s.iss.src / 4) x 128 = false ∧
      (nodeRecOk b l.nodes.length = false ∨ (nodeRecOf b).preds ≠ 0 ∨ 4096 ≤ l.nodes.length ∨ (∃ i ∈ (nodeRecOf b).succ, ∀ n, l.nodes.find? (fun n => n.idx = i) = some n → n.state ≠ 0))) ∧
    (∃ (s : State) (a : Reg) (nid : Nat) (l : Launch) (me : Node), let x := (s.scalar a).toNat; let b := s.spadRead s.pathL (s.iss.src / 4) x 128;
      s.me.node = some nid ∧ s.launch nid = some l ∧ s.nodeOf nid = some me ∧ x % 8 = 0 ∧ s.me.bufA = [] ∧ s.me.streams = [] ∧ s.spadUsable x 128 ∧
      s.spadPoisoned (s.iss.src / 4) x 128 = false ∧ nodeRecOk b l.nodes.length = true ∧ (nodeRecOf b).preds = 0 ∧ (nodeRecOf b).succ = [] ∧
      l.nodes.length < 4096 ∧ s.poolUsed < Config.poolEntries ∧ me.released = true) ∧
    (∃ (s : State) (a : Reg) (nid : Nat) (l : Launch) (me : Node), let x := (s.scalar a).toNat; let b := s.spadRead s.pathL (s.iss.src / 4) x 128;
      s.me.node = some nid ∧ s.launch nid = some l ∧ s.nodeOf nid = some me ∧ x % 8 = 0 ∧ s.me.bufA = [] ∧ s.me.streams = [] ∧ s.spadUsable x 128 ∧
      s.spadPoisoned (s.iss.src / 4) x 128 = false ∧ nodeRecOk b l.nodes.length = true ∧ (nodeRecOf b).preds = 0 ∧ (nodeRecOf b).succ = [] ∧
      l.nodes.length < 4096 ∧ s.poolUsed < Config.poolEntries ∧ me.released = false) :=
  ⟨⟨{ z1 0x17FFC0 with spad := [(0x17FFC0, 1)], queues := [(1023, { weight := 1, len := 1 })] }, 1, 1023, 0x10000000, by dsimp only; decide +kernel⟩,
    ⟨{ on { c0 with node := some 4096 } with launches := [launch0 (node0 rec0 2)] }, 4096, node0 rec0 2, by decide +kernel⟩,
    ⟨on { c0 with node := some 4096 }, 4096, by decide +kernel⟩,
    ⟨{ on { c0.setReg 1 0x17FF80 with node := some 4096 } with launches := [launch0 (node0 rec0 2)] }, 1, 4096, launch0 (node0 rec0 2), node0 rec0 2, by dsimp only; decide +kernel⟩,
    ⟨{ on { c0.setReg 1 0x17FF80 with node := some 4096 } with launches := [launch0 { node0 rec0 3 with released := true }], spad := [(0x17FF83, 1)] }, 1, 4096, launch0 { node0 rec0 3 with released := true }, { node0 rec0 3 with released := true }, by dsimp only; decide +kernel⟩,
    ⟨{ on { c0.setReg 1 0x17FF80 with node := some 4096 } with launches := [launch0 (node0 rec0 3)], spad := [(0x17FF83, 1)] }, 1, 4096, launch0 (node0 rec0 3), node0 rec0 3, by dsimp only; decide +kernel⟩⟩

theorem witness_PoolEvents :
    (∃ (s : State) (b : List Byte) (rs : List NodeRec), let q := s.arg.a; let u := s.queue q; let n := fieldAt b 2 2; u.hand = some b ∧
      launchOk b = true ∧ s.poolUsed + n ≤ Config.poolEntries ∧ s.readNodes (s.partOfQueue q) (fieldAt b 8 8) n n = some (some rs)) ∧
    (∃ (s : State) (b : List Byte), let q := s.arg.a; (s.queue q).hand = some b ∧ launchOk b = false) ∧
    (∃ (s : State) (l : Launch) (n : Node) (ops : List (Nat × Nat × HMode)) (seats : List Nat) (team : Option Nat), let nid := s.arg.a;
      s.launch nid = some l ∧ s.nextNode l.part = some (l.id, n) ∧ l.id + n.idx = nid ∧ s.operands l.part n.rec_ = some ops ∧ n.rec_.kind < 3 ∧
      s.seats l.part n.rec_ = some seats ∧ seats.Nodup ∧ (n.rec_.kind = 0 ∧ team = none ∨ n.rec_.kind ≠ 0 ∧ team ≠ none ∧ team = s.freeTeam l.part)) ∧
    (∃ (s : State) (l : Launch) (n : Node), let nid := s.arg.a; nid < 2 ^ 64 ∧ s.arg.flg = false ∧ s.launch nid = some l ∧ s.nodeOf nid = some n ∧
      (n.state = 2 ∨ n.state = 3) ∧ (n.rec_.kind < 3 → ∀ t ∈ n.threads, s.threadDone n t = true) ∧ l.flag = none ∧ n.held = [] ∧ n.released = false ∧
      (l.nodes.map (·.idx)).Nodup) ∧
    (∃ (s : State) (l : Launch) (n : Node), let nid := s.arg.a; nid < 2 ^ 64 ∧ s.arg.flg = true ∧ s.launch nid = some l ∧ s.nodeOf nid = some n) :=
  ⟨⟨{ z with queues := [(0, { hand := some (1 :: 0 :: 1 :: List.replicate 61 0) })], mem := [(0x10000003, 1)] }, 1 :: 0 :: 1 :: List.replicate 61 0, [nodeRecOf (0 :: 0 :: 0 :: 1 :: List.replicate 124 0)], by dsimp only; decide +kernel⟩,
    ⟨{ z with queues := [(0, { hand := some [] })] }, [], by dsimp only; decide +kernel⟩,
    ⟨ev { a := 4096 } { z with ctxs := [], queues := [(0, { slot := some 0 })], launches := [launch0 (node0 ⟨2, 0, 0, 0, 0, 0, 0, 0, 0, [], []⟩ 0)], mem := [(0x10000010, 8)] }, launch0 (node0 ⟨2, 0, 0, 0, 0, 0, 0, 0, 0, [], []⟩ 0), node0 ⟨2, 0, 0, 0, 0, 0, 0, 0, 0, [], []⟩ 0, [], [8], some 32768, by dsimp only; decide +kernel⟩,
    ⟨ev { a := 4096 } { z with launches := [launch0 (node0 rec0 2)] }, launch0 (node0 rec0 2), node0 rec0 2, by dsimp only; decide +kernel⟩,
    ⟨ev { a := 4096, flg := true } { z with launches := [launch0 (node0 rec0 2)] }, launch0 (node0 rec0 2), node0 rec0 2, by dsimp only; decide +kernel⟩⟩

theorem witness_CopyInstructions :
    (∃ (s : State) (a c : Reg) (ch : BitVec 2) (pa : Nat) (fo : Option Instr), let k := 4 * (s.iss.src / 4) + ch.toNat; let x := (s.scalar a).toNat;
      let n := s.chan k; let bytes := s.spadRead s.pathL (s.iss.src / 4) x 64;
      let set := if fo.isSome then bytes.take 1 ++ [bytes[1]?.getD 0 ||| 2] ++ bytes.drop 2 else bytes; let pkt := set.take 60 ++ leBytes 4 n.widx;
      let tr : Xfer := { id := n.widx, pkt := pkt, by_ := some s.iss.src, work := s.me.node, follow := fo.isSome }; x % 8 = 0 ∧ n.len ≠ 0 ∧ n.pend ≤ 1 ∧
      (fo.isSome = true → s.me.bufT.length < 4) ∧ s.me.bufA = [] ∧ s.me.streams = [] ∧ s.spadUsable x 64 ∧ s.spadPoisoned (s.iss.src / 4) x 64 = false ∧
      s.mayBound .part = true ∧ s.engineWalk s.myPart (n.base + 64 * (n.widx % n.len)) true = some (.ok pa) ∧ tr.zero = false ∧
      n.isDone n.widx = false ∧ (fo = none ∨ fo = followOn (s.scalar c))) ∧
    (∃ (s : State) (a : Reg) (ch : BitVec 2), (s.scalar a).toNat % 8 = 0 ∧ (s.scalar a).toNat + 64 ≤ 0x180000 ∧
      (s.chan (4 * (s.iss.src / 4) + ch.toNat)).len = 0) ∧
    (∃ (s : State) (a : Reg) (ch : BitVec 2), ∃ c, (s.scalar a).toNat % 8 = 0 ∧ (s.scalar a).toNat + 64 ≤ 0x180000 ∧
      (s.chan (4 * (s.iss.src / 4) + ch.toNat)).len = 0 ∧ followOn (s.scalar c) ≠ none) ∧
    (∃ (s : State) (c : Reg), followOn (s.scalar c) = none) ∧
    (∃ (s : State) (a : Reg) (ch : BitVec 2), let k := 4 * (s.iss.src / 4) + ch.toNat; (s.scalar a).toNat < (s.chan k).done ∧ s.me.deliver = [] ∧
      s.me.wait = none ∧ s.mayBound .part = true) ∧
    (∃ (s : State) (a : Reg) (ch : BitVec 2), let k := 4 * (s.iss.src / 4) + ch.toNat; (s.chan k).done ≤ (s.scalar a).toNat ∧ s.iss.unit = .c) ∧
    (∃ (s : State) (a : Reg) (ch : BitVec 2), let k := 4 * (s.iss.src / 4) + ch.toNat; let id := (s.scalar a).toNat; (s.chan k).isDone id = true ∧
      s.me.deliver = [] ∧ s.me.wait = none) ∧
    (∃ (s : State) (a : Reg) (ch : BitVec 2) (p : Nat), let k := 4 * (s.iss.src / 4) + ch.toNat; let id := (s.scalar a).toNat;
      (s.chan k).isDone id = false ∧ tfind (s.chan k).proms id = some p ∧ p ≤ s.keel ∧ s.me.tstate.getLsbD 0 = false ∧ s.me.tvec ≠ 0 ∧ s.iss.unit = .c) ∧
    (∃ (s : State) (a : Reg) (ch : BitVec 2) (p : Nat), let k := 4 * (s.iss.src / 4) + ch.toNat; let id := (s.scalar a).toNat;
      (s.chan k).isDone id = false ∧ tfind (s.chan k).proms id = some p ∧ s.keel < p ∧ s.iss.unit = .c) ∧
    (∃ (s t : State) (ch : BitVec 2) (a : Reg), s.runnable s.arg.a = true ∧ (s.ctx s.arg.a).lateAt = 0 ∧ s.goOn s.arg.a = some (.cchk ch a, t)) :=
  ⟨⟨{ on ((c0.setReg 1 0x17FFC0).setReg 2 (wordOf (.mma mma0))) with chans := [(0, { chan0 with widx := 1 })], spad := [(0x17FFC4, 1)] }, 1, 2, 0, 0x10000000, some (.mma mma0), by dsimp only; decide +kernel⟩,
    ⟨z1 0x17FFC0, 1, 3, by decide +kernel⟩,
    ⟨on ((c0.setReg 1 0x17FFC0).setReg 2 (wordOf (.mma mma0))), 1, 3, 2, by decide +kernel⟩,
    ⟨z, 1, by decide +kernel⟩,
    ⟨{ z with chans := [(0, { chan0 with done := 1 })] }, 0, 0, by dsimp only; decide +kernel⟩,
    ⟨z, 0, 0, by dsimp only; decide +kernel⟩,
    ⟨{ z with chans := [(0, { chan0 with done := 1 })] }, 0, 0, by dsimp only; decide +kernel⟩,
    ⟨{ z with chans := [(0, { chan0 with proms := [(0, 1000)] })] }, 0, 0, 1000, by dsimp only; decide +kernel⟩,
    ⟨{ z with chans := [(0, { chan0 with proms := [(0, 1001)] })] }, 0, 0, 1001, by dsimp only; decide +kernel⟩,
    ⟨busyOn (.cchk 1 2), goneOn (.cchk 1 2), 1, 2, ⟨by decide +kernel, by decide +kernel, by rfl⟩⟩⟩

theorem witness_CopyEngineSteps :
    (∃ (s : State) (pkt : List Byte), let k := s.arg.a; let c := s.chan k; let w := c.next (c.early.length + 1) (max c.taken c.done);
      s.mayTake k = true ∧ c.cur = none ∧ s.engineBytes (s.chanView k) (s.chanPart k) ((c.base + 64 * (w % c.len) : Nat) : Int) 64 = some (.ok pkt) ∧
      w < c.widx ∧ fieldAt pkt 60 4 = w % 2 ^ 32) ∧
    (∃ (s : State) (x : Xfer), let k := s.arg.a; let n := min 4096 (x.len0 - x.off);
      let a := epBase x.src + ((if x.kind = 1 then (x.row : Int) * x.sstr1 else 0) + x.off);
      let b := epBase x.dst + ((if x.kind = 1 then (x.row : Int) * x.dstr1 else 0) + x.off); s.chanRuns k = true ∧ s.skew = false ∧
      (s.chan k).cur = some x ∧ x.begun = true ∧ x.code = 0 ∧ x.kind < 2 ∧ x.flg 2 = false ∧ x.row < x.rows ∧ (x.kind = 0 → x.row = 0) ∧
      epSpace x.src = 1 ∧ epSpace x.dst = 1 ∧ x.old = [] ∧ x.rowInRange x.row = true ∧ 0 ≤ a ∧ a.toNat + n ≤ 0x180000 ∧ 0 ≤ b ∧ b.toNat + n ≤ 0x180000 ∧
      (∀ r ∈ regionsOf a.toNat n, s.regionBusy (epCell k x.src) (s.chanKey x.by_) r = none) ∧ (∀ r ∈ regionsOf b.toNat n,
      s.regionBusy (epCell k x.dst) (s.chanKey x.by_) r = none) ∧ s.spadPoisoned (epCell k x.src) a.toNat n = false) ∧
    (∃ (s : State) (x : Xfer), let k := s.arg.a; s.chanRuns k = true ∧ (s.chan k).cur = some x ∧ x.code = 0 ∧ x.begun = true ∧ x.steps ≤ x.row ∧
      x.flg 0 = false ∧ x.obj = none ∧ x.node = none) ∧
    (∃ (s : State), (s.chan s.arg.a).pend = 0) ∧
    (∃ (s : State), (s.chan s.arg.a).pend ≠ 0) :=
  ⟨⟨{ z with chans := [(0, { chan0 with look := true, widx := 1 })] }, List.replicate 64 0, by dsimp only; decide +kernel⟩,
    ⟨{ z with chans := [(0, { chan0 with cur := some (copy0 0) })] }, copy0 0, by dsimp only; decide +kernel⟩,
    ⟨{ z with chans := [(0, { chan0 with cur := some (copy0 1) })] }, copy0 1, by dsimp only; decide +kernel⟩,
    ⟨z, by decide +kernel⟩,
    ⟨{ z with chans := [(0, { chan0 with widx := 1 })] }, by decide +kernel⟩⟩

theorem witness_RelayBehaviour :
    (∃ (s : State) (a : Reg) (e : BitVec 3) (h : List Byte), s.partOfStack e.toNat = s.myPart ∧ s.mayBound .sys = true ∧
      (s.relay e.toNat).active = false ∧ (s.publish s.iss.src .sys).relayBytes e.toNat 0 (s.scalar a).toNat 64 = some (.ok h) ∧ 1 ≤ fieldAt h 0 2 ∧
      fieldAt h 0 2 ≤ 4096 ∧ fieldAt h 2 6 = 0 ∧ fieldAt h 16 48 = 0) ∧
    (∃ (s : State) (e : BitVec 3), s.partOfStack e.toNat ≠ s.myPart) ∧
    (∃ (s : State) (a : Reg) (e : BitVec 3), s.partOfStack e.toNat = s.myPart ∧ s.me.wait = none ∧
      ((s.relay e.toNat).active = false ∨ (s.scalar a).toNat < (s.relay e.toNat).done) ∧ s.mayBound .sys = true) ∧
    (∃ (s : State) (a : Reg) (e : BitVec 3), s.partOfStack e.toNat = s.myPart ∧ s.me.wait = none ∧ (s.relay e.toNat).active = true ∧
      (s.relay e.toNat).done ≤ (s.scalar a).toNat ∧ s.iss.unit = .c) ∧
    (∃ (s : State) (e : Nat), let r := s.relay e; r.active = false) ∧
    (∃ (s : State) (e : Nat), let r := s.relay e; r.active = true ∧ r.step ≠ []) ∧
    (∃ (s : State) (e : Nat), ∃ n, let r := s.relay e; r.active = true ∧ r.step = [] ∧ s.relayFind e = .wait n) ∧
    (∃ (s : State) (x : RStep) (as bs : List Byte) (pa : Nat), let e := s.arg.a; let r := s.relay e; let n := x.nelem; let wo := x.to.width / 8;
      let h0 := s.relayHold e 0 (r.prog + 64 + 64 * r.done) 64 false; let h1 := if x.gate = 1 then h0.relayHold e 4 (x.f 48 8) 8 false else h0;
      let h2 := h1.relayHold e 1 (x.f 24 8) (n * x.ta.width / 8) false;
      let h2 := if x.op = 2 then h2.relayHold e 2 (x.f 32 8) (n * x.tb.width / 8) false else h2; let h3 := h2.relayHold e 3 (x.f 40 8) (n * wo) true;
      let apart (va w : Nat) : Prop := va = x.f 40 8 ∨ meets va (n * w / 8) (x.f 40 8) (n * x.to.width / 8) = false; r.active = true ∧ r.put = none ∧
      r.step = [] ∧ r.out = none ∧ h0.relayFind e = .go x ∧ (x.op = 3 ∨ x.op = 2) ∧ apart (x.f 24 8) x.ta.width ∧
      (x.op = 2 → apart (x.f 32 8) x.tb.width) ∧ h2.relayBytes e 1 (x.f 24 8) (n * x.ta.width / 8) = some (.ok as) ∧
      (x.op = 2 → h2.relayBytes e 2 (x.f 32 8) (n * x.tb.width / 8) = some (.ok bs)) ∧
      h3.pieces (h3.heldBy (2048 + e) 3) (s.partOfStack e) (x.f 40 8 : Int) (n * wo) true = some (.ok [(pa, n * wo)]) ∧ memoryAt pa ∧
      r.done + 1 < r.nstep ∧ n * wo = n * x.to.width / 8) :=
  ⟨⟨{ z with mem := [(0x10000001, 16)] }, 0, 7, 0 :: 16 :: List.replicate 62 0, by decide +kernel⟩,
    ⟨{ z with nparts := 2 }, 4, by decide +kernel⟩,
    ⟨z, 0, 7, by decide +kernel⟩,
    ⟨{ z with relays := [(7, { active := true })] }, 0, 7, by decide +kernel⟩,
    ⟨z, 7, by dsimp only; decide +kernel⟩,
    ⟨{ z with relays := [(0, { active := true, step := [1] })] }, 0, by dsimp only; decide +kernel⟩,
    ⟨{ z with relays := [(0, { active := true, nstep := 1 })], skew := true }, 0, 1, by dsimp only; decide +kernel⟩,
    ⟨{ z with relays := [(0, { active := true, nstep := 2 })], mem := [(0x10000040, 3), (0x10000050, 1)] }, ⟨3 :: List.replicate 15 0 ++ 1 :: List.replicate 47 0⟩, [0, 0, 0, 0], [], 0x10000000, by dsimp only; decide +kernel⟩⟩

theorem witness_WindowInstructions :
    (∃ (s : State) (a b : Reg) (th : BitVec 4) (i : Nat), let pa := ((s.me.teth th).anchor + (s.scalar a).toInt).toNat; let len := (s.scalar b).toNat;
      len ≠ 0 ∧ s.me.xlatPending th = false ∧ s.tethUsable th (s.scalar a).toInt len true false ∧ memoryAt pa ∧ i < 4096 ∧ s.window i = none ∧
      (∀ j, j < i → s.window j ≠ none)) ∧
    (∃ (s : State) (th : BitVec 4), s.me.xlatPending th = false ∧ (s.me.teth th).stat = .ok ∧ (s.me.teth th).w = false) ∧
    (∃ (s : State) (a : Reg), let w := (s.scalar a).toNat % 4096; (∃ x, s.window w = some x ∧ x.part = s.myPart) ∧ s.putInto w = false) ∧
    (∃ (s : State) (a : Reg), let w := (s.scalar a).toNat % 4096; (∀ x, s.window w = some x → x.part ≠ s.myPart)) ∧
    (∃ (s : State) (th : BitVec 4) (a c : Reg) (wid : BitVec 16), let n := wid.toNat / 4096; let p := s.port n; let len := (s.scalar c).toNat;
      let pa := ((s.me.teth th).anchor + (s.scalar a).toInt).toNat; s.partOfPort n = s.myPart ∧ 0 < len ∧ len ≤ 2 ^ 24 ∧ s.me.xlatPending th = false ∧
      s.tethUsable th (s.scalar a).toInt len false false ∧ memoryAt pa ∧ p.puts.length < 256 ∧ s.me.bufA = [] ∧ s.me.streams = [] ∧
      s.readPoisoned (s.me.teth th).ord pa len = false ∧ p.up = true ∧ p.sendq = [] ∧ p.txSeq < 65536 ∧ p.replay.length + (len + 223) / 224 ≤ 512) ∧
    (∃ (s : State) (wid : BitVec 16), let n := wid.toNat / 4096; s.partOfPort n ≠ s.myPart) ∧
    (∃ (s : State) (c : Reg) (wid : BitVec 16), let n := wid.toNat / 4096; s.partOfPort n = s.myPart ∧ s.scalar c = 0) ∧
    (∃ (s : State) (sel : WinSel) (a b : Reg), let n := s.winCount sel ((s.scalar a).toNat % 65536); s.me.wait = none ∧ s.mayBound .sys = true ∧
      (∀ x ∈ n, (s.scalar b).toNat ≤ x.1.seen ⟨s.keel, s.iss.src⟩)) ∧
    (∃ (s : State) (sel : WinSel) (a b : Reg), let n := s.winCount sel ((s.scalar a).toNat % 65536); s.me.wait = none ∧ s.iss.unit = .c ∧
      (∃ x ∈ n, x.1.seen ⟨s.keel, s.iss.src⟩ < (s.scalar b).toNat)) :=
  ⟨⟨{ z1 1 with windows := [(0, win0)] }, 0, 1, 0, 1, by dsimp only; decide +kernel⟩,
    ⟨on { c0 with teths := Vector.replicate 16 { pbase := 0x10000000, sz := 3, exp := 9000, stat := .ok } }, 15, by decide +kernel⟩,
    ⟨{ z1 0xFFF with windows := [(0xFFF, win0)] }, 1, by dsimp only; exact ⟨⟨_, rfl, by decide +kernel⟩, by decide +kernel⟩⟩,
    ⟨z, 0, nofun⟩,
    ⟨z1 224, 0, 0, 1, 0xFFFF, by dsimp only; decide +kernel⟩,
    ⟨{ z with nparts := 2 }, 0xFFFF, by dsimp only; decide +kernel⟩,
    ⟨z, 0, 0xFFFF, by dsimp only; decide +kernel⟩,
    ⟨z, .iss, 0, 0, by dsimp only; decide +kernel⟩,
    ⟨z1 1, .iss, 0, 1, by dsimp only; decide +kernel⟩⟩

theorem witness_LinkFlits :
    (∃ (s : State) (f : DataFlit) (x : Window), let n := s.arg.a; let p := s.port n; s.arg.data = some f ∧ p.up = true ∧ f.ok = true ∧
      f.seq.toNat = p.rxSeq ∧ s.window f.wid.toNat = some x ∧ x.part = s.partOfPort n ∧ 1 ≤ f.bytes.length ∧ f.bytes.length ≤ 224 ∧
      f.off.toNat + f.bytes.length ≤ x.len ∧ (p.inWid.isSome && p.inDrop) = false ∧ p.inq = [] ∧ s.keel < x.exp ∧ p.sendq = [] ∧ p.replay.length < 512 ∧
      (∀ g ∈ p.replay, g.1.seq ≠ f.ack.toNat)) ∧
    (∃ (s : State) (f : DataFlit), let n := s.arg.a; let p := s.port n; s.arg.data = some f ∧ p.up = true ∧ p.sendq = [] ∧ p.replay.length < 512 ∧
      (f.ok = false ∨ f.seq.toNat ≠ p.rxSeq)) ∧
    (∃ (s : State) (f : DataFlit), let n := s.arg.a; let p := s.port n; s.arg.data = some f ∧ p.up = true ∧ p.sendq = [] ∧ p.replay.length < 512 ∧
      f.ok = true ∧ f.seq.toNat = p.rxSeq ∧ s.window f.wid.toNat = none ∧ f.last = true ∧ p.inq = [] ∧ (∀ g ∈ p.replay, g.1.seq ≠ f.ack.toNat)) ∧
    (∃ (s : State) (f : CtlFlit), let n := s.arg.a; let p := s.port n; s.arg.ctl = some f ∧ p.up = true ∧ f.ok = true ∧ f.seq.toNat = p.rxSeq ∧
      p.doneRx ≤ f.off.toNat) ∧
    (∃ (s : State) (f : CtlFlit) (pre post : List (OutFlit × Nat)), let n := s.arg.a; let p := s.port n; s.arg.ctl = some f ∧ p.up = true ∧
      f.ok = true ∧ f.seq.toNat = p.rxSeq ∧ p.rxSeq < 65536 ∧ p.replay = pre ++ post ∧ (post.head?).map (·.1.seq) = some (f.off.toNat % 65536) ∧
      (∀ g ∈ pre, g.1.seq ≠ f.off.toNat % 65536) ∧ (∀ g ∈ p.replay, g.1.seq ≠ f.ack.toNat) ∧ (∀ g ∈ post, g.2 < 7)) ∧
    (∃ (s : State) (f : CtlFlit) (pre post : List (OutFlit × Nat)) (g : OutFlit × Nat), let n := s.arg.a; let p := s.port n; s.arg.ctl = some f ∧
      p.up = true ∧ f.ok = true ∧ p.replay = pre ++ g :: post ∧ g.1.seq = f.ack.toNat ∧ (∀ h ∈ pre, h.1.seq ≠ f.ack.toNat) ∧ p.sendq = [] ∧ s.arg.b < 5) ∧
    (∃ (s : State) (f : CtlFlit), let n := s.arg.a; let p := s.port n; s.arg.ctl = some f ∧ p.up = true ∧ 5 ≤ s.arg.b ∧ f.ok = true) ∧
    (∃ (s : State) (f : CtlFlit), let n := s.arg.a; let p := s.port n; s.arg.ctl = some f ∧ p.up = true ∧ f.ok = false ∧ p.sendq = [] ∧
      p.replay.length < 512) ∧
    (∃ (s : State), let p := s.port s.arg.a; p.up = true) ∧
    (∃ (s : State) (f : SyncFlit), let n := s.arg.a; s.arg.sync = some f ∧ (s.port n).up = true ∧ f.ok = true) ∧
    (∃ (s : State), (s.port s.arg.a).up = true) ∧
    (∃ (s : State) (w : Window), s.window s.arg.b = some w ∧ w.len < 2 ^ 64) ∧
    (∃ (s : State), s.window s.arg.b = none) ∧
    (∃ (s : State) (x : Window) (pa : Nat) (l : Leaf), s.window s.arg.a = some x ∧ s.engineWalk x.part x.va true = some (.ok pa) ∧
      s.walk x.part x.va = .ok l ∧ (s.keel < x.exp → pa = x.base) ∧ (∀ p ∈ s.ports, p.2.inq = [])) :=
  ⟨⟨ev { data := some data0 } { z with windows := [(0xFFF, win0)] }, data0, win0, by dsimp only; decide +kernel⟩,
    ⟨ev { data := some { data0 with ok := false } } z, { data0 with ok := false }, by dsimp only; decide +kernel⟩,
    ⟨ev { data := some { data0 with last := true } } z, { data0 with last := true }, by dsimp only; decide +kernel⟩,
    ⟨ev { ctl := some ctl0 } z, ctl0, by dsimp only; decide +kernel⟩,
    ⟨ev { ctl := some { ctl0 with ack := 9, off := 2 } } { z with ports := [(0, { replay := [({ type_ := 0, seq := 1 }, 0), ({ type_ := 0, seq := 2 }, 6)] })] }, { ctl0 with ack := 9, off := 2 }, [({ type_ := 0, seq := 1 }, 0)], [({ type_ := 0, seq := 2 }, 6)], by dsimp only; decide +kernel⟩,
    ⟨ev { ctl := some { ctl0 with ack := 2 } } { z with ports := [(0, { replay := [({ type_ := 0, seq := 1 }, 0), ({ type_ := 0, seq := 2 }, 6)] })] }, { ctl0 with ack := 2 }, [({ type_ := 0, seq := 1 }, 0)], [], ({ type_ := 0, seq := 2 }, 6), by dsimp only; decide +kernel⟩,
    ⟨ev { ctl := some ctl0, b := 5 } z, ctl0, by dsimp only; decide +kernel⟩,
    ⟨ev { ctl := some { ctl0 with ok := false } } z, { ctl0 with ok := false }, by dsimp only; decide +kernel⟩,
    ⟨z, by dsimp only; decide +kernel⟩,
    ⟨ev { sync := some ⟨true, 0, 0, 0, 0⟩ } z, ⟨true, 0, 0, 0, 0⟩, by dsimp only; decide +kernel⟩,
    ⟨z, by decide +kernel⟩,
    ⟨{ z with windows := [(0, { win0 with len := 2 ^ 64 - 1 })] }, { win0 with len := 2 ^ 64 - 1 }, by decide +kernel⟩,
    ⟨z, by decide +kernel⟩,
    ⟨{ z with windows := [(0, win0)] }, win0, 0x10000000, ⟨0x30000, 0x1000003F⟩, by decide +kernel⟩⟩

theorem witness_DirectoryInstructions :
    (∃ (s : State) (mh : BitVec 4) (a : Reg) (o : Obj), let n := (s.part s.myPart).dir.bound (s.scalar a).toNat; Stamp.lt ⟨s.keel,
      s.iss.src⟩ (s.part s.myPart).ops = false ∧ (s.me.mh mh).isOpen = false ∧ n ≠ 0 ∧ tfind (s.part s.myPart).dir.objs n = some o) ∧
    (∃ (s : State) (mh : BitVec 4) (a : Reg), let n := (s.part s.myPart).dir.bound (s.scalar a).toNat; Stamp.lt ⟨s.keel,
      s.iss.src⟩ (s.part s.myPart).ops = false ∧ (s.me.mh mh).isOpen = false ∧ n = 0) ∧
    (∃ (s : State) (mh : BitVec 4) (a : Reg) (b : Reg), let n := (s.part s.myPart).dir.bound (s.scalar a).toNat; Stamp.lt ⟨s.keel,
      s.iss.src⟩ (s.part s.myPart).ops = false ∧ (s.me.mh mh).isOpen = false ∧ n = 0 ∧ s.iss.unit = .c ∧ s.me.wait = none ∧
      overdue s.keel (s.deadlineOf b) = false) ∧
    (∃ (s : State) (mh : BitVec 4), Stamp.lt ⟨s.keel, s.iss.src⟩ (s.part s.myPart).ops = false ∧ (s.me.mh mh).isOpen = true) ∧
    (∃ (s t : State) (mh : BitVec 4) (c a b : Reg) (mode : HMode), s.runnable s.arg.a = true ∧ s.goOn s.arg.a = some (.mopenw mh c a b mode, t)) ∧
    (∃ (s : State) (mh : BitVec 4), s.me.handleBusy mh = false ∧ Stamp.lt ⟨s.keel, s.iss.src⟩ (s.part s.myPart).ops = false) ∧
    (∃ (s : State) (mh : BitVec 4), (∃ x ∈ s.me.bufA ++ s.me.streams.map (·.ent), (streamOf x.instr).map (·.1) = some (.handle mh))) ∧
    (∃ (s : State) (a b : Reg) (o : Obj), let x := (s.scalar a).toNat; let e := s.spadRead s.pathL (s.iss.src / 4) x 64; let name := fieldAt e 0 8;
      let ex := fieldAt e 8 8; let obj := fieldAt e 24 8 % 2 ^ 48; let cur := (s.part s.myPart).dir.bound name; s.scalar b = 1 ∧ x % 8 = 0 ∧
      s.me.bufA = [] ∧ s.me.streams = [] ∧ s.spadUsable x 64 ∧ s.mayPublish .part = true ∧ s.spadPoisoned (s.iss.src / 4) x 64 = false ∧
      Stamp.lt ⟨s.keel, s.iss.src⟩ (s.part s.myPart).ops = false ∧ name ≠ 0 ∧ bitsOf ex 48 15 = 0 ∧ fieldAt e 17 3 = 0 ∧ fieldAt e 56 8 = 0 ∧
      (ex / 2 ^ 63 = 1 ∨ ex % 2 ^ 48 = cur) ∧ (s.part s.myPart).dir.names.length < Config.dirLimit ∧
      (s.part s.myPart).dir.objs.length < Config.dirLimit ∧ fieldAt e 16 1 = 1 ∧ fieldAt e 20 4 = 0 ∧ fieldAt e 32 8 = 0 ∧ fieldAt e 40 8 = 0 ∧
      obj ≠ 0 ∧ tfind (s.part s.myPart).dir.objs obj = some o) ∧
    (∃ (s : State) (a b : Reg) (r : List Byte), let x := (s.scalar a).toNat; let e := s.spadRead s.pathL (s.iss.src / 4) x 64;
      let name := fieldAt e 0 8; let ex := fieldAt e 8 8; let cur := (s.part s.myPart).dir.bound name; s.scalar b = 1 ∧ x % 8 = 0 ∧ s.me.bufA = [] ∧
      s.me.streams = [] ∧ s.spadUsable x 64 ∧ s.mayPublish .part = true ∧ s.spadPoisoned (s.iss.src / 4) x 64 = false ∧ Stamp.lt ⟨s.keel,
      s.iss.src⟩ (s.part s.myPart).ops = false ∧ name ≠ 0 ∧ bitsOf ex 48 15 = 0 ∧ fieldAt e 17 3 = 0 ∧ fieldAt e 56 8 = 0 ∧
      (ex / 2 ^ 63 = 1 ∨ ex % 2 ^ 48 = cur) ∧ (s.part s.myPart).dir.names.length < Config.dirLimit ∧
      (s.part s.myPart).dir.objs.length < Config.dirLimit ∧ fieldAt e 16 1 = 0 ∧ fieldAt e 40 8 % 64 = 0 ∧ fieldAt e 40 8 < 2 ^ 56 ∧
      (s.part s.myPart).dir.next ≠ 0 ∧ (s.publish s.iss.src .part).engineRead 2056 s.myPart (fieldAt e 40 8) 64 = some (.ok r) ∧
      layoutOk r (fieldAt e 32 8 % 2 ^ 56) = true) ∧
    (∃ (s : State) (b : Reg), let n := (s.scalar b).toNat; (n < 1 ∨ 8 < n)) ∧
    (∃ (s : State) (a b : Reg) (rs : List (List Byte)) (c : Nat) (i : Nat), let n := (s.scalar b).toNat; let x := (s.scalar a).toNat;
      let es := (List.range n).map fun i => bindEntry (s.spadRead s.pathL (s.iss.src / 4) (x + 64 * i) 64); 1 ≤ n ∧ n ≤ 8 ∧ x % 8 = 0 ∧ s.me.bufA = [] ∧
      s.me.streams = [] ∧ s.spadUsable x (64 * n) ∧ s.mayPublish .part = true ∧ s.spadPoisoned (s.iss.src / 4) x (64 * n) = false ∧ Stamp.lt ⟨s.keel,
      s.iss.src⟩ (s.part s.myPart).ops = false ∧ (s.publish s.iss.src .part).layouts s.myPart es = some rs ∧
      (s.part s.myPart).dir.checks [] (s.part s.myPart).dir.names.length (s.part s.myPart).dir.objs.length (es.zip rs) = some (c, i)) ∧
    (∃ (s : State) (a b : Reg), let name := (s.scalar a).toNat; let v := (s.scalar b).toNat; let cur := (s.part s.myPart).dir.bound name;
      s.mayPublish .part = true ∧ Stamp.lt ⟨s.keel, s.iss.src⟩ (s.part s.myPart).ops = false ∧ (s.part s.myPart).dir.names.length ≤ Config.dirLimit ∧
      (s.part s.myPart).dir.objs.length ≤ Config.dirLimit ∧ name ≠ 0 ∧ cur ≠ 0 ∧ (v / 2 ^ 63 = 1 ∨ v % 2 ^ 48 = cur)) ∧
    (∃ (s : State) (a b : Reg), let name := (s.scalar a).toNat; let v := (s.scalar b).toNat; let cur := (s.part s.myPart).dir.bound name;
      s.mayPublish .part = true ∧ Stamp.lt ⟨s.keel, s.iss.src⟩ (s.part s.myPart).ops = false ∧ (s.part s.myPart).dir.names.length ≤ Config.dirLimit ∧
      (s.part s.myPart).dir.objs.length ≤ Config.dirLimit ∧ name ≠ 0 ∧ cur ≠ 0 ∧ v / 2 ^ 63 ≠ 1 ∧ v % 2 ^ 48 ≠ cur) ∧
    (∃ (s : State) (a : Reg), let name := (s.scalar a).toNat; let cur := (s.part s.myPart).dir.bound name; s.mayPublish .part = true ∧
      Stamp.lt ⟨s.keel, s.iss.src⟩ (s.part s.myPart).ops = false ∧ (s.part s.myPart).dir.names.length ≤ Config.dirLimit ∧
      (s.part s.myPart).dir.objs.length ≤ Config.dirLimit ∧ (name = 0 ∨ cur = 0)) ∧
    (∃ (s : State) (a : Reg) (sel : BitVec 4) (v : Nat), let name := (s.scalar a).toNat; let n := (s.part s.myPart).dir.bound name;
      let o := tfind (s.part s.myPart).dir.objs n; let h := s.me.mh ((s.scalar a).setWidth 4); Stamp.lt ⟨s.keel,
      s.iss.src⟩ (s.part s.myPart).ops = false ∧ (sel = 0 ∧ v = n ∨ sel = 1 ∧ v = o.elim 0 (·.vers.toNat) ∨ sel = 2 ∧ v = o.elim 0 (·.opens) ∨ sel = 3 ∧
      v = ((tfind (s.part s.myPart).dir.changed name).map (·.keel)).getD 0 ∨ sel = 4 ∧ v = (s.part s.myPart).dir.names.length ∨ sel = 8 ∧
      v = (if h.isOpen then h.obj else 2 ^ 64 - 1) ∨ sel = 9 ∧ v = (if h.isOpen then h.vers.toNat else 2 ^ 64 - 1) ∨ sel = 10 ∧
      v = h.mode.toNat + (if h.isOpen then 4 else 0) ∨ sel = 11 ∧
      v = (if h.isOpen then (tfind (s.part s.myPart).dir.objs h.obj).elim 0 (·.opens) else 2 ^ 64 - 1))) :=
  ⟨⟨dz (z1 9), 15, 1, ⟨0, 0, [], 0⟩, by dsimp only; decide +kernel⟩,
    ⟨dz (z1 8), 15, 1, by dsimp only; decide +kernel⟩,
    ⟨dz (on ((c0.setReg 1 1001).setReg 2 8)), 15, 2, 1, by dsimp only; decide +kernel⟩,
    ⟨dz (on { c0 with mhs := Vector.replicate 16 { isOpen := true } }), 15, by decide +kernel⟩,
    ⟨busyOn (.mopenw 1 2 3 4 .r), goneOn (.mopenw 1 2 3 4 .r), 1, 2, 3, 4, .r, ⟨by decide +kernel, by rfl⟩⟩,
    ⟨z, 15, by decide +kernel⟩,
    ⟨on { c0 with streams := [⟨ent (.strq ⟨0, 15, 1, .imm 1, 0⟩), 0, 0, 1⟩] }, 15, by decide +kernel⟩,
    ⟨{ dz (on ((c0.setReg 1 0x17FFC0).setReg 2 1)) with spad := [(0x17FFC0, 9), (0x17FFC8, 5), (0x17FFD0, 1), (0x17FFD8, 5)] }, 1, 2, ⟨0, 0, [], 0⟩, by dsimp only; decide +kernel⟩,
    ⟨{ dz (on ((c0.setReg 1 0x17FFC0).setReg 2 1)) with spad := [(0x17FFC0, 9), (0x17FFC8, 5)], mem := [(0x10000000, 4)] }, 1, 2, 4 :: List.replicate 63 0, by dsimp only; decide +kernel⟩,
    ⟨z1 9, 1, by dsimp only; decide +kernel⟩,
    ⟨dz (on ((c0.setReg 1 0x17FE00).setReg 2 8)), 1, 2, List.replicate 8 [], 5, 0, by dsimp only; decide +kernel⟩,
    ⟨dz (on ((c0.setReg 1 9).setReg 2 0x8000000000000000)), 1, 2, by dsimp only; decide +kernel⟩,
    ⟨dz (on ((c0.setReg 1 9).setReg 2 4)), 1, 2, by dsimp only; decide +kernel⟩,
    ⟨dz z, 0, by dsimp only; decide +kernel⟩,
    ⟨dz (z1 9), 1, 11, 2 ^ 64 - 1, by dsimp only; decide +kernel⟩⟩

theorem witness_HostAccesses :
    (∃ (s : State), let pa := s.arg.a; let n := s.arg.bytes.length; s.fw.recovery = false ∧ 0 < n ∧ (paKind pa = .hbm ∧
      paKind (pa + n - 1) = .hbm ∨ paKind pa = .host ∧ paKind (pa + n - 1) = .host)) ∧
    (∃ (s : State), let pa := s.arg.a; let n := s.arg.b; s.fw.recovery = false ∧ 0 < n ∧ (paKind pa = .hbm ∧
      paKind (pa + n - 1) = .hbm ∨ paKind pa = .host ∧ paKind (pa + n - 1) = .host)) ∧
    (∃ (s : State), let pa := s.arg.a; let n := s.arg.b; s.fw.recovery = false ∧ 0 < n ∧
      (paKind pa = .inter ∨ paKind pa = .peer ∨ paKind pa = .nothing)) ∧
    (∃ (s : State) (q : Nat), q < 1024 ∧ s.fw.recovery = false ∧ s.arg.a = 0xF00000000008 + 4096 * q ∧ s.arg.b = 0 ∧ s.arg.c = 0) ∧
    (∃ (s : State) (k : Nat), k < 1024 ∧ s.fw.recovery = false ∧ s.arg.a = 0xF00001000010 + 256 * k ∧ s.arg.b = 0 ∧ s.arg.c = 0) ∧
    (∃ (s : State), (paKind s.arg.a = .hbm ∨ paKind s.arg.a = .host ∨ s.arg.b ≠ 0 ∨ s.arg.c ≠ 0)) ∧
    (∃ (s : State), let pa := s.arg.a; let n := s.arg.b; s.fw.recovery = false ∧ (paKind pa = .device ∨ paKind pa = .notify) ∧ (n = 4 ∨ n = 8) ∧
      pa % n = 0) ∧
    (∃ (s : State) (q : Nat), q < 1024 ∧ s.fw.recovery = false ∧ s.arg.a = 0xF00000000008 + 4096 * q ∧ s.arg.b = 8) ∧
    (∃ (s : State) (q : Nat), q < 1024 ∧ s.fw.recovery = false ∧ s.arg.a = 0xF00000000008 + 4096 * q ∧ s.arg.bytes.length = 8 ∧
      (s.queue q).weight = 0) ∧
    (∃ (s : State) (q : Nat), q < 1024 ∧ s.fw.recovery = false ∧ s.arg.a = 0xF00000000008 + 4096 * q ∧ s.arg.bytes.length = 8 ∧
      (s.queue q).weight ≠ 0) ∧
    (∃ (s : State) (k : Nat), k < 1024 ∧ s.fw.recovery = false ∧ s.arg.a = 0xF00001000000 + 256 * k ∧ s.arg.b = 8) ∧
    (∃ (s : State) (k : Nat), k < 1024 ∧ s.fw.recovery = false ∧ s.arg.a = 0xF00001000000 + 256 * k ∧ s.arg.bytes.length = 8 ∧ (s.chan k).pend = 0) ∧
    (∃ (s : State) (n : Nat), n < s.nparts ∧ n < 8 ∧ s.fw.recovery = false ∧ s.arg.b = 8) ∧
    (∃ (s : State) (n : Nat), let page := 0xF00001800000 + 0x20000 * n; n < s.nparts ∧ n < 8 ∧ s.fw.recovery = false ∧ s.arg.b = 8 ∧
      (s.arg.a = page ∨ s.arg.a = page + 0x098 ∨ s.arg.a = page + 0x0B0)) ∧
    (∃ (s : State) (q : Nat), q < 1024 ∧ s.fw.recovery = false ∧ s.arg.b = 8 ∧ s.arg.a = 0xF00000000008 + 4096 * q ∧ s.arg.c ≠ 2080 ∧ s.arg.c ≠ 2081 ∧
      (s.queue q).weight = 0) ∧
    (∃ (s : State) (q : Nat), q < 1024 ∧ s.fw.recovery = false ∧ s.arg.b = 8 ∧ s.arg.a = 0xF00000000008 + 4096 * q ∧ s.arg.c ≠ 2080 ∧ s.arg.c ≠ 2081 ∧
      (s.queue q).weight ≠ 0) ∧
    (∃ (s : State) (n q : Nat), n < s.nparts ∧ n < 8 ∧ q < 1024 ∧ s.partOfQueue q = n ∧ s.fw.recovery = false ∧ s.arg.b = 8 ∧
      s.arg.a = 0xF00001810010 + 0x20000 * n + 64 * q) ∧
    (∃ (s : State), s.fw.recovery = false ∧ (s.arg.a % s.arg.b ≠ 0 ∨ s.arg.b ≠ 4 ∧ s.arg.b ≠ 8)) ∧
    (∃ (s : State), s.fw.recovery = false ∧ (s.arg.c = 2080 ∨ s.arg.c = 2081) ∧ s.arg.a < 0xF00001800000) ∧
    (∃ (s : State), s.fw.recovery = false ∧ s.arg.a = 0xF00001C40400 ∧ s.arg.b = 8 ∧ s.arg.c = 2080) ∧
    (∃ (s : State), s.fw.recovery = false ∧ s.arg.a = 0xF00001C40400 ∧ s.arg.b = 8 ∧ s.arg.c ≠ 2080) ∧
    (∃ (s : State), s.fw.recovery = true) ∧
    (∃ (s : State), s.fw.recovery = true ∧ (s.arg.a ≠ Config.statusAddr ∨ s.arg.b ≠ 8)) ∧
    (∃ (s : State), s.fw.recovery = true ∧ s.arg.a = Config.statusAddr ∧ s.arg.b = 8) :=
  ⟨⟨ev { a := 0x7FFFFFFFFF, bytes := [1] } z, by dsimp only; decide +kernel⟩,
    ⟨ev { a := 0x8000000000000, b := 1 } z, by dsimp only; decide +kernel⟩,
    ⟨ev { a := 0x10000000000000, b := 1 } z, by dsimp only; decide +kernel⟩,
    ⟨ev { a := 0xF000003FF008 } z, 1023, by decide +kernel⟩,
    ⟨ev { a := 0xF0000103FF10 } z, 1023, by decide +kernel⟩,
    ⟨z, by decide +kernel⟩,
    ⟨ev { a := 0xF000003FFFFC, b := 4 } z, by dsimp only; decide +kernel⟩,
    ⟨ev { a := 0xF000003FF008, b := 8 } z, 1023, by decide +kernel⟩,
    ⟨ev { a := 0xF000003FF008, bytes := List.replicate 8 255 } z, 1023, by decide +kernel⟩,
    ⟨ev { a := 0xF000003FF008, bytes := List.replicate 8 255 } { z with queues := [(1023, { weight := 1 })] }, 1023, by decide +kernel⟩,
    ⟨ev { a := 0xF0000103FF00, b := 8 } z, 1023, by decide +kernel⟩,
    ⟨ev { a := 0xF0000103FF00, bytes := List.replicate 8 255 } z, 1023, by decide +kernel⟩,
    ⟨ev { b := 8 } z, 0, by decide +kernel⟩,
    ⟨ev { a := 0xF000018000B0, b := 8 } z, 0, by dsimp only; decide +kernel⟩,
    ⟨ev { a := 0xF000003FF008, b := 8 } z, 1023, by decide +kernel⟩,
    ⟨ev { a := 0xF000003FF008, b := 8 } { z with queues := [(1023, { weight := 1 })] }, 1023, by decide +kernel⟩,
    ⟨ev { a := 0xF0000181FFD0, b := 8 } z, 0, 1023, by decide +kernel⟩,
    ⟨ev { a := 1, b := 8 } z, by decide +kernel⟩,
    ⟨ev { a := 0xF000003FF008, b := 8, c := 2081 } z, by decide +kernel⟩,
    ⟨ev { a := 0xF00001C40400, b := 8, c := 2080 } z, by decide +kernel⟩,
    ⟨ev { a := 0xF00001C40400, b := 8 } z, by decide +kernel⟩,
    ⟨{ z with fw := { recovery := true } }, by decide +kernel⟩,
    ⟨{ z with fw := { recovery := true } }, ⟨rfl, .inr (by decide +kernel)⟩⟩,
    ⟨ev { a := Config.statusAddr, b := 8 } { z with fw := { recovery := true } }, ⟨rfl, rfl, rfl⟩⟩⟩

theorem witness_MapperAndSlots :
    (∃ (s : State) (b : List Byte) (pa : Nat), let q := s.arg.a; s.mayLook q = true ∧ s.ringSlot q = some (some (b, pa)) ∧ fieldAt b 0 1 = 0) ∧
    (∃ (s : State) (b : List Byte) (pa : Nat), let q := s.arg.a; s.mayLook q = true ∧ s.ringSlot q = some (some (b, pa)) ∧ fieldAt b 0 1 = 1) ∧
    (∃ (s : State) (b : List Byte) (pa : Nat) (w : Nat), let q := s.arg.a; let part := s.partOfQueue q; s.mayLook q = true ∧
      s.ringSlot q = some (some (b, pa)) ∧ signalOk b = true ∧ s.engineWalk part (fieldAt b 8 8) true = some (.ok w) ∧ memoryAt w) ∧
    (∃ (s : State) (b : List Byte) (pa : Nat), let q := s.arg.a; s.mayLook q = true ∧ s.ringSlot q = some (some (b, pa)) ∧ fenceOk b = true) ∧
    (∃ (s : State) (b : List Byte) (pa : Nat), let q := s.arg.a; let part := s.partOfQueue q; s.mayLook q = true ∧
      s.ringSlot q = some (some (b, pa)) ∧ 2 ≤ fieldAt b 0 1 ∧ copyreqOk b = false ∧ signalOk b = false ∧ fenceOk b = false ∧ (s.part part).nrlen = 0 ∧
      (s.part part).notes = []) ∧
    (∃ (s : State) (b : List Byte) (pa : Nat) (pkt : List Byte) (w : Nat), let q := s.arg.a; let part := s.partOfQueue q; let cell := fieldAt b 2 2;
      let ch := 4 * cell + fieldAt b 4 1; let c := s.chan ch; let p := slice pkt 0 60 ++ leBytes 4 c.widx; s.mayLook q = true ∧
      s.ringSlot q = some (some (b, pa)) ∧ copyreqOk b = true ∧ cell < 256 ∧ s.partOfCell cell = part ∧ c.len ≠ 0 ∧ c.pend ≤ 1 ∧
      s.engineBytes (s.engineView 2083 part) part (fieldAt b 8 8 : Nat) 64 = some (.ok pkt) ∧
      s.engineWalk part (c.base + 64 * (c.widx % c.len)) true = some (.ok w) ∧
      ({ id := c.widx, pkt := p, by_ := none, follow := false } : Xfer).zero = false) ∧
    (∃ (s : State), let q := s.arg.a; s.mayLook q = true ∧ s.ringSlot q = some none) ∧
    (∃ (s : State) (i q : Nat) (rest : List Nat), s.fw.service = true ∧ (∀ r ∈ s.queuesOf s.arg.a, s.queueNow r = s.queue r) ∧
      s.freeQSlots s.arg.a = i :: rest ∧ s.longestWait s.arg.a = some q) ∧
    (∃ (s : State) (q : Nat), q ∈ s.queuesOf s.arg.a ∧ (s.queue q).slot ≠ none ∧ s.queueBusy q = false) ∧
    (∃ (s : State), let q := s.arg.a; let u := s.queue q; let part := s.partOfQueue q; let waiting := ((s.queuesOf part).filter s.queueWaits).length;
      let ending := ((s.queuesOf part).filter fun r => (s.queue r).slicing).length; u.slot ≠ none ∧ u.slicing = false ∧ u.deficit ≤ 0 ∧
      waiting ≤ ending) ∧
    (∃ (s : State), let q := s.arg.a; let u := s.queue q; let part := s.partOfQueue q; let waiting := ((s.queuesOf part).filter s.queueWaits).length;
      let ending := ((s.queuesOf part).filter fun r => (s.queue r).slicing).length; (u.slicing = true ∨ u.slot ≠ none ∧ u.deficit ≤ 0 ∧
      ending < waiting)) :=
  ⟨⟨mz [], List.replicate 64 0, 0x10000000, by dsimp only; decide +kernel⟩,
    ⟨mz [(0x10000000, 1)], 1 :: List.replicate 63 0, 0x10000000, by dsimp only; decide +kernel⟩,
    ⟨mz [(0x10000000, 3)], 3 :: List.replicate 63 0, 0x10000000, 0x10000000, by dsimp only; decide +kernel⟩,
    ⟨mz [(0x10000000, 4)], 4 :: List.replicate 63 0, 0x10000000, by dsimp only; decide +kernel⟩,
    ⟨mz [(0x10000000, 5)], 5 :: List.replicate 63 0, 0x10000000, by dsimp only; decide +kernel⟩,
    ⟨{ mz [(0x10000000, 2), (0x10000009, 16), (0x10001004, 1)] with chans := [(0, { chan0 with widx := 1 })] }, 2 :: List.replicate 8 0 ++ 16 :: List.replicate 54 0, 0x10000000, [0, 0, 0, 0, 1] ++ List.replicate 59 0, 0x10000000, by dsimp only; decide +kernel⟩,
    ⟨{ z with queues := [(0, { slot := some 0, look := true, weight := 1, len := 1, widx := 1, base := 0x10000000 })] }, by dsimp only; decide +kernel⟩,
    ⟨{ z with queues := [(5, { weight := 1, len := 1, widx := 1, waitFrom := some 5 })] }, 0, 5, (List.range 31).map (· + 1), by decide +kernel⟩,
    ⟨{ z with queues := [(0, { slot := some 0 })] }, 0, by decide +kernel⟩,
    ⟨{ z with queues := [(0, { slot := some 0 })] }, by dsimp only; decide +kernel⟩,
    ⟨{ z with queues := [(0, { slot := some 0 }), (5, { weight := 1, len := 1, widx := 1 })] }, by dsimp only; decide +kernel⟩⟩

theorem witness_PreemptionRequests :
    (∃ (s : State), let part := s.arg.a; let x := s.part part; x.pres ≠ []) ∧
    (∃ (s : State), let part := s.arg.a; let v := s.arg.w.toNat; let id := v % 65536; let x := s.part part; x.pres = [] ∧ bitsOf v 16 1 = 1 ∧
      (1024 ≤ id ∨ s.partOfSrc id ≠ part ∨ (s.ctx id).status = .free)) ∧
    (∃ (s : State), let part := s.arg.a; let v := s.arg.w.toNat; let id := v % 65536; let x := s.part part; x.pres = [] ∧ bitsOf v 16 1 = 1 ∧
      id < 1024 ∧ s.partOfSrc id = part ∧ s.preemptable id = false ∧ (s.ctx id).team = none) ∧
    (∃ (s : State), let part := s.arg.a; let v := s.arg.w.toNat; let id := v % 65536; let x := s.part part; x.pres = [] ∧ bitsOf v 16 1 = 1 ∧
      id < 1024 ∧ s.partOfSrc id = part ∧ s.preemptable id = true ∧ (s.ctx id).team = none) ∧
    (∃ (s : State) (tm : Team), let part := s.arg.a; let v := s.arg.w.toNat; let id := v % 65536; let x := s.part part; x.pres = [] ∧
      bitsOf v 16 1 = 0 ∧ s.teamOf part id = some tm ∧ (∃ m ∈ tm.members, s.preemptable m.2 = true) ∧ (∀ m ∈ tm.members, (s.ctx m.2).team = some id)) ∧
    (∃ (s : State) (p : Preempt), let part := s.arg.a; let x := s.part part; let l := s.liveMembers p; x.pres = [p] ∧ p.mode = 0 ∧ l = [] ∧
      p.host = true) ∧
    (∃ (s : State) (p : Preempt), let part := s.arg.a; let x := s.part part; let l := s.liveMembers p; x.pres = [p] ∧ p.mode = 0 ∧ l ≠ [] ∧
      p.want = 1) ∧
    (∃ (s : State) (p : Preempt) (k : Nat), let part := s.arg.a; let x := s.part part; let l := s.liveMembers p; x.pres = [p] ∧ p.mode = 0 ∧ l ≠ [] ∧
      p.want = 3 ∧ s.freeSlot part p = some k) ∧
    (∃ (s : State) (p : Preempt) (k : Nat), let part := s.arg.a; let x := s.part part; let l := s.liveMembers p; x.pres = [p] ∧ p.mode = 0 ∧ l ≠ [] ∧
      p.want = 2 ∧ s.discardable part p = true ∧ s.freeSlot part p = some k ∧ l.Nodup) ∧
    (∃ (s : State) (p : Preempt), let part := s.arg.a; let x := s.part part; let l := s.liveMembers p; x.pres = [p] ∧ p.mode = 0 ∧ l ≠ [] ∧
      p.want = 3 ∧ s.freeSlot part p = none ∧ (p.host = true ∨ p.queue = none)) ∧
    (∃ (s : State) (p : Preempt), ∃ q, let part := s.arg.a; let x := s.part part; let l := s.liveMembers p; x.pres = [p] ∧ p.mode = 0 ∧ l ≠ [] ∧
      p.want = 3 ∧ s.freeSlot part p = none ∧ p.host = false ∧ p.queue = some q ∧ p.stopped = false) ∧
    (∃ (s : State) (p : Preempt), let part := s.arg.a; let x := s.part part; let l := s.liveMembers p; x.pres = [p] ∧ p.mode = 1 ∧ l = [] ∧
      p.host = true) ∧
    (∃ (s : State) (p : Preempt), let part := s.arg.a; let x := s.part part; let l := s.liveMembers p; x.pres = [p] ∧ p.mode = 1 ∧ l ≠ [] ∧
      s.keel + 5000 < p.rd) ∧
    (∃ (s : State) (p : Preempt) (k : Nat), let part := s.arg.a; let x := s.part part; let l := s.liveMembers p; x.pres = [p] ∧ p.mode = 1 ∧ l ≠ [] ∧
      p.late = false ∧ p.rd ≤ s.keel + 5000 ∧ s.freeSlot part p = some k) ∧
    (∃ (s : State) (p : Preempt), let part := s.arg.a; let x := s.part part; let l := s.liveMembers p; x.pres = [p] ∧ p.mode = 1 ∧ l ≠ [] ∧
      p.late = false ∧ p.rd ≤ s.keel + 5000 ∧ s.freeSlot part p = none) :=
  ⟨⟨pz (pre0 1) 0 z, by dsimp only; decide +kernel⟩,
    ⟨ev { w := 0x10400 } z, by dsimp only; decide +kernel⟩,
    ⟨ev { w := 0x10001 } z, by dsimp only; decide +kernel⟩,
    ⟨ev { w := 0x10000 } z, by dsimp only; decide +kernel⟩,
    ⟨ev { w := 3 } { on { c0 with team := some 3 } with teams := [⟨0, 3, [(0, 0)], 0, none⟩] }, ⟨0, 3, [(0, 0)], 0, none⟩, by dsimp only; decide +kernel⟩,
    ⟨pz { pre0 1 with members := [] } 0 z, { pre0 1 with members := [] }, by dsimp only; decide +kernel⟩,
    ⟨pz (pre0 1) 0 z, pre0 1, by dsimp only; decide +kernel⟩,
    ⟨pz (pre0 3) 1 z, pre0 3, 0, by dsimp only; decide +kernel⟩,
    ⟨pz (pre0 2) 1 (on { c0 with accs := Vector.replicate 4 { restart := some 0x2000 } }), pre0 2, 0, by dsimp only; decide +kernel⟩,
    ⟨pz (pre0 3) 0 z, pre0 3, by dsimp only; decide +kernel⟩,
    ⟨pz { pre0 3 with host := false, queue := some 0 } 0 z, { pre0 3 with host := false, queue := some 0 }, 0, by dsimp only; decide +kernel⟩,
    ⟨pz { pre0 1 with mode := 1, members := [] } 0 z, { pre0 1 with mode := 1, members := [] }, by dsimp only; decide +kernel⟩,
    ⟨pz { pre0 1 with mode := 1, rd := 6001 } 0 z, { pre0 1 with mode := 1, rd := 6001 }, by dsimp only; decide +kernel⟩,
    ⟨pz { pre0 1 with mode := 1 } 1 z, { pre0 1 with mode := 1 }, 0, by dsimp only; decide +kernel⟩,
    ⟨pz { pre0 1 with mode := 1 } 0 z, { pre0 1 with mode := 1 }, by dsimp only; decide +kernel⟩⟩

theorem witness_SaveSlots :
    (∃ (s : State) (p : Preempt), let part := s.arg.a; let k := p.slot.getD 0; (s.part part).pres = [p] ∧ p.stopped = true ∧ p.host = true ∧
      p.mode ≤ 3 ∧ k < 64 ∧ s.slotOf part k = none ∧ (∀ m ∈ p.members, s.sameThread m = true)) ∧
    (∃ (s : State) (k : SaveSlot), s.slotOf s.arg.a s.arg.b = some k ∧ k.written = false ∧ k.members ≠ []) ∧
    (∃ (s : State) (key : Nat) (k : SaveSlot), let cell := s.arg.a; let r := s.arg.b; tfind (s.cell cell).owners r = some key ∧
      (s.slots.find? fun k => !k.members.isEmpty && k.key = key) = some k ∧ k.written = false ∧ s.slotOf k.part k.slot = some k) ∧
    (∃ (s : State) (key pa : Nat), let cell := s.arg.a; let r := s.arg.b; ((s.cell cell).reload.find? fun e => e.1 = r) = some (r, key, pa)) ∧
    (∃ (s : State) (k : SaveSlot), s.slotOf s.arg.a s.arg.b = some k ∧ k.host = true ∧ k.members ≠ []) ∧
    (∃ (s : State), (∀ k, s.slotOf s.arg.a s.arg.b = some k → k.host = false)) ∧
    (∃ (s : State) (k : SaveSlot), s.slotOf s.arg.a s.arg.b = some k ∧ s.restoreDue k = true ∧ s.seatsFree k = true ∧ s.placeFree k = true ∧
      k.written = false ∧ k.strs = [] ∧ k.regions = [] ∧ (k.members.map (·.1)).Nodup) ∧
    (∃ (s : State) (k : SaveSlot), s.slotOf s.arg.a s.arg.b = some k ∧ s.restoreDue k = true ∧ s.seatsFree k = true ∧ s.placeFree k = false) ∧
    (∃ (s : State) (k : SaveSlot), s.slotOf s.arg.a s.arg.b = some k ∧ s.restoreDue k = true ∧ s.seatsFree k = false ∧ k.host = true) :=
  ⟨⟨pz { pre0 3 with stopped := true, mode := 3 } 1 z, { pre0 3 with stopped := true, mode := 3 }, by dsimp only; decide +kernel⟩,
    ⟨{ z with slots := [slot0] }, slot0, by decide +kernel⟩,
    ⟨ev { b := 1 } { z with cells := [(0, { owners := [(1, 0x40000)] })], slots := [slot0] }, 0x40000, slot0, by dsimp only; decide +kernel⟩,
    ⟨ev { b := 1 } { z with cells := [(0, { reload := [(1, 7, 0)] })] }, 7, 0, by dsimp only; decide +kernel⟩,
    ⟨{ z with slots := [slot0] }, slot0, by decide +kernel⟩,
    ⟨z, nofun⟩,
    ⟨{ z with ctxs := [], slots := [{ slot0 with restoring := true }] }, { slot0 with restoring := true }, by decide +kernel⟩,
    ⟨{ z with ctxs := [], slots := [{ slot0 with restoring := true, chans := [(0, chan0)] }], chans := [(0, { chan0 with widx := 1 })] }, { slot0 with restoring := true, chans := [(0, chan0)] }, by decide +kernel⟩,
    ⟨{ z with slots := [{ slot0 with restoring := true }] }, { slot0 with restoring := true }, by decide +kernel⟩⟩

theorem witness_DebuggerActions :
    (∃ (s : State), let m (s : State) : Ctx := s.ctx s.arg.a; (m s).status = .run ∧ (m s).inLoopp = false ∧ (m s).pfx = none) ∧
    (∃ (s : State), let m (s : State) : Ctx := s.ctx s.arg.a; (m s).status = .sleeping ∧ (m s).inLoopp = false ∧ (m s).pfx = none) ∧
    (∃ (s : State), let m (s : State) : Ctx := s.ctx s.arg.a; ((m s).status = .run ∨ (m s).status = .sleeping) ∧ (m s).inLoopp = true) ∧
    (∃ (s : State), let m (s : State) : Ctx := s.ctx s.arg.a; (m s).status = .halted ∧ (s.dbg s.arg.a).edits = []) ∧
    (∃ (s : State) (w : Word) (r : Reg), let m (s : State) : Ctx := s.ctx s.arg.a; (m s).status = .halted ∧ r ≠ 0 ∧
      (s.dbg s.arg.a).edits = [(0x270 + 8 * (r.toNat - 1), w)]) ∧
    (∃ (s : State) (w : Word), let m (s : State) : Ctx := s.ctx s.arg.a; (m s).status = .halted ∧ (s.dbg s.arg.a).edits = [(0, w)]) ∧
    (∃ (s : State) (i : Instr), let c := s.me; c.stepping = true ∧ c.status = .run ∧ c.inLoopp = false ∧ isPrefix i = false ∧
      (s.iss.flow = .moved ∨ s.iss.flow = .fall ∧ c.loops = [])) ∧
    (∃ (s : State), let m (s : State) : Ctx := s.ctx s.arg.a; (m s).status ≠ .halted) ∧
    (∃ (s : State), let m (s : State) : Ctx := s.ctx s.arg.a; (m s).status = .frozen) ∧
    (∃ (s : State), let m (s : State) : Ctx := s.ctx s.arg.a; (m s).status ≠ .frozen) ∧
    (∃ (s : State), let m (s : State) : Ctx := s.ctx s.arg.a; ((m s).status = .frozen ∨ (m s).status = .attached)) ∧
    (∃ (s : State), let m (s : State) : Ctx := s.ctx s.arg.a; (m s).status ≠ .frozen ∧ (m s).status ≠ .attached) ∧
    (∃ (s : State), let m (s : State) : Ctx := s.ctx s.arg.a; (m s).status = .frozen ∧ (s.dbg s.arg.a).holdTill ≤ s.keel) ∧
    (∃ (s : State), let m (s : State) : Ctx := s.ctx s.arg.a; (m s).status = .frozen ∧ s.keel < (s.dbg s.arg.a).holdTill) ∧
    (∃ (s : State), let m (s : State) : Ctx := s.ctx s.arg.a; ((m s).status = .halted ∨ (m s).status = .frozen ∨ (m s).status = .attached)) ∧
    (∃ (s : State), let m (s : State) : Ctx := s.ctx s.arg.a; ((m s).status = .run ∨ (m s).status = .sleeping)) ∧
    (∃ (s : State), let m (s : State) : Ctx := s.ctx s.arg.a; let b := ((s.dbg s.arg.a).bps[s.arg.b]?).getD 0; ((m s).status = .run ∧
      (m s).inLoopp = false ∨ s.arg.flg = true ∧ ((m s).status = .run ∨ (m s).status = .sleeping)) ∧ b.getLsbD 1 = true ∧ (m s).pfx = none) ∧
    (∃ (s : State), let m (s : State) : Ctx := s.ctx s.arg.a; let b := ((s.dbg s.arg.a).bps[s.arg.b]?).getD 0; ((m s).status = .run ∧
      (m s).inLoopp = false ∨ s.arg.flg = true ∧ ((m s).status = .run ∨ (m s).status = .sleeping)) ∧ b.getLsbD 1 = false ∧ (m s).tvec ≠ 0 ∧
      (m s).tstate.getLsbD 0 = false) ∧
    (∃ (s : State), let m (s : State) : Ctx := s.ctx s.arg.a; (m s).status = .run ∧ (m s).inLoopp = true ∧ s.arg.flg = false) :=
  ⟨⟨z, by dsimp only; decide +kernel⟩,
    ⟨on { c0 with status := .sleeping }, by dsimp only; decide +kernel⟩,
    ⟨on { c0 with loops := [⟨0x1000, 0x1040, 5, 0, some 1, 5⟩] }, by dsimp only; decide +kernel⟩,
    ⟨on { c0 with status := .halted }, by dsimp only; decide +kernel⟩,
    ⟨{ on { c0 with status := .halted } with dbgs := [(0, { edits := [(0x460, 7)] })] }, 7, 63, by dsimp only; decide +kernel⟩,
    ⟨{ on { c0 with status := .halted } with dbgs := [(0, { edits := [(0, 5)] })] }, 5, by dsimp only; decide +kernel⟩,
    ⟨{ on { c0 with stepping := true } with iss := { flow := .fall } }, .nop, by dsimp only; decide +kernel⟩,
    ⟨z, by dsimp only; decide +kernel⟩,
    ⟨on { c0 with status := .frozen }, by dsimp only; decide +kernel⟩,
    ⟨z, by dsimp only; decide +kernel⟩,
    ⟨on { c0 with status := .attached }, by dsimp only; decide +kernel⟩,
    ⟨z, by dsimp only; decide +kernel⟩,
    ⟨{ on { c0 with status := .frozen } with dbgs := [(0, { holdTill := 1000 })] }, by dsimp only; decide +kernel⟩,
    ⟨{ on { c0 with status := .frozen } with dbgs := [(0, { holdTill := 1001 })] }, by dsimp only; decide +kernel⟩,
    ⟨on { c0 with status := .halted }, by dsimp only; decide +kernel⟩,
    ⟨z, by dsimp only; decide +kernel⟩,
    ⟨ev { b := 3 } { z with dbgs := [(0, { bps := Vector.replicate 4 3 })] }, by dsimp only; decide +kernel⟩,
    ⟨ev { b := 3 } z, by dsimp only; decide +kernel⟩,
    ⟨on { c0 with loops := [⟨0x1000, 0x1040, 5, 0, some 3, 5⟩] }, by dsimp only; decide +kernel⟩⟩

theorem witness_FirmwareActions :
    (∃ (s : State), s.fw.recovery = false ∧ s.arg.c = 2081 ∧ (s.fw.service && Config.mailboxGrants s.choices) = false) ∧
    (∃ (s : State), let n := 2 ^ (s.arg.a % 4); let own (g : Nat) : Nat := ((s.arg.bytes[g]?).getD 0).toNat % n;
      let hit (p : Nat) : Prop := (n ≠ s.nparts ∧ p < s.nparts) ∨ (n = s.nparts ∧ ∃ g, g < 64 ∧ own g ≠ s.partOfQueue (16 * g) ∧
      (p = own g ∨ p = s.partOfQueue (16 * g))); let asks := s.arg.c = 2081 → (s.fw.service && Config.mailboxGrants s.choices) = true;
      s.fw.recovery = false ∧ asks ∧ (∀ c ∈ s.ctxs, c.2.status = .free ∨ ¬ hit (s.partOfSrc c.1)) ∧ (∀ k ∈ s.slots, ¬ hit k.part) ∧
      (∀ r ∈ s.relays, r.2.active = false)) ∧
    (∃ (s : State), let n := 2 ^ (s.arg.a % 4); let own (g : Nat) : Nat := ((s.arg.bytes[g]?).getD 0).toNat % n;
      let hit (p : Nat) : Prop := (n ≠ s.nparts ∧ p < s.nparts) ∨ (n = s.nparts ∧ ∃ g, g < 64 ∧ own g ≠ s.partOfQueue (16 * g) ∧
      (p = own g ∨ p = s.partOfQueue (16 * g))); s.fw.recovery = false ∧ s.arg.c ≠ 2081 ∧ (∃ c ∈ s.ctxs, c.2.status ≠ .free ∧ hit (s.partOfSrc c.1))) ∧
    (∃ (s : State) (i : Nat) (b : Byte), s.fw.recovery = false ∧ s.arg.c ≠ 2081 ∧ s.arg.bytes.length = 4 ∧ s.arg.bytes[i]? = some b) ∧
    (∃ (s : State), ∃ k, let col := s.arg.a % 64; s.fw.recovery = false ∧ s.arg.c ≠ 2081 ∧ s.arg.bytes.length = 4 ∧ k / 4 ≠ col) ∧
    (∃ (s : State), let hot := (s.arg.bytes.map (·.toNat)).foldl max 0; s.fw.recovery = false ∧ s.arg.c ≠ 2081 ∧ s.arg.bytes.length = 4 ∧ hot ≤ 110 ∧
      s.arg.flg = false) ∧
    (∃ (s : State), let hot := (s.arg.bytes.map (·.toNat)).foldl max 0; s.fw.recovery = false ∧ s.arg.c ≠ 2081 ∧ s.arg.bytes.length = 4 ∧
      (110 < hot ∨ s.arg.flg = true)) ∧
    (∃ (s : State) (k : Nat), s.fw.recovery = false ∧ s.keel % 10000 = 0 ∧ k < 64) ∧
    (∃ (s : State), s.fw.recovery = false) ∧
    (∃ (s : State), s.fw.recovery = true) ∧
    (∃ (s : State) (i : BitVec 8), let up := s.fw.recovery = false ∧ s.fw.service = true; up ∧ s.arg.pldm = some (.readSensor i)) ∧
    (∃ (s : State), let up := s.fw.recovery = false ∧ s.fw.service = true; up ∧ s.arg.pldm = some .readPower) ∧
    (∃ (s : State), let up := s.fw.recovery = false ∧ s.fw.service = true; up ∧ s.arg.pldm = some .readCap) ∧
    (∃ (s : State), let up := s.fw.recovery = false ∧ s.fw.service = true; up ∧ s.arg.pldm = some .readErrors) ∧
    (∃ (s : State) (w : Nat), let up := s.fw.recovery = false ∧ s.fw.service = true; up ∧ s.arg.pldm = some (.setCap w) ∧ 600 ≤ w ∧ w ≤ 2400) ∧
    (∃ (s : State) (w : Nat), let up := s.fw.recovery = false ∧ s.fw.service = true; up ∧ s.arg.pldm = some (.setCap w) ∧ ¬ (600 ≤ w ∧ w ≤ 2400)) ∧
    (∃ (s : State), let up := s.fw.recovery = false ∧ s.fw.service = true; ¬ up ∧ (∀ v sig, s.arg.pldm ≠ some (.raiseMinimum v sig))) ∧
    (∃ (s : State) (v : W32) (sig : List Byte), s.arg.pldm = some (.raiseMinimum v sig) ∧ s.fw.recovery = false) ∧
    (∃ (s : State), (s.fw.recovery = true ∨ s.fw.service = true)) ∧
    (∃ (s : State), s.fw.recovery = false ∧ s.fw.service = false) ∧
    (∃ (s : State) (c g : Nat), s.arg.err = some (.spad c g) ∧ s.arg.flg = false) ∧
    (∃ (s : State) (c g : Nat), s.arg.err = some (.spad c g) ∧ s.arg.flg = true) ∧
    (∃ (s : State) (g : Nat), s.arg.err = some (.mem g) ∧ s.arg.flg = true) ∧
    (∃ (s : State) (c g : Nat), s.arg.err = some (.pub c g) ∧ s.arg.flg = true) :=
  ⟨⟨ev { c := 2081 } { z with fw := { service := false } }, by decide +kernel⟩,
    ⟨z, by dsimp only; decide +kernel⟩,
    ⟨ev { a := 3 } z, by dsimp only; decide +kernel⟩,
    ⟨ev { bytes := [0, 0, 0, 110] } z, 3, 110, by decide +kernel⟩,
    ⟨ev { bytes := [0, 0, 0, 110] } z, 255, by dsimp only; decide +kernel⟩,
    ⟨ev { bytes := [0, 0, 0, 110] } z, by dsimp only; decide +kernel⟩,
    ⟨ev { bytes := [0, 0, 0, 111] } z, by dsimp only; decide +kernel⟩,
    ⟨{ z with keel := 20000 }, 63, by decide +kernel⟩,
    ⟨z, by decide +kernel⟩,
    ⟨{ z with fw := { recovery := true } }, by decide +kernel⟩,
    ⟨ev { pldm := some (.readSensor 255) } z, 255, by dsimp only; decide +kernel⟩,
    ⟨ev { pldm := some .readPower } z, by dsimp only; decide +kernel⟩,
    ⟨ev { pldm := some .readCap } z, by dsimp only; decide +kernel⟩,
    ⟨ev { pldm := some .readErrors } z, by dsimp only; decide +kernel⟩,
    ⟨ev { pldm := some (.setCap 600) } z, 600, by dsimp only; decide +kernel⟩,
    ⟨ev { pldm := some (.setCap 599) } z, 599, by dsimp only; decide +kernel⟩,
    ⟨{ z with fw := { service := false } }, by dsimp only; exact ⟨by decide +kernel, fun _ _ h => nomatch h⟩⟩,
    ⟨ev { pldm := some (.raiseMinimum 9 []) } z, 9, [], by decide +kernel⟩,
    ⟨z, by decide +kernel⟩,
    ⟨{ z with fw := { service := false } }, by decide +kernel⟩,
    ⟨ev { err := some (.spad 255 0xBFFF) } z, 255, 0xBFFF, by decide +kernel⟩,
    ⟨ev { err := some (.spad 255 0xBFFF), flg := true } z, 255, 0xBFFF, by decide +kernel⟩,
    ⟨ev { err := some (.mem 9), flg := true } z, 9, by decide +kernel⟩,
    ⟨ev { err := some (.pub 7 3), flg := true } z, 7, 3, by decide +kernel⟩⟩

theorem witness_StepRunsDecoded :
    (∃ (s t : State) (src : Nat) (w : Word) (i : Instr), let idle (s : State) : Prop := s.dueQueue = none ∧ s.agenda = [] ∧ s.fw.recovery = false ∧
      s.duty = none; let c := t.ctx src; let u := (t.touch (cellOf src) c.pc.toNat).beginC src w; idle s ∧ s.choose = (.issue src, t) ∧
      (c.bufA.any fun e => publishes e.instr || holdsForRest e.instr) = false ∧ t.fetch src c.pc = some w ∧ t.bpMatch src = none ∧
      u.fetchPoisoned src c.pc = false ∧ decode w = .ok i ∧ c.pfx = none ∧ (∀ f, i ≠ .tell f) ∧ isPrefix i = false ∧
      (i = .nop ∨ (∃ op, i = .undefinedOpcode op))) ∧
    (∃ (s t : State) (src : Nat) (w : Word) (i : Instr), let idle (s : State) : Prop := s.dueQueue = none ∧ s.agenda = [] ∧ s.fw.recovery = false ∧
      s.duty = none; let c := t.ctx src; let u := (t.touch (cellOf src) c.pc.toNat).beginC src w;
      let held := (c.pred (guardOf w).pr == (guardOf w).pn) = false; idle s ∧ s.choose = (.issue src, t) ∧
      (c.bufA.any fun e => publishes e.instr || holdsForRest e.instr) = false ∧ t.fetch src c.pc = some w ∧ t.bpMatch src = none ∧
      u.fetchPoisoned src c.pc = false ∧ decode w = .ok i ∧ c.pfx = none ∧ (∀ f, i ≠ .tell f) ∧ isPrefix i = false ∧ i ≠ .nop ∧
      (∀ op, i ≠ .undefinedOpcode op) ∧ held ∧ c.pending = [] ∧ (∀ a b th, i = .rprobe a b th → u.quiet = true) ∧ unitOf i = .c) ∧
    (∃ (s t : State) (src : Nat) (w : Word) (i : Instr), let idle (s : State) : Prop := s.dueQueue = none ∧ s.agenda = [] ∧ s.fw.recovery = false ∧
      s.duty = none; let c := t.ctx src; let u := (t.touch (cellOf src) c.pc.toNat).beginC src w;
      let held := (c.pred (guardOf w).pr == (guardOf w).pn) = false; idle s ∧ s.choose = (.issue src, t) ∧
      (c.bufA.any fun e => publishes e.instr || holdsForRest e.instr) = false ∧ t.fetch src c.pc = some w ∧ t.bpMatch src = none ∧
      u.fetchPoisoned src c.pc = false ∧ decode w = .ok i ∧ c.pfx = none ∧ (∀ f, i ≠ .tell f) ∧ isPrefix i = false ∧ i ≠ .nop ∧
      (∀ op, i ≠ .undefinedOpcode op) ∧ held ∧ c.pending = [] ∧ (∀ a b th, i = .rprobe a b th → u.quiet = true) ∧ unitOf i ≠ .c ∧
      (c.buf (unitOf i)).length < depthOf (unitOf i) ∧ u.lags.head? = some true) ∧
    (∃ (s t : State) (src : Nat) (w : Word) (i : Instr), let idle (s : State) : Prop := s.dueQueue = none ∧ s.agenda = [] ∧ s.fw.recovery = false ∧
      s.duty = none; let c := t.ctx src; let u := (t.touch (cellOf src) c.pc.toNat).beginC src w;
      let held := (c.pred (guardOf w).pr == (guardOf w).pn) = false; idle s ∧ s.choose = (.issue src, t) ∧
      (c.bufA.any fun e => publishes e.instr || holdsForRest e.instr) = false ∧ t.fetch src c.pc = some w ∧ t.bpMatch src = none ∧
      u.fetchPoisoned src c.pc = false ∧ decode w = .ok i ∧ c.pfx = none ∧ (∀ f, i ≠ .tell f) ∧ isPrefix i = false ∧ i ≠ .nop ∧
      (∀ op, i ≠ .undefinedOpcode op) ∧ held ∧ c.pending = [] ∧ (∀ a b th, i = .rprobe a b th → u.quiet = true) ∧ unitOf i ≠ .c ∧
      (c.buf (unitOf i)).length < depthOf (unitOf i) ∧ u.lags = []) ∧
    (∃ (s t : State) (src : Nat) (w : Word) (i : Instr), let idle (s : State) : Prop := s.dueQueue = none ∧ s.agenda = [] ∧ s.fw.recovery = false ∧
      s.duty = none; let c := t.ctx src; let u := (t.touch (cellOf src) c.pc.toNat).beginC src w;
      let held := (c.pred (guardOf w).pr == (guardOf w).pn) = false; idle s ∧ s.choose = (.issue src, t) ∧
      (c.bufA.any fun e => publishes e.instr || holdsForRest e.instr) = false ∧ t.fetch src c.pc = some w ∧ t.bpMatch src = none ∧
      u.fetchPoisoned src c.pc = false ∧ decode w = .ok i ∧ c.pfx = none ∧ (∀ f, i ≠ .tell f) ∧ isPrefix i = false ∧ i ≠ .nop ∧
      (∀ op, i ≠ .undefinedOpcode op) ∧ ¬ held) ∧
    (∃ (s t : State) (src : Nat) (w : Word) (e : Illegal), let idle (s : State) : Prop := s.dueQueue = none ∧ s.agenda = [] ∧ s.fw.recovery = false ∧
      s.duty = none; let c := t.ctx src; let u := (t.touch (cellOf src) c.pc.toNat).beginC src w; idle s ∧ s.choose = (.issue src, t) ∧
      (c.bufA.any fun e => publishes e.instr || holdsForRest e.instr) = false ∧ t.fetch src c.pc = some w ∧ t.bpMatch src = none ∧
      u.fetchPoisoned src c.pc = false ∧ decode w = .error e) ∧
    (∃ (s : State), let idle (s : State) : Prop := s.dueQueue = none ∧ s.agenda = [] ∧ s.fw.recovery = false ∧ s.duty = none; idle s) ∧
    (∃ (i : Instr), i ∉ [.memoryLoadLands, .loadStreamRow, .storeStreamRow, .streamRowGrant]) ∧
    (∃ (t : State) (src : Nat) (v : Unit4) (e : Entry) (es : List Entry), (t.ctx src).buf v = e :: es ∧ t.inMma src e = false) ∧
    (∃ (t : State) (src : Nat) (w : Word) (i : Instr), (t.ctx src).busy = some w ∧ decode w = .ok i) ∧
    (∃ (t t' : State) (src : Nat) (v : Unit4), (entered t t' src = false ∨ fatalBeside t src v = none)) ∧
    (∃ (t t' : State) (src : Nat) (v : Unit4), ∃ f, entered t t' src = true ∧ fatalBeside t src v = some (true, f)) ∧
    (∃ (t : State) (src : Nat) (v : Unit4), ∃ b, ∃ f, fatalBeside t src v = some (b, f)) ∧
    (∃ (s : State) (i : Instr) (a : EvArg) (rest : List (Instr × EvArg)), s.dueQueue = none ∧ s.agenda = (i, a) :: rest) ∧
    (∃ (s : State) (i : Instr) (a : EvArg), s.dueQueue = some (i, a)) :=
  ⟨⟨q (0), (q (0)).choose.2, 0, 0, .nop, by dsimp only; exact ⟨⟨by decide +kernel, by decide +kernel, by decide +kernel, by decide +kernel⟩, Prod.ext (by decide +kernel) rfl, by decide +kernel, by decide +kernel, by decide +kernel, by decide +kernel, by decide +kernel, by decide +kernel, nofun, rfl, .inl rfl⟩⟩,
    ⟨q (wordOf (.keel 5)), (q (wordOf (.keel 5))).choose.2, 0, wordOf (.keel 5), .keel 5, by dsimp only; exact ⟨⟨by decide +kernel, by decide +kernel, by decide +kernel, by decide +kernel⟩, Prod.ext (by decide +kernel) rfl, by decide +kernel, by decide +kernel, by decide +kernel, by decide +kernel, by decide +kernel, by decide +kernel, nofun, rfl, nofun, nofun, by decide +kernel, by decide +kernel, nofun, rfl⟩⟩,
    ⟨{ q (wordOf lds0) with lags := [true] }, ({ q (wordOf lds0) with lags := [true] }).choose.2, 0, wordOf lds0, lds0, by dsimp only; exact ⟨⟨by decide +kernel, by decide +kernel, by decide +kernel, by decide +kernel⟩, Prod.ext (by decide +kernel) rfl, by decide +kernel, by decide +kernel, by decide +kernel, by decide +kernel, by decide +kernel, by decide +kernel, nofun, rfl, nofun, nofun, by decide +kernel, by decide +kernel, nofun, nofun, by decide +kernel, by decide +kernel⟩⟩,
    ⟨q (wordOf lds0), (q (wordOf lds0)).choose.2, 0, wordOf lds0, lds0, by dsimp only; exact ⟨⟨by decide +kernel, by decide +kernel, by decide +kernel, by decide +kernel⟩, Prod.ext (by decide +kernel) rfl, by decide +kernel, by decide +kernel, by decide +kernel, by decide +kernel, by decide +kernel, by decide +kernel, nofun, rfl, nofun, nofun, by decide +kernel, by decide +kernel, nofun, nofun, by decide +kernel, by decide +kernel⟩⟩,
    ⟨q ((encode ⟨true, 0⟩ (.keel 5)).getD 0), (q ((encode ⟨true, 0⟩ (.keel 5)).getD 0)).choose.2, 0, (encode ⟨true, 0⟩ (.keel 5)).getD 0, .keel 5, by dsimp only; exact ⟨⟨by decide +kernel, by decide +kernel, by decide +kernel, by decide +kernel⟩, Prod.ext (by decide +kernel) rfl, by decide +kernel, by decide +kernel, by decide +kernel, by decide +kernel, by decide +kernel, by decide +kernel, nofun, rfl, nofun, nofun, by decide +kernel⟩⟩,
    ⟨q (wordOf (.vput 0 1 48)), (q (wordOf (.vput 0 1 48))).choose.2, 0, wordOf (.vput 0 1 48), _, by dsimp only; exact ⟨⟨by decide +kernel, by decide +kernel, by decide +kernel, by decide +kernel⟩, Prod.ext (by decide +kernel) rfl, by decide +kernel, by decide +kernel, by decide +kernel, by decide +kernel, rfl⟩⟩,
    ⟨q 0, by dsimp only; decide +kernel⟩,
    ⟨.nop, by decide +kernel⟩,
    ⟨on { c0 with bufA := [ent lds0] }, 0, .a, ent lds0, [], by decide +kernel⟩,
    ⟨on { c0 with busy := some 0 }, 0, 0, .nop, by decide +kernel⟩,
    ⟨z, z, 0, .c, by decide +kernel⟩,
    ⟨lateS, on { c0 with tstate := 1 }, 0, .c, ((fatalBeside lateS 0 .c).getD (true, z)).2, ⟨by decide +kernel, some_must (by decide +kernel)⟩⟩,
    ⟨besideS, 0, .c, ((fatalBeside besideS 0 .c).getD (true, z)).1, ((fatalBeside besideS 0 .c).getD (true, z)).2, some_pair (by decide +kernel)⟩,
    ⟨{ z with agenda := [(.nop, {})] }, .nop, {}, [], by decide +kernel⟩,
    ⟨{ z with queues := [(0, { slot := some 0 })] }, .queueSlotMap, { a := 0 }, by decide +kernel⟩⟩

theorem witness_DecodedIsWellFormed :
    ∃ (w : Word) (i : Instr), decode w = .ok i :=
  ⟨0, .nop, rfl⟩

theorem witness_StepKeepsMemories :
    ∃ (s : State) (t : State), s.memWf ∧ step s = .next t :=
  ⟨{ z with agenda := [(.nop, {})] }, _, by decide +kernel, rfl⟩

/-! Witnesses of the conditions under which single clauses say that an instruction writes (`WritesRegIf`, `ChangesMe`, `opsReady`). -/

theorem witness_MoveResults_vget : ∃ (s : State) (g l : Reg),
    g.toNat < 48 ∧ l.toNat < 48 ∧ s.me.bufE = [] ∧ (s.iss.src, (physRow s.iss.rrb g).toNat, l.toNat / 8) ∉ s.psnGrid :=
  ⟨z, 47, 47, by decide +kernel⟩
theorem witness_BranchTargets_aligned : ∃ (s : State) (a : Reg), s.scalar a = 0xFFFFFFFFFFFFFFF8 ∧ (s.scalar a).toNat % 8 = 0 :=
  ⟨z1 0xFFFFFFFFFFFFFFF8, 1, by decide +kernel⟩
theorem witness_LoopEffects_counts : ∃ (s u : State) (a : Reg),
    (s.me.loops.length < 4 ∧ s.me.inLoopp = false ∧ s.loopCount a = 0) ∧ s.me.loops.length = 3 ∧
    (u.me.loops.length < 4 ∧ u.me.inLoopp = false ∧ u.loopCount a ≠ 0) ∧ u.me.loops.length = 3 :=
  ⟨on { c0 with loops := List.replicate 3 ⟨0x1000, 0x1040, 5, 0, none, 5⟩ },
    on { c0.setReg 1 1 with loops := List.replicate 3 ⟨0x1000, 0x1040, 5, 0, none, 5⟩ }, 1, by decide +kernel⟩
theorem witness_DrogueRegions_conditions : ∃ s u : State, (s.me.pending = [] ∧ s.me.drogue.length = 3) ∧
    (u.quiet = true ∧ u.me.drogue ≠ []) :=
  ⟨on { c0 with drogue := List.replicate 3 ⟨0x3000, ⟨c0.regs, 1, 0, [], 0x1000⟩, 0⟩ },
    on { c0 with drogue := [⟨0x3000, ⟨c0.regs, 1, 0, [], 0x1000⟩, 0⟩] }, by decide +kernel⟩
theorem witness_SystemRegisters_conditions : ∃ (s : State) (a : Reg),
    s.me.bufE = [] ∧ s.me.bufT = [] ∧ s.me.pending = [] ∧ (s.scalar a).getLsbD 0 = false := ⟨z1 2, 1, by decide +kernel⟩
theorem witness_ThreadControl_prefix : ∃ s : State, s.me.pfx = none := ⟨z, rfl⟩
theorem witness_QueueInstructions_qadv : ∃ (s u : State) (q : QSel) (n m : Count 8),
    (s.iss.prog = 0 ∧ s.count 16 n = 8 ∧ s.count 16 n ≤ (s.me.queue q).slots.length ∧ s.me.poppers q = false) ∧
    (u.iss.prog = 0 ∧ u.count 16 m = 0 ∧ u.count 16 m ≤ (u.me.queue q).slots.length) :=
  ⟨on { c0 with lqs := Vector.replicate 4 { slots := List.replicate 8 {} } }, z, ⟨false, 3⟩, .imm 8, .imm 0, by decide +kernel⟩
theorem witness_RigAndQueries_wstat : ∃ (s : State) (n : BitVec 8), s.str s.myPart n.toNat = none := ⟨z, 255, by decide +kernel⟩
theorem witness_GraphInstructions_gqry : ∃ (s u : State) (a : Reg) (l : Launch) (n : Node),
    (s.launch (s.scalar a).toNat = some l ∧ s.nodeOf (s.scalar a).toNat = some n ∧ l.part = s.myPart ∧ n.state ≠ 0 ∧
      n.rec_.deadline = 0) ∧ u.launch (u.scalar a).toNat = none :=
  ⟨{ z1 4096 with launches := [launch0 (node0 rec0 2)] }, z, 1, launch0 (node0 rec0 2), node0 rec0 2, by decide +kernel⟩
theorem witness_RelayBehaviour_rstat : ∃ (s : State) (e : BitVec 3),
    s.partOfStack e.toNat = s.myPart ∧ (s.relay e.toNat).active = false := ⟨z, 7, by decide +kernel⟩
theorem witness_WindowInstructions_conditions : ∃ (s u : State) (a : Reg) (w : Window) (p : Pair),
    let id (s : State) : Nat := (s.scalar a).toNat % 65536
    (s.scalar 5 = 0 ∧ s.window (id s % 4096) = some w ∧ w.part = s.myPart ∧ s.partOfPort (id s / 4096) = s.myPart ∧
      (s.port (id s / 4096)).pair (id s % 4096) = p) ∧ u.window (id u % 4096) = none ∧
      u.partOfPort (id u / 4096) ≠ u.myPart :=
  ⟨{ z1 0xFFFF with windows := [(0xFFF, win0)] }, { z1 0xFFFF with nparts := 2 }, 1, win0, {}, by decide +kernel⟩

/-- Operands are there: a row and a broadcast; a slot popped and a slot pushed; two held latches. -/
theorem witness_operands_ready : ∃ s u v : State,
    s.opsReady 1 (.from (.row 47)) (some (.from (.bcast 31))) none [] ∧
    u.opsReady 1 (.from (.queue 3 3 true)) (some (.from (.queue 0 0 false))) none [(2, 1)] ∧
    v.opsReady 1 .held (some .held) (some (.row 0)) [] :=
  ⟨inU .e (on front), inU .e (on { front with lqs := Vector.replicate 4 { prods := [1], slots := List.replicate 4 {} } }),
    inU .e (on { front with latchA := some ⟨0, none⟩, latchB := some ⟨0, none⟩ }), by decide +kernel, by decide +kernel,
    by decide +kernel⟩
/-- VQNT's group of two rows with its two pushes; VDQ's rows up to the last. -/
theorem witness_groups_ready : ∃ s : State,
    s.opsReady 4 (.from (.row 44)) none none [(2, 1), (3, 1)] ∧ s.opsReady 1 (.from (.row 47)) (some (.from (.row 0))) none [(2, 4)] :=
  ⟨inU .e (on front), by decide +kernel, by decide +kernel⟩
theorem witness_EncodeDecode : Instr.nop.wf = true ∧ encode ⟨false, 0⟩ .nop = some 0 := by decide +kernel

end Sys2Proof.Tests
end

section
/-! What the tables, the byte memories and the contexts hold in the state after reset (R407): no key is listed, so each accessor
answers the default of its table. -/

namespace Sys2Proof.Machine

-- A memory with no entry.

@[simp] theorem mread_nil (a : Nat) : mread [] a = 0 := tget_nil 0 a

@[simp] theorem mreads_nil (a n : Nat) : mreads [] a n = List.replicate n 0 := by
  induction n generalizing a with
  | zero => rfl
  | succ n ih => rw [mreads, mread_nil, ih, List.replicate_succ]

@[simp] theorem Memory.wf_nil : Memory.wf [] = true := rfl

-- The accessors after reset.

@[simp] theorem State.ctx_reset (n : Nat) : State.reset.ctx n = {} := tget_nil _ n
@[simp] theorem State.part_reset (n : Nat) : State.reset.part n = {} := tget_nil _ n
@[simp] theorem State.chan_reset (n : Nat) : State.reset.chan n = {} := tget_nil _ n
@[simp] theorem State.queue_reset (n : Nat) : State.reset.queue n = {} := tget_nil _ n
@[simp] theorem State.col_reset (n : Nat) : State.reset.col n = {} := tget_nil _ n

@[simp] theorem State.spadNow_reset (cell a n : Nat) : State.reset.spadNow cell a n = List.replicate n 0 :=
  mreads_nil (spadKey cell a) n

@[simp] theorem State.bankNow_reset (cell : Nat) (second : Bool) (a n : Nat) :
    State.reset.bankNow cell second a n = List.replicate n 0 :=
  mreads_nil (bankKey cell second a) n

theorem State.memWf_reset : State.reset.memWf := ⟨Memory.wf_nil, Memory.wf_nil, Memory.wf_nil⟩

/-- Every scalar of a context that nothing has written reads 0, `s0` by R12. -/
@[simp] theorem Ctx.reg_default (r : Reg) : ({} : Ctx).reg r = 0 := by
  by_cases h : r = 0
  · rw [h, Ctx.reg_zero]
  · rw [Ctx.reg, if_neg h, Vector.getElem_replicate]

/-- Settles O59: each accessor answers the default of its table, and the defaults are the values of reset. -/
theorem afterReset : Obligations.AfterReset := by
  unfold Obligations.AfterReset
  refine ⟨State.memWf_reset, rfl, fun n => ?status, mread_nil, fun c a => State.spadNow_reset c a 1,
    fun c b a => State.bankNow_reset c b a 1, fun p => ?part, fun n r => ?reg, fun n => ?rvm, fun k => ?chan, fun q => ?queue,
    fun k => ?col, rfl, rfl⟩
  case status => rw [State.ctx_reset]
  case part => rw [State.part_reset]; exact ⟨rfl, rfl, rfl⟩
  case reg => rw [State.ctx_reset, Ctx.reg_default]
  case rvm => rw [State.ctx_reset]; decide
  case chan => rw [State.chan_reset]
  case queue => rw [State.queue_reset]
  case col => rw [State.col_reset]

end Sys2Proof.Machine
end

section
/-! What an execute instruction does where its operands are not there (R23 to R25, R37, R333): `State.readOps` waits, finds a latch
empty, or consumes poison, whatever the instruction does with the operands. -/

namespace Sys2Proof.Machine

-- A wait.

theorem OnlyMine.waitOn (s : State) (kind obj : Nat) (deadline : Option Nat) : OnlyMine s (s.waitOn kind obj deadline) :=
  (OnlyMine.modMe s _).flow .stalled

@[simp] theorem State.waitOn_flow (s : State) (kind obj : Nat) (deadline : Option Nat) :
    (s.waitOn kind obj deadline).iss.flow = .stalled := rfl

/-- A wait is noted in the thread's context and changes nothing else of it. -/
theorem State.me_waitOn (s : State) (kind obj : Nat) (deadline : Option Nat) :
    (s.waitOn kind obj deadline).me = { s.me with
      wait := (s.waitOn kind obj deadline).me.wait, qwaits := (s.waitOn kind obj deadline).me.qwaits } := by
  rw [State.waitOn, State.me_stall, State.me_modMe]
  split <;> rfl

-- The slots that the source of a one-source form needs.

@[simp] theorem queueNeeds_held (g : Nat) : queueNeeds g .held none = [] := rfl

@[simp] theorem queueNeeds_from (g : Nat) (x : Src) : queueNeeds g (.from x) none = (srcNeed g x).toList :=
  List.append_nil _

@[simp] theorem needOf_single (e : BitVec 2 × Nat × Bool) : needOf [e] e.1 = e.2.1 := by simp [needOf]

theorem slots_there_of_source {s : State} {g : Nat} {x : Src} (h : ∀ e ∈ srcNeed g x, e.2.1 ≤ (s.me.lq e.1).filled s.keel) :
    ∀ e ∈ queueNeeds g (.from x) none, needOf (queueNeeds g (.from x) none) e.1 ≤ (s.me.lq e.1).filled s.keel := by
  rw [queueNeeds_from]
  cases hx : srcNeed g x with
  | none => nofun
  | some e => simpa using h e hx

-- The read of the operands, in the order of its checks.

section
variable {s : State} {g : Nat} {a : Opnd} {b : Option Opnd} {wa wb : Nat} {also : Option Dst} {push : List (BitVec 2 × Nat)}
  {k : List Row → Row → State → State}

/-- R23: a slot that is read and not yet filled is waited for. -/
theorem State.readOps_of_unfilled
    (h : ∃ e ∈ queueNeeds g a b, (s.me.lq e.1).filled s.keel < needOf (queueNeeds g a b) e.1) :
    ∃ q, s.readOps g a b wa wb also push k = s.waitOn 0 (queueObj ⟨false, q⟩) none := by
  obtain ⟨e, he, hlt⟩ := h
  have hsome : (((queueNeeds g a b).map (·.1)).find? fun q =>
      decide ((s.me.lq q).filled s.keel < needOf (queueNeeds g a b) q)).isSome :=
    List.find?_isSome.2 ⟨e.1, List.mem_map_of_mem he, decide_eq_true hlt⟩
  obtain ⟨q, hq⟩ := Option.isSome_iff_exists.1 hsome
  rw [queueNeeds] at hq
  exact ⟨q, by simp only [State.readOps, hq]⟩

theorem State.no_slot_awaited
    (hfilled : ∀ e ∈ queueNeeds g a b, needOf (queueNeeds g a b) e.1 ≤ (s.me.lq e.1).filled s.keel) :
    (((queueNeeds g a b).map (·.1)).find? fun q =>
      decide ((s.me.lq q).filled s.keel < needOf (queueNeeds g a b) q)) = none := by
  rw [List.find?_eq_none]
  intro q hq
  obtain ⟨e, he, rfl⟩ := List.mem_map.1 hq
  simpa using hfilled e he

theorem State.no_push_awaited (hpush : ∀ p ∈ push, s.canPush p.1 p.2 = true) :
    (push.find? fun p => !(s.canPush p.1 p.2)) = none := by
  rw [List.find?_eq_none]
  intro p hp
  simp [hpush p hp]

variable (hfilled : ∀ e ∈ queueNeeds g a b, needOf (queueNeeds g a b) e.1 ≤ (s.me.lq e.1).filled s.keel)
  (hpush : ∀ p ∈ push, s.canPush p.1 p.2 = true)
include hfilled hpush

/-- R37: a held operand whose latch holds nothing is ILLEGAL. -/
theorem State.readOps_of_latch_empty (hl : (a = .held ∧ s.me.latchA = none) ∨ (b = some .held ∧ s.me.latchB = none)) :
    s.readOps g a b wa wb also push k = s.fatal .illegal := by
  have hslots := State.no_slot_awaited hfilled
  rw [queueNeeds] at hslots
  simp only [State.readOps, hslots, State.no_push_awaited hpush]
  exact if_pos (by simpa using hl)

/-- R333: a poisoned operand is an uncorrectable error. -/
theorem State.readOps_of_poison (ha : a = .held → s.me.latchA ≠ none) (hb : b = some .held → s.me.latchB ≠ none)
    (hp : (∃ x ∈ srcOf a, ∃ i < g, s.vecPoisoned i x = true) ∨ (∃ x ∈ b.bind srcOf, s.vecPoisoned 0 x = true) ∨
      ∃ d ∈ also, s.gridPoisoned d = true) :
    s.readOps g a b wa wb also push k = s.poisoned := by
  have hslots := State.no_slot_awaited hfilled
  rw [queueNeeds] at hslots
  simp only [State.readOps, hslots, State.no_push_awaited hpush]
  rw [if_neg (by simpa using ⟨ha, hb⟩), if_pos]
  simpa [Option.any_eq_true, or_assoc] using hp

end

-- The forms of the statement.

theorem exec_vadd (f : VBin) (s : State) : exec (.vadd f) s = vfp2 Num.add f s := rfl

theorem exec_vcpy (f : VMov1) (s : State) : exec (.vcpy f) s = vbits1 (fun x => x) f s := rfl

/-- Settles O33: `VADD` and `VCPY` read their operands by `State.readOps`, and each of its three stops is one clause. -/
theorem vectorWaits : Obligations.VectorWaits := by
  unfold Obligations.VectorWaits
  intro s f v
  refine ⟨?waits, ?empty, ?poison⟩
  case waits =>
    intro h
    obtain ⟨q, hq⟩ := State.readOps_of_unfilled h
    exact ⟨_, by rw [exec_vadd, vfp2, hq], State.waitOn_flow .., OnlyMine.waitOn .., State.me_waitOn ..⟩
  case empty =>
    intro ha hlatch hpush
    rw [exec_vcpy, vbits1, ha, State.readOps_of_latch_empty (by simp) hpush (.inl ⟨rfl, hlatch⟩)]
  case poison =>
    intro x ha hfilled hpush hp
    rw [exec_vcpy, vbits1, ha, State.readOps_of_poison (slots_there_of_source hfilled) hpush nofun nofun]
    exact .inl ⟨x, rfl, 0, Nat.one_pos, hp⟩

end Sys2Proof.Machine
end

section
/-! What one step of the device runs (R14 to R17, R29, R31, R328): first what the control core decides of a fetched word
(`State.ready`), then what an issue, a unit, a waiting instruction and an event make of it, and then `step`. -/

namespace Sys2Proof.Machine

/-- The state in which the word that a thread has fetched begins at its control core. -/
abbrev State.beginWord (s : State) (src : Nat) (w : Word) : State :=
  (s.touch (cellOf src) (s.ctx src).pc.toNat).beginC src w

/-- R264: only an `RPROBE` is held until the units are at rest. -/
theorem holds_only_until_quiet {i : Instr} {s : State} (h : ∀ a b th, i = .rprobe a b th → s.quiet = true) :
    (holdsForRest i && !s.quiet) = false := by
  unfold holdsForRest
  split
  · rw [h _ _ _ rfl]; rfl
  · rfl

-- What the control core decides of a word that it has fetched.

section
variable {s : State} {src : Nat} {w : Word}
  (hbuf : ((s.ctx src).bufA.any fun e => publishes e.instr || holdsForRest e.instr) = false)
  (hfetch : s.fetch src (s.ctx src).pc = some w) (hbp : s.bpMatch src = none)
  (hclean : (s.beginWord src w).fetchPoisoned src (s.ctx src).pc = false)
include hbuf hfetch hbp hclean

/-- R31: a word that decodes to nothing is ILLEGAL. -/
theorem State.ready_of_undecodable {e : Illegal} (hdec : decode w = .error e) :
    s.ready src = .fault ((s.beginWord src w).fatal .illegal) := by
  simp only [State.ready, hbuf, hfetch, hbp, hclean, hdec, State.illegalAtIssue, Bool.false_eq_true, if_false]

variable {i : Instr} (hdec : decode w = .ok i) (hpfx : (s.ctx src).pfx = none)
include hdec hpfx

theorem State.ready_of_unguarded (hi : i = .nop ∨ ∃ op, i = .undefinedOpcode op) :
    s.ready src = .run i (s.beginWord src w) := by
  obtain rfl | ⟨op, rfl⟩ := hi <;>
    simp [State.ready, hbuf, hfetch, hbp, hclean, hdec, hpfx, isPrefix]

variable (htell : ∀ f, i ≠ .tell f) (hchain : isPrefix i = false) (hnop : i ≠ .nop) (hop : ∀ op, i ≠ .undefinedOpcode op)
include htell hchain hnop hop

/-- R15: an instruction whose guard is false is skipped. -/
theorem State.ready_of_guard_false (hguard : ((s.ctx src).pred (guardOf w).pr == (guardOf w).pn) = true) :
    s.ready src = .skip (s.beginWord src w) := by
  simp [State.ready, hbuf, hfetch, hbp, hclean, hdec, hpfx, hchain, hguard]

variable (hguard : ((s.ctx src).pred (guardOf w).pr == (guardOf w).pn) = false) (hpending : (s.ctx src).pending = [])
  (hrest : ∀ a b th, i = .rprobe a b th → (s.beginWord src w).quiet = true)
include hguard hpending hrest

theorem State.ready_of_unit_c (hunit : unitOf i = .c) : s.ready src = .run i (s.beginWord src w) := by
  have hq := holds_only_until_quiet hrest
  simp [State.ready, hbuf, hfetch, hbp, hclean, hdec, hpfx, hchain, hguard, hpending, hunit, hq]

/-- R16: an instruction of another unit is dispatched where its buffer has room. -/
theorem State.ready_of_other_unit (hunit : unitOf i ≠ .c) (hroom : ((s.ctx src).buf (unitOf i)).length < depthOf (unitOf i)) :
    s.ready src = .send i (unitOf i) (s.beginWord src w) := by
  have hq := holds_only_until_quiet hrest
  simp [State.ready, hbuf, hfetch, hbp, hclean, hdec, hpfx, hchain, hguard, hpending, hroom, hq]

end

-- What an issue makes of the decision.

section
variable {s u : State} {src : Nat} {i : Instr} {v : Unit4}

theorem issueStep_of_run (h : s.ready src = .run i u) :
    issueStep s src = andThen (exec i u) fun t => t.finishC i (s.ctx src).pc := by simp only [issueStep, h]

theorem issueStep_of_skip (h : s.ready src = .skip u) : issueStep s src = .next (u.finishC .nop (s.ctx src).pc) := by
  simp only [issueStep, h]

theorem issueStep_of_fault (h : s.ready src = .fault u) : issueStep s src = .next (u.issued src) := by simp only [issueStep, h]

/-- An entry dispatched waits in its buffer where `lags` says so (log 41). -/
theorem issueStep_of_send_lagging (h : s.ready src = .send i v u) (hlag : u.lags.head? = some true) :
    issueStep s src = .next ((({ u with lags := u.lags.tail } : State).dispatch i v).finishC i (s.ctx src).pc) := by
  simp only [issueStep, h, hlag, Option.getD_some, if_true]

theorem issueStep_of_send (h : s.ready src = .send i v u) (hlag : u.lags = []) :
    issueStep s src = unitNext ((({ u with lags := u.lags.tail } : State).dispatch i v).finishC i (s.ctx src).pc) src v := by
  simp only [issueStep, h, hlag, List.head?_nil, Option.getD_none, Bool.false_eq_true, if_false]

end

-- Units, waiting instructions and events.

/-- R16, R17: an entry just dispatched stands in its buffer, or its unit takes it in the next nanosecond, when it is its turn. -/
theorem unitNext_cases (s : State) (src : Nat) (v : Unit4) : unitNext s src v = .next s ∨
    s.tick.pickU (cellOf src) v = some src ∧ unitNext s src v = oneCause s.tick src v (unitStep s.tick src v) := by
  simp only [unitNext]
  split
  case isTrue h =>
    simp only [Bool.and_eq_true, decide_eq_true_eq] at h
    obtain ⟨⟨-, hpick⟩, -⟩ := h
    exact .inr ⟨hpick, rfl⟩
  case isFalse => exact .inl rfl

/-- R17: a unit runs the oldest entry of its buffer. -/
theorem unitStep_of_entry {s : State} {src : Nat} {v : Unit4} {e : Entry} {es : List Entry} (hbuf : (s.ctx src).buf v = e :: es)
    (hmma : s.inMma src e = false) : unitStep s src v = andThen (exec e.instr (s.beginU src v e)) fun t => t.finishU v := by
  simp only [unitStep, hbuf, hmma, Bool.false_eq_true, if_false]

theorem State.goOn_of_busy {s : State} {src : Nat} {w : Word} {i : Instr} (hbusy : (s.ctx src).busy = some w)
    (hdec : decode w = .ok i) :
    s.goOn src = some (i, { s.beginC src w with iss := { (s.beginC src w).iss with waited := true } }) := by
  simp only [State.goOn, hbusy, Option.bind_some, hdec]

theorem retryStep_of_goOn {s u : State} {src : Nat} {i : Instr} (h : s.goOn src = some (i, u)) :
    retryStep s src = andThen (exec i u) fun t => t.finishC i (s.ctx src).pc := by simp only [retryStep, h]

theorem causeStep_of_not_access {i : Instr} (hi : i ∉ [.memoryLoadLands, .loadStreamRow, .storeStreamRow, .streamRowGrant])
    (s : State) (a : EvArg) : causeStep s i a = runEvent s i a := by
  unfold causeStep
  split
  case h_5 => rfl
  all_goals simp at hi

-- One cause of those found at once (R328).

theorem frozenBy_frozen {src : Nat} {o : Out} {t : State} (h : frozenBy src o = some t) : (t.ctx src).status = .frozen := by
  unfold frozenBy at h
  split at h
  · split at h
    · cases h; assumption
    · cases h
  · cases h

theorem frozen_of_map_frozenBy {src : Nat} {o : Out} {m b : Bool} {f : State} (h : (frozenBy src o).map (m, ·) = some (b, f)) :
    (f.ctx src).status = .frozen := by
  obtain ⟨t, ht, heq⟩ := Option.map_eq_some_iff.1 h
  cases heq
  exact frozenBy_frozen ht

/-- Each cause looked for beside another, a load, a row or an entry of a later unit, is one that froze the thread. -/
theorem fatalBeside_frozen {s f : State} {src : Nat} {v : Unit4} {b : Bool} (h : fatalBeside s src v = some (b, f)) :
    (f.ctx src).status = .frozen := by
  simp only [fatalBeside, Option.orElse_eq_or, Option.or_eq_some_iff] at h
  obtain hload | ⟨-, hrow | ⟨-, hunit⟩⟩ := h
  · obtain ⟨e, -, he⟩ := List.exists_of_findSome?_eq_some hload
    exact frozen_of_map_frozenBy he
  · obtain ⟨p, -, hp⟩ := List.exists_of_findSome?_eq_some hrow
    exact frozen_of_map_frozenBy (Option.ite_none_right_eq_some.1 hp).2
  · obtain ⟨v', -, hv⟩ := List.exists_of_findSome?_eq_some hunit
    exact frozen_of_map_frozenBy (Option.ite_none_right_eq_some.1 hv).2

theorem oneCause_of_alone {s t : State} {src : Nat} {v : Unit4} (h : entered s t src = false ∨ fatalBeside s src v = none) :
    oneCause s src v (.next t) = .next t := by
  have hnone : (if entered s t src then fatalBeside s src v else none) = none := by
    obtain h | h := h
    · rw [if_neg (by simp [h])]
    · rw [h, ite_self]
  simp only [oneCause, hnone]

theorem oneCause_of_fatal {s t f : State} {src : Nat} {v : Unit4} (hentered : entered s t src = true)
    (hfatal : fatalBeside s src v = some (true, f)) :
    oneCause s src v (.next t) = .next { f with choices := f.choices + 1 } := by
  simp only [oneCause, hentered, hfatal, Bool.true_or, if_true]

-- A step.

/-- Nothing that has arrived and nothing that is due comes before the moves open to the device. -/
abbrev State.idle (s : State) : Prop := s.dueQueue = none ∧ s.agenda = [] ∧ s.fw.recovery = false ∧ s.duty = none

theorem step_of_dueQueue {s : State} {i : Instr} {a : EvArg} (h : s.dueQueue = some (i, a)) : step s = runEvent s i a := by
  simp only [step, h]

theorem step_of_agenda {s : State} {i : Instr} {a : EvArg} {rest : List (Instr × EvArg)} (hq : s.dueQueue = none)
    (ha : s.agenda = (i, a) :: rest) : step s = runEvent { s with agenda := rest } i a := by
  simp only [step, hq, ha]

/-- An idle device takes one of its moves. -/
theorem step_of_idle {s : State} (h : s.idle) : step s = match s.choose with
    | (.tick, t) => .next t.tick
    | (.issue src, t) => oneCause t src .c (issueStep t src)
    | (.retry src, t) => oneCause t src .c (retryStep t src)
    | (.unit src v, t) => oneCause t src v (unitStep t src v)
    | (.event i a, t) => causeStep t i a := by
  obtain ⟨hq, ha, hr, hd⟩ := h
  rcases hm : s.choose with ⟨m, t⟩
  cases m <;> simp only [step, hq, ha, hr, hd, hm, Bool.false_eq_true, if_false]

theorem step_of_issue {s t : State} {src : Nat} (h : s.idle) (hm : s.choose = (.issue src, t)) :
    step s = oneCause t src .c (issueStep t src) := by
  rw [step_of_idle h, hm]

/-- Settles O55: the decision about the fetched word, case by case, is what the step that issues it runs; the other clauses are
what a unit, a waiting instruction and an event make of a move. -/
theorem stepRunsDecoded : Obligations.StepRunsDecoded := by
  unfold Obligations.StepRunsDecoded
  refine ⟨?issue, ?illegal, fun _ => step_of_idle, fun s i a hi => causeStep_of_not_access hi s a, unitNext_cases,
    fun _ _ _ _ _ => unitStep_of_entry, ?retry,
    fun _ _ _ _ => ⟨oneCause_of_alone, fun _ => oneCause_of_fatal, fun _ _ => fatalBeside_frozen⟩,
    fun _ _ _ _ => step_of_agenda, fun _ _ _ => step_of_dueQueue⟩
  case issue =>
    intro s t src w i c u held runs hidle hm hbuf hfetch hbp hclean hdec hpfx htell hchain
    have hruns {o : Out} (h : issueStep t src = o) : runs o := (step_of_issue hidle hm).trans (by rw [h])
    refine ⟨fun hi => ?unguarded, fun hnop hop hheld hpending hrest => ⟨fun hunit => ?core, fun hunit hroom => ?send⟩,
      fun hnop hop hheld => ?skip⟩
    case unguarded => exact hruns (issueStep_of_run (State.ready_of_unguarded hbuf hfetch hbp hclean hdec hpfx hi))
    case core =>
      exact hruns (issueStep_of_run
        (State.ready_of_unit_c hbuf hfetch hbp hclean hdec hpfx htell hchain hnop hop hheld hpending hrest hunit))
    case send =>
      have hsend := State.ready_of_other_unit hbuf hfetch hbp hclean hdec hpfx htell hchain hnop hop hheld hpending hrest hunit hroom
      exact ⟨fun hlag => hruns (issueStep_of_send_lagging hsend hlag), fun hlag => hruns (issueStep_of_send hsend hlag)⟩
    case skip =>
      exact hruns (issueStep_of_skip
        (State.ready_of_guard_false hbuf hfetch hbp hclean hdec hpfx htell hchain hnop hop (Bool.eq_true_of_not_eq_false hheld)))
  case illegal =>
    intro s t src w e c u hidle hm hbuf hfetch hbp hclean hdec
    rw [step_of_issue hidle hm, issueStep_of_fault (State.ready_of_undecodable hbuf hfetch hbp hclean hdec)]
  case retry =>
    intro t src w i hbusy hdec
    exact retryStep_of_goOn (State.goOn_of_busy hbusy hdec)

end Sys2Proof.Machine
end

section
/-! The round trip of the encoding (R29, R32 to R50), gathered from the laws of the single instructions. -/

namespace Sys2Proof.Laws.Encodes

/-- Settles O56: a law for each case of `Instr`, in the order of the constructors. -/
theorem encodeDecode : Obligations.EncodeDecode := by
  unfold Obligations.EncodeDecode
  exact Instr.rec (motive := Statement)
    -- scalar instructions
    nop add sub mul mulh mulhu div divu rem remu and or xor andn shl shr sra rot min max minu maxu clz popc madd sel addx
    addi andi ori xori shli shri srai roti li lih liz
    cmpEq cmpNe cmpLt cmpLe cmpLtu cmpLeu pand por pxor pandn cmpiEq cmpiNe cmpiLt cmpiLe cmpiLtu cmpiLeu
    mov pget pput vget vput keel br call jmp callr ret loop loopp lbrk lnext exit yield sleept sleepd
    -- queues, accesses, atomics, translation
    qadv qstat qcfg qclr ldq stq ldmq stmq ldrq strq lds sts ldm stm
    amoAdd amoMin amoMax amoMinu amoMaxu amoAnd amoOr amoXor amoSwap amoCas
    amosAdd amosMin amosMax amosMinu amosMaxu amosAnd amosOr amosXor amosSwap amosCas
    teth trenew trel tstat rprobe
    -- vectors, the words before a target and the hints, the tensor unit
    vadd vsub vmul vfma vfnma vmax vmin vabs vneg vcpy vrcp vrsq vexp2 vlog2 vsqrt vdiv
    viadd visub vimul vand vor vxor vshl vshr vsra vimin vimax
    vcmpEq vcmpNe vcmpLt vcmpLe vcmpUn vcmpIeq vcmpIlt vcmpIltu
    vcvt vqnt vdq vsum vrmax vrmin vperm vrot vbcast vsel vldi xtnd lane pref prio emptyHint
    mma mzero mlda msta mprog mrst epi
    -- the wave array, phases, graphs, engines, the directory, the system
    rig unrig admitTile arrv pass meet wver wswap wstat phase phaseb fencex flagset flagw join leave teamq
    glaunch gsig gdone gadd gqry copy copyf cwait cstat cchk wreg wdereg put wwait wcnt
    rstart rwait rstat rarbHbm rarbLink mopen mopenw mclose mbind munbind mqry
    dropen drclose tell errq trap rfe rdsys wrsys brk evt blst undefinedOpcode
    -- events, which have no word
    instructionFetch sleepWake loadStreamRow storeStreamRow streamRowGrant memoryLoadLands memoryStorePerformed renewalAnswer
    kStep handlerEnd arrivalDelivery tileSend tileIntoInbox bankExchange
    barrierRelease flagwWake publishTakesEffect publishEntryMerge horizonAging promiseTimeReached
    launchAdmit nodeDispatch nodeCompletion copyPacketTake copyPacketStep copyTransferComplete cqnoteWrite cqwidxWrite cfailstClear
    relayStep mopenwWake leaseCacheExpiry leaseExpiryPublish changeRecordLapse leafUpdateStart leafUpdateCommit migrationAssist
    syncBeat inboundDataFlit doneFlit nakFlit idleFlit linkDown linkRetrain syncFlitSend peerCounterRead windowLeaseRenewal
    qnoteWrite hostFetchAdd launchPacket copyreqPacket signalPacket fencePacket badpkt queueSlotMap sliceEnd preqWrite
    preemptionStop drainWindowEnd smallStateExchange lazyRegionSave lazyRegionReload prresRestore prresDiscard prresFlush
    contextRestore saveAreaWriteback halt resume step attach release holdTimeExpiry ddataWrite breakpointMatch
    hostWrite hostRead registerWrite partitionConfigure coldReset warmReset rateUpdate powerMeasurement spdmRequest pldmRequest
    flashUpdate softError

end Sys2Proof.Laws.Encodes
end

section
/-! The decoder answers only well-formed instructions (R31), group by group of the opcode map (R45); and what it answers for words of
the manual. -/

namespace Sys2Proof

/-- What a decoder answers, where it answers an instruction, is well formed. -/
def Dec.wf : Dec → Bool
  | .ok i => i.wf
  | .error _ => true

@[simp] theorem Dec.wf_ok (i : Instr) : Dec.wf (.ok i) = i.wf := rfl

@[simp] theorem Dec.wf_error (e : Illegal) : Dec.wf (.error e) = true := rfl

@[simp] theorem Dec.wf_check (e : Illegal) (i : Instr) : (check e i).wf = true := by
  unfold check
  split
  case isTrue h => exact h
  case isFalse => rfl

/-- A field that has no meaning ends the decoding, so only what follows a field that has one matters. -/
theorem Dec.wf_bind {α : Type} {x : Except Illegal α} {f : α → Dec} (h : ∀ a, (f a).wf = true) : Dec.wf (x >>= f) = true := by
  cases x with
  | error e => rfl
  | ok a => exact h a

@[simp] theorem Count.wf_ofFields {n : Nat} (r : Reg) (c : BitVec n) : (Count.ofFields r c).wf = true := by
  unfold Count.ofFields
  split
  case isTrue => rfl
  case isFalse h => simpa [Count.wf] using h

-- The groups.

section
variable (w : BitVec 52)

-- Groups of whose instructions `Instr.wf` asks nothing.

@[simp] theorem decodeAlu_wf : (decodeAlu w).wf = true := by unfold decodeAlu; split <;> rfl

@[simp] theorem decodeAlui_wf : (decodeAlui w).wf = true := by unfold decodeAlui; split <;> rfl

@[simp] theorem decodeCmp_wf : (decodeCmp w).wf = true := by unfold decodeCmp; split <;> rfl

@[simp] theorem decodeCmpi_wf : (decodeCmpi w).wf = true := by unfold decodeCmpi; split <;> rfl

@[simp] theorem decodeBr_wf : (decodeBr w).wf = true := by unfold decodeBr; split <;> rfl

@[simp] theorem decodeLctl_wf : (decodeLctl w).wf = true := by unfold decodeLctl; split <;> rfl

@[simp] theorem decodeThrd_wf : (decodeThrd w).wf = true := by unfold decodeThrd; split <;> rfl

@[simp] theorem decodeSts_wf : (decodeSts w).wf = true := by simp only [decodeSts]; split <;> rfl

@[simp] theorem decodeLdm_wf : (decodeLdm w).wf = true := Dec.wf_bind fun _ => rfl

@[simp] theorem decodeStm_wf : (decodeStm w).wf = true := Dec.wf_bind fun _ => rfl

@[simp] theorem decodeAmo_wf : (decodeAmo w).wf = true := Dec.wf_bind fun _ => Dec.wf_bind fun _ => by split <;> rfl

@[simp] theorem decodeAmos_wf : (decodeAmos w).wf = true := by
  refine Dec.wf_bind fun wide => ?_
  split
  case isTrue => rfl
  case isFalse => split <;> rfl

@[simp] theorem decodeXlat_wf : (decodeXlat w).wf = true := by
  unfold decodeXlat
  split
  case h_1 => exact Dec.wf_bind fun _ => rfl
  all_goals rfl

@[simp] theorem decodeMacc_wf : (decodeMacc w).wf = true := by unfold decodeMacc; split <;> rfl

@[simp] theorem decodeCopy_wf : (decodeCopy w).wf = true := by unfold decodeCopy; split <;> rfl

@[simp] theorem decodeWin_wf : (decodeWin w).wf = true := by
  unfold decodeWin
  split
  case h_4 | h_5 => exact Dec.wf_bind fun _ => rfl
  all_goals rfl

@[simp] theorem decodeRelay_wf : (decodeRelay w).wf = true := by
  unfold decodeRelay
  split
  case h_4 => split <;> rfl
  all_goals rfl

-- Groups of counts, which the decoder builds well formed.

@[simp] theorem decodeQop_wf : (decodeQop w).wf = true := by
  unfold decodeQop
  split
  case h_1 => exact Count.wf_ofFields ..
  all_goals rfl

@[simp] theorem decodeStream_wf : (decodeStream w).wf = true := by
  simp only [decodeStream]
  split
  case isTrue => rfl
  case isFalse =>
    split
    case h_7 => rfl
    all_goals exact Count.wf_ofFields ..

-- Groups that check every instruction they answer.

@[simp] theorem decodeLoop_wf : (decodeLoop w).wf = true := by unfold decodeLoop; split <;> simp

@[simp] theorem decodeLoopp_wf : (decodeLoopp w).wf = true := by unfold decodeLoopp; split <;> simp

@[simp] theorem decodeLds_wf : (decodeLds w).wf = true := by simp only [decodeLds]; split <;> simp

@[simp] theorem decodeVfp_wf : (decodeVfp w).wf = true := Dec.wf_bind fun _ => by split <;> simp

@[simp] theorem decodeVint_wf : (decodeVint w).wf = true := Dec.wf_bind fun _ => by split <;> simp

@[simp] theorem decodeVcmp_wf : (decodeVcmp w).wf = true := by simp only [decodeVcmp]; split <;> simp

@[simp] theorem decodeVconv_wf : (decodeVconv w).wf = true := by
  refine Dec.wf_bind fun od => ?_
  split
  case h_2 => split <;> simp
  all_goals simp

@[simp] theorem decodeVred_wf : (decodeVred w).wf = true := Dec.wf_bind fun _ => by split <;> simp

@[simp] theorem decodeVmove_wf : (decodeVmove w).wf = true := Dec.wf_bind fun _ => by split <;> simp

@[simp] theorem decodeVsel_wf : (decodeVsel w).wf = true := Dec.wf_bind fun _ => by split <;> simp

@[simp] theorem decodeVldi_wf : (decodeVldi w).wf = true := by simp only [decodeVldi]; split <;> simp

@[simp] theorem decodeMma_wf : (decodeMma w).wf = true := by
  simp only [decodeMma]
  refine Dec.wf_bind fun af => Dec.wf_bind fun bf => ?_
  split
  case h_1 => split <;> exact Dec.wf_bind fun _ => by split <;> simp
  all_goals exact Dec.wf_bind fun _ => by split <;> simp

@[simp] theorem decodeEpi_wf : (decodeEpi w).wf = true := by
  simp only [decodeEpi]
  split <;> exact Dec.wf_bind fun _ => by split <;> simp

-- Groups that check some of theirs; of the others `Instr.wf` asks nothing.

@[simp] theorem decodeMovx_wf : (decodeMovx w).wf = true := by unfold decodeMovx; split <;> simp <;> rfl

@[simp] theorem decodeWave_wf : (decodeWave w).wf = true := by unfold decodeWave; split <;> simp <;> rfl

@[simp] theorem decodeSync_wf : (decodeSync w).wf = true := by
  unfold decodeSync
  split
  case h_1 | h_2 | h_4 => exact Dec.wf_bind fun _ => rfl
  case h_5 => exact Dec.wf_bind fun _ => Dec.wf_bind fun _ => rfl
  case h_3 | h_8 => exact Dec.wf_check ..
  all_goals rfl

@[simp] theorem decodeGraph_wf : (decodeGraph w).wf = true := by unfold decodeGraph; split <;> simp <;> rfl

@[simp] theorem decodeMoor_wf : (decodeMoor w).wf = true := by
  unfold decodeMoor
  split
  case h_1 | h_2 => exact Dec.wf_bind fun _ => Dec.wf_bind fun _ => rfl
  case h_3 => exact Dec.wf_bind fun _ => rfl
  case h_6 => exact Dec.wf_check ..
  all_goals rfl

@[simp] theorem decodeRel_wf : (decodeRel w).wf = true := by unfold decodeRel; split <;> simp <;> rfl

@[simp] theorem decodeSys_wf : (decodeSys w).wf = true := by unfold decodeSys; split <;> simp <;> rfl

/-- R45: each opcode of the map goes to its group or answers a word of its own; any other is a hint, or stands outside the map. -/
theorem decodeBody_wf (op : BitVec 8) : (decodeBody op w).wf = true := by
  unfold decodeBody
  split
  case h_1 | h_41 | h_42 | h_43 | h_44 => rfl
  case h_45 =>
    split
    case isTrue hhint => exact decide_eq_true hhint
    case isFalse hhint =>
      simp only [imp_false] at *
      have hhints : ¬ 0xF0 ≤ op.toNat := by omega
      simp [Instr.wf, opcodeKnown, *]
  all_goals simp

end

/-- Settles O57: a group answers instructions of which `Instr.wf` asks nothing, or those that it has checked. -/
theorem decodedIsWellFormed : Obligations.DecodedIsWellFormed := by
  unfold Obligations.DecodedIsWellFormed
  intro w i h
  have hwf := decodeBody_wf (bodyOf w) (opcodeOf w)
  rwa [← decode, h] at hwf

/-- Settles O60: each word is closed, and the decoder evaluates on it to the instruction stated. -/
theorem decodeWords : Obligations.DecodeWords := by
  unfold Obligations.DecodeWords
  exact ⟨rfl, rfl, rfl, rfl, rfl, rfl, rfl, rfl, rfl, rfl⟩

end Sys2Proof
end

section
/-! Where the branches go (R30, R61): a branch is a `State.goto`, after a write of the link in a call, where its target is aligned. -/

namespace Sys2Proof.Machine

-- The operations that the branches share.

/-- The model shifts the offset in words where the manual multiplies it by 8. -/
theorem target_eq_relTarget (pc : Word) (off : W32) : target pc off = relTarget pc off := by
  rw [target, relTarget, BitVec.shiftLeft_eq_mul_twoPow, BitVec.mul_comm]; rfl

/-- R61: the link is `s62`, which no rotation renames. -/
theorem State.setScalar_link (s : State) (v : Word) :
    s.setScalar 62 v = s.modMe fun c => { c with regs := c.regs.set 62 v } := rfl

theorem OnlyMine.goto (s : State) (pc : Word) : OnlyMine s (s.goto pc) := (OnlyMine.modMe s _).flow .moved

theorem ChangesMe.of_goto {ok : State → Prop} {i : Instr} {pc : State → Word}
    (h : ∀ s, ok s → exec i s = .next (s.goto (pc s))) : ChangesMe ok i fun s c => { c with pc := pc s } :=
  .of_moved h

theorem ChangesMe.of_link_goto {ok : State → Prop} {i : Instr} {pc : State → Word}
    (h : ∀ s, ok s → exec i s = .next ((s.setScalar 62 (s.me.pc + 8)).goto (pc s))) :
    ChangesMe ok i fun s c => { c with pc := pc s, regs := c.regs.set 62 (c.pc + 8) } := by
  intro s hs
  refine ⟨_, h s hs, ?mine, ?me⟩
  case mine => rw [State.setScalar_link]; exact (OnlyMine.modMe ..).trans (.goto ..)
  case me => rw [State.goto, State.me_moved, State.me_modMe, State.setScalar_link, State.me_modMe]

-- What each branch runs.

theorem exec_br (off : W32) (s : State) : exec (.br off) s = .next (s.goto (relTarget s.me.pc off)) := by
  rw [← target_eq_relTarget]; rfl

theorem exec_call (off : W32) (s : State) :
    exec (.call off) s = .next ((s.setScalar 62 (s.me.pc + 8)).goto (relTarget s.me.pc off)) := by
  rw [← target_eq_relTarget]; rfl

theorem exec_jmp (a : Reg) (s : State) : exec (.jmp a) s = .next (jumpTo (s.scalar a) s) := rfl

theorem exec_ret (a : Reg) (s : State) : exec (.ret a) s = .next (jumpTo (s.scalar a) s) := rfl

section
variable {a : Reg} {s : State}

theorem jumpTo_of_aligned (h : (s.scalar a).toNat % 8 = 0) : jumpTo (s.scalar a) s = s.goto (s.scalar a) := if_pos h

/-- The target is read before the link is written. -/
theorem exec_callr_of_aligned (h : (s.scalar a).toNat % 8 = 0) :
    exec (.callr a) s = .next ((s.setScalar 62 (s.me.pc + 8)).goto (s.scalar a)) := congrArg _ (if_pos h)

variable (h : (s.scalar a).toNat % 8 ≠ 0)
include h

theorem jumpTo_of_misaligned : jumpTo (s.scalar a) s = s.fatal .illegal := if_neg h

theorem exec_callr_of_misaligned : exec (.callr a) s = .next (s.fatal .illegal) := congrArg _ (if_neg h)

end

/-- Settles O5: the relative branches always go; those through a register go where it is aligned and are ILLEGAL where not. -/
theorem branchTargets : Obligations.BranchTargets := by
  unfold Obligations.BranchTargets
  intro a off
  refine ⟨.of_goto fun s _ => exec_br off s, .of_link_goto fun s _ => exec_call off s, .of_goto fun s h => ?jmp,
    .of_goto fun s h => ?ret, .of_link_goto fun s h => exec_callr_of_aligned h, fun s h => ?misaligned⟩
  case jmp => rw [exec_jmp, jumpTo_of_aligned h]
  case ret => rw [exec_ret, jumpTo_of_aligned h]
  case misaligned => rw [exec_jmp, exec_ret, jumpTo_of_misaligned h]; exact ⟨rfl, rfl, exec_callr_of_misaligned h⟩

end Sys2Proof.Machine
end

section
/-! Scalar arithmetic, compares and moves (R53 to R60): each writes one scalar or one predicate, with a value that is read off the
meaning, or that one of the equations here restates as the manual's table has it. -/

namespace Sys2Proof.Machine

-- The values of the ALU, as the table of R53 and R54 has them.

/-- A shift count is b[5:0]. -/
theorem sh_eq (b : Word) : sh b = (b.extractLsb' 0 6).toNat := by simp [sh]

theorem minS_eq (a b : Word) : minS a b = if a.toInt < b.toInt then a else b := by simp [minS, BitVec.slt]

theorem maxS_eq (a b : Word) : maxS a b = if a.toInt < b.toInt then b else a := by simp [maxS, BitVec.slt]

/-- At signed overflow the quotient, too large by one, wraps to the dividend. -/
theorem divS_eq (a b : Word) : divS a b = if b = 0 then BitVec.allOnes 64 else BitVec.ofInt 64 (a.toInt.tdiv b.toInt) := by
  have hquot : a.sdiv b = BitVec.ofInt 64 (a.toInt.tdiv b.toInt) :=
    BitVec.eq_of_toInt_eq (by rw [BitVec.toInt_ofInt, BitVec.toInt_sdiv])
  rw [divS, allOnes, hquot]

theorem divU_eq (a b : Word) : divU a b = if b = 0 then BitVec.allOnes 64 else BitVec.ofNat 64 (a.toNat / b.toNat) := by
  rw [divU, allOnes, BitVec.udiv_def]

theorem remS_eq (a b : Word) : remS a b = if b = 0 then a else BitVec.ofInt 64 (a.toInt.tmod b.toInt) := by
  rw [remS, ← BitVec.toInt_srem, BitVec.ofInt_toInt]

theorem remU_eq (a b : Word) : remU a b = if b = 0 then a else BitVec.ofNat 64 (a.toNat % b.toNat) := by
  rw [remU, BitVec.umod_def]

/-- The zero bits from bit `n - 1` downwards. -/
theorem clzN_eq (a n : Nat) : clzN a n = ((List.range n).takeWhile fun k => !(a.testBit (n - 1 - k))).length := by
  induction n with
  | zero => rfl
  | succ n ih =>
    have hshift : (fun k => !(a.testBit (n - k))) ∘ Nat.succ = fun k => !(a.testBit (n - 1 - k)) := by
      funext k; simp [Nat.sub_sub, Nat.add_comm 1 k]
    rw [clzN, ih, List.range_succ_eq_map, List.takeWhile_cons]
    cases h : a.testBit n <;> simp [h, List.takeWhile_map, hshift, Nat.add_comm]

theorem clz64_eq (a : Word) : clz64 a = BitVec.ofNat 64 ((List.range 64).takeWhile fun k => !(a.getLsbD (63 - k))).length := by
  rw [clz64, w64, clzN_eq]; rfl

theorem popc64_eq (a : Word) : popc64 a = BitVec.ofNat 64 ((List.range 64).filter fun k => a.getLsbD k).length := by
  rw [popc64, w64, List.countP_eq_length_filter]

/-- The claim about a scalar written, where the meaning and the manual spell its value differently. -/
theorem WritesReg.of_value {i : Instr} {d : Reg} {v w : State → Word} (h : ∀ s, exec i s = .next (s.setScalar d (v s)))
    (hv : ∀ s, v s = w s) : WritesReg i d w := .of_eq fun s => hv s ▸ h s

/-- Settles O1: each form writes its destination, and where the table spells the value differently an equation above gives it. -/
theorem aluResults : Obligations.AluResults := by
  unfold Obligations.AluResults
  refine ⟨fun d a b c p n => ⟨.of_eq fun _ => rfl, .of_eq fun _ => rfl, .of_eq fun _ => rfl, .of_eq fun _ => rfl, .of_eq fun _ => rfl,
    .of_eq fun _ => rfl, .of_eq fun _ => rfl, .of_eq fun _ => rfl, .of_eq fun _ => rfl,
    .of_value (fun _ => rfl) fun s => congrArg (s.scalar a <<< ·) (sh_eq _),
    .of_value (fun _ => rfl) fun s => congrArg (s.scalar a >>> ·) (sh_eq _),
    .of_value (fun _ => rfl) fun s => congrArg (s.scalar a).sshiftRight (sh_eq _),
    .of_value (fun _ => rfl) fun s => congrArg (s.scalar a).rotateRight (sh_eq _),
    .of_value (fun _ => rfl) fun _ => minS_eq .., .of_value (fun _ => rfl) fun _ => maxS_eq .., .of_eq fun _ => rfl,
    .of_eq fun _ => rfl, .of_value (fun _ => rfl) fun _ => clz64_eq _, .of_value (fun _ => rfl) fun _ => popc64_eq _,
    .of_eq fun _ => rfl, .of_eq fun _ => rfl, .of_eq fun _ => rfl⟩, fun d a b => ⟨.of_value (fun _ => rfl) fun _ => divS_eq ..,
    .of_value (fun _ => rfl) fun _ => divU_eq .., .of_value (fun _ => rfl) fun _ => remS_eq ..,
    .of_value (fun _ => rfl) fun _ => remU_eq ..⟩⟩

-- Immediates.

theorem State.imm_eq_immWord (s : State) (i : W32) : s.imm i = immWord s.iss.xtnd i := rfl

theorem setWidth_eq_zero_append (i : W32) : i.setWidth 64 = 0#32 ++ i := by
  rw [BitVec.setWidth_eq_append (by decide)]; rfl

/-- Settles O2: `State.imm` is the immediate of R55, and each form writes its destination. -/
theorem immediateResults : Obligations.ImmediateResults := by
  unfold Obligations.ImmediateResults
  intro d a i k
  exact ⟨.of_eq fun _ => rfl, .of_eq fun _ => rfl, .of_eq fun _ => rfl, .of_eq fun _ => rfl, .of_eq fun _ => rfl, .of_eq fun _ => rfl,
    .of_eq fun _ => rfl, .of_eq fun _ => rfl, .of_eq fun _ => rfl, .of_value (fun _ => rfl) fun _ => setWidth_eq_zero_append i,
    .of_eq fun _ => rfl⟩

-- Compares and predicate logic.

/-- The claim about a predicate written, where the meaning and the manual spell its value differently. -/
theorem WritesPred.of_value {i : Instr} {p : BitVec 3} {v w : State → Bool} (h : ∀ s, exec i s = .next (s.setPred p (v s)))
    (hv : ∀ s, v s = w s) : WritesPred i p w := .of_eq fun s => hv s ▸ h s

theorem bne_eq_decide_ne (a b : Word) : (a != b) = decide (a ≠ b) := (decide_not ..).symm

/-- Settles O3: each compare and each operation writes its predicate. -/
theorem compareResults : Obligations.CompareResults := by
  unfold Obligations.CompareResults
  intro p x y a b i
  exact ⟨.of_eq fun _ => rfl, .of_value (fun _ => rfl) fun _ => bne_eq_decide_ne ..,
    .of_eq fun _ => rfl, .of_eq fun _ => rfl, .of_eq fun _ => rfl, .of_eq fun _ => rfl, .of_eq fun _ => rfl,
    .of_value (fun _ => rfl) fun _ => bne_eq_decide_ne .., .of_eq fun _ => rfl, .of_eq fun _ => rfl, .of_eq fun _ => rfl,
    .of_eq fun _ => rfl, .of_eq fun _ => rfl, .of_eq fun _ => rfl, .of_eq fun _ => rfl, .of_eq fun _ => rfl⟩

-- Words of a row.

/-- Bit `k` of word `j` of the number that words make. -/
theorem testBit_words (l : List W32) (j k : Nat) (hk : k < 32) :
    (l.foldr (fun (w : W32) acc => w.toNat + 2 ^ 32 * acc) 0).testBit (32 * j + k) = (l.getD j 0).getLsbD k := by
  induction l generalizing j with
  | nil => simp
  | cons w l ih =>
    rw [List.foldr_cons, Nat.add_comm w.toNat, Nat.testBit_two_pow_mul_add _ w.isLt]
    cases j with
    | zero => simp [hk, BitVec.getLsbD]
    | succ j =>
      rw [if_neg (by omega), show 32 * (j + 1) + k - 32 = 32 * j + k by omega, ih]; simp

theorem rowWord_rowOfWords (l : List W32) (j : Nat) (hj : j < 48) : rowWord (rowOfWords l) j = l.getD j 0 := by
  apply BitVec.eq_of_getLsbD_eq
  intro k hk
  have hbit : 32 * j + k < 1536 := by omega
  rw [rowWord, rowOfWords, BitVec.getLsbD_extractLsb', BitVec.getLsbD_ofNat, testBit_words l j k hk]
  simp [hk, hbit]

theorem rowWord_rowSetWord (r : Row) (i j : Nat) (w : W32) (hj : j < 48) :
    rowWord (rowSetWord r i w) j = if j = i then w else rowWord r j := by
  rw [rowSetWord, rowWord_rowOfWords _ _ hj]
  simp [List.getD_eq_getElem?_getD, hj]

/-- Rotation keeps the rows of the grid within it. -/
theorem physRow_lt (k : BitVec 4) (g : Reg) (h : g.toNat < 48) : (physRow k g).toNat < 48 := by
  unfold physRow
  split
  · have hrot : ((g - 32#6).setWidth 4 + k).toNat < 16 := BitVec.isLt _
    bv_omega
  · exact h

theorem Ctx.setRow_rest (c : Ctx) (i : Nat) (v : Row) : c.setRow i v = { c with grid := (c.setRow i v).grid } := rfl

-- Predicates as a word.

/-- `p0` reads 1 in the word too. -/
theorem predWord_eq (c : Ctx) : (c.preds ||| 1).setWidth 64 = BitVec.ofNat 64
    ((List.range 8).map fun k => if c.pred (BitVec.ofNat 3 k) then 2 ^ k else 0).sum := by
  have h : ∀ p : BitVec 8, (p ||| 1).setWidth 64 = BitVec.ofNat 64 ((List.range 8).map fun k =>
      if BitVec.ofNat 3 k = 0#3 || p.getLsbD (BitVec.ofNat 3 k).toNat then 2 ^ k else 0).sum := by decide
  exact h c.preds

theorem low_or_one (a : Word) : a.setWidth 8 ||| 1 = a.extractLsb' 1 7 ++ 1#1 := by
  apply BitVec.eq_of_getLsbD_eq
  intro k hk
  rw [BitVec.getLsbD_append]
  rcases k with _ | k
  · simp
  · have hk' : k < 7 := by omega
    simp [Nat.add_comm 1, hk, hk']

-- The grid's unit at rest.

theorem no_grid_reader {s : State} (h : ∀ e ∈ s.me.bufT, ∀ f, e.instr = .mma f → f.a ≠ .grid) :
    (s.me.bufT.any fun e => readsGrid e.instr) = false := by
  rw [List.any_eq_false]
  intro e he
  unfold readsGrid
  split
  · simpa using h e he _ ‹_›
  · decide

-- What `VGET`, `VPUT` and `PPUT` run.

theorem exec_vget (d g lane : Reg) (s : State) : exec (.vget d g lane) s = execVget d g lane s := rfl

theorem exec_vput (g a lane : Reg) (s : State) : exec (.vput g a lane) s = execVput g a lane s := rfl

section
variable {s : State} (hbuf : s.me.bufE = [])
include hbuf

theorem exec_vget_of_rest {d g lane : Reg}
    (hclean : (s.iss.src, (physRow s.iss.rrb g).toNat, lane.toNat / 8) ∉ s.psnGrid) :
    exec (.vget d g lane) s = .next (s.setScalar d (0#32 ++ rowWord (s.me.row (physRow s.iss.rrb g).toNat) lane.toNat)) := by
  rw [exec_vget, ← setWidth_eq_zero_append]
  simp [execVget, hbuf, hclean]

theorem exec_vput_of_rest {g a lane : Reg} (hgrid : ∀ e ∈ s.me.bufT, ∀ f, e.instr = .mma f → f.a ≠ .grid) :
    exec (.vput g a lane) s = .next (s.modMe fun c => c.setRow (physRow s.iss.rrb g).toNat
      (rowSetWord (c.row (physRow s.iss.rrb g).toNat) lane.toNat ((s.scalar a).extractLsb' 0 32))) := by
  rw [exec_vput, ← BitVec.setWidth_eq_extractLsb' (by decide)]
  simp [execVput, hbuf, no_grid_reader hgrid]

end

theorem rowWord_row_setRow (c : Ctx) (r k i j : Nat) (w : W32) (hr : r < 48) (hj : j < 48) :
    rowWord ((c.setRow r (rowSetWord (c.row r) k w)).row i) j = if i = r ∧ j = k then w else rowWord (c.row i) j := by
  rw [Ctx.row_setRow]
  by_cases hi : r = i
  · rw [if_pos ⟨hi, hr⟩, rowWord_rowSetWord _ _ _ _ hj]; simp [hi]
  · rw [if_neg (fun h => hi h.1), if_neg (fun h => hi h.1.symm)]

/-- Settles O4: the moves to a scalar write it; `PPUT` and `VPUT` change the predicates and one word of the grid. -/
theorem moveResults : Obligations.MoveResults := by
  unfold Obligations.MoveResults
  intro d a g l hg hl
  refine ⟨.of_eq fun _ => rfl, .of_value (fun _ => rfl) fun s => predWord_eq s.me, .of_eq fun _ => rfl,
    .of_eq fun s h => exec_vget_of_rest h.1 h.2, .of_mod fun s _ => ?pput, fun s hbuf hgrid => ?vput⟩
  case pput => rw [← low_or_one]; rfl
  case vput =>
    refine ⟨_, exec_vput_of_rest hbuf hgrid, OnlyMine.modMe .., rfl, ?_, fun i j _ hj => ?_⟩
    · rw [State.me_modMe]; exact Ctx.setRow_rest ..
    · rw [State.me_modMe, rowWord_row_setRow _ _ _ _ _ _ (physRow_lt _ _ hg) hj]

end Sys2Proof.Machine
end

section
/-! The loop instructions (R64, R67, R69): the entry a loop word pushes, its stage predicates, the back edge of the top entry, and the
records of the exits where the thread is traced (R404). -/

namespace Sys2Proof.Machine

-- What a trace record leaves alone.

/-- Only what a trace record writes has changed: a version in memory, its numbers, and the thread's debug block. -/
def Traced (s t : State) : Prop :=
  t = { s with vers := t.vers, seq := t.seq, choices := t.choices, dbgs := t.dbgs }

theorem Traced.refl (s : State) : Traced s s := rfl

theorem Traced.trans {s t u : State} (h : Traced s t) (k : Traced t u) : Traced s u := by
  unfold Traced at h k ⊢
  rw [k, h]

theorem State.modDbg_traced (s : State) (src : Nat) (f : Dbg → Dbg) : Traced s (s.modDbg src f) := rfl

theorem State.traceBytes_traced (s : State) (src : Nat) (bs : List Byte) (field : Option Word) :
    Traced s (s.traceBytes src bs field) := rfl

theorem State.traceRec_traced (s : State) (src : Nat) (pc : Word) (bs : Dbg → List Byte × Option Word) (long : Bool) :
    Traced s (s.traceRec src pc bs long) := by
  have hchoice : Traced s { s with choices := s.choices + 1 } := rfl
  have hrec (t : State) (p : Prop) [Decidable p] (bs : List Byte) (field : Option Word) :
      Traced t (if p then t.traceBytes src bs field else t) := by
    split
    · exact t.traceBytes_traced ..
    · exact .refl t
  unfold State.traceRec
  dsimp only
  split
  · exact .refl s
  · split
    · exact hchoice.trans (State.modDbg_traced ..)
    · refine (hchoice.trans ?_).trans ((hrec _ _ _ _).trans (State.traceBytes_traced ..))
      split
      · exact .refl _
      · exact (State.traceBytes_traced ..).trans (State.modDbg_traced ..)

/-- R404: a thread that is not traced writes no record. -/
theorem State.traceRec_of_untraced {s : State} {src : Nat} (h : (s.dbg src).trlen = 0) (pc : Word)
    (bs : Dbg → List Byte × Option Word) (long : Bool) : s.traceRec src pc bs long = s := if_pos h

theorem State.traceExits_traced (s : State) (src : Nat) (es : List LoopE) : Traced s (s.traceExits src es) := by
  induction es generalizing s with
  | nil => exact .refl s
  | cons e es ih => exact (s.traceRec_traced ..).trans (ih _)

theorem State.traceExits_of_untraced {s : State} {src : Nat} (h : (s.dbg src).trlen = 0) (es : List LoopE) :
    s.traceExits src es = s := by
  induction es with
  | nil => rfl
  | cons e es ih =>
    have hrec : s.traceExits src (e :: es) = s.traceExits src es :=
      congrArg (State.traceExits · src es) (State.traceRec_of_untraced h ..)
    rw [hrec, ih]

theorem Traced.ctx {s t : State} (h : Traced s t) (n : Nat) : t.ctx n = s.ctx n := by rw [h]; rfl

theorem Traced.iss {s t : State} (h : Traced s t) : t.iss = s.iss := by rw [h]

theorem Traced.me {s t : State} (h : Traced s t) : t.me = s.me := by rw [State.me, h.ctx, h.iss]; rfl

/-- A change of the thread's context, and then the records of loop exits. -/
theorem MineAndTrace.traceExits {s t : State} (h : OnlyMine s t) (es : List LoopE) : MineAndTrace s (t.traceExits s.iss.src es) := by
  have htr := t.traceExits_traced s.iss.src es
  obtain ⟨hs, hsrc, hothers, -⟩ := id h
  refine ⟨?_, by rw [htr.iss, hsrc], fun n hn => by rw [htr.ctx, hothers n hn], fun h0 => ?_⟩
  · rw [htr, hs]
  · rw [State.traceExits_of_untraced (by rw [hs]; exact h0)]; exact h

-- The stage predicates (R67).

/-- The bits of the predicates `p1` to `pS` of a loop of S - 1 = `m`. -/
theorem stageMask_bit (m : Nat) (hm : m < 7) (q : BitVec 3) :
    (BitVec.ofNat 8 (2 ^ (m + 2) - 2)).getLsbD q.toNat = decide (1 ≤ q.toNat ∧ q.toNat ≤ m + 1) := by
  have h : ∀ m, m < 7 → ∀ q : BitVec 3,
      (BitVec.ofNat 8 (2 ^ (m + 2) - 2)).getLsbD q.toNat = decide (1 ≤ q.toNat ∧ q.toNat ≤ m + 1) := by decide
  exact h m hm q

theorem bit_of_two (q : BitVec 3) : (2#8).getLsbD q.toNat = decide (q = 1#3) := by revert q; decide

theorem toNat_pred_three (q : BitVec 3) (h : q ≠ 0#3) : (q - 1).toNat = q.toNat - 1 := by
  revert q; decide

/-- R67: p1 is set, p2 to pS are cleared, the others stay. -/
theorem Ctx.pred_stageInit (c : Ctx) (m : Nat) (hm : m < 7) (q : BitVec 3) :
    ({ c with preds := stageInit c.preds m } : Ctx).pred q =
      if q = 0 ∨ q = 1 then true else if q.toNat ≤ m + 1 then false else c.pred q := by
  have hbits : (stageInit c.preds m).getLsbD q.toNat =
      (c.preds.getLsbD q.toNat && !decide (1 ≤ q.toNat ∧ q.toNat ≤ m + 1) || decide (q = 1#3)) := by
    rw [stageInit, BitVec.getLsbD_or, BitVec.getLsbD_and, BitVec.getLsbD_not, stageMask_bit m hm, ← bit_of_two]
    have h8 : q.toNat < 8 := q.isLt
    simp [h8]
  rw [Ctx.pred, Ctx.pred, hbits]
  by_cases h0 : q = 0#3
  · simp [h0]
  · have hpos : 1 ≤ q.toNat := by bv_omega
    by_cases h1 : q = 1#3
    · simp [h1]
    · by_cases hle : q.toNat ≤ m + 1 <;> simp [h0, h1, hpos, hle]

/-- R67: the stage predicates take the values below them, p1 whether an iteration is still to begin. -/
theorem Ctx.pred_rotate (c : Ctx) (m n : Nat) (hm : m < 7) (q : BitVec 3) :
    (c.rotate m n).pred q = if q = 0 then true else if q = 1 then decide (m < n)
      else if q.toNat ≤ m + 1 then c.pred (q - 1) else c.pred q := by
  by_cases h0 : q = 0#3
  · simp [h0, Ctx.pred]
  have hpos : 1 ≤ q.toNat := by bv_omega
  have h8 : q.toNat < 8 := q.isLt
  have hnew : (if m < n then 2 else 0 : BitVec 8).getLsbD q.toNat = (decide (q = 1#3) && decide (m < n)) := by
    by_cases hmn : m < n
    · rw [if_pos hmn]; exact (bit_of_two q).trans (by simp [hmn])
    · simp [hmn]
  have hbits : (c.rotate m n).preds.getLsbD q.toNat =
      ((c.preds.getLsbD q.toNat && !decide (q.toNat ≤ m + 1)) ||
        (c.preds.getLsbD (q.toNat - 1) && decide (q.toNat ≤ m + 1) && !decide (q = 1#3)) || (decide (q = 1#3) && decide (m < n))) := by
    have hmask : (BitVec.ofNat 8 (2 ^ (m + 2) - 2)).getLsbD q.toNat = decide (q.toNat ≤ m + 1) := by
      simp [stageMask_bit m hm q, hpos]
    have hprev : 1 + (q.toNat - 1) = q.toNat := by omega
    have hlt : ¬ q.toNat < 1 := by omega
    simp only [Ctx.rotate, BitVec.getLsbD_or, BitVec.getLsbD_and, BitVec.getLsbD_not, BitVec.getLsbD_shiftLeft,
      BitVec.getLsbD_ushiftRight, hprev, hmask, hnew, bit_of_two, h8, hlt]
    cases decide (q.toNat ≤ m + 1) <;> simp
  rw [Ctx.pred, Ctx.pred, Ctx.pred, hbits, toNat_pred_three q h0]
  by_cases h1 : q = 1#3
  · simp [h1]
  · have hsub : ¬ q - 1#3 = 0#3 := by bv_omega
    by_cases hle : q.toNat ≤ m + 1 <;> simp [h0, h1, hle, hsub]

-- A loop word.

theorem exec_loop (a : Reg) (off : W32) (s : State) : exec (.loop a off) s =
    if 0 < s.loopCount a && 4 ≤ s.me.loops.length then .next (s.fatal .illegal)
    else .next (pushLoop (s.loopCount a) off none s) := rfl

theorem exec_loopp (a : Reg) (m : BitVec 3) (off : W32) (s : State) : exec (.loopp a m off) s =
    if 0 < s.loopCount a && 4 ≤ s.me.loops.length || s.me.inLoopp then .next (s.fatal .illegal)
    else .next (if s.loopCount a = 0 then pushLoop (s.loopCount a) off (some m.toNat) s
      else (pushLoop (s.loopCount a) off (some m.toNat) s).modMe fun c =>
        { c with rrb := 0, preds := stageInit c.preds m.toNat }) := rfl

theorem pushLoop_zero (off : W32) (stages : Option Nat) (s : State) :
    pushLoop 0 off stages s = s.goto (relTarget s.me.pc off + 8) := by
  rw [← target_eq_relTarget]; rfl

theorem pushLoop_of_ne_zero {n : Nat} (h : n ≠ 0) (off : W32) (stages : Option Nat) (s : State) :
    pushLoop n off stages s =
      s.modMe fun c => { c with loops := loopEntry s.me.pc off (n + stages.getD 0) stages :: c.loops } := by
  rw [loopEntry, ← target_eq_relTarget]; exact if_neg h

section
variable {s : State} {a : Reg}

theorem exec_loop_of_zero (h : s.loopCount a = 0) (off : W32) :
    exec (.loop a off) s = .next (s.goto (relTarget s.me.pc off + 8)) := by
  rw [exec_loop, h, pushLoop_zero]; rfl

theorem exec_loopp_of_zero (hout : s.me.inLoopp = false) (h : s.loopCount a = 0) (m : BitVec 3) (off : W32) :
    exec (.loopp a m off) s = .next (s.goto (relTarget s.me.pc off + 8)) := by
  rw [exec_loopp, h, hout, pushLoop_zero]; rfl

variable (hroom : s.me.loops.length < 4) (h : s.loopCount a ≠ 0)
include hroom h

theorem exec_loop_of_room (off : W32) : exec (.loop a off) s =
    .next (s.modMe fun c => { c with loops := loopEntry s.me.pc off (s.loopCount a) none :: c.loops }) := by
  rw [exec_loop, if_neg (by simp [hroom]), pushLoop_of_ne_zero h]; rfl

theorem exec_loopp_of_room (hout : s.me.inLoopp = false) (m : BitVec 3) (off : W32) : exec (.loopp a m off) s =
    .next ((s.modMe fun c => { c with
      loops := loopEntry s.me.pc off (s.loopCount a + m.toNat) (some m.toNat) :: c.loops }).modMe fun c =>
        { c with rrb := 0, preds := stageInit c.preds m.toNat }) := by
  rw [exec_loopp, if_neg (by simp [hroom, hout]), if_neg h, pushLoop_of_ne_zero h]; rfl

end

/-- R64: a fifth entry is ILLEGAL. -/
theorem exec_loop_of_full {s : State} {a : Reg} (hfull : 4 ≤ s.me.loops.length) (h : s.loopCount a ≠ 0) (m : BitVec 3) (off : W32) :
    exec (.loop a off) s = .next (s.fatal .illegal) ∧ exec (.loopp a m off) s = .next (s.fatal .illegal) := by
  have hpos : 0 < s.loopCount a := Nat.pos_of_ne_zero h
  rw [exec_loop, exec_loopp]
  simp [hfull, hpos]

/-- R70: a `LOOPP` within one is ILLEGAL. -/
theorem exec_loopp_of_inLoopp {s : State} (h : s.me.inLoopp = true) (a : Reg) (m : BitVec 3) (off : W32) :
    exec (.loopp a m off) s = .next (s.fatal .illegal) := by
  rw [exec_loopp, h, Bool.or_true, if_pos rfl]

-- The end of a body.

theorem exec_lbrk {s : State} {e : LoopE} {rest : List LoopE} (h : s.me.loops = e :: rest) : exec .lbrk s =
    .next (((s.modMe fun c => { c with loops := rest }).goto (e.last + 8)).traceExits s.iss.src [e]) := by
  have hrun : exec .lbrk s = execLbrk s := rfl
  rw [hrun, execLbrk, h]

/-- The state in which a back edge has decided the thread's context. -/
abbrev State.backTo (s : State) (c : Ctx) : State := (s.modMe fun _ => c).moved

theorem State.me_backTo (s : State) (c : Ctx) : (s.backTo c).me = c := by rw [State.me_moved, State.me_modMe]

theorem OnlyMine.backTo (s : State) (c : Ctx) : OnlyMine s (s.backTo c) := (OnlyMine.modMe ..).flow .moved

/-- R70: nothing was put off to the boundary of a kernel iteration. -/
theorem State.loopBoundary_of_nothing {s : State} {c : Ctx} (hme : s.ctx s.iss.src = c) (hhalt : c.haltWait = false)
    (hstep : c.stepping = false) (hbp : c.bpWait = none) : s.loopBoundary s.iss.src = s := by
  simp only [State.loopBoundary, hme, hhalt, hstep, Bool.or_self, Bool.false_eq_true, if_false, hbp]

section
variable {s : State} {c : Ctx} (hne : s.me.loops ≠ [])
include hne

theorem exec_lnext_of_plain {exits : List LoopE} (h : backEdge 5 s.me = (c, exits, false)) :
    exec .lnext s = .next ((s.backTo c).traceExits s.iss.src exits) := by
  have hrun : exec .lnext s = execLnext s := rfl
  obtain ⟨e, rest, hs⟩ := List.exists_cons_of_ne_nil hne
  simp only [hrun, execLnext, hs, h, Bool.false_eq_true, if_false]

theorem exec_lnext_of_turned (h : backEdge 5 s.me = (c, [], true)) (hhalt : c.haltWait = false) (hstep : c.stepping = false)
    (hbp : c.bpWait = none) : exec .lnext s = .next (s.backTo c) := by
  have hrun : exec .lnext s = execLnext s := rfl
  obtain ⟨e, rest, hs⟩ := List.exists_cons_of_ne_nil hne
  have hstay := State.loopBoundary_of_nothing (s.me_backTo c) hhalt hstep hbp
  simp only [hrun, execLnext, hs, h, if_true]
  exact congrArg _ hstay

end

section
variable {c : Ctx} {e : LoopE} {rest : List LoopE} (h : c.loops = e :: rest)
include h

theorem backEdge_of_turn (hstages : e.stages = none) (hcount : 1 < e.count) (k : Nat) : backEdge (k + 1) c =
    ({ c with loops := { e with count := e.count - 1 } :: rest, pc := e.start }, [], false) := by
  have hpos : 0 < e.count - 1 := by omega
  simp only [backEdge, h, if_pos hpos, hstages]

theorem backEdge_of_stages {m : Nat} (hstages : e.stages = some m) (hcount : 1 < e.count) (k : Nat) : backEdge (k + 1) c =
    (({ c with loops := { e with count := e.count - 1 } :: rest, pc := e.start } : Ctx).rotate m (e.count - 1), [], true) := by
  have hpos : 0 < e.count - 1 := by omega
  simp only [backEdge, h, if_pos hpos, hstages]

theorem backEdge_of_exit (hcount : e.count ≤ 1) (hlast : ∀ o ∈ rest.head?, o.last ≠ e.last) (hstages : e.stages = none) (k : Nat) :
    backEdge (k + 1) c = ({ c with loops := rest, pc := e.last + 8 }, [e], false) := by
  have hzero : ¬ 0 < e.count - 1 := by omega
  simp only [backEdge, h, if_neg hzero, hstages]
  cases rest with
  | nil => rfl
  | cons o os => simp only [if_neg (hlast o rfl)]; rfl

end

theorem Ctx.rotate_rest (c : Ctx) (m n : Nat) : c.rotate m n = { c with rrb := c.rrb + 15, preds := (c.rotate m n).preds } := rfl

/-- Settles O6: what a loop word pushes, and what `LBRK` and the three outcomes of the back edge make of the top entry. -/
theorem loopEffects : Obligations.LoopEffects := by
  unfold Obligations.LoopEffects
  intro a off m
  refine ⟨.of_goto fun s h => exec_loop_of_zero h off, .of_mod fun s h => exec_loop_of_room h.1 h.2 off,
    .of_goto fun s h => exec_loopp_of_zero h.1 h.2 m off, fun hm s hroom hout h => ?loopp, fun s hfull h => exec_loop_of_full hfull h m off,
    fun s h => exec_loopp_of_inLoopp h a m off, fun s h => ?empty, fun s e rest h => ?lbrk, fun s e rest h hstages hcount => ?turn,
    fun s e rest k h hstages hk hcount hhalt hstep hbp => ?stages, fun s e rest h hcount hlast hstages => ?exit⟩
  case loopp =>
    have hm7 : m.toNat < 7 := by bv_omega
    refine ⟨_, exec_loopp_of_room hroom h hout m off, (OnlyMine.modMe ..).trans (OnlyMine.modMe ..), ?_, fun q => ?_⟩
    · rw [State.me_modMe, State.me_modMe]
    · rw [State.me_modMe, State.me_modMe]; exact Ctx.pred_stageInit _ _ hm7 q
  case empty =>
    have hbrk : exec .lbrk s = execLbrk s := rfl
    have hnext : exec .lnext s = execLnext s := rfl
    rw [hbrk, hnext, execLbrk, execLnext, h]; exact ⟨rfl, rfl⟩
  case lbrk =>
    refine ⟨_, exec_lbrk h, .traceExits ((OnlyMine.modMe ..).trans (OnlyMine.goto ..)) _, ?_⟩
    rw [(State.traceExits_traced ..).me, State.goto, State.me_moved, State.me_modMe, State.me_modMe]
  case turn =>
    have hne : s.me.loops ≠ [] := by simp [h]
    exact ⟨_, exec_lnext_of_plain hne (backEdge_of_turn h hstages hcount 4), .backTo .., State.me_backTo ..⟩
  case stages =>
    have hne : s.me.loops ≠ [] := by simp [h]
    refine ⟨_, exec_lnext_of_turned hne (backEdge_of_stages h hstages hcount 4) hhalt hstep hbp, .backTo .., ?_, fun q => ?_⟩
    · rw [State.me_backTo]; exact Ctx.rotate_rest ..
    · rw [State.me_backTo]; exact Ctx.pred_rotate _ _ _ hk q
  case exit =>
    have hne : s.me.loops ≠ [] := by simp [h]
    refine ⟨_, exec_lnext_of_plain hne (backEdge_of_exit h hcount hlast hstages 4), .traceExits (.backTo ..) _, ?_⟩
    rw [(State.traceExits_traced ..).me, State.me_backTo]

end Sys2Proof.Machine
end

section
/-! The queue instructions (R75): what a drop leaves of a queue, and which latches a clear empties. -/

namespace Sys2Proof.Machine

-- A queue after a drop.

theorem Queue.filled_le_length (q : Queue) (keel : Nat) : q.filled keel ≤ q.slots.length :=
  (List.takeWhile_sublist _).length_le

theorem Queue.drop_of_le {q : Queue} {n : Nat} (hpos : n ≠ 0) (hle : n ≤ q.slots.length) (keel : Nat) : q.drop n keel =
    { q with slots := q.slots.drop n, popped := q.popped + n
             pops := (keel + 1, (if q.pops.1 = keel + 1 then q.pops.2 else 0) + n) } := by
  simp [Queue.drop, Queue.freed, Nat.min_eq_left hle, hpos]

theorem Queue.drop_rest (q : Queue) (n keel : Nat) :
    (q.drop n keel).depth = q.depth ∧ (q.drop n keel).prods = q.prods := ⟨rfl, rfl⟩

theorem Queue.slots_drop_all (q : Queue) (keel : Nat) : (q.drop q.slots.length keel).slots = [] := List.drop_length

theorem Ctx.setQueue_rest (c : Ctx) (q : QSel) (v : Queue) :
    c.setQueue q v = { c with lqs := (c.setQueue q v).lqs, sqs := (c.setQueue q v).sqs } := by
  unfold Ctx.setQueue; split <;> rfl

-- What `QADV` does where enough slots are filled.

theorem exec_qadv (q : QSel) (n : Count 8) (s : State) : exec (.qadv q n) s = execQadv q n s := rfl

section
variable {s : State} {q : QSel} {n : Count 8} (hprog : s.iss.prog = 0)
include hprog

theorem exec_qadv_of_zero (h : s.count 16 n = 0) : exec (.qadv q n) s = .next s := by
  rw [exec_qadv, execQadv, h, hprog]; rfl

theorem exec_qadv_of_filled (hfilled : s.count 16 n ≤ (s.me.queue q).filled s.keel) (hpos : s.count 16 n ≠ 0)
    (hpop : s.me.poppers q = false) : exec (.qadv q n) s =
      .next (s.modMe fun c => c.setQueue q ((s.me.queue q).drop (s.count 16 n) s.keel)) := by
  rw [exec_qadv, execQadv, hprog]
  simp [hpos, hpop, Nat.min_eq_left hfilled]

end

theorem changesMe_qadv (q : QSel) (n : Count 8) :
    ChangesMe (fun s => s.iss.prog = 0 ∧ s.count 16 n ≤ (s.me.queue q).filled s.keel ∧ (s.count 16 n = 0 ∨ s.me.poppers q = false))
      (.qadv q n) (fun s c => if s.count 16 n = 0 then c else c.setQueue q { c.queue q with
        slots := (c.queue q).slots.drop (s.count 16 n), popped := (c.queue q).popped + s.count 16 n
        pops := (s.keel + 1, (if (c.queue q).pops.1 = s.keel + 1 then (c.queue q).pops.2 else 0) + s.count 16 n) }) := by
  rintro s ⟨hprog, hfilled, hpop⟩
  by_cases hzero : s.count 16 n = 0
  · exact ⟨s, exec_qadv_of_zero hprog hzero, .refl s, (if_pos hzero).symm⟩
  · refine ⟨_, exec_qadv_of_filled hprog hfilled hzero (hpop.resolve_left hzero), .modMe .., ?_⟩
    rw [State.me_modMe, Queue.drop_of_le hzero (hfilled.trans (Queue.filled_le_length ..))]
    exact (if_neg hzero).symm

-- `QSTAT` and `QCFG`.

/-- Bit 4 says whether the head slot carries END. -/
theorem headFin_bit (l : List Slot) :
    16 * b2n ((l.head?.map (·.fin)).getD false) = if ∃ x ∈ l.head?, x.fin = true then 16 else 0 := by
  cases l with
  | nil => simp [b2n]
  | cons x l => cases h : x.fin <;> simp [h, b2n]

theorem exec_qstat (d : Reg) (q : QSel) (s : State) : exec (.qstat d q) s = .next (s.setScalar d (BitVec.ofNat 64
    ((s.me.queue q).slots.length % 16 + (if ∃ x ∈ (s.me.queue q).slots.head?, x.fin = true then 16 else 0) +
      (if s.me.producerWaits q then 32 else 0)))) := by
  have hwait : 32 * b2n (s.me.producerWaits q) = if s.me.producerWaits q then 32 else 0 := by cases s.me.producerWaits q <;> rfl
  rw [← headFin_bit, ← hwait]; rfl

theorem depth_eq (n : Nat) : (if n = 0 || 8 < n then 8 else n) = if 1 ≤ n ∧ n ≤ 8 then n else 8 := by
  by_cases h : 1 ≤ n ∧ n ≤ 8
  · rw [if_pos h, if_neg (by simp; omega)]
  · rw [if_neg h, if_pos (by simp; omega)]

-- `QCLR`.

/-- A latch as `QCLR` leaves it: empty where its value came from a slot that the clear removes. -/
def latchAfterClear (s : State) (q : QSel) (l : Option Latch) : Option Latch := l.filter fun x => match x.org with
  | some (i, k) => q.store || i ≠ q.q || k < (s.me.queue q).popped
  | none => true

theorem exec_qclr {s : State} {q : QSel} (h : s.me.poppers q = false) : exec (.qclr q) s =
    .next (s.modMe fun c => { c.setQueue q ((s.me.queue q).drop (s.me.queue q).slots.length s.keel) with
      latchA := latchAfterClear s q c.latchA, latchB := latchAfterClear s q c.latchB }) := by
  have hrun : exec (.qclr q) s = execQclr q s := rfl
  rw [hrun, execQclr, h]; rfl

theorem latchAfterClear_of_store (s : State) {q : QSel} (h : q.store = true) (l : Option Latch) : latchAfterClear s q l = l := by
  rcases l with _ | ⟨r, _ | ⟨i, k⟩⟩ <;> simp [latchAfterClear, h]

theorem latchAfterClear_of_slot (s : State) {q : QSel} {k : Nat} (r : Row) (hload : q.store = false)
    (hk : (s.me.queue q).popped ≤ k) : latchAfterClear s q (some ⟨r, some (q.q, k)⟩) = none := by
  simp [latchAfterClear, hload, hk]

/-- Settles O26: `QADV` drops slots, `QSTAT` writes a scalar, `QCFG` sets the depth, and `QCLR` drops every slot and its latches. -/
theorem queueInstructions : Obligations.QueueInstructions := by
  unfold Obligations.QueueInstructions
  intro d a q n
  refine ⟨changesMe_qadv q n, .of_eq fun s => exec_qstat d q s, .of_mod fun s _ => ?qcfg, fun s h => ⟨_, exec_qclr h, .modMe .., ?qclr⟩⟩
  case qcfg => rw [← depth_eq]; rfl
  case qclr =>
    have hq := (Ctx.queue_setQueue s.me q q ((s.me.queue q).drop (s.me.queue q).slots.length s.keel)).trans (if_pos rfl)
    rw [State.me_modMe]
    refine ⟨?rest, ?slots, ?depth, ?prods, fun p hp => ?others, fun hs => ?store, fun r k hl ha hk => ?latchA, fun r k hl hb hk => ?latchB⟩
    case rest => rw [Ctx.setQueue_rest]
    case slots => exact (congrArg Queue.slots hq).trans (Queue.slots_drop_all ..)
    case depth => exact (congrArg Queue.depth hq :)
    case prods => exact (congrArg Queue.prods hq :)
    case others => exact (Ctx.queue_setQueue ..).trans (if_neg hp.symm)
    case store => exact ⟨latchAfterClear_of_store s hs _, latchAfterClear_of_store s hs _⟩
    case latchA => simp only [ha]; exact latchAfterClear_of_slot s r hl hk
    case latchB => simp only [hb]; exact latchAfterClear_of_slot s r hl hk

end Sys2Proof.Machine
end

section
/-! A thread that consumes poison outside a drogue region freezes (R333, R327), and with it its string (R200): the other handlers of the
string are stopped, which ends what their control cores wait with. So a consumption of poison does change contexts of other threads. -/

namespace Sys2Proof.Machine

/-- A string whose two handlers are the first two threads of cell 0. -/
def twoHandlers : Str :=
  let at_ (slot : Nat) : Pos := { cell := 0, slot := slot, inbox := 0, retain := 0, meetb := 0 }
  { part := 0, id := 0, hdr := ⟨2, 0, 0, 0, 0, 0, 0, 0, 0, 0, 0, 0, 0⟩, pos := [at_ 0, at_ 1], u := 0, team := none, rigger := 0 }

/-- The first thread, and beside it in the string a thread whose control core waits with a word. -/
def besideWaiting (c : Ctx) : State := { ctxs := [(0, c), (1, { status := .run, busy := some 1 })], strs := [twoHandlers] }

/-- Byte 0 of the scratchpad is poisoned. -/
def poisonedByte : State := { besideWaiting { status := .run } with psnSpad := [0] }

/-- A load of that byte. -/
def loadByteZero : LdsF := ⟨5, 0, 0, false, 0⟩

theorem busy_after_poisoned_lds {t : State} (h : exec (.lds loadByteZero) poisonedByte = .next t) : (t.ctx 1).busy = none := by
  rw [← Host.Outcome.next.inj h]; decide +kernel

/-- Refutes O23: a load of a poisoned byte freezes the loading thread's string, and so changes the context of the other handler, whose
control core waits. -/
theorem not_scratchpadAccess : ¬ Obligations.ScratchpadAccess := by
  unfold Obligations.ScratchpadAccess
  rintro ⟨-, -, hpoison⟩
  obtain ⟨t, ht, -, -, -, -, -, -, hothers⟩ :=
    hpoison poisonedByte loadByteZero (by decide) (by decide +kernel) (by decide +kernel) (by decide +kernel) rfl
  have hbusy := busy_after_poisoned_lds ht
  rw [hothers 1 (by decide)] at hbusy
  exact absurd hbusy (by decide +kernel)

/-- A load in flight has brought poison. -/
def poisonedLoad : State :=
  { besideWaiting { status := .run, loads := [{ ent := { id := 1, instr := .nop, word := 0, pc := 0 }, dest := 5, value := 0, poison := true }] }
    with arg := { a := 0, b := 1 } }

theorem busy_after_poisoned_landing {t : State} (h : exec .memoryLoadLands poisonedLoad = .next t) : (t.ctx 1).busy = none := by
  rw [← Host.Outcome.next.inj h]; decide +kernel

/-- Refutes O24: a load that lands with poison freezes its thread's string, and so changes the context of the other handler, whose
control core waits. -/
theorem not_memoryAccess : ¬ Obligations.MemoryAccess := by
  unfold Obligations.MemoryAccess
  rintro ⟨-, -, -, hlands, -, -⟩
  obtain ⟨-, hpoison⟩ := hlands poisonedLoad _ rfl rfl
  obtain ⟨t, ht, hothers, -⟩ := hpoison (.inl rfl) (fun h => absurd h (by decide +kernel)) rfl
  have hbusy := busy_after_poisoned_landing ht
  rw [hothers 1 (by decide)] at hbusy
  exact absurd hbusy (by decide +kernel)

end Sys2Proof.Machine
end

section
/-! The count word of a partition's notification ring may lie in its register page, which the partition's page table may map (R236,
R280). There it can be the register that holds a queue's ceiling, and a record that is posted holds every thread of that queue within
the ceiling written (R49, R385). So what flushes an access count past its threshold may change contexts of other threads. -/

namespace Sys2Proof.Machine

/-- The partition posts its records to page 0, an HBM page, and its count word is the weight and ceiling of queue 0, in page 1. The
cell's lease of page 0 has lapsed and has counted 256 accesses; the second thread of the cell belongs to a launch from queue 0. -/
def ringAtCeiling (c : Ctx) (dir : Dir) : State := {
  ctxs := [(0, c), (1, { status := .run, node := some 4096 })]
  launches := [{ id := 4096, part := 0, queue := 0, flag := none, nodes := [] }]
  parts := [(0, { ptroot := 0x10000, nrbase := 0, nrlen := 1, nrcnt := 0x10010, dir := dir })]
  pt := [(0x10000, 0x20001), (0x20000, 0x30001), (0x30000, 0x40001), (0x40000, 0x50013), (0x40010, 0xF00001810093)]
  cells := [(0, { leases := [⟨0, 0, 0x50000, 0, true, false, 0, false, true, 0, 0x40000, 256, [], 0⟩] })] }

/-- The first thread has a tether to page 0. -/
def exitingWithTether : State :=
  ringAtCeiling { status := .run, teths := (Vector.replicate 16 {}).set 0 { stat := .ok, pbase := 0x50000 } } {}

theorem ceiling_after_exit {t : State} (h : exec .exit exitingWithTether = .next t) : (t.ctx 1).ceiling = 0 := by
  rw [← Host.Outcome.next.inj h]; decide +kernel

/-- Refutes O18: the end of a thread flushes the count of its tether's page; the record posted for it writes the ceiling of the other
thread's queue, which lowers that thread's ceiling from 7 to 0. -/
theorem not_threadControl : ¬ Obligations.ThreadControl := by
  unfold Obligations.ThreadControl
  rintro ⟨⟨hexit, -⟩, -⟩
  obtain ⟨t, ht, -, -, hothers, -⟩ := hexit exitingWithTether (by decide +kernel) (by decide +kernel) (by decide +kernel)
  have hceiling := ceiling_after_exit ht
  rw [hothers 1 (by decide)] at hceiling
  exact absurd hceiling (by decide +kernel)

/-- A stream of the first thread reads the only row of an object in page 0. -/
def rowOfPageZero : Stream := ⟨{ id := 1, instr := .ldrq ⟨0, 0, 0, .imm 1, 0⟩, word := 0, pc := 0 }, 0, 0, 1⟩

/-- The row needs a lease: that of the cell has lapsed. -/
def rowWithoutLease : State := {
  ringAtCeiling
    { status := .run, streams := [rowOfPageZero], mhs := (Vector.replicate 16 {}).set 0 { isOpen := true, obj := 5 } }
    { objs := [(5, { base := 0, vers := 0, layout := [1, 0, 0, 0, 0, 0, 0, 0, 1] })] }
  with arg := { a := 0, b := 1 } }

theorem ceiling_after_grant {t : State} (h : exec .streamRowGrant rowWithoutLease = .next t) : (t.ctx 1).ceiling = 0 := by
  rw [← Host.Outcome.next.inj h]; decide +kernel

/-- Refutes O27: the lease granted for a row takes the place of the lapsed one, whose count is flushed; the record posted for it lowers
the ceiling of a thread of queue 0, so the contexts do not stay as they are. -/
theorem not_streams : ¬ Obligations.Streams := by
  unfold Obligations.Streams
  rintro ⟨-, -, -, hgrant⟩
  obtain ⟨t, l, ht, hctxs, -⟩ := hgrant rowWithoutLease rowOfPageZero 0 0 4 0 ⟨0x40000, 0x50013⟩ (by decide +kernel) rfl
    (by decide +kernel) (by decide +kernel) rfl (by decide +kernel) (fun h => absurd h (by decide +kernel))
  have hceiling := ceiling_after_grant ht
  rw [State.ctx, hctxs] at hceiling
  exact absurd hceiling (by decide +kernel)

end Sys2Proof.Machine
end

section
/-! Bytes written to a scratchpad through a path (R245): each granule of the bytes takes its own of them, and no byte outside them
changes. -/

namespace Sys2Proof.Machine

-- Slices and patches.

@[simp] theorem slice_length (l : List Byte) (a n : Nat) : (slice l a n).length = n := by
  simp [slice]; omega

theorem slice_patch (l : List Byte) (off : Nat) {bs : List Byte} {n : Nat} (hn : bs.length = n) : slice (patch l off bs) off n = bs := by
  subst hn
  have hpre : (l.take off ++ List.replicate (off - l.length) 0).length = off := by simp; omega
  have hdrop : (patch l off bs).drop off = bs ++ l.drop (off + bs.length) := by
    rw [patch, List.append_assoc, List.drop_left' hpre]
  have hlen : bs.length ≤ (patch l off bs).length - off := by rw [← List.length_drop, hdrop]; simp
  rw [slice, hdrop, List.take_left, Nat.sub_eq_zero_of_le hlen, List.replicate_zero, List.append_nil]

theorem mreads_eq_of_mread {m : List Host.Cell} {bs : List Byte} {a : Nat} (h : ∀ i (hi : i < bs.length), mread m (a + i) = bs[i]) :
    mreads m a bs.length = bs := by
  induction bs generalizing a with
  | nil => rfl
  | cons x xs ih =>
    have hrest : mreads m (a + 1) xs.length = xs := ih fun i hi => by
      rw [Nat.add_assoc, Nat.add_comm 1]
      exact h (i + 1) (Nat.succ_lt_succ hi)
    rw [List.length_cons, mreads, hrest]
    exact congrArg (· :: xs) (h 0 (Nat.succ_pos _))

-- The granules of some bytes.

theorem mem_granulesOf {a n b : Nat} (hlo : a ≤ b) (hhi : b < a + n) : b / 64 ∈ granulesOf a n := by
  have hn : n ≠ 0 := by omega
  rw [granulesOf, if_neg hn, List.mem_map]
  exact ⟨b / 64 - a / 64, List.mem_range.2 (by omega), by omega⟩

theorem nodup_granulesOf (a n : Nat) : (granulesOf a n).Nodup := by
  rw [granulesOf]
  split
  · exact List.nodup_nil
  · exact List.nodup_range.map (add_left_injective _)

-- A write among those of its granule.

/-- A write goes behind writes that are all shown to its own path. -/
theorem LateW.insert_of_shown (w : LateW) {ws : List LateW} (free : Nat)
    (h : ∀ x ∈ ws, x.shown { cls := w.cls, src := w.src, node := w.node } = true) : w.insert ws free = ws ++ [w] := by
  have htail : ws.reverse.takeWhile (fun x => !(x.shown { cls := w.cls, src := w.src, node := w.node })) = [] := by
    rw [List.takeWhile_eq_nil_iff]
    intro hpos
    rw [List.get_eq_getElem, h _ (List.mem_reverse.1 (List.getElem_mem hpos))]
    exact Bool.false_ne_true
  simp [LateW.insert, htail]

theorem Gran.now_append (g : Gran) (w : LateW) : ({ g with ws := g.ws ++ [w] } : Gran).now = patch g.now w.off w.bytes := by
  simp [Gran.now]

-- The write of one granule.

/-- What `lateWrite` does at granule `k`. -/
def lateWriteAt (p : Path) (c a : Nat) (bs : List Byte) (acc : List Host.Cell × List (Nat × Gran)) (k : Nat) :
    List Host.Cell × List (Nat × Gran) :=
  let lo := max a (64 * k)
  let hi := min (a + bs.length) (64 * k + 64)
  let g := (tfind acc.2 k).getD ⟨mreads acc.1 (64 * k) 64, []⟩
  let w : LateW := { off := lo - 64 * k, bytes := (bs.drop (lo - a)).take (hi - lo), cls := p.cls, src := p.src, node := p.node }
  let g := { g with ws := w.insert g.ws (Config.landsBefore c k) }
  (mwrites acc.1 lo (slice g.now (lo - 64 * k) (hi - lo)), tput acc.2 k g)

theorem lateWrite_eq_foldl (m : List Host.Cell) (late : List (Nat × Gran)) (p : Path) (c a : Nat) (bs : List Byte) :
    lateWrite m late p c a bs = (granulesOf a bs.length).foldl (lateWriteAt p c a bs) (m, late) := rfl

section
variable {p : Path} {c a : Nat} {bs : List Byte} {acc : List Host.Cell × List (Nat × Gran)} {k : Nat}

theorem mread_lateWriteAt_outside {b : Nat} (h : b < a ∨ a + bs.length ≤ b) :
    mread (lateWriteAt p c a bs acc k).1 b = mread acc.1 b :=
  mread_mwrites_other _ _ _ _ (by rw [slice_length]; omega)

theorem mread_lateWriteAt_other {b : Nat} (h : b / 64 ≠ k) : mread (lateWriteAt p c a bs acc k).1 b = mread acc.1 b :=
  mread_mwrites_other _ _ _ _ (by rw [slice_length]; omega)

theorem tfind_lateWriteAt_other {j : Nat} (h : j ≠ k) : tfind (lateWriteAt p c a bs acc k).2 j = tfind acc.2 j := by
  simp [lateWriteAt, Ne.symm h]

/-- Where the writes that stand in the granule are all shown to the path, the granule's own bytes are written. -/
theorem lateWriteAt_bytes (hent : p.ent = 0) (hshown : ∀ g ∈ tfind acc.2 k, ∀ w ∈ g.ws, w.shown p = true) :
    (lateWriteAt p c a bs acc k).1 =
      mwrites acc.1 (max a (64 * k)) ((bs.drop (max a (64 * k) - a)).take (min (a + bs.length) (64 * k + 64) - max a (64 * k))) := by
  have hlen : ((bs.drop (max a (64 * k) - a)).take (min (a + bs.length) (64 * k + 64) - max a (64 * k))).length =
      min (a + bs.length) (64 * k + 64) - max a (64 * k) := by simp; omega
  have hpath : ({ cls := p.cls, src := p.src, node := p.node } : Path) = p := by rw [← hent]
  have hws : ∀ w ∈ ((tfind acc.2 k).getD ⟨mreads acc.1 (64 * k) 64, []⟩).ws, w.shown p = true := by
    cases hg : tfind acc.2 k with
    | none => simp
    | some g => exact hshown g hg
  rw [lateWriteAt]
  dsimp only
  rw [LateW.insert_of_shown _ _ (by rwa [hpath]), Gran.now_append, slice_patch _ _ hlen]

theorem mread_lateWriteAt_self (hent : p.ent = 0) (hshown : ∀ g ∈ tfind acc.2 k, ∀ w ∈ g.ws, w.shown p = true) {i : Nat}
    (hi : i < bs.length) (hk : (a + i) / 64 = k) : mread (lateWriteAt p c a bs acc k).1 (a + i) = bs[i] := by
  obtain ⟨j, hj⟩ : ∃ j, a + i = max a (64 * k) + j := ⟨a + i - max a (64 * k), by omega⟩
  rw [lateWriteAt_bytes hent hshown, hj, mread_mwrites_self _ _ _ _ (by simp; omega)]
  simp only [List.getElem_take, List.getElem_drop]
  congr 1
  omega

end

-- The whole write.

section
variable {p : Path} {c a : Nat} {bs : List Byte} {ks : List Nat} {acc : List Host.Cell × List (Nat × Gran)}

theorem mread_foldl_outside {b : Nat} (h : b < a ∨ a + bs.length ≤ b) :
    mread (ks.foldl (lateWriteAt p c a bs) acc).1 b = mread acc.1 b := by
  induction ks generalizing acc with
  | nil => rfl
  | cons k ks ih => rw [List.foldl_cons, ih, mread_lateWriteAt_outside h]

theorem mread_foldl_other {b : Nat} (h : b / 64 ∉ ks) : mread (ks.foldl (lateWriteAt p c a bs) acc).1 b = mread acc.1 b := by
  induction ks generalizing acc with
  | nil => rfl
  | cons k ks ih =>
    rw [List.foldl_cons, ih (fun hk => h (List.mem_cons_of_mem _ hk)),
      mread_lateWriteAt_other fun hk => h (hk ▸ List.mem_cons_self)]

/-- Byte `i` is written at its granule, and the later granules leave it. -/
theorem mread_foldl_self (hent : p.ent = 0) (hdup : ks.Nodup)
    (hshown : ∀ k ∈ ks, ∀ g ∈ tfind acc.2 k, ∀ w ∈ g.ws, w.shown p = true) {i : Nat} (hi : i < bs.length) (hk : (a + i) / 64 ∈ ks) : mread (ks.foldl (lateWriteAt p c a bs) acc).1 (a + i) = bs[i] := by
  induction ks generalizing acc with
  | nil => cases hk
  | cons k ks ih =>
    obtain ⟨hnot, hdup⟩ := List.nodup_cons.1 hdup
    rw [List.foldl_cons]
    by_cases heq : (a + i) / 64 = k
    · rw [mread_foldl_other (by rwa [heq]), mread_lateWriteAt_self hent (hshown k List.mem_cons_self) hi heq]
    · refine ih hdup (fun j hj => ?_) ((List.mem_cons.1 hk).resolve_left heq)
      rw [tfind_lateWriteAt_other fun (h : j = k) => hnot (h ▸ hj)]
      exact hshown j (List.mem_cons_of_mem _ hj)

end

/-- Bytes written to a cell's scratchpad stand there, and no other byte of any scratchpad changes. -/
theorem spadWritten_spadWrite (s : State) {p : Path} (hent : p.ent = 0) (cell : Nat) {a : Nat} {bs : List Byte}
    (hend : a + bs.length ≤ 2 ^ 21) : SpadWritten s (s.spadWrite p cell a bs) p cell a bs := by
  refine ⟨fun hnone => mreads_eq_of_mread fun i hi => ?_, fun c b hb hother => ?_⟩
  · rw [State.spadWrite]
    dsimp only
    rw [lateWrite_eq_foldl]
    exact mread_foldl_self hent (nodup_granulesOf ..) hnone hi (mem_granulesOf (Nat.le_add_right ..) (by omega))
  · have hout : spadKey c b < spadKey cell a ∨ spadKey cell a + bs.length ≤ spadKey c b := by
      unfold spadKey
      omega
    rw [State.spadNow, State.spadNow, State.spadWrite]
    dsimp only
    rw [lateWrite_eq_foldl]
    exact congrArg (· :: []) (mread_foldl_outside hout)

end Sys2Proof.Machine
end

section
/-! The atomics (R86, R87): what an atomic does between the publishing before it and the phase after it, at memory, at a device
register, at a peer and on the scratchpad. -/

namespace Sys2Proof.Machine

-- The operations.

theorem opMin_eq : opMin = fun _ o b => some (if o.toInt < b.toInt then o else b) := by
  funext w o b
  simp [opMin, BitVec.slt]

theorem opMax_eq : opMax = fun _ o b => some (if o.toInt < b.toInt then b else o) := by
  funext w o b
  simp [opMax, BitVec.slt]

theorem opMinu_eq : opMinu = fun _ o b => some (if o.toNat < b.toNat then o else b) := rfl

theorem opMaxu_eq : opMaxu = fun _ o b => some (if o.toNat < b.toNat then b else o) := rfl

theorem exec_of_mem_amoOps {f : AmoF} {c : Reg} {s : State} {i : Instr} {op : AtomicOp} (h : (i, op) ∈ amoOps f c s) :
    exec i s = amo op f s := by
  have hall : ∀ e ∈ amoOps f c s, exec e.1 s = amo e.2 f s := by
    rw [amoOps, ← opMin_eq, ← opMax_eq, ← opMinu_eq, ← opMaxu_eq]
    simp only [List.forall_mem_cons]
    exact ⟨rfl, rfl, rfl, rfl, rfl, rfl, rfl, rfl, rfl, rfl, List.forall_mem_nil _⟩
  exact hall _ h

theorem exec_of_mem_amosOps {f : AmosF} {c : Reg} {s : State} {i : Instr} {op : AtomicOp} (h : (i, op) ∈ amosOps f c s) :
    exec i s = amos op f s := by
  have hall : ∀ e ∈ amosOps f c s, exec e.1 s = amos e.2 f s := by
    rw [amosOps, ← opMin_eq, ← opMax_eq, ← opMinu_eq, ← opMaxu_eq]
    simp only [List.forall_mem_cons]
    exact ⟨rfl, rfl, rfl, rfl, rfl, rfl, rfl, rfl, rfl, rfl, List.forall_mem_nil _⟩
  exact hall _ h

/-- An atomic step at the width of its `n` bytes. -/
theorem atomicStep_eq (op : AtomicOp) {n : Nat} (hn : n = 8 ∨ n = 4) (old : Nat) (b : Word) : atomicStep op n old b =
    ((op (8 * n) (BitVec.ofNat (8 * n) old) (b.setWidth (8 * n))).map fun v => leBytes n v.toNat,
      (BitVec.ofNat (8 * n) old).signExtend 64) := by
  rcases hn with rfl | rfl
  · have hb : b.setWidth (8 * 8) = b := BitVec.setWidth_eq b
    rw [atomicStep, if_pos rfl, hb, BitVec.signExtend_eq]
    rfl
  · rfl

-- Before and after an atomic.

/-- The state in which an atomic acts: its thread's stores published with PB, and the counts and owners of its cell as given. -/
def State.beforeAtomic (s : State) (pb : Bool) (sc : Scope) (cs : List (Nat × CellSt)) : State :=
  { (if pb then s.publishNow sc else s) with cells := cs }

/-- The thread's state once D holds the atomic's value, in a new phase with SP. -/
def State.afterAtomic (s : State) (sp : Bool) (d : Reg) (v : Word) : State :=
  if sp then (s.setScalar d v).refresh else s.setScalar d v

/-- D receives `v`, and no other scalar of the thread changes. -/
def ReadsInto (s t : State) (d : Reg) (v : Word) : Prop :=
  (d ≠ 0 → t.me.reg (physReg s.iss.rrb d) = v) ∧ ∀ r, d = 0 ∨ r ≠ physReg s.iss.rrb d → t.me.reg r = s.me.reg r

section
variable (s : State) (pb : Bool) (sc : Scope) (cs : List (Nat × CellSt))

theorem State.beforeAtomic_eq : s.beforeAtomic pb sc cs =
    { s with ctxs := (s.beforeAtomic pb sc cs).ctxs, vers := (if pb then s.publish s.iss.src sc else s).vers, cells := cs } := by
  cases pb <;> rfl

theorem State.beforeAtomic_iss : (s.beforeAtomic pb sc cs).iss = s.iss := by cases pb <;> rfl

theorem State.ctx_beforeAtomic (n : Nat) : (s.beforeAtomic pb sc cs).ctx n =
    { s.ctx n with lastB := if pb = true ∧ n = s.iss.src then s.keel + 1 else (s.ctx n).lastB } := by
  cases pb
  · rfl
  · have h : (s.beforeAtomic true sc cs).ctx n = (s.modMe fun c => { c with lastB := s.keel + 1 }).ctx n := rfl
    rw [h, State.modMe, State.ctx_modCtx]
    by_cases hn : n = s.iss.src
    · subst hn; simp
    · simp [hn, Ne.symm hn]

theorem State.me_beforeAtomic : (s.beforeAtomic pb sc cs).me = { s.me with lastB := if pb then s.keel + 1 else s.me.lastB } := by
  rw [State.me, State.beforeAtomic_iss, State.ctx_beforeAtomic]
  simp [State.me]

theorem State.regs_beforeAtomic : (s.beforeAtomic pb sc cs).me.regs = s.me.regs := by rw [State.me_beforeAtomic]

theorem othersKept_beforeAtomic : OthersKept s (s.beforeAtomic pb sc cs) s.iss.src := fun n hn => by
  rw [State.ctx_beforeAtomic, if_neg fun h => hn h.2]

theorem State.scalar_beforeAtomic (r : Reg) : (s.beforeAtomic pb sc cs).scalar r = s.scalar r := by
  rw [State.scalar, State.scalar, State.me_beforeAtomic, State.beforeAtomic_iss]; rfl

theorem State.pathL_beforeAtomic : (s.beforeAtomic pb sc cs).pathL = s.pathL := by
  rw [State.pathL, State.pathL, State.me_beforeAtomic, State.beforeAtomic_iss]

theorem State.bytesAt_beforeAtomic (pa n : Nat) :
    (s.beforeAtomic pb sc cs).bytesAt (s.beforeAtomic pb sc cs).viewerNow false (s.beforeAtomic pb sc cs).myPart pa n =
      (if pb then s.publish s.iss.src sc else s).bytesAt s.viewerNow false s.myPart pa n := by
  cases pb <;> rfl

theorem State.dbgRead_beforeAtomic (n off : Nat) : (s.beforeAtomic pb sc cs).dbgRead n off = s.dbgRead n off := by
  have hrec (off : Nat) : (s.beforeAtomic pb sc cs).recWord n off = s.recWord n off := by
    rw [State.recWord, State.recWord, State.ctx_beforeAtomic, State.beforeAtomic_eq]; rfl
  simp only [State.dbgRead, hrec, State.ctx_beforeAtomic]
  rw [State.beforeAtomic_eq]; rfl

theorem State.regRead_beforeAtomic (pa : Nat) : (s.beforeAtomic pb sc cs).regRead pa = s.regRead pa := by
  rw [State.regRead, State.regRead, State.dbgRead_beforeAtomic, State.beforeAtomic_eq]
  rfl

theorem State.devRead_beforeAtomic (pa n : Nat) : (s.beforeAtomic pb sc cs).devRead pa n = s.devRead pa n := by
  rw [State.devRead, State.devRead, State.regRead_beforeAtomic]

end

section
variable (w : State) (sp : Bool) (d : Reg) (v : Word)

theorem readsInto_setScalar : ReadsInto w (w.setScalar d v) d v := by
  obtain ⟨-, -, -, hsame, hother⟩ := setScalar_spec w d v
  exact ⟨hsame, hother⟩

theorem State.setScalar_eq : w.setScalar d v = { w with ctxs := (w.setScalar d v).ctxs } := by
  rw [State.setScalar]
  split <;> rfl

theorem othersKept_setScalar : OthersKept w (w.setScalar d v) w.iss.src := by
  obtain ⟨⟨-, -, hothers, -⟩, -⟩ := setScalar_spec w d v
  exact hothers

theorem State.me_setScalar : (w.setScalar d v).me = { w.me with regs := (w.setScalar d v).me.regs } := by
  obtain ⟨-, -, hme, -⟩ := setScalar_spec w d v
  exact hme

theorem State.me_refresh : w.refresh.me = { w.me with hzn := ⟨w.keel, w.iss.src⟩, phase := w.me.phase + 1, lastB := w.keel + 1 } := by
  rw [State.refresh, State.me_modMe]

theorem State.afterAtomic_eq : w.afterAtomic sp d v = { w with ctxs := (w.afterAtomic sp d v).ctxs } := by
  cases sp
  · exact State.setScalar_eq w d v
  · exact congrArg (fun u : State => { u with ctxs := (w.setScalar d v).refresh.ctxs }) (State.setScalar_eq w d v)

theorem othersKept_afterAtomic : OthersKept w (w.afterAtomic sp d v) w.iss.src := by
  intro n hn
  have hset := othersKept_setScalar w d v n hn
  cases sp
  · exact hset
  · change (w.setScalar d v).refresh.ctx n = _
    rw [State.refresh, State.modMe, State.ctx_modCtx, if_neg, hset]
    rw [State.setScalar_eq]
    exact Ne.symm hn

theorem State.me_afterAtomic_same_phase : (w.afterAtomic false d v).me = { w.me with regs := (w.afterAtomic false d v).me.regs } :=
  State.me_setScalar w d v

theorem State.me_afterAtomic_new_phase : (w.afterAtomic true d v).me = { w.me with
    regs := (w.afterAtomic true d v).me.regs, hzn := ⟨w.keel, w.iss.src⟩, phase := w.me.phase + 1, lastB := w.keel + 1 } := by
  have hkeel : (w.setScalar d v).keel = w.keel := by rw [State.setScalar_eq]
  have hiss : (w.setScalar d v).iss = w.iss := by rw [State.setScalar_eq]
  have hme : (w.afterAtomic true d v).me = { (w.setScalar d v).me with
      hzn := ⟨w.keel, w.iss.src⟩, phase := (w.setScalar d v).me.phase + 1, lastB := w.keel + 1 } := by
    change (w.setScalar d v).refresh.me = _
    rw [State.me_refresh, hkeel, hiss]
  rw [hme]
  exact congrArg (fun c : Ctx => { c with hzn := ⟨w.keel, w.iss.src⟩, phase := c.phase + 1, lastB := w.keel + 1 })
    (State.me_setScalar w d v)

theorem State.regs_afterAtomic : (w.afterAtomic sp d v).me.regs = (w.setScalar d v).me.regs := by
  cases sp
  · rfl
  · change (w.setScalar d v).refresh.me.regs = _
    rw [State.me_refresh]

theorem ReadsInto.of_regs {s t t' : State} {d : Reg} {v : Word} (h : ReadsInto s t d v) (hregs : t'.me.regs = t.me.regs) :
    ReadsInto s t' d v := by
  have hreg (r : Reg) : t'.me.reg r = t.me.reg r := by rw [Ctx.reg, Ctx.reg, hregs]
  exact ⟨fun hd => (hreg _).trans (h.1 hd), fun r hr => (hreg r).trans (h.2 r hr)⟩

theorem readsInto_afterAtomic : ReadsInto w (w.afterAtomic sp d v) d v :=
  (readsInto_setScalar w d v).of_regs (State.regs_afterAtomic w sp d v)

end

theorem ReadsInto.of_before {s w t : State} {d : Reg} {v : Word} (h : ReadsInto w t d v) (hiss : w.iss = s.iss)
    (hregs : w.me.regs = s.me.regs) : ReadsInto s t d v := by
  have hreg (r : Reg) : w.me.reg r = s.me.reg r := by rw [Ctx.reg, Ctx.reg, hregs]
  rw [ReadsInto, hiss] at h
  exact ⟨h.1, fun r hr => (h.2 r hr).trans (hreg r)⟩

-- The way to the atomic.

theorem State.around_of_ready {s : State} {pb sp : Bool} {sc : Scope} (hpub : pb = true → s.mayPublish sc = true)
    (hbound : pb = true ∨ sp = true → s.me.lastB ≤ s.keel) (k : State → State) : s.around pb sp sc k =
      if sp then (k (if pb then s.publishNow sc else s)).refresh else k (if pb then s.publishNow sc else s) := by
  have hmay : (pb && !(s.mayPublish sc)) = false := by
    cases pb
    · rfl
    · simp [hpub rfl]
  have hlast : ((pb || sp) && decide (s.keel < s.me.lastB)) = false := by
    rw [Bool.and_eq_false_iff, decide_eq_false_iff_not, Nat.not_lt]
    by_cases h : pb = true ∨ sp = true
    · exact .inr (hbound h)
    · exact .inl (by simpa using h)
  rw [State.around, hmay, hlast]
  rfl

theorem State.tethered_of_usable {s : State} {th : BitVec 4} {off : Int} {n : Nat} {write stream : Bool}
    (h : s.tethUsable th off n write stream) (k : Tether → Nat → State) : s.tethered th off n write stream k =
      let pa := (((s.me.teth th).anchor : Int) + off).toNat
      if (paKind pa = .device ∨ paKind pa = .notify) ∧ devSizeOk pa n = false then s.fatal .badTether (th.setWidth 32)
      else k (s.me.teth th) pa := by
  obtain ⟨hstat, hexp, hlow, hhigh, hwrite, hclass⟩ := h
  have hw : (!write || (s.me.teth th).w) = true := by cases write <;> simp_all
  obtain (hclass : (s.me.teth th).lc ≠ 3#2) | rfl := hclass
  · simp [State.tethered, hstat, hexp, hlow, hhigh, hw, hclass]
  · simp [State.tethered, hstat, hexp, hlow, hhigh, hw]

theorem State.countTeth_eq (s : State) (t : Tether) : ∃ cs, s.countTeth t = { s with cells := cs } := by
  rw [State.countTeth]
  split
  · exact ⟨_, rfl⟩
  · exact ⟨_, rfl⟩

theorem devSizeOk_of_aligned {pa n : Nat} (hn : n = 8 ∨ n = 4) (h : pa % n = 0) : devSizeOk pa n = true := by
  rcases hn with rfl | rfl <;> simp [devSizeOk, h]

section
variable {s : State} {f : AmoF} {op : AtomicOp} {n pa : Nat} (hn : n = if f.wide then 8 else 4)
  (hpa : pa = (((s.me.teth f.th).anchor : Int) + (s.scalar f.a).toInt).toNat)
  (husable : s.tethUsable f.th (s.scalar f.a).toInt n true false)
include hn hpa husable

theorem amo_of_misaligned (h : pa % n ≠ 0) : amo op f s = .next (s.fatal .badTether (f.th.setWidth 32)) := by
  rw [amo, ← hn, State.tethered_of_usable husable, ← hpa]
  simp [h]

/-- Where nothing holds it back the atomic acts, its stores published before it and its new phase begun after it. -/
theorem amo_of_ready (halign : pa % n = 0) (hheld : s.memHeld s.iss.src s.me.streams pa n = false) (hlater : s.atomLater pa n = false)
    (hpoison : paKind pa ≠ .peer → s.atPoisoned false pa n = false) (hpub : f.pb = true → s.mayPublish f.scope = true)
    (hbound : f.pb = true ∨ f.sp = true → s.me.lastB ≤ s.keel) : ∃ cs, amo op f s = .next
      (if f.sp then ((s.beforeAtomic f.pb f.scope cs).amoAt f op n (s.me.teth f.th) pa).refresh
        else (s.beforeAtomic f.pb f.scope cs).amoAt f op n (s.me.teth f.th) pa) := by
  obtain ⟨cs, hcs⟩ := (if f.pb then s.publishNow f.scope else s).countTeth_eq (s.me.teth f.th)
  have hsize : devSizeOk pa n = true := devSizeOk_of_aligned (by rw [hn]; split <;> simp) halign
  replace hcs : (if f.pb then s.publishNow f.scope else s).countTeth (s.me.teth f.th) = s.beforeAtomic f.pb f.scope cs := hcs
  refine ⟨cs, ?_⟩
  rw [amo, ← hn, State.tethered_of_usable husable, ← hpa]
  have hnot : (decide (paKind pa ≠ .peer) && s.atPoisoned false pa n) = false := by
    by_cases h : paKind pa = .peer
    · simp [h]
    · simp [hpoison h]
  simp only [hsize, halign, hheld, hlater, hnot, State.around_of_ready hpub hbound, hcs, ne_eq, not_true_eq_false, Bool.true_eq_false,
    and_false, Bool.or_self, Bool.false_eq_true, if_false]

end

-- The atomic at its address.

/-- Memory after an atomic: its read stands among the atomics of the nanosecond, and what it writes is published at its stamp. -/
def State.atMemory (s : State) (f : AmoF) (t : Tether) (pa n : Nat) (w : Option (List Byte)) : State :=
  let s := { s with atoms := s.atoms ++ [(⟨s.keel, s.iss.src⟩, s.addrs s.myPart pa n)] }
  match w with
  | some bs => s.addAt s.iss.src s.myPart s.myCell ⟨s.keel, s.iss.src⟩ f.scope pa bs t.exp s.iss.phase [] (some f.th)
  | none => s

/-- The device's registers after an atomic. -/
def State.atRegister (s : State) (pa n : Nat) (w : Option (List Byte)) : State :=
  match w with
  | some bs => s.devStore s.iss.src pa n (leVal bs) true
  | none => s

section
variable (s : State) (f : AmoF) (op : AtomicOp) (n : Nat) (t : Tether) {pa : Nat}

theorem State.amoAt_memory (hpa : memoryAt pa) : s.amoAt f op n t pa =
    let r := atomicStep op n (leVal (s.bytesAt s.viewerNow false s.myPart pa n)) (s.scalar f.b)
    (s.atMemory f t pa n r.1).setScalar f.d r.2 := by
  rw [State.amoAt]
  rcases hpa with h | h | h <;> rw [h] <;> rfl

theorem State.amoAt_register (hpa : paKind pa = .device ∨ paKind pa = .notify) : s.amoAt f op n t pa =
    let r := atomicStep op n (s.devRead pa n) (s.scalar f.b)
    (s.atRegister pa n r.1).setScalar f.d r.2 := by
  rw [State.amoAt]
  rcases hpa with h | h <;> rw [h] <;> rfl

theorem State.amoAt_peer (hpa : paKind pa = .peer) (hup : (s.port (peerPort pa)).up = true) : ∃ v, s.amoAt f op n t pa =
    ({ s with choices := s.choices + 1 } : State).setScalar f.d v := by
  have hsound : s.atPoisoned false pa n = false := by
    rw [State.atPoisoned, State.poisonedWhere, hpa]
    simp [hup]
  refine ⟨(atomicStep op n (leVal (peerBytes s.choices pa n)) (({ s with choices := s.choices + 1 } : State).scalar f.b)).2, ?_⟩
  rw [State.amoAt, hpa]
  dsimp only
  rw [hsound, State.readAt, hpa]
  rfl

theorem State.atMemory_eq (w : Option (List Byte)) : s.atMemory f t pa n w =
    { s with vers := (s.atMemory f t pa n w).vers, seq := (s.atMemory f t pa n w).seq, atoms := (s.atMemory f t pa n w).atoms } := by
  cases w <;> rfl

end

-- What a store to a device register leaves of the threads.

/-- The executing instruction, and the scalars of every thread, are as before. -/
def KeepsRegs (s t : State) : Prop := t.iss = s.iss ∧ ∀ n, (t.ctx n).regs = (s.ctx n).regs

theorem tget_map_regs (f : Nat × Ctx → Nat × Ctx) (hkey : ∀ e, (f e).1 = e.1) (hregs : ∀ e, (f e).2.regs = e.2.regs)
    (l : List (Nat × Ctx)) (n : Nat) : (tget {} (l.map f) n).regs = (tget {} l n).regs := by
  induction l with
  | nil => rfl
  | cons e l ih =>
    rw [List.map_cons, tget, tget, hkey]
    split
    · exact hregs e
    · exact ih

theorem keepsRegs_withinQueue (s : State) (q : Nat) : KeepsRegs s (s.withinQueue q) := by
  refine ⟨rfl, fun n => tget_map_regs _ (fun e => ?_) (fun e => ?_) s.ctxs n⟩
  · split <;> rfl
  · split <;> rfl

theorem keepsRegs_partWrite (s : State) (n off v : Nat) : KeepsRegs s (s.partWrite n off v) := by
  unfold State.partWrite
  dsimp only
  repeat' split
  any_goals exact ⟨rfl, fun _ => rfl⟩
  exact keepsRegs_withinQueue (s.modQueue _ _) _

theorem keepsRegs_dbgWrite (s : State) (n off v : Nat) : KeepsRegs s (s.dbgWrite n off v) := by
  unfold State.dbgWrite
  dsimp only
  repeat' split
  all_goals exact ⟨rfl, fun _ => rfl⟩

theorem keepsRegs_wsWrite (s : State) (n off v : Nat) : KeepsRegs s (s.wsWrite n off v) := by
  unfold State.wsWrite
  split <;> exact ⟨rfl, fun _ => rfl⟩

theorem keepsRegs_lportWrite (s : State) (src n off v : Nat) : KeepsRegs s (s.lportWrite src n off v) := by
  unfold State.lportWrite
  repeat' split
  all_goals exact ⟨rfl, fun _ => rfl⟩

theorem keepsRegs_regWrite (s : State) (src pa v : Nat) (atomic : Bool) : KeepsRegs s (s.regWrite src pa v atomic) := by
  unfold State.regWrite
  dsimp only
  split
  · repeat' split
    all_goals exact ⟨rfl, fun _ => rfl⟩
  split
  · exact ⟨rfl, fun _ => rfl⟩
  split
  · exact keepsRegs_partWrite ..
  split
  · exact keepsRegs_dbgWrite ..
  split
  · split <;> exact ⟨rfl, fun _ => rfl⟩
  split
  · exact keepsRegs_wsWrite ..
  split
  · exact keepsRegs_lportWrite ..
  · exact ⟨rfl, fun _ => rfl⟩

theorem keepsRegs_atRegister (s : State) (pa n : Nat) (w : Option (List Byte)) : KeepsRegs s (s.atRegister pa n w) := by
  cases w with
  | none => exact ⟨rfl, fun _ => rfl⟩
  | some bs =>
    rw [State.atRegister, State.devStore]
    split <;> exact keepsRegs_regWrite ..

-- The atomics through a tether, each at its kind of page.

theorem State.atPoisoned_memory {s : State} {pa : Nat} (hpa : memoryAt pa) (n : Nat) :
    s.atPoisoned false pa n = s.poisonAt s.viewerNow false s.myPart pa n := by
  rw [State.atPoisoned, State.poisonedWhere]
  rcases hpa with h | h | h <;> rw [h]

theorem State.atPoisoned_register {s : State} {pa : Nat} (hpa : paKind pa = .device ∨ paKind pa = .notify) (n : Nat) :
    s.atPoisoned false pa n = false := by
  rw [State.atPoisoned, State.poisonedWhere]
  rcases hpa with h | h <;> rw [h]

theorem readsInto_afterAtomic_of {s w : State} (sp : Bool) (d : Reg) (v : Word) (hiss : w.iss = s.iss) (hregs : w.me.regs = s.me.regs) :
    ReadsInto s (w.afterAtomic sp d v) d v := (readsInto_afterAtomic w sp d v).of_before hiss hregs

section
variable {s : State} {f : AmoF} {op : AtomicOp} {n pa : Nat} (hn : n = if f.wide then 8 else 4)
  (hpa : pa = (((s.me.teth f.th).anchor : Int) + (s.scalar f.a).toInt).toNat)
  (husable : s.tethUsable f.th (s.scalar f.a).toInt n true false) (halign : pa % n = 0)
  (hheld : s.memHeld s.iss.src s.me.streams pa n = false) (hlater : s.atomLater pa n = false)
  (hpub : f.pb = true → s.mayPublish f.scope = true) (hbound : f.pb = true ∨ f.sp = true → s.me.lastB ≤ s.keel)
include hn hpa husable halign hheld hlater hpub hbound

theorem amo_of_memory (hmem : memoryAt pa) (hpoison : s.poisonAt s.viewerNow false s.myPart pa n = false) :
    let old := BitVec.ofNat (8 * n)
      (leVal ((if f.pb then s.publish s.iss.src f.scope else s).bytesAt s.viewerNow false s.myPart pa n))
    ∃ cs, amo op f s = .next (((s.beforeAtomic f.pb f.scope cs).atMemory f (s.me.teth f.th) pa n
      ((op (8 * n) old ((s.scalar f.b).setWidth (8 * n))).map fun v => leBytes n v.toNat)).afterAtomic f.sp f.d (old.signExtend 64)) := by
  obtain ⟨cs, h⟩ := amo_of_ready (op := op) hn hpa husable halign hheld hlater
    (fun _ => (State.atPoisoned_memory hmem n).trans hpoison) hpub hbound
  refine ⟨cs, ?_⟩
  rw [h, State.amoAt_memory _ _ _ _ _ hmem, State.bytesAt_beforeAtomic, State.scalar_beforeAtomic,
    atomicStep_eq op (by rw [hn]; split <;> simp)]
  rfl

theorem amo_of_register (hreg : paKind pa = .device ∨ paKind pa = .notify) :
    let old := BitVec.ofNat (8 * n) (s.devRead pa n)
    ∃ cs, amo op f s = .next (((s.beforeAtomic f.pb f.scope cs).atRegister pa n
      ((op (8 * n) old ((s.scalar f.b).setWidth (8 * n))).map fun v => leBytes n v.toNat)).afterAtomic f.sp f.d (old.signExtend 64)) := by
  obtain ⟨cs, h⟩ := amo_of_ready (op := op) hn hpa husable halign hheld hlater (fun _ => State.atPoisoned_register hreg n) hpub hbound
  refine ⟨cs, ?_⟩
  rw [h, State.amoAt_register _ _ _ _ _ hreg, State.devRead_beforeAtomic, State.scalar_beforeAtomic,
    atomicStep_eq op (by rw [hn]; split <;> simp)]
  rfl

theorem amo_of_peer (hpeer : paKind pa = .peer) (hup : (s.port (peerPort pa)).up = true) : ∃ cs v, amo op f s =
    .next (({ s.beforeAtomic f.pb f.scope cs with choices := s.choices + 1 } : State).afterAtomic f.sp f.d v) := by
  obtain ⟨cs, h⟩ := amo_of_ready (op := op) hn hpa husable halign hheld hlater (fun hne => absurd hpeer hne) hpub hbound
  have hport : ((s.beforeAtomic f.pb f.scope cs).port (peerPort pa)).up = true := by rwa [State.beforeAtomic_eq]
  obtain ⟨v, hv⟩ := (s.beforeAtomic f.pb f.scope cs).amoAt_peer f op n (s.me.teth f.th) hpeer hport
  refine ⟨cs, v, ?_⟩
  rw [h, hv, State.beforeAtomic_eq]
  rfl

end

-- The atomics on the scratchpad.

/-- The scratchpad after an atomic. -/
def State.atSpad (s : State) (a : Nat) (w : Option (List Byte)) : State :=
  match w with
  | some bs => s.spadWrite s.pathL s.myCell a bs
  | none => s

theorem State.own_eq (s : State) (cell key : Nat) (rs : List Nat) : ∃ cs, s.own cell key rs = { s with cells := cs } := by
  rw [State.own]
  split
  · exact ⟨_, rfl⟩
  · exact ⟨_, rfl⟩

theorem State.withSpadAt_of_usable {s : State} {x n : Nat} (husable : s.spadUsable x n) (hheld : spadHeld s.me.streams x n = false) :
    ∃ cs, ∀ k, s.withSpadAt x n k = k x { s with cells := cs } := by
  obtain ⟨hrange, hfree⟩ := husable
  obtain ⟨cs, hcs⟩ := s.own_eq s.myCell (s.teamKey s.iss.src) (regionsOf x n)
  have hok : spadOk x n = true := decide_eq_true hrange
  have hnone : (regionsOf x n).findSome? (fun r => (s.regionBusy s.myCell (s.teamKey s.iss.src) r).map fun i => (r, i)) = none :=
    List.findSome?_eq_none_iff.2 fun r hr => by rw [hfree r hr]; rfl
  refine ⟨cs, fun k => ?_⟩
  rw [State.withSpadAt, if_neg (by omega), Int.toNat_natCast, State.withSpad, if_pos hok, State.withRegions, hnone]
  dsimp only
  rw [hcs, show spadHeld ({ s with cells := cs } : State).me.streams x n = false from hheld]
  rfl

theorem amos_of_ready {s : State} {f : AmosF} {op : AtomicOp} {n x : Nat} (hn : n = if f.wide then 8 else 4) (hx : x = (s.scalar f.a).toNat)
    (halign : x % n = 0) (husable : s.spadUsable x n) (hheld : spadHeld s.me.streams x n = false)
    (hpoison : s.spadPoisoned s.myCell x n = false) (hpub : f.pb = true → s.mayPublish .cell = true)
    (hbound : f.pb = true ∨ f.sp = true → s.me.lastB ≤ s.keel) :
    let old := BitVec.ofNat (8 * n) (leVal (s.spadRead s.pathL s.myCell x n))
    ∃ cs, amos op f s = .next (((s.beforeAtomic f.pb .cell cs).atSpad x
      ((op (8 * n) old ((s.scalar f.b).setWidth (8 * n))).map fun v => leBytes n v.toNat)).afterAtomic f.sp f.d (old.signExtend 64)) := by
  obtain ⟨cs, hk⟩ := State.withSpadAt_of_usable husable hheld
  refine ⟨cs, ?_⟩
  have hbefore : (if f.pb then ({ s with cells := cs } : State).publishNow .cell else { s with cells := cs }) =
      s.beforeAtomic f.pb .cell cs := by
    cases f.pb <;> rfl
  have hread : (s.beforeAtomic f.pb .cell cs).spadRead (s.beforeAtomic f.pb .cell cs).pathL (s.beforeAtomic f.pb .cell cs).myCell x n =
      s.spadRead s.pathL s.myCell x n := by
    rw [State.pathL_beforeAtomic, State.beforeAtomic_eq]; rfl
  have hsound : ({ s with cells := cs } : State).spadPoisoned ({ s with cells := cs } : State).myCell x n = false := hpoison
  rw [amos, ← hn, ← hx]
  dsimp only
  rw [if_neg (not_not.2 halign), hk, hsound, State.around_of_ready (s := { s with cells := cs }) hpub hbound, hbefore, hread,
    State.scalar_beforeAtomic, atomicStep_eq op (by rw [hn]; split <;> simp)]
  rfl

-- What stands after an atomic.

section
variable (s : State) (f : AmoF) (t : Tether) (pa n : Nat) (cs : List (Nat × CellSt)) (w : Option (List Byte))

theorem State.me_atMemory : (s.atMemory f t pa n w).me = s.me := by cases w <;> rfl

theorem State.iss_atMemory : (s.atMemory f t pa n w).iss = s.iss := by cases w <;> rfl

theorem State.ctx_atMemory (k : Nat) : (s.atMemory f t pa n w).ctx k = s.ctx k := by cases w <;> rfl

theorem State.me_atSpad (a : Nat) : (s.atSpad a w).me = s.me := by cases w <;> rfl

theorem State.iss_atSpad (a : Nat) : (s.atSpad a w).iss = s.iss := by cases w <;> rfl

theorem State.ctx_atSpad (a k : Nat) : (s.atSpad a w).ctx k = s.ctx k := by cases w <;> rfl

theorem State.atSpad_eq (a : Nat) : s.atSpad a w =
    { s with spad := (s.atSpad a w).spad, late := (s.atSpad a w).late, psnSpad := (s.atSpad a w).psnSpad } := by
  cases w <;> rfl

end

theorem OthersKept.trans {s t u : State} {src : Nat} (h : OthersKept s t src) (k : OthersKept t u src) : OthersKept s u src :=
  fun n hn => (k n hn).trans (h n hn)

theorem SpadWritten.congr {s s' t t' : State} {p : Path} {cell a : Nat} {bs : List Byte} (h : SpadWritten s t p cell a bs)
    (hspad : s'.spad = s.spad) (hlate : s'.late = s.late) (hspad' : t'.spad = t.spad) : SpadWritten s' t' p cell a bs := by
  unfold SpadWritten State.noneLate State.spadNow at h ⊢
  rwa [hspad, hlate, hspad']

/-- A state that has the threads of the one before the atomic has, after it, only its own thread changed. -/
theorem othersKept_atomic {s w : State} {pb : Bool} {sc : Scope} {cs : List (Nat × CellSt)} (sp : Bool) (d : Reg) (v : Word)
    (hiss : w.iss = (s.beforeAtomic pb sc cs).iss) (hctx : ∀ n, w.ctx n = (s.beforeAtomic pb sc cs).ctx n) :
    OthersKept s (w.afterAtomic sp d v) s.iss.src := by
  have hw : w.iss.src = s.iss.src := by rw [hiss, State.beforeAtomic_iss]
  refine (othersKept_beforeAtomic s pb sc cs).trans fun n hn => ?_
  rw [othersKept_afterAtomic w sp d v n (by rwa [hw]), hctx]

/-- The thread itself: no phase begins without SP, and one stamped now begins with it. -/
theorem me_atomic {s w : State} {pb : Bool} {sc : Scope} {cs : List (Nat × CellSt)} (sp : Bool) (d : Reg) (v : Word)
    (hkeel : w.keel = s.keel) (hiss : w.iss = s.iss) (hme : w.me = (s.beforeAtomic pb sc cs).me) :
    (sp = false → (w.afterAtomic sp d v).me = { s.me with
      regs := (w.afterAtomic sp d v).me.regs, lastB := if pb then s.keel + 1 else s.me.lastB }) ∧
    (sp = true → (w.afterAtomic sp d v).me = { s.me with
      regs := (w.afterAtomic sp d v).me.regs, hzn := ⟨s.keel, s.iss.src⟩, phase := s.me.phase + 1, lastB := s.keel + 1 }) := by
  have hbefore := hme.trans (State.me_beforeAtomic s pb sc cs)
  refine ⟨?_, ?_⟩
  · rintro rfl
    exact (State.me_afterAtomic_same_phase w d v).trans
      (congrArg (fun c : Ctx => { c with regs := (w.afterAtomic false d v).me.regs }) hbefore)
  · rintro rfl
    rw [← hkeel, ← hiss]
    exact (State.me_afterAtomic_new_phase w d v).trans (congrArg (fun c : Ctx => { c with
      regs := (w.afterAtomic true d v).me.regs, hzn := ⟨w.keel, w.iss.src⟩, phase := c.phase + 1, lastB := w.keel + 1 }) hbefore)

theorem State.vers_afterAtomic (w : State) (sp : Bool) (d : Reg) (v : Word) : (w.afterAtomic sp d v).vers = w.vers := by
  rw [State.afterAtomic_eq]

theorem State.vers_beforeAtomic (s : State) (pb : Bool) (sc : Scope) (cs : List (Nat × CellSt)) :
    (s.beforeAtomic pb sc cs).vers = (if pb then s.publish s.iss.src sc else s).vers := by
  rw [State.beforeAtomic_eq]

/-- What an atomic writes at memory: one version, published at its stamp. -/
theorem State.vers_atMemory (s : State) (f : AmoF) (t : Tether) (pa : Nat) {n : Nat} {bs : List Byte} (hlen : bs.length = n) :
    ∃ v : Ver, (s.atMemory f t pa n (some bs)).vers = s.vers ++ [v] ∧ v.cells = (s.addrs s.myPart pa n).zip bs ∧
      v.src = s.iss.src ∧ v.atm = true ∧ v.pubs = [(f.scope, ⟨s.keel, s.iss.src⟩)] :=
  ⟨_, rfl, by rw [← hlen]; rfl, rfl, rfl, rfl⟩

/-- R86, R172: an atomic through a tether to memory. -/
theorem amo_at_memory {s : State} {f : AmoF} {n pa : Nat} {cs : List (Nat × CellSt)} {th : Tether} (v : Word)
    (x : Option (BitVec (8 * n))) :
    let p := if f.pb then s.publish s.iss.src f.scope else s
    let t := ((s.beforeAtomic f.pb f.scope cs).atMemory f th pa n (x.map fun y => leBytes n y.toNat)).afterAtomic f.sp f.d v
    t = { s with ctxs := t.ctxs, vers := t.vers, seq := t.seq, cells := t.cells, atoms := t.atoms } ∧ OthersKept s t s.iss.src ∧
    (f.sp = false → t.me = { s.me with regs := t.me.regs, lastB := if f.pb then s.keel + 1 else s.me.lastB }) ∧
    (f.sp = true → t.me = { s.me with
      regs := t.me.regs, hzn := ⟨s.keel, s.iss.src⟩, phase := s.me.phase + 1, lastB := s.keel + 1 }) ∧
    ReadsInto s t f.d v ∧ (x = none → t.vers = p.vers) ∧
    ∀ y, x = some y → ∃ v, t.vers = p.vers ++ [v] ∧ v.cells = (s.addrs s.myPart pa n).zip (leBytes n y.toNat) ∧
      v.src = s.iss.src ∧ v.atm = true ∧ v.pubs = [(f.scope, ⟨s.keel, s.iss.src⟩)] := by
  intro p t
  have hiss := State.iss_atMemory (s.beforeAtomic f.pb f.scope cs) f th pa n (x.map fun y => leBytes n y.toNat)
  have hme := State.me_atMemory (s.beforeAtomic f.pb f.scope cs) f th pa n (x.map fun y => leBytes n y.toNat)
  have hkeel : ((s.beforeAtomic f.pb f.scope cs).atMemory f th pa n (x.map fun y => leBytes n y.toNat)).keel = s.keel := by
    rw [State.atMemory_eq, State.beforeAtomic_eq]
  obtain ⟨hold, hnew⟩ := me_atomic f.sp f.d v hkeel (hiss.trans (State.beforeAtomic_iss ..)) hme
  refine ⟨?_, othersKept_atomic _ _ _ hiss (State.ctx_atMemory _ _ _ _ _ _), hold, hnew,
    readsInto_afterAtomic_of _ _ _ (hiss.trans (State.beforeAtomic_iss ..)) (by rw [hme, State.regs_beforeAtomic]), ?_, ?_⟩
  · unfold t
    rw [State.afterAtomic_eq, State.atMemory_eq, State.beforeAtomic_eq]
  · rintro rfl
    exact (State.vers_afterAtomic ..).trans (State.vers_beforeAtomic s f.pb f.scope cs)
  · rintro y rfl
    obtain ⟨v, hvers, hcells, hsrc, hatm, hpubs⟩ :=
      (s.beforeAtomic f.pb f.scope cs).vers_atMemory f th pa (leBytes_length n y.toNat)
    rw [State.beforeAtomic_eq] at hcells hsrc hpubs
    exact ⟨v, by rw [State.vers_afterAtomic, Option.map_some, hvers, State.vers_beforeAtomic], hcells, hsrc, hatm, hpubs⟩

/-- R86: an atomic on the scratchpad. -/
theorem amos_at_spad {s : State} {f : AmosF} {n x : Nat} {cs : List (Nat × CellSt)} (v : Word) (new : Option (BitVec (8 * n)))
    (hrange : x + n ≤ 2 ^ 21) :
    let t := ((s.beforeAtomic f.pb .cell cs).atSpad x (new.map fun y => leBytes n y.toNat)).afterAtomic f.sp f.d v
    t = { s with ctxs := t.ctxs, vers := t.vers, spad := t.spad, late := t.late, psnSpad := t.psnSpad, cells := t.cells } ∧
    OthersKept s t s.iss.src ∧ t.vers = (if f.pb then s.publish s.iss.src .cell else s).vers ∧ ReadsInto s t f.d v ∧
    (new = none → t.spad = s.spad ∧ t.late = s.late) ∧
    ∀ y, new = some y → SpadWritten s t s.pathL s.myCell x (leBytes n y.toNat) := by
  intro t
  have hiss := State.iss_atSpad (s.beforeAtomic f.pb .cell cs) (new.map fun y => leBytes n y.toNat) x
  have hme := State.me_atSpad (s.beforeAtomic f.pb .cell cs) (new.map fun y => leBytes n y.toNat) x
  have hspad : (s.beforeAtomic f.pb .cell cs).spad = s.spad := by rw [State.beforeAtomic_eq]
  have hlate : (s.beforeAtomic f.pb .cell cs).late = s.late := by rw [State.beforeAtomic_eq]
  have ht : t.spad = ((s.beforeAtomic f.pb .cell cs).atSpad x (new.map fun y => leBytes n y.toNat)).spad := by
    unfold t; rw [State.afterAtomic_eq]
  have hl : t.late = ((s.beforeAtomic f.pb .cell cs).atSpad x (new.map fun y => leBytes n y.toNat)).late := by
    unfold t; rw [State.afterAtomic_eq]
  refine ⟨?_, othersKept_atomic _ _ _ hiss (State.ctx_atSpad _ _ _), ?_,
    readsInto_afterAtomic_of _ _ _ (hiss.trans (State.beforeAtomic_iss ..)) (by rw [hme, State.regs_beforeAtomic]), ?_, ?_⟩
  · unfold t
    rw [State.afterAtomic_eq, State.atSpad_eq, State.beforeAtomic_eq]
  · unfold t
    rw [State.vers_afterAtomic, State.atSpad_eq, State.vers_beforeAtomic]
  · rintro rfl
    exact ⟨ht.trans hspad, hl.trans hlate⟩
  · rintro y rfl
    have hwritten := spadWritten_spadWrite (s.beforeAtomic f.pb .cell cs) (p := (s.beforeAtomic f.pb .cell cs).pathL) rfl
      (s.beforeAtomic f.pb .cell cs).myCell (a := x) (bs := leBytes n y.toNat) (by rwa [leBytes_length])
    rw [← State.pathL_beforeAtomic s f.pb .cell cs,
      show s.myCell = (s.beforeAtomic f.pb .cell cs).myCell by rw [State.beforeAtomic_eq]; rfl]
    exact hwritten.congr hspad.symm hlate.symm ht

theorem KeepsRegs.me {s t : State} (h : KeepsRegs s t) : t.me.regs = s.me.regs := by
  rw [State.me, State.me, h.1]
  exact h.2 _

theorem leVal_leBytes_toNat {n : Nat} (x : BitVec (8 * n)) : leVal (leBytes n x.toNat) = x.toNat := by
  rw [leVal_leBytes, Nat.mod_eq_of_lt x.isLt]

/-- R241: an atomic on a device register. -/
theorem amo_at_register {s : State} {f : AmoF} {n pa : Nat} {cs : List (Nat × CellSt)} (v : Word) (new : Option (BitVec (8 * n))) :
    let u := s.beforeAtomic f.pb f.scope cs
    let t := (u.atRegister pa n (new.map fun y => leBytes n y.toNat)).afterAtomic f.sp f.d v
    ReadsInto s t f.d v ∧ (new = none → t = { u with ctxs := t.ctxs }) ∧
    ∀ x, new = some x → t = { u.devStore s.iss.src pa n x.toNat true with ctxs := t.ctxs } := by
  intro u t
  have hkeeps := keepsRegs_atRegister u pa n (new.map fun y => leBytes n y.toNat)
  refine ⟨readsInto_afterAtomic_of _ _ _ (hkeeps.1.trans (State.beforeAtomic_iss ..))
    (hkeeps.me.trans (State.regs_beforeAtomic s f.pb f.scope cs)), ?_, ?_⟩
  · rintro rfl
    exact State.afterAtomic_eq u f.sp f.d v
  · rintro x rfl
    have hstore : u.atRegister pa n (some (leBytes n x.toNat)) = u.devStore s.iss.src pa n x.toNat true := by
      rw [State.atRegister, leVal_leBytes_toNat]
      unfold u
      rw [State.beforeAtomic_iss]
    rw [← hstore]
    exact State.afterAtomic_eq (u.atRegister pa n (some (leBytes n x.toNat))) f.sp f.d v

/-- R362: an atomic on a peer's counter page. -/
theorem amo_at_peer {s : State} {f : AmoF} {cs : List (Nat × CellSt)} (v : Word) :
    let t := ({ s.beforeAtomic f.pb f.scope cs with choices := s.choices + 1 } : State).afterAtomic f.sp f.d v
    t = { s with
      ctxs := t.ctxs, vers := (if f.pb then s.publish s.iss.src f.scope else s).vers, cells := t.cells, choices := t.choices } ∧
    ReadsInto s t f.d v := by
  intro t
  refine ⟨?_, readsInto_afterAtomic_of _ _ _ (State.beforeAtomic_iss s f.pb f.scope cs) ?_⟩
  · unfold t
    rw [State.afterAtomic_eq, State.beforeAtomic_eq]
  · exact State.regs_beforeAtomic s f.pb f.scope cs

/-- Settles O25: an atomic acts between the publishing before it and the new phase after it, at each kind of page and on the
scratchpad. -/
theorem atomics : Obligations.Atomics := by
  refine ⟨?_, ?_, ?_⟩
  · intro s f c i op hi n pa p b old new husable hmem halign hheld hlater hpoison hpub hbound
    have hb : f.pb = true ∨ f.sp = true → s.me.lastB ≤ s.keel := fun h => hbound (decide_eq_true h)
    obtain ⟨cs, hexec⟩ := amo_of_memory (op := op) rfl rfl husable halign hheld hlater hpub hb hmem hpoison
    obtain ⟨hframe, hothers, hold, hnew, ⟨hsame, hother⟩, hnone, hsome⟩ :=
      amo_at_memory (s := s) (f := f) (pa := pa) (cs := cs) (th := s.me.teth f.th) (old.signExtend 64) new
    exact ⟨_, (exec_of_mem_amoOps hi).trans hexec, hframe, hothers, hold, hnew, hsame, hother, hnone, hsome⟩
  · intro s f c i op hi n x old new
    rw [exec_of_mem_amosOps hi]
    refine ⟨fun h => ?_, fun halign husable hheld hpoison hpub hbound => ?_⟩
    · rw [amos]
      exact if_pos h
    · obtain ⟨cs, hexec⟩ := amos_of_ready (op := op) rfl rfl halign husable hheld hpoison hpub hbound
      obtain ⟨hframe, hothers, hvers, ⟨hsame, hother⟩, hnone, hsome⟩ :=
        amos_at_spad (s := s) (f := f) (cs := cs) (old.signExtend 64) new (husable.1.trans (by decide))
      exact ⟨_, hexec, hframe, hothers, hvers, hsame, hother, hnone, hsome⟩
  · intro s f c i op hi n pa p old new reads husable
    rw [exec_of_mem_amoOps hi]
    refine ⟨amo_of_misaligned rfl rfl husable, fun halign hheld hlater hpub hbound => ⟨fun hreg => ?_, fun hpeer hup => ?_⟩⟩
    · obtain ⟨cs, hexec⟩ := amo_of_register (op := op) rfl rfl husable halign hheld hlater hpub hbound hreg
      exact ⟨_, s.beforeAtomic f.pb f.scope cs, hexec, State.beforeAtomic_eq .., amo_at_register (old.signExtend 64) new⟩
    · obtain ⟨cs, v, hexec⟩ := amo_of_peer (op := op) rfl rfl husable halign hheld hlater hpub hbound hpeer hup
      exact ⟨_, v, hexec, amo_at_peer v⟩

end Sys2Proof.Machine
end

section
/-! Rounding into a format (R99, R100): what `roundInt` gives in each mode, that a format's codes stand in the order of the magnitudes
they encode, and that a value read from a code rounds back to that code. -/

namespace Sys2Proof

open Machine

-- The length of a magnitude.

theorem bitLen_le {m n : Nat} (h : m < 2 ^ n) : bitLen m ≤ n := by
  unfold bitLen
  split
  · omega
  · next hm => exact (Nat.log2_lt hm).2 h

theorem bitLen_eq {m n : Nat} (hlow : 2 ^ n ≤ m) (hhigh : m < 2 ^ (n + 1)) : bitLen m = n + 1 := by
  have hm : m ≠ 0 := ((Nat.two_pow_pos n).trans_le hlow).ne'
  rw [bitLen, if_neg hm, (Nat.log2_eq_iff hm).2 ⟨hlow, hhigh⟩]

-- Rounding a magnitude to a whole number (R99).

@[simp] theorem roundInt_shift_zero (rm : RM) (neg : Bool) (m : Nat) : roundInt rm neg m 0 false = m := by
  cases rm <;> simp [roundInt, Nat.mod_one]

@[simp] theorem roundInt_rz (neg : Bool) (m k : Nat) : roundInt .rz neg m k false = m / 2 ^ k := by
  simp [roundInt]

/-- A magnitude rounded away from zero: how `rup` rounds a positive number and `rdn` a negative one. -/
def roundAway (m k : Nat) : Nat := if m % 2 ^ k = 0 then m / 2 ^ k else m / 2 ^ k + 1

@[simp] theorem roundInt_rup (neg : Bool) (m k : Nat) :
    roundInt .rup neg m k false = if neg then m / 2 ^ k else roundAway m k := by
  cases neg <;> simp [roundInt, roundAway]

@[simp] theorem roundInt_rdn (neg : Bool) (m k : Nat) :
    roundInt .rdn neg m k false = if neg then roundAway m k else m / 2 ^ k := by
  cases neg <;> simp [roundInt, roundAway]

theorem roundInt_bounds (rm : RM) (neg : Bool) (m k : Nat) :
    m / 2 ^ k ≤ roundInt rm neg m k false ∧ roundInt rm neg m k false ≤ m / 2 ^ k + 1 := by
  have hstep (up : Bool) (q : Nat) : q ≤ (if up then q + 1 else q) ∧ (if up then q + 1 else q) ≤ q + 1 := by cases up <;> simp
  exact hstep _ _

theorem cast_roundAway (m k : Nat) : (roundAway m k : Int) = -(-(m : Int) / 2 ^ k) := by
  have hpos : (0 : Int) < 2 ^ k := by positivity
  have hm : (2 : Int) ^ k * ((m / 2 ^ k : Nat) : Int) + ((m % 2 ^ k : Nat) : Int) = m := mod_cast Nat.div_add_mod m (2 ^ k)
  have hlt : ((m % 2 ^ k : Nat) : Int) < 2 ^ k := mod_cast Nat.mod_lt m (Nat.two_pow_pos k)
  rw [eq_neg_iff_add_eq_zero, add_comm, ← eq_neg_iff_add_eq_zero, Int.ediv_eq_iff_of_pos hpos]
  unfold roundAway
  split
  · next hr =>
    rw [hr] at hm
    constructor <;> push_cast at * <;> linarith
  · next hr =>
    have hrem : (0 : Int) < ((m % 2 ^ k : Nat) : Int) := by omega
    constructor <;> push_cast at * <;> linarith

theorem roundInt_rz_bounds (neg : Bool) (m k : Nat) :
    (roundInt .rz neg m k false : Int) * 2 ^ k ≤ m ∧ (m : Int) < roundInt .rz neg m k false * 2 ^ k + 2 ^ k := by
  rw [roundInt_rz]
  have hm := Nat.div_add_mod' m (2 ^ k)
  have hlt := Nat.mod_lt m (Nat.two_pow_pos k)
  norm_cast
  omega

/-- To nearest: the lower neighbour below the half, the upper one above it, and at the half the one that is even. -/
theorem roundInt_rne_succ (neg : Bool) (m k : Nat) :
    roundInt .rne neg m (k + 1) false =
      if 2 ^ k < m % 2 ^ (k + 1) ∨ m % 2 ^ (k + 1) = 2 ^ k ∧ m / 2 ^ (k + 1) % 2 = 1 then m / 2 ^ (k + 1) + 1
      else m / 2 ^ (k + 1) := by
  simp [roundInt]

theorem roundInt_rne_near (neg : Bool) (m k : Nat) :
    2 * |(roundInt .rne neg m k false : Int) * 2 ^ k - m| ≤ 2 ^ k ∧
      (2 * |(roundInt .rne neg m k false : Int) * 2 ^ k - m| = 2 ^ k → k ≠ 0 → roundInt .rne neg m k false % 2 = 0) := by
  cases k with
  | zero => simp
  | succ k =>
    have hm : ((m / 2 ^ (k + 1) : Nat) : Int) * 2 ^ (k + 1) + ((m % 2 ^ (k + 1) : Nat) : Int) = m :=
      mod_cast Nat.div_add_mod' m (2 ^ (k + 1))
    have hlt : m % 2 ^ (k + 1) < 2 ^ (k + 1) := Nat.mod_lt m (Nat.two_pow_pos _)
    have hhalf : 2 ^ (k + 1) = 2 * 2 ^ k := pow_succ' 2 k
    have hhalf' : (2 : Int) ^ (k + 1) = 2 * 2 ^ k := pow_succ' 2 k
    have hcast : (2 : Int) ^ k = ((2 ^ k : Nat) : Int) := by push_cast; rfl
    rw [roundInt_rne_succ]
    split
    · next hup =>
      have hdist : ((m / 2 ^ (k + 1) + 1 : Nat) : Int) * 2 ^ (k + 1) - m = 2 ^ (k + 1) - ((m % 2 ^ (k + 1) : Nat) : Int) := by
        push_cast at hm ⊢; linarith
      rw [hdist, abs_of_nonneg (by omega)]
      omega
    · next hdown =>
      have hdist : ((m / 2 ^ (k + 1) : Nat) : Int) * 2 ^ (k + 1) - m = -((m % 2 ^ (k + 1) : Nat) : Int) := by linarith
      rw [hdist, abs_neg, Nat.abs_cast]
      omega

-- Codes and the magnitudes they encode.

theorem Fmt.code_eq (f : Fmt) {r : Nat} {q : Int} (hq : f.low ≤ q) (hlow : 2 ^ f.mw ≤ r) :
    f.code r q = (q - f.low).toNat * 2 ^ f.mw + r := by
  have htwo : 2 ^ (f.mw + 1) = 2 * 2 ^ f.mw := pow_succ' 2 f.mw
  unfold Fmt.code
  rw [if_neg (by omega)]
  split
  · next hr =>
    rw [show (q - f.low + 2).toNat = (q - f.low).toNat + 2 by omega, Nat.add_mul]
    omega
  · rw [show (q - f.low + 1).toNat = (q - f.low).toNat + 1 by omega, Nat.add_mul]
    omega

/-- The largest finite magnitude of a format is the whole number `r × 2^k`, with `r` of the format's precision. -/
structure Fmt.TopIs (f : Fmt) (r k : Nat) : Prop where
  low_nonpos : f.low ≤ 0
  le_mant : 2 ^ f.mw ≤ r
  mant_lt : r < 2 ^ (f.mw + 1)
  top_eq : f.top = f.code r k

/-- A larger exponent outweighs any significand of one precision, in the values and in their codes. -/
theorem scaled_le_of_exponent_lt {p r r' k k' a : Nat} (hk : k < k') (hr : r ≤ 2 * p) (hr' : p ≤ r') :
    r * 2 ^ k ≤ r' * 2 ^ k' ∧ (k + a) * p + r ≤ (k' + a) * p + r' := by
  constructor
  · calc r * 2 ^ k ≤ 2 * p * 2 ^ k := Nat.mul_le_mul_right _ hr
      _ = p * 2 ^ (k + 1) := by ring
      _ ≤ r' * 2 ^ k' := Nat.mul_le_mul hr' (Nat.pow_le_pow_right (by omega) hk)
  · have h : (k + a + 1) * p ≤ (k' + a) * p := Nat.mul_le_mul_right p (by omega)
    rw [Nat.add_mul _ 1] at h
    omega

theorem scaled_lt_of_exponent_lt {p r r' k k' a : Nat} (hk : k < k') (hr : r < 2 * p) (hr' : p ≤ r') :
    r * 2 ^ k < r' * 2 ^ k' ∧ (k + a) * p + r < (k' + a) * p + r' := by
  obtain ⟨hval, hord⟩ := scaled_le_of_exponent_lt (a := a) hk (Nat.succ_le_of_lt hr) hr'
  exact ⟨(Nat.mul_lt_mul_of_pos_right r.lt_succ_self (Nat.two_pow_pos k)).trans_le hval, by omega⟩

theorem Fmt.TopIs.top_lt_code_iff {f : Fmt} {t e r k : Nat} (h : f.TopIs t e) (hlow : 2 ^ f.mw ≤ r) (hhigh : r ≤ 2 ^ (f.mw + 1)) :
    f.top < f.code r k ↔ t * 2 ^ e < r * 2 ^ k := by
  obtain ⟨hneg, hmin, hmax, htop⟩ := h
  obtain ⟨a, ha⟩ := Int.exists_eq_neg_ofNat hneg
  have hcode (x y : Nat) (hx : 2 ^ f.mw ≤ x) : f.code x y = (y + a) * 2 ^ f.mw + x := by
    rw [f.code_eq (by omega) hx, ha, show ((y : Int) - -(a : Int)).toNat = y + a by omega]
  rw [htop, hcode t e hmin, hcode r k hlow]
  rw [pow_succ'] at hhigh hmax
  rcases lt_trichotomy k e with hk | rfl | hk
  · obtain ⟨hval, hord⟩ := scaled_le_of_exponent_lt (a := a) hk hhigh hmin
    omega
  · rw [Nat.mul_lt_mul_right (Nat.two_pow_pos k), Nat.add_lt_add_iff_left]
  · obtain ⟨hval, hord⟩ := scaled_lt_of_exponent_lt (a := a) hk hmax hlow
    omega

-- A whole number with more bits than the format's precision.

theorem roundInt_mant_bounds {m k w : Nat} (rm : RM) (neg : Bool) (hlow : 2 ^ (k + w) ≤ m) (hhigh : m < 2 ^ (k + w + 1)) :
    2 ^ w ≤ roundInt rm neg m k false ∧ roundInt rm neg m k false ≤ 2 ^ (w + 1) := by
  obtain ⟨hdown, hup⟩ := roundInt_bounds rm neg m k
  have hq : 2 ^ w ≤ m / 2 ^ k := (Nat.le_div_iff_mul_le (Nat.two_pow_pos k)).2 (by rwa [← pow_add, Nat.add_comm])
  have hq' : m / 2 ^ k < 2 ^ (w + 1) := by
    rwa [Nat.div_lt_iff_lt_mul (Nat.two_pow_pos k), ← pow_add, Nat.add_comm, ← Nat.add_assoc]
  omega

theorem Fmt.round_whole {f : Fmt} {m k : Nat} (rm : RM) (sat neg : Bool) (hneg : f.low ≤ 0) (hlow : 2 ^ (k + f.mw) ≤ m)
    (hhigh : m < 2 ^ (k + f.mw + 1)) :
    f.round rm sat (.fin neg m 0 false) =
      if f.top < f.code (roundInt rm neg m k false) k then f.overflow rm sat neg
      else (f.sign neg + f.code (roundInt rm neg m k false) k, 0) := by
  have hq : max f.low ((bitLen m : Int) + 0 - 1 - f.mw) = k := by rw [bitLen_eq hlow hhigh]; omega
  have hround : roundAt rm neg m 0 k false = roundInt rm neg m k false := by
    cases k with
    | zero => simp [roundAt]
    | succ k => rw [roundAt, if_neg (by omega)]; simp
  simp only [Fmt.round, hq, hround]

/-- R100: a whole number overflows exactly where, rounded without a bound on the exponent, it is above the largest finite value. -/
theorem Fmt.TopIs.round_whole {f : Fmt} {t e m k : Nat} (h : f.TopIs t e) (rm : RM) (sat neg : Bool) (hlow : 2 ^ (k + f.mw) ≤ m)
    (hhigh : m < 2 ^ (k + f.mw + 1)) :
    (t * 2 ^ e < roundInt rm neg m k false * 2 ^ k → f.round rm sat (.fin neg m 0 false) = f.overflow rm sat neg) ∧
      (roundInt rm neg m k false * 2 ^ k ≤ t * 2 ^ e → (f.round rm sat (.fin neg m 0 false)).2 = 0) := by
  obtain ⟨hmant, hmant'⟩ := roundInt_mant_bounds rm neg hlow hhigh
  have hiff := h.top_lt_code_iff (k := k) hmant hmant'
  rw [Fmt.round_whole rm sat neg h.low_nonpos hlow hhigh]
  exact ⟨fun habove => if_pos (hiff.2 habove), fun hbelow => by rw [if_neg (mt hiff.1 hbelow.not_gt)]⟩

theorem fp32_topIs : fp32.TopIs (2 ^ 24 - 1) 104 := ⟨by decide, by decide, by decide, by decide⟩
theorem fp16_topIs : fp16.TopIs 2047 5 := ⟨by decide, by decide, by decide, by decide⟩
theorem fpB16_topIs : fpB16.TopIs 255 120 := ⟨by decide, by decide, by decide, by decide⟩
theorem fpE4M3_topIs : fpE4M3.TopIs 14 5 := ⟨by decide, by decide, by decide, by decide⟩
theorem fpE5M2_topIs : fpE5M2.TopIs 7 13 := ⟨by decide, by decide, by decide, by decide⟩

/-- The largest finite values of R90. -/
theorem topIs_of_mem : ∀ p ∈ [(fp32, (2 ^ 24 - 1) * 2 ^ 104), (fp16, 65504), (fpB16, 255 * 2 ^ 120), (fpE4M3, 448), (fpE5M2, 57344)],
    ∃ t e, p.2 = t * 2 ^ e ∧ p.1.TopIs t e := by
  simp only [List.forall_mem_cons]
  exact ⟨⟨_, _, rfl, fp32_topIs⟩, ⟨_, _, rfl, fp16_topIs⟩, ⟨_, _, rfl, fpB16_topIs⟩, ⟨_, _, rfl, fpE4M3_topIs⟩,
    ⟨_, _, rfl, fpE5M2_topIs⟩, List.forall_mem_nil _⟩

-- A value read from a code (R90, R91).

theorem Fmt.round_subnormal {f : Fmt} {m : Nat} (rm : RM) (sat neg : Bool) (hm : m < 2 ^ f.mw) (htop : m ≤ f.top) :
    f.round rm sat (.fin neg m f.low false) = (f.sign neg + m, 0) := by
  have hq : max f.low ((bitLen m : Int) + f.low - 1 - f.mw) = f.low := by have := bitLen_le hm; omega
  have hcode : f.code m f.low = m := if_pos hm
  simp only [Fmt.round, hq, roundAt, le_refl, if_true, sub_self, Int.toNat_zero, pow_zero, mul_one, hcode, if_neg htop.not_gt]

theorem Fmt.round_normal {f : Fmt} {ex m : Nat} (rm : RM) (sat neg : Bool) (hex : 0 < ex) (hm : m < 2 ^ f.mw)
    (htop : ex * 2 ^ f.mw + m ≤ f.top) :
    f.round rm sat (.fin neg (2 ^ f.mw + m) ((ex : Int) + f.low - 1) false) = (f.sign neg + (ex * 2 ^ f.mw + m), 0) := by
  have htwo : 2 ^ (f.mw + 1) = 2 * 2 ^ f.mw := pow_succ' 2 f.mw
  have hq : max f.low ((bitLen (2 ^ f.mw + m) : Int) + ((ex : Int) + f.low - 1) - 1 - f.mw) = (ex : Int) + f.low - 1 := by
    rw [bitLen_eq (Nat.le_add_right _ m) (by omega)]; omega
  have hcode : f.code (2 ^ f.mw + m) ((ex : Int) + f.low - 1) = ex * 2 ^ f.mw + m := by
    obtain ⟨x, rfl⟩ := Nat.exists_eq_succ_of_ne_zero hex.ne'
    rw [f.code_eq (by omega) (Nat.le_add_right _ m), show (((x.succ : Nat) : Int) + f.low - 1 - f.low).toNat = x by omega,
      Nat.succ_mul, Nat.add_assoc]
  simp only [Fmt.round, hq, roundAt, le_refl, if_true, sub_self, Int.toNat_zero, pow_zero, mul_one, hcode, if_neg htop.not_gt]

theorem Fmt.sign_add_mag (f : Fmt) {c : Nat} (hc : c < 2 ^ f.w) :
    f.sign (decide (bitsOf c (f.w - 1) 1 = 1)) + c % 2 ^ (f.w - 1) = c := by
  have hw : 2 ^ f.w = 2 * 2 ^ (f.w - 1) := by rw [← pow_succ', Nat.sub_add_cancel (by unfold Fmt.w; omega)]
  have hbit : c / 2 ^ (f.w - 1) < 2 := (Nat.div_lt_iff_lt_mul (Nat.two_pow_pos _)).2 (hw ▸ hc)
  have hb : b2n (decide (bitsOf c (f.w - 1) 1 = 1)) = c / 2 ^ (f.w - 1) := by
    rw [bitsOf, pow_one, Nat.mod_eq_of_lt hbit]
    rcases Nat.le_one_iff_eq_zero_or_eq_one.1 (Nat.lt_succ_iff.1 hbit) with h | h <;> rw [h] <;> rfl
  rw [Fmt.sign, hb, Nat.div_add_mod']

/-- R90: in every format, the value of a code that is no NaN rounds to that code and sets no flag. -/
theorem Fmt.round_num (f : Fmt) (rm : RM) (sat : Bool) {c : Nat} (hc : c < 2 ^ f.w) (hnan : (f.num c).isNan = false) :
    f.round rm sat (f.num c) = (c, 0) := by
  have hsign := f.sign_add_mag hc
  have hmag := Nat.div_add_mod' (c % 2 ^ (f.w - 1)) (2 ^ f.mw)
  have hm := Nat.mod_lt (c % 2 ^ (f.w - 1)) (Nat.two_pow_pos f.mw)
  unfold Fmt.num at hnan ⊢
  dsimp only at hnan ⊢
  generalize c % 2 ^ (f.w - 1) = mag at *
  generalize decide (bitsOf c (f.w - 1) 1 = 1) = neg at *
  split at hnan
  · next hinf => rw [if_pos hinf]; simp only [Fmt.round, hinf, hsign]
  next hinf =>
  rw [if_neg hinf]
  split at hnan
  · cases hnan
  next htop =>
  rw [if_neg htop]
  split
  · next hex =>
    rw [hex, Nat.zero_mul, Nat.zero_add] at hmag
    rw [hmag] at hm ⊢
    split
    · next hzero => rw [hzero] at hsign; exact congrArg (·, 0) hsign
    · rw [Fmt.round_subnormal rm sat neg hm (Nat.le_of_not_lt htop), hsign]
  · next hex => rw [Fmt.round_normal rm sat neg (Nat.pos_of_ne_zero hex) hm (by omega), hmag, hsign]

-- What an overflow and an infinity are written as (R100).

theorem Fmt.overflow_sat (f : Fmt) (rm : RM) (neg : Bool) : f.overflow rm true neg = (f.sign neg + f.top, fOF) := rfl

/-- The infinity of an overflow, or the NaN of a format that has none. -/
def Fmt.overflowInf (f : Fmt) (neg : Bool) : Nat × NFlags :=
  f.infCode.elim (f.nanCode, fOF ||| fNP) fun i => (f.sign neg + i, fOF)

/-- Whether a mode rounds an overflowing magnitude away from zero. -/
def RM.overflowsToInf (rm : RM) (neg : Bool) : Bool :=
  match rm with
  | .rne => true
  | .rz => false
  | .rdn => neg
  | .rup => !neg

theorem Fmt.overflow_unsat (f : Fmt) (rm : RM) (neg : Bool) :
    f.overflow rm false neg = if rm.overflowsToInf neg then f.overflowInf neg else (f.sign neg + f.top, fOF) := by
  unfold Fmt.overflow Fmt.overflowInf
  cases f.infCode <;> rfl

theorem Fmt.round_inf_of_some {f : Fmt} {i : Nat} (rm : RM) (sat neg : Bool) (h : f.infCode = some i) :
    f.round rm sat (.inf neg) = (f.sign neg + i, 0) := by
  simp only [Fmt.round, h]

theorem Fmt.round_inf_of_none {f : Fmt} (rm : RM) (sat neg : Bool) (h : f.infCode = none) :
    (f.round rm sat (.inf neg)).1 = if sat then f.sign neg + f.top else f.nanCode := by
  simp only [Fmt.round, h]
  cases sat <;> rfl

-- Zeros (R101).

theorem sgn_not (a : Bool) (m : Nat) : sgn (!a) m = -sgn a m := by
  cases a <;> simp [sgn]

/-- x − x is +0, and −0 where the mode rounds down. -/
theorem Num.add_opposite (rm : RM) (a x y : Bool) (m : Nat) (e : Int) :
    Num.add rm (.fin a m e x) (.fin (!a) m e y) = (.zero (decide (rm = .rdn)), false) := by
  simp [Num.add, Num.ofScaled, sgn_not]

/-- Settles O32. A code's value rounds back to it (`Fmt.round_num`); the distances are those of `roundInt` in each mode; a number
overflows as `Fmt.TopIs.round_whole` says, since codes stand in the order of their magnitudes. -/
theorem roundingOnce : Obligations.RoundingOnce := by
  unfold Obligations.RoundingOnce
  refine ⟨fun f _ rm sat c hc hnan => f.round_num rm sat hc hnan, fun neg m k => ?_, fun f _ neg => ?_,
    fun p hp rm sat neg m k hlow hhigh => ?_, fun rm a b x y m e => ?_⟩
  · obtain ⟨hnear, heven⟩ := roundInt_rne_near neg m k
    obtain ⟨hle, hlt⟩ := roundInt_rz_bounds neg m k
    refine ⟨hnear, heven, hle, hlt, ?_, ?_⟩ <;> cases neg <;> simp [← cast_roundAway]
  · refine ⟨f.overflow_unsat .rne neg, f.overflow_unsat .rz neg, f.overflow_unsat .rdn neg, 
      (f.overflow_unsat .rup neg).trans (by cases neg <;> rfl), fun rm => ⟨f.overflow_sat rm neg, fun sat =>
        ⟨fun i hi => Fmt.round_inf_of_some rm sat neg hi, Fmt.round_inf_of_none rm sat neg⟩⟩⟩
  · obtain ⟨t, e, htop, h⟩ := topIs_of_mem p hp
    dsimp only
    rw [htop]
    exact h.round_whole rm sat neg hlow hhigh
  · exact ⟨rfl, Num.add_opposite rm a x y m e, by cases a <;> rfl, rfl, rfl, rfl, rfl, rfl, rfl, rfl, rfl, rfl⟩

end Sys2Proof
end

section
/-! What an execute instruction does where its operands are there (R23 to R25, R36, R37, R121): the read pops the queues and sets the
latches; the write of a vector reaches the included lanes of its destination. An instruction that reads so, and writes its results so,
is a `VectorOp`. -/

namespace Sys2Proof.Machine

-- The read of the operands.

/-- The vectors of operand A: what its latch holds, or the group of `g` that its source names. -/
def State.opndVecs (s : State) (w g : Nat) : Opnd → List Row
  | .held => [(s.me.latchA.map (·.row)).getD 0]
  | .from x => (List.range g).map fun i => s.vecOf w i x

@[simp] theorem State.headD_opndVecs_one (s : State) (w : Nat) (a : Opnd) :
    (s.opndVecs w 1 a).headD 0 = s.opndVec w 0 s.me.latchA a := by
  cases a <;> rfl

/-- The state as the read of the operands leaves it. -/
def State.opsRead (s : State) (g : Nat) (a : Opnd) (b : Option Opnd) (wa wb : Nat) : State :=
  s.modMe fun c => { c.popAll s.keel (queueNeeds g a b) with
    latchA := ((srcOf a).map fun x => s.latchOf wa g x).orElse fun _ => c.latchA
    latchB := ((b.bind srcOf).map fun x => s.latchOf wb 1 x).orElse fun _ => c.latchB }

theorem State.readOps_of_ready {s : State} {g : Nat} {a : Opnd} {b : Option Opnd} {also : Option Dst} {push : List (BitVec 2 × Nat)}
    (h : s.opsReady g a b also push) (wa wb : Nat) (k : List Row → Row → State → State) :
    s.readOps g a b wa wb also push k =
      k (s.opndVecs wa g a) (b.elim 0 fun x => s.opndVec wb 0 s.me.latchB x) (s.opsRead g a b wa wb) := by
  obtain ⟨hfilled, hpush, ha, hb, hclean, hcleanB, hcleanD⟩ := h
  have hslots := State.no_slot_awaited hfilled
  rw [queueNeeds] at hslots
  simp only [State.readOps, hslots, State.no_push_awaited hpush]
  rw [if_neg (by simpa using ⟨ha, hb⟩), if_neg]
  · cases a <;> rcases b with _ | _ | _ <;> rfl
  · simpa [Option.any_eq_true, or_assoc] using ⟨hclean, hcleanB, hcleanD⟩

-- The queues and latches after the read.

theorem Ctx.lq_setLq (c : Ctx) (a b : BitVec 2) (v : Queue) : (c.setLq a v).lq b = if a = b then v else c.lq b := by
  simpa [Ctx.setQueue, Ctx.queue] using Ctx.queue_setQueue c ⟨false, a⟩ ⟨false, b⟩ v

theorem Ctx.sq_setSq (c : Ctx) (a b : BitVec 2) (v : Queue) : (c.setSq a v).sq b = if a = b then v else c.sq b := by
  simpa [Ctx.setQueue, Ctx.queue] using Ctx.queue_setQueue c ⟨true, a⟩ ⟨true, b⟩ v

theorem Ctx.popAll_rest (c : Ctx) (keel : Nat) (l : List (BitVec 2 × Nat × Bool)) :
    c.popAll keel l = { c with lqs := (c.popAll keel l).lqs } := rfl

theorem Ctx.lq_popAll (c : Ctx) (keel : Nat) (l : List (BitVec 2 × Nat × Bool)) (q : BitVec 2) :
    (c.popAll keel l).lq q = (c.lq q).drop (popOf l q) keel := by
  have hq : q = 0 ∨ q = 1 ∨ q = 2 ∨ q = 3 := by revert q; decide
  rcases hq with rfl | rfl | rfl | rfl <;> simp [Ctx.popAll, List.range_succ, Ctx.lq_setLq]

section
variable (s : State) (g : Nat) (a : Opnd) (b : Option Opnd) (wa wb : Nat)

theorem State.me_opsRead : (s.opsRead g a b wa wb).me = { s.me.popAll s.keel (queueNeeds g a b) with
    latchA := ((srcOf a).map fun x => s.latchOf wa g x).orElse fun _ => s.me.latchA
    latchB := ((b.bind srcOf).map fun x => s.latchOf wb 1 x).orElse fun _ => s.me.latchB } :=
  State.me_modMe ..

@[simp] theorem State.iss_opsRead : (s.opsRead g a b wa wb).iss = s.iss := rfl
@[simp] theorem State.keel_opsRead : (s.opsRead g a b wa wb).keel = s.keel := rfl
@[simp] theorem State.grid_opsRead : (s.opsRead g a b wa wb).me.grid = s.me.grid := by rw [State.me_opsRead]; rfl
@[simp] theorem State.sqs_opsRead : (s.opsRead g a b wa wb).me.sqs = s.me.sqs := by rw [State.me_opsRead]; rfl
@[simp] theorem State.masks_opsRead : (s.opsRead g a b wa wb).me.masks = s.me.masks := by rw [State.me_opsRead]; rfl
@[simp] theorem State.nflags_opsRead : (s.opsRead g a b wa wb).me.nflags = s.me.nflags := by rw [State.me_opsRead]; rfl

theorem State.lqs_opsRead : (s.opsRead g a b wa wb).me.lqs = (s.me.popAll s.keel (queueNeeds g a b)).lqs := by rw [State.me_opsRead]
theorem State.lq_opsRead (q : BitVec 2) :
    (s.opsRead g a b wa wb).me.lq q = (s.me.lq q).drop (popOf (queueNeeds g a b) q) s.keel := by
  rw [Ctx.lq, State.lqs_opsRead, ← Ctx.lq, Ctx.lq_popAll]

@[simp] theorem State.mask_opsRead (m : BitVec 3) : (s.opsRead g a b wa wb).me.mask m = s.me.mask m := by simp [Ctx.mask]
@[simp] theorem State.lanes_opsRead : (s.opsRead g a b wa wb).lanes = s.lanes := by simp [State.lanes]
@[simp] theorem State.row_opsRead (i : Nat) : (s.opsRead g a b wa wb).me.row i = s.me.row i := by simp [Ctx.row]
@[simp] theorem State.gridVec_opsRead (k : BitVec 4) (d : Dst) :
    (s.opsRead g a b wa wb).me.gridVec k d = s.me.gridVec k d := by simp [Ctx.gridVec]

theorem opsTaken_opsRead : OpsTaken s (s.opsRead g a b wa wb) g wa wb a b := by
  refine ⟨rfl, fun n hn => by simp [State.opsRead, State.modMe, Ne.symm hn], ?_, fun q => ?_, ?_, ?_⟩
  · rw [State.me_opsRead, Ctx.popAll_rest]
  · rw [State.lq_opsRead, Queue.drop]
  · rw [State.me_opsRead]
  · rw [State.me_opsRead]

end

-- What may follow the read: updates of the thread's grid, masks, store queues and flags.

section
variable {s u : State} {g w wb : Nat} {a : Opnd} {b : Option Opnd} (h : OpsTaken s u g w wb a b)
include h

theorem OpsTaken.iss_eq : u.iss = s.iss := (congrArg State.iss h.1 :)

theorem OpsTaken.modMe {f : Ctx → Ctx}
    (hf : ∀ c, f c = { c with grid := (f c).grid, masks := (f c).masks, sqs := (f c).sqs, nflags := (f c).nflags }) :
    OpsTaken s (u.modMe f) g w wb a b := by
  have hiss := h.iss_eq
  obtain ⟨hstate, hothers, hme, hlqs, hA, hB⟩ := h
  have hme' : (u.modMe f).me = { s.me with
      grid := (u.modMe f).me.grid, masks := (u.modMe f).me.masks, lqs := (u.modMe f).me.lqs, sqs := (u.modMe f).me.sqs
      latchA := (u.modMe f).me.latchA, latchB := (u.modMe f).me.latchB, nflags := (u.modMe f).me.nflags } := by
    rw [State.me_modMe, hf, hme]
  have hkept : (u.modMe f).me.lqs = u.me.lqs ∧ (u.modMe f).me.latchA = u.me.latchA ∧ (u.modMe f).me.latchB = u.me.latchB := by
    rw [State.me_modMe, hf]; exact ⟨rfl, rfl, rfl⟩
  obtain ⟨hl, hla, hlb⟩ := hkept
  refine ⟨?_, fun n hn => ?_, hme', fun q => ?_, hla.trans hA, hlb.trans hB⟩
  · rw [State.modMe, State.modCtx, State.setCtx, hstate]
  · rw [← hothers n hn, State.modMe, hiss]
    simp [Ne.symm hn]
  · rw [← hlqs q, Ctx.lq, Ctx.lq, hl]

theorem OpsTaken.cleanRow (d : Dst) (m : BitVec 48) : OpsTaken s (u.cleanRow d m) g w wb a b := by
  obtain ⟨hstate, hrest⟩ := h
  cases d
  case row => exact ⟨by rw [State.cleanRow, hstate], hrest⟩
  all_goals exact ⟨hstate, hrest⟩

end

-- The words that a write of a vector to the grid reaches (R36).

/-- No two lanes of a destination share a word. -/
theorem gridAt_injective {k : BitVec 4} {d : Dst} {i j : Nat} (h : gridAt k d i = gridAt k d j) : i = j := by
  cases d
  case row | queue => exact congrArg Prod.snd h
  case col | diag => exact congrArg Prod.fst h

/-- Lane `j` of a vector written to the grid where the mask includes it: one lane of `Ctx.putVec`. -/
def Ctx.putLane (k : BitVec 4) (d : Dst) (m : BitVec 48) (v : Row) (c : Ctx) (j : Nat) : Ctx :=
  if m.getLsbD j then c.setRow (gridAt k d j).1 (rowSetWord (c.row (gridAt k d j).1) (gridAt k d j).2 (rowWord v j)) else c

theorem Ctx.putVec_eq (c : Ctx) (k : BitVec 4) (d : Dst) (m : BitVec 48) (v : Row) :
    c.putVec k d m v = (List.range 48).foldl (Ctx.putLane k d m v) c := rfl

section
variable (c : Ctx) (k : BitVec 4) (d : Dst) (m : BitVec 48) (v : Row)

theorem Ctx.putLane_rest (j : Nat) : Ctx.putLane k d m v c j = { c with grid := (Ctx.putLane k d m v c j).grid } := by
  unfold Ctx.putLane; split <;> rfl

theorem Ctx.putVec_rest : c.putVec k d m v = { c with grid := (c.putVec k d m v).grid } := by
  rw [Ctx.putVec_eq]
  induction List.range 48 generalizing c with
  | nil => rfl
  | cons j l ih => rw [List.foldl_cons, ih, Ctx.putLane_rest]

theorem Ctx.rowWord_row_putLane (j : Nat) {r i : Nat} (hr : r < 48) (hi : i < 48) :
    rowWord ((Ctx.putLane k d m v c j).row r) i =
      if gridAt k d j = (r, i) ∧ m.getLsbD j = true then rowWord v j else rowWord (c.row r) i := by
  unfold Ctx.putLane
  by_cases hm : m.getLsbD j = true
  · rw [if_pos hm, Ctx.row_setRow, apply_ite (rowWord · i), rowWord_rowSetWord _ _ _ _ hi]
    grind
  · rw [if_neg hm, if_neg (fun h => hm h.2)]

theorem Ctx.rowWord_row_foldl_putLane_other {r i : Nat} (hr : r < 48) (hi : i < 48) (l : List Nat)
    (h : ∀ j ∈ l, ¬ (gridAt k d j = (r, i) ∧ m.getLsbD j = true)) :
    rowWord ((l.foldl (Ctx.putLane k d m v) c).row r) i = rowWord (c.row r) i := by
  induction l generalizing c with
  | nil => rfl
  | cons j l ih =>
    obtain ⟨hj, hl⟩ := List.forall_mem_cons.1 h
    rw [List.foldl_cons, ih _ hl, Ctx.rowWord_row_putLane _ _ _ _ _ _ hr hi, if_neg hj]

theorem Ctx.rowWord_row_putVec_other {r i : Nat} (hr : r < 48) (hi : i < 48) (h : ∀ j, j < 48 → gridAt k d j ≠ (r, i)) :
    rowWord ((c.putVec k d m v).row r) i = rowWord (c.row r) i :=
  Ctx.rowWord_row_foldl_putLane_other c k d m v hr hi _ fun j hj ⟨he, _⟩ => h j (List.mem_range.1 hj) he

theorem Ctx.rowWord_row_putVec_self {j : Nat} (hj : j < 48) (hr : (gridAt k d j).1 < 48) (hi : (gridAt k d j).2 < 48) :
    rowWord ((c.putVec k d m v).row (gridAt k d j).1) (gridAt k d j).2 =
      if m.getLsbD j then rowWord v j else rowWord (c.row (gridAt k d j).1) (gridAt k d j).2 := by
  obtain ⟨⟨r, i⟩, hp⟩ : ∃ p, gridAt k d j = p := ⟨_, rfl⟩
  rw [hp] at hr hi ⊢
  have hlanes : ∀ n, rowWord (((List.range n).foldl (Ctx.putLane k d m v) c).row r) i =
      if j < n ∧ m.getLsbD j = true then rowWord v j else rowWord (c.row r) i := by
    intro n
    induction n with
    | zero => simp
    | succ n ih =>
      rw [List.range_succ, List.foldl_append, List.foldl_cons, List.foldl_nil, Ctx.rowWord_row_putLane _ _ _ _ _ _ hr hi, ih]
      have hlane : gridAt k d n = (r, i) ↔ n = j := ⟨fun h => gridAt_injective (h.trans hp.symm), fun h => h ▸ hp⟩
      simp only [hlane]
      grind
  rw [Ctx.putVec_eq, hlanes 48]
  simp [hj]

end

-- The write of a vector under the lane mask (R121).

/-- A vector with its excluded lanes zero. -/
def State.maskedRow (s : State) (v : Row) : Row :=
  rowOfWords ((List.range 48).map fun j => if s.lanes.getLsbD j then rowWord v j else 0)

theorem State.rowWord_maskedRow (s : State) (v : Row) {j : Nat} (hj : j < 48) :
    rowWord (s.maskedRow v) j = if s.lanes.getLsbD j then rowWord v j else 0 := by
  rw [State.maskedRow, rowWord_rowOfWords _ _ hj]
  simp [List.getD_eq_getElem?_getD, hj]

/-- The lanes of the grid that are written: all, or only the included ones where `LANE` merges. -/
def State.writtenLanes (s : State) : BitVec 48 :=
  if (s.iss.lane.map (·.merge)).getD false then s.lanes else BitVec.allOnes 48

theorem State.writeVec_queue (s : State) (q : BitVec 2) (v : Row) :
    s.writeVec (.queue q) v = s.pushRow q (s.maskedRow v) := rfl

theorem State.writeVec_grid (s : State) {d : Dst} (hd : d.isGrid = true) (v : Row) :
    s.writeVec d v = (s.cleanRow d s.writtenLanes).modMe fun c => c.putVec s.iss.rrb d s.writtenLanes (s.maskedRow v) := by
  cases d
  case queue => cases hd
  all_goals rfl

@[simp] theorem State.me_cleanRow (s : State) (d : Dst) (m : BitVec 48) : (s.cleanRow d m).me = s.me := by cases d <;> rfl

@[simp] theorem State.me_pushRow (s : State) (q : BitVec 2) (v : Row) : (s.pushRow q v).me =
    s.me.setSq q ((s.me.sq q).push [{ data := v, at_ := s.keel + 1 }]) :=
  State.me_modMe ..

theorem State.me_writeVec_grid (s : State) {d : Dst} (hd : d.isGrid = true) (v : Row) :
    (s.writeVec d v).me = s.me.putVec s.iss.rrb d s.writtenLanes (s.maskedRow v) := by
  rw [State.writeVec_grid s hd, State.me_modMe, State.me_cleanRow]

/-- A write of a vector changes its thread's grid or a store queue, and nothing else of it. -/
theorem State.me_writeVec_rest (s : State) (d : Dst) (v : Row) :
    (s.writeVec d v).me = { s.me with grid := (s.writeVec d v).me.grid, sqs := (s.writeVec d v).me.sqs } := by
  by_cases hd : d.isGrid = true
  · rw [State.me_writeVec_grid s hd, Ctx.putVec_rest]
  · cases d
    case queue => rw [State.writeVec_queue, State.me_pushRow]; rfl
    all_goals exact absurd rfl hd

@[simp] theorem State.masks_writeVec (s : State) (d : Dst) (v : Row) : (s.writeVec d v).me.masks = s.me.masks := by
  rw [State.me_writeVec_rest]

@[simp] theorem State.nflags_writeVec (s : State) (d : Dst) (v : Row) : (s.writeVec d v).me.nflags = s.me.nflags := by
  rw [State.me_writeVec_rest]

@[simp] theorem State.me_orFlags (s : State) (fl : NFlags) :
    (s.orFlags fl).me = { s.me with nflags := s.me.nflags ||| fl } :=
  State.me_modMe ..

/-- A push adds one slot to its queue and touches no other (R24). -/
theorem State.pushesOnly_pushRow (s : State) (q : BitVec 2) (v : Row) : PushesOnly s (s.pushRow q v) [q] := by
  intro p hp
  rw [State.me_pushRow, Ctx.sq_setSq, if_neg (fun e => hp (List.mem_singleton.2 e.symm))]

theorem State.slots_pushRow (s : State) (q : BitVec 2) (v : Row) :
    ((s.pushRow q v).me.sq q).slots = (s.me.sq q).slots ++ [⟨v, false, none, false, s.keel + 1⟩] := by
  rw [State.me_pushRow, Ctx.sq_setSq, if_pos rfl, Queue.push]

theorem writesVec_pushRow (s : State) (q : BitVec 2) (v : Row) :
    WritesVec s (s.pushRow q (s.maskedRow v)) (.queue q) (rowWord v) :=
  ⟨by rw [State.me_pushRow]; rfl, s.pushesOnly_pushRow q _, _, s.slots_pushRow q _, fun _ hj => s.rowWord_maskedRow v hj⟩

/-- A lane of the grid after the write of a vector. -/
theorem State.rowWord_writtenLane (s : State) (v : Row) (old : W32) {j : Nat} (hj : j < 48) :
    (if s.writtenLanes.getLsbD j then rowWord (s.maskedRow v) j else old) =
      if s.lanes.getLsbD j then rowWord v j else if (s.iss.lane.map (·.merge)) = some true then old else 0 := by
  rw [s.rowWord_maskedRow v hj, State.writtenLanes]
  cases s.iss.lane.map (·.merge) with
  | none => simp only [Option.getD_none, Bool.false_eq_true, if_false, BitVec.getLsbD_allOnes, hj, decide_true, if_true, reduceCtorEq]
  | some merge =>
    cases merge
    case false => simp only [Option.getD_some, Bool.false_eq_true, if_false, BitVec.getLsbD_allOnes, hj, decide_true, if_true,
      Option.some.injEq]
    case true => simp only [Option.getD_some, if_true]; split <;> rfl

theorem writesVec_writeVec (s : State) (d : Dst) (v : Row) : WritesVec s (s.writeVec d v) d (rowWord v) := by
  have hgrid (hd : d.isGrid = true) : PushesOnly s (s.writeVec d v) [] ∧
      (∀ j, j < 48 → let p := gridAt s.iss.rrb d j
        p.1 < 48 → p.2 < 48 → rowWord ((s.writeVec d v).me.row p.1) p.2 =
          if s.lanes.getLsbD j then rowWord v j
          else if (s.iss.lane.map (·.merge)) = some true then rowWord (s.me.row p.1) p.2 else 0) ∧
      ∀ r c, r < 48 → c < 48 → (∀ j, j < 48 → gridAt s.iss.rrb d j ≠ (r, c)) →
        rowWord ((s.writeVec d v).me.row r) c = rowWord (s.me.row r) c := by
    rw [PushesOnly, State.me_writeVec_grid s hd]
    refine ⟨fun q _ => by rw [Ctx.putVec_rest]; rfl, fun j hj hr hi => ?_, fun r i hr hi hother => ?_⟩
    · rw [Ctx.rowWord_row_putVec_self _ _ _ _ _ hj hr hi, s.rowWord_writtenLane v _ hj]
    · exact Ctx.rowWord_row_putVec_other _ _ _ _ _ hr hi hother
  cases d
  case queue q => exact writesVec_pushRow s q v
  all_goals exact hgrid rfl

/-- What a write to a destination depends on: the issue, the Keel, the masks, the grid and the store queues. -/
structure SameDests (s u : State) : Prop where
  iss : u.iss = s.iss
  keel : u.keel = s.keel
  masks : u.me.masks = s.me.masks
  grid : u.me.grid = s.me.grid
  sqs : u.me.sqs = s.me.sqs

theorem SameDests.lanes {s u : State} (h : SameDests s u) : u.lanes = s.lanes := by
  simp [State.lanes, Ctx.mask, h.iss, h.masks]

theorem SameDests.row {s u : State} (h : SameDests s u) (r : Nat) : u.me.row r = s.me.row r := by simp [Ctx.row, h.grid]

theorem SameDests.sq {s u : State} (h : SameDests s u) (q : BitVec 2) : u.me.sq q = s.me.sq q := by simp [Ctx.sq, h.sqs]

/-- A write to a destination is the same seen from a state that agrees with the one it is made in. -/
theorem WritesVec.of_sameDests {s u t : State} {d : Dst} {v : Nat → W32} (h : SameDests s u) (hw : WritesVec u t d v) :
    WritesVec s t d v := by
  cases d <;> simpa [WritesVec, PushesOnly, h.iss, h.keel, h.grid, h.lanes, h.row, h.sq] using hw

theorem WritesVec.orFlags {s t : State} {d : Dst} {v : Nat → W32} (h : WritesVec s t d v) (fl : NFlags) :
    WritesVec s (t.orFlags fl) d v := by
  have hsq : (t.orFlags fl).me.sqs = t.me.sqs := by rw [State.me_orFlags]
  have hgrid : (t.orFlags fl).me.grid = t.me.grid := by rw [State.me_orFlags]
  cases d <;> simpa [WritesVec, PushesOnly, Ctx.sq, Ctx.row, hsq, hgrid] using h

theorem WritesVec.congr {s t : State} {d : Dst} {v v' : Nat → W32} (h : WritesVec s t d v) (hv : ∀ j, j < 48 → v j = v' j) :
    WritesVec s t d v' := by
  cases d
  case queue q =>
    obtain ⟨hg, hp, r, hslots, hr⟩ := h
    exact ⟨hg, hp, r, hslots, fun j hj => (hr j hj).trans (by rw [hv j hj])⟩
  all_goals
    obtain ⟨hp, hl, ho⟩ := h
    exact ⟨hp, fun j hj h1 h2 => (hl j hj h1 h2).trans (by rw [hv j hj]), ho⟩

theorem sameDests_opsRead (s : State) (g : Nat) (a : Opnd) (b : Option Opnd) (wa wb : Nat) :
    SameDests s (s.opsRead g a b wa wb) := by
  constructor <;> simp

section
variable {s u : State} {g w wb : Nat} {a : Opnd} {b : Option Opnd} (h : OpsTaken s u g w wb a b)
include h

theorem OpsTaken.pushRow (q : BitVec 2) (v : Row) : OpsTaken s (u.pushRow q v) g w wb a b :=
  h.modMe fun _ => rfl

theorem OpsTaken.writeVec (d : Dst) (v : Row) : OpsTaken s (u.writeVec d v) g w wb a b := by
  by_cases hd : d.isGrid = true
  · rw [State.writeVec_grid u hd]
    exact (h.cleanRow d _).modMe fun c => by rw [Ctx.putVec_rest]
  · cases d
    case queue q => exact h.pushRow q _
    all_goals exact absurd rfl hd

theorem OpsTaken.orFlags (fl : NFlags) : OpsTaken s (u.orFlags fl) g w wb a b :=
  h.modMe fun _ => rfl

end

-- What a write of a vector leaves alone.

theorem State.writeVec_rest (s : State) (d : Dst) (v : Row) :
    s.writeVec d v = { s with ctxs := (s.writeVec d v).ctxs, psnGrid := (s.writeVec d v).psnGrid } := by
  cases d <;> rfl

theorem othersKept_modMe (s : State) (f : Ctx → Ctx) : OthersKept s (s.modMe f) s.iss.src := by
  obtain ⟨-, -, hothers, -⟩ := OnlyMine.modMe s f
  exact hothers

theorem othersKept_cleanRow (s : State) (d : Dst) (m : BitVec 48) : OthersKept s (s.cleanRow d m) s.iss.src := by
  cases d <;> exact fun _ _ => rfl

theorem othersKept_writeVec (s : State) (d : Dst) (v : Row) : OthersKept s (s.writeVec d v) s.iss.src := by
  by_cases hd : d.isGrid = true
  · rw [State.writeVec_grid s hd]
    intro n hn
    rw [othersKept_modMe (s.cleanRow d s.writtenLanes) _ n (by cases d <;> exact hn), othersKept_cleanRow s d _ n hn]
  · cases d
    case queue => exact othersKept_modMe s _
    all_goals exact absurd rfl hd

-- Rows written whole, where no `LANE` limits the write.

theorem row_ext {r r' : Row} (h : ∀ j, j < 48 → rowWord r j = rowWord r' j) : r = r' := by
  apply BitVec.eq_of_getLsbD_eq
  intro i hi
  have hword := congrArg (BitVec.getLsbD · (i % 32)) (h (i / 32) (by omega))
  have hbit : i % 32 < 32 := Nat.mod_lt i (by decide)
  simpa only [rowWord, BitVec.getLsbD_extractLsb', hbit, decide_true, Bool.true_and, Nat.div_add_mod] using hword

theorem physRow_toNat (k : BitVec 4) (r : Reg) : (physRow k r).toNat =
    if 32 ≤ r.toNat ∧ r.toNat < 48 then 32 + (r.toNat - 32 + k.toNat) % 16 else r.toNat := by
  unfold physRow
  by_cases h : 32 ≤ r.toNat ∧ r.toNat < 48
  · have hk : k.toNat < 16 := k.isLt
    rw [if_pos (by simpa using h), if_pos h]
    simp only [BitVec.toNat_add, BitVec.toNat_sub, BitVec.toNat_setWidth, BitVec.toNat_ofNat]
    omega
  · rw [if_neg (by simpa using h), if_neg h]

/-- Rotation gives no two rows one place (R68). -/
theorem physRow_injective (k : BitVec 4) {r r' : Reg} (h : (physRow k r).toNat = (physRow k r').toNat) : r = r' := by
  rw [physRow_toNat, physRow_toNat] at h
  have hk : k.toNat < 16 := k.isLt
  apply BitVec.eq_of_toNat_eq
  split_ifs at h <;> omega

@[simp] theorem State.iss_writeVec (s : State) (d : Dst) (v : Row) : (s.writeVec d v).iss = s.iss := by rw [State.writeVec_rest]

theorem State.sqs_writeVec_row (s : State) (i : Reg) (v : Row) : (s.writeVec (.row i) v).me.sqs = s.me.sqs := by
  rw [State.me_writeVec_grid s rfl, Ctx.putVec_rest]

theorem State.row_writeVec_row (s : State) (hlane : s.iss.lane = none) {i : Reg} (hi : i.toNat < 48) (v : Row) {k : Nat}
    (hk : k < 48) :
    (s.writeVec (.row i) v).me.row k = if k = (physRow s.iss.rrb i).toNat then v else s.me.row k := by
  have hall : s.lanes = BitVec.allOnes 48 := by rw [State.lanes, hlane]; rfl
  obtain ⟨-, hlanes, hother⟩ := writesVec_writeVec s (.row i) v
  apply row_ext
  intro j hj
  split
  · next h =>
    have hword := hlanes j hj (physRow_lt _ _ hi) hj
    rw [hall, BitVec.getLsbD_allOnes, if_pos (decide_eq_true hj)] at hword
    rw [h, ← hword]; rfl
  · next h => exact hother k j hk hj fun l _ he => h (congrArg Prod.fst he).symm

theorem pushesOnly_of_sqs {s t : State} (h : t.me.sqs = s.me.sqs) : PushesOnly s t [] :=
  fun q _ => by rw [Ctx.sq, Ctx.sq, h]

-- The instructions that read their operands and write a list of results.

section
variable {i : Instr} {a : Opnd} {b : Option Opnd} {also : Option Dst} {od : Dst} {wIn wOut : Nat}
  {f f' : State → Row → Row → List (Nat × NFlags)}

theorem VectorOp.of_readOps
    (hexec : ∀ s, exec i s = .next (s.readOps 1 a b wIn wIn also (if also = none then pushesOf od else []) fun va vb u =>
      u.writeElems od wOut (f u (va.headD 0) vb)))
    (hread : ∀ s x y, f (s.opsRead 1 a b wIn wIn) x y = f s x y) : VectorOp i a b also od wIn wOut f := by
  intro s hready
  refine ⟨_, (hexec s).trans (congrArg _ (State.readOps_of_ready hready ..)), ?_, ?_, ?_, ?_⟩ <;>
    rw [State.headD_opndVecs_one, hread, State.writeElems, State.lanes_opsRead]
  · exact ((opsTaken_opsRead ..).writeVec ..).orFlags _
  · rw [State.me_orFlags, State.masks_writeVec, State.masks_opsRead]
  · exact ((writesVec_writeVec ..).of_sameDests (sameDests_opsRead ..)).orFlags _
  · rw [State.me_orFlags, State.nflags_writeVec, State.nflags_opsRead]

/-- The results may be stated by another function that gives the same. -/
theorem VectorOp.congr (h : VectorOp i a b also od wIn wOut f) (hf : ∀ s x y, f s x y = f' s x y) :
    VectorOp i a b also od wIn wOut f' :=
  (funext fun s => funext fun x => funext fun y => hf s x y : f = f') ▸ h

end

end Sys2Proof.Machine
end

section
/-! The vector arithmetic (R124, R125): each element of the result is a function of the elements of the operands. -/

namespace Sys2Proof.Machine

-- The elements of two rows, side by side.

theorem zip_elems (w : Nat) (x y : Row) : (elems w x).zip (elems w y) =
    (List.range (1536 / w)).map fun i => ((x.extractLsb' (w * i) w).toNat, (y.extractLsb' (w * i) w).toNat) := by
  rw [elems, elems, List.zip_map']

/-- A function of the elements' codes is the function of bit vectors that agrees with it. -/
theorem map_zip_elems {w : Nat} {n : Nat → Nat → Nat} {op : BitVec w → BitVec w → BitVec w}
    (hop : ∀ a b : BitVec w, n a.toNat b.toNat = (op a b).toNat) (x y : Row) :
    (((elems w x).zip (elems w y)).map fun p => ((n p.1 p.2, 0) : Nat × NFlags)) =
      ((elems w x).zip (elems w y)).map fun p => ((op (BitVec.ofNat w p.1) (BitVec.ofNat w p.2)).toNat, 0) := by
  simp only [zip_elems, List.map_map, Function.comp_def, hop, BitVec.ofNat_toNat, BitVec.setWidth_eq]

theorem VectorOp.of_vmov2 {i : Instr} {m : VMov2} {op : Nat → Nat → Nat × NFlags} (hexec : ∀ s, exec i s = vmov2 op m s) :
    VectorOp i m.a (some m.b) none m.od m.ty.width m.ty.width (fun _ x y =>
      ((elems m.ty.width x).zip (elems m.ty.width y)).map fun p => op p.1 p.2) :=
  .of_readOps hexec fun _ _ _ => rfl

/-- An instruction on the bits of two elements, without flags, is the operation on bit vectors that agrees with it. -/
theorem VectorOp.of_bits {i : Instr} {m : VMov2} {n : Nat → Nat → Nat}
    {op : BitVec m.ty.width → BitVec m.ty.width → BitVec m.ty.width}
    (hexec : ∀ s, exec i s = vmov2 (fun x y => (n x y, 0)) m s)
    (hop : ∀ a b : BitVec m.ty.width, n a.toNat b.toNat = (op a b).toNat) :
    VectorOp i m.a (some m.b) none m.od m.ty.width m.ty.width (fun _ x y =>
      ((elems m.ty.width x).zip (elems m.ty.width y)).map fun p => ((op (BitVec.ofNat _ p.1) (BitVec.ofNat _ p.2)).toNat, 0)) := by
  have h := VectorOp.of_vmov2 hexec
  exact h.congr fun _ x y => map_zip_elems hop x y

-- The floating-point instructions (R124).

/-- The larger or smaller of two elements, with the NaN of either first. -/
theorem pickOf_eq (t : ETy) (larger : Bool) (x y : Nat) : pickOf t larger x y =
    if (t.num x).isNan ∨ (t.num y).isNan then ((fmtOf t).nanCode, fNP)
    else if (if larger then Num.lt true (t.num x) (t.num y) else Num.lt true (t.num y) (t.num x)) then (y, 0) else (x, 0) := by
  unfold pickOf
  cases larger <;> simp only [Bool.or_eq_true, Bool.false_eq_true, if_false, if_true] <;> grind

/-- Settles O28: each instruction maps a function over the elements it reads; `VFMA` and `VFNMA` read the destination too, which the
read of the operands leaves as it is. -/
theorem vectorFloats : Obligations.VectorFloats := by
  unfold Obligations.VectorFloats
  intro f g m v
  have dest_kept (s : State) :
      (s.opsRead 1 f.a (some f.b) f.ty.width f.ty.width).me.gridVec s.iss.rrb f.od = s.me.gridVec s.iss.rrb f.od :=
    State.gridVec_opsRead ..
  refine ⟨.of_readOps (fun _ => rfl) fun _ _ _ => rfl, .of_readOps (fun _ => rfl) fun _ _ _ => rfl,
    .of_readOps (fun _ => rfl) fun _ _ _ => rfl, .of_readOps (fun _ => rfl) fun _ _ _ => rfl,
    fun _ => .of_readOps (fun _ => rfl) fun s _ _ => by rw [State.iss_opsRead, dest_kept],
    fun _ => .of_readOps (fun _ => rfl) fun s _ _ => by rw [State.iss_opsRead, dest_kept],
    .of_readOps (fun _ => rfl) fun _ _ _ => rfl, .of_readOps (fun _ => rfl) fun _ _ _ => rfl,
    .of_readOps (fun _ => rfl) fun _ _ _ => rfl, .of_readOps (fun _ => rfl) fun _ _ _ => rfl,
    .of_readOps (fun _ => rfl) fun _ _ _ => rfl,
    .congr (.of_vmov2 fun _ => rfl) fun _ _ _ => by simp only [pickOf_eq],
    .congr (.of_vmov2 fun _ => rfl) fun _ _ _ => by simp only [pickOf_eq],
    .of_readOps (fun _ => rfl) fun _ _ _ => rfl, .of_readOps (fun _ => rfl) fun _ _ _ => rfl,
    .of_readOps (fun _ => rfl) fun _ _ _ => rfl⟩

end Sys2Proof.Machine
end

section
/-! The integer instructions (R125): the codes of the elements as bit vectors. -/

namespace Sys2Proof

open Machine

theorem ETy.width_pos (t : ETy) : 0 < t.width := by cases t <;> decide

/-- The signed value of an element is that of its bits. -/
theorem signedBits_toNat {w : Nat} (hw : 0 < w) (a : BitVec w) : signedBits w a.toNat = a.toInt := by
  have hhalf : 2 ^ w = 2 * 2 ^ (w - 1) := by rw [← pow_succ', Nat.sub_add_cancel hw]
  rw [signedBits, BitVec.toInt_eq_toNat_cond]
  by_cases h : 2 ^ (w - 1) ≤ a.toNat
  · rw [if_pos h, if_neg (by omega)]; norm_cast
  · rw [if_neg h, if_pos (by omega)]

/-- The integer that an element stands for, by the signedness of its type. -/
theorem ETy.int_toNat (t : ETy) (a : BitVec t.width) : t.int a.toNat = if t.isSigned then a.toInt else (a.toNat : Int) := by
  cases h : t.isSigned
  · simp [ETy.int, h]
  · simpa [ETy.int, h, signedBits] using signedBits_toNat t.width_pos a

/-- The order of two elements of a type is the signed or the unsigned order of their bits. -/
theorem ETy.pick_toNat (t : ETy) (a b c d : BitVec t.width) :
    (if t.int a.toNat < t.int b.toNat then c.toNat else d.toNat) =
      (if t.isSigned then (if a.toInt < b.toInt then c else d) else (if a.toNat < b.toNat then c else d)).toNat := by
  rw [ETy.int_toNat, ETy.int_toNat]
  cases t.isSigned <;> simp [apply_ite BitVec.toNat]

end Sys2Proof

namespace Sys2Proof.Machine

section
variable {w : Nat} (a b : BitVec w)

theorem toNat_shiftLeft_mod : a.toNat * 2 ^ (b.toNat % w) % 2 ^ w = (a <<< (b.toNat % w)).toNat := by
  rw [BitVec.toNat_shiftLeft, Nat.shiftLeft_eq]

theorem toNat_shiftRight_mod : a.toNat / 2 ^ (b.toNat % w) = (a >>> (b.toNat % w)).toNat := by
  rw [BitVec.toNat_ushiftRight, Nat.shiftRight_eq_div_pow]

theorem toNat_sshiftRight_mod (hw : 0 < w) :
    (signedBits w a.toNat / 2 ^ (b.toNat % w) % 2 ^ w).toNat = (a.sshiftRight (b.toNat % w)).toNat := by
  rw [signedBits_toNat hw, BitVec.sshiftRight, BitVec.toNat_ofInt, Int.shiftRight_eq_div_pow]
  push_cast
  rfl

end

/-- Settles O29: add, subtract and multiply are of integers, reduced once; the others are the bit vectors' own operations. -/
theorem vectorIntegers : Obligations.VectorIntegers := by
  unfold Obligations.VectorIntegers
  intro f m arith bits
  have of_bits {i : Instr} {op : BitVec m.ty.width → BitVec m.ty.width → BitVec m.ty.width} (n : Nat → Nat → Nat)
      (hexec : ∀ s, exec i s = vmov2 (fun x y => (n x y, 0)) m s)
      (hop : ∀ a b : BitVec m.ty.width, n a.toNat b.toNat = (op a b).toNat) : bits i op := VectorOp.of_bits hexec hop
  clear_value bits
  exact ⟨.of_readOps (fun _ => rfl) fun _ _ _ => rfl, .of_readOps (fun _ => rfl) fun _ _ _ => rfl,
    .of_readOps (fun _ => rfl) fun _ _ _ => rfl,
    of_bits (fun x y => x &&& y) (fun _ => rfl) fun a b => (BitVec.toNat_and a b).symm,
    of_bits (fun x y => x ||| y) (fun _ => rfl) fun a b => (BitVec.toNat_or a b).symm,
    of_bits (fun x y => x ^^^ y) (fun _ => rfl) fun a b => (BitVec.toNat_xor a b).symm,
    of_bits (fun x y => x * 2 ^ (y % m.ty.width) % 2 ^ m.ty.width) (fun _ => rfl) toNat_shiftLeft_mod,
    of_bits (fun x y => x / 2 ^ (y % m.ty.width)) (fun _ => rfl) toNat_shiftRight_mod,
    of_bits (fun x y => (signedBits m.ty.width x / 2 ^ (y % m.ty.width) % 2 ^ m.ty.width).toNat) (fun _ => rfl)
      fun a b => toNat_sshiftRight_mod a b m.ty.width_pos,
    of_bits (fun x y => if m.ty.int y < m.ty.int x then y else x) (fun _ => rfl) fun a b => m.ty.pick_toNat b a b a,
    of_bits (fun x y => if m.ty.int x < m.ty.int y then y else x) (fun _ => rfl) fun a b => m.ty.pick_toNat a b b a⟩

end Sys2Proof.Machine
end

section
/-! The compares (R126): a mask takes, lane by lane, whether a test holds for every element of the lane. -/

namespace Sys2Proof

theorem ETy.width_dvd (t : ETy) : t.width ∣ 32 := by cases t <;> decide

end Sys2Proof

namespace Sys2Proof.Machine

-- The tests of a row's elements, lane by lane.

/-- Bit `i` of the number whose bits a list gives. -/
theorem testBit_foldr_bits {α : Type} (p : α → Bool) (l : List α) (i : Nat) :
    (l.foldr (fun x acc => b2n (p x) + 2 * acc) 0).testBit i = (l[i]?.map p).getD false := by
  induction l generalizing i with
  | nil => simp
  | cons x l ih =>
    rw [List.foldr_cons]
    cases i with
    | zero => cases h : p x <;> simp [b2n, h, Nat.add_mod]
    | succ i =>
      have hhalf (acc : Nat) : (b2n (p x) + 2 * acc) / 2 = acc := by unfold b2n; split <;> omega
      rw [Nat.testBit_succ, hhalf, ih, List.getElem?_cons_succ]

theorem getElem?_elems {w e : Nat} (he : e < 1536 / w) (r : Row) : (elems w r)[e]? = some (r.extractLsb' (w * e) w).toNat := by
  simp [elems, he]

theorem getD_elems_lt {w e : Nat} (r : Row) : (elems w r)[e]?.getD 0 < 2 ^ w := by
  by_cases he : e < 1536 / w
  · rw [getElem?_elems he]; exact BitVec.isLt _
  · rw [List.getElem?_eq_none (by simpa [elems] using he)]; exact Nat.two_pow_pos w

/-- Where lanes hold whole elements, a lane's bit says that the test holds for all of them. -/
theorem getLsbD_laneTest {w : Nat} (hw : w ∣ 32) (test : Nat → Nat → Bool) (x y : Row) {j : Nat} (hj : j < 48) :
    (laneTest w (((elems w x).zip (elems w y)).map fun p => test p.1 p.2)).getLsbD j =
      decide (∀ e, j * (32 / w) ≤ e → e < j * (32 / w) + 32 / w →
        test ((elems w x)[e]?.getD 0) ((elems w y)[e]?.getD 0) = true) := by
  have hrow : 1536 / w = 48 * (32 / w) := Nat.mul_div_assoc 48 hw
  have hend : j * (32 / w) + 32 / w ≤ 1536 / w := by
    rw [hrow, ← Nat.succ_mul]; exact Nat.mul_le_mul_right _ hj
  have helem (e : Nat) (he : e < 1536 / w) : (((elems w x).zip (elems w y)).map fun p => test p.1 p.2)[e]?.getD true =
      test ((elems w x)[e]?.getD 0) ((elems w y)[e]?.getD 0) := by
    simp [zip_elems, he, getElem?_elems he]
  rw [laneTest, BitVec.getLsbD_ofNat, testBit_foldr_bits, List.getElem?_range hj, Bool.eq_iff_iff]
  simp only [hj, decide_true, Bool.true_and, Option.map_some, Option.getD_some, List.all_eq_true, List.mem_range, decide_eq_true_eq]
  constructor
  · intro h e hlow hhigh
    have := h (e - j * (32 / w)) (by omega)
    rwa [Nat.add_sub_cancel' hlow, helem e (by omega)] at this
  · intro h k hk
    rw [helem _ (by omega)]
    exact h _ (by omega) (by omega)

-- The write of a mask.

/-- What a compare writes to its mask: the lanes where the test holds, and where `LANE` merges the excluded lanes as they were. -/
def State.maskWritten (s : State) (m : BitVec 3) (t : BitVec 48) : BitVec 48 :=
  (t &&& s.lanes) ||| (if (s.iss.lane.map (·.merge)).getD false then s.me.mask m &&& ~~~s.lanes else 0)

theorem State.getLsbD_maskWritten (s : State) (m : BitVec 3) (t : BitVec 48) {j : Nat} (hj : j < 48) :
    (s.maskWritten m t).getLsbD j = if s.lanes.getLsbD j then t.getLsbD j
      else decide ((s.iss.lane.map (·.merge)) = some true) && (s.me.mask m).getLsbD j := by
  rw [State.maskWritten, BitVec.getLsbD_or, BitVec.getLsbD_and]
  generalize s.iss.lane.map (·.merge) = merge
  have hkept : (if merge.getD false then s.me.mask m &&& ~~~s.lanes else 0).getLsbD j =
      (decide (merge = some true) && ((s.me.mask m).getLsbD j && !s.lanes.getLsbD j)) := by
    rcases merge with _ | _ | _
    case some.true =>
      simp only [Option.getD_some, if_true, BitVec.getLsbD_and, BitVec.getLsbD_not, hj, decide_true, Bool.true_and]
    all_goals simp
  rw [hkept]
  cases s.lanes.getLsbD j <;> simp only [Bool.and_true, Bool.and_false, Bool.not_true, Bool.not_false, Bool.or_false, Bool.false_or,
    if_true, if_false, Bool.false_eq_true]

/-- The mask that a compare writes is of the state before the read of its operands. -/
theorem State.maskWritten_opsRead (s : State) (g : Nat) (a : Opnd) (b : Option Opnd) (wa wb : Nat) (m : BitVec 3) (t : BitVec 48) :
    (s.opsRead g a b wa wb).maskWritten m t = s.maskWritten m t := by
  simp [State.maskWritten]

theorem vcmp_of_ready {f : VCmpF} {s : State} (hready : s.opsReady 1 f.a (some f.b) none []) (test : Nat → Nat → Bool) :
    vcmp test f s = .next ((s.opsRead 1 f.a (some f.b) f.ty.width f.ty.width).modMe fun c => c.setMask f.m (s.maskWritten f.m
      (laneTest f.ty.width (((elems f.ty.width (s.opndVec f.ty.width 0 s.me.latchA f.a)).zip
        (elems f.ty.width (s.opndVec f.ty.width 0 s.me.latchB f.b))).map fun p => test p.1 p.2)))) := by
  rw [← State.maskWritten_opsRead s 1 f.a (some f.b) f.ty.width f.ty.width, vcmp, State.readOps_of_ready hready]
  simp only [State.headD_opndVecs_one]
  rfl

/-- The compare `i` of the elements by `test`, as R126 says it of each of the compares. -/
def ComparesBy (f : VCmpF) (i : Instr) (test : Nat → Nat → Bool) : Prop :=
  ∀ s : State, s.opsReady 1 f.a (some f.b) none [] →
    let x := elems f.ty.width (s.opndVec f.ty.width 0 s.me.latchA f.a)
    let y := elems f.ty.width (s.opndVec f.ty.width 0 s.me.latchB f.b)
    let k := 32 / f.ty.width
    ∃ t, exec i s = .next t ∧ OpsTaken s t 1 f.ty.width f.ty.width f.a (some f.b) ∧ t.me.grid = s.me.grid ∧
      t.me.sqs = s.me.sqs ∧ t.me.nflags = s.me.nflags ∧ (∀ q, q ≠ f.m → t.me.mask q = s.me.mask q) ∧
      ∀ j, j < 48 → (t.me.mask f.m).getLsbD j =
        if s.lanes.getLsbD j then decide (∀ e, j * k ≤ e → e < j * k + k → test (x[e]?.getD 0) (y[e]?.getD 0) = true)
        else decide ((s.iss.lane.map (·.merge)) = some true) && (s.me.mask f.m).getLsbD j

section
variable {f : VCmpF} {i : Instr} {test test' : Nat → Nat → Bool}

theorem ComparesBy.of_vcmp (hexec : ∀ s, exec i s = vcmp test f s) : ComparesBy f i test := by
  intro s hready
  refine ⟨_, (hexec s).trans (vcmp_of_ready hready test), (opsTaken_opsRead ..).modMe fun _ => rfl, ?_, ?_, ?_,
    fun q hq => ?_, fun j hj => ?_⟩ <;> rw [State.me_modMe]
  · exact State.grid_opsRead ..
  · exact State.sqs_opsRead ..
  · exact State.nflags_opsRead ..
  · rw [Ctx.mask_setMask, if_neg hq.symm, State.mask_opsRead]
  · rw [Ctx.mask_setMask, if_pos rfl, s.getLsbD_maskWritten _ _ hj, getLsbD_laneTest f.ty.width_dvd test _ _ hj]

/-- Tests that agree on the codes of elements are the same compare. -/
theorem ComparesBy.congr (h : ComparesBy f i test)
    (htest : ∀ a b, a < 2 ^ f.ty.width → b < 2 ^ f.ty.width → test a b = test' a b) : ComparesBy f i test' := by
  intro s hready
  simpa only [htest _ _ (getD_elems_lt _) (getD_elems_lt _)] using h s hready

end

theorem signedBits_ofNat {w x : Nat} (hw : 0 < w) (hx : x < 2 ^ w) : signedBits w x = (BitVec.ofNat w x).toInt := by
  rw [← signedBits_toNat hw, BitVec.toNat_ofNat, Nat.mod_eq_of_lt hx]

/-- The signed compare of the model, on signed values, is that of the elements' bits. -/
theorem comparesBy_vcmpIlt (f : VCmpF) : ComparesBy f (.vcmpIlt f)
    (fun a b => decide ((BitVec.ofNat f.ty.width a).toInt < (BitVec.ofNat f.ty.width b).toInt)) := by
  have h : ComparesBy f (.vcmpIlt f) (fun a b => decide (signedBits f.ty.width a < signedBits f.ty.width b)) := .of_vcmp fun _ => rfl
  exact h.congr fun a b ha hb => by rw [signedBits_ofNat f.ty.width_pos ha, signedBits_ofNat f.ty.width_pos hb]

/-- Settles O30: each compare is one test of two elements. -/
theorem vectorCompares : Obligations.VectorCompares := by
  unfold Obligations.VectorCompares
  intro f cmp
  have of_vcmp {i : Instr} {test : Nat → Nat → Bool} (hexec : ∀ s, exec i s = vcmp test f s) : cmp i test :=
    ComparesBy.of_vcmp hexec
  have signed : cmp (.vcmpIlt f)
      (fun a b => decide ((BitVec.ofNat f.ty.width a).toInt < (BitVec.ofNat f.ty.width b).toInt)) :=
    comparesBy_vcmpIlt f
  clear_value cmp
  exact ⟨of_vcmp fun _ => rfl, of_vcmp fun _ => rfl, of_vcmp fun _ => rfl, of_vcmp fun _ => rfl, of_vcmp fun _ => rfl,
    of_vcmp fun _ => rfl, signed, of_vcmp fun _ => rfl⟩

end Sys2Proof.Machine
end

section
/-! The order of the values of a format, which the reductions of R132 follow: it is the order of a key, so it is transitive. -/

namespace Sys2Proof

open Machine

/-- A finite number that is not zero has a magnitude: what a code stands for always does. -/
def Num.Proper : Num → Prop
  | .fin _ m _ _ => m ≠ 0
  | _ => True

theorem Fmt.proper_num (f : Fmt) (c : Nat) : (f.num c).Proper := by
  unfold Fmt.num
  dsimp only
  split
  · trivial
  · split
    · trivial
    · split
      · split
        · trivial
        · assumption
      · exact Nat.ne_of_gt (Nat.add_pos_left (Nat.two_pow_pos _) _)

theorem Num.proper_ofInt (v : Int) : (Num.ofInt v).Proper := by
  unfold Num.ofInt Num.ofScaled
  split
  · trivial
  · next h => exact Int.natAbs_ne_zero.2 h

theorem ETy.proper_num (t : ETy) (c : Nat) : (t.num c).Proper := by
  unfold ETy.num
  cases t.fmt with
  | none => exact Num.proper_ofInt _
  | some f => exact f.proper_num c

/-- The exact value of a finite number. -/
def scaled (neg : Bool) (m : Nat) (e : Int) : ℚ := (sgn neg m : ℚ) * 2 ^ e

/-- Where a number that is not NaN stands in the order: below or above the finite ones, by its value, and -0 before +0. -/
def Num.key : Num → ℤ ×ₗ ℚ ×ₗ Bool
  | .nan => toLex (0, toLex (0, false))
  | .inf neg => toLex (if neg then -1 else 1, toLex (0, false))
  | .zero neg => toLex (0, toLex (0, !neg))
  | .fin neg m e _ => toLex (0, toLex (scaled neg m e, false))

theorem scaled_neg_iff {neg : Bool} {m : Nat} (hm : m ≠ 0) (e : Int) : scaled neg m e < 0 ↔ neg = true := by
  have hpos : (0 : ℚ) < m := Nat.cast_pos.2 (Nat.pos_of_ne_zero hm)
  have hpow : (0 : ℚ) < 2 ^ e := by positivity
  cases neg <;> simp [scaled, sgn, mul_neg_iff, hpow, hpow.le, hpos, hpos.le, not_lt]

theorem scaled_pos_iff {neg : Bool} {m : Nat} (hm : m ≠ 0) (e : Int) : 0 < scaled neg m e ↔ neg = false := by
  have hpos : (0 : ℚ) < m := Nat.cast_pos.2 (Nat.pos_of_ne_zero hm)
  have hpow : (0 : ℚ) < 2 ^ e := by positivity
  cases neg <;> simp [scaled, sgn, hpow, hpow.le, hpos]

theorem scaled_ne_zero {m : Nat} (hm : m ≠ 0) (neg : Bool) (e : Int) : scaled neg m e ≠ 0 := by
  have hpow : (2 : ℚ) ^ e ≠ 0 := by positivity
  cases neg <;> simp [scaled, sgn, hm, hpow]

/-- Two integers compare at the smaller of two exponents as their values do. -/
theorem scaled_lt_scaled (a b : Bool) (m n : Nat) (e f : Int) : scaled a m e < scaled b n f ↔
    sgn a m * 2 ^ (e - min e f).toNat < sgn b n * 2 ^ (f - min e f).toNat := by
  have hpow : (0 : ℚ) < 2 ^ (min e f) := by positivity
  have hscale (c : Bool) (l : Nat) (g : Int) (hg : min e f ≤ g) :
      scaled c l g = ((sgn c l * 2 ^ (g - min e f).toNat : Int) : ℚ) * 2 ^ (min e f) := by
    have hsplit : (2 : ℚ) ^ g = 2 ^ (g - min e f).toNat * 2 ^ (min e f) := by
      rw [← zpow_natCast, ← zpow_add₀ two_ne_zero, Int.toNat_of_nonneg (by omega), sub_add_cancel]
    rw [scaled, hsplit]; push_cast; ring
  rw [hscale a m e (min_le_left ..), hscale b n f (min_le_right ..), mul_lt_mul_iff_left₀ hpow, Int.cast_lt]

theorem Num.lt_iff_key {a b : Num} (ha : a.Proper) (hb : b.Proper) (hna : a.isNan = false) (hnb : b.isNan = false) :
    Num.lt true a b = true ↔ a.key < b.key := by
  cases a with
  | nan => cases hna
  | inf s =>
    cases b with
    | nan => cases hnb
    | inf t => cases s <;> cases t <;> simp [Num.lt, Num.key, Prod.Lex.toLex_lt_toLex]
    | zero t => cases s <;> simp [Num.lt, Num.key, Prod.Lex.toLex_lt_toLex]
    | fin t n f r => cases s <;> simp [Num.lt, Num.key, Prod.Lex.toLex_lt_toLex]
  | zero s =>
    cases b with
    | nan => cases hnb
    | inf t => cases t <;> simp [Num.lt, Num.key, Prod.Lex.toLex_lt_toLex]
    | zero t => cases s <;> cases t <;> simp [Num.lt, Num.key, Prod.Lex.toLex_lt_toLex]
    | fin t n f r =>
      simp [Num.lt, Num.key, Prod.Lex.toLex_lt_toLex, scaled_pos_iff hb, (scaled_ne_zero hb t f).symm]
  | fin s m e r =>
    cases b with
    | nan => cases hnb
    | inf t => cases t <;> simp [Num.lt, Num.key, Prod.Lex.toLex_lt_toLex]
    | zero t => simp [Num.lt, Num.key, Prod.Lex.toLex_lt_toLex, scaled_neg_iff ha, scaled_ne_zero ha s e]
    | fin t n f r => simp [Num.lt, Num.key, Prod.Lex.toLex_lt_toLex, scaled_lt_scaled]

end Sys2Proof
end

section
/-! The reductions (R110, R131, R132): one value is made of the included elements and written to every element of the destination,
whatever the lane mask. -/

namespace Sys2Proof

open Machine

theorem ETy.isNan_nanCode {t : ETy} {x : Nat} (h : (t.num x).isNan = true) : (t.num (fmtOf t).nanCode).isNan = true := by
  cases hf : t.fmt with
  | none =>
    have hint (v : Int) : (Num.ofInt v).isNan = false := by unfold Num.ofInt Num.ofScaled; split <;> rfl
    simp [ETy.num, hf, hint] at h
  | some f =>
    have hcode : (f.num f.nanCode).isNan = true := by
      cases t <;> cases hf <;> decide
    simpa [ETy.num, fmtOf, hf] using hcode

end Sys2Proof

namespace Sys2Proof.Machine

-- The order of elements that the reductions follow.

/-- `y` is picked over `x`: it is larger, or smaller, with -0 below +0. -/
def beats (t : ETy) (larger : Bool) (x y : Nat) : Bool :=
  if larger then Num.lt true (t.num x) (t.num y) else Num.lt true (t.num y) (t.num x)

section
variable {t : ETy} {larger : Bool} {x y z : Nat}

theorem beats_iff_key (hx : (t.num x).isNan = false) (hy : (t.num y).isNan = false) : beats t larger x y = true ↔
    if larger then (t.num x).key < (t.num y).key else (t.num y).key < (t.num x).key := by
  unfold beats
  cases larger
  · exact Num.lt_iff_key (t.proper_num y) (t.proper_num x) hy hx
  · exact Num.lt_iff_key (t.proper_num x) (t.proper_num y) hx hy

theorem unbeaten_trans (hx : (t.num x).isNan = false) (hy : (t.num y).isNan = false) (hz : (t.num z).isNan = false)
    (hxy : beats t larger x y = false) (hyz : beats t larger y z = false) : beats t larger x z = false := by
  rw [← Bool.not_eq_true, beats_iff_key hx hy] at hxy
  rw [← Bool.not_eq_true, beats_iff_key hy hz] at hyz
  rw [← Bool.not_eq_true, beats_iff_key hx hz]
  cases larger
  · exact not_lt.2 ((not_lt.1 hxy).trans (not_lt.1 hyz))
  · exact not_lt.2 ((not_lt.1 hyz).trans (not_lt.1 hxy))

theorem beats_self (hx : (t.num x).isNan = false) : beats t larger x x = false := by
  rw [← Bool.not_eq_true, beats_iff_key hx hx]
  cases larger <;> exact lt_irrefl _

theorem beats_asymm (hx : (t.num x).isNan = false) (hy : (t.num y).isNan = false) (hxy : beats t larger x y = true) :
    beats t larger y x = false := by
  rw [beats_iff_key hx hy] at hxy
  rw [← Bool.not_eq_true, beats_iff_key hy hx]
  cases larger <;> exact lt_asymm hxy

/-- Neither of two elements beats the one that is picked. -/
theorem picked_unbeaten (hx : (t.num x).isNan = false) (hy : (t.num y).isNan = false) :
    beats t larger (if beats t larger x y then y else x) x = false ∧
      beats t larger (if beats t larger x y then y else x) y = false := by
  cases h : beats t larger x y
  · exact ⟨beats_self hx, h⟩
  · exact ⟨beats_asymm hx hy h, beats_self hy⟩

theorem pickOf_nan (h : (t.num x).isNan = true ∨ (t.num y).isNan = true) : pickOf t larger x y = ((fmtOf t).nanCode, fNP) := by
  rw [pickOf_eq, if_pos h]

theorem pickOf_num (hx : (t.num x).isNan = false) (hy : (t.num y).isNan = false) :
    pickOf t larger x y = (if beats t larger x y then y else x, 0) := by
  rw [pickOf_eq, if_neg (by simp [hx, hy]), ← beats]
  split <;> rfl

end

-- The pass over the included elements (R132).

/-- One more element of a reduction: the picked code, and the flags gathered so far. -/
def redStep (t : ETy) (larger : Bool) (acc : Nat × NFlags) (y : Nat) : Nat × NFlags :=
  ((pickOf t larger acc.1 y).1, acc.2 ||| (pickOf t larger acc.1 y).2)

/-- The value and the flags that a reduction makes of a list of elements. -/
def reduction (t : ETy) (larger : Bool) : List Nat → Nat × NFlags
  | [] => (redIdentity t larger, 0)
  | x :: xs => xs.foldl (redStep t larger) (if (t.num x).isNan then ((fmtOf t).nanCode, fNP) else (x, 0))

section
variable {t : ETy} {larger : Bool}

theorem fNP_or_fNP : fNP ||| fNP = fNP := by decide

theorem redStep_nan {c y : Nat} {fl : NFlags} (hfl : fl ||| fNP = fNP) (h : (t.num c).isNan = true ∨ (t.num y).isNan = true) :
    redStep t larger (c, fl) y = ((fmtOf t).nanCode, fNP) := by
  rw [redStep, pickOf_nan h, hfl]

theorem redStep_num {c y : Nat} (hc : (t.num c).isNan = false) (hy : (t.num y).isNan = false) :
    redStep t larger (c, 0) y = (if beats t larger c y then y else c, 0) := by
  rw [redStep, pickOf_num hc hy, BitVec.or_self]

theorem foldl_redStep_of_nan (hnan : (t.num (fmtOf t).nanCode).isNan = true) (l : List Nat) :
    l.foldl (redStep t larger) ((fmtOf t).nanCode, fNP) = ((fmtOf t).nanCode, fNP) := by
  induction l with
  | nil => rfl
  | cons y l ih =>
    rw [List.foldl_cons, redStep_nan fNP_or_fNP (.inl hnan), ih]

theorem foldl_redStep_of_mem_nan {c : Nat} {l : List Nat} (hc : (t.num c).isNan = false) (h : ∃ x ∈ l, (t.num x).isNan = true) :
    l.foldl (redStep t larger) (c, 0) = ((fmtOf t).nanCode, fNP) := by
  induction l generalizing c with
  | nil => simp at h
  | cons y l ih =>
    rw [List.foldl_cons]
    by_cases hy : (t.num y).isNan = true
    · rw [redStep_nan (fl := 0) BitVec.zero_or (.inr hy), foldl_redStep_of_nan (ETy.isNan_nanCode hy)]
    · have hy' : (t.num y).isNan = false := Bool.eq_false_iff.2 hy
      rw [redStep_num hc hy']
      refine ih (by split <;> assumption) ?_
      obtain ⟨x, hx, hnan⟩ := h
      rcases List.mem_cons.1 hx with rfl | hx
      · exact absurd hnan hy
      · exact ⟨x, hx, hnan⟩

/-- Of numbers, the pass keeps one that none of them beats. -/
theorem foldl_redStep_of_nums {c : Nat} {l : List Nat} (h : ∀ x ∈ c :: l, (t.num x).isNan = false) :
    ∃ d ∈ c :: l, l.foldl (redStep t larger) (c, 0) = (d, 0) ∧ ∀ x ∈ c :: l, beats t larger d x = false := by
  induction l generalizing c with
  | nil => exact ⟨c, List.mem_singleton_self c, rfl, by simpa using beats_self (h c (List.mem_singleton_self c))⟩
  | cons y l ih =>
    obtain ⟨hc, hy, hl⟩ : (t.num c).isNan = false ∧ (t.num y).isNan = false ∧ ∀ x ∈ l, (t.num x).isNan = false := by
      simpa using h
    obtain ⟨hpc, hpy⟩ := picked_unbeaten (larger := larger) hc hy
    rw [List.foldl_cons, redStep_num hc hy]
    generalize hp : (if beats t larger c y then y else c) = p at hpc hpy ⊢
    have hpmem : p = c ∨ p = y := by rw [← hp]; split <;> simp
    have hnums : ∀ x ∈ p :: l, (t.num x).isNan = false :=
      List.forall_mem_cons.2 ⟨by rcases hpmem with rfl | rfl <;> assumption, hl⟩
    obtain ⟨d, hd, hfold, hbest⟩ := ih hnums
    obtain ⟨hdp, hdl⟩ := List.forall_mem_cons.1 hbest
    have hpn := hnums p (List.mem_cons_self ..)
    refine ⟨d, by grind, hfold, List.forall_mem_cons.2 ⟨?_, List.forall_mem_cons.2 ⟨?_, hdl⟩⟩⟩
    · exact unbeaten_trans (hnums d hd) hpn hc hdp hpc
    · exact unbeaten_trans (hnums d hd) hpn hy hdp hpy

theorem reduction_of_mem_nan {l : List Nat} (h : ∃ x ∈ l, (t.num x).isNan = true) :
    reduction t larger l = ((fmtOf t).nanCode, fNP) := by
  cases l with
  | nil => simp at h
  | cons x xs =>
    by_cases hx : (t.num x).isNan = true
    · rw [reduction, if_pos hx, foldl_redStep_of_nan (ETy.isNan_nanCode hx)]
    · rw [reduction, if_neg hx, foldl_redStep_of_mem_nan (Bool.eq_false_iff.2 hx)]
      simpa [hx] using h

theorem reduction_of_nums {l : List Nat} (hl : l ≠ []) (h : ∀ x ∈ l, (t.num x).isNan = false) :
    ∃ d ∈ l, reduction t larger l = (d, 0) ∧ ∀ x ∈ l, beats t larger d x = false := by
  cases l with
  | nil => exact absurd rfl hl
  | cons x xs =>
    rw [reduction, if_neg (by simp [h x (List.mem_cons_self ..)])]
    exact foldl_redStep_of_nums h

end

-- The instructions.

/-- The state without its `LANE`: every lane of the next write is included. -/
abbrev State.allLanes (s : State) : State := { s with iss := { s.iss with lane := none } }

/-- A reduction's result goes to every element of the destination, its flags to NFLAGS (R131). -/
theorem writeAll_opsRead (s : State) (a : Opnd) (wa : Nat) (d : Dst) (w c : Nat) (fl : NFlags) :
    let t := ((s.opsRead 1 a none wa wa).writeAll d w c).orFlags fl
    t.mem = s.mem ∧ t.spad = s.spad ∧ OthersKept s t s.iss.src ∧
      WritesVec s.allLanes t d (rowWord (ofElems w (List.replicate (1536 / w) c))) ∧ t.me.nflags = s.me.nflags ||| fl := by
  intro t
  let u := (s.opsRead 1 a none wa wa).allLanes
  have ht : t = (u.writeVec d (ofElems w (List.replicate (1536 / w) c))).orFlags fl := rfl
  have hsame : SameDests s.allLanes u := ⟨rfl, rfl, State.masks_opsRead .., State.grid_opsRead .., State.sqs_opsRead ..⟩
  obtain ⟨-, hread, -⟩ := opsTaken_opsRead s 1 a none wa wa
  have hmem : t.mem = u.mem ∧ t.spad = u.spad := by rw [ht, State.writeVec_rest]; exact ⟨rfl, rfl⟩
  refine ⟨hmem.1, hmem.2, fun n hn => ?_, ?_, ?_⟩
  · rw [ht, State.orFlags, othersKept_modMe _ _ n (by rw [State.writeVec_rest]; exact hn), othersKept_writeVec u d _ n hn]
    exact hread n hn
  · exact ((writesVec_writeVec u d _).of_sameDests hsame).orFlags fl
  · rw [ht, State.me_orFlags, State.nflags_writeVec]
    exact congrArg (· ||| fl) (State.nflags_opsRead ..)

/-- The elements of a vector in the included lanes, in order. -/
def included (m : BitVec 48) (w : Nat) (v : Row) : List Nat := ((elems w v).zipIdx.filter fun p => inLanes m w p.2).map (·.1)

theorem exec_vred (f : VMov1) (larger : Bool) (s : State) :
    exec (if larger then .vrmax f else .vrmin f) s = vred larger f s := by
  cases larger <;> rfl

theorem vred_of_ready {f : VMov1} {s : State} (hready : s.opsReady 1 f.a none none (pushesOf f.od)) (larger : Bool) :
    let r := reduction f.ty larger (included s.lanes f.ty.width (s.opndVec f.ty.width 0 s.me.latchA f.a))
    vred larger f s =
      .next (((s.opsRead 1 f.a none f.ty.width f.ty.width).writeAll f.od f.ty.width r.1).orFlags r.2) := by
  rw [vred, State.readOps_of_ready hready]
  simp only [State.headD_opndVecs_one, State.lanes_opsRead, included]
  generalize ((elems f.ty.width (s.opndVec f.ty.width 0 s.me.latchA f.a)).zipIdx.filter _).map _ = l
  cases l <;> rfl

theorem vred_spec (f : VMov1) (larger : Bool) (s : State) (hready : s.opsReady 1 f.a none none (pushesOf f.od)) :
    let w := f.ty.width
    let l := included s.lanes w (s.opndVec w 0 s.me.latchA f.a)
    ∃ t c, exec (if larger then .vrmax f else .vrmin f) s = .next t ∧ t.mem = s.mem ∧ t.spad = s.spad ∧ OthersKept s t s.iss.src ∧
      WritesVec s.allLanes t f.od (rowWord (ofElems w (List.replicate (1536 / w) c))) ∧
      (l = [] → c = redIdentity f.ty larger ∧ t.me.nflags = s.me.nflags) ∧
      ((∃ x ∈ l, (f.ty.num x).isNan = true) → c = (fmtOf f.ty).nanCode ∧ t.me.nflags = s.me.nflags ||| fNP) ∧
      (l ≠ [] → (∀ x ∈ l, (f.ty.num x).isNan = false) → c ∈ l ∧ t.me.nflags = s.me.nflags ∧
        ∀ x ∈ l, beats f.ty larger c x = false) := by
  intro w l
  obtain ⟨hmem, hspad, hothers, hvec, hflags⟩ :=
    writeAll_opsRead s f.a w f.od w (reduction f.ty larger l).1 (reduction f.ty larger l).2
  refine ⟨_, _, (exec_vred ..).trans (vred_of_ready hready larger), hmem, hspad, hothers, hvec,
    fun h => ?_, fun h => ?_, fun hne h => ?_⟩ <;> rw [hflags]
  · rw [h, reduction]; exact ⟨rfl, BitVec.or_zero⟩
  · rw [reduction_of_mem_nan h]; exact ⟨rfl, rfl⟩
  · obtain ⟨d, hd, hr, hbest⟩ := reduction_of_nums (larger := larger) hne h
    rw [hr]
    exact ⟨hd, BitVec.or_zero, hbest⟩

/-- The tree sum of the lanes' contributions (R110, R131). -/
theorem vsum_of_ready {f : VUn} {s : State} (hready : s.opsReady 1 f.a none none (pushesOf f.od)) :
    let r := treeSum f.rm f.sat ((List.range 48).map fun j =>
      if s.lanes.getLsbD j then laneSum f.ty f.rm f.sat (rowWord (s.opndVec f.ty.width 0 s.me.latchA f.a) j) else (0, 0))
    let c := convert f.ty .f32 f.rm f.sat r.1
    exec (.vsum f) s =
      .next (((s.opsRead 1 f.a none f.ty.width f.ty.width).writeAll f.od f.ty.width c.1).orFlags (r.2 ||| c.2)) := by
  have hexec : exec (.vsum f) s = execVsum f s := rfl
  rw [hexec, execVsum, State.readOps_of_ready hready]
  simp only [State.headD_opndVecs_one, State.lanes_opsRead]

end Sys2Proof.Machine
end

section
/-! The conversions and moves (R127 to R130, R133 to R135): the group of rows that `VQNT` and `VDQ` write, and the words of `VLDI`. -/

namespace Sys2Proof.Machine

-- VLDI (R135).

/-- The word that `VLDI` makes of an immediate: its low element in each element of the lane. -/
def replicated (w : Nat) (v : W32) : W32 := BitVec.ofNat 32 (((List.range (32 / w)).map fun k => 2 ^ (w * k) * (v.toNat % 2 ^ w)).sum)

theorem exec_vldi (d : Reg) (ty : ETy) (i : W32) (s : State) : exec (.vldi d ty i) s =
    .next (s.writeVec (.row d) (rowOfWords ((List.range 48).map fun j =>
      replicated ty.width (if j % 2 = 1 then s.iss.xtnd.getD i else i)))) := rfl

theorem vldi_spec (d : Reg) (ty : ETy) (i : W32) (s : State) : ∃ t, exec (.vldi d ty i) s = .next t ∧
    t = { s with ctxs := t.ctxs, psnGrid := t.psnGrid } ∧ OthersKept s t s.iss.src ∧ t.me = { s.me with grid := t.me.grid } ∧
    WritesVec s t (.row d) (fun j => replicated ty.width (if j % 2 = 1 then s.iss.xtnd.getD i else i)) := by
  refine ⟨_, exec_vldi d ty i s, State.writeVec_rest .., othersKept_writeVec s _ _, ?_,
    (writesVec_writeVec ..).congr fun j hj => ?_⟩
  · rw [State.me_writeVec_grid s rfl, Ctx.putVec_rest]
  · rw [rowWord_rowOfWords _ _ hj]
    simp [List.getD_eq_getElem?_getD, hj]

-- VQNT (R129): an element row and a scale row.

theorem exec_vqnt (f : VQntF) (s : State) : exec (.vqnt f) s = execVqnt f s := rfl

/-- What `VQNT` quantises: the elements of its group of source vectors. -/
def State.quantised (s : State) (f : VQntF) : Row × Row × NFlags :=
  quantRow f.dst (((List.range (groupSize f.dst f.src)).flatMap fun i => elems f.src.width (s.vecOf f.src.width i f.a)).map f.src.num)

/-- The state as the read of a `VQNT` leaves it. -/
def State.quantRead (s : State) (f : VQntF) : State :=
  s.opsRead (groupSize f.dst f.src) (.from f.a) none f.src.width f.src.width

theorem vqnt_queue_of_ready {f : VQntF} {s : State} {q : BitVec 2} (hod : f.od = .queue q)
    (hready : s.opsReady (groupSize f.dst f.src) (.from f.a) none none [(q, 1), (q + 1, 1)]) :
    exec (.vqnt f) s = .next ((((s.quantRead f).pushRow q (s.quantised f).1).pushRow (q + 1) (s.quantised f).2.1).orFlags
      (s.quantised f).2.2) := by
  rw [exec_vqnt, execVqnt]
  simp only [hod, State.readOps_of_ready hready, State.opndVecs, List.flatMap_map]
  rfl

theorem vqnt_row_of_ready {f : VQntF} {s : State} {i : Reg} (hod : f.od = .row i)
    (hready : s.opsReady (groupSize f.dst f.src) (.from f.a) none none []) :
    exec (.vqnt f) s = .next ((((s.quantRead f).writeVec (.row i) (s.quantised f).1).writeVec (.row (i + 1))
      (s.quantised f).2.1).orFlags (s.quantised f).2.2) := by
  rw [exec_vqnt, execVqnt]
  simp only [hod, State.readOps_of_ready hready, State.opndVecs, List.flatMap_map]
  rfl

/-- `VQNT` completes as the next state `t`: its operands taken, its flags set, the masks untouched. -/
def QuantDone (f : VQntF) (s t : State) : Prop :=
  exec (.vqnt f) s = .next t ∧ OpsTaken s t (groupSize f.dst f.src) f.src.width f.src.width (.from f.a) none ∧
    t.me.masks = s.me.masks ∧ t.me.nflags = s.me.nflags ||| (s.quantised f).2.2

theorem vqnt_queue_spec {f : VQntF} {s : State} {q : BitVec 2} (hod : f.od = .queue q)
    (hready : s.opsReady (groupSize f.dst f.src) (.from f.a) none none [(q, 1), (q + 1, 1)]) :
    ∃ t, QuantDone f s t ∧ t.me.grid = s.me.grid ∧ PushesOnly s t [q, q + 1] ∧
      (t.me.sq q).slots = (s.me.sq q).slots ++ [⟨(s.quantised f).1, false, none, false, s.keel + 1⟩] ∧
      (t.me.sq (q + 1)).slots = (s.me.sq (q + 1)).slots ++ [⟨(s.quantised f).2.1, false, none, false, s.keel + 1⟩] := by
  have hne : q + 1 ≠ q := by bv_omega
  have hsame : SameDests s (s.quantRead f) := sameDests_opsRead ..
  let u := (s.quantRead f).pushRow q (s.quantised f).1
  let t := (u.pushRow (q + 1) (s.quantised f).2.1).orFlags (s.quantised f).2.2
  have hsq (p : BitVec 2) : t.me.sq p = (u.pushRow (q + 1) (s.quantised f).2.1).me.sq p := by rw [State.me_orFlags]; rfl
  have hu : ∀ p, p ≠ q → u.me.sq p = s.me.sq p := fun p hp =>
    (State.pushesOnly_pushRow _ q _ p (by simpa using hp)).trans (hsame.sq p)
  have ht : ∀ p, p ≠ q + 1 → t.me.sq p = u.me.sq p := fun p hp =>
    (hsq p).trans (State.pushesOnly_pushRow _ (q + 1) _ p (by simpa using hp))
  refine ⟨t, ⟨vqnt_queue_of_ready hod hready, (((opsTaken_opsRead ..).pushRow q _).pushRow (q + 1) _).orFlags _, ?_, ?_⟩, ?_,
    fun p hp => ?_, ?_, ?_⟩
  · rw [State.me_orFlags, State.me_pushRow, State.me_pushRow]; exact hsame.masks
  · rw [State.me_orFlags, State.me_pushRow, State.me_pushRow]; exact congrArg (· ||| _) (State.nflags_opsRead ..)
  · rw [State.me_orFlags, State.me_pushRow, State.me_pushRow]; exact hsame.grid
  · obtain ⟨hpq, hpq'⟩ : p ≠ q ∧ p ≠ q + 1 := by simpa using hp
    exact (ht p hpq').trans (hu p hpq)
  · rw [ht q hne.symm, State.slots_pushRow, hsame.sq, hsame.keel]
  · rw [hsq, State.slots_pushRow, hu _ hne]; rfl

theorem vqnt_row_spec {f : VQntF} {s : State} {i : Reg} (hod : f.od = .row i) (hlane : s.iss.lane = none) (hi : i.toNat < 47)
    (hready : s.opsReady (groupSize f.dst f.src) (.from f.a) none none []) :
    ∃ t, QuantDone f s t ∧ PushesOnly s t [] ∧ ∀ k, k < 48 → t.me.row k =
      if k = (physRow s.iss.rrb (i + 1)).toNat then (s.quantised f).2.1
      else if k = (physRow s.iss.rrb i).toNat then (s.quantised f).1 else s.me.row k := by
  have hsame : SameDests s (s.quantRead f) := sameDests_opsRead ..
  have hnext : (i + 1).toNat < 48 := by bv_omega
  refine ⟨_, ⟨vqnt_row_of_ready hod hready,
    (((opsTaken_opsRead ..).writeVec (.row i) _).writeVec (.row (i + 1)) _).orFlags _, ?_, ?_⟩,
    pushesOnly_of_sqs ?_, fun k hk => ?_⟩ <;> rw [State.me_orFlags]
  · exact (State.masks_writeVec ..).trans ((State.masks_writeVec ..).trans hsame.masks)
  · rw [State.nflags_writeVec, State.nflags_writeVec]
    exact congrArg (· ||| _) (State.nflags_opsRead ..)
  · exact (State.sqs_writeVec_row ..).trans ((State.sqs_writeVec_row ..).trans hsame.sqs)
  · refine (State.row_writeVec_row _ ?_ hnext _ hk).trans ?_
    · rw [State.iss_writeVec, hsame.iss, hlane]
    · rw [State.iss_writeVec, hsame.iss, State.row_writeVec_row _ (by rw [hsame.iss, hlane]) (by omega) _ hk, hsame.iss, hsame.row]

-- VDQ (R130): a group of vectors, written or pushed in order.

theorem vectorsOf_eq (w n : Nat) (l : List Nat) : vectorsOf w n l =
    (List.range n).map fun k => ofElems w ((l.drop (k * (1536 / w))).take (1536 / w)) := by
  induction n generalizing l with
  | zero => rfl
  | succ n ih =>
    rw [vectorsOf, ih, List.range_succ_eq_map, List.map_cons, List.map_map]
    simp [Function.comp_def, Nat.succ_mul, Nat.add_comm]

theorem Queue.push_nil (q : Queue) : q.push [] = q := by rw [Queue.push, List.append_nil]

theorem Ctx.setSq_self (c : Ctx) (q : BitVec 2) : c.setSq q (c.sq q) = c := by simp [Ctx.setSq, Ctx.sq]

section
variable (s : State) (q : BitVec 2) (r : Reg) (i : Nat) (v : Row) (l : List Row)

theorem State.writeGroup_nil (d : Dst) : s.writeGroup d i [] = s := by unfold State.writeGroup; rfl

theorem State.writeGroup_queue_cons :
    s.writeGroup (.queue q) i (v :: l) = (s.pushRow q v).writeGroup (.queue q) (i + 1) l := by
  rw [State.writeGroup]

theorem State.writeGroup_row_cons :
    s.writeGroup (.row r) i (v :: l) = (s.writeVec (.row (r + BitVec.ofNat 6 i)) v).writeGroup (.row r) (i + 1) l := by
  rw [State.writeGroup]

theorem State.me_writeGroup_queue : (s.writeGroup (.queue q) i l).me =
    s.me.setSq q ((s.me.sq q).push (l.map fun v => ⟨v, false, none, false, s.keel + 1⟩)) := by
  induction l generalizing s i with
  | nil =>
    rw [State.writeGroup_nil, List.map_nil, Queue.push_nil, Ctx.setSq_self]
  | cons v l ih =>
    rw [State.writeGroup_queue_cons, ih, State.me_pushRow, Ctx.sq_setSq, if_pos rfl]
    simp [Ctx.setSq, Queue.push, State.pushRow]

theorem State.me_writeGroup_row_rest : (s.writeGroup (.row r) i l).me = { s.me with grid := (s.writeGroup (.row r) i l).me.grid } := by
  induction l generalizing s i with
  | nil => rw [State.writeGroup_nil]
  | cons v l ih => rw [State.writeGroup_row_cons, ih, State.me_writeVec_grid s rfl, Ctx.putVec_rest]

end

theorem OpsTaken.writeGroup {s u : State} {g w wb : Nat} {a : Opnd} {b : Option Opnd} (h : OpsTaken s u g w wb a b) (d : Dst) (i : Nat)
    (l : List Row) : OpsTaken s (u.writeGroup d i l) g w wb a b := by
  induction l generalizing u i with
  | nil => rwa [State.writeGroup_nil]
  | cons v l ih =>
    cases d
    case row r => rw [State.writeGroup_row_cons]; exact ih (h.writeVec ..) _
    case queue q => rw [State.writeGroup_queue_cons]; exact ih (h.pushRow ..) _
    all_goals exact h

section
variable {s : State} (hlane : s.iss.lane = none) {r : Reg} {i : Nat} {l : List Row} (hfit : r.toNat + i + l.length ≤ 48)
include hlane hfit

theorem State.row_writeGroup_other {k : Nat} (hk : k < 48)
    (hother : ∀ j, j < l.length → k ≠ (physRow s.iss.rrb (r + BitVec.ofNat 6 (i + j))).toNat) :
    (s.writeGroup (.row r) i l).me.row k = s.me.row k := by
  induction l generalizing s i with
  | nil => rw [State.writeGroup_nil]
  | cons v l ih =>
    rw [List.length_cons] at hfit hother
    rw [State.writeGroup_row_cons, ih (by rwa [State.iss_writeVec]) (by omega), State.row_writeVec_row s hlane (by bv_omega) v hk,
      if_neg (by simpa using hother 0 (by omega))]
    intro j hj
    rw [State.iss_writeVec, show i + 1 + j = i + (j + 1) by omega]
    exact hother (j + 1) (by omega)

theorem State.row_writeGroup_self {j : Nat} (hj : j < l.length) :
    (s.writeGroup (.row r) i l).me.row (physRow s.iss.rrb (r + BitVec.ofNat 6 (i + j))).toNat = l[j] := by
  induction l generalizing s i j with
  | nil => simp at hj
  | cons v l ih =>
    rw [List.length_cons] at hfit hj
    have hlane' : (s.writeVec (.row (r + BitVec.ofNat 6 i)) v).iss.lane = none := by rwa [State.iss_writeVec]
    have hin (m : Nat) (hm : m < l.length + 1) : (r + BitVec.ofNat 6 (i + m)).toNat = r.toNat + i + m := by bv_omega
    rw [State.writeGroup_row_cons]
    cases j with
    | zero =>
      have hi := hin 0 (by omega)
      have hrow : (physRow s.iss.rrb (r + BitVec.ofNat 6 (i + 0))).toNat < 48 := physRow_lt _ _ (by omega)
      rw [State.row_writeGroup_other hlane' (by omega) hrow, State.row_writeVec_row s hlane (by rw [← Nat.add_zero i]; omega) v hrow]
      · simp
      · intro m hm he
        rw [State.iss_writeVec, show i + 1 + m = i + (m + 1) by omega] at he
        have := congrArg BitVec.toNat (physRow_injective _ he)
        rw [hi, hin (m + 1) (by omega)] at this
        omega
    | succ j =>
      have := ih hlane' (i := i + 1) (by omega) (j := j) (by omega)
      rw [State.iss_writeVec, show i + 1 + j = i + (j + 1) by omega] at this
      rw [this, List.getElem_cons_succ]

end

theorem exec_vdq (f : VDqF) (s : State) : exec (.vdq f) s = execVdq f s := rfl

/-- The elements that `VDQ` makes of its block row and scale row, with their flags. -/
def State.dequantised (s : State) (f : VDqF) : List (Nat × NFlags) :=
  (blockElems f.src (s.opndVec 8 0 s.me.latchA f.a)).zipIdx.map fun p =>
    rounded f.dst f.rm f.sat
      (blockNum f.src p.1 (scaleAt (s.opndVec 8 0 s.me.latchB f.b) p.2) (f.pd.toNat + 2) f.pf, false)

/-- Vector `k` of what `VDQ` writes. -/
def State.dequantRow (s : State) (f : VDqF) (k : Nat) : Row :=
  ofElems f.dst.width ((((s.dequantised f).map (·.1)).drop (k * (1536 / f.dst.width))).take (1536 / f.dst.width))

/-- The flags of every element of a `VDQ`. -/
def State.dequantFlags (s : State) (f : VDqF) : NFlags := (s.dequantised f).foldl (fun acc r => acc ||| r.2) 0

/-- The state as the read of a `VDQ` leaves it. -/
def State.dequantRead (s : State) (f : VDqF) : State := s.opsRead 1 f.a (some f.b) 8 8

/-- The state in which a `VDQ` ends. -/
def State.dequantDone (s : State) (f : VDqF) : State :=
  ((s.dequantRead f).writeGroup f.od 0 ((List.range (groupSize f.src f.dst)).map (s.dequantRow f))).orFlags (s.dequantFlags f)

theorem vdq_of_ready {f : VDqF} {s : State} {push : List (BitVec 2 × Nat)}
    (hpush : (∃ q, f.od = .queue q ∧ push = [(q, groupSize f.src f.dst)]) ∨ ∃ i, f.od = .row i ∧ push = [])
    (hready : s.opsReady 1 f.a (some f.b) none push) : exec (.vdq f) s = .next (s.dequantDone f) := by
  rcases hpush with ⟨q, hod, rfl⟩ | ⟨i, hod, rfl⟩ <;>
  · rw [exec_vdq, execVdq, State.dequantDone]
    simp only [hod, State.readOps_of_ready hready, State.headD_opndVecs_one, vectorsOf_eq]
    rfl

/-- `VDQ` completes as the next state `t`: its operands taken, its flags set, the masks untouched. -/
def DequantDone (f : VDqF) (s t : State) : Prop :=
  exec (.vdq f) s = .next t ∧ OpsTaken s t 1 8 8 f.a (some f.b) ∧ t.me.masks = s.me.masks ∧
    t.me.nflags = s.me.nflags ||| s.dequantFlags f

theorem vdq_queue_spec {f : VDqF} {s : State} {q : BitVec 2} (hod : f.od = .queue q)
    (hready : s.opsReady 1 f.a (some f.b) none [(q, groupSize f.src f.dst)]) :
    ∃ t, DequantDone f s t ∧ t.me.grid = s.me.grid ∧ PushesOnly s t [q] ∧
      (t.me.sq q).slots = (s.me.sq q).slots ++
        (List.range (groupSize f.src f.dst)).map fun k => ⟨s.dequantRow f k, false, none, false, s.keel + 1⟩ := by
  have hsame : SameDests s (s.dequantRead f) := sameDests_opsRead ..
  have hme := State.me_writeGroup_queue (s.dequantRead f) q 0 ((List.range (groupSize f.src f.dst)).map (s.dequantRow f))
  have hsq (p : BitVec 2) : (s.dequantDone f).me.sq p = if q = p then (s.me.sq q).push
      (((List.range (groupSize f.src f.dst)).map (s.dequantRow f)).map fun v => ⟨v, false, none, false, s.keel + 1⟩)
      else s.me.sq p := by
    rw [State.dequantDone, State.me_orFlags, hod, hme, ← hsame.sq, ← hsame.sq, ← hsame.keel]
    exact Ctx.sq_setSq ..
  refine ⟨s.dequantDone f, ⟨vdq_of_ready (.inl ⟨q, hod, rfl⟩) hready,
    ((opsTaken_opsRead ..).writeGroup ..).orFlags _, ?_, ?_⟩, ?_,
    fun p hp => ?_, ?_⟩
  · rw [State.dequantDone, State.me_orFlags, hod, hme]; exact hsame.masks
  · rw [State.dequantDone, State.me_orFlags, hod, hme]; exact congrArg (· ||| _) (State.nflags_opsRead ..)
  · rw [State.dequantDone, State.me_orFlags, hod, hme]; exact hsame.grid
  · rw [hsq, if_neg (fun e => hp (List.mem_singleton.2 e.symm))]
  · rw [hsq, if_pos rfl, Queue.push, List.map_map]; rfl

theorem vdq_row_spec {f : VDqF} {s : State} {i : Reg} (hod : f.od = .row i) (hlane : s.iss.lane = none)
    (hi : i.toNat + groupSize f.src f.dst ≤ 48) (hready : s.opsReady 1 f.a (some f.b) none []) :
    ∃ t, DequantDone f s t ∧ PushesOnly s t [] ∧
      (∀ k, k < groupSize f.src f.dst → t.me.row (physRow s.iss.rrb (i + BitVec.ofNat 6 k)).toNat = s.dequantRow f k) ∧
      ∀ r, r < 48 → (∀ k, k < groupSize f.src f.dst → r ≠ (physRow s.iss.rrb (i + BitVec.ofNat 6 k)).toNat) →
        t.me.row r = s.me.row r := by
  have hsame : SameDests s (s.dequantRead f) := sameDests_opsRead ..
  let l := (List.range (groupSize f.src f.dst)).map (s.dequantRow f)
  have hlen : l.length = groupSize f.src f.dst := by simp [l]
  have hfit : i.toNat + 0 + l.length ≤ 48 := by omega
  have hlane' : (s.dequantRead f).iss.lane = none := by rw [hsame.iss, hlane]
  have hme : (s.dequantDone f).me = { ((s.dequantRead f).writeGroup (.row i) 0 l).me with
      nflags := ((s.dequantRead f).writeGroup (.row i) 0 l).me.nflags ||| s.dequantFlags f } := by
    rw [State.dequantDone, State.me_orFlags, hod]
  have hrest := State.me_writeGroup_row_rest (s.dequantRead f) i 0 l
  have hrow (r : Nat) : (s.dequantDone f).me.row r = ((s.dequantRead f).writeGroup (.row i) 0 l).me.row r := by rw [hme]; rfl
  refine ⟨s.dequantDone f, ⟨vdq_of_ready (.inr ⟨i, hod, rfl⟩) hready,
    ((opsTaken_opsRead ..).writeGroup ..).orFlags _, ?_, ?_⟩,
    pushesOnly_of_sqs ?_, fun k hk => ?_, fun r hr hother => ?_⟩
  · rw [hme, hrest]; exact hsame.masks
  · rw [hme, hrest]; exact congrArg (· ||| _) (State.nflags_opsRead ..)
  · rw [hme, hrest]; exact hsame.sqs
  · have hself := State.row_writeGroup_self hlane' hfit (j := k) (by omega)
    rw [Nat.zero_add, hsame.iss] at hself
    rw [hrow, hself]
    simp [l]
  · rw [hrow, State.row_writeGroup_other hlane' hfit hr, hsame.row]
    intro j hj
    rw [Nat.zero_add, hsame.iss]
    exact hother j (by omega)

/-- Settles O31: VCVT and the permutes map a function over elements; the reductions, VQNT, VDQ and VLDI write rows of their own. -/
theorem vectorConversionsAndMoves : Obligations.VectorConversionsAndMoves := by
  unfold Obligations.VectorConversionsAndMoves
  refine ⟨fun f => .of_readOps (fun _ => rfl) fun _ _ _ => rfl, fun f => .of_readOps (fun _ => rfl) fun _ _ _ => rfl,
    fun f => .of_readOps (fun _ => rfl) fun _ _ _ => rfl, fun f => .of_readOps (fun _ => rfl) fun _ _ _ => rfl,
    fun f => .of_readOps (fun _ => rfl) fun _ _ _ => ?vsel, vldi_spec, vred_spec, fun f s hready => ?vsum, fun f s => ?vqnt,
    fun f s => ?vdq⟩
  case vsel => rw [State.mask_opsRead]
  case vsum => exact ⟨_, vsum_of_ready hready, writeAll_opsRead ..⟩
  case vqnt => exact ⟨fun _ => vqnt_queue_spec, fun _ => vqnt_row_spec⟩
  case vdq => exact ⟨fun _ => vdq_queue_spec, fun _ => vdq_row_spec⟩

end Sys2Proof.Machine
end

section
/-! `EPI` to a store queue (R25, R158): an attempt that has pushed rows goes on as one that has used the unit's issue. The model tells
such an attempt by its flow at the end, so a state whose issue is marked as waiting before the attempt does not keep its flow. -/

namespace Sys2Proof.Machine

/-- An `EPI` to store queue 0, without scale, bias, activation or watch. -/
def plainEpi : EpiF := ⟨.sq 0, 0, 0, 0, .f32, 0, false, false, .rne, false, false⟩

/-- One output row is left to push, the queue is empty and it is the instruction's turn; the issue is marked as waiting. -/
def lastRowStalled : State :=
  { ctxs := [(0, { status := .run, sqs := Vector.replicate 4 { prods := [1] } })]
    iss := { unit := .t, id := 1, prog := 47, flow := .stalled } }

theorem flow_after_lastRow {t : State} (h : exec (.epi plainEpi) lastRowStalled = .next t) : t.iss.flow = .again := by
  rw [← Host.Outcome.next.inj h]; decide +kernel

/-- Refutes O36: the statement has the flow of the issue kept wherever the queue has room, of any flow; the row is pushed, and the flow
goes from waiting to one more granule. -/
theorem not_epilogueResults : ¬ Obligations.EpilogueResults := by
  unfold Obligations.EpilogueResults
  intro h
  obtain ⟨hdest, -⟩ := h lastRowStalled plainEpi (.inl rfl) (by decide +kernel)
  obtain ⟨-, hqueue⟩ := hdest fun hwatch => absurd hwatch (by decide)
  obtain ⟨t, ht, hflow, -⟩ := hqueue 0 rfl (by decide +kernel)
  rw [flow_after_lastRow ht] at hflow
  exact absurd hflow (by decide)

end Sys2Proof.Machine
end

section
/-! The accumulator instructions (R161, R162, R346). The statement of O35 holds just where the free
value of log 20 is 0 on the scratchpad's granules (`accumulatorInstructions_iff`); the model leaves that value open. -/

namespace Sys2Proof.Machine

-- An access to the scratchpad in range, and out of it.

theorem State.withRegions_of_free {s : State} {cell key : Nat} {rs : List Nat} (h : s.regionsFree cell key rs) (k : State → State) :
    s.withRegions cell key rs k = k (s.own cell key rs) := by
  have hnone : rs.findSome? (fun r => (s.regionBusy cell key r).map fun i => (r, i)) = none :=
    List.findSome?_eq_none_iff.2 fun r hr => by rw [h r hr]; rfl
  rw [State.withRegions, hnone]

theorem State.withSpad_of_usable {s : State} {x n : Nat} (husable : s.spadUsable x n) :
    ∃ cs, ∀ k, s.withSpad x n k = k { s with cells := cs } := by
  obtain ⟨hrange, hfree⟩ := husable
  obtain ⟨cs, hcs⟩ := s.own_eq s.myCell (s.teamKey s.iss.src) (regionsOf x n)
  have hok : spadOk x n = true := decide_eq_true hrange
  exact ⟨cs, fun k => by rw [State.withSpad, if_pos hok, State.withRegions_of_free hfree, hcs]⟩

theorem State.withSpad_out_of_range (s : State) {x n : Nat} (h : 0x180000 < x + n) (k : State → State) :
    s.withSpad x n k = s.fatal .spadRange := by
  have hrange : ¬ spadOk x n = true := fun hok => Nat.not_le_of_lt h (of_decide_eq_true hok)
  rw [State.withSpad, if_neg hrange]

-- A write of one accumulator.

theorem setsAcc_setAcc (s : State) (a : BitVec 2) (v : Acc) : SetsAcc s (s.modMe fun c => c.setAcc a v) a v 0 := by
  refine ⟨fun n hn => ?_, rfl, ?_, ?_, fun b hb => ?_⟩
  · rw [State.modMe, State.ctx_modCtx, if_neg hn.symm]
  · have hflags : s.me.nflags ||| 0 = s.me.nflags := BitVec.or_zero
    rw [State.me_modMe, hflags]
    rfl
  · rw [State.me_modMe, Ctx.acc_setAcc, if_pos rfl]
  · rw [State.me_modMe, Ctx.acc_setAcc, if_neg hb.symm]

theorem SetsAcc.of_before {s u t : State} {a : BitVec 2} {v : Acc} {fl : NFlags} (h : SetsAcc u t a v fl) (hctxs : u.ctxs = s.ctxs)
    (hiss : u.iss = s.iss) : SetsAcc s t a v fl := by
  have hctx (n : Nat) : u.ctx n = s.ctx n := by rw [State.ctx, State.ctx, hctxs]
  have hme : u.me = s.me := by rw [State.me, State.me, hiss, hctx]
  rw [SetsAcc, hiss, hme] at h
  obtain ⟨hothers, hrest⟩ := h
  exact ⟨fun n hn => (hothers n hn).trans (hctx n), hrest⟩

/-- An accumulator without poison, of value `v`. -/
def State.putAcc (s : State) (a : BitVec 2) (v : Acc) : State := (s.cleanAcc a).modMe fun c => c.setAcc a v

theorem setsAcc_putAcc (s : State) (a : BitVec 2) (v : Acc) : SetsAcc s (s.putAcc a v) a v 0 :=
  (setsAcc_setAcc (s.cleanAcc a) a v).of_before rfl rfl

theorem accPoisoned_putAcc (s : State) (a : BitVec 2) (v : Acc) : (s.putAcc a v).accPoisoned a = false := by
  simp [State.putAcc, State.accPoisoned, State.cleanAcc]

-- The instructions.

theorem exec_mzero (a : BitVec 2) (s : State) : exec (.mzero a) s = .next (s.putAcc a (s.me.acc a).cleared) := rfl

theorem exec_mlda (a : BitVec 2) (r : Reg) (s : State) : exec (.mlda a r) s = execMlda a r s := rfl

theorem exec_msta (a : BitVec 2) (r : Reg) (s : State) : exec (.msta a r) s = execMsta a r s := rfl

/-- The accumulator that the 9,216 bytes at `x` make. -/
def State.loadedAcc (s : State) (a : BitVec 2) (x : Nat) : Acc :=
  { (s.me.acc a).cleared with rows := Vector.ofFn fun i => rowOf (s.spadRead s.pathK s.myCell (x + 192 * i.val) 192) }

theorem mlda_of_usable {s : State} {a : BitVec 2} {r : Reg} {x : Nat} (hx : x = (s.scalar r).toNat) (husable : s.spadUsable x 9216)
    (hpoison : s.spadPoisoned s.myCell x 9216 = false) :
    ∃ cs, exec (.mlda a r) s = .next (({ s with cells := cs } : State).putAcc a (s.loadedAcc a x)) := by
  obtain ⟨cs, hk⟩ := State.withSpad_of_usable husable
  have hsound : ({ s with cells := cs } : State).spadPoisoned ({ s with cells := cs } : State).myCell x 9216 = false := hpoison
  refine ⟨cs, ?_⟩
  rw [exec_mlda, execMlda, ← hx]
  dsimp only
  rw [hk, hsound]
  rfl

theorem msta_of_usable {s : State} {a : BitVec 2} {r : Reg} {x : Nat} (hx : x = (s.scalar r).toNat) (husable : s.spadUsable x 9216)
    (hpoison : s.accPoisoned a = false) :
    ∃ cs, exec (.msta a r) s = .next (({ s with cells := cs } : State).spadWrite s.pathK s.myCell x (s.me.acc a).bytes) := by
  obtain ⟨cs, hk⟩ := State.withSpad_of_usable husable
  have hsound : ({ s with cells := cs } : State).accPoisoned a = false := hpoison
  refine ⟨cs, ?_⟩
  rw [exec_msta, execMsta, ← hx, hk, hsound]
  rfl

theorem progWord_eq (x : Acc) : x.progWord = BitVec.ofNat 64 (x.prog % 65536 + 2 ^ 16 * (x.cnt % 65536) +
    (if x.begun then 2 ^ 32 else 0) + (if x.restart.isSome then 2 ^ 33 else 0)) := by
  have hbit (b : Bool) (n : Nat) : n * b2n b = if b then n else 0 := by cases b <;> simp [b2n]
  rw [Acc.progWord, w64, hbit, hbit]

-- A write through the K path of a dispatched entry (R245). A write that something orders before that entry alone (R316) is shown to the
-- entry and not to the class of its path, so the free value of log 20 places the entry's own write before or after it.

theorem LateW.insert_zero (w : LateW) (ws : List LateW) : w.insert ws 0 = ws ++ [w] := by simp [LateW.insert]

section
variable {p : Path} {c a : Nat} {bs : List Byte}

/-- A write that the free value places last writes the granule's own bytes. -/
theorem lateWriteAt_bytes_of_last {k : Nat} (hlast : Config.landsBefore c k = 0) (acc : List Host.Cell × List (Nat × Gran)) :
    (lateWriteAt p c a bs acc k).1 =
      mwrites acc.1 (max a (64 * k)) ((bs.drop (max a (64 * k) - a)).take (min (a + bs.length) (64 * k + 64) - max a (64 * k))) := by
  have hlen : ((bs.drop (max a (64 * k) - a)).take (min (a + bs.length) (64 * k + 64) - max a (64 * k))).length =
      min (a + bs.length) (64 * k + 64) - max a (64 * k) := by simp; omega
  rw [lateWriteAt]
  dsimp only
  rw [hlast, LateW.insert_zero, Gran.now_append, slice_patch _ _ hlen]

/-- So the bytes written do not depend on the writes that stand there. -/
theorem foldl_lateWriteAt_bytes_of_last {ks : List Nat} (hlast : ∀ k ∈ ks, Config.landsBefore c k = 0)
    {acc acc' : List Host.Cell × List (Nat × Gran)} (h : acc.1 = acc'.1) :
    (ks.foldl (lateWriteAt p c a bs) acc).1 = (ks.foldl (lateWriteAt p c a bs) acc').1 := by
  induction ks generalizing acc acc' with
  | nil => exact h
  | cons k ks ih =>
    obtain ⟨hk, hks⟩ := List.forall_mem_cons.1 hlast
    exact ih hks (by rw [lateWriteAt_bytes_of_last hk, lateWriteAt_bytes_of_last hk, h])

/-- Byte `b` after a write is what the write of its own granule leaves there. -/
theorem mread_foldl_own_granule {ks : List Nat} (hdup : ks.Nodup) {b : Nat} (hb : b / 64 ∈ ks)
    (acc : List Host.Cell × List (Nat × Gran)) : ∃ acc' : List Host.Cell × List (Nat × Gran),
      tfind acc'.2 (b / 64) = tfind acc.2 (b / 64) ∧
      mread (ks.foldl (lateWriteAt p c a bs) acc).1 b = mread (lateWriteAt p c a bs acc' (b / 64)).1 b := by
  induction ks generalizing acc with
  | nil => cases hb
  | cons k ks ih =>
    obtain ⟨hnot, hdup⟩ := List.nodup_cons.1 hdup
    by_cases heq : b / 64 = k
    · exact ⟨acc, rfl, by rw [List.foldl_cons, mread_foldl_other (by rwa [heq]), heq]⟩
    · obtain ⟨acc', hfind, hread⟩ := ih hdup ((List.mem_cons.1 hb).resolve_left heq) (lateWriteAt p c a bs acc k)
      exact ⟨acc', hfind.trans (tfind_lateWriteAt_other heq), hread⟩

end

theorem spadWritten_of_last {s : State} {p : Path} {cell a : Nat} {bs : List Byte} (hend : a + bs.length ≤ 2 ^ 21)
    (hlast : ∀ k ∈ granulesOf (spadKey cell a) bs.length, Config.landsBefore s.choices k = 0) :
    SpadWritten s (s.spadWrite p cell a bs) p cell a bs := by
  have hspad : (({ s with late := [] } : State).spadWrite { p with ent := 0 } cell a bs).spad = (s.spadWrite p cell a bs).spad := by
    simp only [State.spadWrite, lateWrite_eq_foldl]
    exact foldl_lateWriteAt_bytes_of_last hlast rfl
  have hnow (c b n : Nat) : (s.spadWrite p cell a bs).spadNow c b n =
      (({ s with late := [] } : State).spadWrite { p with ent := 0 } cell a bs).spadNow c b n := by
    rw [State.spadNow, State.spadNow, hspad]
  obtain ⟨hbytes, hothers⟩ := spadWritten_spadWrite { s with late := [] } (p := { p with ent := 0 }) rfl cell hend
  refine ⟨fun _ => (hnow ..).trans (hbytes fun _ _ _ h => by cases h), fun c b hb hother => (hnow ..).trans (hothers c b hb hother)⟩

theorem length_accBytes (a : Acc) : a.bytes.length = 9216 := by
  simp [Acc.bytes, List.length_flatMap, rowBytes]

-- Where the free value is not 0 somewhere, a `MSTA` there can leave a byte that is not its own.

/-- A write of 1 to the first byte of a granule, which something orders before entry 1 alone. -/
def oneBeforeEntry : LateW := { off := 0, bytes := [1], cls := 5, src := 0, seers := [entryAgent 1] }

/-- As many of them as the free value says that a write to granule `k` lands before. -/
def landedBefore (c k : Nat) : List LateW := List.replicate (Config.landsBefore c k) oneBeforeEntry

/-- They stand in granule `k`; an instruction of the first thread of its cell, entry 1, has `x` in scalar 1. -/
def storeOverLanded (c k x : Nat) : State :=
  { choices := c, iss := { src := 4 * (k / 2 ^ 15), unit := .t, id := 1, capt := some [(1, BitVec.ofNat 64 x)] }
    late := [(k, ⟨[], landedBefore c k⟩)] }

theorem shown_of_mem_landedBefore {c k : Nat} {w : LateW} (hw : w ∈ landedBefore c k) {p : Path} (hcls : p.cls = 1) (hnode : p.node = none)
    (hsrc : p.src ≠ 65537) : w.shown p = decide (p.ent = 1) := by
  obtain rfl := List.eq_of_mem_replicate hw
  simp [LateW.shown, oneBeforeEntry, entryAgent, hcls, hnode, hsrc]
  omega

theorem LateW.insert_front {w : LateW} {ws : List LateW}
    (h : ∀ x ∈ ws, x.shown { cls := w.cls, src := w.src, node := w.node } = false) : w.insert ws ws.length = w :: ws := by
  have htail : ws.reverse.takeWhile (fun x => !(x.shown { cls := w.cls, src := w.src, node := w.node })) = ws.reverse :=
    List.takeWhile_eq_self_iff.2 fun x hx => by rw [h x (List.mem_reverse.1 hx)]; rfl
  have hplace : (if ws.length = 0 then ws.length else ws.length - ws.length % (ws.length + 1)) = 0 := by
    rw [Nat.mod_eq_of_lt (Nat.lt_succ_self _)]
    split <;> omega
  rw [LateW.insert, htail, List.length_reverse, hplace]
  rfl

theorem head_slice_now_landedBefore {c k : Nat} (hpos : Config.landsBefore c k ≠ 0) (w : LateW) {n : Nat} (hn : n ≠ 0) :
    (slice ({ base := [], ws := w :: landedBefore c k } : Gran).now 0 n)[0]? = some 1 := by
  obtain ⟨m, hm⟩ := Nat.exists_eq_succ_of_ne_zero hpos
  obtain ⟨j, rfl⟩ := Nat.exists_eq_succ_of_ne_zero hn
  have hnow : ({ base := [], ws := w :: landedBefore c k } : Gran).now =
      patch ({ base := [], ws := w :: List.replicate m oneBeforeEntry } : Gran).now 0 [1] := by
    rw [landedBefore, hm, List.replicate_succ', ← List.cons_append]
    exact Gran.now_append { base := [], ws := w :: List.replicate m oneBeforeEntry } oneBeforeEntry
  rw [hnow]
  simp [slice, patch]

theorem mread_lateWriteAt_landedBefore {p : Path} {c a k : Nat} {bs : List Byte} {acc : List Host.Cell × List (Nat × Gran)}
    (hcls : p.cls = 1) (hnode : p.node = none) (hsrc : p.src ≠ 65537) (hpos : Config.landsBefore c k ≠ 0) (hlo : a ≤ 64 * k)
    (hhi : 64 * k < a + bs.length) (hg : tfind acc.2 k = some ⟨[], landedBefore c k⟩) :
    mread (lateWriteAt p c a bs acc k).1 (64 * k) = 1 := by
  have hfront (w : LateW) (hw : ({ cls := w.cls, src := w.src, node := w.node } : Path) = { p with ent := 0 }) :
      w.insert (landedBefore c k) (Config.landsBefore c k) = w :: landedBefore c k := by
    have hinsert := LateW.insert_front (w := w) (ws := landedBefore c k) fun x hx => by
      rw [hw, shown_of_mem_landedBefore (p := { p with ent := 0 }) hx hcls hnode hsrc]; rfl
    rwa [landedBefore, List.length_replicate] at hinsert
  rw [lateWriteAt]
  dsimp only
  rw [hg, Nat.max_eq_right hlo, Nat.sub_self, Option.getD_some, hfront _ rfl]
  obtain ⟨hlen, hone⟩ := List.getElem?_eq_some_iff.1 (head_slice_now_landedBefore hpos
    { off := 0, bytes := (bs.drop (64 * k - a)).take (min (a + bs.length) (64 * k + 64) - 64 * k), cls := p.cls, src := p.src, node := p.node }
    (n := min (a + bs.length) (64 * k + 64) - 64 * k) (by omega))
  rw [← hone]
  exact mread_mwrites_self _ _ (64 * k) 0 hlen

theorem mem_bytes_of_default {b : Byte} (h : b ∈ ({} : Acc).bytes) : b = 0 := by
  obtain ⟨r, hr, hb⟩ := List.mem_flatMap.1 h
  obtain rfl : r = 0 := by simpa using hr
  obtain ⟨i, -, rfl⟩ := List.mem_map.1 hb
  exact BitVec.eq_of_toNat_eq (by simp)

theorem mread_of_mreads {m : List Host.Cell} {bs : List Byte} {a i : Nat} (h : mreads m a bs.length = bs) (hi : i < bs.length) :
    mread m (a + i) = bs[i] := by
  induction bs generalizing a i with
  | nil => cases hi
  | cons x xs ih =>
    obtain ⟨hx, hxs⟩ := List.cons.inj h
    cases i with
    | zero => exact hx
    | succ i =>
      rw [← Nat.add_assoc, Nat.add_right_comm]
      exact ih hxs (Nat.lt_of_succ_lt_succ hi)

theorem not_spadWritten_over_landedBefore {s : State} {p : Path} {cell x k : Nat} {bs : List Byte} (hcls : p.cls = 1)
    (hnode : p.node = none) (hsrc : p.src ≠ 65537) (hent : p.ent = 1) (hlate : s.late = [(k, ⟨[], landedBefore s.choices k⟩)])
    (hpos : Config.landsBefore s.choices k ≠ 0) (hlo : spadKey cell x ≤ 64 * k) (hhi : 64 * k < spadKey cell x + bs.length)
    (hzero : ∀ b ∈ bs, b = 0) : ¬ SpadWritten s (s.spadWrite p cell x bs) p cell x bs := by
  rintro ⟨hbytes, -⟩
  have hshown : s.noneLate p cell x bs.length := fun j _ g hg w hw => by
    rw [hlate] at hg
    obtain ⟨rfl, rfl⟩ : k = j ∧ (⟨[], landedBefore s.choices k⟩ : Gran) = g := by simpa [tfind] using hg
    simp [shown_of_mem_landedBefore hw hcls hnode hsrc, hent]
  obtain ⟨i, hi⟩ := Nat.exists_eq_add_of_le hlo
  have hread := mread_of_mreads (hbytes hshown) (i := i) (by omega)
  rw [hzero _ (List.getElem_mem _), ← hi, State.spadWrite] at hread
  dsimp only at hread
  obtain ⟨acc, hacc, hgran⟩ := mread_foldl_own_granule (p := p) (c := s.choices) (a := spadKey cell x) (bs := bs)
    (nodup_granulesOf ..) (b := 64 * k) (mem_granulesOf hlo hhi) (s.spad, s.late)
  rw [Nat.mul_div_cancel_left _ (by decide)] at hacc hgran
  rw [lateWrite_eq_foldl, hgran, mread_lateWriteAt_landedBefore hcls hnode hsrc hpos hlo hhi
    (hacc.trans (by rw [hlate]; exact if_pos rfl))] at hread
  exact absurd hread (by decide)

theorem landsBefore_eq_zero_of_msta (h : ∀ (s : State) (a : BitVec 2) (r : Reg),
    s.spadUsable (s.scalar r).toNat 9216 → s.accPoisoned a = false → ∃ t, exec (.msta a r) s = .next t ∧
      SpadWritten s t s.pathK s.myCell (s.scalar r).toNat (s.me.acc a).bytes) (c k : Nat) (hk : k % 2 ^ 15 < 24576) :
    Config.landsBefore c k = 0 := by
  by_contra hpos
  obtain ⟨x, hxdef⟩ : ∃ x, x = min (64 * (k % 2 ^ 15)) (0x180000 - 9216) := ⟨_, rfl⟩
  have hx : ((storeOverLanded c k x).scalar 1).toNat = x :=
    (BitVec.toNat_ofNat ..).trans (Nat.mod_eq_of_lt (by omega))
  have hcell : (storeOverLanded c k x).myCell = k / 2 ^ 15 := Nat.mul_div_cancel_left _ (by decide)
  have husable : (storeOverLanded c k x).spadUsable x 9216 := ⟨by omega, fun _ _ => rfl⟩
  obtain ⟨t, ht, hwritten⟩ := h (storeOverLanded c k x) 0 1 (by rwa [hx]) rfl
  obtain ⟨cs, hexec⟩ := msta_of_usable (a := 0) hx.symm husable rfl
  obtain rfl := Host.Outcome.next.inj (hexec.symm.trans ht)
  rw [hx] at hwritten
  refine not_spadWritten_over_landedBefore (s := storeOverLanded c k x) rfl rfl (show 4 * (k / 2 ^ 15) ≠ 65537 by omega) rfl rfl hpos ?_ ?_
    (fun _ => mem_bytes_of_default) hwritten
  · show spadKey (storeOverLanded c k x).myCell x ≤ 64 * k
    rw [hcell, spadKey]; omega
  · show 64 * k < spadKey (storeOverLanded c k x).myCell x + ((storeOverLanded c k x).me.acc 0).bytes.length
    rw [hcell, spadKey, length_accBytes]; omega

theorem mod_lt_of_mem_granulesOf {cell x n k : Nat} (hk : k ∈ granulesOf (spadKey cell x) n) (hend : x + n ≤ 0x180000) :
    k % 2 ^ 15 < 24576 := by
  rw [granulesOf] at hk
  split at hk
  · cases hk
  · obtain ⟨i, hi, rfl⟩ := List.mem_map.1 hk
    rw [List.mem_range, spadKey] at hi
    rw [spadKey]
    omega

/-- The statement of O35 is one about the free value of log 20: each of its other clauses holds, and that of `MSTA` holds where no write
lands before one that is ordered before the entry alone. -/
theorem accumulatorInstructions_iff :
    Obligations.AccumulatorInstructions ↔ ∀ c k, k % 2 ^ 15 < 24576 → Config.landsBefore c k = 0 := by
  unfold Obligations.AccumulatorInstructions
  refine ⟨fun ⟨_, _, hmsta, _⟩ => landsBefore_eq_zero_of_msta fun s a r husable hpoison => ?_, fun hlast => ⟨fun s a => ?mzero,
    fun s a r husable hpoison => ?mlda, fun s a r husable hpoison => ?msta, fun r a s h => ?range,
    fun d a => .of_eq fun s => ?mprog, fun a off => .of_mod fun s _ => rfl⟩⟩
  · obtain ⟨t, ht, -, hwritten⟩ := hmsta s a r husable hpoison
    exact ⟨t, ht, hwritten⟩
  case mzero => exact ⟨_, exec_mzero a s, rfl, setsAcc_putAcc .., accPoisoned_putAcc ..⟩
  case mlda =>
    obtain ⟨cs, hexec⟩ := mlda_of_usable rfl husable hpoison
    exact ⟨_, hexec, rfl, (setsAcc_putAcc ..).of_before rfl rfl⟩
  case msta =>
    obtain ⟨cs, hexec⟩ := msta_of_usable rfl husable hpoison
    have hlen := length_accBytes (s.me.acc a)
    obtain ⟨hrange, -⟩ := husable
    have hwritten := spadWritten_of_last (s := { s with cells := cs }) (p := s.pathK) (cell := s.myCell) (a := (s.scalar r).toNat)
      (bs := (s.me.acc a).bytes)
      (by omega) fun k hk => hlast _ _ (mod_lt_of_mem_granulesOf hk (by rw [hlen]; exact hrange))
    exact ⟨_, hexec, rfl, hwritten.congr rfl rfl rfl⟩
  case range => exact ⟨by rw [exec_mlda, execMlda, s.withSpad_out_of_range h], by rw [exec_msta, execMsta, s.withSpad_out_of_range h]⟩
  case mprog => rw [← progWord_eq]; rfl

end Sys2Proof.Machine
end

section
/-! The positions of a K-step (R107, R108): the codes of a row of words, and exact sums of products of integers. -/

namespace Sys2Proof.Machine

theorem foldr_digit (w : Nat) (l : List Nat) (i : Nat) :
    (l.foldr (fun x acc => x % 2 ^ w + 2 ^ w * acc) 0) / 2 ^ (w * i) % 2 ^ w = l[i]?.getD 0 % 2 ^ w := by
  induction l generalizing i with
  | nil => simp
  | cons x l ih =>
    rw [List.foldr_cons]
    cases i with
    | zero => simp [Nat.add_mod]
    | succ i =>
      rw [Nat.mul_succ, Nat.add_comm (w * i), Nat.pow_add, ← Nat.div_div_eq_div_mul, Nat.add_mul_div_left _ _ (Nat.two_pow_pos w),
        Nat.div_eq_of_lt (Nat.mod_lt _ (Nat.two_pow_pos w)), Nat.zero_add, ih, List.getElem?_cons_succ]

theorem getElem?_elems_ofElems {w j : Nat} {l : List Nat} (hfit : w * j + w ≤ 1536) (hw : j < 1536 / w) :
    (elems w (ofElems w l))[j]? = some (l[j]?.getD 0 % 2 ^ w) := by
  have hpow (n : Nat) (h : w * j ≤ n) : 2 ^ n = 2 ^ (w * j) * 2 ^ (n - w * j) := by rw [← Nat.pow_add, Nat.add_sub_cancel' h]
  have hsplit := hpow 1536 (by omega)
  have hdvd : 2 ^ w ∣ 2 ^ (1536 - w * j) := Nat.pow_dvd_pow _ (by omega)
  rw [getElem?_elems hw, ofElems, BitVec.extractLsb'_toNat, BitVec.toNat_ofNat, Nat.shiftRight_eq_div_pow, hsplit,
    Nat.mod_mul_right_div_self, Nat.mod_mod_of_dvd _ hdvd, foldr_digit]

/-- An exact value that is a given integer; a zero has either sign. -/
def IsInt (x : Num) (v : Int) : Prop := x = .ofInt v ∨ v = 0 ∧ ∃ b, x = .zero b

theorem IsInt.eq_zero {x : Num} (h : IsInt x 0) : ∃ b, x = .zero b := h.elim (fun h => ⟨false, h⟩) (·.2)

theorem IsInt.eq_fin {x : Num} {v : Int} (h : IsInt x v) (hv : v ≠ 0) : x = .fin (v < 0) v.natAbs 0 false := by
  rcases h with rfl | ⟨rfl, -⟩
  · simp [Num.ofInt, Num.ofScaled, hv]
  · exact absurd rfl hv

theorem sgn_natAbs (v : Int) : sgn (decide (v < 0)) v.natAbs = v := by
  rcases lt_or_ge v 0 with h | h
  · rw [sgn, decide_eq_true h, if_pos rfl, Int.ofNat_natAbs_of_nonpos h.le, neg_neg]
  · rw [sgn, decide_eq_false h.not_gt, if_neg Bool.false_ne_true, Int.natAbs_of_nonneg h]

theorem IsInt.mul (a b : Int) : IsInt (Num.mul (.ofInt a) (.ofInt b)).1 (a * b) := by
  by_cases ha : a = 0
  · subst ha
    by_cases hb : b = 0 <;> simp [IsInt, Num.ofInt, Num.ofScaled, Num.mul, hb]
  · by_cases hb : b = 0
    · simp [IsInt, Num.ofInt, Num.ofScaled, Num.mul, ha, hb]
    · refine .inl ?_
      have hsign : (decide (a < 0) != decide (b < 0)) = decide (a * b < 0) := by
        rcases lt_or_gt_of_ne ha with ha' | ha' <;> rcases lt_or_gt_of_ne hb with hb' | hb' <;>
          simp [mul_neg_iff, ha', hb', ha'.not_gt, hb'.not_gt]
      simp [Num.ofInt, Num.ofScaled, Num.mul, ha, hb, Int.natAbs_mul, hsign]

theorem IsInt.add {x y : Num} {a b : Int} (hx : IsInt x a) (hy : IsInt y b) : IsInt (Num.add .rne x y).1 (a + b) := by
  by_cases ha : a = 0
  · subst ha
    obtain ⟨s, rfl⟩ := hx.eq_zero
    rw [Int.zero_add]
    by_cases hb : b = 0
    · subst hb
      obtain ⟨t, rfl⟩ := hy.eq_zero
      exact .inr ⟨rfl, _, rfl⟩
    · obtain rfl := hy.eq_fin hb
      exact hy
  · obtain rfl := hx.eq_fin ha
    by_cases hb : b = 0
    · subst hb
      obtain ⟨t, rfl⟩ := hy.eq_zero
      rw [Int.add_zero]
      exact hx
    · obtain rfl := hy.eq_fin hb
      left
      simp [Num.add, sgn_natAbs, Num.ofInt]

theorem IsInt.foldl_add {x : Num} {v : Int} (hx : IsInt x v) (xs ys : List Int) :
    IsInt (((xs.map Num.ofInt).zip (ys.map Num.ofInt)).foldl (fun acc p => (Num.add .rne acc (Num.mul p.1 p.2).1).1) x)
      (((xs.zip ys).map fun p => p.1 * p.2).sum + v) := by
  induction xs generalizing x v ys with
  | nil => simpa using hx
  | cons a xs ih =>
    cases ys with
    | nil => simpa using hx
    | cons b ys =>
      have := ih (hx.add (.mul a b)) ys
      simp only [List.map_cons, List.zip_cons_cons, List.foldl_cons, List.sum_cons]
      rwa [show a * b + ((xs.zip ys).map fun p => p.1 * p.2).sum + v = ((xs.zip ys).map fun p => p.1 * p.2).sum + (v + a * b) by omega]

theorem kDot_of_ints (xs ys : List Int) (v : Int) :
    let sum := ((xs.zip ys).map fun p => p.1 * p.2).sum + v
    kDot (xs.map Num.ofInt) (ys.map Num.ofInt) (Num.ofInt v) = if sum = 0 then (0, 0) else fp32.round .rne false (Num.ofInt sum) := by
  intro sum
  have h : IsInt _ sum := IsInt.foldl_add (.inl rfl) xs ys
  rw [kDot]
  by_cases hs : sum = 0
  · rw [if_pos hs]
    rw [hs] at h
    obtain ⟨b, hb⟩ := h.eq_zero
    rw [hb]
  · rw [if_neg hs]
    have hf := h.eq_fin hs
    have hint : Num.ofInt sum = .fin (sum < 0) sum.natAbs 0 false := IsInt.eq_fin (.inl rfl) hs
    rw [hf, hint]

theorem kDot_fst_lt (xs ys : List Num) (v : Num) : (kDot xs ys v).1 < 2 ^ 32 := by
  have hround (x : Num) : (fp32.round .rne false x).1 < 2 ^ 32 := by
    have hsign (b : Bool) : fp32.sign b ≤ 2 ^ 31 := by cases b <;> decide
    cases x with
    | nan => decide
    | inf b => cases b <;> decide
    | zero b => cases b <;> decide
    | fin b m e more =>
      rw [Fmt.round]
      split
      · cases b <;> decide
      · next h =>
        have := hsign b
        have h' : fp32.top = 0x7F7FFFFF := rfl
        dsimp only
        omega
  rw [kDot]
  split
  · decide
  · exact hround _

theorem rows_kStep (a : Acc) (as bs : List (List Num)) {i : Nat} (hi : i < 48) (has : as.length = 48) :
    (a.kStep as bs).1.rows.toList[i]?.getD 0 =
      ofElems 32 ((bs.zip (elems 32 (a.rows.toList[i]?.getD 0))).map fun q => (kDot as[i] q.1 (fp32.num q.2)).1) := by
  rw [Acc.kStep]
  simp [hi, has, Function.comp_def]

theorem elem_kStep (a : Acc) {as bs : List (List Num)} {i j : Nat} (has : as.length = 48) (hbs : bs.length = 48) (hi : i < 48) (hj : j < 48) :
    ∃ x y, as[i]? = some x ∧ bs[j]? = some y ∧ (elems 32 ((a.kStep as bs).1.rows.toList[i]?.getD 0))[j]? =
      some (kDot x y (fp32.num ((elems 32 (a.rows.toList[i]?.getD 0))[j]?.getD 0))).1 := by
  refine ⟨as[i], bs[j], by simp, by simp, ?_⟩
  rw [rows_kStep a as bs hi has, getElem?_elems_ofElems (by omega) (by omega)]
  have hold := getElem?_elems (w := 32) (e := j) (by omega) (a.rows.toList[i]?.getD 0)
  have hj' : bs[j]? = some bs[j] := by simp
  rw [List.getElem?_map, List.getElem?_zip_eq_some (z := (_, _)).2 ⟨hj', hold⟩]
  rw [hold]
  simp only [Option.map_some, Option.getD_some]
  exact congrArg some (Nat.mod_eq_of_lt (kDot_fst_lt ..))

end Sys2Proof.Machine
end

section
/-! The tensor unit (R148, R149). An `MMA` that takes a step asks for tokens, owns the regions of its operands, spends the tokens and
ends its wait, which may write a windsock record (R405), and only then fetches its operands. -/

namespace Sys2Proof.Machine

-- What an `MMA` changes before its step.

/-- What changes while an `MMA` that has begun takes its tokens. -/
structure TokensTaken (s w : State) : Prop where
  rest : w = { s with
    ctxs := w.ctxs, cols := w.cols, cells := w.cells, vers := w.vers, seq := w.seq, choices := w.choices, parts := w.parts }
  others : OthersKept s w s.iss.src
  me : w.me = { s.me with qwaits := w.me.qwaits }

/-- What changes from the start of an `MMA` until it has its tokens. -/
structure MmaPrelude (s w : State) : Prop where
  rest : w = { s with
    ctxs := w.ctxs, psnAcc := w.psnAcc, cols := w.cols, cells := w.cells, vers := w.vers, seq := w.seq, choices := w.choices
    parts := w.parts }
  others : OthersKept s w s.iss.src
  me : w.me = { s.me with accs := w.me.accs, qwaits := w.me.qwaits }

theorem TokensTaken.iss {s w : State} (h : TokensTaken s w) : w.iss = s.iss := by rw [h.rest]

theorem TokensTaken.accs {s w : State} (h : TokensTaken s w) : w.me.accs = s.me.accs := by rw [h.me]

theorem TokensTaken.psnAcc {s w : State} (h : TokensTaken s w) : w.psnAcc = s.psnAcc := by rw [h.rest]

theorem TokensTaken.of_ctxs {s w : State} (h : w = { s with
    cols := w.cols, cells := w.cells, vers := w.vers, seq := w.seq, choices := w.choices, parts := w.parts }) : TokensTaken s w := by
  have hctxs : w.ctxs = s.ctxs := by rw [h]
  have hiss : w.iss = s.iss := by rw [h]
  have hctx (n : Nat) : w.ctx n = s.ctx n := by rw [State.ctx, State.ctx, hctxs]
  refine ⟨?_, fun n _ => hctx n, ?_⟩
  · rw [hctxs]; exact h
  · rw [State.me, State.me, hiss, hctx]

theorem TokensTaken.trans {s u w : State} (h : TokensTaken s u) (k : TokensTaken u w) : TokensTaken s w := by
  refine ⟨?_, fun n hn => ?_, ?_⟩
  · rw [k.rest, h.rest]
  · rw [k.others n (by rwa [h.iss]), h.others n hn]
  · rw [k.me, h.me]

theorem TokensTaken.asks (s : State) (cell : Nat) : TokensTaken s (s.asks cell) := .of_ctxs rfl

theorem TokensTaken.own (s : State) (cell key : Nat) (rs : List Nat) : TokensTaken s (s.own cell key rs) := by
  obtain ⟨cs, h⟩ := s.own_eq cell key rs
  rw [h]
  exact .of_ctxs rfl

theorem TokensTaken.windsock (s : State) (part waiter kind setter outcome waited id : Nat) :
    TokensTaken s (s.windsock part waiter kind setter outcome waited id) := by
  unfold State.windsock
  dsimp only
  split
  · exact .of_ctxs rfl
  · exact .of_ctxs rfl

theorem TokensTaken.recordWait (s : State) (src : Nat) (w : Wait) (setter outcome : Nat) :
    TokensTaken s (s.recordWait src w setter outcome) := .windsock ..

theorem State.me_modCtx_src {s u : State} (h : u.iss = s.iss) (g : Ctx → Ctx) : (u.modCtx s.iss.src g).me = g u.me := by
  rw [← h]
  exact u.me_modMe g

theorem TokensTaken.endUnitWait (s : State) : TokensTaken s (s.endUnitWait s.iss.src s.iss.id) := by
  unfold State.endUnitWait
  split
  · exact .of_ctxs rfl
  · next w _ =>
    have hrecord := TokensTaken.recordWait s s.iss.src w (if w.kind = 0 then s.iss.src else 0xFFF) 0
    refine hrecord.trans ⟨rfl, fun n hn => ?_, ?_⟩
    · rw [hrecord.iss] at hn
      rw [State.ctx_modCtx, if_neg hn.symm]
    · have hme := State.me_modCtx_src hrecord.iss fun c => { c with qwaits := tdel c.qwaits s.iss.id }
      rw [hme]

theorem TokensTaken.spend (s : State) (n : Nat) : TokensTaken s (s.spend n) :=
  .trans (u := s.modCol (columnOf s.myCell) fun _ => _) (.of_ctxs rfl) (.endUnitWait (s.modCol _ _))

theorem MmaPrelude.iss {s w : State} (h : MmaPrelude s w) : w.iss = s.iss := by rw [h.rest]

theorem MmaPrelude.taken {s u w : State} (h : MmaPrelude s u) (k : TokensTaken u w) : MmaPrelude s w := by
  refine ⟨?_, fun n hn => ?_, ?_⟩
  · rw [k.rest, h.rest]
  · rw [k.others n (by rwa [h.iss]), h.others n hn]
  · rw [k.me, h.me]

-- The start of an `MMA`.

theorem State.mmaBegin_eq (s : State) (f : MmaF) :
    s.mmaBegin f = { s with ctxs := (s.mmaBegin f).ctxs, psnAcc := (s.mmaBegin f).psnAcc } := by
  unfold State.mmaBegin
  dsimp only
  split
  · rfl
  · split <;> rfl

theorem State.mmaBegin_of_begun {s : State} {f : MmaF} (h : (s.me.acc f.acc).begun = true) : s.mmaBegin f = s := if_pos h

theorem State.mmaBegin_of_not_begun {s : State} {f : MmaF} (h : (s.me.acc f.acc).begun = false) :
    s.mmaBegin f = (if f.z then s.cleanAcc f.acc else s).modMe fun c => c.setAcc f.acc (s.mmaStart f) := by
  have h' : ¬ (s.me.acc f.acc).begun = true := by rw [h]; exact Bool.false_ne_true
  rw [State.mmaBegin, if_neg h', State.mmaStart, if_neg h']

theorem State.me_cleaned (s : State) (f : MmaF) : (if f.z then s.cleanAcc f.acc else s).me = s.me := by split <;> rfl

theorem State.me_mmaBegin (s : State) (f : MmaF) : (s.mmaBegin f).me = s.me.setAcc f.acc (s.mmaStart f) ∨
    (s.mmaBegin f).me = s.me ∧ s.mmaStart f = s.me.acc f.acc := by
  cases h : (s.me.acc f.acc).begun with
  | true => exact .inr ⟨by rw [State.mmaBegin_of_begun h], if_pos h⟩
  | false => exact .inl (by rw [State.mmaBegin_of_not_begun h, State.me_modMe, State.me_cleaned])

theorem State.acc_mmaBegin (s : State) (f : MmaF) (b : BitVec 2) :
    (s.mmaBegin f).me.acc b = if b = f.acc then s.mmaStart f else s.me.acc b := by
  obtain h | ⟨h, hstart⟩ := s.me_mmaBegin f
  · rw [h, Ctx.acc_setAcc]
    simp only [eq_comm]
  · rw [h, hstart]
    split
    · next hb => rw [hb]
    · rfl

theorem State.qwaits_mmaBegin (s : State) (f : MmaF) : (s.mmaBegin f).me.qwaits = s.me.qwaits := by
  obtain h | ⟨h, -⟩ := s.me_mmaBegin f
  · rw [h]; rfl
  · rw [h]

theorem State.accPoisoned_mmaBegin {s : State} {f : MmaF} (h : s.accPoisoned f.acc = false) :
    (s.mmaBegin f).accPoisoned f.acc = false := by
  cases hb : (s.me.acc f.acc).begun with
  | true => rwa [State.mmaBegin_of_begun hb]
  | false =>
    rw [State.mmaBegin_of_not_begun hb]
    show (if f.z then s.cleanAcc f.acc else s).accPoisoned f.acc = false
    split
    · simp [State.accPoisoned, State.cleanAcc]
    · exact h

theorem MmaPrelude.mmaBegin (s : State) (f : MmaF) : MmaPrelude s (s.mmaBegin f) := by
  refine ⟨by rw [State.mmaBegin_eq], fun n hn => ?_, ?_⟩
  · cases h : (s.me.acc f.acc).begun with
    | true => rw [State.mmaBegin_of_begun h]
    | false =>
      rw [State.mmaBegin_of_not_begun h]
      have hclean : OthersKept s (if f.z then s.cleanAcc f.acc else s) s.iss.src := fun n _ => by split <;> rfl
      have hsrc : (if f.z then s.cleanAcc f.acc else s).iss.src = s.iss.src := by split <;> rfl
      rw [State.ctx_modMe, hsrc, if_neg hn.symm, hclean n hn]
  · obtain h | ⟨h, -⟩ := s.me_mmaBegin f
    · rw [h]; rfl
    · rw [h]

-- What such a change leaves as it was.

section
variable {s w : State} (h : MmaPrelude s w)
include h

theorem MmaPrelude.ctx (n : Nat) : w.ctx n = { s.ctx n with accs := (w.ctx n).accs, qwaits := (w.ctx n).qwaits } := by
  by_cases hn : n = s.iss.src
  · have hs : s.ctx n = s.me := by rw [hn]; rfl
    have hw : w.ctx n = w.me := by rw [hn, State.me, h.iss]
    rw [hs, hw]
    exact h.me
  · rw [h.others n hn]

theorem MmaPrelude.myCell : w.myCell = s.myCell := by rw [State.myCell, State.myCell, h.iss]

theorem MmaPrelude.teamKey : w.teamKey w.iss.src = s.teamKey s.iss.src := by
  have hteam : (w.ctx s.iss.src).team = (s.ctx s.iss.src).team := by rw [h.ctx]
  rw [State.teamKey, State.teamKey, h.iss, hteam, h.rest]
  rfl

theorem MmaPrelude.pathK : w.pathK = s.pathK := by rw [State.pathK, State.pathK, h.iss, h.me]

theorem MmaPrelude.scalar (r : Reg) : w.scalar r = s.scalar r := by
  rw [State.scalar, State.scalar, h.iss, h.me]
  rfl

theorem MmaPrelude.cur : w.me.cur = s.me.cur := by rw [h.me]

theorem MmaPrelude.handlerOf (n : Nat) : w.handlerOf n = s.handlerOf n := by rw [State.handlerOf, State.handlerOf, h.rest]

theorem MmaPrelude.aAt (f : MmaF) (k : Nat) : w.aAt f k = s.aAt f k := by
  simp only [State.aAt, State.myRig, h.scalar, h.cur, h.handlerOf, h.iss]

theorem MmaPrelude.bAt (hcells : w.cells = s.cells) (f : MmaF) (k : Nat) : w.bAt f k = s.bAt f k := by
  simp only [State.bAt, h.scalar, h.cur, h.iss, h.myCell, State.cell, hcells]

theorem MmaPrelude.unitRuns (n : Nat) : w.unitRuns n = s.unitRuns n := by
  have hstatus : (w.ctx n).status = (s.ctx n).status := by rw [h.ctx]
  have hfrozen : w.strFrozen n = s.strFrozen n := by rw [State.strFrozen, State.strFrozen, h.rest]
  simp only [State.unitRuns, hstatus, hfrozen]

theorem MmaPrelude.regionBusy (hcells : w.cells = s.cells) (cell key r : Nat) : w.regionBusy cell key r = s.regionBusy cell key r := by
  have hslots : w.slots = s.slots := by rw [h.rest]
  rw [State.regionBusy, State.regionBusy, State.cell, State.cell, hcells, hslots]

theorem MmaPrelude.opUsable {t : Bool} {f : MFmt} {d : Nat} {x : OpAt} (hfree : ∀ r,
    s.regionBusy s.myCell (s.teamKey s.iss.src) r = none → w.regionBusy s.myCell (s.teamKey s.iss.src) r = none)
    (hx : s.opUsable f t d x) : w.opUsable f t d x := by
  rw [← h.myCell, ← h.teamKey] at hfree
  cases x with
  | grid => trivial
  | spad row => exact fun p hp r hr => hfree r (by rw [h.myCell, h.teamKey]; exact hx p hp r hr)
  | bank b row => exact hfree _ (by rw [h.myCell, h.teamKey]; exact hx)

theorem MmaPrelude.colWaits (hq : w.me.qwaits = s.me.qwaits) {col : Nat} (hcol : (w.col col).waiting = (s.col col).waiting) :
    w.colWaits col = s.colWaits col := by
  have hbuf (n : Nat) : (w.ctx n).bufT = (s.ctx n).bufT := by rw [h.ctx]
  have hqn (n : Nat) : (w.ctx n).qwaits = (s.ctx n).qwaits := by
    by_cases hn : n = s.iss.src
    · rw [State.me, State.me, h.iss] at hq
      rwa [hn]
    · rw [h.others n hn]
  have hwaits : w.stepWaits = s.stepWaits := by
    funext n
    simp only [State.stepWaits, h.unitRuns, hbuf, hqn]
  rw [State.colWaits, State.colWaits, hcol, hwaits]

theorem MmaPrelude.tokensFor (hq : w.me.qwaits = s.me.qwaits) (hcols : w.cols = s.cols) {n : Nat} (hs : s.tokensFor n) :
    w.tokensFor n := by
  have hcol (c : Nat) : w.col c = s.col c := by rw [State.col, State.col, hcols]
  have hkeel : w.keel = s.keel := by rw [h.rest]
  obtain ⟨htok, hfirst⟩ := hs
  refine ⟨?_, ?_⟩
  · rwa [h.iss, hcol, hkeel]
  · rwa [h.iss, h.colWaits hq (by rw [hcol])]

end

-- Tokens.

theorem State.col_asks (s : State) (cell n : Nat) : ((s.asks cell).col n).tok = (s.col n).tok ∧ ((s.asks cell).col n).rate = (s.col n).rate ∧
    ((s.asks cell).col n).at_ = (s.col n).at_ ∧ ((s.asks cell).col n).waiting = (s.col n).waiting := by
  rw [State.asks, State.col_modCol]
  split
  · next h => subst h; exact ⟨rfl, rfl, rfl, rfl⟩
  · exact ⟨rfl, rfl, rfl, rfl⟩

theorem State.colWaits_asks (s : State) (cell n : Nat) : (s.asks cell).colWaits n = s.colWaits n := by
  obtain ⟨-, -, -, hwaiting⟩ := s.col_asks cell n
  have hwaits : (s.asks cell).stepWaits = s.stepWaits := rfl
  rw [State.colWaits, State.colWaits, hwaiting, hwaits]

theorem State.withTokens_of_tokensFor {s : State} {n : Nat} (h : s.tokensFor n) (k : State → State) :
    s.withTokens n k = k (s.asks s.myCell) := by
  obtain ⟨htok, hfirst⟩ := h
  obtain ⟨htoks, hrate, hat, -⟩ := s.col_asks s.myCell (columnOf s.myCell)
  have hcell : (s.asks s.myCell).myCell = s.myCell := rfl
  have hsrc : (s.asks s.myCell).iss = s.iss := rfl
  have hbucket : 16 * n ≤ ((s.asks s.myCell).bucket (columnOf s.myCell)).tok := by
    simp only [State.bucket, htoks, hrate, hat]
    exact htok
  have hhead : ((s.asks s.myCell).colWaits (columnOf s.myCell)).head?.all (· = s.iss.src) = true := by
    rw [State.colWaits_asks, Option.all_eq_true]
    exact fun x hx => decide_eq_true (hfirst x hx)
  unfold State.withTokens
  dsimp only
  rw [hcell, hsrc, hhead, decide_eq_true hbucket]
  rfl

theorem State.cols_windsock (s : State) (part waiter kind setter outcome waited id : Nat) :
    (s.windsock part waiter kind setter outcome waited id).cols = s.cols := by
  unfold State.windsock
  dsimp only
  split <;> rfl

theorem State.cols_endUnitWait (s : State) (src id : Nat) : (s.endUnitWait src id).cols = s.cols := by
  unfold State.endUnitWait
  split
  · rfl
  · exact State.cols_windsock ..

theorem State.tokensSpent_spend (s : State) (n : Nat) : TokensSpent s (s.spend n) n := by
  have hcolumn : columnOf s.myCell = s.iss.src / 4 % 64 := rfl
  unfold TokensSpent State.spend
  dsimp only
  rw [State.col, State.cols_endUnitWait, ← State.col, State.col_modCol, if_pos hcolumn]
  exact ⟨rfl, rfl⟩

theorem TokensSpent.of_before {s u w : State} {n : Nat} (h : TokensSpent u w n) (hsrc : u.iss.src = s.iss.src) (hkeel : u.keel = s.keel)
    (hcol : ∀ c, (u.col c).tok = (s.col c).tok ∧ (u.col c).rate = (s.col c).rate ∧ (u.col c).at_ = (s.col c).at_) :
    TokensSpent s w n := by
  obtain ⟨htok, hrate, hat⟩ := hcol (s.iss.src / 4 % 64)
  unfold TokensSpent at *
  dsimp only at h ⊢
  rwa [hsrc, htok, hrate, hat, hkeel] at h

-- The regions of the operands.

/-- Those of some regions that nobody owns get an owner; the others keep theirs. -/
theorem tfind_owned (key r : Nat) (rs : List Nat) (o : List (Nat × Nat)) :
    let o' := rs.foldl (fun o r => if (tfind o r).isSome then o else tput o r key) o
    tfind o' r = tfind o r ∨ tfind o' r = some key := by
  induction rs generalizing o with
  | nil => exact .inl rfl
  | cons x xs ih =>
    rw [List.foldl_cons]
    split
    · exact ih o
    · obtain h | h := ih (tput o x key)
      · rw [tfind_tput] at h
        split at h
        · exact .inr h
        · exact .inl h
      · exact .inr h

theorem State.regionBusy_eq_none_iff {s : State} {cell key r : Nat} : s.regionBusy cell key r = none ↔
    ((s.cell cell).reload.any fun e => e.1 = r) = false ∧
    ∀ k, tfind (s.cell cell).owners r = some k → k = key ∨ (s.slots.any fun x => !x.members.isEmpty && x.key = k) = false := by
  unfold State.regionBusy
  by_cases hr : ((s.cell cell).reload.any fun e => e.1 = r) = true
  · rw [if_pos hr, hr]; simp
  · rw [if_neg hr, Bool.eq_false_iff.2 hr]
    cases tfind (s.cell cell).owners r with
    | none => simp
    | some k => by_cases hk : k = key <;> simp [hk]

theorem State.regionBusy_own {s : State} {cell key r : Nat} (rs : List Nat) (h : s.regionBusy cell key r = none) :
    (s.own cell key rs).regionBusy cell key r = none := by
  unfold State.own
  split
  · exact h
  · rw [State.regionBusy_eq_none_iff] at h ⊢
    obtain ⟨hreload, howner⟩ := h
    rw [State.cell_modCell, if_pos rfl]
    refine ⟨hreload, fun k hk => ?_⟩
    obtain hsame | hkey := tfind_owned key r rs (s.cell cell).owners
    · exact howner k (hsame.symm.trans hk)
    · exact .inl (Option.some.inj (hk.symm.trans hkey))

theorem State.opRegions_of_usable {s : State} {f : MFmt} {t : Bool} {d : Nat} {x : OpAt} (h : s.opUsable f t d x) :
    ∃ rs, ∀ k, s.opRegions f t d x k = k (s.own s.myCell (s.teamKey s.iss.src) rs) := by
  cases x with
  | grid => exact ⟨[], fun _ => rfl⟩
  | bank b row => exact ⟨_, s.withRegions_of_free fun r hr => by rw [List.mem_singleton.1 hr]; exact h⟩
  | spad row =>
    by_cases hrange : rangesOk (opRanges f t d row) Config.spadBytes = true
    · refine ⟨_, fun k => (if_pos hrange).trans (s.withRegions_of_free (fun r hr => ?_) k)⟩
      rw [List.mem_eraseDups, List.mem_flatMap] at hr
      obtain ⟨p, hp, hr⟩ := hr
      exact h p hp r hr
    · exact ⟨[], fun k => if_neg hrange⟩

theorem State.own_own_eq (s : State) (cell key : Nat) (rs rs' : List Nat) :
    ∃ cs, (s.own cell key rs).own cell key rs' = { s with cells := cs } := by
  obtain ⟨cs, hcs⟩ := s.own_eq cell key rs
  obtain ⟨cs', hcs'⟩ := (s.own cell key rs).own_eq cell key rs'
  exact ⟨cs', by rw [hcs', hcs]⟩

-- The operands of a step.

theorem arrival_of_aAt {s : State} {f : MmaF} {k : Nat} {x : OpAt} (hx : s.aAt f k = some x) (t : Bool) (hf : f.a = .arrv t) :
    s.me.cur ≠ none ∧ s.myRig ≠ none := by
  rw [State.aAt, hf] at hx
  dsimp only at hx
  split at hx
  · next hcur hrig => rw [hcur, hrig]; exact ⟨nofun, nofun⟩
  · cases hx

theorem arrival_of_bAt {s : State} {f : MmaF} {k : Nat} {y : Except (BitVec 8) OpAt} (hy : s.bAt f k = some y) (t : Bool)
    (hf : f.b = .ver t) : s.me.cur ≠ none := by
  intro hcur
  rw [State.bAt, hf, hcur] at hy
  cases hy

/-- An `MMA` is not ILLEGAL where no operand names an arrival, or the thread has one (R143). -/
theorem arrival_not_missing {s : State} {f : MmaF} (ha : ∀ t, f.a = .arrv t → s.me.cur ≠ none ∧ s.myRig ≠ none)
    (hb : ∀ t, f.b = .ver t → s.me.cur ≠ none) :
    ¬ ((match f.a with | .arrv _ => true | _ => false) && (s.me.cur.isNone || s.myRig.isNone) ||
      (match f.b with | .ver _ => true | _ => false) && s.me.cur.isNone) = true := by
  cases hfa : f.a <;> cases hfb : f.b <;> simp_all

/-- An `MMA` that has begun, asked for tokens and owns its operands' regions. -/
def State.stepReady (s : State) (f : MmaF) (cs : List (Nat × CellSt)) : State := { (s.mmaBegin f).asks s.myCell with cells := cs }

/-- An `MMA` whose operands are there comes to its step, with its tokens spent. -/
theorem State.mma_eq_kStep {s : State} {f : MmaF} {x y : OpAt} (hleft : (s.mmaStart f).prog < (s.mmaStart f).cnt)
    (hx : s.aAt f (s.mmaStart f).prog = some x) (hy : s.bAt f (s.mmaStart f).prog = some (.ok y))
    (htok : s.tokensFor (stepTokens f.af f.bf (planes f.pd))) (hux : s.opUsable f.af f.a.trans (planes f.pd) x)
    (huy : s.opUsable f.bf f.b.trans (planes f.pd) y) :
    ∃ cs, s.mma f = ((s.stepReady f cs).spend (stepTokens f.af f.bf (planes f.pd))).kStep f x y := by
  have hbegin := MmaPrelude.mmaBegin s f
  have hqwaits : (s.mmaBegin f).me.qwaits = s.me.qwaits := s.qwaits_mmaBegin f
  have hasked := hbegin.taken (.asks _ s.myCell)
  have hcells : ((s.mmaBegin f).asks s.myCell).cells = s.cells := by
    show (s.mmaBegin f).cells = s.cells
    rw [State.mmaBegin_eq]
  obtain ⟨rs, hrs⟩ := State.opRegions_of_usable (hasked.opUsable (fun r h => by rwa [hasked.regionBusy hcells]) hux)
  have howned := hasked.taken (.own _ s.myCell (s.teamKey s.iss.src) rs)
  obtain ⟨rs', hrs'⟩ := State.opRegions_of_usable (howned.opUsable (fun r h =>
    State.regionBusy_own rs (by rwa [hasked.regionBusy hcells])) huy)
  obtain ⟨cs, hcs⟩ := ((s.mmaBegin f).asks s.myCell).own_own_eq s.myCell (s.teamKey s.iss.src) rs rs'
  have htokens := hbegin.tokensFor hqwaits (by rw [State.mmaBegin_eq]) htok
  refine ⟨cs, ?_⟩
  rw [State.mma, if_neg]
  · dsimp only
    rw [State.acc_mmaBegin, if_pos rfl, if_neg (Nat.not_le.2 hleft), State.withTokens_of_tokensFor htokens, hbegin.myCell,
      hasked.aAt, hasked.bAt hcells, hx, hy]
    dsimp only
    rw [hrs, hasked.myCell, hasked.teamKey, hrs', howned.myCell, howned.teamKey, hcs, State.stepReady]
  · exact arrival_not_missing (arrival_of_aAt hx) (arrival_of_bAt hy)

theorem MmaPrelude.stepReady (s : State) (f : MmaF) (cs : List (Nat × CellSt)) : MmaPrelude s (s.stepReady f cs) :=
  (MmaPrelude.mmaBegin s f).taken (.of_ctxs rfl)

theorem State.tokensSpent_stepReady (s : State) (f : MmaF) (cs : List (Nat × CellSt)) (n : Nat) :
    TokensSpent s ((s.stepReady f cs).spend n) n := by
  have hpre := MmaPrelude.stepReady s f cs
  refine (State.tokensSpent_spend ..).of_before (by rw [hpre.iss]) (by rw [hpre.rest]) fun c => ?_
  have hcol : (s.mmaBegin f).col c = s.col c := by rw [State.mmaBegin_eq]; rfl
  obtain ⟨htok, hrate, hat, -⟩ := (s.mmaBegin f).col_asks s.myCell c
  rw [← hcol]
  exact ⟨htok, hrate, hat⟩

-- The step.

theorem Acc.cnt_kStep (a : Acc) (as bs : List (List Num)) : (a.kStep as bs).1.cnt = a.cnt := by rw [Acc.kStep]

theorem Acc.prog_kStep (a : Acc) (as bs : List (List Num)) : (a.kStep as bs).1.prog = a.prog + 1 := by rw [Acc.kStep]

/-- The accumulator and the flags of a step on operand values; a step with more to come leaves the `MMA` in its buffer. -/
def State.stepped (s : State) (b : BitVec 2) (a : Acc) (as bs : List (List Num)) : State :=
  let t := (s.modMe fun c => c.setAcc b { (a.kStep as bs).1 with begun := decide (a.prog + 1 < a.cnt) }).orFlags (a.kStep as bs).2
  { t with iss := { t.iss with flow := if a.prog + 1 < a.cnt then .again else t.iss.flow } }

theorem State.stepped_rest (s : State) (b : BitVec 2) (a : Acc) (as bs : List (List Num)) : let t := s.stepped b a as bs
    t.iss = { s.iss with flow := if a.prog + 1 < a.cnt then .again else s.iss.flow } ∧
      (∀ u n, TokensSpent u t n ↔ TokensSpent u s n) ∧ t.mem = s.mem ∧ t.spad = s.spad ∧ t.banks = s.banks :=
  ⟨rfl, fun _ _ => Iff.rfl, rfl, rfl, rfl⟩

theorem State.kStep_of_fetched {s : State} {f : MmaF} {x y : OpAt} {as bs : List (List Num)}
    (hx : s.fetchOp f.af f.a.trans (planes f.pd) f.pf x = .vals as) (hy : s.fetchOp f.bf f.b.trans (planes f.pd) f.pf y = .vals bs)
    (hbad : f.ck = true → ∀ t row, f.a = .arrv t → x = .spad row → s.badRow (opRanges f.af t (planes f.pd) row) = none)
    (hp : s.accPoisoned f.acc = false) (hc : s.me.checkErr = false) :
    s.kStep f x y =
      let r := (s.me.acc f.acc).kStep as bs
      let t := (s.modMe fun c => c.setAcc f.acc { r.1 with begun := !decide (r.1.cnt ≤ r.1.prog) }).orFlags r.2
      if r.1.cnt ≤ r.1.prog then t else t.again := by
  simp only [State.kStep, hx, hy]
  split
  · next r hr =>
    split at hr
    · next t row hfa =>
      split at hr
      · next hck => rw [hbad hck t row hfa rfl] at hr; cases hr
      · cases hr
    · cases hr
  · simp [hp, hc]

theorem State.kStep_eq_stepped {s : State} {f : MmaF} {x y : OpAt} {as bs : List (List Num)} {a : Acc} (ha : s.me.acc f.acc = a)
    (hx : s.fetchOp f.af f.a.trans (planes f.pd) f.pf x = .vals as) (hy : s.fetchOp f.bf f.b.trans (planes f.pd) f.pf y = .vals bs)
    (hbad : f.ck = true → ∀ t row, f.a = .arrv t → x = .spad row → s.badRow (opRanges f.af t (planes f.pd) row) = none)
    (hp : s.accPoisoned f.acc = false) (hc : s.me.checkErr = false) : s.kStep f x y = s.stepped f.acc a as bs := by
  rw [State.kStep_of_fetched hx hy hbad hp hc, ha, State.stepped]
  have hcnt := a.cnt_kStep as bs
  have hprog := a.prog_kStep as bs
  generalize a.kStep as bs = r at hcnt hprog
  dsimp only
  by_cases h : a.prog + 1 < a.cnt
  · have hmore : ¬ r.1.cnt ≤ r.1.prog := by omega
    rw [if_neg hmore, decide_eq_false hmore, decide_eq_true h, if_pos h]
    rfl
  · have hlast : r.1.cnt ≤ r.1.prog := by omega
    rw [if_pos hlast, decide_eq_true hlast, decide_eq_false h, if_neg h]
    rfl

theorem MmaPrelude.setsAcc {s w : State} (h : MmaPrelude s w) {a : BitVec 2} (hother : ∀ b, b ≠ a → w.me.acc b = s.me.acc b) (v : Acc) :
    SetsAcc s (w.modMe fun c => c.setAcc a v) a v 0 := by
  refine ⟨fun n hn => ?_, h.iss ▸ rfl, ?_, ?_, fun b hb => ?_⟩
  · have hw : w.iss.src ≠ n := by rw [h.iss]; exact hn.symm
    rw [State.ctx_modMe, if_neg hw]
    exact h.others n hn
  · have hflags : s.me.nflags ||| 0 = s.me.nflags := BitVec.or_zero
    rw [State.me_modMe, h.me, hflags]
    rfl
  · rw [State.me_modMe, Ctx.acc_setAcc, if_pos rfl]
  · rw [State.me_modMe, Ctx.acc_setAcc, if_neg hb.symm, hother b hb]

theorem SetsAcc.orFlags {s t : State} {a : BitVec 2} {v : Acc} (h : SetsAcc s t a v 0) (fl : NFlags) : SetsAcc s (t.orFlags fl) a v fl := by
  obtain ⟨hothers, hsrc, hme, hacc, hrest⟩ := h
  have hself : (t.orFlags fl).me = t.me.orFlags fl := State.me_modMe ..
  refine ⟨fun n hn => ?_, hsrc, ?_, by rw [hself]; exact hacc, fun b hb => by rw [hself]; exact hrest b hb⟩
  · have hn' : t.iss.src ≠ n := by rw [hsrc]; exact hn.symm
    rw [State.orFlags, State.ctx_modMe, if_neg hn']
    exact hothers n hn
  · have hflags : s.me.nflags ||| 0 = s.me.nflags := BitVec.or_zero
    rw [hself, hme, hflags]
    rfl

theorem MmaPrelude.setsAcc_stepped {s w : State} (h : MmaPrelude s w) {b : BitVec 2} (hother : ∀ c, c ≠ b → w.me.acc c = s.me.acc c) (a : Acc)
    (as bs : List (List Num)) : SetsAcc s (w.stepped b a as bs) b { (a.kStep as bs).1 with begun := decide (a.prog + 1 < a.cnt) }
      (a.kStep as bs).2 := (h.setsAcc hother _).orFlags _

theorem exec_mma_of_no_wake {s : State} (h : s.wakeOf = none) (f : MmaF) : exec (.mma f) s = .next (s.mma f) := by
  show Host.Outcome.next (s.afterWake fun s => s.mma f) = _
  rw [State.afterWake, h]

/-- One step of an `MMA`, on the operand values that it finds once its tokens are spent. -/
theorem exec_mma_of_fetched {s : State} {f : MmaF} {x y : OpAt} (hwake : s.wakeOf = none)
    (hleft : (s.mmaStart f).prog < (s.mmaStart f).cnt)
    (hx : s.aAt f (s.mmaStart f).prog = some x) (hy : s.bAt f (s.mmaStart f).prog = some (.ok y))
    (htok : s.tokensFor (stepTokens f.af f.bf (planes f.pd))) (hux : s.opUsable f.af f.a.trans (planes f.pd) x)
    (huy : s.opUsable f.bf f.b.trans (planes f.pd) y) (hp : s.accPoisoned f.acc = false) (hc : s.me.checkErr = false) :
    ∃ cs, ∀ as bs, let w := (s.stepReady f cs).spend (stepTokens f.af f.bf (planes f.pd))
      w.fetchOp f.af f.a.trans (planes f.pd) f.pf x = .vals as → w.fetchOp f.bf f.b.trans (planes f.pd) f.pf y = .vals bs →
      (f.ck = true → ∀ t row, f.a = .arrv t → x = .spad row → w.badRow (opRanges f.af t (planes f.pd) row) = none) →
      exec (.mma f) s = .next (w.stepped f.acc (s.mmaStart f) as bs) ∧
        SetsAcc s (w.stepped f.acc (s.mmaStart f) as bs) f.acc { ((s.mmaStart f).kStep as bs).1 with
          begun := decide ((s.mmaStart f).prog + 1 < (s.mmaStart f).cnt) } ((s.mmaStart f).kStep as bs).2 := by
  obtain ⟨cs, hmma⟩ := State.mma_eq_kStep hleft hx hy htok hux huy
  refine ⟨cs, fun as bs => ?_⟩
  intro w hfx hfy hbad
  have hready := MmaPrelude.stepReady s f cs
  have hspent : TokensTaken (s.stepReady f cs) w := .spend ..
  have hpre : MmaPrelude s w := hready.taken hspent
  have haccs (b : BitVec 2) : w.me.acc b = if b = f.acc then s.mmaStart f else s.me.acc b := by
    rw [← State.acc_mmaBegin, Ctx.acc, hspent.accs]
    rfl
  have hpoison : w.accPoisoned f.acc = false := by
    rw [State.accPoisoned, hspent.psnAcc, hspent.iss]
    exact State.accPoisoned_mmaBegin hp
  have hcheck : w.me.checkErr = false := by rw [hpre.me]; exact hc
  refine ⟨?_, hpre.setsAcc_stepped (fun b hb => (haccs b).trans (if_neg hb)) ..⟩
  rw [exec_mma_of_no_wake hwake, hmma, State.kStep_eq_stepped ((haccs _).trans (if_pos rfl)) hfx hfy hbad hpoison hcheck]

-- Where reads show the same whatever was chosen before, the operands are those from before the tokens were spent.

/-- What a read shows of unordered writes does not depend on the choices before it (log 20). -/
def SteadyReads : Prop := ∀ c, Config.showsLate c = Config.showsLate 0

theorem seeBytes_of_steady (h : SteadyReads) (m : List Host.Cell) (late : List (Nat × Gran)) (p : Path) (c c' a n : Nat) :
    seeBytes m late p c a n = seeBytes m late p c' a n := by
  rw [seeBytes, seeBytes, h c, h c']

section
variable {s w : State} (h : MmaPrelude s w) (hsteady : SteadyReads)
include h hsteady

theorem MmaPrelude.spadRead (p : Path) (cell : Nat) : w.spadRead p cell = s.spadRead p cell := by
  funext a n
  rw [State.spadRead, State.spadRead, seeBytes_of_steady hsteady _ _ _ w.choices s.choices, h.rest]

theorem MmaPrelude.bankRead (p : Path) (cell : Nat) (b : Bool) : w.bankRead p cell b = s.bankRead p cell b := by
  funext a n
  rw [State.bankRead, State.bankRead, seeBytes_of_steady hsteady _ _ _ w.choices s.choices, h.rest]

theorem MmaPrelude.fetchOp (f : MFmt) (t : Bool) (d : Nat) (mid : Bool) (x : OpAt) : w.fetchOp f t d mid x = s.fetchOp f t d mid x := by
  cases x with
  | grid =>
    have hgrid : w.me.grid = s.me.grid := by rw [h.me]
    have hpsn : w.psnGrid = s.psnGrid := by rw [h.rest]
    simp only [State.fetchOp, hpsn, h.iss, hgrid]
  | spad row =>
    have hpsn : w.psnSpad = s.psnSpad := by rw [h.rest]
    simp only [State.fetchOp, State.spadPoisoned, hpsn, h.myCell, h.pathK, h.spadRead hsteady]
    rfl
  | bank b row =>
    have hpsn : w.psnBank = s.psnBank := by rw [h.rest]
    simp only [State.fetchOp, State.bankPoisoned, hpsn, h.myCell, h.pathK, h.bankRead hsteady]
    rfl

theorem MmaPrelude.badRow (l : List (Int × Nat)) : w.badRow l = s.badRow l := by
  simp only [State.badRow, h.cur, h.handlerOf, h.iss, h.pathK, h.myCell, h.spadRead hsteady]

end

theorem kStep_of_steady (hsteady : SteadyReads) (s : State) (f : MmaF) (x y : OpAt) (as bs : List (List Num)) :
    let a := s.mmaStart f
    let d := f.pd.toNat + 2
    let n := if f.af = .pni ∧ f.bf = .pni ∧ d < 8 then 16 * ((d + 1) / 2) else 96
    let r := a.kStep as bs
    s.wakeOf = none → a.prog < a.cnt → s.aAt f a.prog = some x → s.bAt f a.prog = some (.ok y) → s.tokensFor n →
    s.opUsable f.af f.a.trans d x → s.opUsable f.bf f.b.trans d y →
    s.fetchOp f.af f.a.trans d f.pf x = .vals as → s.fetchOp f.bf f.b.trans d f.pf y = .vals bs →
    (f.ck = true → ∀ t row, f.a = .arrv t → x = .spad row → s.badRow (opRanges f.af t d row) = none) →
    s.accPoisoned f.acc = false → s.me.checkErr = false →
    ∃ t, exec (.mma f) s = .next t ∧ SetsAcc s t f.acc { r.1 with begun := decide (a.prog + 1 < a.cnt) } r.2 ∧
      r.1.prog = a.prog + 1 ∧ t.iss = { s.iss with flow := if a.prog + 1 < a.cnt then .again else s.iss.flow } ∧
      TokensSpent s t n ∧ t.mem = s.mem ∧ t.spad = s.spad ∧ t.banks = s.banks := by
  intro a d n r hwake hleft hx hy htok hux huy hfx hfy hbad hp hc
  have hn : n = stepTokens f.af f.bf (planes f.pd) := by
    exact if_congr (by rw [Bool.and_eq_true, Bool.and_eq_true, decide_eq_true_iff, decide_eq_true_iff, decide_eq_true_iff, and_assoc]; rfl) rfl rfl
  rw [hn] at htok ⊢
  obtain ⟨cs, hstep⟩ := exec_mma_of_fetched hwake hleft hx hy htok hux huy hp hc
  have hpre : MmaPrelude s ((s.stepReady f cs).spend (stepTokens f.af f.bf (planes f.pd))) := (MmaPrelude.stepReady s f cs).taken (.spend ..)
  obtain ⟨hexec, hacc⟩ := hstep as bs ((hpre.fetchOp hsteady ..).trans hfx) ((hpre.fetchOp hsteady ..).trans hfy)
    fun hck t row hfa hxr => (hpre.badRow hsteady _).trans (hbad hck t row hfa hxr)
  have hspent := s.tokensSpent_stepReady f cs (stepTokens f.af f.bf (planes f.pd))
  obtain ⟨hiss, htokens, hmem, hspad, hbanks⟩ := State.stepped_rest ((s.stepReady f cs).spend (stepTokens f.af f.bf (planes f.pd))) f.acc a as bs
  refine ⟨_, hexec, hacc, Acc.prog_kStep .., ?_, (htokens s _).2 (s.tokensSpent_stepReady f cs _), ?_, ?_, ?_⟩
  · rw [hiss, hpre.iss]
  · rw [hmem, hpre.rest]
  · rw [hspad, hpre.rest]
  · rw [hbanks, hpre.rest]

-- The other clauses.

theorem mma_of_no_steps {s : State} {f : MmaF} (hwake : s.wakeOf = none) (hbegun : (s.me.acc f.acc).begun = false) (hks : f.ks = 0)
    (hcount : (s.scalar 1).toNat % 65536 = 0) (ha : ∀ t, f.a ≠ .arrv t) (hb : ∀ t, f.b ≠ .ver t) :
    ∃ t, exec (.mma f) s = .next t ∧ SetsAcc s t f.acc { s.mmaStart f with begun := false } 0 ∧ t.mem = s.mem ∧ t.spad = s.spad := by
  have hnone : (s.mmaStart f).cnt ≤ (s.mmaStart f).prog := by
    simp only [State.mmaStart, hbegun, hks, hcount, if_true]
    exact Nat.le_refl 0
  have hpre := MmaPrelude.mmaBegin s f
  have hmma : s.mma f = (s.mmaBegin f).modMe fun c => c.setAcc f.acc { s.mmaStart f with begun := false } := by
    rw [State.mma, if_neg]
    · dsimp only
      rw [State.acc_mmaBegin, if_pos rfl, if_pos hnone]
    · exact arrival_not_missing (fun t h => absurd h (ha t)) fun t h => absurd h (hb t)
  have hmem : (s.mmaBegin f).mem = s.mem := by rw [State.mmaBegin_eq]
  have hspad : (s.mmaBegin f).spad = s.spad := by rw [State.mmaBegin_eq]
  have hother (b : BitVec 2) (hb : b ≠ f.acc) : (s.mmaBegin f).me.acc b = s.me.acc b := (s.acc_mmaBegin f b).trans (if_neg hb)
  exact ⟨_, exec_mma_of_no_wake hwake f, hmma ▸ hpre.setsAcc hother _, hmma ▸ hmem, hmma ▸ hspad⟩

theorem mma_without_arrival {s : State} {f : MmaF} (hwake : s.wakeOf = none) (hsrc : (∃ t, f.a = .arrv t) ∨ ∃ t, f.b = .ver t)
    (hcur : s.me.cur = none) : exec (.mma f) s = .next (s.fatal .illegal) := by
  rw [exec_mma_of_no_wake hwake, State.mma, if_pos]
  obtain ⟨t, h⟩ | ⟨t, h⟩ := hsrc <;> simp [h, hcur]

theorem exec_kStep_of_head {s : State} {e : Entry} {rest : List Entry} {f : MmaF} (hbuf : (s.ctx s.arg.a).bufT = e :: rest)
    (hinstr : e.instr = .mma f) (hruns : s.unitRuns s.arg.a = true) :
    ∃ u, exec (.mma f) (s.beginU s.arg.a .t e) = .next u ∧ exec .kStep s = .next (u.finishU .t) := by
  refine ⟨(s.beginU s.arg.a .t e).afterWake fun s => s.mma f, rfl, ?_⟩
  show execKStep s = _
  simp only [execKStep, hbuf, hinstr, hruns, if_true]

/-- The statement of O34 holds where reads are steady; the model does not say that they are. -/
theorem tensorSteps_of_steady (hsteady : SteadyReads) : Obligations.TensorSteps := by
  unfold Obligations.TensorSteps
  exact ⟨⟨kStep_of_steady hsteady, fun s f => mma_of_no_steps, fun s f hwake hsrc hcur => mma_without_arrival hwake hsrc hcur,
    fun s e rest f hbuf hinstr hruns => exec_kStep_of_head hbuf hinstr hruns⟩,
    fun a as bs i j has hbs hi hj => elem_kStep a has hbs hi hj, fun xs ys v _ => kDot_of_ints xs ys v⟩

end Sys2Proof.Machine
end

section
/-! What the statement of O34 says of a free value. A step that ends a wait writes its windsock record before it fetches its operands,
and the record makes a choice; the statement gives the operands as they read before that choice. The free value of log 20 says by choice
whether a read shows a write that nothing orders before it, so the statement holds where reads are steady (`tensorSteps_of_steady`) and
implies that the value does not change from a choice to the next (`showsLate_of_tensorSteps`); the model leaves it open. -/

namespace Sys2Proof.Machine

-- A step whose operand the free value decides.

/-- A write of the value 1 to the first element of a row, which nothing orders before the thread. -/
def unorderedOne : LateW := { off := 0, bytes := [0x80, 0x3F], cls := 5, src := 1 }

/-- Granule 0, all zeros, with that write. -/
def unorderedGran : Gran := ⟨List.replicate 64 0, [unorderedOne]⟩

/-- A step on the grid and on the scratchpad's first row. -/
def gridBySpad : MmaF := ⟨0, .grid, .desc 0 false, .bf16, .bf16, 1, 0, false, false, true⟩

/-- The step has waited for its tokens, and its partition keeps windsock records (R405). -/
def recordedStep (c : Nat) : State :=
  { choices := c, iss := { unit := .t, id := 1, capt := some [] }
    ctxs := [(0, { status := .run, grid := Vector.replicate 48 0x3F80, qwaits := [(1, { kind := 7 })] })]
    late := [(0, unorderedGran)], cols := [(0, { tok := 2 ^ 20 })], parts := [(0, { wslen := 16, wsmin := 0 })] }

/-- B of the step, where the write is shown and where it is not. -/
def shownB (shown : Bool) : List (List Num) :=
  MFmt.values .bf16 false 2 false (List.replicate 48
    ((if shown then [0x80, 0x3F] else [0, 0]) ++ List.replicate 190 0, []))

theorem seen_unorderedGran {p : Path} (hp : unorderedOne.shown p = false) (free : Nat → Bool) :
    unorderedGran.seen p free = (if free 0 then [0x80, 0x3F] else [0, 0]) ++ List.replicate 62 0 := by
  show (if unorderedOne.shown p || free 0 then _ else _) = _
  rw [hp]
  cases free 0 <;> decide

theorem seeBytes_unorderedGran {p : Path} (hp : unorderedOne.shown p = false) (c : Nat) :
    seeBytes [] [(0, unorderedGran)] p c 0 192 =
      (if Config.showsLate c 0 0 then [0x80, 0x3F] else [0, 0]) ++ List.replicate 190 0 := by
  have hlate : ([(0, unorderedGran)].all fun g => g.2.ws.all fun w => w.shown p) = false := by
    show (unorderedOne.shown p && true && true) = false
    rw [hp]; rfl
  rw [seeBytes, hlate]
  have hgranules : granulesOf 0 192 = [0, 1, 2] := by decide
  have hfirst : tfind [(0, unorderedGran)] 0 = some unorderedGran := rfl
  have hsecond : tfind [(0, unorderedGran)] 1 = none := rfl
  have hthird : tfind [(0, unorderedGran)] 2 = none := rfl
  rw [hgranules]
  simp only [List.flatMap_cons, List.flatMap_nil, hfirst, hsecond, hthird, seen_unorderedGran hp]
  cases Config.showsLate c 0 0 <;> decide +kernel

theorem fetchOp_unorderedGran {s : State} (hspad : s.spad = []) (hlate : s.late = [(0, unorderedGran)]) (hpsn : s.psnSpad = [])
    (hiss : s.iss = (recordedStep 0).iss) (hnode : s.me.node = none) :
    s.fetchOp .bf16 false 2 false (.spad fun _ => 0) = .vals (shownB (Config.showsLate s.choices 0 0)) := by
  have hpath : unorderedOne.shown s.pathK = false := by
    rw [State.pathK, hiss, hnode]; decide
  have hcell : s.myCell = 0 := by rw [State.myCell, hiss]; rfl
  have hread : s.spadRead s.pathK 0 0 192 = (if Config.showsLate s.choices 0 0 then [0x80, 0x3F] else [0, 0]) ++ List.replicate 190 0 := by
    rw [State.spadRead, hspad, hlate]
    exact seeBytes_unorderedGran hpath _
  have hrange : rangesOk (opRanges .bf16 false 2 fun _ => 0) Config.spadBytes = true := by decide +kernel
  have hrows : opRows .bf16 false 2 (fun _ => 0) (s.spadRead s.pathK 0) = List.replicate 48 (s.spadRead s.pathK 0 0 192, []) := rfl
  simp only [State.fetchOp, hrange, State.spadPoisoned, hpsn, hcell, hrows, hread, shownB]
  simp

theorem State.choices_windsock {s : State} {part : Nat} (hlen : (s.part part).wslen ≠ 0) (hmin : (s.part part).wsmin = 0)
    (waiter kind setter outcome waited id : Nat) : (s.windsock part waiter kind setter outcome waited id).choices = s.choices + 1 := by
  have hkept : ¬ ((s.part part).wslen = 0 || waited < (s.part part).wsmin) = true := by
    rw [hmin, decide_eq_false hlen, decide_eq_false (Nat.not_lt_zero _)]
    exact Bool.false_ne_true
  rw [State.windsock]
  dsimp only
  rw [if_neg hkept]
  rfl

/-- A step that has waited for its tokens makes a choice when it spends them: that of its windsock record's publish stamp. -/
theorem State.choices_spend {s : State} {w : Wait} (hwait : tfind s.me.qwaits s.iss.id = some w)
    (hlen : (s.part (s.partOfSrc s.iss.src)).wslen ≠ 0) (hmin : (s.part (s.partOfSrc s.iss.src)).wsmin = 0) (n : Nat) :
    (s.spend n).choices = s.choices + 1 := by
  unfold State.spend State.endUnitWait
  dsimp only
  split
  · next hnone => exact absurd (hwait.symm.trans hnone) nofun
  · exact State.choices_windsock (s := s.modCol _ _) hlen hmin ..

/-- A of the step. -/
def gridA : List (List Num) := List.replicate 48 ((elems 16 0x3F80).map (ETy.num .bf16))

theorem fetchOp_grid {s : State} (hpsn : s.psnGrid = []) (hgrid : s.me.grid = Vector.replicate 48 0x3F80) :
    s.fetchOp .bf16 false 2 false .grid = .vals gridA := by
  simp [State.fetchOp, hpsn, hgrid, gridA, MFmt.ety, ETy.width]

/-- The first element of the result says whether the write was shown. -/
theorem eq_of_kStep_shownB {b b' : Bool}
    (h : (({ cnt := 1, begun := true } : Acc).kStep gridA (shownB b)).1.rows = (({ cnt := 1, begun := true } : Acc).kStep gridA (shownB b')).1.rows) :
    b = b' := by
  have helem (b : Bool) : (elems 32 ((({ cnt := 1, begun := true } : Acc).kStep gridA (shownB b)).1.rows.toList[0]?.getD 0))[0]? =
      some (if b then 0x3F800000 else 0) := by
    obtain ⟨x, y, hx, hy, hxy⟩ := elem_kStep { cnt := 1, begun := true } (as := gridA) (bs := shownB b) (i := 0) (j := 0)
      List.length_replicate
      (by cases b <;> decide +kernel) (by decide) (by decide)
    rw [hxy]
    have hx0 : gridA[0]? = some ((elems 16 0x3F80).map (ETy.num .bf16)) := by
      rw [gridA, List.getElem?_replicate, if_pos (by decide)]
    obtain rfl := Option.some.inj (hx.symm.trans hx0)
    cases b
    · have hy0 : (shownB false)[0]? = some ((elems 16 0).map (ETy.num .bf16)) := by decide +kernel
      obtain rfl := Option.some.inj (hy.symm.trans hy0)
      decide +kernel
    · have hy0 : (shownB true)[0]? = some ((elems 16 0x3F80).map (ETy.num .bf16)) := by decide +kernel
      obtain rfl := Option.some.inj (hy.symm.trans hy0)
      decide +kernel
  have hsame := (helem b).symm
  rw [h, helem b'] at hsame
  have hcode : ∀ b b' : Bool, (if b then 0x3F800000 else 0) = (if b' then 0x3F800000 else 0) → b = b' := by decide
  exact hcode b b' (Option.some.inj hsame)

theorem State.partOfSrc_zero (s : State) : s.partOfSrc 0 = 0 := by
  simp [State.partOfSrc, State.partOfCell, cellOf, groupOf, columnOf]

/-- The statement of O34 implies that a read of the first granule shows the same at a choice and at the next. -/
theorem showsLate_of_tensorSteps (h : Obligations.TensorSteps) (c : Nat) : Config.showsLate c 0 0 = Config.showsLate (c + 1) 0 0 := by
  have hrow : descRow 0 0 0 = fun _ => 0 := by funext j; simp [descRow]
  have hstart : (recordedStep c).mmaStart gridBySpad = { cnt := 1, begun := true } := rfl
  have hleft : ((recordedStep c).mmaStart gridBySpad).prog < ((recordedStep c).mmaStart gridBySpad).cnt := by rw [hstart]; decide
  have hx : (recordedStep c).aAt gridBySpad ((recordedStep c).mmaStart gridBySpad).prog = some .grid := rfl
  have hy : (recordedStep c).bAt gridBySpad ((recordedStep c).mmaStart gridBySpad).prog = some (.ok (.spad fun _ => 0)) := by
    rw [← hrow]; rfl
  have htok : (recordedStep c).tokensFor 96 := by
    have hnone : (recordedStep c).colWaits 0 = [] := rfl
    have hcol : ((recordedStep c).col 0).tok = 2 ^ 20 := rfl
    have hsrc : (recordedStep c).iss.src / 4 % 64 = 0 := by simp [recordedStep]
    refine ⟨?_, fun x hx => ?_⟩
    · rw [hsrc, hcol]; omega
    rw [hsrc, hnone] at hx
    cases hx
  have huse : (recordedStep c).opUsable .bf16 false 2 (.spad fun _ => 0) := fun _ _ _ _ => rfl
  have hA : (recordedStep c).fetchOp .bf16 false 2 false .grid = .vals gridA := fetchOp_grid rfl rfl
  have hB : (recordedStep c).fetchOp .bf16 false 2 false (.spad fun _ => 0) = .vals (shownB (Config.showsLate c 0 0)) :=
    fetchOp_unorderedGran rfl rfl rfl rfl rfl
  obtain ⟨⟨hone, -⟩, -⟩ := h
  obtain ⟨t, ht, ⟨-, -, -, hacc, -⟩, -⟩ := hone (recordedStep c) gridBySpad .grid (.spad fun _ => 0) gridA (shownB (Config.showsLate c 0 0))
    rfl hleft hx hy htok trivial huse hA hB (fun h => by cases h) rfl rfl
  obtain ⟨cs, hstep⟩ := exec_mma_of_fetched (s := recordedStep c) (f := gridBySpad) rfl hleft hx hy htok trivial huse rfl rfl
  have hpre (n : Nat) : MmaPrelude (recordedStep c) (((recordedStep c).stepReady gridBySpad cs).spend n) :=
    (MmaPrelude.stepReady ..).taken (.spend ..)
  have hpart : ((recordedStep c).stepReady gridBySpad cs).partOfSrc ((recordedStep c).stepReady gridBySpad cs).iss.src = 0 :=
    State.partOfSrc_zero _
  have hchoices (n : Nat) : (((recordedStep c).stepReady gridBySpad cs).spend n).choices = c + 1 :=
    State.choices_spend (s := (recordedStep c).stepReady gridBySpad cs) (w := { kind := 7 }) rfl
      (by rw [hpart]; exact (by decide : 16 ≠ 0)) (by rw [hpart]; rfl) n
  obtain ⟨hexec, -, -, -, hacc', -⟩ := hstep gridA (shownB (Config.showsLate (c + 1) 0 0))
    (fetchOp_grid (by rw [(hpre _).rest]; rfl) (by rw [(hpre _).me]; rfl))
    (hchoices _ ▸ fetchOp_unorderedGran (by rw [(hpre _).rest]; rfl) (by rw [(hpre _).rest]; rfl) (by rw [(hpre _).rest]; rfl)
      (hpre _).iss (by rw [(hpre _).me]; rfl))
    (fun h => by cases h)
  obtain rfl := Host.Outcome.next.inj (hexec.symm.trans ht)
  rw [hstart] at hacc hacc'
  have hrows := congrArg Acc.rows (hacc.symm.trans hacc')
  exact eq_of_kStep_shownB hrows

end Sys2Proof.Machine
end

section
/-! Boundaries (R165, R167, R168): what publishing does to the versions of a thread, and the new phase after it. -/

namespace Sys2Proof.Machine

-- Publishing a version.

theorem scopeLe_refl (sc : Scope) : scopeLe sc sc = true := by cases sc <;> rfl

/-- Publishing changes only where a version is published, and where it is published no more widely yet, that it has merged. -/
theorem Ver.publish_rest (v : Ver) (sc : Scope) (st : Stamp) :
    v.publish sc st = { v with pubs := (v.publish sc st).pubs, merged := (v.publish sc st).merged } := by
  unfold Ver.publish
  split <;> rfl

theorem Ver.exists_pub_publish (v : Ver) (sc : Scope) (st : Stamp) : ∃ p ∈ (v.publish sc st).pubs, scopeLe sc p.1 = true := by
  unfold Ver.publish
  split
  case isTrue h => exact List.any_eq_true.1 h
  case isFalse => exact ⟨(sc, st), by simp, scopeLe_refl sc⟩

-- Publishing the versions that a condition names.

/-- The versions that `p` names published at a scope, each at its stamp. -/
def publishWhere (p : Ver → Bool) (sc : Scope) (st : Ver → Stamp) (vs : List Ver) : List Ver :=
  vs.map fun v => if p v then v.publish sc (st v) else v

/-- What does not depend on the publications of a version is as before. -/
theorem map_publishWhere {β : Type} {g : Ver → β} (hg : ∀ v pubs merged, g { v with pubs := pubs, merged := merged } = g v)
    (p : Ver → Bool) (sc : Scope) (st : Ver → Stamp) (vs : List Ver) : (publishWhere p sc st vs).map g = vs.map g := by
  rw [publishWhere, List.map_map]
  refine List.map_congr_left fun v _ => ?_
  rw [Function.comp_apply]
  split
  · rw [Ver.publish_rest, hg]
  · rfl

theorem exists_pub_of_mem_publishWhere {p : Ver → Bool} {sc : Scope} {st : Ver → Stamp} {vs : List Ver} {v : Ver}
    (hv : v ∈ publishWhere p sc st vs) (hpv : p v = true) : ∃ q ∈ v.pubs, scopeLe sc q.1 = true := by
  obtain ⟨w, -, rfl⟩ := List.mem_map.1 hv
  by_cases h : p w = true
  · rw [if_pos h]
    exact w.exists_pub_publish sc (st w)
  · rw [if_neg h] at hpv
    exact absurd hpv h

theorem mem_publishWhere_of_not {p : Ver → Bool} {vs : List Ver} {v : Ver} (sc : Scope) (st : Ver → Stamp) (hv : v ∈ vs)
    (hpv : p v = false) : v ∈ publishWhere p sc st vs :=
  List.mem_map.2 ⟨v, hv, if_neg (by rw [hpv]; decide)⟩

/-- Publish(scope) reaches every store of a thread that has not ended (R168). -/
theorem State.vers_publish (s : State) (src : Nat) (sc : Scope) :
    (s.publish src sc).vers = publishWhere (fun v => v.src = src && !v.dead) sc (fun _ => ⟨s.keel, src⟩) s.vers := rfl

-- Publishing events and boundaries that may take effect.

theorem State.me_publishNow (s : State) (sc : Scope) : (s.publishNow sc).me = { s.me with lastB := s.keel + 1 } :=
  State.me_modMe ..

theorem State.afterPublish_of_mayBound {s : State} {sc : Scope} (h : s.mayBound sc = true) (k : State → State) :
    s.afterPublish sc k = k (s.publishNow sc) := if_pos h

theorem State.bound_of_mayBound {s : State} {sc : Scope} (h : s.mayBound sc = true) : s.bound sc = s.boundary sc := if_pos h

theorem othersKept_boundary (s : State) (sc : Scope) : OthersKept s (s.boundary sc) s.iss.src :=
  othersKept_modMe (s.publish s.iss.src sc) _

theorem State.me_boundary (s : State) (sc : Scope) : (s.boundary sc).me =
    { s.me with hzn := ⟨s.keel, s.iss.src⟩, phase := s.me.phase + 1, lastB := s.keel + 1 } :=
  State.me_refresh (s.publish s.iss.src sc)

-- PHASE (R177), and PHASEB of a thread in no team.

theorem exec_phase (sc : Scope) (s : State) : exec (.phase sc) s = .next (s.bound sc) := rfl

theorem exec_phaseb_of_no_team {s : State} (hteam : s.me.team = none) (harrived : s.me.arrived = 0) (sc : Scope) :
    exec (.phaseb sc) s = .next (s.bound sc) := by
  change execPhaseb sc s = _
  simp only [execPhaseb, harrived, hteam]

/-- Settles O7: `PHASE` and a lone `PHASEB` are the boundary at their scope. -/
theorem phaseBoundary : Obligations.PhaseBoundary := by
  intro s sc i hi hmay
  have hexec : exec i s = .next (s.boundary sc) := by
    rw [← State.bound_of_mayBound hmay]
    rcases hi with rfl | ⟨rfl, hteam, harrived⟩
    · exact exec_phase sc s
    · exact exec_phaseb_of_no_team hteam harrived sc
  have hvers : (s.boundary sc).vers = _ := s.vers_publish s.iss.src sc
  refine ⟨_, hexec, rfl, othersKept_boundary s sc, State.me_boundary s sc, ?_, ?_, ?_⟩ <;> rw [hvers]
  · exact map_publishWhere (fun _ _ _ => rfl) ..
  · intro v hv hsrc halive
    exact exists_pub_of_mem_publishWhere hv (by simp [hsrc, halive])
  · intro v hv hsrc
    exact mem_publishWhere_of_not _ _ hv (by simp [hsrc])

end Sys2Proof.Machine
end

section
/-! Teams (R164, R178, R179, R182, R183, R220): joining, leaving and asking a team, arriving at its barrier, and the release of those
who have arrived. -/

namespace Sys2Proof.Machine

-- The first member of a list that satisfies a condition.

theorem find?_modFirst {α : Type} {p : α → Bool} {f : α → α} {l : List α} {x : α} (hx : l.find? p = some x)
    (hf : p (f x) = true) : (modFirst p f l).find? p = some (f x) := by
  induction l with
  | nil => cases hx
  | cons y l ih =>
    rw [modFirst]
    by_cases hy : p y = true
    · rw [List.find?_cons_of_pos hy] at hx
      obtain rfl := Option.some.inj hx
      rw [if_pos hy, List.find?_cons_of_pos hf]
    · rw [List.find?_cons_of_neg hy] at hx
      rw [if_neg hy, List.find?_cons_of_neg hy]
      exact ih hx

-- Teams by number.

theorem State.name_of_teamOf {s : State} {part id : Nat} {tm : Team} (h : s.teamOf part id = some tm) : tm.part = part ∧ tm.id = id := by
  simpa using List.find?_some h

theorem State.teamOf_modTeam {s : State} {part id : Nat} {tm : Team} {f : Team → Team} (h : s.teamOf part id = some tm)
    (hpart : (f tm).part = tm.part) (hid : (f tm).id = tm.id) : (s.modTeam part id f).teamOf part id = some (f tm) := by
  obtain ⟨rfl, rfl⟩ := State.name_of_teamOf h
  exact find?_modFirst h (by simp [hpart, hid])

theorem State.modTeam_eq (s : State) (part id : Nat) (f : Team → Team) :
    s.modTeam part id f = { s with teams := (s.modTeam part id f).teams } := rfl

-- The order of a partition's operations (R182).

/-- The state in which an operation on the partition's teams acts: its stamp is noted. -/
def State.stamped (s : State) : State := s.modPart s.myPart fun p => { p with ops := ⟨s.keel, s.iss.src⟩ }

theorem State.ordered_of_turn {s : State} (h : Stamp.lt ⟨s.keel, s.iss.src⟩ (s.part s.myPart).ops = false) (k : State → State) :
    s.ordered k = k s.stamped := if_neg (by rw [h]; decide)

-- The index that a new member takes.

/-- Where every smaller index than `i` is held, and the tries left and `i` together exceed the members, the index found is held by no
member and every smaller one is. -/
theorem freeIndex_lowest (ms : List (Nat × Nat)) (fuel i : Nat) (hbelow : ∀ j, j < i → ∃ m ∈ ms, m.1 = j)
    (hfuel : ms.length < i + fuel) :
    (∀ m ∈ ms, m.1 ≠ freeIndex ms fuel i) ∧ ∀ j, j < freeIndex ms fuel i → ∃ m ∈ ms, m.1 = j := by
  induction fuel generalizing i with
  | zero =>
    have hsub : List.range i ⊆ ms.map (·.1) := fun j hj => List.mem_map.2 (hbelow j (List.mem_range.1 hj))
    have hle := (List.nodup_range.subperm hsub).length_le
    rw [List.length_range, List.length_map] at hle
    omega
  | succ fuel ih =>
    rw [freeIndex]
    split
    case isTrue hheld =>
      have hi : ∃ m ∈ ms, m.1 = i := by simpa using hheld
      exact ih (i + 1) (fun j hj => (Nat.lt_succ_iff_lt_or_eq.1 hj).elim (hbelow j) fun e => e ▸ hi) (by omega)
    case isFalse hfree => exact ⟨fun m hm h => hfree (List.any_eq_true.2 ⟨m, hm, decide_eq_true h⟩), hbelow⟩

-- JOIN, LEAVE and TEAMQ.

/-- The team's number that a scalar gives. -/
abbrev State.teamId (s : State) (a : Reg) : Nat := (s.scalar a).toNat % 65536

section
variable {s : State} {d a : Reg}

theorem exec_join_of_reserved (h : 0x8000 ≤ s.teamId a) : exec (.join d a) s = .next (s.fatal .illegal) := if_pos h

theorem exec_join_of_member (hid : s.teamId a < 0x8000) (hteam : s.me.team ≠ none) :
    exec (.join d a) s = .next (s.setScalar d (BitVec.allOnes 64)) := by
  obtain ⟨id, hid'⟩ := Option.ne_none_iff_exists'.1 hteam
  change execJoin d a s = _
  rw [execJoin, if_neg (Nat.not_le.2 hid), hid']
  rfl

theorem exec_join_of_no_team (hturn : Stamp.lt ⟨s.keel, s.iss.src⟩ (s.part s.myPart).ops = false) (hid : s.teamId a < 0x8000)
    (hteam : s.me.team = none) :
    exec (.join d a) s = .next (((s.stamped.joinTeam s.iss.src s.myPart (s.teamId a)).2).setScalar d
      (BitVec.ofNat 64 (s.stamped.joinTeam s.iss.src s.myPart (s.teamId a)).1)) := by
  change execJoin d a s = _
  rw [execJoin, if_neg (Nat.not_le.2 hid), hteam]
  dsimp only
  rw [State.ordered_of_turn hturn]
  rfl

theorem exec_leave (hturn : Stamp.lt ⟨s.keel, s.iss.src⟩ (s.part s.myPart).ops = false) :
    exec (.leave a) s = .next (if s.me.team = some (s.teamId a) then s.stamped.leaveTeam s.iss.src (fun e => e.drop s.iss.src)
      else s.stamped) := by
  change execLeave a s = _
  rw [execLeave, State.ordered_of_turn hturn]
  rfl

end

/-- The thread in its new team, with the team's list as it becomes. -/
def State.joined (s : State) (id : Nat) (teams : List Team) : State :=
  { s.stamped.modMe fun c => { c with team := some id } with teams := teams }

theorem State.me_joined (s : State) (id : Nat) (teams : List Team) : (s.joined id teams).me = { s.me with team := some id } :=
  State.me_modMe s.stamped fun c => { c with team := some id }

theorem State.joinTeam_of_team {s : State} {id : Nat} {tm : Team} (h : s.teamOf s.myPart id = some tm) :
    let i := freeIndex tm.members (tm.members.length + 1) 0
    s.stamped.joinTeam s.iss.src s.myPart id = (i, s.joined id
      (s.modTeam s.myPart id fun t => { t with members := t.members ++ [(i, s.iss.src)] }).teams) := by
  have hjoined : (s.stamped.modCtx s.iss.src fun c => { c with team := some id }).teamOf s.myPart id = some tm := h
  simp only [State.joinTeam, hjoined]
  rfl

theorem State.joinTeam_of_no_team {s : State} {id : Nat} (h : s.teamOf s.myPart id = none) :
    s.stamped.joinTeam s.iss.src s.myPart id =
      (0, s.joined id (s.teams ++ [{ part := s.myPart, id := id, members := [(0, s.iss.src)] }])) := by
  have hjoined : (s.stamped.modCtx s.iss.src fun c => { c with team := some id }).teamOf s.myPart id = none := h
  simp only [State.joinTeam, hjoined]
  rfl

/-- R182: a thread that joins takes the lowest index that no member of its team holds. -/
theorem join_existing_team {s : State} {id : Nat} {tm : Team} (d : Reg) (h : s.teamOf s.myPart id = some tm) :
    let r := s.stamped.joinTeam s.iss.src s.myPart id
    let t := r.2.setScalar d (BitVec.ofNat 64 r.1)
    t = { s with ctxs := t.ctxs, parts := t.parts, teams := t.teams } ∧
    (∀ m ∈ tm.members, m.1 ≠ r.1) ∧ (∀ j, j < r.1 → ∃ m ∈ tm.members, m.1 = j) ∧
    t.teamOf s.myPart id = some { tm with members := tm.members ++ [(r.1, s.iss.src)] } ∧ t.me.team = some id ∧
    (d ≠ 0 → t.me.reg (physReg s.iss.rrb d) = BitVec.ofNat 64 r.1) := by
  rw [State.joinTeam_of_team h]
  obtain ⟨hfree, hlowest⟩ := freeIndex_lowest tm.members (tm.members.length + 1) 0 nofun (by omega)
  refine ⟨?_, hfree, hlowest, ?_, ?_, (readsInto_setScalar _ d _).1⟩
  · dsimp only
    rw [State.setScalar_eq]
    rfl
  · dsimp only
    rw [State.setScalar_eq]
    exact State.teamOf_modTeam h rfl rfl
  · dsimp only
    rw [State.me_setScalar, State.me_joined]

/-- R164, R182: the first thread of a team creates it and has index 0. -/
theorem join_new_team {s : State} {id : Nat} (d : Reg) (h : s.teamOf s.myPart id = none) :
    let r := s.stamped.joinTeam s.iss.src s.myPart id
    let t := r.2.setScalar d (BitVec.ofNat 64 r.1)
    t = { s with ctxs := t.ctxs, parts := t.parts, teams := t.teams } ∧
    t.teams = s.teams ++ [{ part := s.myPart, id := id, members := [(0, s.iss.src)] }] ∧ t.me.team = some id ∧
    (d ≠ 0 → t.me.reg (physReg s.iss.rrb d) = 0) := by
  rw [State.joinTeam_of_no_team h]
  refine ⟨?_, ?_, ?_, (readsInto_setScalar _ d _).1⟩
  · dsimp only
    rw [State.setScalar_eq]
    rfl
  · dsimp only
    rw [State.setScalar_eq]
    rfl
  · dsimp only
    rw [State.me_setScalar, State.me_joined]

theorem State.leaveTeam_of_team {s : State} {id : Nat} (h : s.me.team = some id) (f : Episode → Episode) :
    ∃ teams, s.leaveTeam s.iss.src f = { s.modMe fun c => { c with team := none } with teams := teams } := by
  have h' : (s.ctx s.iss.src).team = some id := h
  rw [State.leaveTeam, h']
  exact ⟨_, rfl⟩

/-- What `TEAMQ` answers for each selector (R183). -/
def State.teamAnswer (s : State) (id : Nat) (sel : BitVec 4) : Word :=
  if sel = 0 then BitVec.ofNat 64 ((s.teamOf s.myPart id).elim 0 (·.members.length))
  else if sel = 1 then ((s.teamOf s.myPart id).bind fun tm =>
    (tm.members.find? fun m => m.2 = s.iss.src).map fun m => BitVec.ofNat 64 m.1).getD (BitVec.allOnes 64)
  else if sel = 2 then BitVec.ofNat 64 ((s.teamOf s.myPart id).elim 0 (·.done))
  else if sel = 3 then BitVec.ofNat 64 (((s.teamOf s.myPart id).bind (·.ep)).elim 0 (·.arrived.length))
  else s.me.team.elim (BitVec.allOnes 64) (BitVec.ofNat 64)

theorem exec_teamq {s : State} (hturn : Stamp.lt ⟨s.keel, s.iss.src⟩ (s.part s.myPart).ops = false) (d a : Reg) (sel : BitVec 4) :
    exec (.teamq d a sel) s = .next (s.stamped.setScalar d (s.teamAnswer (s.teamId a) sel)) := by
  change execTeamq d a sel s = _
  rw [execTeamq, State.ordered_of_turn hturn, State.teamAnswer]
  congr 2
  split
  case h_1 h =>
    obtain rfl : sel = 0 := BitVec.eq_of_toNat_eq h
    rfl
  case h_2 h =>
    obtain rfl : sel = 1 := BitVec.eq_of_toNat_eq h
    rfl
  case h_3 h =>
    obtain rfl : sel = 2 := BitVec.eq_of_toNat_eq h
    rfl
  case h_4 h =>
    obtain rfl : sel = 3 := BitVec.eq_of_toNat_eq h
    rfl
  case h_5 h0 h1 h2 h3 =>
    rw [if_neg fun h : sel = 0 => h0 (by rw [h]; rfl), if_neg fun h : sel = 1 => h1 (by rw [h]; rfl),
      if_neg fun h : sel = 2 => h2 (by rw [h]; rfl), if_neg fun h : sel = 3 => h3 (by rw [h]; rfl)]
    rfl

-- PHASEB of a member (R178, R179).

theorem exec_phaseb_of_released {s : State} (h : s.me.arrived = 2) (sc : Scope) :
    exec (.phaseb sc) s = .next (s.modMe fun c => { c with arrived := 0 }) := by
  change execPhaseb sc s = _
  simp only [execPhaseb, h]

theorem exec_phaseb_of_arrived {s : State} (h : s.me.arrived = 1) (sc : Scope) :
    exec (.phaseb sc) s = .next (s.waitOn 2 (s.me.team.getD 0) none) := by
  change execPhaseb sc s = _
  simp only [execPhaseb, h]

section
variable {s : State} {sc : Scope} {id : Nat} {tm : Team}

theorem exec_phaseb_of_member (harrived : s.me.arrived = 0) (hteam : s.me.team = some id) (htm : s.teamOf s.myPart id = some tm)
    (hpart : ∀ e ∈ tm.ep, s.iss.src ∈ e.waiting) (hturn : Stamp.lt ⟨s.keel, s.iss.src⟩ (s.part s.myPart).ops = false)
    (hmay : s.mayBound sc = true) :
    exec (.phaseb sc) s = .next (((s.stamped.publishNow sc).arrive id).waitOn 2 id none) := by
  have hin : (tm.ep.any fun e => !(e.waiting.contains s.iss.src)) = false := by
    cases hep : tm.ep with
    | none => rfl
    | some e => simpa using hpart e hep
  have hmay' : s.stamped.mayBound sc = true := hmay
  change execPhaseb sc s = _
  simp only [execPhaseb, harrived, hteam, htm, Option.bind_some, hin, State.ordered_of_turn hturn,
    State.afterPublish_of_mayBound hmay', Bool.false_eq_true, if_false]

theorem State.me_arrived (s : State) (sc : Scope) (id : Nat) :
    ((s.stamped.publishNow sc).arrive id).me = { s.me with arrived := 1, lastB := s.keel + 1 } := by
  rw [State.arrive, State.me_modMe]
  exact congrArg (fun c : Ctx => { c with arrived := 1 }) (State.me_publishNow s.stamped sc)

theorem State.stamped_eq (s : State) : s.stamped = { s with parts := s.stamped.parts } := rfl

theorem State.arrive_eq (s : State) (id : Nat) : s.arrive id = { s with ctxs := (s.arrive id).ctxs, teams := (s.arrive id).teams } := rfl

theorem State.waitOn_eq (s : State) (kind obj : Nat) (deadline : Option Nat) : s.waitOn kind obj deadline =
    { s with ctxs := (s.waitOn kind obj deadline).ctxs, iss := (s.waitOn kind obj deadline).iss } := rfl

theorem State.waits_arrived_eq (s : State) (sc : Scope) (id : Nat) :
    let t := ((s.stamped.publishNow sc).arrive id).waitOn 2 id none
    t = { s with ctxs := t.ctxs, parts := t.parts, vers := t.vers, teams := t.teams, iss := t.iss } := by
  intro t
  unfold t
  rw [State.waitOn_eq, State.arrive_eq, State.stamped_eq]
  rfl

theorem State.teamOf_waitOn (s : State) (kind obj : Nat) (deadline : Option Nat) (part id : Nat) :
    (s.waitOn kind obj deadline).teamOf part id = s.teamOf part id := rfl

/-- The arrival stands in the open episode, or opens one whose participants are the members. -/
theorem State.teamOf_arrived (htm : s.teamOf s.myPart id = some tm) : ((s.stamped.publishNow sc).arrive id).teamOf s.myPart id =
    some { tm with ep := some (match tm.ep with
      | some e => { e with arrived := e.arrived ++ [s.iss.src] }
      | none => ⟨tm.members.map (·.2), [s.iss.src]⟩) } := by
  have htm' : (s.stamped.publishNow sc).teamOf s.myPart id = some tm := htm
  change ((s.stamped.publishNow sc).modTeam s.myPart id _).teamOf s.myPart id = _
  rw [State.teamOf_modTeam htm' rfl rfl]
  cases tm.ep <;> rfl

end

-- The release (R179).

/-- Each of some threads is released, `last` having ended their waits. -/
def State.releaseAll (s : State) (ms : List Nat) (last : Nat) : State :=
  ms.foldl (fun s m => s.modCtx m fun c => c.released s.keel m last) s

theorem State.releaseAll_cons (s : State) (m : Nat) (ms : List Nat) (last : Nat) :
    s.releaseAll (m :: ms) last = (s.modCtx m fun c => c.released s.keel m last).releaseAll ms last := rfl

theorem State.releaseAll_eq (s : State) (ms : List Nat) (last : Nat) :
    s.releaseAll ms last = { s with ctxs := (s.releaseAll ms last).ctxs } := by
  induction ms generalizing s with
  | nil => rfl
  | cons m ms ih => exact ih _

theorem State.ctx_releaseAll_other {n : Nat} {ms : List Nat} (s : State) (last : Nat) (hn : n ∉ ms) :
    (s.releaseAll ms last).ctx n = s.ctx n := by
  induction ms generalizing s with
  | nil => rfl
  | cons m ms ih =>
    rw [State.releaseAll_cons, ih _ (List.not_mem_of_not_mem_cons hn), State.ctx_modCtx, if_neg (Ne.symm (List.ne_of_not_mem_cons hn))]

theorem State.ctx_releaseAll_mem {n : Nat} {ms : List Nat} (s : State) (last : Nat) (hnodup : ms.Nodup) (hn : n ∈ ms) :
    (s.releaseAll ms last).ctx n = (s.ctx n).released s.keel n last := by
  induction ms generalizing s with
  | nil => cases hn
  | cons m ms ih =>
    obtain ⟨hm, hms⟩ := List.nodup_cons.1 hnodup
    rw [State.releaseAll_cons]
    rcases List.mem_cons.1 hn with rfl | hn
    · rw [State.ctx_releaseAll_other _ _ hm, State.ctx_modCtx, if_pos rfl]
    · have hne : m ≠ n := fun h => hm (h ▸ hn)
      rw [ih _ hms hn, State.ctx_modCtx, if_neg hne]
      rfl

theorem exec_barrierRelease_of_ready {s : State} {tm : Team} {e : Episode} (htm : s.teamOf s.arg.a s.arg.b = some tm)
    (hep : tm.ep = some e) (hready : s.episodeReady tm = true) : exec .barrierRelease s =
      .next ((s.releaseAll e.arrived (e.arrived.getLast?.getD 0xFFF)).modTeam s.arg.a s.arg.b fun t =>
        { t with ep := none, done := (t.done + 1) % 2 ^ 64 }) := by
  obtain ⟨hpart, hid⟩ := State.name_of_teamOf htm
  change execBarrierRelease s = _
  simp only [execBarrierRelease, htm, hready, hep, hpart, hid]
  rfl

/-- R179: those who have arrived go on in a new phase, and no other thread changes. -/
theorem releaseAll_spec (s : State) (ms : List Nat) (last : Nat) :
    (∀ n, n ∉ ms → (s.releaseAll ms last).ctx n = s.ctx n) ∧
    (ms.Nodup → ∀ n ∈ ms, ((s.releaseAll ms last).ctx n).arrived = 2 ∧ ((s.releaseAll ms last).ctx n).hzn = ⟨s.keel, n⟩ ∧
      ((s.releaseAll ms last).ctx n).phase = (s.ctx n).phase + 1 ∧ ((s.releaseAll ms last).ctx n).regs = (s.ctx n).regs) := by
  refine ⟨fun n hn => State.ctx_releaseAll_other s last hn, fun hnodup n hn => ?_⟩
  rw [State.ctx_releaseAll_mem s last hnodup hn]
  exact ⟨rfl, rfl, rfl, rfl⟩

/-- Settles O8: the barrier of a team, and joining, leaving and asking one. -/
theorem teams : Obligations.Teams := by
  refine ⟨⟨?_, ?_, ?_, ?_⟩, ?_⟩
  · intro s sc h
    exact ⟨_, exec_phaseb_of_released h sc, OnlyMine.modMe s _, rfl, State.me_modMe ..⟩
  · intro s sc h
    exact ⟨_, exec_phaseb_of_arrived h sc, rfl, State.me_waitOn ..⟩
  · intro s sc id tm harrived hteam htm hpart hturn hmay
    refine ⟨_, exec_phaseb_of_member harrived hteam htm hpart hturn hmay, rfl, rfl, State.waits_arrived_eq s sc id, ?_, ?_⟩
    · rw [State.me_waitOn, State.me_arrived]
    · rw [State.teamOf_waitOn]
      exact State.teamOf_arrived htm
  · intro s tm e htm hep hready
    have hrest := s.releaseAll_eq e.arrived (e.arrived.getLast?.getD 0xFFF)
    obtain ⟨hothers, hmembers⟩ := releaseAll_spec s e.arrived (e.arrived.getLast?.getD 0xFFF)
    refine ⟨_, exec_barrierRelease_of_ready htm hep hready, ?_, hothers, hmembers, ?_⟩
    · rw [State.modTeam_eq, hrest]
    · refine State.teamOf_modTeam (tm := tm) ?_ rfl rfl
      rw [hrest]
      exact htm
  · intro s d a hturn id
    refine ⟨exec_join_of_reserved, fun hid hteam => ?_, fun hid hteam tm htm => ?_, fun hid hteam htm => ?_, fun hteam => ?_,
      fun hteam => ?_, fun sel => ?_⟩
    · obtain ⟨honly, -, hme, hreg, -⟩ := setScalar_spec s d (BitVec.allOnes 64)
      exact ⟨_, exec_join_of_member hid hteam, honly, hme, hreg⟩
    · exact ⟨_, _, exec_join_of_no_team hturn hid hteam, join_existing_team d htm⟩
    · exact ⟨_, exec_join_of_no_team hturn hid hteam, join_new_team d htm⟩
    · obtain ⟨teams, hleave⟩ := State.leaveTeam_of_team (s := s.stamped) hteam (fun e => e.drop s.iss.src)
      refine ⟨_, (exec_leave hturn).trans (congrArg _ ((if_pos hteam).trans hleave)), rfl, ?_⟩
      exact State.me_modMe s.stamped fun c => { c with team := none }
    · exact ⟨_, (exec_leave hturn).trans (congrArg _ (if_neg hteam)), rfl⟩
    · refine ⟨_, exec_teamq hturn d a sel, ?_, State.me_setScalar .., (readsInto_setScalar _ d _).1⟩
      rw [State.setScalar_eq]
      rfl

end Sys2Proof.Machine
end

section
/-! `FLAGSET` and `FLAGW` at their first read (R172, R176, R180, R181): the way through the tether, what a flag write leaves at each
kind of page, and the three ends of a read. -/

namespace Sys2Proof.Machine

-- A word of 8 bytes through a tether, at the control core.

theorem State.withTeth_of_free {s : State} {th : BitVec 4} (h : s.me.xlatPending th = false) (k : State → State) :
    s.withTeth th k = k s := by
  rw [State.withTeth, h]
  rfl

/-- R176: an address that is no multiple of 8 is a bad tether access, whatever the kind of its page. -/
theorem State.tethered_word {s : State} {th : BitVec 4} {off : Int} {write : Bool} (h : s.tethUsable th off 8 write false)
    (k : Tether → Nat → State) :
    let pa := ((s.me.teth th).anchor + off).toNat
    s.tethered th off 8 write false (fun t pa => if pa % 8 ≠ 0 then s.fatal .badTether (th.setWidth 32) else k t pa) =
      if pa % 8 = 0 then k (s.me.teth th) pa else s.fatal .badTether (th.setWidth 32) := by
  intro pa
  rw [State.tethered_of_usable h]
  by_cases halign : pa % 8 = 0
  · have hsize : devSizeOk pa 8 = true := devSizeOk_of_aligned (.inl rfl) halign
    dsimp only
    rw [if_neg (fun hbad => by simp [pa, hsize] at hbad), if_neg (not_not.2 halign), if_pos halign]
  · dsimp only
    rw [if_neg halign, if_pos halign, ite_self]

-- FLAGSET.

section
variable {s : State} {th : BitVec 4} {a : Reg} {sc : Scope} {pa : Nat}
  (hpa : pa = ((s.me.teth th).anchor + (s.scalar a).toInt).toNat) (hxlat : s.me.xlatPending th = false)
  (hmay : s.mayBound sc = true) (husable : s.tethUsable th (s.scalar a).toInt 8 true false)
include hpa hxlat hmay husable

theorem exec_flagset_of_usable (b : Reg) : exec (.flagset th a b sc) s = .next (if pa % 8 = 0 then
      ((s.publishNow sc).countTeth (s.me.teth th)).flagWrite th (s.me.teth th) pa sc (s.scalar b)
    else (s.publishNow sc).fatal .badTether (th.setWidth 32)) := by
  have hscalar (r : Reg) : (s.publishNow sc).scalar r = s.scalar r := s.scalar_beforeAtomic true sc s.cells r
  have hteth : (s.publishNow sc).me.teth th = s.me.teth th := by rw [State.me_publishNow]; rfl
  have husable' : (s.publishNow sc).tethUsable th (s.scalar a).toInt 8 true false := by
    rw [State.tethUsable, hteth]; exact husable
  change execFlagset th a b sc s = _
  rw [execFlagset, State.withTeth_of_free hxlat, State.afterPublish_of_mayBound hmay, hscalar, hscalar,
    State.tethered_word husable', hteth, ← hpa]

/-- The write is made once the thread's stores are published and the access is counted. -/
theorem exec_flagset_of_aligned (halign : pa % 8 = 0) (b : Reg) : ∃ cs, exec (.flagset th a b sc) s =
    .next ((s.beforeAtomic true sc cs).flagWrite th (s.me.teth th) pa sc (s.scalar b)) := by
  obtain ⟨cs, hcs⟩ := (s.publishNow sc).countTeth_eq (s.me.teth th)
  refine ⟨cs, ?_⟩
  rw [exec_flagset_of_usable hpa hxlat hmay husable, if_pos halign, hcs]
  rfl

end

section
variable (s : State) (th : BitVec 4) (t : Tether) {pa : Nat} (sc : Scope) (v : Word)

theorem State.flagWrite_memory (h : memoryAt pa) : s.flagWrite th t pa sc v =
    s.addAt s.iss.src s.myPart s.myCell ⟨s.keel + 1, s.iss.src⟩ sc pa (leBytes 8 v.toNat) t.exp s.iss.phase [] (some th) := by
  rw [State.flagWrite]
  rcases h with h | h | h <;> rw [h]

theorem State.flagWrite_register (h : paKind pa = .device ∨ paKind pa = .notify) :
    s.flagWrite th t pa sc v = s.devStore s.iss.src pa 8 v.toNat false := by
  rw [State.flagWrite]
  rcases h with h | h <;> rw [h]

theorem State.flagWrite_peer (h : paKind pa = .peer) : s.flagWrite th t pa sc v = s.peerStore pa := by
  rw [State.flagWrite, h]

end

-- The read of a FLAGW.

/-- The word that a `FLAGW` reads at memory, or at a device register. -/
def State.flagWord (s : State) (pa : Nat) : Word :=
  BitVec.ofNat 64 (if memoryAt pa then leVal (s.bytesAt s.viewerNow true s.myPart pa 8) else s.devRead pa 8)

/-- The word lies in memory and is not poisoned, or is a device register. -/
abbrev State.flagReadable (s : State) (pa : Nat) : Prop :=
  (memoryAt pa ∧ s.poisonAt s.viewerNow true s.myPart pa 8 = false) ∨ paKind pa = .device ∨ paKind pa = .notify

theorem State.atPoisoned_of_readable {s : State} {pa : Nat} (h : s.flagReadable pa) : s.atPoisoned true pa 8 = false := by
  rw [State.atPoisoned, State.poisonedWhere]
  rcases h with ⟨h | h | h, hsound⟩ | h | h <;> rw [h]
  all_goals exact hsound

theorem State.flagRead_of_readable {s : State} {pa : Nat} (h : s.flagReadable pa) :
    ∃ setter, s.flagRead pa = (s.flagWord pa, setter, s) := by
  rw [State.flagRead, State.flagWord]
  unfold memoryAt
  rcases h with ⟨h | h | h, -⟩ | h | h <;> rw [h] <;> exact ⟨_, rfl⟩

/-- The first read of a `FLAGW` ends the wait where its condition holds or its deadline has come, and else leaves what it has seen. -/
theorem State.flagTry_first {s : State} {pa : Nat} (hwait : s.me.wait = none) (h : s.flagReadable pa) (d : Reg) (t : Tether) (b : Word)
    (dl : Option Nat) (sc : Scope) (cond : FlagCond) : ∃ cs setter,
    let w : State := { s with cells := cs }
    s.flagTry d t pa b dl sc cond =
      if FlagCond.holds cond (s.flagWord pa) b then (w.setScalar d (s.flagWord pa)).waitEnds 1 (bitsOf pa 3 32) setter 0 sc
      else if overdue s.keel dl then (w.setScalar d (s.flagWord pa)).waitEnds 1 (bitsOf pa 3 32) 0xFFF 1 sc
      else (w.waitOn 1 (bitsOf pa 3 32) dl).modMe fun c => { c with
        wait := c.wait.map fun w => { w with last := some (s.flagWord pa), mark := s.flagSeen pa } } := by
  obtain ⟨cs, hcs⟩ := s.countTeth_eq t
  obtain ⟨setter, hread⟩ := State.flagRead_of_readable h
  refine ⟨cs, setter, ?_⟩
  simp only [State.flagTry, hwait, Option.bind_none, State.atPoisoned_of_readable h, hread, reduceCtorEq, decide_false, Bool.and_false,
    Bool.false_eq_true, if_false, hcs]

section
variable {s : State} {th : BitVec 4} {a : Reg} {pa : Nat}
  (hpa : pa = ((s.me.teth th).anchor + (s.scalar a).toInt).toNat) (hwait : s.me.wait = none)
  (hxlat : s.me.xlatPending th = false) (husable : s.tethUsable th (s.scalar a).toInt 8 false false)
include hpa hwait hxlat husable

/-- A `FLAGW` that does not wait yet reads its word for the first time, under the deadline of its register. -/
theorem exec_flagw_first (d b c : Reg) (sc : Scope) (k : FlagCond) : exec (.flagw d th a b c sc k) s = .next (if pa % 8 = 0 then
      s.flagTry d (s.me.teth th) pa (s.scalar b) (s.deadlineOf c) sc k
    else s.fatal .badTether (th.setWidth 32)) := by
  have hover : s.me.waitOver 1 = false := by rw [Ctx.waitOver, hwait]; rfl
  have hdeadline : s.me.deadline 1 (s.deadlineOf c) = s.deadlineOf c := by rw [Ctx.deadline, hwait]
  change execFlagw d th a b c sc k s = _
  rw [execFlagw, State.flagw, hover, hwait]
  dsimp only [Option.bind_none]
  rw [if_neg Bool.false_ne_true, State.withTeth_of_free hxlat, State.tethered_word husable, ← hpa, hdeadline]

end

-- A thread that changes its scalars and its wait alone, and then makes a boundary.

/-- Only the scalars and the wait of the executing thread may have changed, and what its cell counts. -/
def OnlyRegsAndWait (s t : State) : Prop :=
  t = { s with ctxs := t.ctxs, cells := t.cells } ∧ OthersKept s t s.iss.src ∧
  t.me = { s.me with regs := t.me.regs, wait := t.me.wait }

theorem OnlyRegsAndWait.mayBound {s t : State} (h : OnlyRegsAndWait s t) (sc : Scope) : t.mayBound sc = s.mayBound sc := by
  obtain ⟨hrest, -, hme⟩ := h
  have hstores (id : Nat) : t.storesDone id = s.storesDone id := by
    rw [State.storesDone, hme, hrest]; rfl
  rw [State.mayBound, State.mayPublish, hstores, hme, hrest]
  rfl

theorem OnlyRegsAndWait.boundary {s t : State} (h : OnlyRegsAndWait s t) (sc : Scope) :
    t.boundary sc = { s with ctxs := (t.boundary sc).ctxs, cells := (t.boundary sc).cells, vers := (s.publish s.iss.src sc).vers } ∧
    OthersKept s (t.boundary sc) s.iss.src ∧ (t.boundary sc).me = { s.me with
      regs := t.me.regs, wait := t.me.wait, hzn := ⟨s.keel, s.iss.src⟩, phase := s.me.phase + 1, lastB := s.keel + 1 } := by
  obtain ⟨hrest, hothers, hme⟩ := h
  have hiss : t.iss = s.iss := by rw [hrest]
  have hkeel : t.keel = s.keel := by rw [hrest]
  refine ⟨?_, hothers.trans (hiss ▸ othersKept_boundary t sc), ?_⟩
  · exact congrArg (fun u : State => { u with ctxs := (t.boundary sc).ctxs, vers := (u.publish u.iss.src sc).vers }) hrest
  · rw [State.me_boundary, hiss, hkeel]
    exact congrArg (fun c : Ctx => { c with hzn := ⟨s.keel, s.iss.src⟩, phase := c.phase + 1, lastB := s.keel + 1 }) hme

theorem OnlyRegsAndWait.trans {s t u : State} (h : OnlyRegsAndWait s t) (k : OnlyRegsAndWait t u) : OnlyRegsAndWait s u := by
  obtain ⟨hrest, hothers, hme⟩ := h
  obtain ⟨krest, kothers, kme⟩ := k
  have hiss : t.iss = s.iss := by rw [hrest]
  rw [hiss] at kothers
  exact ⟨krest.trans (congrArg (fun x : State => { x with ctxs := u.ctxs, cells := u.cells }) hrest), hothers.trans kothers,
    kme.trans (congrArg (fun x : Ctx => { x with regs := u.me.regs, wait := u.me.wait }) hme)⟩

theorem onlyRegsAndWait_counted (s : State) (cs : List (Nat × CellSt)) : OnlyRegsAndWait s { s with cells := cs } :=
  ⟨rfl, fun _ _ => rfl, rfl⟩

theorem onlyRegsAndWait_setScalar (s : State) (d : Reg) (v : Word) : OnlyRegsAndWait s (s.setScalar d v) := by
  refine ⟨?_, othersKept_setScalar s d v, ?_⟩
  · rw [State.setScalar_eq]
  · rw [State.me_setScalar]

theorem onlyRegsAndWait_setWait (s : State) (f : Ctx → Option Wait) : OnlyRegsAndWait s (s.modMe fun c => { c with wait := f c }) := by
  refine ⟨rfl, othersKept_modMe s _, ?_⟩
  rw [State.me_modMe]

/-- R181: the read that ends a wait writes the value to D and makes its boundary. -/
theorem setScalar_waitEnds {s w : State} {sc : Scope} (hw : OnlyRegsAndWait s w) (hmay : s.mayBound sc = true) (d : Reg) (v : Word)
    (kind obj setter outcome : Nat) :
    let t := (w.setScalar d v).waitEnds kind obj setter outcome sc
    t = { s with ctxs := t.ctxs, cells := t.cells, vers := t.vers } ∧ OthersKept s t s.iss.src ∧
    t.vers = (s.publish s.iss.src sc).vers ∧
    t.me = { s.me with
      regs := t.me.regs, wait := t.me.wait, hzn := ⟨s.keel, s.iss.src⟩, phase := s.me.phase + 1, lastB := s.keel + 1 } ∧
    ReadsInto w t d v := by
  intro t
  have hset := hw.trans (onlyRegsAndWait_setScalar w d v)
  have hended := hset.trans (onlyRegsAndWait_setWait (w.setScalar d v) fun c => some
    { ((c.wait.getD { since := (w.setScalar d v).keel, kind := kind, obj := obj }).begun (w.setScalar d v).keel) with
      ended := some (setter, outcome) })
  obtain ⟨hframe, hothers, hme⟩ := hended.boundary sc
  have ht : t = State.boundary _ sc := State.bound_of_mayBound ((hended.mayBound sc).trans hmay)
  rw [← ht] at hframe hothers hme
  have hvers : t.vers = (s.publish s.iss.src sc).vers := by rw [hframe]
  have hregs := congrArg Ctx.regs hme
  refine ⟨?_, hothers, hvers, ?_, (readsInto_setScalar w d v).of_regs (hregs.trans ?_)⟩
  · rw [hvers]; exact hframe
  · rw [hregs, congrArg Ctx.wait hme]; exact hme
  · rw [State.me_modMe]

/-- R181: a read that does not end the wait notes what it has seen and writes nothing. -/
theorem waitOn_noting {s : State} (hunit : s.iss.unit = .c) (hwait : s.me.wait = none) (kind obj : Nat) (dl : Option Nat) (v : Word)
    (seen : List Nat) :
    let t := (s.waitOn kind obj dl).modMe fun c => { c with wait := c.wait.map fun w => { w with last := some v, mark := seen } }
    t = { s with ctxs := t.ctxs, iss := t.iss } ∧ OthersKept s t s.iss.src ∧ t.iss.flow = .stalled ∧
    t.me = { s.me with wait := t.me.wait } ∧ ∃ w, t.me.wait = some w ∧ w.last = some v ∧ w.since = s.keel := by
  intro t
  have hme : t.me = { s.me with
      wait := some { since := s.keel, deadline := dl, kind := kind, obj := obj, last := some v, mark := seen } } := by
    unfold t
    rw [State.me_modMe, State.waitOn, State.me_stall, State.me_modMe, if_pos hunit, hwait]
    rfl
  refine ⟨rfl, ?_, rfl, ?_, _, congrArg Ctx.wait hme, rfl, rfl⟩
  · obtain ⟨-, -, hothers, -⟩ := OnlyMine.waitOn s kind obj dl
    exact OthersKept.trans hothers (othersKept_modMe (s.waitOn kind obj dl) _)
  · rw [hme]

/-- Settles O10: `FLAGSET` at each kind of page, and the first read of `FLAGW`. -/
theorem flagWrites : Obligations.FlagWrites := by
  refine ⟨?_, ?_, ?_, ?_⟩
  · intro s th a b sc pa hxlat hmay husable hmem halign
    obtain ⟨cs, hexec⟩ := exec_flagset_of_aligned rfl hxlat hmay husable halign b
    rw [State.flagWrite_memory _ _ _ _ _ hmem] at hexec
    refine ⟨_, _, hexec, rfl, othersKept_beforeAtomic s true sc cs, State.me_beforeAtomic s true sc cs, rfl, ?_, rfl, rfl, rfl⟩
    exact congrArg (fun n => (s.addrs s.myPart pa n).zip (leBytes 8 (s.scalar b).toNat)) (leBytes_length ..)
  · intro s d th a b c sc k pa v hunit hwait hxlat husable hread halign
    have hfirst := exec_flagw_first rfl hwait hxlat husable d b c sc k
    obtain ⟨cs, setter, htry⟩ := State.flagTry_first hwait hread d (s.me.teth th) (s.scalar b) (s.deadlineOf c) sc k
    rw [if_pos halign, htry] at hfirst
    refine ⟨fun hholds hmay => ?_, fun hholds hdue => ?_⟩
    · obtain ⟨hframe, hothers, hvers, hme, hsame, hother⟩ :=
        setScalar_waitEnds (onlyRegsAndWait_counted s cs) hmay d v 1 (bitsOf pa 3 32) setter 0
      exact ⟨_, hfirst.trans (congrArg _ (if_pos hholds)), hframe, hothers, hvers, hme, hsame, hother⟩
    · obtain ⟨hframe, hothers, hflow, hme, hseen⟩ :=
        waitOn_noting (s := { s with cells := cs }) hunit hwait 1 (bitsOf pa 3 32) (s.deadlineOf c) v (s.flagSeen pa)
      have hnot : ¬ FlagCond.holds k v (s.scalar b) = true := by rw [hholds]; decide
      have hlater : ¬ overdue s.keel (s.deadlineOf c) = true := by rw [hdue]; decide
      exact ⟨_, hfirst.trans (congrArg _ ((if_neg hnot).trans (if_neg hlater))), hframe, hothers, hflow, hme, hseen⟩
  · intro s th a b sc pa Published hxlat hmay husable
    have hpublished (cs : List (Nat × CellSt)) : Published (s.beforeAtomic true sc cs) :=
      ⟨rfl, othersKept_beforeAtomic s true sc cs, State.me_beforeAtomic s true sc cs⟩
    refine ⟨fun hreg halign => ?_, fun hpeer halign => ?_, fun hodd => ?_⟩
    · obtain ⟨cs, hexec⟩ := exec_flagset_of_aligned rfl hxlat hmay husable halign b
      rw [State.flagWrite_register _ _ _ _ _ hreg] at hexec
      exact ⟨_, hpublished cs, hexec⟩
    · obtain ⟨cs, hexec⟩ := exec_flagset_of_aligned rfl hxlat hmay husable halign b
      rw [State.flagWrite_peer _ _ _ _ _ hpeer] at hexec
      exact ⟨_, hpublished cs, hexec⟩
    · exact ⟨s.publishNow sc, hpublished s.cells, (exec_flagset_of_usable rfl hxlat hmay husable b).trans (congrArg _ (if_neg hodd))⟩
  · intro s d th a b c sc k pa hwait hxlat husable hodd
    exact (exec_flagw_first rfl hwait hxlat husable d b c sc k).trans (congrArg _ (if_neg hodd))

end Sys2Proof.Machine
end

section
/-! The events that end a wait (R168, R181): each is the waiting instruction tried again, and its issue finished. -/

namespace Sys2Proof.Machine

theorem State.retry_of_goOn {s t : State} {src : Nat} {i : Instr} {f : Instr → Option (State → State)} {k : State → State}
    (hrun : s.runnable src = true) (hlate : (s.ctx src).lateAt = 0) (hgo : s.goOn src = some (i, t)) (hf : f i = some k) :
    s.retry src f = (k t).finishC i (s.ctx src).pc := by
  rw [State.retry, hrun, hlate, hgo]
  dsimp only
  rw [hf]
  rfl

/-- A publishing `STM` whose store is made tries to publish (R168). -/
theorem exec_stm_of_made {s : State} {f : StmF} {sc : Scope} (hprog : s.iss.prog = 1) (hpub : f.pub = some sc) :
    exec (.stm f) s = .next (s.afterPublish sc id) := by
  change execStm f s = _
  rw [execStm, hpub]
  exact if_pos hprog

theorem State.retryStore_of_stm {s : State} {src : Nat} {e : Entry} {rest : List Entry} {f : StmF} {sc : Scope}
    (hbuf : (s.ctx src).bufA = e :: rest) (hinstr : e.instr = .stm f) (hpub : f.pub = some sc) (hprog : e.prog = 1)
    (hrun : s.unitRuns src = true) : s.retryStore src = ((s.beginU src .a e).afterPublish sc id).finishU .a := by
  simp only [State.retryStore, hbuf, hinstr, hpub, hprog, hrun]
  rfl

/-- Settles O11: the waiting `FLAGW`, `PHASE` or publishing `STM` is tried again. -/
theorem waitsTryAgain : Obligations.WaitsTryAgain := by
  refine ⟨?_, ?_, ?_⟩
  · intro s t d th a b c sc k hrun hlate hgo
    exact ⟨_, rfl, congrArg Host.Outcome.next
      (State.retry_of_goOn (k := fun t => t.flagw d th a b c sc k) hrun hlate hgo rfl)⟩
  · intro s t sc hnone hrun hlate hgo
    refine ⟨_, rfl, ?_⟩
    change execPublishTakesEffect s = _
    rw [execPublishTakesEffect, hnone]
    exact congrArg Host.Outcome.next (State.retry_of_goOn (k := fun t => t.bound sc) hrun hlate hgo rfl)
  · intro s e rest f hbuf hinstr hpub hprog hrun
    obtain ⟨sc, hsc⟩ := Option.isSome_iff_exists.1 hpub
    have hany : ((s.ctx s.arg.a).bufA.any fun e => publishes e.instr) = true := by
      rw [hbuf, List.any_cons, hinstr, publishes, hpub, Bool.true_or]
    refine ⟨_, exec_stm_of_made (s := s.beginU s.arg.a .a e) hprog hsc, ?_⟩
    change execPublishTakesEffect s = _
    rw [execPublishTakesEffect, hany]
    exact congrArg _ (State.retryStore_of_stm hbuf hinstr hsc hprog hrun)

end Sys2Proof.Machine
end

section
/-! The publish buffer (R174) and the end of a lease (R270): a settled version goes into memory, a merged one leaves the buffer, an old
horizon moves up, and a store whose lease has expired is published. -/

namespace Sys2Proof.Machine

-- The bytes of a settled version.

theorem mread_writeCells_other {cs : List Host.Cell} {a : Nat} (m : List Host.Cell) (h : ∀ c ∈ cs, c.1 ≠ a) :
    mread (writeCells m cs) a = mread m a := by
  induction cs generalizing m with
  | nil => rfl
  | cons c cs ih =>
    obtain ⟨hc, hcs⟩ := List.forall_mem_cons.1 h
    rw [writeCells, ih _ hcs, mread_mwrite, if_neg hc]

theorem mread_writeCells_mem {cs : List Host.Cell} {c : Host.Cell} (m : List Host.Cell) (hnodup : (cs.map (·.1)).Nodup) (hc : c ∈ cs) :
    mread (writeCells m cs) c.1 = c.2 := by
  induction cs generalizing m with
  | nil => cases hc
  | cons e cs ih =>
    rw [List.map_cons, List.nodup_cons] at hnodup
    obtain ⟨he, hcs⟩ := hnodup
    rw [writeCells]
    rcases List.mem_cons.1 hc with rfl | hc
    · rw [mread_writeCells_other _ fun x hx h => he (List.mem_map.2 ⟨x, hx, h⟩), mread_mwrite, if_pos rfl]
    · exact ih _ hcs hc

/-- A settled version is no longer among the versions. -/
theorem State.seq_ne_of_mem_settleVer {s : State} {v w : Ver} (hw : w ∈ (s.settleVer v).vers) : w.seq ≠ v.seq := by
  obtain ⟨hw, -⟩ := List.mem_filter.1 hw
  obtain ⟨x, hx, rfl⟩ := List.mem_map.1 hw
  have hne : x.seq ≠ v.seq := by simpa using (List.mem_filter.1 hx).2
  split <;> exact hne

section
variable {s : State} {v : Ver} (hfind : (s.vers.find? fun w => w.seq = s.arg.a) = some v)
include hfind

theorem exec_publishEntryMerge_of_settles (hsettles : s.settles v = true) : exec .publishEntryMerge s = .next (s.settleVer v) := by
  change execPublishEntryMerge s = _
  rw [execPublishEntryMerge, hfind]
  exact if_pos hsettles

theorem exec_publishEntryMerge_of_merges (hmerges : s.merges v = true) (hnot : s.settles v = false) : exec .publishEntryMerge s =
    .next { s with vers := s.vers.map fun w => if w.seq = v.seq then { w with merged := true } else w } := by
  change execPublishEntryMerge s = _
  rw [execPublishEntryMerge, hfind]
  dsimp only
  rw [hnot, hmerges]
  rfl

end

-- The horizon limit.

theorem Ctx.age_eq (c : Ctx) (keel src : Nat) : c.age keel src = if c.hzn.keel + 2 ^ 20 < keel then
    { c with hzn := ⟨keel, src⟩, phase := c.phase + 1, lastB := keel + 1, aged := true } else c := by
  by_cases h : c.hzn.keel + 2 ^ 20 < keel
  · have hold : c.old keel = true := decide_eq_true h
    rw [if_pos h, Ctx.age, hold, if_pos rfl]
  · have hold : c.old keel = false := decide_eq_false h
    rw [if_neg h, Ctx.age, hold, if_neg Bool.false_ne_true]

theorem exec_horizonAging_of_used {s : State} (h : (s.ctx s.arg.a).status ≠ .free) : ∃ slots, exec .horizonAging s =
    .next { s.modCtx s.arg.a fun c => c.age s.keel s.arg.a with slots := slots } := by
  change ∃ slots, execHorizonAging s = _
  rw [execHorizonAging]
  dsimp only
  rw [if_neg h]
  exact ⟨_, rfl⟩

-- The end of a lease.

/-- A store of a thread at the expiry of its lease. -/
def Ver.expired (v : Ver) (src keel : Nat) : Bool := v.src = src && v.due ≠ 0 && v.due ≤ keel

theorem exec_leaseExpiryPublish (s : State) : exec .leaseExpiryPublish s = .next { s with
    vers := publishWhere (fun v => v.expired s.arg.a s.keel) .part (fun v => ⟨v.due, v.src⟩) s.vers } := rfl

/-- Settles O12: merging, aging and publishing at the end of a lease. -/
theorem publishBuffer : Obligations.PublishBuffer := by
  refine ⟨?_, ?_, ?_, ?_⟩
  · intro s v hfind hsettles
    exact ⟨_, exec_publishEntryMerge_of_settles hfind hsettles, rfl, fun _ => State.seq_ne_of_mem_settleVer,
      fun _ ha => mread_writeCells_other s.mem ha, fun hnodup _ hc => mread_writeCells_mem s.mem hnodup hc⟩
  · intro s v hfind hmerges hnot
    exact ⟨_, exec_publishEntryMerge_of_merges hfind hmerges hnot, rfl⟩
  · intro s hused
    obtain ⟨slots, hexec⟩ := exec_horizonAging_of_used hused
    have hctx (n : Nat) := s.ctx_modCtx s.arg.a n fun c => c.age s.keel s.arg.a
    refine ⟨_, hexec, rfl, fun n hn => (hctx n).trans (if_neg (Ne.symm hn)), ?_⟩
    exact (hctx s.arg.a).trans ((if_pos rfl).trans (Ctx.age_eq ..))
  · intro s
    refine ⟨_, exec_leaseExpiryPublish s, rfl, map_publishWhere (fun _ _ _ => rfl) .., fun v hv hsrc hdue hkeel => ?_⟩
    obtain ⟨p, hp, hwide⟩ := exists_pub_of_mem_publishWhere hv (by simp [Ver.expired, hsrc, hdue, hkeel])
    exact ⟨p, hp, fun hcell => by rw [hcell] at hwide; cases hwide⟩

end Sys2Proof.Machine
end

section
/-! The wave array's writes of tiles (R189, R199). A string or an arrival of the statements may name any address, also one behind the
scratchpad, which no rigging gives (R186). A tile written there lands in the next cell, whose byte the frame of `SpadWritten` keeps. -/

namespace Sys2Proof.Machine

theorem not_spadWritten_of_other_cell {s t : State} {p : Path} {cell a c b : Nat} {bs : List Byte} (hb : b < 2 ^ 21) (hc : c ≠ cell)
    (hchanged : t.spadNow c b 1 ≠ s.spadNow c b 1) : ¬ SpadWritten s t p cell a bs :=
  fun ⟨_, hothers⟩ => hchanged (hothers c b hb (.inl hc))

/-- The header of a string of one position with one inbox slot and one retain slot, whose tiles are one byte. -/
def byteTiles : RigHdr :=
  { n := 1, ni := 1, nr := 1, nm := 0, tr := 1, rb := 1, rp := 1, rot := 0, v0 := 0, tpitch := 0, adm := 0, ltrip := 0, mbmax := 0 }

def soloString (p : Pos) : Str := { part := 0, id := 0, hdr := byteTiles, pos := [p], u := 0, team := none, rigger := 0 }

/-- The position of the first thread of a cell. -/
def firstPos (cell inbox : Nat) : Pos := { cell := cell, slot := 0, inbox := inbox, retain := 0, meetb := 0 }

/-- A tile of one byte 1, which retain slot 0 of position 0 keeps. -/
def byteFlight : Flight := ⟨⟨{}, [1], []⟩, 0, 0⟩

/-- The tile is in the link of a position of cell 0 whose inbox is named where cell 1 begins. -/
def posWithTileInLink : Pos := { firstPos 0 (2 ^ 21) with linkDown := [byteFlight] }

def landsBehindCell : State := { strs := [soloString posWithTileInLink] }

theorem spadNow_after_landing {t : State} (h : exec .tileIntoInbox landsBehindCell = .next t) : t.spadNow 1 0 1 = [1] := by
  rw [← Host.Outcome.next.inj h]; decide +kernel

/-- Refutes O38: the inbox of a position is named behind the scratchpad of its cell, and a tile that enters it changes the first byte of
the next cell. `RIG` refuses such a position (R186), but the statement is of every string. -/
theorem not_tileTransfers : ¬ Obligations.TileTransfers := by
  unfold Obligations.TileTransfers
  rintro ⟨-, -, -, hinbox, -⟩
  obtain ⟨t, _, _, ht, -, -, -, -, -, -, -, -, -, hwritten⟩ := hinbox landsBehindCell (soloString posWithTileInLink) posWithTileInLink
    byteFlight [] 0 rfl rfl rfl rfl (by decide +kernel) (by decide +kernel) (by decide +kernel)
  refine not_spadWritten_of_other_cell (c := 1) (b := 0) (by decide) (by decide) ?_ hwritten
  rw [spadNow_after_landing ht]
  decide +kernel

/-- An inbox entry holds the tile, and its handler has it. -/
def deliveredByte : Inbox := ⟨0, byteFlight, 0, true⟩

def posWithTileDelivered : Pos := { firstPos 0 (2 ^ 21) with box := [deliveredByte] }

/-- An arrival at position 0 with inbox slot 0. -/
def arrivalAt (addr : Nat) : Arrival := { str := 0, pos := 0, slot := 0, addr := addr, tag := {} }

/-- The handler's arrival is at an address where cell 1 begins, its retain slot holds the byte 1, and scalar 1 is the word for WREPAIR. -/
def repairsBehindCell : State :=
  { ctxs := [(0, { status := .run, cur := some (arrivalAt (2 ^ 21)) })], strs := [soloString posWithTileDelivered], spad := [(0, 1)]
    iss := { capt := some [(1, 1)] } }

theorem spadNow_after_repair {t : State} (h : exec (.wrsys 0x013 1) repairsBehindCell = .next t) : t.spadNow 1 0 1 = [1] := by
  rw [← Host.Outcome.next.inj h]; decide +kernel

/-- Refutes O40: the current arrival names an address behind the scratchpad of its cell, and its repair changes the first byte of the
next cell. No delivery gives such an address where `RIG` has checked the string (R186), but the statement is of every arrival. -/
theorem not_rigAndQueries : ¬ Obligations.RigAndQueries := by
  unfold Obligations.RigAndQueries
  rintro ⟨-, -, -, -, -, -, -, hrepair⟩
  obtain ⟨t, ht, -, hwritten⟩ := hrepair repairsBehindCell 1 (soloString posWithTileDelivered) 0 posWithTileDelivered posWithTileDelivered
    (arrivalAt (2 ^ 21)) deliveredByte rfl (by decide +kernel) rfl (.inl rfl) rfl rfl (by decide +kernel) (by decide +kernel)
    (by decide +kernel)
  refine not_spadWritten_of_other_cell (c := 1) (b := 0) (by decide) (by decide) ?_ hwritten
  rw [spadNow_after_repair ht]
  decide +kernel

end Sys2Proof.Machine
end

section
/-! `ARRV` (R190, R191, R208): what a delivery leaves, and what the end of a handler leaves; the events of the array try again. The
statement of O39 holds just where the free value of log 20 is 0 on the scratchpad's granules (`arrivals_iff`), as that of O35 does: the
commit of an accumulator is a write through the K path. The model leaves that value open. -/

namespace Sys2Proof.Machine

-- Strings and positions.

theorem State.name_of_str {s : State} {part id : Nat} {r : Str} (h : s.str part id = some r) : r.part = part ∧ r.id = id := by
  simpa using List.find?_some h

theorem State.str_modStr {s : State} {part id : Nat} {r : Str} {f : Str → Str} (h : s.str part id = some r)
    (hpart : (f r).part = r.part) (hid : (f r).id = r.id) : (s.modStr part id f).str part id = some (f r) := by
  obtain ⟨rfl, rfl⟩ := State.name_of_str h
  exact find?_modFirst h (by simp [hpart, hid])

theorem Str.pos?_modPos (r : Str) (i j : Nat) (f : Pos → Pos) :
    (r.modPos i f).pos? j = (r.pos? j).map fun p => if j = i then f p else p := by
  rw [Str.pos?, Str.pos?, Str.modPos]
  simp only [List.getElem?_map, List.getElem?_zipIdx, Option.map_map, Nat.zero_add]
  rfl

-- Delivery (R208).

theorem exec_arrv (d : Reg) (s : State) : exec (.arrv d) s = .next (s.arrv d) := rfl

/-- The address of an inbox slot. -/
def Str.slotAddr (r : Str) (p : Pos) (b : Inbox) : Nat := p.inbox + b.slot * r.hdr.size

/-- The snapshot that `ARRV` keeps: the thread goes on behind the `ARRV`. -/
def Ctx.snapAhead (c : Ctx) : Snap :=
  let n := c.advance.1
  { regs := c.regs, preds := n.preds, rrb := n.rrb, loops := n.loops, pc := n.pc }

section
variable (s : State) (d : Reg) (r : Str) (i : Nat) (p : Pos) (b : Inbox)

/-- The arrival is the handler's current one, and RVM is its mask. -/
def State.withArrival : State :=
  ((s.showSlot p.cell (r.slotAddr p b) r.hdr.size).modStr r.part r.id fun r => r.modPos i fun p => { p with
    box := p.box.map fun x => if x.slot = b.slot then { x with current := true } else x }).modMe fun c => { c with
      cur := some ⟨r.id, i, b.slot, r.slotAddr p b, b.fl.tile.tag, false, none⟩, rvm := b.fl.tile.tag.mask }

/-- The handler has its descriptor too: only the snapshot and the boundary are to come. -/
def State.received : State := (s.withArrival r i p b).setScalar d (w64 (descOf r.id b.slot (r.slotAddr p b) b.fl.tile.tag))

theorem State.deliverTo_eq : s.deliverTo d r i p b =
    ((s.received d r i p b).modMe fun c => { c with
      snap := some { (s.received d r i p b).me.snapAhead with regs := c.regs } }).boundary .cell := rfl

theorem State.received_rest : s.received d r i p b =
    { s with late := (s.received d r i p b).late, strs := (s.received d r i p b).strs, ctxs := (s.received d r i p b).ctxs } := by
  rw [State.received, State.setScalar_eq]
  rfl

theorem State.iss_received : (s.received d r i p b).iss = s.iss := by rw [State.received_rest]

theorem othersKept_received : OthersKept s (s.received d r i p b) s.iss.src :=
  OthersKept.trans (t := s.withArrival r i p b) (fun n hn => othersKept_modMe _ _ n hn) fun n hn => othersKept_setScalar _ _ _ n hn

theorem State.me_received : (s.received d r i p b).me = { s.me with
    regs := (s.received d r i p b).me.regs
    cur := some ⟨r.id, i, b.slot, r.slotAddr p b, b.fl.tile.tag, false, none⟩, rvm := b.fl.tile.tag.mask } := by
  rw [State.received, State.me_setScalar, State.withArrival, State.me_modMe]
  rfl

theorem State.reg_received (hd : d ≠ 0) : (s.received d r i p b).me.reg (physReg s.iss.rrb d) =
    w64 (descOf r.id b.slot (r.slotAddr p b) b.fl.tile.tag) := by
  obtain ⟨-, -, -, hreg, -⟩ := setScalar_spec (s.withArrival r i p b) d (w64 (descOf r.id b.slot (r.slotAddr p b) b.fl.tile.tag))
  exact hreg hd

theorem State.me_deliverTo : (s.deliverTo d r i p b).me = { (s.received d r i p b).me with
    snap := some (s.received d r i p b).me.snapAhead, hzn := ⟨s.keel, s.iss.src⟩, phase := s.me.phase + 1, lastB := s.keel + 1 } := by
  have hkeel : (s.received d r i p b).keel = s.keel := by rw [State.received_rest]
  have hphase : (s.received d r i p b).me.phase = s.me.phase := by rw [State.me_received]
  rw [State.deliverTo_eq, State.me_boundary, State.me_modMe, State.modMe_keel, State.modMe_iss, State.iss_received, hkeel, hphase]
  rfl

theorem State.deliverTo_rest : s.deliverTo d r i p b = { s with
    late := (s.received d r i p b).late, strs := (s.received d r i p b).strs, ctxs := (s.deliverTo d r i p b).ctxs
    vers := (s.publish s.iss.src .cell).vers } := by
  have hrest := State.received_rest s d r i p b
  rw [State.deliverTo_eq]
  generalize s.received d r i p b = w at hrest
  rw [hrest]
  rfl

theorem othersKept_deliverTo : OthersKept s (s.deliverTo d r i p b) s.iss.src := by
  have hiss := State.iss_received s d r i p b
  have hsnap := othersKept_modMe (s.received d r i p b) fun c => { c with
    snap := some { (s.received d r i p b).me.snapAhead with regs := c.regs } }
  have hbound := othersKept_boundary ((s.received d r i p b).modMe fun c => { c with
    snap := some { (s.received d r i p b).me.snapAhead with regs := c.regs } }) .cell
  rw [State.modMe_iss, hiss] at hbound
  rw [hiss] at hsnap
  exact (othersKept_received s d r i p b).trans (hsnap.trans hbound)

end

theorem descOf_eq (str slot addr : Nat) (t : Tag) : descOf str slot addr t = 2 ^ 56 * str + 2 ^ 32 * addr + 2 ^ 28 * slot +
    (if t.up then 2 ^ 27 else 0) + 2 ^ 24 * t.kind.toNat + 2 ^ 16 * t.ver.toNat + t.mb.toNat := by
  cases hup : t.up <;> simp [descOf, b2n, hup]

theorem State.arrv_of_arrival {s : State} {r : Str} {i : Nat} {p : Pos} {b : Inbox} (hover : s.me.waitOver 6 = false)
    (hhandler : s.handlerOf s.iss.src = some (r, i)) (hcur : s.me.cur = none) (hpos : r.pos? i = some p)
    (hfind : p.box.find? (fun b => !b.current) = some b) (hfrozen : r.frozen = []) (hat : b.at_ < s.keel)
    (hmay : s.mayBound .cell = true) (d : Reg) : s.arrv d = s.deliverTo d r i p b := by
  have hready : (!r.frozen.isEmpty || decide (s.keel ≤ b.at_)) = false := by simp [hfrozen, hat]
  rw [State.arrv]
  simp only [hover, hhandler, hcur, hpos, Option.getD_some, hfind, hready, hmay]
  rfl

-- The end of a handler (R191) of a wavefront of kind 0 to 2: the device does not forward it.

section
variable {r : Str} {v : Arrival} (hkind : v.tag.kind.toNat < 3)
include hkind

theorem kind_ne_of_lt_three : v.tag.kind ≠ 3 ∧ v.tag.kind ≠ 4 :=
  ⟨fun h => absurd hkind (by rw [h]; decide), fun h => absurd hkind (by rw [h]; decide)⟩

theorem Str.forwards_of_lt_three (i : Nat) : r.forwards i v = false := by
  obtain ⟨h3, h4⟩ := kind_ne_of_lt_three hkind
  rw [Str.forwards, decide_eq_false h3, decide_eq_false h4]
  rfl

theorem State.endRegions_of_lt_three (s : State) (i : Nat) :
    s.endRegions r i v = if s.me.commitOn then regionsOf s.me.commitAddr 9216 else [] := by
  simp [State.endRegions, Str.forwards_of_lt_three hkind]

end

section
variable {s : State} {r : Str} {i : Nat} {v : Arrival} (hover : s.me.waitOver 6 = false)
  (hhandler : s.handlerOf s.iss.src = some (r, i)) (hcur : s.me.cur = some v) (hend : s.handlerMayEnd r i v = true)
include hover hhandler hcur hend

theorem State.arrv_of_current (hrange : s.me.commitOn = true → s.me.commitAddr + 9216 ≤ 0x180000)
    (hsound : s.me.commitOn = true → s.accPoisoned s.me.commitAcc = false)
    (hfree : s.regionsFree s.myCell (s.teamKey s.iss.src) (s.endRegions r i v)) (d : Reg) :
    ∃ cs, s.arrv d = (({ s with cells := cs } : State).handlerEnds r i v).stall := by
  obtain ⟨cs, hcs⟩ := s.own_eq s.myCell (s.teamKey s.iss.src) (s.endRegions r i v)
  have hok : (s.me.commitOn && !(spadOk s.me.commitAddr 9216)) = false :=
    Bool.and_eq_false_imp.2 fun hon => by simpa [spadOk, Config.spadBytes] using hrange hon
  have hclean : (s.me.commitOn && s.accPoisoned s.me.commitAcc) = false := Bool.and_eq_false_imp.2 hsound
  refine ⟨cs, ?_⟩
  rw [State.arrv]
  simp only [hover, hhandler, hcur, hend, hok, hclean, State.withRegions_of_free hfree, hcs]
  rfl

variable (hkind : v.tag.kind.toNat < 3)
include hkind

theorem State.arrv_of_current_without_commit (hoff : s.me.commitOn = false) (d : Reg) :
    ∃ cs, s.arrv d = (({ s with cells := cs } : State).handlerEnds r i v).stall :=
  State.arrv_of_current hover hhandler hcur hend (by simp [hoff]) (by simp [hoff])
    (by simp [State.regionsFree, State.endRegions_of_lt_three hkind, hoff]) d

theorem State.arrv_of_current_with_commit (hon : s.me.commitOn = true) (husable : s.spadUsable s.me.commitAddr 9216)
    (hsound : s.accPoisoned s.me.commitAcc = false) (d : Reg) :
    ∃ cs, s.arrv d = (({ s with cells := cs } : State).handlerEnds r i v).stall := by
  obtain ⟨hrange, hfree⟩ := husable
  refine State.arrv_of_current hover hhandler hcur hend (fun _ => hrange) (fun _ => hsound) ?_ d
  rwa [State.endRegions_of_lt_three hkind, if_pos hon]

end

/-- The handler's accumulator is in its scratchpad, where WCOMMIT says so (R196). -/
def State.committed (s : State) : State :=
  if s.me.commitOn then
    (s.spadWrite s.pathK s.myCell s.me.commitAddr (s.me.acc s.me.commitAcc).bytes).modMe fun c => { c with wcommit := c.wcommit &&& ~~~4 }
  else s

/-- The inbox slot and the meet entry of an arrival at `p` are given back. -/
def State.slotsGivenBack (s : State) (h : RigHdr) (p : Pos) (v : Arrival) : State :=
  v.meet.elim (s.giveBack p.cell v.addr h.size) fun m => (s.giveBack p.cell v.addr h.size).giveBack p.cell (p.meetb + m * h.size) h.size

theorem State.slotsGivenBack_rest (s : State) (h : RigHdr) (p : Pos) (v : Arrival) :
    s.slotsGivenBack h p v = { s with late := (s.slotsGivenBack h p v).late } := by
  unfold State.slotsGivenBack
  cases v.meet <;> rfl

/-- A string after the end of the handler at position `i`, whose arrival stood in the link with `fl`: the inbox slot, the meet entry and
the retain slot are free, and what has not been passed retires. -/
def Str.handlerEnded (r : Str) (i : Nat) (v : Arrival) (fl : Option Flight) : Str :=
  let r := r.modPos i fun p => { p with
    box := p.box.filter fun b => b.slot ≠ v.slot
    meets := p.meets.filter fun e => some e.idx ≠ v.meet }
  let r := match fl with
    | some f => r.modPos f.frm fun p => { p with kept := p.kept.filter fun k => k.1 ≠ f.keep }
    | none => r
  if v.passed then r else r.retire v.tag

theorem State.handlerEnds_of_lt_three {v : Arrival} (hkind : v.tag.kind.toNat < 3) (s : State) (r : Str) (i : Nat) {p : Pos}
    (hp : p = (r.pos? i).getD { cell := 0, slot := 0, inbox := 0, retain := 0, meetb := 0 }) :
    s.handlerEnds r i v = ((s.committed.slotsGivenBack r.hdr p v).modStr r.part r.id fun x =>
      x.handlerEnded i v ((p.box.find? fun b => b.slot = v.slot).map (·.fl))).modMe
        fun c => { c with cur := none, copies := c.copies.map fun x => (x.1, x.2.1, false) } := by
  obtain ⟨h3, h4⟩ := kind_ne_of_lt_three hkind
  rw [State.handlerEnds]
  dsimp only
  rw [← hp]
  simp only [Str.forwards_of_lt_three hkind, if_neg h3, if_neg h4]
  rfl

section
variable (r : Str) (t : Tag)

@[simp] theorem Str.part_retire : (r.retire t).part = r.part := by unfold Str.retire; split_ifs <;> rfl
@[simp] theorem Str.id_retire : (r.retire t).id = r.id := by unfold Str.retire; split_ifs <;> rfl
@[simp] theorem Str.pos_retire : (r.retire t).pos = r.pos := by unfold Str.retire; split_ifs <;> rfl

end

theorem Str.handlerEnded_name (r : Str) (i : Nat) (v : Arrival) (fl : Option Flight) :
    (r.handlerEnded i v fl).part = r.part ∧ (r.handlerEnded i v fl).id = r.id := by
  unfold Str.handlerEnded
  cases v.passed <;> cases fl <;> simp [Str.modPos]

theorem Str.box_handlerEnded {r : Str} {i : Nat} {p : Pos} (hpos : r.pos? i = some p) (v : Arrival) (fl : Option Flight) :
    ∃ q, (r.handlerEnded i v fl).pos? i = some q ∧ q.box = p.box.filter (fun b => b.slot ≠ v.slot) := by
  have hretire (y : Str) : (if v.passed then y else y.retire v.tag).pos? i = y.pos? i := by
    split
    · rfl
    · rw [Str.pos?, Str.pos_retire, Str.pos?]
  obtain ⟨q, hq, hbox⟩ : ∃ q, (r.modPos i fun p => { p with
      box := p.box.filter fun b => b.slot ≠ v.slot, meets := p.meets.filter fun e => some e.idx ≠ v.meet }).pos? i = some q ∧
      q.box = p.box.filter (fun b => b.slot ≠ v.slot) := ⟨_, by rw [Str.pos?_modPos, hpos]; exact congrArg some (if_pos rfl), rfl⟩
  unfold Str.handlerEnded
  rw [hretire]
  cases fl with
  | none => exact ⟨q, hq, hbox⟩
  | some f =>
    rw [Str.pos?_modPos, hq]
    refine ⟨_, rfl, ?_⟩
    split <;> exact hbox

-- What the end of a handler leaves.

theorem State.committed_of_off {s : State} (hoff : s.me.commitOn = false) : s.committed = s :=
  if_neg (by rw [hoff]; exact Bool.false_ne_true)

theorem State.me_handlerEnds {v : Arrival} (hkind : v.tag.kind.toNat < 3) (s : State) (r : Str) (i : Nat) :
    (s.handlerEnds r i v).me = { s.committed.me with
      cur := none, copies := s.committed.me.copies.map fun x => (x.1, x.2.1, false) } := by
  rw [State.handlerEnds_of_lt_three hkind s r i rfl, State.me_modMe, State.slotsGivenBack_rest]
  rfl

theorem State.spad_handlerEnds {v : Arrival} (hkind : v.tag.kind.toNat < 3) (s : State) (r : Str) (i : Nat) :
    (s.handlerEnds r i v).spad = s.committed.spad := by
  rw [State.handlerEnds_of_lt_three hkind s r i rfl, State.slotsGivenBack_rest]
  rfl

theorem State.handlerEnds_without_commit {s : State} (hoff : s.me.commitOn = false) {v : Arrival} (hkind : v.tag.kind.toNat < 3) (r : Str)
    (i : Nat) : s.handlerEnds r i v = { s with
      ctxs := (s.handlerEnds r i v).ctxs, late := (s.handlerEnds r i v).late, strs := (s.handlerEnds r i v).strs } := by
  rw [State.handlerEnds_of_lt_three hkind s r i rfl, State.committed_of_off hoff, State.slotsGivenBack_rest]
  rfl

theorem othersKept_handlerEnds_without_commit {s : State} (hoff : s.me.commitOn = false) {v : Arrival} (hkind : v.tag.kind.toNat < 3)
    (r : Str) (i : Nat) : OthersKept s (s.handlerEnds r i v) s.iss.src := by
  rw [State.handlerEnds_of_lt_three hkind s r i rfl, State.committed_of_off hoff, State.slotsGivenBack_rest]
  exact fun n hn => othersKept_modMe _ _ n hn

/-- The string after the end of a handler: the inbox slot of its arrival is free. -/
theorem State.box_handlerEnds {s : State} (hoff : s.me.commitOn = false) {v : Arrival} (hkind : v.tag.kind.toNat < 3) {r : Str} {i : Nat}
    {p : Pos} (hstr : s.str r.part r.id = some r) (hpos : r.pos? i = some p) : ∃ r' q,
      (s.handlerEnds r i v).str r.part r.id = some r' ∧ r'.pos? i = some q ∧ q.box = p.box.filter (fun b => b.slot ≠ v.slot) := by
  have hp : p = (r.pos? i).getD { cell := 0, slot := 0, inbox := 0, retain := 0, meetb := 0 } := by rw [hpos, Option.getD_some]
  obtain ⟨q, hq, hbox⟩ := Str.box_handlerEnded hpos v ((p.box.find? fun b => b.slot = v.slot).map (·.fl))
  obtain ⟨hpart, hid⟩ := r.handlerEnded_name i v ((p.box.find? fun b => b.slot = v.slot).map (·.fl))
  refine ⟨_, q, ?_, hq, hbox⟩
  rw [State.handlerEnds_of_lt_three hkind s r i hp, State.committed_of_off hoff, State.slotsGivenBack_rest]
  exact State.str_modStr (s := { s with late := (s.slotsGivenBack r.hdr p v).late }) hstr hpart hid

-- The commit of an accumulator (R196).

theorem Ctx.commitOn_cleared (c : Ctx) : { c with wcommit := c.wcommit &&& ~~~4 }.commitOn = false := by
  simp [Ctx.commitOn]

section
variable {s : State} {r : Str} {i : Nat} {v : Arrival} (hover : s.me.waitOver 6 = false)
  (hhandler : s.handlerOf s.iss.src = some (r, i)) (hcur : s.me.cur = some v) (hend : s.handlerMayEnd r i v = true)
  (hkind : v.tag.kind.toNat < 3) (hon : s.me.commitOn = true) (husable : s.spadUsable s.me.commitAddr 9216)
  (hsound : s.accPoisoned s.me.commitAcc = false)
include hover hhandler hcur hend hkind hon husable hsound

theorem arrv_commits (d : Reg) : ∃ t, exec (.arrv d) s = .next t ∧ t.me.cur = none ∧ t.me.commitOn = false ∧
    t.spad = (s.spadWrite s.pathK s.myCell s.me.commitAddr (s.me.acc s.me.commitAcc).bytes).spad := by
  obtain ⟨cs, harrv⟩ := State.arrv_of_current_with_commit hover hhandler hcur hend hkind hon husable hsound d
  obtain ⟨u, hu⟩ : ∃ u, u = ({ s with cells := cs } : State) := ⟨_, rfl⟩
  have hcommitted : u.committed = (u.spadWrite u.pathK u.myCell u.me.commitAddr (u.me.acc u.me.commitAcc).bytes).modMe
      fun c => { c with wcommit := c.wcommit &&& ~~~4 } := if_pos (by rw [hu]; exact hon)
  rw [← hu] at harrv
  refine ⟨_, (exec_arrv d s).trans (congrArg _ harrv), ?_, ?_, ?_⟩
  · rw [State.me_stall, State.me_handlerEnds hkind]
  · rw [State.me_stall, State.me_handlerEnds hkind, hcommitted, State.me_modMe]
    exact Ctx.commitOn_cleared u.me
  · rw [State.stall_spad, State.spad_handlerEnds hkind, hcommitted, hu]
    rfl

end

-- Where the free value is not 0 somewhere, a commit there can leave a byte that is not its own.

/-- Writes stand in granule `k` that something orders before entry 1 alone; WCOMMIT of the handler in that cell names accumulator 0 and
address `x`. -/
def commitsOverLanded (c k x : Nat) : State :=
  { choices := c, iss := { src := 4 * (k / 2 ^ 15), id := 1 }, late := [(k, ⟨[], landedBefore c k⟩)]
    strs := [soloString (firstPos (k / 2 ^ 15) 0)]
    ctxs := [(4 * (k / 2 ^ 15), { cur := some (arrivalAt 0), wcommit := BitVec.ofNat 27 (x + 4) })] }

section
variable (c k x : Nat)

theorem State.me_commitsOverLanded : (commitsOverLanded c k x).me = { cur := some (arrivalAt 0), wcommit := BitVec.ofNat 27 (x + 4) } :=
  if_pos rfl

theorem handlerOf_commitsOverLanded : (commitsOverLanded c k x).handlerOf (commitsOverLanded c k x).iss.src =
    some (soloString (firstPos (k / 2 ^ 15) 0), 0) := by
  simp [State.handlerOf, commitsOverLanded, soloString, firstPos, indexOf?, Nat.mul_comm]

variable {x} (hx : 8 ∣ x) (hrange : x < 0x180000)
include hx hrange

theorem Ctx.commitAddr_commitsOverLanded : (commitsOverLanded c k x).me.commitAddr = x := by
  rw [State.me_commitsOverLanded, Ctx.commitAddr, BitVec.toNat_ofNat]
  omega

theorem Ctx.commitOn_commitsOverLanded : (commitsOverLanded c k x).me.commitOn = true := by
  obtain ⟨y, rfl⟩ := hx
  have hbit : (8 * y + 4).testBit 2 = true := by rw [Nat.testBit_eq_decide_div_mod_eq]; exact decide_eq_true (by omega)
  rw [State.me_commitsOverLanded, Ctx.commitOn, BitVec.getLsbD_ofNat, hbit]
  rfl

end

theorem landsBefore_eq_zero_of_arrivals (h : Obligations.Arrivals) (c k : Nat) (hk : k % 2 ^ 15 < 24576) : Config.landsBefore c k = 0 := by
  obtain ⟨-, -, hcommit, -⟩ := h
  by_contra hpos
  obtain ⟨x, hxdef⟩ : ∃ x, x = min (64 * (k % 2 ^ 15)) (0x180000 - 9216) := ⟨_, rfl⟩
  have hx : 8 ∣ x := by omega
  have hrange : x < 0x180000 := by omega
  have haddr := Ctx.commitAddr_commitsOverLanded c k hx hrange
  have hon := Ctx.commitOn_commitsOverLanded c k hx hrange
  have hcur : (commitsOverLanded c k x).me.cur = some (arrivalAt 0) := by rw [State.me_commitsOverLanded]
  have hover : (commitsOverLanded c k x).me.waitOver 6 = false := by rw [State.me_commitsOverLanded]; rfl
  have hend : (commitsOverLanded c k x).handlerMayEnd (soloString (firstPos (k / 2 ^ 15) 0)) 0 (arrivalAt 0) = true := by
    rw [State.handlerMayEnd, State.me_commitsOverLanded]; rfl
  have husable : (commitsOverLanded c k x).spadUsable (commitsOverLanded c k x).me.commitAddr 9216 :=
    ⟨by rw [haddr]; omega, fun _ _ => rfl⟩
  have hcell : (commitsOverLanded c k x).myCell = k / 2 ^ 15 := Nat.mul_div_cancel_left _ (by decide)
  obtain ⟨t, ht, -, -, hspad⟩ :=
    arrv_commits hover (handlerOf_commitsOverLanded ..) hcur hend (by decide) hon husable rfl 0
  obtain ⟨t', ht', -, -, hwritten⟩ := hcommit (commitsOverLanded c k x) 0 _ 0 (arrivalAt 0) hover (handlerOf_commitsOverLanded ..) hcur hend
    (by decide) hon husable rfl
  obtain rfl := Host.Outcome.next.inj (ht.symm.trans ht')
  refine not_spadWritten_over_landedBefore (s := commitsOverLanded c k x) (p := (commitsOverLanded c k x).pathK) (k := k) rfl ?_ ?_ rfl rfl
    hpos ?_ ?_ ?_ (hwritten.congr rfl rfl hspad.symm)
  · rw [State.pathK, State.me_commitsOverLanded]
  · show 4 * (k / 2 ^ 15) ≠ 65537
    omega
  · show spadKey (commitsOverLanded c k x).myCell _ ≤ 64 * k
    rw [hcell, haddr, spadKey]; omega
  · show 64 * k < spadKey (commitsOverLanded c k x).myCell _ + ((commitsOverLanded c k x).me.acc _).bytes.length
    rw [hcell, haddr, spadKey, length_accBytes]; omega
  · intro b hb
    have hacc : (commitsOverLanded c k x).me.acc (commitsOverLanded c k x).me.commitAcc = {} := by
      rw [State.me_commitsOverLanded, Ctx.acc, Vector.getElem_replicate]
    rw [hacc] at hb
    exact mem_bytes_of_default hb

-- The events of the array.

theorem State.retryArrv_of_goOn {s t : State} {d : Reg} (hrun : s.runnable s.arg.a = true) (hlate : (s.ctx s.arg.a).lateAt = 0)
    (hgo : s.goOn s.arg.a = some (.arrv d, t)) : s.retryArrv = (t.arrv d).finishC (.arrv d) (s.ctx s.arg.a).pc :=
  State.retry_of_goOn (k := fun t => t.arrv d) hrun hlate hgo rfl

theorem exec_tileSend_of_tensor {s : State} {e : Entry} {rest : List Entry} (hbuf : (s.ctx s.arg.a).bufT = e :: rest)
    (hruns : s.unitRuns s.arg.a = true)
    (hinstr : (∃ a up, e.instr = .pass a up) ∨ ∃ f, e.instr = .epi f ∧ f.dest = .pass) :
    ∃ u, exec e.instr (s.beginU s.arg.a .t e) = .next u ∧ exec .tileSend s = .next (u.finishU .t) := by
  change ∃ u, _ ∧ execTileSend s = _
  obtain ⟨a, up, he⟩ | ⟨f, he, hdest⟩ := hinstr
  · refine ⟨_, by rw [he]; rfl, ?_⟩
    simp only [execTileSend, hbuf, he, hruns]
    rfl
  · refine ⟨_, by rw [he]; rfl, ?_⟩
    simp only [execTileSend, hbuf, he, hruns, hdest]
    rfl

theorem exec_tileSend_of_admit {s t : State} {n : BitVec 8} {a b c : Reg} (hbuf : (s.ctx s.arg.a).bufT = [])
    (hrun : s.runnable s.arg.a = true) (hlate : (s.ctx s.arg.a).lateAt = 0) (hgo : s.goOn s.arg.a = some (.admitTile n a b c, t)) :
    exec .tileSend s = .next ((t.admitTile n a b c).finishC (.admitTile n a b c) (s.ctx s.arg.a).pc) := by
  change execTileSend s = _
  rw [execTileSend]
  dsimp only
  rw [hbuf]
  exact congrArg _ (State.retry_of_goOn (k := fun t => t.admitTile n a b c) hrun hlate hgo rfl)

/-- The statement of O39 is one about the free value of log 20: each of its other clauses holds, and that of a commit holds where no
write lands before one that is ordered before the entry alone. -/
theorem arrivals_iff : Obligations.Arrivals ↔ ∀ c k, k % 2 ^ 15 < 24576 → Config.landsBefore c k = 0 := by
  refine ⟨landsBefore_eq_zero_of_arrivals, fun hlast => ⟨?delivery, ?ended, ?committed, ?retry, ?tensor, ?core⟩⟩
  case delivery =>
    intro s d r i p b hover hhandler hcur hpos hfind hfrozen hat hmay
    have harrv := State.arrv_of_arrival hover hhandler hcur hpos hfind hfrozen hat hmay d
    have hme := State.me_deliverTo s d r i p b
    have hreceived := State.me_received s d r i p b
    have hrest := State.deliverTo_rest s d r i p b
    refine ⟨_, (s.received d r i p b).me.snapAhead, (exec_arrv d s).trans (congrArg _ harrv), othersKept_deliverTo s d r i p b,
      ?_, ?_, ?_, ?_, ?_, ?_, fun hd => ?_, ?_, ?_, ?_⟩
    · rw [hrest]
    · rw [hrest]
    · rw [hme, hreceived]; rfl
    · rw [hme, hreceived]
    · rw [hme]
    · rw [hme]; rfl
    · rw [← descOf_eq, hme]
      exact State.reg_received s d r i p b hd
    · rw [hme]
    · rw [hme]
    · rw [hrest]
  case ended =>
    intro s d r i p v hover hhandler hstr hpos hcur hend hkind hoff
    obtain ⟨cs, harrv⟩ := State.arrv_of_current_without_commit hover hhandler hcur hend hkind hoff d
    have hoff' : ({ s with cells := cs } : State).me.commitOn = false := hoff
    obtain ⟨r', q, hstr', hq, hbox⟩ := State.box_handlerEnds hoff' hkind (r := r) hstr hpos
    have hrest := State.handlerEnds_without_commit hoff' hkind r i
    refine ⟨_, r', q, (exec_arrv d s).trans (congrArg _ harrv), rfl, othersKept_handlerEnds_without_commit hoff' hkind r i, ?_, ?_, ?_,
      hstr', hq, hbox⟩
    · rw [State.me_stall, State.me_handlerEnds hkind, State.committed_of_off hoff']
      rfl
    · rw [State.stall_mem, hrest]
    · rw [State.stall_spad, hrest]
  case committed =>
    intro s d r i v hover hhandler hcur hend hkind hon husable hsound
    obtain ⟨t, ht, hnone, hoff, hspad⟩ := arrv_commits hover hhandler hcur hend hkind hon husable hsound d
    obtain ⟨hrange, -⟩ := husable
    have hlen := length_accBytes (s.me.acc s.me.commitAcc)
    have hwritten := spadWritten_of_last (s := s) (p := s.pathK) (cell := s.myCell) (a := s.me.commitAddr)
      (bs := (s.me.acc s.me.commitAcc).bytes) (by omega) fun k hk => hlast _ _ (mod_lt_of_mem_granulesOf hk (by rw [hlen]; exact hrange))
    exact ⟨t, ht, hnone, hoff, hwritten.congr rfl rfl hspad⟩
  case retry =>
    intro s t d hrun hlate hgo
    have hretry := State.retryArrv_of_goOn hrun hlate hgo
    exact ⟨_, exec_arrv d t, congrArg _ hretry, congrArg _ hretry⟩
  case tensor => exact fun s e rest hbuf hruns hinstr => exec_tileSend_of_tensor hbuf hruns hinstr
  case core => exact fun s t n a b c hbuf hrun hlate hgo => ⟨_, rfl, exec_tileSend_of_admit hbuf hrun hlate hgo⟩

end Sys2Proof.Machine
end

section
/-! A record that the pool or the end of a thread posts (R72, R218, R274, R388) reaches other contexts where the ring's count word is the
ceiling of a queue (`ringAtCeiling`): the contexts that O41 and O42 say are kept are not. -/

namespace Sys2Proof.Machine

/-- The first thread, of the same launch as the second, has a tether to page 0. -/
def nodeThreadWithTether : State :=
  ringAtCeiling { status := .run, node := some 4096, teths := (Vector.replicate 16 {}).set 0 { stat := .ok, pbase := 0x50000 } } {}

theorem ceiling_after_gdone {t : State} (h : exec .gdone nodeThreadWithTether = .next t) : (t.ctx 1).ceiling = 0 := by
  rw [← Host.Outcome.next.inj h]; decide +kernel

/-- Refutes O41: a `GDONE` with nothing owed ends its thread, which flushes the count of its tether's page; the record posted for it
writes the ceiling of queue 0, which lowers that of the other thread of the launch from 7 to 0. -/
theorem not_graphInstructions : ¬ Obligations.GraphInstructions := by
  unfold Obligations.GraphInstructions
  rintro ⟨-, -, hgdone, -⟩
  obtain ⟨t, ht, -, -, hothers, -⟩ := hgdone nodeThreadWithTether 4096 (by decide +kernel) (by decide +kernel) (by decide +kernel)
    (by decide +kernel) (by decide +kernel) (by decide +kernel) (by decide +kernel)
  have hceiling := ceiling_after_gdone ht
  rw [hothers 1 (by decide)] at hceiling
  exact absurd hceiling (by decide +kernel)

/-- Queue 0 has handed over a packet of no bytes, which breaks the table of R217; a thread of the queue runs. -/
def badPacketHanded : State := { ringAtCeiling {} {} with queues := [(0, { hand := some [] })] }

theorem ceiling_after_reject {t : State} (h : exec .launchAdmit badPacketHanded = .next t) : (t.ctx 1).ceiling = 0 := by
  rw [← Host.Outcome.next.inj h]; decide +kernel

/-- Refutes O42: the rejection of a launch posts its record of kind 4, whose count word writes the ceiling of queue 0 and so lowers
that of the thread of the queue that runs; the contexts do not stay as they are. -/
theorem not_poolEvents : ¬ Obligations.PoolEvents := by
  unfold Obligations.PoolEvents
  rintro ⟨-, hreject, -⟩
  obtain ⟨t, -, ht, hctxs, -⟩ := hreject badPacketHanded [] (by decide +kernel) (by decide +kernel)
  have hceiling := ceiling_after_reject ht
  rw [State.ctx, hctxs] at hceiling
  exact absurd hceiling (by decide +kernel)

end Sys2Proof.Machine
end

section
/-! The canonical form of memory, the scratchpads and the banks (R231, R235, R236; O58): the three as one value, what each function of
the model does to it, and the step. -/

namespace Sys2Proof.Machine

/-- Memory, the scratchpads and the banks. -/
abbrev Memories := List Host.Cell × List Host.Cell × List Host.Cell
def State.memories (s : State) : Memories := (s.mem, s.spad, s.banks)
/-- All three in canonical form. -/
def Memories.wf (m : Memories) : Prop := Memory.wf m.1 = true ∧ Memory.wf m.2.1 = true ∧ Memory.wf m.2.2 = true

/-- `simp` does not enter the state whose memories are asked for: the rules below take it apart from the outside. -/
@[congr] theorem State.memories_congr (s : State) : s.memories = s.memories := by rfl

/-- The one property that is carried through the model: `n` is in canonical form where `m` is. -/
structure Keeps (m n : Memories) : Prop where
  wf : m.wf → n.wf

@[simp] theorem Keeps.refl (m : Memories) : Keeps m m := ⟨id⟩
theorem Keeps.imp {m n k : Memories} (h : Keeps m n) (f : n.wf → k.wf) : Keeps m k := ⟨f ∘ h.wf⟩
theorem Keeps.trans {m n k : Memories} (h : Keeps m n) (h' : Keeps n k) : Keeps m k := h.imp h'.wf

-- How the memories of a state are found: a record with its fields, a choice, a fold.

@[simp] theorem memories_mk
    (keel iss arg agenda choices lags outbox seq nparts qowner ctxs cells spad banks late lateB mem pt psnSpad psnBank
    psnMem psnGrid psnAcc vers atoms teams strs launches queues chans relays held windows ports parts lports changes
    skew cols dbgs slots holdlim fw) :
    (State.mk keel iss arg agenda choices lags outbox seq nparts qowner ctxs cells spad banks late lateB mem pt psnSpad
      psnBank psnMem psnGrid psnAcc vers atoms teams strs launches queues chans relays held windows ports parts
      lports changes skew cols dbgs slots holdlim fw).memories =
      (mem, spad, banks) := by rfl
@[simp] theorem memories_eta (s : State) : (s.mem, s.spad, s.banks) = s.memories := by rfl
@[simp] theorem memories_ite (p : Prop) [Decidable p] (s t : State) :
    (if p then s else t).memories = if p then s.memories else t.memories := apply_ite ..
@[simp] theorem keeps_ite (p : Prop) [Decidable p] (m n k : Memories) :
    Keeps m (if p then n else k) ↔ (p → Keeps m n) ∧ (¬ p → Keeps m k) := by split <;> simp [*]
@[simp] theorem memories_foldl {α : Type} (f : State → α → State) (l : List α) (s : State)
    (h : ∀ t a, (f t a).memories = t.memories) :
    (l.foldl f s).memories = s.memories := by
  induction l generalizing s with
  | nil => rfl
  | cons a l ih => rw [List.foldl_cons, ih, h]
@[simp] theorem keeps_foldl {α : Type} {m : Memories} (f : State → α → State) (l : List α) (s : State) (hs : Keeps m s.memories)
    (h : ∀ t a, Keeps t.memories (f t a).memories) :
    Keeps m (l.foldl f s).memories := by
  induction l generalizing s with
  | nil => exact hs
  | cons a l ih => exact ih _ (hs.trans (h s a))
@[simp] theorem keeps_foldr {α : Type} {m : Memories} (f : α → State → State) (l : List α) (s : State) (hs : Keeps m s.memories)
    (h : ∀ t a, Keeps t.memories (f a t).memories) :
    Keeps m (l.foldr f s).memories := by
  induction l with
  | nil => exact hs
  | cons a l ih => exact ih.trans (h _ a)

/-- What an instruction or an event leaves is in canonical form where `m` is. -/
def Out.Keeps (m : Memories) : Out → Prop
  | .next t => Machine.Keeps m t.memories
  | .fault _ | .refused _ => True
@[simp] theorem Out.keeps_next (m : Memories) (t : State) : Out.Keeps m (.next t) ↔ Machine.Keeps m t.memories := .rfl
@[simp] theorem Out.keeps_fault (m : Memories) (f : Fault) : Out.Keeps m (.fault f) := trivial
@[simp] theorem Out.keeps_refused (m : Memories) (f : Refusal) : Out.Keeps m (.refused f) := trivial
theorem Out.Keeps.next {m : Memories} {o : Out} {t : State} (h : Out.Keeps m o) (ho : o = .next t) :
    Machine.Keeps m t.memories := by
  subst ho
  exact h
@[simp] theorem Out.keeps_ite (p : Prop) [Decidable p] (m : Memories) (n k : Out) :
    Out.Keeps m (if p then n else k) ↔ (p → Out.Keeps m n) ∧ (¬ p → Out.Keeps m k) := by split <;> simp [*]

section
variable {m : Memories} (s : State)

/-! One rule per function of the model. A function that writes none of the three says so (`_memories`); one that may write, or
    that goes
on with a continuation, keeps them (`_keeps`). The proofs say `by rfl`, so that `simp` rewrites with the rule and does not
    unfold. -/

-- What the instructions share.

@[simp] theorem State.setCtx_memories (n c) : (s.setCtx n c).memories = s.memories := by rfl
@[simp] theorem State.modCtx_memories (n f) : (s.modCtx n f).memories = s.memories := by rfl
@[simp] theorem State.modMe_memories (f) : (s.modMe f).memories = s.memories := by rfl
@[simp] theorem State.modCell_memories (n f) : (s.modCell n f).memories = s.memories := by rfl
@[simp] theorem State.modChan_memories (n f) : (s.modChan n f).memories = s.memories := by rfl
@[simp] theorem State.modRelay_memories (n f) : (s.modRelay n f).memories = s.memories := by rfl
@[simp] theorem State.modQueue_memories (n f) : (s.modQueue n f).memories = s.memories := by rfl
@[simp] theorem State.modPort_memories (n f) : (s.modPort n f).memories = s.memories := by rfl
@[simp] theorem State.modPart_memories (n f) : (s.modPart n f).memories = s.memories := by rfl
@[simp] theorem State.modDbg_memories (n f) : (s.modDbg n f).memories = s.memories := by rfl
@[simp] theorem State.modLport_memories (n f) : (s.modLport n f).memories = s.memories := by rfl
@[simp] theorem State.modCol_memories (n f) : (s.modCol n f).memories = s.memories := by rfl
@[simp] theorem State.post_memories (i a) : (s.post i a).memories = s.memories := by rfl
@[simp] theorem State.postNow_memories (l) : (s.postNow l).memories = s.memories := by rfl
@[simp] theorem State.emit_memories (a) : (s.emit a).memories = s.memories := by rfl
@[simp] theorem State.setScalar_memories (d v) : (s.setScalar d v).memories = s.memories := by simp [State.setScalar]
@[simp] theorem State.setPred_memories (p v) : (s.setPred p v).memories = s.memories := by rfl
@[simp] theorem State.stall_memories : s.stall.memories = s.memories := by rfl
@[simp] theorem State.hold_memories : s.hold.memories = s.memories := by rfl
@[simp] theorem State.again_memories : s.again.memories = s.memories := by rfl
@[simp] theorem State.moved_memories : s.moved.memories = s.memories := by rfl
@[simp] theorem State.goto_memories (pc) : (s.goto pc).memories = s.memories := by rfl
@[simp] theorem State.devWrite_memories (src part sc pa bs by_ work) :
    (s.devWrite src part sc pa bs by_ work).memories = s.memories := by
  rfl
@[simp] theorem State.traceBytes_memories (src bs field) : (s.traceBytes src bs field).memories = s.memories := by rfl
@[simp] theorem State.traceRec_memories (src pc bs long) : (s.traceRec src pc bs long).memories = s.memories := by
  simp [State.traceRec]
@[simp] theorem State.traceStop_memories (src cause pc) : (s.traceStop src cause pc).memories = s.memories := by
  simp [State.traceStop]
@[simp] theorem State.windsock_memories (part waiter kind setter outcome waited id) :
    (s.windsock part waiter kind setter outcome waited id).memories = s.memories := by
  simp [State.windsock]
@[simp] theorem State.recordWait_memories (src w setter outcome) :
    (s.recordWait src w setter outcome).memories = s.memories := by
  simp [State.recordWait]
@[simp] theorem State.endWaitOf_memories (src setter outcome) : (s.endWaitOf src setter outcome).memories = s.memories := by
  unfold State.endWaitOf
  split <;> simp
@[simp] theorem State.endWait_memories (setter outcome) : (s.endWait setter outcome).memories = s.memories := by
  simp [State.endWait]
@[simp] theorem State.endWaitDone_memories : s.endWaitDone.memories = s.memories := by simp [State.endWaitDone]
@[simp] theorem State.endUnitWait_memories (src id) : (s.endUnitWait src id).memories = s.memories := by
  unfold State.endUnitWait
  split <;> simp
@[simp] theorem State.stopWaits_memories (src) : (s.stopWaits src).memories = s.memories := by
  simp only [State.stopWaits]
  repeat' split
  all_goals simp
@[simp] theorem State.waitOn_memories (kind obj deadline) : (s.waitOn kind obj deadline).memories = s.memories := by rfl
@[simp] theorem State.freezeStr_memories (src) : (s.freezeStr src).memories = s.memories := by simp [State.freezeStr]
@[simp] theorem State.thawStr_memories (src) : (s.thawStr src).memories = s.memories := by rfl
@[simp] theorem State.failNode_memories (nid) : (s.failNode nid).memories = s.memories := by rfl
@[simp] theorem State.fatalAt_memories (src u pc c info) : (s.fatalAt src u pc c info).memories = s.memories := by
  simp only [State.fatalAt]
  repeat' split
  all_goals simp
@[simp] theorem State.fatal_memories (c info) : (s.fatal c info).memories = s.memories := by simp [State.fatal]
@[simp] theorem State.trapAt_memories (src u fpc c info) : (s.trapAt src u fpc c info).memories = s.memories := by
  simp [State.trapAt]
@[simp] theorem State.trap_memories (c info) : (s.trap c info).memories = s.memories := by simp [State.trap]
@[simp] theorem State.cleanAccs_memories (src) : (s.cleanAccs src).memories = s.memories := by rfl
@[simp] theorem State.unwindAt_memories (src u pc prod c) : (s.unwindAt src u pc prod c).memories = s.memories := by
  simp only [State.unwindAt]
  repeat' split
  all_goals simp
@[simp] theorem State.damageAt_memories (src u pc prod c info) : (s.damageAt src u pc prod c info).memories = s.memories := by
  simp [State.damageAt]
@[simp] theorem State.damage_memories (c info prod) : (s.damage c info prod).memories = s.memories := by simp [State.damage]
@[simp] theorem State.poisoned_memories : s.poisoned.memories = s.memories := by simp [State.poisoned]
@[simp] theorem State.rfe_memories : s.rfe.memories = s.memories := by rfl

-- Memory, lines and leases.

@[simp] theorem State.addStore_memories (pa bs b) : (s.addStore pa bs b).memories = s.memories := by rfl
@[simp] theorem State.addAt_memories (src part cell st sc pa bs due own psn th) :
    (s.addAt src part cell st sc pa bs due own psn th).memories = s.memories := by
  rfl
@[simp] theorem State.ordStore_memories (pa bs) : (s.ordStore pa bs).memories = s.memories := by rfl
@[simp] theorem State.noteAt_memories (src part st pa bs) : (s.noteAt src part st pa bs).memories = s.memories := by rfl
@[simp] theorem State.hostWriteMem_memories (pa bs) : (s.hostWriteMem pa bs).memories = s.memories := by rfl
@[simp] theorem State.publish_memories (src sc) : (s.publish src sc).memories = s.memories := by rfl
@[simp] theorem State.loseLines_memories (pa n due) : (s.loseLines pa n due).memories = s.memories := by simp [State.loseLines]
@[simp] theorem State.publishNow_memories (sc) : (s.publishNow sc).memories = s.memories := by rfl
@[simp] theorem State.refresh_memories : s.refresh.memories = s.memories := by rfl
@[simp] theorem State.boundary_memories (sc) : (s.boundary sc).memories = s.memories := by rfl
@[simp] theorem State.waitPublish_memories (sc) : (s.waitPublish sc).memories = s.memories := by
  unfold State.waitPublish
  split <;> simp
@[simp] theorem State.afterPublish_keeps (sc : Scope) (k : State → State) (h : Keeps m s.memories)
    (hk : ∀ t, Keeps t.memories (k t).memories) : Keeps m (s.afterPublish sc k).memories := by
  unfold State.afterPublish
  split
  · exact Keeps.trans (by simpa using h) (hk _)
  · simpa using h
theorem wf_writeCells (m cs : List Host.Cell) (h : Memory.wf m = true) : Memory.wf (writeCells m cs) = true := by
  induction cs generalizing m with
  | nil => exact h
  | cons c cs ih => exact ih _ (wf_mwrite m c.1 c.2 h)
@[simp] theorem State.settleVer_keeps (v : Ver) (h : Keeps m s.memories) : Keeps m (s.settleVer v).memories :=
  h.imp fun ⟨h1, h2, h3⟩ => ⟨wf_writeCells _ _ h1, h2, h3⟩
theorem wf_lateWrite (m : List Host.Cell) (late : List (Nat × Gran)) (p : Path) (c a : Nat) (bs : List Byte)
    (h : Memory.wf m = true) :
    Memory.wf (lateWrite m late p c a bs).1 = true := by
  unfold lateWrite
  generalize granulesOf a bs.length = ks
  induction ks generalizing m late with
  | nil => exact h
  | cons k ks ih => exact ih _ _ (wf_mwrites _ _ _ h)
@[simp] theorem State.spadWrite_keeps (p : Path) (cell a : Nat) (bs : List Byte) (h : Keeps m s.memories) :
    Keeps m (s.spadWrite p cell a bs).memories :=
  h.imp fun ⟨h1, h2, h3⟩ => ⟨h1, wf_lateWrite _ _ _ _ _ _ h2, h3⟩
@[simp] theorem State.bankWrite_keeps (p : Path) (cell : Nat) (second : Bool) (a : Nat) (bs : List Byte)
    (h : Keeps m s.memories) : Keeps m (s.bankWrite p cell second a bs).memories :=
  h.imp fun ⟨h1, h2, h3⟩ => ⟨h1, h2, wf_lateWrite _ _ _ _ _ _ h3⟩
@[simp] theorem State.spadPut_keeps (cell a : Nat) (bs : List Byte) (h : Keeps m s.memories) :
    Keeps m (s.spadPut cell a bs).memories :=
  h.imp fun ⟨h1, h2, h3⟩ => ⟨h1, wf_mwrites _ _ _ h2, h3⟩
@[simp] theorem State.bankPut_keeps (cell : Nat) (second : Bool) (a : Nat) (bs : List Byte) (h : Keeps m s.memories) :
    Keeps m (s.bankPut cell second a bs).memories :=
  h.imp fun ⟨h1, h2, h3⟩ => ⟨h1, h2, wf_mwrites _ _ _ h3⟩
@[simp] theorem State.orderLate_memories (cell q cls ags) : (s.orderLate cell q cls ags).memories = s.memories := by rfl
@[simp] theorem State.orderAll_memories (q cls ags) : (s.orderAll q cls ags).memories = s.memories := by rfl
@[simp] theorem State.own_memories (cell key rs) : (s.own cell key rs).memories = s.memories := by simp [State.own]
@[simp] theorem State.withRegions_keeps (cell key : Nat) (rs : List Nat) (k : State → State) (h : Keeps m s.memories)
    (hk : ∀ t, Keeps t.memories (k t).memories) : Keeps m (s.withRegions cell key rs k).memories := by
  unfold State.withRegions
  split
  · simpa using h
  · exact Keeps.trans (by simpa using h) (hk _)
@[simp] theorem State.withSpad_keeps (x n : Nat) (k : State → State) (h : Keeps m s.memories)
    (hk : ∀ t, Keeps t.memories (k t).memories) : Keeps m (s.withSpad x n k).memories := by
  unfold State.withSpad
  split
  · exact State.withRegions_keeps _ _ _ _ _ h hk
  · simpa using h

-- Issue.

@[simp] theorem State.traceIssue_memories (src pc u isRet target) :
    (s.traceIssue src pc u isRet target).memories = s.memories := by
  simp [State.traceIssue]
@[simp] theorem State.traceExits_memories (src es) : (s.traceExits src es).memories = s.memories := by simp [State.traceExits]
@[simp] theorem State.haltCtx_memories (src) : (s.haltCtx src).memories = s.memories := by
  simp only [State.haltCtx]
  repeat' split
  all_goals simp
@[simp] theorem State.touch_memories (cell va) : (s.touch cell va).memories = s.memories := by rfl
@[simp] theorem State.beginC_memories (src w) : (s.beginC src w).memories = s.memories := by rfl
@[simp] theorem State.loopBoundary_memories (src) : (s.loopBoundary src).memories = s.memories := by
  simp only [State.loopBoundary]
  repeat' split
  all_goals simp
@[simp] theorem State.advanceC_memories (src pc u keepPfx isRet moved) :
    (s.advanceC src pc u keepPfx isRet moved).memories = s.memories := by
  simp [State.advanceC]
@[simp] theorem State.issued_memories (src) : (s.issued src).memories = s.memories := by rfl
@[simp] theorem State.finishC_memories (i pc) : (s.finishC i pc).memories = s.memories := by
  simp only [State.finishC]
  repeat' split
  all_goals simp
@[simp] theorem State.dispatch_memories (i u) : (s.dispatch i u).memories = s.memories := by rfl
@[simp] theorem State.beginU_memories (src u e) : (s.beginU src u e).memories = s.memories := by rfl
@[simp] theorem State.unitIssued_memories (src u) : (s.unitIssued src u).memories = s.memories := by rfl
@[simp] theorem State.keepEntry_memories (u) : (s.keepEntry u).memories = s.memories := by rfl
@[simp] theorem State.finishU_memories (u) : (s.finishU u).memories = s.memories := by
  unfold State.finishU
  split <;> simp
@[simp] theorem State.illegalAtIssue_memories : s.illegalAtIssue.memories = s.memories := by simp [State.illegalAtIssue]
theorem State.goOn_memories {s t : State} {src : Nat} {i : Instr} (h : s.goOn src = some (i, t)) : t.memories = s.memories := by
  obtain ⟨w, -, h⟩ := Option.bind_eq_some_iff.1 h
  split at h
  · cases h; simp
  · cases h

-- Context records.

@[simp] theorem State.setMember_memories (src m) : (s.setMember src m).memories = s.memories := by simp [State.setMember]
@[simp] theorem State.patchRec_memories (src edits) : (s.patchRec src edits).memories = s.memories := by simp [State.patchRec]

-- Device registers.

@[simp] theorem State.withinQueue_memories (q) : (s.withinQueue q).memories = s.memories := by rfl
@[simp] theorem State.partWrite_memories (n off v) : (s.partWrite n off v).memories = s.memories := by
  simp only [State.partWrite]
  repeat' split
  all_goals simp
@[simp] theorem State.dbgWrite_memories (n off v) : (s.dbgWrite n off v).memories = s.memories := by
  unfold State.dbgWrite
  split <;> simp
@[simp] theorem State.wsWrite_memories (n off v) : (s.wsWrite n off v).memories = s.memories := by
  unfold State.wsWrite
  split <;> simp
@[simp] theorem State.lportWrite_memories (src n off v) : (s.lportWrite src n off v).memories = s.memories := by
  simp only [State.lportWrite]
  repeat' split
  all_goals simp
@[simp] theorem State.regWrite_memories (src pa v atomic) : (s.regWrite src pa v atomic).memories = s.memories := by
  simp only [State.regWrite]
  repeat' split
  all_goals simp
@[simp] theorem State.devStore_memories (src pa n v atomic) : (s.devStore src pa n v atomic).memories = s.memories := by
  simp [State.devStore]
@[simp] theorem State.noteCount_memories (part st pa n) : (s.noteCount part st pa n).memories = s.memories := by
  unfold State.noteCount
  split <;> simp
theorem State.writeRecord_memories (s : State) (part : Nat) (st : Stamp) (bs : List Byte) :
    ∀ t ∈ s.writeRecord part st bs, t.memories = s.memories := by
  simp only [State.writeRecord]
  repeat' split
  all_goals simp
@[simp] theorem State.postRecord_memories (s : State) (part : Nat) (st : Stamp) (bs : List Byte) :
    (s.postRecord part st bs).memories = s.memories := by
  simp only [State.postRecord]
  split
  · cases h : s.writeRecord part st bs with
    | none => simp
    | some t => exact s.writeRecord_memories part st bs t h
  · simp
@[simp] theorem State.drainNotes_memories (s : State) (part : Nat) : (s.drainNotes part).memories = s.memories := by
  refine memories_foldl _ _ _ fun t r => ?_
  split
  · split
    next u h => exact t.writeRecord_memories _ _ _ u h
    next => rfl
  · rfl

-- Translation.

@[simp] theorem State.putPte_memories (src part a e) : (s.putPte src part a e).memories = s.memories := by rfl
@[simp] theorem State.flush_memories (src part l) : (s.flush src part l).memories = s.memories := by simp [State.flush]
@[simp] theorem State.dropLease_memories (src cell l) : (s.dropLease src cell l).memories = s.memories := by
  simp [State.dropLease]
@[simp] theorem State.dropLapsed_memories (src cell) : (s.dropLapsed src cell).memories = s.memories := by
  simp [State.dropLapsed]
@[simp] theorem State.fillLease_memories (src cell l) : (s.fillLease src cell l).memories = s.memories := by
  simp only [State.fillLease]
  repeat' split
  all_goals simp
@[simp] theorem State.unpin_memories (src) : (s.unpin src).memories = s.memories := by rfl
@[simp] theorem State.pageFault_memories (th why va) : (s.pageFault th why va).memories = s.memories := by
  simp [State.pageFault]
@[simp] theorem execTeth_keeps (th a intent) : Out.Keeps s.memories (execTeth th a intent s) := by
  simp only [execTeth]
  repeat' split
  all_goals simp
@[simp] theorem State.flushTeth_memories (t) : (s.flushTeth t).memories = s.memories := by
  unfold State.flushTeth
  split <;> simp
@[simp] theorem State.extendStores_memories (src th t t') : (s.extendStores src th t t').memories = s.memories := by rfl
@[simp] theorem execRenewalAnswer_keeps : Out.Keeps s.memories (execRenewalAnswer s) := by
  simp only [execRenewalAnswer]
  repeat' split
  all_goals simp
@[simp] theorem State.probeTrap_keeps (k : State → State) (h : Keeps m s.memories) (hk : ∀ t, Keeps t.memories (k t).memories) :
    Keeps m (s.probeTrap k).memories :=
  Keeps.trans (by simpa using h) (hk _)
@[simp] theorem State.probeRange_keeps (write : Bool) (first last fuel va n : Nat) (h : Keeps m s.memories) :
    Keeps m (s.probeRange write first last fuel va n).memories := by
  induction fuel generalizing s va n with
  | zero => exact h
  | succ fuel ih =>
    simp only [State.probeRange]
    repeat' split
    all_goals simp [h, ih]
@[simp] theorem execInstructionFetch_keeps : Out.Keeps s.memories (execInstructionFetch s) := by
  simp only [execInstructionFetch]
  repeat' split
  all_goals simp
@[simp] theorem State.commitLeaf_memories (n) : (s.commitLeaf n).memories = s.memories := by simp [State.commitLeaf]
@[simp] theorem State.skewFault_memories : s.skewFault.memories = s.memories := by simp [State.skewFault]

-- Loads, stores, atomics and streams.

@[simp] theorem State.countTeth_memories (t) : (s.countTeth t).memories = s.memories := by simp [State.countTeth]
@[simp] theorem State.tethered_keeps (th : BitVec 4) (off : Int) (n : Nat) (write stream : Bool) (k : Tether → Nat → State)
    (h : Keeps m s.memories) (hk : ∀ t pa, Keeps m (k t pa).memories) : Keeps m
    (s.tethered th off n write stream k).memories := by
  simp only [State.tethered]
  repeat' split
  all_goals simp [h, hk]
@[simp] theorem State.readAt_memories (s : State) (ord : Bool) (pa n : Nat) : (s.readAt ord pa n).2.memories = s.memories := by
  unfold State.readAt
  split <;> rfl
@[simp] theorem State.logDrop_memories : s.logDrop.memories = s.memories := by rfl
@[simp] theorem State.peerStore_memories (pa) : (s.peerStore pa).memories = s.memories := by simp [State.peerStore]
@[simp] theorem State.writeAt_memories (ord pa bs b) : (s.writeAt ord pa bs b).memories = s.memories := by
  unfold State.writeAt
  split <;> simp
@[simp] theorem State.withSpadAt_keeps (x : Int) (n : Nat) (k : Nat → State → State) (h : Keeps m s.memories)
    (hk : ∀ a t, Keeps t.memories (k a t).memories) : Keeps m (s.withSpadAt x n k).memories := by
  simp [State.withSpadAt, h, hk]
@[simp] theorem execLdm_keeps (f : LdmF) (s : State) : Out.Keeps s.memories (execLdm f s) := by
  refine (Out.keeps_next ..).2 (State.tethered_keeps _ _ _ _ _ _ _ (.refl _) fun t pa => ?_)
  have hread := s.readAt_memories t.ord pa (2 ^ f.sz.toNat)
  generalize s.readAt t.ord pa (2 ^ f.sz.toNat) = r at hread
  repeat' split
  all_goals simp_all
@[simp] theorem execStm_keeps (f) : Out.Keeps s.memories (execStm f s) := by
  unfold execStm
  split <;> simp
@[simp] theorem State.coreLate_memories (src f) : (s.coreLate src f).memories = s.memories := by
  unfold State.coreLate
  split <;> simp
@[simp] theorem State.lateRead_memories (src id) : (s.lateRead src id).memories = s.memories := by simp [State.lateRead]
@[simp] theorem State.lateLands_memories (s : State) (src id : Nat) : (s.lateLands src id).memories = s.memories := by
  unfold State.lateLands
  dsimp only
  split
  · split
    next h =>
      split at h
      · simpa using State.goOn_memories h
      · cases h
    next => rfl
  · split <;> simp
@[simp] theorem execMemoryLoadLands_keeps : Out.Keeps s.memories (execMemoryLoadLands s) := by
  simp only [execMemoryLoadLands]
  repeat' split
  all_goals simp
@[simp] theorem State.lateWrite_memories (src seq) : (s.lateWrite src seq).memories = s.memories := by simp [State.lateWrite]
@[simp] theorem State.lateFlag_keeps (src : Nat) (h : Keeps m s.memories) : Keeps m (s.lateFlag src).memories := by
  unfold State.lateFlag
  dsimp only
  split
  next hgo =>
    split at hgo
    · simp [State.goOn_memories hgo, h]
    · cases hgo
  next => exact h
@[simp] theorem State.storeLands_memories (src seq) : (s.storeLands src seq).memories = s.memories := by
  simp only [State.storeLands]
  repeat' split
  all_goals simp
@[simp] theorem State.around_keeps (pb sp : Bool) (sc : Scope) (k : State → State) (h : Keeps m s.memories)
    (hk : ∀ t, Keeps t.memories (k t).memories) : Keeps m (s.around pb sp sc k).memories := by
  have hk' (t : State) (ht : t.memories = s.memories) : Keeps m (k t).memories := h.trans (ht ▸ hk t)
  simp only [State.around]
  repeat' split
  all_goals simp [h, hk']
@[simp] theorem State.amoAt_memories (f op n t pa) : (s.amoAt f op n t pa).memories = s.memories := by
  simp only [State.amoAt]
  repeat' split
  all_goals simp
@[simp] theorem amo_keeps (op f) : Out.Keeps s.memories (amo op f s) := by simp [amo]
@[simp] theorem amos_keeps (op : AtomicOp) (f : AmosF) (s : State) : Out.Keeps s.memories (amos op f s) := by
  unfold amos
  generalize (if f.wide then 8 else 4) = n
  dsimp only
  split
  · simp
  · refine (Out.keeps_next ..).2 (State.withSpadAt_keeps _ _ _ _ (.refl _) fun x t => ?_)
    split
    · simp
    · refine State.around_keeps _ _ _ _ _ (.refl _) fun u => ?_
      split <;> simp
@[simp] theorem State.startStream_memories (base stride count) : (s.startStream base stride count).memories = s.memories := by
  simp only [State.startStream]
  repeat' split
  all_goals simp
@[simp] theorem State.handleStream_memories (f bad) : (s.handleStream f bad).memories = s.memories := by
  simp [State.handleStream]
@[simp] theorem State.rowUsed_memories (t) : (s.rowUsed t).memories = s.memories := by rfl
@[simp] theorem State.rowMoved_memories (t last) : (s.rowMoved t last).memories = s.memories := by simp [State.rowMoved]
@[simp] theorem State.landRow_memories (t bs last) : (s.landRow t bs last).memories = s.memories := by simp [State.landRow]
@[simp] theorem State.takeRow_keeps (t : Stream) (checked : Bool) (k : State → List Byte → State) (h : Keeps m s.memories)
    (hk : ∀ u bs, Keeps u.memories (k u bs).memories) : Keeps m (s.takeRow t checked k).memories := by
  simp only [State.takeRow]
  repeat' split
  all_goals simp [h, h.trans (hk _ _)]
@[simp] theorem State.popRow_memories (t) : (s.popRow t).memories = s.memories := by simp [State.popRow]
@[simp] theorem State.countLease_memories (l) : (s.countLease l).memories = s.memories := by simp [State.countLease]
@[simp] theorem State.useRow_memories (ps) : (s.useRow ps).memories = s.memories := by
  unfold State.useRow
  split <;> simp
@[simp] theorem State.readPieces_memories (s : State) (ps : List (Nat × Nat × Lease)) :
    (s.readPieces ps).2.memories = s.memories := by
  induction ps generalizing s with
  | nil => rfl
  | cons p ps ih => exact (ih _).trans (s.readAt_memories ..)
@[simp] theorem State.writePieces_memories (s : State) (bs : List Byte) (ps : List (Nat × Nat × Lease)) :
    (s.writePieces bs ps).memories = s.memories := by
  induction ps generalizing s bs with
  | nil => rfl
  | cons p ps ih => exact (ih _ _).trans (s.writeAt_memories ..)
@[simp] theorem State.loadRow_keeps (t) (h : Keeps m s.memories) : Keeps m (s.loadRow t).memories := by
  simp only [State.loadRow]
  repeat' split
  all_goals simp [h]
@[simp] theorem State.storeRow_keeps (t : Stream) (h : Keeps m s.memories) : Keeps m (s.storeRow t).memories := by
  simp only [State.storeRow]
  repeat' split
  any_goals simp [h]
  exact State.withSpad_keeps _ _ _ _ h fun u => State.takeRow_keeps _ _ _ _ (.refl _) fun v bs => by simp
@[simp] theorem State.markRow_memories (src id) : (s.markRow src id).memories = s.memories := by
  unfold State.markRow
  split <;> simp
@[simp] theorem execLoadStreamRow_keeps : Out.Keeps s.memories (execLoadStreamRow s) := by
  unfold execLoadStreamRow
  split <;> simp
@[simp] theorem execStoreStreamRow_keeps : Out.Keeps s.memories (execStoreStreamRow s) := by
  unfold execStoreStreamRow
  split <;> simp
@[simp] theorem execStreamRowGrant_keeps : Out.Keeps s.memories (execStreamRowGrant s) := by
  simp only [execStreamRowGrant]
  repeat' split
  all_goals simp

-- Teams, fences and flags.

@[simp] theorem State.bound_memories (sc) : (s.bound sc).memories = s.memories := by simp [State.bound]
@[simp] theorem State.waitEnds_memories (kind obj setter outcome sc) :
    (s.waitEnds kind obj setter outcome sc).memories = s.memories := by
  simp [State.waitEnds]
@[simp] theorem State.orderedOr_keeps (wait k : State → State)
    (h : Keeps m s.memories) (hwait : ∀ t, Keeps t.memories (wait t).memories) (hk : ∀ t, Keeps t.memories (k t).memories) :
    Keeps m (s.orderedOr wait k).memories := by
  simp only [State.orderedOr]
  split
  · exact h.trans (hwait _)
  · exact Keeps.trans (by simpa using h) (hk _)
@[simp] theorem State.ordered_keeps (k : State → State) (h : Keeps m s.memories) (hk : ∀ t, Keeps t.memories (k t).memories) :
    Keeps m (s.ordered k).memories :=
  s.orderedOr_keeps _ _ h (fun _ => by simp) hk
@[simp] theorem State.opAt_memories (s : State) (part src : Nat) (k : Stamp → State → State)
    (hk : ∀ st t, (k st t).memories = t.memories) : (s.opAt part src k).memories = s.memories :=
  (hk ..).trans (s.modPart_memories ..)
@[simp] theorem State.afterAccess_keeps (k : State → State) (h : Keeps m s.memories) (hk : ∀ t, Keeps t.memories (k t).memories) :
    Keeps m (s.afterAccess k).memories := by
  simp only [State.afterAccess]
  split
  · exact h.trans (hk _)
  · simpa using h
@[simp] theorem State.modTeam_memories (part id f) : (s.modTeam part id f).memories = s.memories := by rfl
@[simp] theorem State.joinTeam_memories (s : State) (src part id : Nat) : (s.joinTeam src part id).2.memories = s.memories := by
  simp only [State.joinTeam]
  split <;> rfl
@[simp] theorem execJoin_keeps (d a) : Out.Keeps s.memories (execJoin d a s) := by
  simp only [execJoin]
  repeat' split
  all_goals simp
@[simp] theorem State.leaveTeam_memories (src f) : (s.leaveTeam src f).memories = s.memories := by
  unfold State.leaveTeam
  split <;> simp
@[simp] theorem State.arrive_memories (id) : (s.arrive id).memories = s.memories := by rfl
@[simp] theorem execPhaseb_keeps (sc) : Out.Keeps s.memories (execPhaseb sc s) := by
  simp only [execPhaseb]
  repeat' split
  all_goals simp
@[simp] theorem execBarrierRelease_keeps : Out.Keeps s.memories (execBarrierRelease s) := by
  unfold execBarrierRelease
  split <;> simp
@[simp] theorem State.settle_memories (src cls) : (s.settle src cls).memories = s.memories := by rfl
@[simp] theorem State.withTeth_keeps (th : BitVec 4) (k : State → State) (h : Keeps m s.memories)
    (hk : ∀ t, Keeps t.memories (k t).memories) : Keeps m (s.withTeth th k).memories := by
  simp only [State.withTeth]
  split
  · simpa using h
  · exact h.trans (hk _)
@[simp] theorem State.flagWrite_memories (th t pa sc v) : (s.flagWrite th t pa sc v).memories = s.memories := by
  unfold State.flagWrite
  split <;> simp
@[simp] theorem execFlagset_keeps (th : BitVec 4) (a b : Reg) (sc : Scope) (s : State) :
    Out.Keeps s.memories (execFlagset th a b sc s) :=
  (Out.keeps_next ..).2 <| State.withTeth_keeps _ _ _ (.refl _) fun t => State.afterPublish_keeps _ _ _ (.refl _) fun u =>
    State.tethered_keeps _ _ _ _ _ _ _ (.refl _) fun te pa => by split <;> simp
@[simp] theorem State.flagRead_memories (s : State) (pa : Nat) : (s.flagRead pa).2.2.memories = s.memories := by
  unfold State.flagRead
  split <;> rfl
@[simp] theorem State.flagTry_memories (d t pa b dl sc cond) : (s.flagTry d t pa b dl sc cond).memories = s.memories := by
  simp only [State.flagTry]
  repeat' split
  all_goals simp
@[simp] theorem State.flagw_keeps (d th a b c sc cond) (h : Keeps m s.memories) :
    Keeps m (s.flagw d th a b c sc cond).memories := by
  simp only [State.flagw]
  repeat' split
  all_goals simp [h]
@[simp] theorem State.retry_keeps (src : Nat) (f : Instr → Option (State → State))
    (h : Keeps m s.memories) (hf : ∀ i, ∀ k ∈ f i, ∀ t, Keeps t.memories (k t).memories) :
    Keeps m (s.retry src f).memories := by
  simp only [State.retry]
  split
  · exact h
  split
  next i t hgo =>
    split
    next k hk => simpa using h.trans (State.goOn_memories hgo ▸ hf i k hk t)
    next => exact h
  next => exact h
@[simp] theorem execFlagwWake_keeps (s : State) : Out.Keeps s.memories (execFlagwWake s) := by
  refine (Out.keeps_next ..).2 (State.retry_keeps _ _ _ (.refl _) fun i k hk t => ?_)
  split at hk <;> cases hk
  simp
@[simp] theorem State.retryStore_keeps (src) (h : Keeps m s.memories) : Keeps m (s.retryStore src).memories := by
  simp only [State.retryStore]
  repeat' split
  all_goals simp [h]
@[simp] theorem execPublishTakesEffect_keeps (s : State) : Out.Keeps s.memories (execPublishTakesEffect s) := by
  simp only [execPublishTakesEffect]
  split
  · simp
  · refine (Out.keeps_next ..).2 (State.retry_keeps _ _ _ (.refl _) fun i k hk t => ?_)
    split at hk <;> cases hk
    simp
@[simp] theorem execPublishEntryMerge_keeps : Out.Keeps s.memories (execPublishEntryMerge s) := by
  unfold execPublishEntryMerge
  split <;> simp

-- The directory.

@[simp] theorem State.modDir_memories (part f) : (s.modDir part f).memories = s.memories := by rfl
@[simp] theorem State.reclaim_memories (part obj st) : (s.reclaim part obj st).memories = s.memories := by
  simp only [State.reclaim]
  repeat' split
  all_goals simp
@[simp] theorem State.holdObj_memories (part obj) : (s.holdObj part obj).memories = s.memories := by rfl
@[simp] theorem State.dropObj_memories (part obj st) : (s.dropObj part obj st).memories = s.memories := by simp [State.dropObj]
@[simp] theorem State.openHandle_memories (mh obj m) : (s.openHandle mh obj m).memories = s.memories := by rfl
@[simp] theorem State.mopenw_keeps (mh c a b mode) (h : Keeps m s.memories) : Keeps m (s.mopenw mh c a b mode).memories := by
  simp [State.mopenw, h]
@[simp] theorem execMopenwWake_keeps (s : State) : Out.Keeps s.memories (execMopenwWake s) := by
  refine (Out.keeps_next ..).2 (State.retry_keeps _ _ _ (.refl _) fun i k hk t => ?_)
  split at hk <;> cases hk
  simp
@[simp] theorem State.closeHandle_memories (src mh st) : (s.closeHandle src mh st).memories = s.memories := by
  simp [State.closeHandle]
theorem State.bindList_memories {s t : State} {es : List BindE} {c i : Nat} {out : List (Nat × Nat)}
    (h : s.bindList es = some (c, i, out, t)) : t.memories = s.memories := by
  simp only [State.bindList] at h
  split at h
  · cases h
  · split at h
    · cases h; rfl
    · cases h; simp
@[simp] theorem State.bindOut_keeps (a : Nat) (l : List (Nat × Nat)) (h : Keeps m s.memories) :
    Keeps m (s.bindOut a l).memories := by
  induction l generalizing s a with
  | nil => exact h
  | cons p l ih => exact ih _ _ (State.spadWrite_keeps _ _ _ _ _ (State.spadWrite_keeps _ _ _ _ _ h))
@[simp] theorem execMbind_keeps (d a b : Reg) (s : State) : Out.Keeps s.memories (execMbind d a b s) := by
  simp only [execMbind]
  split
  · simp
  split
  · simp
  refine (Out.keeps_next ..).2 <| State.afterAccess_keeps _ _ (.refl _) fun t =>
    State.withSpad_keeps _ _ _ _ (.refl _) fun u => ?_
  repeat' split
  any_goals simp
  refine State.ordered_keeps _ _ (.refl _) fun v => ?_
  split
  next => simp
  next h => simp [State.bindList_memories h]
@[simp] theorem execMunbind_keeps (d a b : Reg) (s : State) : Out.Keeps s.memories (execMunbind d a b s) := by
  simp only [execMunbind]
  split
  · simp
  refine (Out.keeps_next ..).2 <| State.ordered_keeps _ _ (.refl _) fun v => ?_
  split
  next => simp
  next h => simp [State.bindList_memories h]

-- Engine accesses.

@[simp] theorem State.holdByte_memories (key part ep va write) : (s.holdByte key part ep va write).memories = s.memories := by
  simp only [State.holdByte]
  repeat' split
  all_goals simp
@[simp] theorem State.holdRange_memories (key part ep va n write) :
    (s.holdRange key part ep va n write).memories = s.memories := by
  simp [State.holdRange]
@[simp] theorem State.unhold_memories (key) : (s.unhold key).memories = s.memories := by rfl
@[simp] theorem State.enginePut1_memories (src part sc by_ work pa bs) :
    (s.enginePut1 src part sc by_ work pa bs).memories = s.memories := by
  unfold State.enginePut1
  split <;> simp
@[simp] theorem State.enginePut_memories (s : State) (src part : Nat) (sc : Scope) (by_ : Option (Nat × Nat))
    (work : Option Nat) (bs : List Byte) (ps : List (Nat × Nat)) : (s.enginePut src part sc by_ work bs ps).memories =
    s.memories := by
  induction ps generalizing s bs with
  | nil => rfl
  | cons p ps ih => exact (ih _ _).trans (State.enginePut1_memories ..)
theorem State.engineStore_memories {s t : State} {hs : List Held} {src part : Nat} {sc : Scope} {by_ : Option (Nat × Nat)}
    {work : Option Nat} {va : Int} {bs : List Byte} (h : s.engineStore hs src part sc by_ work va bs = some (.ok t)) :
    t.memories = s.memories := by
  simp only [State.engineStore] at h
  repeat' split at h
  all_goals cases h
  simp
theorem State.engineFlag_memories {s t : State} {part va v : Nat} {st : Stamp} (h : s.engineFlag part va v st = some (.ok t)) :
    t.memories = s.memories := by
  simp only [State.engineFlag] at h
  repeat' split at h
  all_goals cases h
  all_goals simp
@[simp] theorem State.settleSrc_memories (src) : (s.settleSrc src).memories = s.memories := by rfl
@[simp] theorem State.settleNode_memories (nid) : (s.settleNode nid).memories = s.memories := by rfl
@[simp] theorem State.mapNodes_memories (f) : (s.mapNodes f).memories = s.memories := by rfl
@[simp] theorem State.modThread_memories (src f) : (s.modThread src f).memories = s.memories := by simp [State.modThread]
@[simp] theorem State.deliverOr_keeps (p : Nat × Nat × Nat × Nat → Bool) (k : State → State) (h : Keeps m s.memories)
    (hk : ∀ t, Keeps t.memories (k t).memories) : Keeps m (s.deliverOr p k).memories := by
  simp only [State.deliverOr]
  repeat' split
  all_goals simp [h, h.trans (hk _)]

-- The migration assist.

@[simp] theorem State.setAssist_memories (part a) : (s.setAssist part a).memories = s.memories := by rfl
@[simp] theorem State.assistNote_memories (part a kind) : (s.assistNote part a kind).memories = s.memories := by
  simp [State.assistNote]
@[simp] theorem State.assistAbandon_memories (part a) : (s.assistAbandon part a).memories = s.memories := by
  simp [State.assistAbandon]
theorem State.assistChange_memories {s t : State} {part : Nat} {a : Assist} {new : Nat} {k : State → State}
    (h : s.assistChange part a new k = some t) (hk : ∀ u, (k u).memories = u.memories) : t.memories = s.memories := by
  simp only [State.assistChange] at h
  repeat' split at h
  all_goals cases h
  all_goals simp [hk]
theorem State.assistStep_memories {s t : State} {part : Nat} {a : Assist} (h : s.assistStep part a = some t) :
    t.memories = s.memories := by
  simp only [State.assistStep] at h
  repeat' split at h
  any_goals cases h
  any_goals simp
  any_goals exact State.assistChange_memories h fun u => by simp
@[simp] theorem execMigrationAssist_keeps (s : State) : Out.Keeps s.memories (execMigrationAssist s) := by
  simp only [execMigrationAssist]
  split
  next a _ =>
    cases h : s.assistStep s.arg.a a with
    | none => simp
    | some t => simp [State.assistStep_memories h]
  next => split <;> simp

-- Copy engines.

@[simp] theorem State.xferEnds_memories (by_ ch x code) : (s.xferEnds by_ ch x code).memories = s.memories := by
  simp only [State.xferEnds]
  repeat' split
  all_goals simp
theorem State.completeXfer_keeps {s t : State} {ch : Nat} {x : Xfer} (h : s.completeXfer ch x = some t) :
    Keeps s.memories t.memories := by
  simp only [State.completeXfer, Option.map_eq_some_iff, Prod.exists] at h
  obtain ⟨code, u, hu, rfl⟩ := h
  have hmem : u.memories = s.memories := by
    repeat' split at hu
    all_goals cases hu
    · rfl
    · exact State.engineFlag_memories ‹_›
    · rfl
  simp [hmem]
theorem State.submit_keeps {s t : State} {ch : Nat} {pkt : List Byte} {src : Nat} {by_ node : Option Nat} {follow : Bool}
    {w p : Nat} (h : s.submit ch pkt src by_ node follow = some (.ok (w, p, t))) : Keeps s.memories t.memories := by
  simp only [State.submit] at h
  repeat' split at h
  all_goals cases h
  · cases hx : State.completeXfer _ _ _ with
    | none => simp
    | some u => simpa using State.completeXfer_keeps hx
  · simp
@[simp] theorem State.standChans_memories : s.standChans.memories = s.memories := by rfl
@[simp] theorem execCopyPacketTake_keeps : Out.Keeps s.memories (execCopyPacketTake s) := by
  simp only [execCopyPacketTake]
  repeat' split
  all_goals simp
@[simp] theorem State.beginXfer_keeps (ch : Nat) (x : Xfer) (h : Keeps m s.memories) : Keeps m (s.beginXfer ch x).memories := by
  unfold State.beginXfer
  extract_lets part fail e1 e2 role y u z o
  have hfail (n : Nat) : Keeps m (fail n).memories := by simpa [fail] using h
  have hu : Keeps m u.memories := by simpa [u] using h
  repeat' split
  all_goals simp [h, hu, hfail]
@[simp] theorem State.holdRow_memories (ch x n) : (s.holdRow ch x n).memories = s.memories := by
  simp only [State.holdRow]
  repeat' split
  all_goals simp
/-- The state that an access of an engine answers. -/
def Got.Keeps (m : Memories) : Got → Prop
  | .wait t | .done t => Machine.Keeps m t.memories
  | .fail _ | .bytes _ => True
theorem State.getFrom_keeps (s : State) (ch : Nat) (x : Xfer) (o : Int) (n : Nat) :
    Got.Keeps s.memories (s.getFrom ch x o n) := by
  simp only [State.getFrom]
  repeat' split
  all_goals simp [Got.Keeps]
theorem State.putTo_keeps (s : State) (ch : Nat) (x : Xfer) (o : Int) (bs : List Byte) :
    Got.Keeps s.memories (s.putTo ch x o bs) := by
  simp only [State.putTo]
  repeat' split
  all_goals simp [Got.Keeps]
  next h => simp [State.engineStore_memories h]
theorem State.gatherRow_keeps (s : State) (ch : Nat) (x : Xfer) (o : Obj) (i : Nat) :
    Got.Keeps s.memories (s.gatherRow ch x o i) := by
  simp only [State.gatherRow]
  repeat' split
  all_goals simp [Got.Keeps]
theorem State.rowNow_keeps (s : State) (ch : Nat) (x : Xfer) (i off n : Nat) :
    Got.Keeps s.memories (s.rowNow ch x i off n) := by
  simp only [State.rowNow]
  repeat' split
  any_goals trivial
  any_goals exact s.gatherRow_keeps ..
  any_goals exact s.getFrom_keeps ..
theorem State.rowOfXfer_keeps (s : State) (ch : Nat) (x : Xfer) (i off n : Nat) :
    Got.Keeps s.memories (s.rowOfXfer ch x i off n) := by
  simp only [State.rowOfXfer]
  split
  · trivial
  · exact s.rowNow_keeps ..
theorem Got.Keeps.of_wait {m : Memories} {g : Got} {t : State} (hg : Got.Keeps m g) (h : g = .wait t) :
    Machine.Keeps m t.memories := by
  subst h; exact hg
theorem Got.Keeps.of_done {m : Memories} {g : Got} {t : State} (hg : Got.Keeps m g) (h : g = .done t) :
    Machine.Keeps m t.memories := by
  subst h; exact hg
@[simp] theorem State.stepXfer_keeps (ch : Nat) (x : Xfer) (h : Keeps m s.memories) : Keeps m (s.stepXfer ch x).memories := by
  simp only [State.stepXfer]
  have hu : Keeps m (s.holdRow ch x x.stepLen).memories := by simpa using h
  generalize s.holdRow ch x x.stepLen = u at hu ⊢
  have hput := u.putTo_keeps ch x
  split
  · split
    next => simpa using hu
    next => simpa using hu
    next h => exact hu.trans ((u.getFrom_keeps ..).of_wait h)
    next h => exact hu.trans ((u.getFrom_keeps ..).of_done h)
  split
  · split
    next h => simpa using hu.trans ((hput ..).of_done h)
    next => simpa using hu
    next h => exact hu.trans ((hput ..).of_wait h)
    next => exact hu
  split
  · simpa using hu
  split
  next => simpa using hu
  next h => exact hu.trans ((u.rowOfXfer_keeps ..).of_wait h)
  next h => exact hu.trans ((u.rowOfXfer_keeps ..).of_done h)
  split
  · simpa using hu
  split
  next h => simpa using hu.trans ((hput ..).of_done h)
  next => simpa using hu
  next h => exact hu.trans ((hput ..).of_wait h)
  next => exact hu
@[simp] theorem execCopyPacketStep_keeps : Out.Keeps s.memories (execCopyPacketStep s) := by
  simp only [execCopyPacketStep]
  repeat' split
  all_goals simp
@[simp] theorem execCopyTransferComplete_keeps (s : State) : Out.Keeps s.memories (execCopyTransferComplete s) := by
  simp only [execCopyTransferComplete]
  repeat' split
  any_goals simp
  next h => exact State.completeXfer_keeps h
@[simp] theorem State.followEntry_memories (i word ch w) : (s.followEntry i word ch w).memories = s.memories := by rfl
@[simp] theorem State.copyIssue_keeps (d b a : Reg) (c4 : BitVec 2) (follow : Option (Instr × Word)) (h : Keeps m s.memories) :
    Keeps m (s.copyIssue d b a c4 follow).memories := by
  simp only [State.copyIssue]
  iterate 4 (split; · simp [h])
  refine State.afterAccess_keeps _ _ h fun t => State.withSpad_keeps _ _ _ _ (.refl _) fun u => ?_
  split
  · simp
  refine State.afterPublish_keeps _ _ _ (.refl _) fun v => ?_
  split
  · simp
  · simp
  next hsubmit => cases follow <;> simp [State.submit_keeps hsubmit]
@[simp] theorem execCopyf_keeps (d b a c ch) : Out.Keeps s.memories (execCopyf d b a c ch s) := by
  unfold execCopyf
  split <;> simp
@[simp] theorem State.cchk_keeps (c4 a) (h : Keeps m s.memories) : Keeps m (s.cchk c4 a).memories := by simp [State.cchk, h]
@[simp] theorem execPromiseTimeReached_keeps (s : State) : Out.Keeps s.memories (execPromiseTimeReached s) := by
  refine (Out.keeps_next ..).2 (State.retry_keeps _ _ _ (.refl _) fun i k hk t => ?_)
  split at hk <;> cases hk
  simp

-- Flags.

@[simp] theorem State.orFlags_memories (f) : (s.orFlags f).memories = s.memories := by rfl

-- Links.

@[simp] theorem State.pump_memories (fuel n : Nat) (s : State) : (State.pump fuel n s).memories = s.memories := by
  induction fuel generalizing s with
  | zero => rfl
  | succ fuel ih =>
    unfold State.pump
    extract_lets p
    split
    · rfl
    split <;> simp [ih]
@[simp] theorem State.sendFlits_memories (n l) : (s.sendFlits n l).memories = s.memories := by simp [State.sendFlits]
@[simp] theorem State.ackTo_memories (n ack) : (s.ackTo n ack).memories = s.memories := by
  simp only [State.ackTo]
  repeat' split
  all_goals simp
@[simp] theorem State.nak_memories (n) : (s.nak n).memories = s.memories := by simp [State.nak]
@[simp] theorem State.inOrder_memories (s : State) (n : Nat) (ok : Bool) (seq ack : Nat) (k : State → State)
    (hk : ∀ t, (k t).memories = t.memories) : (s.inOrder n ok seq ack k).memories = s.memories := by
  simp [State.inOrder, hk]
@[simp] theorem State.putOver_memories (n err) : (s.putOver n err).memories = s.memories := by
  unfold State.putOver
  split <;> simp
@[simp] theorem State.putsOver_memories (s : State) (n : Nat) (err : Bool) (k : Nat) :
    (s.putsOver n err k).memories = s.memories := by
  induction k generalizing s with
  | zero => rfl
  | succ k ih => exact (ih _).trans (s.putOver_memories ..)
@[simp] theorem State.issuePut_memories (s : State) (agent n wid off : Nat) (bs : List Byte) (src : Option PutSrc) :
    (s.issuePut agent n wid off bs src).2.memories = s.memories := by
  simp [State.issuePut]
@[simp] theorem State.emptyPut_memories (n wid) : (s.emptyPut n wid).memories = s.memories := by rfl
@[simp] theorem execPut_keeps (th : BitVec 4) (a b c : Reg) (wid : BitVec 16) (s : State) :
    Out.Keeps s.memories (execPut th a b c wid s) := by
  simp only [execPut]
  iterate 3 (split; · simp)
  refine (Out.keeps_next ..).2 <| State.withTeth_keeps _ _ _ (.refl _) fun t =>
    State.tethered_keeps _ _ _ _ _ _ _ (.refl _) fun te pa => ?_
  split
  · simp
  refine State.afterAccess_keeps _ _ (.refl _) fun u => ?_
  split <;> simp
@[simp] theorem State.modWindow_memories (w f) : (s.modWindow w f).memories = s.memories := by rfl
@[simp] theorem execWdereg_keeps (a) : Out.Keeps s.memories (execWdereg a s) := by
  simp only [execWdereg]
  repeat' split
  all_goals simp
@[simp] theorem execWwait_keeps (sel a b) : Out.Keeps s.memories (execWwait sel a b s) := by
  simp only [execWwait]
  repeat' split
  all_goals simp
theorem State.renewWindow_memories {s t : State} {w : Nat} (h : s.renewWindow w = some t) : t.memories = s.memories := by
  unfold State.renewWindow at h
  repeat' split at h
  all_goals cases h
  rfl
@[simp] theorem State.perform_memories (fuel n : Nat) (s : State) : (State.perform fuel n s).memories = s.memories := by
  induction fuel generalizing s with
  | zero => rfl
  | succ fuel ih =>
    unfold State.perform
    extract_lets p
    split
    · rfl
    · simp [ih]
    extract_lets ready
    have hready (t : State) (h : ready = some t) : t.memories = s.memories := by
      unfold ready at h
      split at h
      · cases h
      · split at h
        · cases h; rfl
        · exact State.renewWindow_memories h
    clear_value ready
    split
    · rfl
    next t => simp [ih, hready t rfl]
@[simp] theorem State.dataFlit_memories (n f) : (s.dataFlit n f).memories = s.memories := by simp [State.dataFlit]
@[simp] theorem execInboundDataFlit_keeps : Out.Keeps s.memories (execInboundDataFlit s) := by
  unfold execInboundDataFlit
  split <;> simp
@[simp] theorem execDoneFlit_keeps : Out.Keeps s.memories (execDoneFlit s) := by
  unfold execDoneFlit
  split <;> simp
@[simp] theorem State.resend_memories (n seq) : (s.resend n seq).memories = s.memories := by
  simp only [State.resend]
  repeat' split
  all_goals simp
@[simp] theorem execNakFlit_keeps : Out.Keeps s.memories (execNakFlit s) := by
  unfold execNakFlit
  split <;> simp
@[simp] theorem execIdleFlit_keeps : Out.Keeps s.memories (execIdleFlit s) := by
  simp only [execIdleFlit]
  repeat' split
  all_goals simp
@[simp] theorem State.linkDown_memories (n) : (s.linkDown n).memories = s.memories := by simp [State.linkDown]
@[simp] theorem State.idleFlits_memories : s.idleFlits.memories = s.memories := by simp [State.idleFlits]
@[simp] theorem execSyncBeat_keeps : Out.Keeps s.memories (execSyncBeat s) := by
  simp only [execSyncBeat]
  repeat' split
  all_goals simp
@[simp] theorem execWindowLeaseRenewal_keeps (s : State) : Out.Keeps s.memories (execWindowLeaseRenewal s) := by
  unfold execWindowLeaseRenewal
  split
  next => simp
  next t h => simp [State.renewWindow_memories h]

-- Relays.

@[simp] theorem State.relayHold_memories (e ep va n write) : (s.relayHold e ep va n write).memories = s.memories := by
  simp [State.relayHold]
@[simp] theorem State.relayEnds_memories (e state code) : (s.relayEnds e state code).memories = s.memories := by
  simp only [State.relayEnds]
  repeat' split
  all_goals simp
@[simp] theorem State.relayNext_memories (e) : (s.relayNext e).memories = s.memories := by simp [State.relayNext]
theorem State.relayPut_memories {s t : State} {e : Nat} {x : RStep} {out : List Byte} (h : s.relayPut e x out = some t) :
    t.memories = s.memories := by
  simp only [State.relayPut] at h
  repeat' split at h
  all_goals cases h
  · simp
  · simp
  next hstore => simp [State.engineStore_memories hstore]
theorem State.relayGo_memories {s t : State} {e : Nat} {x : RStep} (h : s.relayGo e x = some t) : t.memories = s.memories := by
  unfold State.relayGo at h
  split at h
  · exact State.relayPut_memories h
  extract_lets na nb u v at h
  have hv : v.memories = s.memories := by simp [v, u]
  clear_value v
  split at h
  · cases h
  · cases h; simp [hv]
  · cases h
    next out _ =>
    cases hput : State.relayPut _ e x out with
    | none => simp [hv]
    | some w => simpa [hv] using State.relayPut_memories hput
theorem State.relayTry_memories {s t : State} {e : Nat} (h : s.relayTry e = some t) : t.memories = s.memories := by
  unfold State.relayTry at h
  extract_lets r u at h
  split at h
  · cases h
  split at h
  · split at h
    · cases h; split <;> simp
    · cases h
  split at h
  · exact State.relayGo_memories h
  have hu : u.memories = s.memories := by simp [u]
  clear_value u
  split at h
  · cases h
  · cases h; simp [hu]
  · cases h
    next x _ =>
    cases hgo : State.relayGo _ e x with
    | none => simp [hu]
    | some w => simpa [hu] using State.relayGo_memories hgo
@[simp] theorem execRelayStep_keeps (s : State) : Out.Keeps s.memories (execRelayStep s) := by
  unfold execRelayStep
  cases h : s.relayTry s.arg.a with
  | none => simp
  | some t => simp [State.relayTry_memories h]
theorem State.relayStart_memories {s t : State} {e va : Nat} {by_ node : Option Nat} (h : s.relayStart e va by_ node = some t) :
    t.memories = s.memories := by
  simp only [State.relayStart] at h
  repeat' split at h
  all_goals cases h
  all_goals simp
@[simp] theorem State.withRelay_keeps (e : BitVec 3) (k : Nat → State) (h : Keeps m s.memories)
    (hk : ∀ n, Keeps m (k n).memories) : Keeps m (s.withRelay e k).memories := by
  simp [State.withRelay, h, hk]
@[simp] theorem execRstart_keeps (a : Reg) (e : BitVec 3) (s : State) : Out.Keeps s.memories (execRstart a e s) := by
  refine (Out.keeps_next ..).2 <| State.withRelay_keeps _ _ _ (.refl _) fun n =>
    State.afterPublish_keeps _ _ _ (.refl _) fun t => ?_
  split
  · simp
  split
  next => simp
  next h => simp [State.relayStart_memories h]

-- Graphs.

@[simp] theorem State.modLaunch_memories (nid f) : (s.modLaunch nid f).memories = s.memories := by rfl
@[simp] theorem State.modNode_memories (nid f) : (s.modNode nid f).memories = s.memories := by rfl
@[simp] theorem State.signalNode_memories (nid n) : (s.signalNode nid n).memories = s.memories := by simp [State.signalNode]
@[simp] theorem State.nodeStep_memories (nid) : (s.nodeStep nid).memories = s.memories := by
  unfold State.nodeStep
  split <;> simp
@[simp] theorem State.forget_memories (src) : (s.forget src).memories = s.memories := by rfl
@[simp] theorem State.freeRegions_memories (key) : (s.freeRegions key).memories = s.memories := by rfl
@[simp] theorem State.endThread_memories (s : State) (src by_ : Nat) : (s.endThread src by_).memories = s.memories := by
  unfold State.endThread
  extract_lets c part s1 s2 key s3 s4 s5 s6 left s7 s8 s9
  have h1 : s1.memories = s.memories := memories_foldl _ _ _ fun t a => by split <;> simp
  have h2 : s2.memories = s.memories := by simp [s2, h1]
  have h5 : s5.memories = s4.memories := by
    unfold s5
    split
    · simp
    · rfl
  have h9 : s9.memories = s.memories := by simp [s9, s8, s7, s6, h5, s4, s3, h2]
  clear_value s9
  split <;> simp [h9]
@[simp] theorem State.settleMine_memories : s.settleMine.memories = s.memories := by rfl
@[simp] theorem execGsig_keeps : Out.Keeps s.memories (execGsig s) := by
  unfold execGsig
  split <;> simp
@[simp] theorem execGdone_keeps (s : State) : Out.Keeps s.memories (execGdone s) := by
  simp only [execGdone]
  split
  · simp
  split
  · simp
  refine (Out.keeps_next ..).2 <| State.deliverOr_keeps _ _ _ (.refl _) fun t => ?_
  split
  · simp
  exact State.afterPublish_keeps _ _ _ (.refl _) fun u => State.ordered_keeps _ _ (.refl _) fun v => by simp
@[simp] theorem State.failedRecord_memories (part lid) : (s.failedRecord part lid).memories = s.memories := by
  simp [State.failedRecord]
@[simp] theorem State.rejectLaunch_memories (q lid n) : (s.rejectLaunch q lid n).memories = s.memories := by
  simp [State.rejectLaunch]
theorem State.admitLaunch_memories {s t : State} {q : Nat} {b : List Byte} {lid : Nat} (h : s.admitLaunch q b lid = some t) :
    t.memories = s.memories := by
  simp only [State.admitLaunch] at h
  repeat' split at h
  all_goals cases h
  all_goals simp
@[simp] theorem State.countLaunch_memories (q slot u) : (s.countLaunch q slot u).memories = s.memories := by
  simp [State.countLaunch]
@[simp] theorem execLaunchAdmit_keeps (s : State) : Out.Keeps s.memories (execLaunchAdmit s) := by
  simp only [execLaunchAdmit]
  split
  · simp
  split
  next => simp
  next h => simp [State.admitLaunch_memories h]
@[simp] theorem State.glaunchPut_memories (d c) : (s.glaunchPut d c).memories = s.memories := by
  simp only [State.glaunchPut]
  repeat' split
  all_goals simp
@[simp] theorem State.claimSlot_memories (s : State) (q : Nat) (pkt : List Byte) :
    (s.claimSlot q pkt).2.memories = s.memories := by rfl
@[simp] theorem execGlaunch_keeps (d a : Reg) (q : BitVec 10) (s : State) : Out.Keeps s.memories (execGlaunch d a q s) := by
  simp only [execGlaunch]
  split
  · simp
  refine (Out.keeps_next ..).2 <| State.afterAccess_keeps _ _ (.refl _) fun t =>
    State.afterPublish_keeps _ _ _ (.refl _) fun u => ?_
  split
  · simp
  refine State.withSpad_keeps _ _ _ _ (.refl _) fun v => ?_
  repeat' split
  all_goals simp
@[simp] theorem State.startThread_memories (nid r q team ops i src) :
    (s.startThread nid r q team ops i src).memories = s.memories := by
  simp [State.startThread]
@[simp] theorem State.orderPreds_memories (l nid) : (s.orderPreds l nid).memories = s.memories := by simp [State.orderPreds]
@[simp] theorem State.dispatchThreads_memories (part nid q n ops) :
    (s.dispatchThreads part nid q n ops).memories = s.memories := by
  simp only [State.dispatchThreads]
  repeat' split
  all_goals simp
@[simp] theorem State.failDispatch_memories (nid code) : (s.failDispatch nid code).memories = s.memories := by rfl
theorem State.dispatchEngine_keeps {s t : State} {part nid : Nat} {n : Node} {ops : List (Nat × Nat × HMode)}
    (h : s.dispatchEngine part nid n ops = some t) : Keeps s.memories t.memories := by
  unfold State.dispatchEngine at h
  extract_lets r hold ch at h
  have hhold : (hold s).memories = s.memories := by simp [hold]
  clear_value hold
  repeat' split at h
  any_goals cases h
  any_goals simp
  next hsubmit => exact hhold ▸ State.submit_keeps hsubmit
  next => simp [State.relayStart_memories h, hhold]
@[simp] theorem State.poolTick_memories : s.poolTick.memories = s.memories := by rfl
@[simp] theorem execNodeDispatch_keeps (s : State) : Out.Keeps s.memories (execNodeDispatch s) := by
  unfold execNodeDispatch
  extract_lets nid
  split
  · simp
  split
  · simp
  split
  · simp
  extract_lets u
  have hu : u.memories = s.memories := by simp [u]
  clear_value u
  split
  · simp [hu]
  split
  · simp [hu]
  next l _ _ _ n _ _ _ ops _ _ =>
  cases hdispatch : u.dispatchEngine l.part nid n ops with
  | none => simp [hu]
  | some t => simpa [hu] using State.dispatchEngine_keeps hdispatch
theorem State.launchFlag_memories {s t : State} {l : Launch} {src : Nat} (h : s.launchFlag l src = some t) :
    t.memories = s.memories := by
  simp only [State.launchFlag] at h
  repeat' split at h
  all_goals cases h
  · rfl
  next hflag => exact State.engineFlag_memories hflag
  · simp
@[simp] theorem State.dropHeld_memories (part src n) : (s.dropHeld part src n).memories = s.memories := by simp [State.dropHeld]
theorem State.completeNode_memories {s t : State} {nid : Nat} {n : Node} {src : Nat} (h : s.completeNode nid n src = some t) :
    t.memories = s.memories := by
  unfold State.completeNode at h
  extract_lets part a b c at h
  have hc : c.memories = s.memories := by simp [a, b, c]
  clear_value c
  split at h
  · cases h; exact hc
  split at h
  · cases h; exact hc
  · obtain ⟨u, hu, rfl⟩ := Option.map_eq_some_iff.1 h
    simpa using (State.launchFlag_memories hu).trans hc
@[simp] theorem State.nodeFailed_memories (nid) : (s.nodeFailed nid).memories = s.memories := by
  unfold State.nodeFailed
  split <;> simp
@[simp] theorem execNodeCompletion_keeps (s : State) : Out.Keeps s.memories (execNodeCompletion s) := by
  unfold execNodeCompletion
  extract_lets nid
  iterate 2 (split; · simp)
  split
  · simp
  extract_lets fin
  split
  · split
    next h => simp [State.completeNode_memories h]
    next => simp
  · simp
@[simp] theorem execGadd_keeps (d a : Reg) (s : State) : Out.Keeps s.memories (execGadd d a s) := by
  simp only [execGadd]
  iterate 2 (split; · simp)
  refine (Out.keeps_next ..).2 <| State.afterAccess_keeps _ _ (.refl _) fun t =>
    State.withSpad_keeps _ _ _ _ (.refl _) fun u => ?_
  repeat' split
  all_goals simp

-- Debug.

@[simp] theorem State.halt_memories (src) : (s.halt src).memories = s.memories := by simp [State.halt]
@[simp] theorem State.standGo_memories : s.standGo.memories = s.memories := by rfl
@[simp] theorem State.resumeCtx_memories (src step) : (s.resumeCtx src step).memories = s.memories := by simp [State.resumeCtx]
@[simp] theorem State.releaseCtx_keeps (src by_) (h : Keeps m s.memories) : Keeps m (s.releaseCtx src by_).memories := by
  simp [State.releaseCtx, h]

-- Operands.

@[simp] theorem State.cleanRow_memories (d m) : (s.cleanRow d m).memories = s.memories := by
  unfold State.cleanRow
  split <;> simp
@[simp] theorem State.readOps_keeps (g : Nat) (a : Opnd) (b : Option Opnd) (wa wb : Nat) (also : Option Dst)
    (push : List (BitVec 2 × Nat)) (k : List Row → Row → State → State) (h : Keeps m s.memories)
    (hk : ∀ va vb t, Keeps t.memories (k va vb t).memories) : Keeps m (s.readOps g a b wa wb also push k).memories := by
  unfold State.readOps
  extract_lets c needs va vb t
  split
  · simpa using h
  split
  · simpa using h
  split
  · simpa using h
  split
  · simpa using h
  · exact Keeps.trans (by simpa [t] using h) (hk _ _ _)
@[simp] theorem State.pushRow_memories (q v fin) : (s.pushRow q v fin).memories = s.memories := by rfl
@[simp] theorem State.writeVec_memories (d v) : (s.writeVec d v).memories = s.memories := by
  unfold State.writeVec
  split <;> simp
@[simp] theorem State.writeElems_memories (d w l) : (s.writeElems d w l).memories = s.memories := by simp [State.writeElems]

-- The vector unit.

@[simp] theorem vfp2_keeps (op f) : Out.Keeps s.memories (vfp2 op f s) := by simp [vfp2]
@[simp] theorem vfp3_keeps (negate f) : Out.Keeps s.memories (vfp3 negate f s) := by simp [vfp3]
@[simp] theorem vfp1_keeps (op f) : Out.Keeps s.memories (vfp1 op f s) := by simp [vfp1]
@[simp] theorem vbits1_keeps (op f) : Out.Keeps s.memories (vbits1 op f s) := by simp [vbits1]
@[simp] theorem vmov2_keeps (op f) : Out.Keeps s.memories (vmov2 op f s) := by simp [vmov2]
@[simp] theorem vint_keeps (op f) : Out.Keeps s.memories (vint op f s) := by simp [vint]
@[simp] theorem vcmp_keeps (test f) : Out.Keeps s.memories (vcmp test f s) := by simp [vcmp]
@[simp] theorem execVqnt_keeps (f) : Out.Keeps s.memories (execVqnt f s) := by
  simp only [execVqnt]
  repeat' split
  all_goals simp
@[simp] theorem State.writeGroup_memories (s : State) (d : Dst) (i : Nat) (l : List Row) :
    (s.writeGroup d i l).memories = s.memories := by
  induction l generalizing s i with
  | nil => rfl
  | cons v l ih =>
    unfold State.writeGroup
    split <;> simp [ih]
@[simp] theorem State.writeAll_memories (d w c) : (s.writeAll d w c).memories = s.memories := by simp [State.writeAll]
@[simp] theorem vred_keeps (larger f) : Out.Keeps s.memories (vred larger f s) := by simp [vred]
@[simp] theorem vpick_keeps (at_ f) : Out.Keeps s.memories (vpick at_ f s) := by simp [vpick]

-- Strings of cells.

@[simp] theorem State.modStr_memories (part id f) : (s.modStr part id f).memories = s.memories := by rfl
@[simp] theorem State.sendTile_keeps (r up admitTile i t) (h : Keeps m s.memories) :
    Keeps m (s.sendTile r up admitTile i t).memories := by
  unfold State.sendTile
  split <;> simp [h]
@[simp] theorem State.sendFrom_keeps (r : Str) (up admitTile : Bool) (i : Nat) (t : Tile) (k : State → State)
    (h : Keeps m s.memories) (hk : ∀ u, Keeps u.memories (k u).memories) :
    Keeps m (s.sendFrom r up admitTile i t k).memories := by
  have hsend (u : State) : Keeps u.memories (k (u.sendTile r up admitTile i t)).memories := Keeps.trans (by simp) (hk _)
  unfold State.sendFrom
  split
  · simpa using h
  split
  · exact h.trans (hsend s)
  · exact State.withRegions_keeps _ _ _ _ _ h hsend
@[simp] theorem execTileIntoInbox_keeps (s : State) : Out.Keeps s.memories (execTileIntoInbox s) := by
  unfold execTileIntoInbox
  split
  · simp
  next r _ =>
  extract_lets up
  split
  · simp
  next p _ =>
  cases p.link up with
  | nil => simp
  | cons f rest =>
  dsimp -zeta only
  split
  · simp
  split
  · simp
  extract_lets tile put land_ regs own
  have hput (t : State) (a : Nat) : Keeps t.memories (put t a).memories := by simp [put]
  have hland (t : State) (g : Pos → Pos) : Keeps t.memories (land_ t g).memories := by simp [land_, hput]
  have hown (l : List Nat) (f : State → State) (hf : ∀ t, Keeps t.memories (f t).memories) :
      Out.Keeps s.memories (own l f) := by
    simp [own, hf]
  clear_value put land_ own
  split
  · split
    · simp
    · exact hown _ _ fun t => (hput _ _).trans (hland _ _)
  · exact hown _ _ fun t => hland _ _
@[simp] theorem State.showBanks_memories (cell) : (s.showBanks cell).memories = s.memories := by rfl
@[simp] theorem State.giveBack_memories (cell a n) : (s.giveBack cell a n).memories = s.memories := by rfl
@[simp] theorem State.showSlot_memories (cell a n) : (s.showSlot cell a n).memories = s.memories := by rfl
@[simp] theorem State.handlerEnds_keeps (r : Str) (i : Nat) (v : Arrival) (h : Keeps m s.memories) :
    Keeps m (s.handlerEnds r i v).memories := by
  unfold State.handlerEnds
  extract_lets c p s1 forwards s2 s3 fl s4 s5 s6
  have h1 : Keeps m s1.memories := by simp [s1, h]
  have h2 : Keeps m s2.memories := by simp [s2, h1]
  have h5 : s5.memories = s4.memories := by
    unfold s5
    cases v.meet <;> simp
  simp [s6, h5, s4, s3, h2]
@[simp] theorem State.deliverTo_memories (d r i p b) : (s.deliverTo d r i p b).memories = s.memories := by
  simp [State.deliverTo]
@[simp] theorem State.arrv_keeps (d) (h : Keeps m s.memories) : Keeps m (s.arrv d).memories := by
  simp only [State.arrv]
  repeat' split
  all_goals simp [h]
@[simp] theorem State.retryArrv_keeps (h : Keeps m s.memories) : Keeps m s.retryArrv.memories := by
  refine State.retry_keeps _ _ _ h fun i k hk t => ?_
  split at hk <;> cases hk
  simp
@[simp] theorem State.rigString_memories (n b) : (s.rigString n b).memories = s.memories := by simp [State.rigString]
@[simp] theorem execUnrig_keeps (n) : Out.Keeps s.memories (execUnrig n s) := by
  unfold execUnrig
  split <;> simp
@[simp] theorem State.admitTile_keeps (n : BitVec 8) (a b c : Reg) (h : Keeps m s.memories) :
    Keeps m (s.admitTile n a b c).memories := by
  unfold State.admitTile
  split
  · simpa using h
  extract_lets w kind ver v up edge x tag send len
  have hsend (t : State) (rows : List (List Byte)) : Keeps t.memories (send t rows).memories := by simp [send]
  clear_value send
  iterate 5 (split; · simp [h])
  split
  · exact h.trans (hsend _ _)
  split
  · simpa using h
  refine State.afterAccess_keeps _ _ h fun t => State.withSpad_keeps _ _ _ _ (.refl _) fun u => ?_
  split
  · simp
  · exact hsend _ _
@[simp] theorem State.passTile_keeps (up : Option Bool) (mask : BitVec 48) (ok : RigHdr → Bool)
    (rows : State → RigHdr → (State → List (List Byte) → State) → State)
    (h : Keeps m s.memories)
    (hrows : ∀ t hdr k, (∀ u l, Keeps u.memories (k u l).memories) → Keeps t.memories (rows t hdr k).memories) :
    Keeps m (s.passTile up mask ok rows).memories := by
  unfold State.passTile
  split
  · split
    · simpa using h
    split
    · exact h
    · refine h.trans (hrows _ _ _ fun u l => ?_)
      split <;> simp
  · simpa using h
@[simp] theorem execPass_keeps (a : Reg) (up : Bool) (s : State) : Out.Keeps s.memories (execPass a up s) := by
  refine (Out.keeps_next ..).2 <| State.passTile_keeps _ _ _ _ _ (.refl _) fun t hdr k hk =>
    State.withSpad_keeps _ _ _ _ (.refl _) fun u => ?_
  split
  · simp
  · exact hk _ _
@[simp] theorem execMeet_keeps (d) : Out.Keeps s.memories (execMeet d s) := by
  simp only [execMeet]
  repeat' split
  all_goals simp
@[simp] theorem State.repair_keeps (h : Keeps m s.memories) : Keeps m s.repair.memories := by
  unfold State.repair
  split
  · split
    · exact h
    extract_lets p n e put
    split
    · exact h
    extract_lets q
    have hput (bs : List Byte) (t : State) (a : Nat) : Keeps t.memories (put bs t a).memories := by simp [put]
    clear_value put e
    refine State.withRegions_keeps _ _ _ _ _ h fun t => State.withRegions_keeps _ _ _ _ _ (.refl _) fun u => ?_
    cases e with
    | none => exact hput _ _ _
    | some a => exact Keeps.trans (hput _ _ _) (hput _ _ _)
  · exact h

-- The tensor unit.

@[simp] theorem State.setRate_memories (col r) : (s.setRate col r).memories = s.memories := by simp [State.setRate]
@[simp] theorem State.setColumn_memories (col) : (s.setColumn col).memories = s.memories := by simp [State.setColumn]
@[simp] theorem State.rateTick_memories : s.rateTick.memories = s.memories := by simp [State.rateTick]
@[simp] theorem State.asks_memories (cell) : (s.asks cell).memories = s.memories := by rfl
@[simp] theorem State.withTokens_keeps (n : Nat) (k : State → State) (h : Keeps m s.memories)
    (hk : ∀ t, Keeps t.memories (k t).memories) : Keeps m (s.withTokens n k).memories := by
  unfold State.withTokens
  extract_lets t col live
  have ht : Keeps m t.memories := by simpa [t] using h
  split
  · exact ht.trans (hk _)
  · simpa using ht
@[simp] theorem State.spend_memories (n) : (s.spend n).memories = s.memories := by simp [State.spend]
@[simp] theorem State.opRegions_keeps (f : MFmt) (t : Bool) (d : Nat) (at_ : OpAt) (k : State → State) (h : Keeps m s.memories)
    (hk : ∀ t, Keeps t.memories (k t).memories) : Keeps m (s.opRegions f t d at_ k).memories := by
  unfold State.opRegions
  split
  · exact h.trans (hk _)
  · extract_lets l
    split
    · exact State.withRegions_keeps _ _ _ _ _ h hk
    · exact h.trans (hk _)
  · exact State.withRegions_keeps _ _ _ _ _ h hk
@[simp] theorem State.cleanAcc_memories (a) : (s.cleanAcc a).memories = s.memories := by rfl
@[simp] theorem State.kStep_memories (f a b) : (s.kStep f a b).memories = s.memories := by
  simp only [State.kStep]
  repeat' split
  all_goals simp
@[simp] theorem State.mmaBegin_memories (f) : (s.mmaBegin f).memories = s.memories := by simp [State.mmaBegin]
@[simp] theorem State.mma_keeps (f : MmaF) (h : Keeps m s.memories) : Keeps m (s.mma f).memories := by
  unfold State.mma
  rw [memories_ite, keeps_ite]
  refine ⟨fun _ => by simpa using h, fun _ => ?_⟩
  extract_lets t a n
  have ht : Keeps m t.memories := by simpa [t] using h
  split
  · simpa using ht
  refine State.withTokens_keeps _ _ _ ht fun u => ?_
  split
  · exact State.opRegions_keeps _ _ _ _ _ _ (.refl _) fun v => State.opRegions_keeps _ _ _ _ _ _ (.refl _) fun w => by simp
  · simp
  · simp
@[simp] theorem State.afterWake_keeps (k : State → State) (h : Keeps m s.memories) (hk : ∀ t, Keeps t.memories (k t).memories) :
    Keeps m (s.afterWake k).memories := by
  unfold State.afterWake
  split
  · exact h.trans (hk _)
  split
  · simpa using h
  split
  · exact Keeps.trans (by simpa using h) (hk _)
  · simp [h]
@[simp] theorem execKStep_keeps : Out.Keeps s.memories (execKStep s) := by
  simp only [execKStep]
  repeat' split
  all_goals simp
@[simp] theorem State.pushEpi_memories (s : State) (q : BitVec 2) (fuel : Nat) (l : List EpiRow) :
    (s.pushEpi q fuel l).memories = s.memories := by
  induction l generalizing s fuel with
  | nil => cases fuel <;> rfl
  | cons r l ih => cases fuel <;> (simp only [State.pushEpi]; split <;> simp [ih])
@[simp] theorem State.epiSend_keeps (f : EpiF) (rows : List EpiRow) (h : Keeps m s.memories) :
    Keeps m (s.epiSend f rows).memories := by
  unfold State.epiSend
  extract_lets flags bs t
  have hflags (t : State) : (flags t).memories = t.memories := by simp [flags]
  have ht : Keeps m t.memories := State.passTile_keeps _ _ _ _ _ h fun u hdr k hk => hk _ _
  clear_value flags t
  split
  · exact State.withSpad_keeps _ _ _ _ h fun t => by
      rw [hflags]
      exact State.spadWrite_keeps _ _ _ _ _ (.refl _)
  · simp [h]
  · split <;> simp [hflags, ht]
@[simp] theorem State.withBias_keeps (c : Reg) (k : State → State) (h : Keeps m s.memories)
    (hk : ∀ t, Keeps t.memories (k t).memories) : Keeps m (s.withBias c k).memories := by
  unfold State.withBias
  split
  · exact h.trans (hk _)
  refine State.withSpad_keeps _ _ _ _ h fun t => ?_
  split
  · simp
  · exact Keeps.trans (by simp) (hk _)
@[simp] theorem State.epi_keeps (f : EpiF) (h : Keeps m s.memories) : Keeps m (s.epi f).memories := by
  refine State.withBias_keeps _ _ _ h fun t => ?_
  split <;> simp
@[simp] theorem execTileSend_keeps (s : State) : Out.Keeps s.memories (execTileSend s) := by
  unfold execTileSend
  extract_lets src send
  have hsend (e : Entry) (k : State → Out) (hk : ∀ t, Out.Keeps t.memories (k t)) : Out.Keeps s.memories (send e k) := by
    unfold send
    split
    · have := hk (s.beginU src .t e)
      split
      next t ht => simpa [ht] using this
      next => simpa using this
    · simp
  clear_value send
  split
  · split
    · exact hsend _ _ fun t => by simp
    · split
      · exact hsend _ _ fun t => by simp [execEpi]
      · simp
    · simp
  · refine (Out.keeps_next ..).2 (State.retry_keeps _ _ _ (.refl _) fun i k hk t => ?_)
    split at hk <;> cases hk
    · exact State.admitTile_keeps _ _ _ _ _ (.refl _)
    · exact State.arrv_keeps _ _ (.refl _)

-- Pre-emption.

@[simp] theorem State.settleQueues_memories (part) : (s.settleQueues part).memories = s.memories := by simp [State.settleQueues]
@[simp] theorem execQueueSlotMap_keeps : Out.Keeps s.memories (execQueueSlotMap s) := by
  simp only [execQueueSlotMap]
  repeat' split
  all_goals simp
@[simp] theorem State.queueTick_memories : s.queueTick.memories = s.memories := by rfl
@[simp] theorem State.dropSlots_memories : s.dropSlots.memories = s.memories := by rfl
@[simp] theorem State.dropSwaps_memories : s.dropSwaps.memories = s.memories := by rfl
@[simp] theorem State.markStreams_memories : s.markStreams.memories = s.memories := by simp [State.markStreams]
@[simp] theorem State.tick_memories : s.tick.memories = s.memories := by simp [State.tick]
@[simp] theorem State.addPre_memories (part p) : (s.addPre part p).memories = s.memories := by rfl
@[simp] theorem State.modPres_memories (part p f) : (s.modPres part p f).memories = s.memories := by rfl
@[simp] theorem State.endSlice_memories (q) : (s.endSlice q).memories = s.memories := by simp [State.endSlice]
@[simp] theorem State.renewSlice_memories (q) : (s.renewSlice q).memories = s.memories := by rfl
@[simp] theorem State.setPrstat_memories (part v) : (s.setPrstat part v).memories = s.memories := by rfl
@[simp] theorem State.stopCtx_memories (src) : (s.stopCtx src).memories = s.memories := by simp [State.stopCtx]
@[simp] theorem State.stopMembers_memories (part p mode slot) : (s.stopMembers part p mode slot).memories = s.memories := by
  simp [State.stopMembers]
@[simp] theorem State.noSlot_memories (part p q) : (s.noSlot part p q).memories = s.memories := by simp [State.noSlot]
@[simp] theorem State.noRoom_memories (part p) : (s.noRoom part p).memories = s.memories := by
  unfold State.noRoom
  split <;> simp
@[simp] theorem State.preDone_memories (part p mode slot) : (s.preDone part p mode slot).memories = s.memories := by
  simp [State.preDone]
@[simp] theorem execPreemptionStop_keeps : Out.Keeps s.memories (execPreemptionStop s) := by
  simp only [execPreemptionStop]
  repeat' split
  all_goals simp
@[simp] theorem execDrainWindowEnd_keeps : Out.Keeps s.memories (execDrainWindowEnd s) := by
  simp only [execDrainWindowEnd]
  repeat' split
  all_goals simp
@[simp] theorem State.boxesBack_keeps (l) (h : Keeps m s.memories) : Keeps m (s.boxesBack l).memories := by
  simp [State.boxesBack, h]
@[simp] theorem State.saveTeam_memories (part p slot) : (s.saveTeam part p slot).memories = s.memories := by
  simp [State.saveTeam]
@[simp] theorem State.modSlot_memories (part slot f) : (s.modSlot part slot f).memories = s.memories := by rfl
@[simp] theorem State.slotWrite_memories (k off bs) : (s.slotWrite k off bs).memories = s.memories := by rfl
@[simp] theorem State.slotStat_memories (k) : (s.slotStat k).memories = s.memories := by simp [State.slotStat]
@[simp] theorem execSmallStateExchange_keeps (s : State) : Out.Keeps s.memories (execSmallStateExchange s) := by
  unfold execSmallStateExchange
  extract_lets part
  split
  · simp
  extract_lets i t
  have ht : Keeps s.memories t.memories := by simp [t]
  clear_value t
  cases t.slotOf part i <;> simp [ht]
@[simp] theorem execSaveAreaWriteback_keeps : Out.Keeps s.memories (execSaveAreaWriteback s) := by
  unfold execSaveAreaWriteback
  split <;> simp
@[simp] theorem State.regPut_keeps (cell r bs) (h : Keeps m s.memories) : Keeps m (s.regPut cell r bs).memories := by
  simp [State.regPut, h]
@[simp] theorem State.markFlushed_memories (part slot) : (s.markFlushed part slot).memories = s.memories := by
  unfold State.markFlushed
  split <;> simp
@[simp] theorem State.saveRegion_memories (k cell r) : (s.saveRegion k cell r).memories = s.memories := by
  simp [State.saveRegion]
@[simp] theorem State.evict_memories (cell r) : (s.evict cell r).memories = s.memories := by
  unfold State.evict
  split <;> simp
@[simp] theorem execLazyRegionReload_keeps : Out.Keeps s.memories (execLazyRegionReload s) := by
  simp only [execLazyRegionReload]
  repeat' split
  all_goals simp
@[simp] theorem execPrresRestore_keeps : Out.Keeps s.memories (execPrresRestore s) := by
  unfold execPrresRestore
  split <;> simp
@[simp] theorem execPrresFlush_keeps (s : State) : Out.Keeps s.memories (execPrresFlush s) := by
  unfold execPrresFlush
  split
  · simp only [Out.keeps_next, State.markFlushed_memories]
    refine keeps_foldl _ _ _ (.refl _) fun t p => ?_
    split <;> simp
  · simp
@[simp] theorem State.leaveSaved_memories (k) : (s.leaveSaved k).memories = s.memories := by rfl
@[simp] theorem execPrresDiscard_keeps : Out.Keeps s.memories (execPrresDiscard s) := by
  unfold execPrresDiscard
  split <;> simp
@[simp] theorem State.restoreMembers_memories (k) : (s.restoreMembers k).memories = s.memories := by simp [State.restoreMembers]
@[simp] theorem State.restoreMember_memories (k i m) : (s.restoreMember k i m).memories = s.memories := by
  simp [State.restoreMember]
@[simp] theorem State.restoreTeam_memories (k) : (s.restoreTeam k).memories = s.memories := by rfl
@[simp] theorem State.restoreSlot_keeps (k) (h : Keeps m s.memories) : Keeps m (s.restoreSlot k).memories := by
  simp [State.restoreSlot, h]
@[simp] theorem execContextRestore_keeps : Out.Keeps s.memories (execContextRestore s) := by
  unfold execContextRestore
  split <;> simp

-- The host.

@[simp] theorem State.taken_memories (q pa) : (s.taken q pa).memories = s.memories := by rfl
@[simp] theorem State.ringLost_memories (q) : (s.ringLost q).memories = s.memories := by simp [State.ringLost]
@[simp] theorem State.withPacket_keeps (i : Instr) (k : Nat → List Byte → Nat → State) (h : Keeps m s.memories)
    (hk : ∀ q b pa, Keeps m (k q b pa).memories) : Keeps m (s.withPacket i k).memories := by
  unfold State.withPacket
  extract_lets q
  split
  · exact h
  split
  · exact h
  · simp [h]
  · simp [h, hk]
@[simp] theorem execLaunchPacket_keeps (s : State) : Out.Keeps s.memories (execLaunchPacket s) := by
  refine (Out.keeps_next ..).2 <| State.withPacket_keeps _ _ _ (.refl _) fun q b pa => ?_
  simp
@[simp] theorem execCopyreqPacket_keeps (s : State) : Out.Keeps s.memories (execCopyreqPacket s) := by
  refine (Out.keeps_next ..).2 <| State.withPacket_keeps _ _ _ (.refl _) fun q b pa => ?_
  extract_lets part cell ch fail
  have hfail : Keeps s.memories (fail ()).memories := by simp [fail]
  clear_value fail
  split
  · exact hfail
  split
  · simp
  split
  · simp
  · exact hfail
  split
  next h => simpa using State.submit_keeps h
  · exact hfail
  · simp
theorem State.signal_memories {s t : State} {part va v : Nat} (h : s.signal part va v = some (.ok t)) :
    t.memories = s.memories := by
  unfold State.signal at h
  split at h
  · cases h
  · cases h
  · split at h <;> cases h <;> simp
@[simp] theorem State.badPacket_memories (q pa) : (s.badPacket q pa).memories = s.memories := by simp [State.badPacket]
@[simp] theorem execSignalPacket_keeps (s : State) : Out.Keeps s.memories (execSignalPacket s) := by
  refine (Out.keeps_next ..).2 <| State.withPacket_keeps _ _ _ (.refl _) fun q b pa => ?_
  split
  · simp
  next h => simp [State.signal_memories h]
  · simp
@[simp] theorem execFencePacket_keeps (s : State) : Out.Keeps s.memories (execFencePacket s) := by
  refine (Out.keeps_next ..).2 <| State.withPacket_keeps _ _ _ (.refl _) fun q b pa => ?_
  simp
@[simp] theorem execBadpkt_keeps (s : State) : Out.Keeps s.memories (execBadpkt s) := by
  refine (Out.keeps_next ..).2 <| State.withPacket_keeps _ _ _ (.refl _) fun q b pa => ?_
  simp

-- Firmware.

theorem rising_filter (p : Host.Cell → Bool) (m : List Host.Cell) (h : rising m = true) : rising (m.filter p) = true := by
  induction m with
  | nil => rfl
  | cons c t ih =>
    obtain ⟨hc, ht⟩ := (rising_cons _ _).1 h
    rw [List.filter_cons]
    split
    · exact (rising_cons _ _).2 ⟨fun b hb => hc b (List.mem_of_mem_filter hb), ih ht⟩
    · exact ih ht
theorem wf_filter (p : Host.Cell → Bool) (m : List Host.Cell) (h : Memory.wf m = true) : Memory.wf (m.filter p) = true := by
  obtain ⟨hr, hz⟩ := Bool.and_eq_true_iff.1 h
  refine Bool.and_eq_true_iff.2 ⟨rising_filter p m hr, List.all_eq_true.2 fun c hc => ?_⟩
  exact List.all_eq_true.1 hz c (List.mem_of_mem_filter hc)
theorem State.wf_hostMemory (s : State) (h : Memory.wf s.mem = true) : Memory.wf s.hostMemory = true :=
  wf_writeCells _ _ (wf_filter _ _ h)
@[simp] theorem State.boot_keeps (root : List Byte) (service : List Byte) (stagedR : Option (List Byte))
    (stagedS : Option (List Byte)) (h : Keeps m s.memories) : Keeps m (s.boot root service stagedR stagedS).memories :=
  h.imp fun ⟨hmem, _, _⟩ => ⟨s.wf_hostMemory hmem, Memory.wf_nil, Memory.wf_nil⟩
@[simp] theorem State.relayStop_memories (e) : (s.relayStop e).memories = s.memories := by simp [State.relayStop]
@[simp] theorem State.throughMailbox_keeps (src : Nat) (k : State → State) (h : Keeps m s.memories)
    (hk : ∀ t, Keeps t.memories (k t).memories) : Keeps m (s.throughMailbox src k).memories := by
  unfold State.throughMailbox
  extract_lets t
  have ht : t.memories = s.memories := by simp [t]
  clear_value t
  split
  · split
    · exact Keeps.trans (by simpa [ht] using h) (hk _)
    · simpa [ht] using h
  · exact h.trans (hk _)
@[simp] theorem State.configure_memories (n own) : (s.configure n own).memories = s.memories := by simp [State.configure]
@[simp] theorem execPartitionConfigure_keeps (s : State) : Out.Keeps s.memories (execPartitionConfigure s) := by
  unfold execPartitionConfigure
  extract_lets n own
  split
  · simp
  · exact (Out.keeps_next ..).2 <| State.throughMailbox_keeps _ _ _ (.refl _) fun t => by simp
@[simp] theorem State.readTemps_memories (col l) : (s.readTemps col l).memories = s.memories := by rfl
@[simp] theorem State.setWish_memories (col r) : (s.setWish col r).memories = s.memories := by rfl
@[simp] theorem execRateUpdate_keeps (s : State) : Out.Keeps s.memories (execRateUpdate s) := by
  unfold execRateUpdate
  extract_lets col t fw u v fw' w
  split
  · simp
  split
  · exact (Out.keeps_next ..).2 <| State.throughMailbox_keeps _ _ _ (.refl _) fun t => by simp
  have hu : u.memories = s.memories := by simp [t, u]
  have hw : w.memories = s.memories := by simp [v, w, hu]
  clear_value u w
  split <;> simp [hu, hw]
@[simp] theorem State.raiseMinimum_memories (v sig) : (s.raiseMinimum v sig).memories = s.memories := by
  simp [State.raiseMinimum]
@[simp] theorem execPldmRequest_keeps : Out.Keeps s.memories (execPldmRequest s) := by
  simp only [execPldmRequest]
  repeat' split
  all_goals simp
@[simp] theorem State.countCorrected_memories (cell) : (s.countCorrected cell).memories = s.memories := by rfl
@[simp] theorem State.poisonPlace_memories (e) : (s.poisonPlace e).memories = s.memories := by
  unfold State.poisonPlace
  split <;> simp
@[simp] theorem execSoftError_keeps (s : State) : Out.Keeps s.memories (execSoftError s) := by
  unfold execSoftError
  split
  · simp
  · simp
  · simp
  next e _ _ _ => cases errCell e <;> simp

-- The control core.

@[simp] theorem alu2_keeps (f d a b) : Out.Keeps s.memories (alu2 f d a b s) := by simp [alu2]
@[simp] theorem alu1_keeps (f d a) : Out.Keeps s.memories (alu1 f d a s) := by simp [alu1]
@[simp] theorem aluI_keeps (f d a i) : Out.Keeps s.memories (aluI f d a i s) := by simp [aluI]
@[simp] theorem cmp2_keeps (f p a b) : Out.Keeps s.memories (cmp2 f p a b s) := by simp [cmp2]
@[simp] theorem cmpI_keeps (f p a i) : Out.Keeps s.memories (cmpI f p a i s) := by simp [cmpI]
@[simp] theorem logic_keeps (f p a b) : Out.Keeps s.memories (logic f p a b s) := by simp [logic]
@[simp] theorem jumpTo_memories (t) : (jumpTo t s).memories = s.memories := by simp [jumpTo]
@[simp] theorem pushLoop_memories (n off stages) : (pushLoop n off stages s).memories = s.memories := by simp [pushLoop]
@[simp] theorem execLbrk_keeps : Out.Keeps s.memories (execLbrk s) := by
  unfold execLbrk
  split <;> simp
@[simp] theorem execLnext_keeps : Out.Keeps s.memories (execLnext s) := by
  unfold execLnext
  split <;> simp
@[simp] theorem sleepUntil_memories (t) : (sleepUntil t s).memories = s.memories := by rfl
@[simp] theorem execSleepWake_keeps : Out.Keeps s.memories (execSleepWake s) := by
  simp only [execSleepWake]
  repeat' split
  all_goals simp
@[simp] theorem addPfx_memories (dup f) : (addPfx dup f s).memories = s.memories := by
  unfold addPfx
  split <;> simp

-- Traps and system registers.

@[simp] theorem execDrclose_keeps : Out.Keeps s.memories (execDrclose s) := by
  simp only [execDrclose]
  repeat' split
  all_goals simp
@[simp] theorem execRdsys_keeps (d r) : Out.Keeps s.memories (execRdsys d r s) := by
  simp only [execRdsys]
  repeat' split
  all_goals simp

/-- An instruction or event whose function has no rule of its own above is made of the functions that have one. -/
theorem exec_keeps (i : Instr) (s : State) : Out.Keeps s.memories (exec i s) := by
  cases i <;>
    simp [exec, execTrenew, execTrel, execTstat, execRprobe, execLeaseCacheExpiry, execLeaseExpiryPublish, execChangeRecordLapse,
    execLeafUpdateStart, execLeafUpdateCommit, execLds, execSts, execMemoryStorePerformed, execAmoAdd, execAmoMin, execAmoMax,
    execAmoMinu, execAmoMaxu, execAmoAnd, execAmoOr, execAmoXor, execAmoSwap, execAmoCas, execAmosAdd, execAmosMin,
    execAmosMax, execAmosMinu, execAmosMaxu, execAmosAnd, execAmosOr, execAmosXor, execAmosSwap, execAmosCas, execQadv,
    execQstat, execQcfg, execQclr, execLdq, execStq, execLdmq, execStmq, execLdrq, execStrq, execPhase, execLeave, execTeamq,
    execFencex, execFlagw, execHorizonAging, execMopen, execMopenw, execMclose, execMqry, execCopy, execCwait, execCstat,
    execCchk, execCqnoteWrite, execCqwidxWrite, execCfailstClear, execWreg, execWcnt, execLinkDown, execLinkRetrain,
    execSyncFlitSend, execPeerCounterRead, execRwait, execRstat, execRarbHbm, execRarbLink, execExit, execGqry, execHalt,
    execResume, execStep, execAttach, execRelease, execHoldTimeExpiry, execDdataWrite, execBreakpointMatch, execVadd,
    execVsub, execVmul, execVfma, execVfnma, execVmax, execVmin, execVabs, execVneg, execVcpy, execVrcp, execVrsq, execVexp2,
    execVlog2, execVsqrt, execVdiv, execViadd, execVisub, execVimul, execVand, execVor, execVxor, execVshl, execVshr,
    execVsra, execVimin, execVimax, execVcmpEq, execVcmpNe, execVcmpLt, execVcmpLe, execVcmpUn, execVcmpIeq, execVcmpIlt,
    execVcmpIltu, execVcvt, execVdq, execVsum, execVrmax, execVrmin, execVperm, execVrot, execVbcast, execVsel, execVldi,
    execBankExchange, execArrv, execHandlerEnd, execArrivalDelivery, execRig, execAdmitTile, execWver, execWswap, execWstat,
    execMma, execMzero, execMlda, execMsta, execMprog, execMrst, execEpi, execTell, execSliceEnd, execPreqWrite,
    execLazyRegionSave, execHostWrite, execHostRead, execHostFetchAdd, execQnoteWrite, execRegisterWrite, execColdReset,
    execWarmReset, execPowerMeasurement, execSpdmRequest, execFlashUpdate, execNop, execAdd, execSub, execMul, execMulh,
    execMulhu, execDiv, execDivu, execRem, execRemu, execAnd, execOr, execXor, execAndn, execShl, execShr, execSra, execRot,
    execMin, execMax, execMinu, execMaxu, execClz, execPopc, execMadd, execSel, execAddx, execAddi, execAndi, execOri,
    execXori, execShli, execShri, execSrai, execRoti, execLi, execLih, execLiz, execCmpEq, execCmpNe, execCmpLt, execCmpLe,
    execCmpLtu, execCmpLeu, execPand, execPor, execPxor, execPandn, execCmpiEq, execCmpiNe, execCmpiLt, execCmpiLe,
    execCmpiLtu, execCmpiLeu, execMov, execPget, execPput, execVget, execVput, execKeel, execBr, execCall, execJmp, execCallr,
    execRet, execLoop, execLoopp, execYield, execSleept, execSleepd, execXtnd, execLane, execPrio, execTrap, execBrk, execRfe,
    execDropen, execErrq, execWrsys, execEvt, execBlst,
    execPref, execEmptyHint, execUndefinedOpcode]

end

/-- The states that the control core's decision carries. -/
def Ready.Keeps (m : Memories) : Ready → Prop
  | .fault t | .skip t | .run _ t | .send _ _ t => Machine.Keeps m t.memories
  | .fetchMiss | .brk _ | .wait => True

theorem Out.Keeps.of_keeps {m n : Memories} {o : Out} (ho : Out.Keeps n o) (h : Machine.Keeps m n) : Out.Keeps m o := by
  cases o with
  | next t => exact h.trans ho
  | fault r => trivial
  | refused r => trivial

theorem State.ready_keeps (s : State) (src : Nat) : (s.ready src).Keeps s.memories := by
  simp only [State.ready]
  repeat' split
  all_goals simp [Ready.Keeps]

theorem State.choose_memories (s : State) : s.choose.2.memories = s.memories := by
  unfold State.choose
  split <;> simp

theorem andThen_keeps {m : Memories} {o : Out} {f : State → State} (ho : Out.Keeps m o)
    (hf : ∀ t, (f t).memories = t.memories) : Out.Keeps m (andThen o f) := by
  cases o with
  | next t => simpa [andThen, hf] using ho
  | fault r => simp [andThen, Out.Keeps]
  | refused r => simp [andThen, Out.Keeps]

theorem runEvent_keeps (s : State) (i : Instr) (a : EvArg) : Out.Keeps s.memories (runEvent s i a) := exec_keeps i _

theorem unitStep_keeps (s : State) (src : Nat) (u : Unit4) : Out.Keeps s.memories (unitStep s src u) := by
  unfold unitStep
  split
  · simp
  next e _ _ =>
    split
    · exact runEvent_keeps ..
    · refine andThen_keeps ?_ fun t => State.finishU_memories ..
      simpa using exec_keeps e.instr (s.beginU src u e)

theorem frozenBy_keeps {m : Memories} {o : Out} {src : Nat} {t : State} (ho : Out.Keeps m o) (h : frozenBy src o = some t) :
    Keeps m t.memories := by
  unfold frozenBy at h
  split at h
  · split at h <;> cases h
    exact ho
  · cases h

theorem fatalBeside_keeps {s : State} {src : Nat} {u : Unit4} {p : Bool × State} (h : fatalBeside s src u = some p) :
    Keeps s.memories p.2.memories := by
  unfold fatalBeside at h
  extract_lets t at_ loads rows at h
  have ht : t.memories = s.memories := by simp [t]
  have hat {b : Bool} {e : Ev} (h : at_ b e = some p) : Keeps s.memories p.2.memories := by
    obtain ⟨t', ht', rfl⟩ := Option.map_eq_some_iff.1 h
    exact frozenBy_keeps (ht ▸ runEvent_keeps ..) ht'
  clear_value t at_
  simp only [Option.orElse_eq_or, Option.or_eq_some_iff] at h
  obtain h | ⟨-, h | ⟨-, h⟩⟩ := h
  · obtain ⟨e, -, he⟩ := List.exists_of_findSome?_eq_some h
    exact hat he
  · obtain ⟨r, -, hr⟩ := List.exists_of_findSome?_eq_some h
    split at hr
    · exact hat hr
    · cases hr
  · obtain ⟨v, -, hv⟩ := List.exists_of_findSome?_eq_some h
    split at hv
    · obtain ⟨t', ht', rfl⟩ := Option.map_eq_some_iff.1 hv
      exact frozenBy_keeps (ht ▸ unitStep_keeps ..) ht'
    · cases hv

theorem oneCause_keeps {m : Memories} {s : State} {src : Nat} {u : Unit4} {o : Out} (hs : Keeps m s.memories)
    (ho : Out.Keeps m o) : Out.Keeps m (oneCause s src u o) := by
  unfold oneCause
  split
  · next t =>
    split
    next must t' h =>
      have ht' : Keeps s.memories t'.memories := by
        split at h
        · exact fatalBeside_keeps h
        · cases h
      refine (Out.keeps_next ..).2 ?_
      simpa using ⟨fun _ => hs.trans ht', fun _ _ => ho⟩
    · exact ho
  · exact ho

theorem causeStep_keeps (s : State) (i : Instr) (a : EvArg) : Out.Keeps s.memories (causeStep s i a) := by
  unfold causeStep
  split
  iterate 4 exact oneCause_keeps (.refl _) (runEvent_keeps ..)
  exact runEvent_keeps ..

theorem unitNext_keeps (s : State) (src : Nat) (u : Unit4) : Out.Keeps s.memories (unitNext s src u) := by
  unfold unitNext
  extract_lets t
  have ht : t.memories = s.memories := by simp [t]
  split
  · exact oneCause_keeps (by simp [ht]) (ht ▸ unitStep_keeps t src u)
  · simp

theorem issueStep_keeps (s : State) (src : Nat) : Out.Keeps s.memories (issueStep s src) := by
  have h := s.ready_keeps src
  unfold issueStep
  extract_lets pc
  split <;> rename_i hr <;> rw [hr] at h
  · exact runEvent_keeps ..
  · exact runEvent_keeps ..
  · simpa [Ready.Keeps] using h
  · simp
  · simpa [Ready.Keeps] using h
  · exact andThen_keeps ((exec_keeps ..).of_keeps h) fun t => State.finishC_memories ..
  · dsimp only
    split
    · simpa [Ready.Keeps] using h
    · exact (unitNext_keeps ..).of_keeps (by simpa [Ready.Keeps] using h)

theorem retryStep_keeps (s : State) (src : Nat) : Out.Keeps s.memories (retryStep s src) := by
  unfold retryStep
  split
  · next h =>
    refine andThen_keeps ?_ fun t => State.finishC_memories ..
    exact State.goOn_memories h ▸ exec_keeps ..
  · simp

theorem step_keeps (s : State) : Out.Keeps s.memories (step s) := by
  unfold step
  split
  · exact runEvent_keeps ..
  · exact runEvent_keeps ..
  split
  · simp [Out.Keeps]
  split
  · exact causeStep_keeps ..
  have h := s.choose_memories
  split <;> rename_i hc <;> simp only [hc] at h
  · simp [h]
  · exact h ▸ oneCause_keeps (.refl _) (issueStep_keeps ..)
  · exact h ▸ oneCause_keeps (.refl _) (retryStep_keeps ..)
  · exact h ▸ oneCause_keeps (.refl _) (unitStep_keeps ..)
  · exact h ▸ causeStep_keeps ..

/-- Settles O58: every write is byte by byte (`wf_mwrite`), and a boot keeps some of the bytes (`wf_filter`). -/
theorem stepKeepsMemories : Obligations.StepKeepsMemories := fun s _ h hst => ((step_keeps s).next hst).wf h

end Sys2Proof.Machine
end

section
/-! `FENCEX` (R247; O9): what the ordering of a cell's writes and the publishing of a thread's device writes do. -/

namespace Sys2Proof.Machine

-- The ordering of the writes of a granule.

theorem and_or_self_right (a b : BitVec 6) : a &&& (b ||| a) = a := by
  ext i hi
  cases h : a[i] <;> simp [h]

/-- A write that is left in a granule after a marking is one of before, marked. -/
theorem mem_ws_lateMark {f : LateW → LateW} {e₀ e : Nat × Gran} {w : LateW} (he : e ∈ lateMark f [e₀]) (hw : w ∈ e.2.ws) :
    e.1 = e₀.1 ∧ ∃ w₀ ∈ e₀.2.ws, f w₀ = w := by
  obtain rfl := List.mem_singleton.1 (List.mem_of_mem_filter he)
  exact ⟨rfl, List.mem_map.1 (List.mem_of_mem_drop hw)⟩

/-- After `orderKeys` on a range of keys, the accesses of the classes see each of the writes of a granule in the range that the
condition names. -/
theorem seen_orderKeys {lo hi : Nat} {q : LateW → Bool} {cls : BitVec 6} {ags : List Nat} {late : List (Nat × Gran)} :
    ∀ e ∈ orderKeys lo hi q cls ags late, lo ≤ 64 * e.1 → 64 * e.1 < hi → ∀ w ∈ e.2.ws, q w = true → cls &&& w.seen = cls := by
  intro e he hlo hhi w hw hqw
  obtain ⟨e₀, -, he⟩ := List.mem_flatMap.1 he
  split at he
  next =>
    obtain ⟨-, w₀, -, rfl⟩ := mem_ws_lateMark he hw
    split at hqw
    next h => rw [if_pos h]; exact and_or_self_right ..
    next h => exact absurd hqw h
  next hout =>
    obtain rfl := List.mem_singleton.1 he
    simp only [Bool.and_eq_true, decide_eq_true_eq] at hout
    omega

-- The publishing of a thread's device writes of a class.

theorem Ver.byNow_of_ne {v : Ver} {keel src cls : Nat} (h : v.by_ ≠ some (src, cls)) : v.byNow keel src cls = v := if_neg h

@[simp] theorem Ver.byNow_by (v : Ver) (keel src cls : Nat) : (v.byNow keel src cls).by_ = v.by_ := by
  unfold Ver.byNow; split <;> rfl

@[simp] theorem Ver.byNow_bytes (v : Ver) (keel src cls : Nat) :
    ((v.byNow keel src cls).seq, (v.byNow keel src cls).cells) = (v.seq, v.cells) := by
  unfold Ver.byNow; split <;> rfl

theorem Ver.keel_le_of_byNow {v : Ver} {keel src cls : Nat} (hv : v.by_ = some (src, cls)) :
    ∀ p ∈ (v.byNow keel src cls).pubs, p.2.keel ≤ keel := by
  intro p hp
  rw [Ver.byNow, if_pos hv] at hp
  obtain ⟨p₀, -, rfl⟩ := List.mem_map.1 hp
  exact Nat.min_le_right ..

/-- The device writes of a class of the thread, published by now where `on`. -/
def State.settleIf (s : State) (on : Bool) (src cls : Nat) : State := if on then s.settle src cls else s

@[simp] theorem State.settleIf_keel (s : State) (on : Bool) (src cls : Nat) : (s.settleIf on src cls).keel = s.keel := by
  cases on <;> rfl
@[simp] theorem State.settleIf_late (s : State) (on : Bool) (src cls : Nat) : (s.settleIf on src cls).late = s.late := by
  cases on <;> rfl
@[simp] theorem State.settleIf_lateB (s : State) (on : Bool) (src cls : Nat) : (s.settleIf on src cls).lateB = s.lateB := by
  cases on <;> rfl

theorem State.settleIf_bytes (s : State) (on : Bool) (src cls : Nat) :
    (s.settleIf on src cls).vers.map (fun v => (v.seq, v.cells)) = s.vers.map (fun v => (v.seq, v.cells)) := by
  cases on
  · rfl
  · simp [settleIf, settle]

theorem State.keel_le_of_settleIf {s : State} {src cls : Nat} {v : Ver} (hv : v ∈ (s.settleIf true src cls).vers)
    (hby : v.by_ = some (src, cls)) : ∀ p ∈ v.pubs, p.2.keel ≤ s.keel := by
  obtain ⟨v₀, -, rfl⟩ := List.mem_map.1 hv
  exact Ver.keel_le_of_byNow (by simpa using hby)

theorem State.mem_of_mem_settleIf {s : State} {on : Bool} {src cls : Nat} {v : Ver} (hv : v ∈ (s.settleIf on src cls).vers)
    (hby : v.by_ ≠ some (src, cls)) : v ∈ s.vers := by
  cases on
  · exact hv
  · obtain ⟨v₀, hv₀, rfl⟩ := List.mem_map.1 hv
    rw [Ver.byNow_by] at hby
    rwa [Ver.byNow_of_ne hby]

-- The instruction.

/-- What a `FENCEX` leaves that completes. -/
def State.fenceDone (s : State) (frm dst : BitVec 6) : State :=
  ((s.orderLate s.myCell (fenced s.iss.src frm) dst []).settleIf (frm.getLsbD 2) s.iss.src 2).settleIf (frm.getLsbD 3) s.iss.src 3

theorem exec_fencex_of_done {s : State} {frm dst : BitVec 6} (haccess : frm.getLsbD 0 = true → s.accessDone = true)
    (htensor : frm.getLsbD 1 = true → s.me.bufT = []) : exec (.fencex frm dst) s = .next (s.fenceDone frm dst) := by
  have h0 : (frm.getLsbD 0 && !s.accessDone) = false := by simpa using haccess
  have h1 : (frm.getLsbD 1 && !s.me.bufT.isEmpty) = false := by simpa using htensor
  simp only [exec, execFencex, h0, h1, Bool.false_eq_true, if_false, State.fenceDone, State.settleIf]
  cases frm.getLsbD 2 <;> rfl

theorem State.fenceDone_rest (s : State) (frm dst : BitVec 6) : s.fenceDone frm dst =
    { s with vers := (s.fenceDone frm dst).vers, late := (s.fenceDone frm dst).late, lateB := (s.fenceDone frm dst).lateB } := by
  unfold fenceDone settleIf
  split <;> split <;> rfl

theorem State.fenceDone_bytes (s : State) (frm dst : BitVec 6) :
    (s.fenceDone frm dst).vers.map (fun v => (v.seq, v.cells)) = s.vers.map (fun v => (v.seq, v.cells)) := by
  rw [fenceDone, settleIf_bytes, settleIf_bytes]
  rfl

/-- Each device write of the thread has one class, which its own `settle` publishes and the other leaves. -/
theorem State.keel_le_of_fenceDone {s : State} {frm dst : BitVec 6} {v : Ver} (hv : v ∈ (s.fenceDone frm dst).vers)
    (hby : (frm.getLsbD 2 = true ∧ v.by_ = some (s.iss.src, 2)) ∨ (frm.getLsbD 3 = true ∧ v.by_ = some (s.iss.src, 3))) :
    ∀ p ∈ v.pubs, p.2.keel ≤ s.keel := by
  obtain ⟨hon, hby⟩ | ⟨hon, hby⟩ := hby
  · have hv := mem_of_mem_settleIf hv (by simp [hby])
    rw [hon] at hv
    exact keel_le_of_settleIf hv hby
  · rw [fenceDone, hon] at hv
    have hkeel := keel_le_of_settleIf hv hby
    rw [settleIf_keel] at hkeel
    exact hkeel

/-- The writes of the FROM classes in a granule of the cell's scratchpad are seen by the TO classes. -/
theorem State.seen_fenceDone_late (s : State) (frm dst : BitVec 6) : ∀ e ∈ (s.fenceDone frm dst).late,
    spadKey s.myCell 0 ≤ 64 * e.1 → 64 * e.1 < spadKey s.myCell Config.spadBytes → ∀ w ∈ e.2.ws,
      fenced s.iss.src frm w = true → dst &&& w.seen = dst := by
  have hkey : spadKey s.myCell Config.spadBytes = spadKey s.myCell 0 + Config.spadBytes := by simp [spadKey]
  rw [fenceDone, settleIf_late, settleIf_late, hkey]
  exact seen_orderKeys

/-- The same of the cell's banks. -/
theorem State.seen_fenceDone_lateB (s : State) (frm dst : BitVec 6) : ∀ e ∈ (s.fenceDone frm dst).lateB,
    bankKey s.myCell false 0 ≤ 64 * e.1 → 64 * e.1 < bankKey (s.myCell + 1) false 0 → ∀ w ∈ e.2.ws,
      fenced s.iss.src frm w = true → dst &&& w.seen = dst := by
  rw [fenceDone, settleIf_lateB, settleIf_lateB]
  exact seen_orderKeys

/-- Settles O9: `orderLate` shows the FROM classes' writes to the TO classes, and `settle` publishes the thread's device writes. -/
theorem fencePublishes : Obligations.FencePublishes := fun s frm dst haccess htensor =>
  ⟨s.fenceDone frm dst, exec_fencex_of_done haccess htensor, s.fenceDone_rest frm dst, s.seen_fenceDone_late frm dst,
    s.seen_fenceDone_lateB frm dst, s.fenceDone_bytes frm dst, fun _ hv p hp hby => State.keel_le_of_fenceDone hv hby p hp⟩

end Sys2Proof.Machine
end

section
/-! The host's accesses (R239, R381, R382, R384, R385, R407; O49): where the registers lie, what a write of each does, and what the host
reads of memory whose lines it takes. -/

namespace Sys2Proof.Machine

-- Which page an address lies in (R236).

theorem paKind_notify {pa : Nat} (hlo : 0xF00000000000 ≤ pa) (hhi : pa < 0xF00000400000) : paKind pa = .notify := by
  simp only [paKind, Bool.and_eq_true, decide_eq_true_eq]
  rw [if_neg (by omega), if_neg (by omega), if_pos ⟨hlo, hhi⟩]

theorem paKind_device {pa : Nat} (hlo : 0xF00001000000 ≤ pa) (hhi : pa < 0xF00002000000) : paKind pa = .device := by
  simp only [paKind, Bool.and_eq_true, decide_eq_true_eq]
  rw [if_neg (by omega), if_neg (by omega), if_neg (by omega), if_pos ⟨hlo, hhi⟩]

theorem hostReg_eq_false {pa n : Nat} (hn : paKind pa ≠ .notify) (hd : paKind pa ≠ .device) : hostReg pa n = false := by
  simp [hostReg, hn, hd]

theorem hostReg_eq_true {pa n : Nat} (hkind : paKind pa = .device ∨ paKind pa = .notify) (hn : n = 8 ∨ n = 4) (halign : pa % n = 0) :
    hostReg pa n = true := by
  rw [hostReg, devSizeOk_of_aligned hn halign]
  rcases hkind with h | h <;> simp [h]

theorem hostMem_iff {pa n : Nat} : hostMem pa n = true ↔
    (paKind pa = .hbm ∧ paKind (pa + n - 1) = .hbm ∨ paKind pa = .host ∧ paKind (pa + n - 1) = .host) := by
  simp [hostMem]

-- The registers (R241): where each lies.

section
variable (s : State) (src v : Nat) (atomic : Bool)

theorem State.regRead_widx {q : Nat} (hq : q < 1024) : s.regRead (0xF00000000008 + 4096 * q) = (s.queue q).widx := by
  rw [State.regRead, if_pos (paKind_notify (by omega) (by omega)), show (0xF00000000008 + 4096 * q - 0xF00000000000) / 4096 = q by omega,
    show (0xF00000000008 + 4096 * q) % 4096 = 8 by omega]
  rfl

theorem State.regWrite_widx {q : Nat} (hq : q < 1024) : s.regWrite src (0xF00000000008 + 4096 * q) v atomic =
    if atomic || (s.queue q).weight = 0 then s.modQueue q fun u => { u with widx := v } else s := by
  rw [State.regWrite, if_pos (paKind_notify (by omega) (by omega)), show (0xF00000000008 + 4096 * q - 0xF00000000000) / 4096 = q by omega,
    show (0xF00000000008 + 4096 * q) % 4096 = 8 by omega]
  rfl

theorem State.regRead_chan {k off : Nat} (hk : k < 1024) (hoff : off < 256) :
    s.regRead (0xF00001000000 + 256 * k + off) = chanRead (s.chan k) off := by
  rw [State.regRead, paKind_device (by omega) (by omega), if_neg (by decide), if_pos (by omega),
    show (0xF00001000000 + 256 * k + off - 0xF00001000000) / 256 = k by omega, show (0xF00001000000 + 256 * k + off) % 256 = off by omega]

theorem State.regWrite_chan {k off : Nat} (hk : k < 1024) (hoff : off < 256) :
    s.regWrite src (0xF00001000000 + 256 * k + off) v atomic = s.modChan k fun c => chanWrite c off v atomic := by
  rw [State.regWrite, paKind_device (by omega) (by omega), if_neg (by decide), if_pos (by omega),
    show (0xF00001000000 + 256 * k + off - 0xF00001000000) / 256 = k by omega, show (0xF00001000000 + 256 * k + off) % 256 = off by omega]

theorem State.regWrite_part {n off : Nat} (hn : n < 8) (hoff : off < 0x20000) :
    s.regWrite src (0xF00001800000 + 0x20000 * n + off) v atomic = s.partWrite n off v := by
  rw [State.regWrite, paKind_device (by omega) (by omega), if_neg (by decide), if_neg (by omega), if_pos (by simp; omega),
    show (0xF00001800000 + 0x20000 * n + off - 0xF00001800000) / 0x20000 = n by omega,
    show (0xF00001800000 + 0x20000 * n + off) % 0x20000 = off by omega]

theorem State.regWrite_holdlim : s.regWrite src 0xF00001C40400 v atomic = if src = 2080 then { s with holdlim := v } else s := rfl

theorem State.devRead_eight {pa : Nat} (h : pa % 8 = 0) : s.devRead pa 8 = s.regRead pa := by
  rw [State.devRead, if_pos rfl, show pa / 8 * 8 = pa by omega]

theorem State.devStore_eight {pa : Nat} (h : pa % 8 = 0) : s.devStore src pa 8 v atomic = s.regWrite src pa v atomic := by
  rw [State.devStore, if_pos rfl, show pa / 8 * 8 = pa by omega]

end

-- The lines that the host takes (R239): what it reads of them is as before.

/-- A change of a version that the host does not see: its bytes, its poison and its rank for the host stay. -/
structure KeepsRead (vw : Viewer) (f : Ver → Ver) : Prop where
  cells : ∀ v, (f v).cells = v.cells
  psn : ∀ v, (f v).psn = v.psn
  rank : ∀ v, (f v).rank vw = v.rank vw

theorem bestVer_map {vw : Viewer} {f : Ver → Ver} (hf : KeepsRead vw f) (a : Nat) (vs : List Ver) (b : Option ((Nat × Nat × Nat) × Ver)) :
    bestVer (fun v => v.rank vw) a (vs.map f) (b.map fun p => (p.1, f p.2)) =
      (bestVer (fun v => v.rank vw) a vs b).map fun p => (p.1, f p.2) := by
  induction vs generalizing b with
  | nil => rfl
  | cons v vs ih =>
    simp only [List.map_cons, bestVer, hf.cells, hf.rank]
    cases tfind v.cells a with
    | none => exact ih b
    | some x =>
      cases v.rank vw with
      | none => exact ih b
      | some r =>
        cases b with
        | none => exact ih (some (r, v))
        | some p =>
          rw [← ih]
          simp only [Option.map_some]
          split <;> rfl

section
variable (s : State) {vw : Viewer} {f : Ver → Ver} (hf : KeepsRead vw f) (a : Nat)
include hf

theorem State.loadVer_map : ({ s with vers := s.vers.map f } : State).loadVer vw a = (s.loadVer vw a).map f := by
  have h := bestVer_map hf a s.vers none
  simp only [Option.map_none] at h
  rw [State.loadVer, State.loadVer, h, Option.map_map, Option.map_map]
  rfl

theorem State.loadByte_map : ({ s with vers := s.vers.map f } : State).loadByte vw a = s.loadByte vw a := by
  rw [State.loadByte, State.loadByte, s.loadVer_map hf]
  cases s.loadVer vw a <;> simp [State.byteOf, hf.cells]

theorem State.psnOf_loadVer_map : ({ s with vers := s.vers.map f } : State).psnOf
    (({ s with vers := s.vers.map f } : State).loadVer vw a) a = s.psnOf (s.loadVer vw a) a := by
  rw [s.loadVer_map hf]
  cases s.loadVer vw a <;> simp [State.psnOf, hf.psn]

end

theorem State.loadBytes_map (s : State) {vw : Viewer} {f : Ver → Ver} (hf : KeepsRead vw f) (part pa n : Nat) :
    ({ s with vers := s.vers.map f } : State).loadBytes vw part pa n = s.loadBytes vw part pa n :=
  List.map_congr_left fun a _ => s.loadByte_map hf a

theorem State.loadPoisoned_map (s : State) {vw : Viewer} {f : Ver → Ver} (hf : KeepsRead vw f) (part pa n : Nat) :
    ({ s with vers := s.vers.map f } : State).loadPoisoned vw part pa n = s.loadPoisoned vw part pa n :=
  congrArg (List.any _) (funext (s.psnOf_loadVer_map hf))

theorem State.loseLines_eq (s : State) (pa n due : Nat) :
    ∃ f, (∀ vw, KeepsRead vw f) ∧ s.loseLines pa n due = { s with vers := s.vers.map f } := by
  unfold State.loseLines
  split
  · exact ⟨id, fun _ => ⟨fun _ => rfl, fun _ => rfl, fun _ => rfl⟩, by rw [List.map_id]⟩
  · refine ⟨_, fun vw => ⟨fun v => ?_, fun v => ?_, fun v => ?_⟩, rfl⟩
    all_goals split <;> rfl

-- The host's instructions, case by case.

section
variable {s : State}

theorem exec_hostWrite_memory (hon : s.fw.recovery = false) (hn : 0 < s.arg.bytes.length)
    (hmem : paKind s.arg.a = .hbm ∧ paKind (s.arg.a + s.arg.bytes.length - 1) = .hbm ∨
      paKind s.arg.a = .host ∧ paKind (s.arg.a + s.arg.bytes.length - 1) = .host) :
    exec .hostWrite s = .next ((s.loseLines s.arg.a s.arg.bytes.length (s.keel + 3000)).hostWriteMem s.arg.a s.arg.bytes) := by
  have hreg : hostReg s.arg.a s.arg.bytes.length = false := by
    obtain ⟨h, -⟩ | ⟨h, -⟩ := hmem <;> exact hostReg_eq_false (by simp [h]) (by simp [h])
  simp [exec, execHostWrite, hon, List.ne_nil_of_length_pos hn, hreg, hostMem_iff.2 hmem, classBound]

theorem exec_hostWrite_register (hon : s.fw.recovery = false) (hkind : paKind s.arg.a = .device ∨ paKind s.arg.a = .notify)
    (hn : s.arg.bytes.length = 8) (halign : s.arg.a % 8 = 0) :
    exec .hostWrite s = .next (s.regWrite 2056 s.arg.a (leVal s.arg.bytes) false) := by
  have hne : s.arg.bytes ≠ [] := List.ne_nil_of_length_pos (by omega)
  simp [exec, execHostWrite, hon, hne, hn, hostReg_eq_true hkind (.inl rfl) halign, State.devStore_eight _ _ _ _ halign]

theorem exec_hostWrite_unsupported (hon : s.fw.recovery = false)
    (hkind : paKind s.arg.a = .inter ∨ paKind s.arg.a = .peer ∨ paKind s.arg.a = .nothing) (hne : s.arg.bytes ≠ []) :
    exec .hostWrite s = .next (s.emit .unsupported) := by
  rcases hkind with h | h | h <;> simp [exec, execHostWrite, hon, hne, hostReg, hostMem, h]

theorem exec_hostRead_memory (hon : s.fw.recovery = false) (hn : 0 < s.arg.b)
    (hmem : paKind s.arg.a = .hbm ∧ paKind (s.arg.a + s.arg.b - 1) = .hbm ∨
      paKind s.arg.a = .host ∧ paKind (s.arg.a + s.arg.b - 1) = .host) :
    exec .hostRead s = .next ((s.loseLines s.arg.a s.arg.b (s.keel + 3000)).emit
      (if s.loadPoisoned s.hostView 0 s.arg.a s.arg.b then .poison else .data (s.loadBytes s.hostView 0 s.arg.a s.arg.b))) := by
  have hreg : hostReg s.arg.a s.arg.b = false := by
    obtain ⟨h, -⟩ | ⟨h, -⟩ := hmem <;> exact hostReg_eq_false (by simp [h]) (by simp [h])
  simp [exec, execHostRead, hon, hn.ne', hreg, hostMem_iff.2 hmem, classBound]

theorem exec_hostRead_register (hon : s.fw.recovery = false) (hkind : paKind s.arg.a = .device ∨ paKind s.arg.a = .notify)
    (hn : s.arg.b = 8 ∨ s.arg.b = 4) (halign : s.arg.a % s.arg.b = 0) :
    exec .hostRead s = .next (s.emit (.data (leBytes s.arg.b (s.devRead s.arg.a s.arg.b)))) := by
  have hne : s.arg.b ≠ 0 := by omega
  simp [exec, execHostRead, hon, hne, hostReg_eq_true hkind hn halign]

theorem exec_hostRead_unsupported (hon : s.fw.recovery = false) (hn : 0 < s.arg.b)
    (hkind : paKind s.arg.a = .inter ∨ paKind s.arg.a = .peer ∨ paKind s.arg.a = .nothing) :
    exec .hostRead s = .next (s.emit .unsupported) := by
  rcases hkind with h | h | h <;> simp [exec, execHostRead, hon, hn.ne', hostReg, hostMem, h]

/-- A FetchAdd of 64 bits on an index register (R381). -/
theorem exec_hostFetchAdd_index (hon : s.fw.recovery = false) (hop : s.arg.b = 0) (hsize : s.arg.c = 0)
    (haddr : paKind s.arg.a = .notify ∧ s.arg.a % 4096 = 8 ∨
      0xF00001000000 ≤ s.arg.a ∧ s.arg.a < 0xF00001040000 ∧ s.arg.a % 256 = 0x10) :
    exec .hostFetchAdd s = .next ((s.regWrite 2056 s.arg.a ((s.regRead s.arg.a + s.arg.w.toNat) % 2 ^ 64) true).emit
      (.data (leBytes 8 (s.regRead s.arg.a)))) := by
  obtain ⟨h1, h2⟩ | ⟨h1, h2, h3⟩ := haddr <;> simp [exec, execHostFetchAdd, *]

theorem exec_registerWrite_reached (hon : s.fw.recovery = false) (hreach : firmwareReach s.arg.c s.arg.a = true)
    (hkind : paKind s.arg.a = .device ∨ paKind s.arg.a = .notify) (hn : s.arg.b = 8) (halign : s.arg.a % 8 = 0) :
    exec .registerWrite s = .next (s.regWrite s.arg.c s.arg.a s.arg.w.toNat false) := by
  have hsize := devSizeOk_of_aligned (.inl rfl) halign
  rcases hkind with h | h <;> simp [exec, execRegisterWrite, hon, hreach, h, hn, hsize, State.devStore_eight _ _ _ _ halign]

theorem exec_registerWrite_ignored (hon : s.fw.recovery = false)
    (h : firmwareReach s.arg.c s.arg.a = false ∨ devSizeOk s.arg.a s.arg.b = false) : exec .registerWrite s = .next s := by
  rcases h with h | h <;> simp [exec, execRegisterWrite, hon, h]

end

-- The sources that reach a register (R268, R408).

theorem firmwareReach_partition {src pa : Nat} (hlo : 0xF00001800000 ≤ pa) (hhi : pa < 0xF00001C40000) : firmwareReach src pa = true := by
  unfold firmwareReach
  split_ifs <;> simp <;> omega

theorem firmwareReach_low {src pa : Nat} (hsrc : src = 2080 ∨ src = 2081) (hpa : pa < 0xF00001800000) : firmwareReach src pa = false := by
  rcases hsrc with rfl | rfl <;> simp [firmwareReach] <;> omega

theorem firmwareReach_other {src pa : Nat} (h : src ≠ 2080) (h' : src ≠ 2081) : firmwareReach src pa = true := by
  simp [firmwareReach, h, h']

-- A register of a partition, and the control block of a queue (R384, R385).

theorem exec_registerWrite_partition {s : State} {n off : Nat} (hn : n < 8) (hoff : off < 0x20000) (halign : off % 8 = 0)
    (hon : s.fw.recovery = false) (hsize : s.arg.b = 8) (haddr : s.arg.a = 0xF00001800000 + 0x20000 * n + off) :
    exec .registerWrite s = .next (s.partWrite n off s.arg.w.toNat) := by
  rw [exec_registerWrite_reached hon (firmwareReach_partition (by omega) (by omega)) (.inl (paKind_device (by omega) (by omega))) hsize
    (by omega), haddr, State.regWrite_part _ _ _ _ hn hoff]

theorem tget_map_snd {α : Type} {d : α} {f : α → α} (hd : f d = d) (l : List (Nat × α)) (n : Nat) :
    tget d (l.map fun e => (e.1, f e.2)) n = f (tget d l n) := by
  induction l with
  | nil => exact hd.symm
  | cons e l ih =>
    simp only [List.map_cons, tget, ih]
    split <;> rfl

/-- The ceiling of a queue holds the threads of that queue, and no other. -/
theorem State.ctx_withinQueue (s : State) (q m : Nat) : (s.withinQueue q).ctx m =
    if s.queueOf (s.ctx m) = some q then (s.ctx m).within (s.queue q).ceiling else s.ctx m := by
  have hmap : (fun e : Nat × Ctx => if s.queueOf e.2 = some q then (e.1, e.2.within (s.queue q).ceiling) else e) =
      fun e => (e.1, if s.queueOf e.2 = some q then e.2.within (s.queue q).ceiling else e.2) := by
    funext e
    split <;> rfl
  have hfree : s.queueOf {} ≠ some q := nofun
  unfold State.withinQueue State.ctx
  simp only [hmap]
  exact tget_map_snd (f := fun c => if s.queueOf c = some q then c.within (s.queue q).ceiling else c) (if_neg hfree) s.ctxs m

theorem ofNat_bitsOf_eq_extractLsb' (w : Word) : BitVec.ofNat 3 (bitsOf w.toNat 8 3) = w.extractLsb' 8 3 := by
  apply BitVec.eq_of_toNat_eq
  simp [bitsOf, Nat.shiftRight_eq_div_pow]

theorem State.partWrite_weight {s : State} {n q : Nat} (v : Nat) (hn : n < s.nparts) (hown : s.partOfQueue q = n) :
    s.partWrite n (0x10010 + 64 * q) v = (s.modQueue q fun u => qcbWrite u 0x10 v).withinQueue q := by
  have hq : (0x10010 + 64 * q - 0x10000) / 64 = q := by omega
  have hoff : (0x10010 + 64 * q) % 64 = 0x10 := by omega
  unfold State.partWrite
  rw [if_neg (by omega)]
  split
  any_goals omega
  rw [if_neg (by simp; omega), if_pos (by omega)]
  simp only [hq, hoff, hown, if_true]

/-- A write of 8 bytes at `off` of a partition's page changes the registers of that partition by `f`, and nothing else. -/
def State.PartTakes (s : State) (n off : Nat) (f : Part → Part) : Prop :=
  s.arg.a = 0xF00001800000 + 0x20000 * n + off → ∃ t, exec .registerWrite s = .next t ∧ t = { s with parts := t.parts } ∧
    t.part n = f (s.part n) ∧ ∀ m, m ≠ n → t.part m = s.part m

theorem State.partTakes_of_partWrite {s : State} {n off : Nat} {f : Part → Part} (hn : n < 8) (hon : s.fw.recovery = false)
    (hsize : s.arg.b = 8) (hoff : off < 0x20000) (halign : off % 8 = 0) (hw : s.partWrite n off s.arg.w.toNat = s.modPart n f) :
    s.PartTakes n off f := by
  intro haddr
  rw [exec_registerWrite_partition hn hoff halign hon hsize haddr, hw]
  exact ⟨_, rfl, rfl, by simp, fun m hm => by simp [hm.symm]⟩

theorem registerWrite_of_readOnly {s : State} {n off : Nat} (hn : n < 8) (hon : s.fw.recovery = false) (hsize : s.arg.b = 8)
    (haddr : s.arg.a = 0xF00001800000 + 0x20000 * n + off) (hoff : off < 0x20000) (halign : off % 8 = 0)
    (hw : s.partWrite n off s.arg.w.toNat = s) : exec .registerWrite s = .next s := by
  rw [exec_registerWrite_partition hn hoff halign hon hsize haddr, hw]

-- The clauses of O49, one by one.

section
variable {s : State}

theorem hostWrite_of_memory (hon : s.fw.recovery = false) (hn : 0 < s.arg.bytes.length)
    (hmem : paKind s.arg.a = .hbm ∧ paKind (s.arg.a + s.arg.bytes.length - 1) = .hbm ∨
      paKind s.arg.a = .host ∧ paKind (s.arg.a + s.arg.bytes.length - 1) = .host) :
    ∃ t v, exec .hostWrite s = .next t ∧
      t = { s with seq := t.seq, vers := (s.loseLines s.arg.a s.arg.bytes.length (s.keel + 3000)).vers ++ [v] } ∧
      v.src = 2056 ∧ v.pubs = [(.sys, ⟨s.keel, 2056⟩)] ∧ v.cells = (s.addrs 0 s.arg.a s.arg.bytes.length).zip s.arg.bytes := by
  obtain ⟨f, -, hlines⟩ := s.loseLines_eq s.arg.a s.arg.bytes.length (s.keel + 3000)
  rw [exec_hostWrite_memory hon hn hmem, hlines]
  exact ⟨_, _, rfl, rfl, rfl, rfl, rfl⟩

theorem hostRead_of_memory (hon : s.fw.recovery = false) (hn : 0 < s.arg.b)
    (hmem : paKind s.arg.a = .hbm ∧ paKind (s.arg.a + s.arg.b - 1) = .hbm ∨
      paKind s.arg.a = .host ∧ paKind (s.arg.a + s.arg.b - 1) = .host) :
    let s' := s.loseLines s.arg.a s.arg.b (s.keel + 3000)
    exec .hostRead s = .next { s' with outbox := s.outbox ++
      [if s'.loadPoisoned s'.hostView 0 s.arg.a s.arg.b then .poison else .data (s'.loadBytes s'.hostView 0 s.arg.a s.arg.b)] } := by
  obtain ⟨f, hf, hlines⟩ := s.loseLines_eq s.arg.a s.arg.b (s.keel + 3000)
  dsimp only
  rw [exec_hostRead_memory hon hn hmem, hlines, s.loadPoisoned_map (hf _), s.loadBytes_map (hf _)]
  rfl

theorem hostFetchAdd_of_widx {q : Nat} (hq : q < 1024) (hon : s.fw.recovery = false) (ha : s.arg.a = 0xF00000000008 + 4096 * q)
    (hop : s.arg.b = 0) (hsize : s.arg.c = 0) : ∃ t, exec .hostFetchAdd s = .next t ∧
      t = { s with queues := t.queues, outbox := s.outbox ++ [.data (leBytes 8 (s.queue q).widx)] } ∧
      t.queue q = { s.queue q with widx := ((s.queue q).widx + s.arg.w.toNat) % 2 ^ 64 } ∧ ∀ r, r ≠ q → t.queue r = s.queue r := by
  rw [exec_hostFetchAdd_index hon hop hsize (.inl ⟨paKind_notify (by omega) (by omega), by omega⟩), ha, s.regRead_widx hq,
    s.regWrite_widx _ _ _ hq, Bool.true_or, if_pos rfl]
  exact ⟨_, rfl, rfl, by simp, fun r hr => by simp [hr.symm]⟩

theorem hostFetchAdd_of_cqwidx {k : Nat} (hk : k < 1024) (hon : s.fw.recovery = false) (ha : s.arg.a = 0xF00001000010 + 256 * k)
    (hop : s.arg.b = 0) (hsize : s.arg.c = 0) : ∃ t, exec .hostFetchAdd s = .next t ∧
      t = { s with chans := t.chans, outbox := s.outbox ++ [.data (leBytes 8 (s.chan k).widx)] } ∧
      t.chan k = { s.chan k with widx := ((s.chan k).widx + s.arg.w.toNat) % 2 ^ 64 } ∧ ∀ r, r ≠ k → t.chan r = s.chan r := by
  have ha' : s.arg.a = 0xF00001000000 + 256 * k + 0x10 := by omega
  rw [exec_hostFetchAdd_index hon hop hsize (.inr ⟨by omega, by omega, by omega⟩), ha', s.regRead_chan hk (by decide),
    s.regWrite_chan _ _ _ hk (by decide)]
  exact ⟨_, rfl, rfl, by simp [chanWrite, Chan.writeWidx, chanRead], fun r hr => by simp [hr.symm]⟩

theorem hostFetchAdd_unsupported (h : paKind s.arg.a = .hbm ∨ paKind s.arg.a = .host ∨ s.arg.b ≠ 0 ∨ s.arg.c ≠ 0) :
    exec .hostFetchAdd s = .next (s.emit .unsupported) := by
  have hchan : 0xF00001000000 ≤ s.arg.a → s.arg.a < 0xF00001040000 → paKind s.arg.a = .device :=
    fun hlo hhi => paKind_device hlo (by omega)
  rcases h with h | h | h | h <;> simp_all [exec, execHostFetchAdd]

theorem hostWrite_of_widx {q : Nat} (hq : q < 1024) (hon : s.fw.recovery = false) (ha : s.arg.a = 0xF00000000008 + 4096 * q)
    (hn : s.arg.bytes.length = 8) : exec .hostWrite s =
      .next (if (s.queue q).weight = 0 then s.modQueue q fun u => { u with widx := leVal s.arg.bytes } else s) := by
  rw [exec_hostWrite_register hon (.inr (paKind_notify (by omega) (by omega))) hn (by omega), ha, s.regWrite_widx _ _ _ hq]
  simp

theorem registerWrite_of_widx {q : Nat} (hq : q < 1024) (hon : s.fw.recovery = false) (hn : s.arg.b = 8)
    (ha : s.arg.a = 0xF00000000008 + 4096 * q) (h0 : s.arg.c ≠ 2080) (h1 : s.arg.c ≠ 2081) : exec .registerWrite s =
      .next (if (s.queue q).weight = 0 then s.modQueue q fun u => { u with widx := s.arg.w.toNat } else s) := by
  rw [exec_registerWrite_reached hon (firmwareReach_other h0 h1) (.inr (paKind_notify (by omega) (by omega))) hn (by omega), ha,
    s.regWrite_widx _ _ _ hq]
  simp

theorem hostRead_of_eight (hon : s.fw.recovery = false) (hkind : paKind s.arg.a = .device ∨ paKind s.arg.a = .notify) (hn : s.arg.b = 8)
    (halign : s.arg.a % 8 = 0) : exec .hostRead s = .next (s.emit (.data (leBytes 8 (s.regRead s.arg.a)))) := by
  rw [exec_hostRead_register hon hkind (.inl hn) (by rw [hn]; exact halign), hn, s.devRead_eight halign]

theorem hostWrite_of_cqbase {k : Nat} (hk : k < 1024) (hon : s.fw.recovery = false) (ha : s.arg.a = 0xF00001000000 + 256 * k)
    (hn : s.arg.bytes.length = 8) : exec .hostWrite s =
      .next (s.modChan k fun c => chanWrite c 0 (leVal s.arg.bytes) false) := by
  rw [exec_hostWrite_register hon (.inl (paKind_device (by omega) (by omega))) hn (by omega), ha]
  exact congrArg _ (s.regWrite_chan _ _ _ hk (off := 0) (by decide))

theorem registerWrite_of_weight {n q : Nat} (hn : n < s.nparts) (hn8 : n < 8) (hq : q < 1024) (hown : s.partOfQueue q = n)
    (hon : s.fw.recovery = false) (hb : s.arg.b = 8) (ha : s.arg.a = 0xF00001810010 + 0x20000 * n + 64 * q) :
    ∃ t, exec .registerWrite s = .next t ∧ t = { s with queues := t.queues, ctxs := t.ctxs, slots := t.slots } ∧
      t.queue q = { s.queue q with weight := s.arg.w.toNat % 256, ceiling := s.arg.w.extractLsb' 8 3 } ∧
      ∀ m, (s.queueOf (s.ctx m) ≠ some q → t.ctx m = s.ctx m) ∧
        (s.queueOf (s.ctx m) = some q → t.ctx m = (s.ctx m).within (s.arg.w.extractLsb' 8 3)) := by
  have hqueue : (s.modQueue q fun u => qcbWrite u 0x10 s.arg.w.toNat).queue q = qcbWrite (s.queue q) 0x10 s.arg.w.toNat :=
    (s.queue_modQueue ..).trans (if_pos rfl)
  rw [exec_registerWrite_partition (off := 0x10010 + 64 * q) hn8 (by omega) (by omega) hon hb (by omega), State.partWrite_weight _ hn hown,
    ← ofNat_bitsOf_eq_extractLsb']
  refine ⟨_, rfl, rfl, hqueue, fun m => ⟨fun h => ?_, fun h => ?_⟩⟩
  · exact (State.ctx_withinQueue ..).trans (if_neg h)
  · rw [State.ctx_withinQueue, hqueue]
    exact if_pos h

theorem hostRead_of_cqbase {k : Nat} (hk : k < 1024) (hon : s.fw.recovery = false) (ha : s.arg.a = 0xF00001000000 + 256 * k)
    (hn : s.arg.b = 8) : exec .hostRead s = .next (s.emit (.data (leBytes 8 (s.chan k).base))) := by
  have hread : s.regRead s.arg.a = (s.chan k).base := ha ▸ s.regRead_chan hk (off := 0) (by decide)
  rw [hostRead_of_eight hon (.inl (paKind_device (by omega) (by omega))) hn (by omega), hread]

theorem hostRead_of_widx {q : Nat} (hq : q < 1024) (hon : s.fw.recovery = false) (ha : s.arg.a = 0xF00000000008 + 4096 * q)
    (hn : s.arg.b = 8) : exec .hostRead s = .next (s.emit (.data (leBytes 8 (s.queue q).widx))) := by
  rw [hostRead_of_eight hon (.inr (paKind_notify (by omega) (by omega))) hn (by omega), ha, s.regRead_widx hq]

theorem registerWrite_of_badSize (hon : s.fw.recovery = false) (h : s.arg.a % s.arg.b ≠ 0 ∨ s.arg.b ≠ 4 ∧ s.arg.b ≠ 8) :
    exec .registerWrite s = .next s := by
  refine exec_registerWrite_ignored hon (.inr ?_)
  simp only [devSizeOk, Bool.and_eq_false_iff, Bool.or_eq_false_iff, decide_eq_false_iff_not]
  exact h.symm

/-- Root firmware alone writes HOLDLIM (R406). -/
theorem registerWrite_of_holdlim (hon : s.fw.recovery = false) (ha : s.arg.a = 0xF00001C40400) (hb : s.arg.b = 8) :
    exec .registerWrite s = .next (if s.arg.c = 2080 then { s with holdlim := s.arg.w.toNat } else s) := by
  by_cases h : s.arg.c = 2081
  · rw [if_neg (by omega)]
    exact exec_registerWrite_ignored hon (.inl (by simp [firmwareReach, h, ha]))
  · have hreach : firmwareReach s.arg.c s.arg.a = true := by simp [firmwareReach, h, ha]
    rw [exec_registerWrite_reached hon hreach (.inl (by rw [ha]; rfl)) hb (by rw [ha]), ha, s.regWrite_holdlim]

/-- The registers of R384 that take bits of a write, and those that software cannot write. -/
theorem registerWrite_of_partition {n : Nat} (hn : n < s.nparts) (hn8 : n < 8) (hon : s.fw.recovery = false) (hb : s.arg.b = 8) :
    let v := s.arg.w.toNat
    let page := 0xF00001800000 + 0x20000 * n
    s.PartTakes n 0x008 (fun p => { p with ptroot := bitsOf v 16 36 * 2 ^ 16 }) ∧
    s.PartTakes n 0x010 (fun p => { p with stvec := bitsOf v 3 61 * 8 }) ∧
    s.PartTakes n 0x018 (fun p => { p with pdisc := v % 2 ^ 16 }) ∧
    s.PartTakes n 0x030 (fun p => { p with nrbase := bitsOf v 5 51 * 32 }) ∧
    s.PartTakes n 0x048 (fun p => { p with nrridx := v }) ∧
    s.PartTakes n 0x080 (fun p => { p with sabase := bitsOf v 16 36 * 2 ^ 16 }) ∧
    s.PartTakes n 0x0A0 (fun p => { p with prdl := v }) ∧
    (s.arg.a = page ∨ s.arg.a = page + 0x098 ∨ s.arg.a = page + 0x0B0 → exec .registerWrite s = .next s) := by
  refine ⟨?_, ?_, ?_, ?_, ?_, ?_, ?_, fun ha => ?_⟩
  iterate 7 exact State.partTakes_of_partWrite hn8 hon hb (by decide) (by decide) (if_neg hn.not_ge)
  obtain ha | ha | ha := ha
  · exact registerWrite_of_readOnly (off := 0) hn8 hon hb ha (by decide) (by decide) (if_neg hn.not_ge)
  · exact registerWrite_of_readOnly hn8 hon hb ha (by decide) (by decide) (if_neg hn.not_ge)
  · exact registerWrite_of_readOnly hn8 hon hb ha (by decide) (by decide) (if_neg hn.not_ge)

/-- In recovery every request but the read of the status word is unsupported (R407). -/
theorem exec_in_recovery (hon : s.fw.recovery = true) : exec .hostWrite s = .next (s.emit .unsupported) ∧
    exec .hostFetchAdd s = .next (s.emit .unsupported) ∧ exec .registerWrite s = .next (s.emit .unsupported) ∧
    exec .hostRead s = .next (s.emit (s.recoveryRead s.arg.a s.arg.b)) := by
  simp [exec, execHostWrite, execHostFetchAdd, execRegisterWrite, execHostRead, hon]

theorem recoveryRead_other {pa n : Nat} (h : pa ≠ Config.statusAddr ∨ n ≠ 8) : s.recoveryRead pa n = .unsupported := by
  rcases h with h | h <;> simp [State.recoveryRead, h]

end

/-- Settles O49: the register that an address names, what it takes of a write, and memory as the host finds it. -/
theorem hostAccesses : Obligations.HostAccesses := by
  unfold Obligations.HostAccesses
  dsimp only
  refine ⟨fun s => hostWrite_of_memory, fun s => hostRead_of_memory, ?_, fun s q => hostFetchAdd_of_widx,
    fun s k => hostFetchAdd_of_cqwidx, fun s => hostFetchAdd_unsupported, ?_, ?_, ?_, ?_, fun s n => registerWrite_of_partition, ?_, ?_,
    fun s => registerWrite_of_badSize, ?_, ?_, ?_⟩
  · intro s hon hn hkind
    exact ⟨exec_hostRead_unsupported hon hn hkind,
      fun b bs => exec_hostWrite_unsupported (s := { s with arg := { s.arg with bytes := b :: bs } }) hon hkind nofun⟩
  · exact fun s => ⟨_, rfl, rfl, by simp, fun r hr => by simp [hr.symm]⟩
  · exact fun s hon hkind hn halign => exec_hostRead_register hon hkind hn.symm halign
  · refine fun s q hq hon ha => ⟨hostRead_of_widx hq hon ha, fun hn hw => ?_, fun hn hw => ?_⟩
    · rw [hostWrite_of_widx hq hon ha hn, if_pos hw]
      exact ⟨_, rfl, rfl, by simp, fun r hr => by simp [hr.symm]⟩
    · rw [hostWrite_of_widx hq hon ha hn, if_neg hw]
  · refine fun s k hk hon ha => ⟨hostRead_of_cqbase hk hon ha, fun hn hp => ?_⟩
    rw [hostWrite_of_cqbase hk hon ha hn]
    exact ⟨_, rfl, rfl, by simp [chanWrite, hp, keep], fun r hr => by simp [hr.symm]⟩
  · refine fun s q hq hon hb ha h0 h1 => ⟨fun hw => ?_, fun hw => ?_⟩
    · rw [registerWrite_of_widx hq hon hb ha h0 h1, if_pos hw]
      exact ⟨_, rfl, rfl, by simp⟩
    · rw [registerWrite_of_widx hq hon hb ha h0 h1, if_neg hw]
  · exact fun s n q hn hn8 hq hown hon hb ha => registerWrite_of_weight hn hn8 hq hown hon hb ha
  · exact fun s hon hsrc ha => exec_registerWrite_ignored hon (.inl (firmwareReach_low hsrc ha))
  · exact fun s hon ha hb => ⟨fun hc => by rw [registerWrite_of_holdlim hon ha hb, if_pos hc],
      fun hc => by rw [registerWrite_of_holdlim hon ha hb, if_neg hc]⟩
  · intro s hon
    obtain ⟨hwrite, hadd, hreg, hread⟩ := exec_in_recovery hon
    refine ⟨hwrite, hadd, hreg, fun h => ?_, fun ha hb => ⟨(Config.statusWord (s.fw.failure.elim 0 (·.code))).toNat, ?_⟩⟩
    · rw [hread, recoveryRead_other h]
      rfl
    · rw [hread, State.recoveryRead, if_pos (by simp [ha, hb])]
      rfl

end Sys2Proof.Machine
end

section
/-! A trap stops the string of its thread (R200, R331): the other handlers' waits end. And a record that an access count or a reclaimed
object posts reaches other contexts where the ring's count word is the ceiling of a queue (`ringAtCeiling`). -/

namespace Sys2Proof.Machine

-- Traps.

/-- The first thread runs with a handler for its traps; the other handler of its string waits with a word. -/
def trapsBesideWaiting : State := besideWaiting { status := .run, tvec := 8 }

theorem busy_after_trap {t : State} (h : exec (.trap 0) trapsBesideWaiting = .next t) : (t.ctx 1).busy = none := by
  rw [← Host.Outcome.next.inj h]; decide +kernel

/-- Refutes O13: a `TRAP` that is taken stops the thread's string, and so changes the context of the other handler, whose control core
waits. -/
theorem not_trapEntry : ¬ Obligations.TrapEntry := by
  unfold Obligations.TrapEntry
  rintro ⟨htrap, -⟩
  obtain ⟨⟨t, ht, -, -, hothers, -⟩, -⟩ := htrap trapsBesideWaiting 0 (by decide +kernel) (by decide +kernel) rfl
  have hbusy := busy_after_trap ht
  rw [hothers 1 (by decide)] at hbusy
  exact absurd hbusy (by decide +kernel)

-- Tethers, leases and handles.

theorem ceiling_after_trel {t : State} (h : exec (.trel 0) exitingWithTether = .next t) : (t.ctx 1).ceiling = 0 := by
  rw [← Host.Outcome.next.inj h]; decide +kernel

/-- Refutes O19: `TREL` flushes the count of its tether's page; the record posted for it lowers the ceiling of the other thread. -/
theorem not_tetherResults : ¬ Obligations.TetherResults := by
  unfold Obligations.TetherResults
  rintro ⟨hteth, -⟩
  obtain ⟨-, -, -, -, htrel, -⟩ := hteth 0 0 0 .read
  obtain ⟨t, ht, hothers, -⟩ := htrel exitingWithTether (by decide +kernel) (by decide +kernel) (by decide +kernel)
  have hceiling := ceiling_after_trel ht
  rw [hothers 1 (by decide)] at hceiling
  exact absurd hceiling (by decide +kernel)

/-- The first thread probes one byte of page 0: scalar 1 holds the size. -/
def probesPageZero : State := { ringAtCeiling { status := .run } {} with iss := { capt := some [(1, 1)] } }

theorem ceiling_after_rprobe {t : State} (h : exec (.rprobe 0 1 false) probesPageZero = .next t) : (t.ctx 1).ceiling = 0 := by
  rw [← Host.Outcome.next.inj h]; decide +kernel

/-- Refutes O20: the lease that `RPROBE` puts into the cache takes the place of the lapsed one, whose count is flushed; the record posted
for it lowers the ceiling of the other thread, so the contexts do not stay as they are. -/
theorem not_probeAndFetch : ¬ Obligations.ProbeAndFetch := by
  unfold Obligations.ProbeAndFetch
  rintro ⟨-, hprobe, -⟩
  obtain ⟨t, l, ht, hctxs, -⟩ := hprobe probesPageZero 0 1 false ⟨0x40000, 0x50013⟩ rfl rfl (by decide +kernel) (by decide +kernel)
    (by decide +kernel) nofun
  have hceiling := ceiling_after_rprobe ht
  rw [State.ctx, hctxs] at hceiling
  exact absurd hceiling (by decide +kernel)

theorem ceiling_after_expiry {t : State} (h : exec .leaseCacheExpiry (ringAtCeiling {} {}) = .next t) : (t.ctx 1).ceiling = 0 := by
  rw [← Host.Outcome.next.inj h]; decide +kernel

/-- Refutes O22: the lease that lapses has counted 256 accesses; the record posted for them lowers the ceiling of the other thread, so the
contexts do not stay as they are. -/
theorem not_leaseExpiryAndAssist : ¬ Obligations.LeaseExpiryAndAssist := by
  unfold Obligations.LeaseExpiryAndAssist
  rintro ⟨hexpiry, -⟩
  obtain ⟨t, ht, hctxs, -⟩ := hexpiry (ringAtCeiling {} {})
  have hceiling := ceiling_after_expiry ht
  rw [State.ctx, hctxs] at hceiling
  exact absurd hceiling (by decide +kernel)

/-- The first thread holds the only handle on an object that no name is bound to. -/
def closesLastHandle : State :=
  ringAtCeiling { status := .run, mhs := (Vector.replicate 16 {}).set 0 { isOpen := true, obj := 5 } }
    { objs := [(5, { base := 0, vers := 0, layout := [], opens := 1 })] }

theorem ceiling_after_mclose {t : State} (h : exec (.mclose 0) closesLastHandle = .next t) : (t.ctx 1).ceiling = 0 := by
  rw [← Host.Outcome.next.inj h]; decide +kernel

/-- Refutes O48: a `MCLOSE` of the last handle reclaims the object; its RECLAIMED record lowers the ceiling of the other thread. -/
theorem not_directoryInstructions : ¬ Obligations.DirectoryInstructions := by
  unfold Obligations.DirectoryInstructions
  rintro ⟨-, -, hmclose, -⟩
  obtain ⟨t, ht, ⟨-, hothers, -⟩, -⟩ := hmclose closesLastHandle 0 (by decide +kernel) (by decide +kernel)
  have hceiling := ceiling_after_mclose ht
  rw [hothers 1 (by decide)] at hceiling
  exact absurd hceiling (by decide +kernel)

end Sys2Proof.Machine
end

section
/-! A thread's stop reaches the other handlers of its string (R200), and a record reaches other contexts where the ring's count word is the
ceiling of a queue (`ringAtCeiling`): so also where the stop is a pre-emption, where the record is that of a launch that cannot be read,
or where a dump is released. -/

namespace Sys2Proof.Machine

-- Pre-emption.

/-- The host asks for a save of the first thread alone; the other handler of its string waits with a word. The slots are large enough. -/
def savesBesideWaiting : State :=
  { besideWaiting { status := .run } with
    parts := [(0, { sanum := 1, sasz := 2 ^ 30
                    pres := [{ members := [(0, none)], team := none, t0 := 0, rd := 8000, want := 3, host := true, queue := none }] })] }

theorem busy_after_save {t : State} (h : exec .preemptionStop savesBesideWaiting = .next t) : (t.ctx 1).busy = none := by
  rw [← Host.Outcome.next.inj h]; decide +kernel

/-- Refutes O51: a request stopped for a save names one handler of a string; the string stops with it, and so the context of the other
handler, no member of the request, changes. -/
theorem not_preemptionRequests : ¬ Obligations.PreemptionRequests := by
  unfold Obligations.PreemptionRequests
  rintro ⟨-, hstop, -⟩
  obtain ⟨-, -, hsave, -⟩ := hstop savesBesideWaiting _ rfl rfl
  obtain ⟨t, ht, -, -, -, -, -, hothers, -⟩ := hsave 0 (by decide +kernel) rfl (by decide +kernel)
  have hbusy := busy_after_save ht
  rw [hothers 1 (by decide +kernel)] at hbusy
  exact absurd hbusy (by decide +kernel)

-- The mapper.

/-- A mapped queue of the partition has a packet to take, and its ring lies in page 2, which is not mapped. -/
def ringNotMapped : State :=
  { ringAtCeiling {} {} with queues := [(0, { base := 0x20000, len := 1, weight := 1, slot := some 0, widx := 1, look := true })] }

theorem ceiling_after_ringLost {t : State} (h : exec .launchPacket ringNotMapped = .next t) : (t.ctx 1).ceiling = 0 := by
  rw [← Host.Outcome.next.inj h]; decide +kernel

/-- Refutes O50: a packet that cannot be read is a rejected launch; the record posted for it lowers the ceiling of a thread of the queue,
so the contexts do not stay as they are. -/
theorem not_mapperAndSlots : ¬ Obligations.MapperAndSlots := by
  unfold Obligations.MapperAndSlots
  rintro ⟨-, hlost, -⟩
  obtain ⟨t, -, ht, hctxs, -⟩ := hlost ringNotMapped (by decide +kernel) (by decide +kernel)
  have hceiling := ceiling_after_ringLost ht
  rw [State.ctx, hctxs] at hceiling
  exact absurd hceiling (by decide +kernel)

-- Dumps.

/-- The first thread is a dump, with a tether to page 0. -/
def dumpWithTether : State :=
  ringAtCeiling { status := .frozen, teths := (Vector.replicate 16 {}).set 0 { stat := .ok, pbase := 0x50000 } } {}

theorem ceiling_after_release {t : State} (h : exec .release dumpWithTether = .next t) : (t.ctx 1).ceiling = 0 := by
  rw [← Host.Outcome.next.inj h]; decide +kernel

/-- Refutes O53: the release of a dump flushes the count of its tether's page; the record posted for it lowers the ceiling of the other
thread, which is in no string of the dump. -/
theorem not_debuggerActions : ¬ Obligations.DebuggerActions := by
  unfold Obligations.DebuggerActions
  rintro ⟨-, -, -, -, -, hdump, -⟩
  obtain ⟨-, -, hrelease, -⟩ := hdump dumpWithTether
  obtain ⟨t, ht, ⟨-, -, -, hothers⟩, -⟩ := hrelease (.inl (by decide +kernel))
  obtain ⟨hsame, -⟩ := hothers 1 (by decide)
  have hceiling := ceiling_after_release ht
  rw [hsame nofun] at hceiling
  exact absurd hceiling (by decide +kernel)

end Sys2Proof.Machine
end

section
/-! Tables are lists, and the statements are of every state: a table may list a number twice. The model reads and changes the first entry. -/

namespace Sys2Proof.Machine

-- Reloads.

/-- Region 0 of cell 0 is to be reloaded for key 7, and listed to be reloaded for key 8 too. -/
def reloadsTwice : State := { cells := [(0, { reload := [(0, 7, 0), (0, 8, 0)] })] }

/-- The reload answers a state in which the second entry still stands. -/
theorem reload_after_reload {t : State} (h : exec .lazyRegionReload reloadsTwice = .next t) : (t.cell 0).reload = [(0, 8, 0)] := by
  rw [← Host.Outcome.next.inj h]; decide +kernel

/-- Refutes O52: a region listed twice among the reloads of its cell is reloaded once, and stays listed. -/
theorem not_saveSlots : ¬ Obligations.SaveSlots := by
  unfold Obligations.SaveSlots
  rintro ⟨-, -, -, hreload, -⟩
  obtain ⟨t, ht, -, -, -, hlisted, -⟩ := hreload reloadsTwice 7 0 (by decide +kernel)
  exact hlisted (0, 8, 0) (by rw [show reloadsTwice.arg.a = 0 from rfl, reload_after_reload ht]; exact List.mem_singleton.2 rfl) rfl

-- Ports.

/-- A skew fault holds; port 0 is listed twice, the second time with an offset past 16 ns. A SYNC flit has arrived there that measures no
offset. -/
def portListedTwice : State :=
  { keel := 1, skew := true, ports := [(0, {}), (0, { offset := 100 })], arg := { a := 0, sync := some { time := 1, echo := 1, hold := 0, ack := 0, ok := true } } }

/-- The state once SYNC flit `f` has been measured at port `n` (R359), before the clock slews and the skew fault is looked at. -/
def State.measured (s : State) (n : Nat) (f : SyncFlit) : State :=
  ((s.ackTo n f.ack.toNat).modPort n fun p => { p with echo := f.time.toNat, echoAt := s.keel, sync := true }).modPort n
    fun p => { p with offset := syncOffset s.keel f }

/-- A SYNC flit within bounds leaves the skew fault up while some port of the table is past 32. -/
theorem skew_syncBeat_of_unsettled {s t : State} {f : SyncFlit} (hsync : s.arg.sync = some f) (hup : (s.port s.arg.a).up = true)
    (hok : f.ok = true) (hecho : f.echo ≠ 0) (hkeel : (s.ackTo s.arg.a f.ack.toNat).keel = s.keel)
    (hsmall : ¬ 64 < (syncOffset s.keel f).natAbs)
    (hall : ((s.measured s.arg.a f).ports.all fun p => !p.2.sync || p.2.offset.natAbs ≤ 32) = false)
    (h : exec .syncBeat s = .next t) : t.skew = (s.measured s.arg.a f).skew := by
  simp only [exec, execSyncBeat, hsync, hup, hok, State.modPort_keel, hkeel, if_neg hecho, if_neg hsmall, Bool.not_true,
    Bool.false_eq_true, if_false] at h
  by_cases hport : Config.upstream = some s.arg.a
  · rw [if_pos hport, if_neg (by rw [Bool.and_eq_true]; exact fun hc => Bool.false_ne_true (hall.symm.trans hc.2))] at h
    rw [← Host.Outcome.next.inj h]; rfl
  · rw [if_neg hport, if_neg (by rw [Bool.and_eq_true]; exact fun hc => Bool.false_ne_true (hall.symm.trans hc.2))] at h
    rw [← Host.Outcome.next.inj h]; rfl

theorem skew_after_sync {t : State} (h : exec .syncBeat portListedTwice = .next t) : t.skew = true := by
  rw [skew_syncBeat_of_unsettled rfl rfl rfl (by decide) (by decide +kernel) (by decide +kernel) (by decide +kernel) h]
  decide +kernel

/-- Refutes O47: every link but the one measured is listed with 16 ns or less, yet the second entry of the measured one keeps the skew
fault up. -/
theorem not_linkFlits : ¬ Obligations.LinkFlits := by
  unfold Obligations.LinkFlits
  rintro ⟨-, -, -, -, -, -, -, -, hsync, -⟩
  obtain ⟨t, ht, -, -, -, -, -, -, hover, -⟩ := hsync portListedTwice _ rfl rfl rfl
  have hend := hover (by decide) (by decide +kernel) (by decide +kernel)
  rw [skew_after_sync ht] at hend
  exact absurd hend (by decide)

end Sys2Proof.Machine
end

section
/-! `RSTART` (R322, R369): the engine reads the header as the new program does, to which what the engine's earlier programs wrote is not
yet published. The statement has it read as the program before. -/

namespace Sys2Proof.Machine

/-- Page 0 of partition 0 lies at 0x50000. An engine's program has written 1 to its first byte, published at Keel 100. -/
def headerWrittenByEngine : State := {
  seq := 2
  parts := [(0, { ptroot := 0x10000 })]
  pt := [(0x10000, 0x20001), (0x20000, 0x30001), (0x30000, 0x40001), (0x40000, 0x50013)]
  vers := [{ cells := [(0x50000, 1)], src := 2048, part := 0, cell := 0, seq := 1, own := 0, pubs := [(.sys, ⟨100, 2048⟩)] }] }

/-- The header as the program before reads it. -/
def oneStepHeader : List Byte := 1 :: List.replicate 63 0

theorem active_after_rstart {t : State} (h : exec (.rstart 0 0) headerWrittenByEngine = .next t) : (t.relay 0).active = false := by
  rw [← Host.Outcome.next.inj h]; decide +kernel

/-- Refutes O45: a `RSTART` whose header the engine itself wrote, not yet published, finds no header there, and the program fails. -/
theorem not_relayBehaviour : ¬ Obligations.RelayBehaviour := by
  unfold Obligations.RelayBehaviour
  rintro ⟨hstart, -⟩
  obtain ⟨t, ht, -, -, -, -, -, hrelay⟩ := hstart headerWrittenByEngine 0 0 oneStepHeader (by decide +kernel) (by decide +kernel)
    (by decide +kernel) (by decide +kernel) (by decide +kernel) (by decide +kernel) (by decide +kernel) (by decide +kernel)
  have hactive := active_after_rstart ht
  exact Bool.noConfusion (hactive.symm.trans (congrArg Relay.active hrelay))

end Sys2Proof.Machine
end

section
/-! Drogue regions (R334, R340, R341). -/

namespace Sys2Proof.Machine

theorem shiftLeft_three (v : Word) : v <<< 3 = 8 * v := by
  apply BitVec.eq_of_toNat_eq
  simp only [BitVec.toNat_shiftLeft, BitVec.toNat_mul, Nat.shiftLeft_eq]
  rw [Nat.mul_comm]; rfl

theorem exec_dropen_of_open {s : State} (off : BitVec 20) (hpending : s.me.pending = []) (hdepth : s.me.drogue.length < 4) :
    exec (.dropen off) s = .next (s.modMe fun c => { c with
      drogue := { handler := c.pc + (off.signExtend 64 <<< 3), snap := c.snapNow, depth := c.loops.length } :: c.drogue }) := by
  simp only [exec, execDropen]
  rw [if_neg (not_not.2 hpending), if_neg (by omega)]

theorem exec_dropen_of_full {s : State} (off : BitVec 20) (hpending : s.me.pending = []) (hdepth : 4 ≤ s.me.drogue.length) :
    exec (.dropen off) s = .next (s.fatal .illegal) := by
  simp only [exec, execDropen]
  rw [if_neg (not_not.2 hpending), if_pos hdepth]

theorem exec_drclose_of_open {s : State} (hquiet : s.quiet = true) (hopen : s.me.drogue ≠ []) :
    exec .drclose s = .next (s.modMe fun c => { c with drogue := s.me.drogue.tail }) := by
  obtain ⟨g, rest, hd⟩ := List.exists_cons_of_ne_nil hopen
  simp [exec, execDrclose, hquiet, hd]

theorem exec_drclose_of_none {s : State} (hquiet : s.quiet = true) (hnone : s.me.drogue = []) :
    exec .drclose s = .next (s.fatal .illegal) := by
  simp [exec, execDrclose, hquiet, hnone]

/-- Settles O15. -/
theorem drogueRegions : Obligations.DrogueRegions := by
  unfold Obligations.DrogueRegions
  refine fun off => ⟨fun s hs => ⟨_, exec_dropen_of_open off hs.1 hs.2, .modMe _ _, ?_⟩,
    fun s hs => ⟨_, exec_drclose_of_open hs.1 hs.2, .modMe _ _, State.me_modMe _ _⟩,
    fun s => exec_dropen_of_full off, fun s => exec_drclose_of_none⟩
  rw [State.me_modMe, shiftLeft_three]; rfl

end Sys2Proof.Machine
end

section
/-! System registers (R397, R398). -/

namespace Sys2Proof.Machine

theorem Ctx.flagsReady_of_idle {c : Ctx} (h : c.bufE = [] ∧ c.bufT = []) : c.flagsReady = true := by
  simp [Ctx.flagsReady, h.1, h.2]

theorem exec_rdsys_of_sysReg {s : State} {r : BitVec 12} {v : Word} (d : Reg) (hheld : s.me.sysHeld r.toNat false = false)
    (hv : s.sysReg r.toNat = some v) : exec (.rdsys d r) s = .next (s.setScalar d v) := by
  simp [exec, execRdsys, hheld, hv]

theorem exec_rdsys_of_none {s : State} {r : BitVec 12} (d : Reg) (hheld : s.me.sysHeld r.toNat false = false)
    (hv : s.sysReg r.toNat = none) : exec (.rdsys d r) s = .next (s.fatal .illegal) := by
  simp [exec, execRdsys, hheld, hv]

theorem exec_wrsys_of_none {s : State} {r : BitVec 12} (a : Reg) (hheld : s.me.sysHeld r.toNat true = false)
    (hv : s.sysReg r.toNat = none) : exec (.wrsys r a) s = .next (s.fatal .illegal) := by
  simp [exec, execWrsys, hheld, hv]

theorem exec_wrsys_of_sysReg {s : State} {r : BitVec 12} (a : Reg) (hheld : s.me.sysHeld r.toNat true = false)
    (hv : (s.sysReg r.toNat).isSome = true) (hr : r ≠ 0x013) :
    exec (.wrsys r a) s = .next (s.modMe fun c => c.writeSys r.toNat (s.scalar a)) := by
  obtain ⟨v, hv⟩ := Option.isSome_iff_exists.1 hv
  simp only [exec, execWrsys, hheld, hv, if_neg hr]
  rfl

/-- A register other than NFLAGS and RRB is never held. -/
theorem Ctx.sysHeld_of_ne (c : Ctx) {r : Nat} (w : Bool) (hflags : r ≠ 0x008) (hrrb : r ≠ 0x00B) : c.sysHeld r w = false := by
  simp [Ctx.sysHeld, hflags, hrrb]

theorem State.sysReg_crc (s : State) {k : Nat} (hk : k < 16) : s.sysReg (0x100 + k) = some ((tellCrc k).setWidth 64) := by
  interval_cases k <;> rfl

theorem Ctx.writeSys_crc (c : Ctx) (v : Word) {k : Nat} (hk : k < 16) : c.writeSys (0x100 + k) v = c := by
  interval_cases k <;> rfl

theorem State.sysReg_of_unknown {s : State} {r : Nat} (hr : r ∉ [0, 1, 2, 3, 4, 8, 9, 0xA, 0xB, 0x10, 0x11, 0x12, 0x13, 0x18, 0x19])
    (hcrc : ¬ (0x100 ≤ r ∧ r < 0x110)) : s.sysReg r = none := by
  unfold State.sysReg
  split
  case h_16 => rw [if_neg (by simpa using hcrc)]
  all_goals simp at hr

/-- The register of the constant a `TELL` of `n` expects. -/
theorem toNat_crcNumber (n : BitVec 4) : (0x100 + n.setWidth 12 : BitVec 12).toNat = 0x100 + n.toNat := by
  bv_omega

/-- Bits 2 to 0 read zero (R397: TVEC). -/
theorem and_not_seven (v : Word) : v &&& ~~~7 = v.extractLsb' 3 61 ++ 0#3 := by
  ext i hi
  simp only [BitVec.getElem_and, BitVec.getElem_not, BitVec.getElem_append, BitVec.getElem_extractLsb']
  by_cases hlow : i < 3
  · interval_cases i <;> simp
  · have hhigh : Nat.testBit 7 i = false :=
      Nat.testBit_lt_two_pow (Nat.lt_of_lt_of_le (by decide : 7 < 2 ^ 3) (Nat.pow_le_pow_right (by decide) (by omega)))
    simp [hlow, hhigh, BitVec.getElem_eq_testBit_toNat, BitVec.getLsbD, show 3 + (i - 3) = i by omega]

/-- TSTATE takes its bit 3 alone (R397). -/
theorem tstate_write (x : BitVec 4) (v : Word) : (x &&& 7) ||| (v.setWidth 4 &&& 8) = v.extractLsb' 3 1 ++ x.extractLsb' 0 3 := by
  have hbit : v.extractLsb' 3 1 = (v.setWidth 4).extractLsb' 3 1 := by
    ext i hi
    interval_cases i
    simp [BitVec.getElem_extractLsb']
  rw [hbit]
  generalize v.setWidth 4 = y
  revert x y
  decide

theorem setWidth_eq_extract (v : Word) (n : Nat) : v.setWidth n = v.extractLsb' 0 n := by
  ext i hi
  simp [BitVec.getElem_extractLsb', BitVec.getElem_setWidth]

/-- A register that is never held: `RDSYS` reads it. -/
theorem WritesReg.rdsys {r : BitVec 12} {v : State → Word} (d : Reg) (hflags : r.toNat ≠ 0x008)
    (hv : ∀ s, s.sysReg r.toNat = some (v s)) : WritesReg (.rdsys d r) d v :=
  .of_eq fun s => exec_rdsys_of_sysReg d (by simp [Ctx.sysHeld, hflags]) (hv s)

/-- The same for `WRSYS`. -/
theorem ChangesMe.wrsys {ok : State → Prop} {r : BitVec 12} {f : Word → Ctx → Ctx} (a : Reg)
    (hheld : ∀ s, ok s → s.me.sysHeld r.toNat true = false) (hknown : ∀ s : State, (s.sysReg r.toNat).isSome = true) (hr : r ≠ 0x013)
    (hf : ∀ v c, Ctx.writeSys c r.toNat v = f v c) : ChangesMe ok (.wrsys r a) fun s c => f (s.scalar a) c :=
  .of_mod fun s hs => by rw [exec_wrsys_of_sysReg a (hheld s hs) (hknown s) hr]; simp only [hf]

/-- The numbers of the read-only registers: never held, known, and a write of one keeps the context. -/
theorem readOnly_numbers {r : Nat} (hr : r ∈ [2, 3, 9, 0x18] ∨ (0x100 ≤ r ∧ r < 0x110)) :
    r ≠ 0x008 ∧ r ≠ 0x00B ∧ r ≠ 0x013 ∧ (∀ s : State, (s.sysReg r).isSome = true) ∧ ∀ (c : Ctx) (v : Word), c.writeSys r v = c := by
  rcases hr with hlist | ⟨hlo, hhi⟩
  · simp only [List.mem_cons, List.not_mem_nil, or_false] at hlist
    rcases hlist with rfl | rfl | rfl | rfl <;> exact ⟨by decide, by decide, by decide, fun _ => rfl, fun _ _ => rfl⟩
  · obtain ⟨k, rfl⟩ := Nat.exists_eq_add_of_le hlo
    have hk : k < 16 := by omega
    exact ⟨by omega, by omega, by omega, fun s => by rw [s.sysReg_crc hk]; rfl, fun c v => c.writeSys_crc v hk⟩

/-- Settles O16: `RDSYS` answers `State.sysReg`, `WRSYS` applies `Ctx.writeSys`, and the rest is what those two say of each number. -/
theorem systemRegisters : Obligations.SystemRegisters := by
  unfold Obligations.SystemRegisters
  refine ⟨fun d => ⟨.rdsys d (by decide) fun _ => rfl, .rdsys d (by decide) fun _ => rfl, .rdsys d (by decide) fun _ => rfl,
    .rdsys d (by decide) fun _ => rfl, .rdsys d (by decide) fun _ => rfl, ?flags, .rdsys d (by decide) fun _ => rfl,
    .rdsys d (by decide) ?aged, .rdsys d (by decide) fun _ => rfl, .rdsys d (by decide) fun s => congrArg some (shiftLeft_three _),
    .rdsys d (by decide) fun _ => rfl, .rdsys d (by decide) fun _ => rfl, .rdsys d (by decide) fun _ => rfl,
    .rdsys d (by decide) fun _ => rfl, .rdsys d (by decide) fun _ => rfl, ?crc, ?unknown⟩, fun a => ?writes⟩
  case flags =>
    exact .of_eq fun s hidle => exec_rdsys_of_sysReg d (by simp [Ctx.sysHeld, Ctx.flagsReady_of_idle hidle]) rfl
  case aged =>
    intro s
    show some (w64 (b2n s.me.aged)) = _
    cases s.me.aged <;> rfl
  case crc =>
    intro n
    have hn := toNat_crcNumber n
    exact .rdsys d (by omega) fun s => by rw [hn, s.sysReg_crc n.isLt]
  case unknown =>
    intro s r hr hcrc
    have hne : r.toNat ≠ 0x008 ∧ r.toNat ≠ 0x00B := by constructor <;> rintro h <;> simp [h] at hr
    have hnone := State.sysReg_of_unknown (s := s) hr hcrc
    exact ⟨exec_rdsys_of_none d (Ctx.sysHeld_of_ne _ _ hne.1 hne.2) hnone,
      fun a => exec_wrsys_of_none a (Ctx.sysHeld_of_ne _ _ hne.1 hne.2) hnone⟩
  case writes =>
    refine ⟨.wrsys (r := 0x000) (f := fun v c => { c with tvec := v.extractLsb' 3 61 ++ 0#3 }) a (fun _ _ => rfl) (fun _ => rfl) (by decide) ?tvec,
      .wrsys (r := 0x001) a (fun _ _ => rfl) (fun _ => rfl) (by decide) fun _ _ => rfl,
      .wrsys (r := 0x004) (f := fun v c => { c with tstate := v.extractLsb' 3 1 ++ c.tstate.extractLsb' 0 3 }) a (fun _ _ => rfl) (fun _ => rfl) (by decide) ?tstate,
      .wrsys (r := 0x008) (f := fun v c => { c with nflags := v.extractLsb' 0 3 }) a ?flags (fun _ => rfl) (by decide) ?nflags,
      .wrsys (r := 0x00A) a (fun _ _ => rfl) (fun _ => rfl) (by decide) fun _ _ => rfl,
      .wrsys (r := 0x00B) (f := fun v c => { c with rrb := v.extractLsb' 0 4 }) a ?rrb (fun _ => rfl) (by decide) ?rrbf,
      .wrsys (r := 0x010) a (fun _ _ => rfl) (fun _ => rfl) (by decide) fun _ _ => rfl,
      .wrsys (r := 0x011) (f := fun v c => { c with rvm := v.extractLsb' 0 48 }) a (fun _ _ => rfl) (fun _ => rfl) (by decide) ?rvm,
      .wrsys (r := 0x012) (f := fun v c => { c with wcommit := v.extractLsb' 0 27 }) a (fun _ _ => rfl) (fun _ => rfl) (by decide) ?wcommit,
      .wrsys (r := 0x019) a (fun _ _ => rfl) (fun _ => rfl) (by decide) fun _ _ => rfl,
      ?repair, fun r hr => ?readOnly⟩
    case tvec => exact fun v c => congrArg (fun x => { c with tvec := x }) (and_not_seven v)
    case tstate => exact fun v c => congrArg (fun x => { c with tstate := x }) (tstate_write c.tstate v)
    case flags => exact fun s hidle => by simp [Ctx.sysHeld, Ctx.flagsReady_of_idle hidle]
    case nflags => exact fun v c => congrArg (fun x => { c with nflags := x }) (setWidth_eq_extract v 3)
    case rrb => exact fun s hidle => by simp [Ctx.sysHeld, hidle.1, hidle.2]
    case rrbf => exact fun v c => congrArg (fun x => { c with rrb := x }) (setWidth_eq_extract v 4)
    case rvm => exact fun v c => congrArg (fun x => { c with rvm := x }) (setWidth_eq_extract v 48)
    case wcommit => exact fun v c => congrArg (fun x => { c with wcommit := x }) (setWidth_eq_extract v 27)
    case repair =>
      intro s hbit
      have hrun : exec (.wrsys 0x013 a) s = .next (if (s.scalar a).getLsbD 0 then s.repair else s) := rfl
      exact ⟨s, by rw [hrun, hbit]; rfl, .refl s, rfl⟩
    case readOnly =>
      obtain ⟨hflags, hrrb, hrepair, hknown, hkeeps⟩ := readOnly_numbers hr
      exact .wrsys a (fun s _ => s.me.sysHeld_of_ne _ hflags hrrb) hknown (fun h => hrepair (by rw [h]; rfl)) fun v c => hkeeps c v

end Sys2Proof.Machine
end

section
/-! What a stop, a freeze and an unwind do to the contexts (R200, R332, R334, R405). -/

namespace Sys2Proof.Machine

-- Records of waits.

/-- Only what records of waits write has changed: versions, their numbers, and the partitions' record counts. -/
structure Recorded (s t : State) : Prop where
  rest : t = { s with vers := t.vers, seq := t.seq, choices := t.choices, parts := t.parts }
  stvec : ∀ p, (t.part p).stvec = (s.part p).stvec

theorem Recorded.refl (s : State) : Recorded s s := ⟨rfl, fun _ => rfl⟩

theorem Recorded.trans {s t u : State} (h : Recorded s t) (k : Recorded t u) : Recorded s u :=
  ⟨by rw [k.rest, h.rest], fun p => (k.stvec p).trans (h.stvec p)⟩

theorem Recorded.ctxs {s t : State} (h : Recorded s t) : t.ctxs = s.ctxs := by rw [h.rest]

theorem Recorded.ctx {s t : State} (h : Recorded s t) (n : Nat) : t.ctx n = s.ctx n := by rw [State.ctx, h.ctxs, State.ctx]

theorem State.windsock_recorded (s : State) (part waiter kind setter outcome waited id : Nat) :
    Recorded s (s.windsock part waiter kind setter outcome waited id) := by
  unfold State.windsock
  dsimp only
  split
  · exact .refl s
  · refine ⟨rfl, fun p => ?_⟩
    rw [State.part_modPart]
    split
    · next h => rw [h]; rfl
    · rfl

theorem State.recordWait_recorded (s : State) (src : Nat) (w : Wait) (setter outcome : Nat) :
    Recorded s (s.recordWait src w setter outcome) := s.windsock_recorded ..

theorem State.recordWaits_recorded (s : State) (src setter outcome : Nat) (qs : List (Nat × Wait)) :
    Recorded s (qs.foldl (fun s q => s.recordWait src q.2 setter outcome) s) := by
  induction qs generalizing s with
  | nil => exact .refl s
  | cons q qs ih => exact (s.recordWait_recorded ..).trans (ih _)

-- A stop.

/-- A context as a stop leaves it (R405, R181). -/
def Ctx.stopped (c : Ctx) : Ctx := { c with
  qwaits := [], busy := none, wait := c.wait.map Wait.stopped, bufA := c.bufA.map Entry.stopped
  streams := c.streams.map Stream.stopped, pubWait := (none, none), lateAt := 0 }

/-- A stop writes records of waits, and leaves the thread's context stopped. -/
theorem State.stopWaits_eq (s : State) (src : Nat) :
    ∃ u, Recorded s u ∧ s.stopWaits src = u.setCtx src (s.ctx src).stopped := by
  have hall (u : State) (hu : Recorded s u) : ∃ v, Recorded s v ∧
      ((s.ctx src).qwaits.foldl (fun s q => s.recordWait src q.2 0xFFF 3) u).modCtx src Ctx.stopped = v.setCtx src (s.ctx src).stopped := by
    have hv := hu.trans (State.recordWaits_recorded u src 0xFFF 3 (s.ctx src).qwaits)
    exact ⟨_, hv, by rw [State.modCtx, hv.ctx]⟩
  unfold State.stopWaits
  dsimp only
  split
  · split
    · exact hall s (.refl s)
    · exact hall _ (s.recordWait_recorded ..)
  · exact hall s (.refl s)

theorem State.ctx_stopWaits (s : State) (src n : Nat) : (s.stopWaits src).ctx n = if src = n then (s.ctx src).stopped else s.ctx n := by
  obtain ⟨u, hu, h⟩ := s.stopWaits_eq src
  rw [h, State.ctx_setCtx, hu.ctx]

theorem State.stopWaits_rest (s : State) (src : Nat) : ∃ u, Recorded s u ∧ s.stopWaits src = { u with ctxs := (s.stopWaits src).ctxs } := by
  obtain ⟨u, hu, h⟩ := s.stopWaits_eq src
  exact ⟨u, hu, by rw [h]; rfl⟩

theorem Wait.stopped_stopped (w : Wait) : w.stopped.stopped = w.stopped := by
  by_cases h : (w.kind = 2 || ((w.kind = 5 || w.kind = 6) && w.ended.isSome)) = true
  · simp only [Wait.stopped, if_pos h]
  · have hkind : w.kind ≠ 2 := fun hk => h (by simp [hk])
    have hfresh : w.stopped = { since := w.since, deadline := w.deadline, kind := w.kind, obj := w.obj, idle := true } := if_neg h
    rw [hfresh]
    exact if_neg (by simp [hkind])

theorem Entry.stopped_stopped (e : Entry) : e.stopped.stopped = e.stopped := by
  obtain ⟨id, i⟩ := e
  cases i <;> rfl

theorem Stream.stopped_stopped (t : Stream) : t.stopped.stopped = t.stopped := rfl

/-- A context that is stopped stays as it is in another stop. -/
theorem Ctx.stopped_stopped (c : Ctx) : c.stopped.stopped = c.stopped := by
  have hwait : Wait.stopped ∘ Wait.stopped = Wait.stopped := funext Wait.stopped_stopped
  have hentry : Entry.stopped ∘ Entry.stopped = Entry.stopped := funext Entry.stopped_stopped
  have hstream : Stream.stopped ∘ Stream.stopped = Stream.stopped := funext Stream.stopped_stopped
  simp only [Ctx.stopped, Option.map_map, List.map_map, hwait, hentry, hstream]

-- A freeze.

/-- The strings of `src` frozen by it, before any handler is stopped. -/
def State.markFrozen (s : State) (src : Nat) : State :=
  { s with strs := s.strs.map fun r => if r.handles src && !(r.frozen.contains src) then { r with frozen := src :: r.frozen } else r }

/-- A thread does not freeze itself. -/
theorem State.strFrozen_markFrozen_self (s : State) (src : Nat) : (s.markFrozen src).strFrozen src = s.strFrozen src := by
  simp only [State.strFrozen, State.markFrozen, List.any_map]
  congr 1
  funext r
  simp only [Function.comp]
  split <;> simp [Str.handles]

theorem State.freezeStr_eq (s : State) (src : Nat) : s.freezeStr src = (s.ctxs.map (·.1)).foldl
    (fun u m => if (s.markFrozen src).strFrozen m && !(s.strFrozen m) then u.stopWaits m else u) (s.markFrozen src) := rfl

theorem State.ctx_foldl_stopWaits (p : Nat → Bool) {src : Nat} (hp : p src = false) (ms : List Nat) (s : State) :
    (ms.foldl (fun u m => if p m then u.stopWaits m else u) s).ctx src = s.ctx src := by
  induction ms generalizing s with
  | nil => rfl
  | cons m ms ih =>
    rw [List.foldl_cons, ih]
    split
    · next h =>
      rw [State.ctx_stopWaits, if_neg]
      rintro rfl
      exact Bool.false_ne_true (hp.symm.trans h)
    · rfl

/-- A freeze of a thread's string stops other handlers, not the thread itself (R200). -/
theorem State.ctx_freezeStr_self (s : State) (src : Nat) : (s.freezeStr src).ctx src = s.ctx src := by
  rw [State.freezeStr_eq]
  exact State.ctx_foldl_stopWaits (fun m => (s.markFrozen src).strFrozen m && !(s.strFrozen m))
    (by rw [State.strFrozen_markFrozen_self, Bool.and_not_self]) _ _

/-- A context that a fatal cause has frozen at Keel `keel` (R327, R332). -/
def Ctx.frozenBy (x : Ctx) (u : Unit4) (pc : Word) (c : Cause) (info : W32) (keel : Nat) : Ctx := { x.stopped with
  status := .frozen, cause := causeWord c u info, tval := pc
  pc := (match x.pfx with | some p => p.pc0 | none => x.pc), pfx := none
  err := ⟨c.code, u.code, x.drogue.length, pc, pc, keel⟩ }

theorem State.traceStop_traced (s : State) (src cause : Nat) (pc : Word) : Traced s (s.traceStop src cause pc) := s.traceRec_traced ..

theorem State.ctx_failNode (s : State) (nid n : Nat) : (s.failNode nid).ctx n = s.ctx n := rfl

theorem State.keel_stopWaits (s : State) (src : Nat) : (s.stopWaits src).keel = s.keel := by
  obtain ⟨u, hu, h⟩ := s.stopWaits_eq src
  rw [h, hu.rest]; rfl

theorem State.ctx_fatalAt (s : State) (src : Nat) (u : Unit4) (pc : Word) (c : Cause) (info : W32) :
    (s.fatalAt src u pc c info).ctx src = (s.ctx src).frozenBy u pc c info s.keel := by
  have hstopped : (s.stopWaits src).ctx src = (s.ctx src).stopped := by rw [State.ctx_stopWaits, if_pos rfl]
  have hset : ((s.stopWaits src).setCtx src ((s.ctx src).frozenBy u pc c info s.keel)).ctx src =
      (s.ctx src).frozenBy u pc c info s.keel := by rw [State.ctx_setCtx, if_pos rfl]
  unfold State.fatalAt
  dsimp only
  rw [hstopped, State.keel_stopWaits]
  split
  · rw [State.ctx_failNode, (State.traceStop_traced ..).ctx, (State.modDbg_traced ..).ctx, State.ctx_freezeStr_self]; exact hset
  · rw [(State.traceStop_traced ..).ctx, (State.modDbg_traced ..).ctx, State.ctx_freezeStr_self]; exact hset

theorem causeWord_code (c : Cause) (u : Unit4) (info : W32) : (causeWord c u info).extractLsb' 0 8 = c.code := by
  have hbit (i : Nat) (hi : i < 8) : ((info ++ 0#22 ++ u.code) ++ c.code).getLsbD i = c.code.getLsbD i := by
    rw [BitVec.getLsbD_append, if_pos hi]
  ext i hi
  rw [BitVec.getElem_extractLsb', Nat.zero_add]
  exact hbit i hi

/-- STVEC is 0 as a vector where the 64-bit register is (R330). -/
theorem w64_eq_zero_iff (n : Nat) : w64 n = 0 ↔ n % 2 ^ 64 = 0 := by
  rw [← BitVec.toNat_inj]; rfl

/-- The vector of a cause at a thread (R330). -/
def State.vector (s : State) (src : Nat) (c : Cause) : Word :=
  if c.sys then w64 (s.part (s.partOfSrc src)).stvec else (s.ctx src).tvec

theorem Cause.sys_iff (c : Cause) : c.sys = true ↔ c = .pageFault ∨ c = .skew := by cases c <;> decide

theorem State.vector_eq_zero {s : State} {src : Nat} {c : Cause} (h : (if c = .pageFault ∨ c = .skew then
    (s.part (s.partOfSrc src)).stvec % 2 ^ 64 else (s.ctx src).tvec.toNat) = 0) : s.vector src c = 0 := by
  rw [State.vector]
  by_cases hc : c = .pageFault ∨ c = .skew
  · rw [if_pos hc] at h
    rw [if_pos (c.sys_iff.2 hc)]; exact (w64_eq_zero_iff _).2 h
  · rw [if_neg hc] at h
    rw [if_neg (fun hs => hc (c.sys_iff.1 hs))]; exact BitVec.eq_of_toNat_eq h

theorem State.stvec_stopWaits (s : State) (src p : Nat) : ((s.stopWaits src).part p).stvec = (s.part p).stvec := by
  obtain ⟨u, hu, h⟩ := s.stopWaits_eq src
  rw [h]; exact hu.stvec p

theorem State.partOfSrc_stopWaits (s : State) (src n : Nat) : (s.stopWaits src).partOfSrc n = s.partOfSrc n := by
  obtain ⟨u, hu, h⟩ := s.stopWaits_eq src
  rw [h, hu.rest]; rfl

/-- A recoverable cause while INH is 1 freezes the context by DOUBLE_TRAP, and one whose vector is 0 by UNHANDLED (R332). -/
theorem State.trapAt_of_inhibited {s : State} {src : Nat} (hinh : (s.ctx src).tstate.getLsbD 0 = true) (u : Unit4) (pc : Word) (c : Cause)
    (info : W32) : s.trapAt src u pc c info = (s.stopWaits src).fatalAt src u pc .doubleTrap (c.code.setWidth 32) := by
  unfold State.trapAt
  dsimp only
  rw [if_pos (by rw [State.ctx_stopWaits, if_pos rfl]; exact hinh)]

theorem State.trapAt_of_no_vector {s : State} {src : Nat} {c : Cause} (hinh : (s.ctx src).tstate.getLsbD 0 = false) (hvec : s.vector src c = 0)
    (u : Unit4) (pc : Word) (info : W32) : s.trapAt src u pc c info = (s.stopWaits src).fatalAt src u pc .unhandled (c.code.setWidth 32) := by
  have hctx : (s.stopWaits src).ctx src = (s.ctx src).stopped := by rw [State.ctx_stopWaits, if_pos rfl]
  have hvec' : (s.stopWaits src).vector src c = 0 := by
    rw [State.vector, State.stvec_stopWaits, State.partOfSrc_stopWaits, hctx]; exact hvec
  unfold State.trapAt
  dsimp only
  rw [if_neg (by rw [hctx]; exact fun h => Bool.false_ne_true (hinh.symm.trans h))]
  exact if_pos hvec'

/-- A second stop on the way to a freeze changes nothing. -/
theorem State.ctx_fatalAt_stopWaits (s : State) (src : Nat) (u : Unit4) (pc : Word) (c : Cause) (info : W32) :
    ((s.stopWaits src).fatalAt src u pc c info).ctx src = (s.ctx src).frozenBy u pc c info s.keel := by
  have hctx : (s.stopWaits src).ctx src = (s.ctx src).stopped := by rw [State.ctx_stopWaits, if_pos rfl]
  rw [State.ctx_fatalAt, hctx, State.keel_stopWaits, Ctx.frozenBy, Ctx.stopped_stopped]
  rfl

/-- What O14 says of a frozen context. -/
theorem Ctx.frozenBy_spec {x y : Ctx} {u : Unit4} {pc : Word} {c : Cause} {info : W32} {keel : Nat} (h : y = x.frozenBy u pc c info keel) :
    y = { x with
      status := .frozen, cause := y.cause, tval := pc, pc := y.pc, pfx := none, err := y.err, wait := x.wait.map Wait.stopped
      qwaits := [], busy := none, bufA := x.bufA.map Entry.stopped, streams := x.streams.map Stream.stopped, pubWait := (none, none)
      lateAt := 0 } ∧ y.cause.extractLsb' 0 8 = c.code ∧ y.err.cause = c.code ∧ (x.pfx = none → y.pc = x.pc) := by
  subst h
  refine ⟨rfl, causeWord_code .., rfl, fun hpfx => ?_⟩
  rw [Ctx.frozenBy, hpfx]

/-- Settles O14: both ways end in `State.fatalAt` from the stopped thread. -/
theorem trapFreezes : Obligations.TrapFreezes := by
  unfold Obligations.TrapFreezes
  intro s src u pc c info hkind
  refine ⟨fun hinh => ?inhibited, fun hinh hvec => ?unhandled, fun code => rfl⟩
  case inhibited =>
    refine Ctx.frozenBy_spec (u := u) (info := c.code.setWidth 32) (keel := s.keel) ?_
    rw [State.trapAt_of_inhibited hinh]; exact s.ctx_fatalAt_stopWaits ..
  case unhandled =>
    refine Ctx.frozenBy_spec (u := u) (info := c.code.setWidth 32) (keel := s.keel) ?_
    rw [State.trapAt_of_no_vector hinh (State.vector_eq_zero hvec)]; exact s.ctx_fatalAt_stopWaits ..

end Sys2Proof.Machine
end

section
/-! `TELL` (R342), and what an unwind does to a context (R334). -/

namespace Sys2Proof.Machine

/-- A context unwound to its innermost drogue entry `e` (R334). -/
def Ctx.unwound (c : Ctx) (e : DrogueE) (u : Unit4) (pc prod : Word) (cause : Cause) (keel : Nat) : Ctx :=
  let x : Ctx := { c.stopped with
    bufA := [], bufE := [], bufT := [], streams := [], loads := [], pfx := none, wait := none
    lqs := c.lqs.map Queue.emptied, sqs := c.sqs.map Queue.emptied
    latchA := none, latchB := none
    accs := c.accs.map Acc.cleared
    loops := c.loops.drop (c.loops.length - e.depth)
    parked := if c.tstate.getLsbD 0 then none else c.parked
    tstate := if c.tstate.getLsbD 0 then 0 else c.tstate
    err := ⟨cause.code, u.code, c.drogue.length, pc, prod, keel⟩
    unwinds := c.unwinds + 1
    causeAt := keel + 1 }
  { x.restore e.snap with pc := e.handler, status := .run }

/-- The state an unwind leaves but for the thread's own context: a stop, the string thawed after a trap's handler, no poison in the
accumulators. -/
def State.unwindBase (s : State) (src : Nat) : State :=
  (if (s.ctx src).tstate.getLsbD 0 then (s.stopWaits src).thawStr src else s.stopWaits src).cleanAccs src

theorem State.unwindBase_rest (s : State) (src : Nat) : s.unwindBase src = { s with
    ctxs := (s.unwindBase src).ctxs, vers := (s.unwindBase src).vers, seq := (s.unwindBase src).seq, choices := (s.unwindBase src).choices
    parts := (s.unwindBase src).parts, strs := (s.unwindBase src).strs, psnAcc := (s.unwindBase src).psnAcc } := by
  obtain ⟨w, hw, heq⟩ := s.stopWaits_eq src
  unfold State.unwindBase
  rw [heq, hw.rest]
  split <;> rfl

theorem State.ctx_unwindBase (s : State) {src n : Nat} (hn : n ≠ src) : (s.unwindBase src).ctx n = s.ctx n := by
  have h : (s.unwindBase src).ctx n = (s.stopWaits src).ctx n := by unfold State.unwindBase; split <;> rfl
  rw [h, State.ctx_stopWaits, if_neg hn.symm]

theorem State.unwindAt_of_open {s : State} {src : Nat} {e : DrogueE} {rest : List DrogueE} (h : (s.ctx src).drogue = e :: rest)
    (u : Unit4) (pc prod : Word) (c : Cause) :
    s.unwindAt src u pc prod c = (s.unwindBase src).setCtx src ((s.ctx src).unwound e u pc prod c s.keel) := by
  have hctx : (s.stopWaits src).ctx src = (s.ctx src).stopped := by rw [State.ctx_stopWaits, if_pos rfl]
  have hdrogue : (s.ctx src).stopped.drogue = e :: rest := h
  unfold State.unwindAt State.unwindBase
  dsimp only
  rw [hctx, State.keel_stopWaits]
  split
  · next hnone => exact absurd (hnone.symm.trans hdrogue) nofun
  · next e' rest' hsome =>
    obtain ⟨rfl, -⟩ := List.cons.inj (hsome.symm.trans hdrogue)
    rfl

/-- Cause codes 20 to 23 (R327). -/
theorem State.damage_of_open {s : State} {e : DrogueE} {rest : List DrogueE} (h : s.me.drogue = e :: rest) (c : Cause) (info : W32) :
    s.damage c info = ((s.unwindBase s.iss.src).setCtx s.iss.src (s.me.unwound e s.iss.unit s.iss.pc s.iss.pc c s.keel)).moved := by
  have hopen : ¬ (s.ctx s.iss.src).drogue = [] := by rw [show (s.ctx s.iss.src).drogue = e :: rest from h]; exact nofun
  rw [State.damage, State.damageAt, if_neg hopen, State.unwindAt_of_open h]
  rfl

theorem State.iss_stopWaits (s : State) (src : Nat) : (s.stopWaits src).iss = s.iss := by
  obtain ⟨w, hw, heq⟩ := s.stopWaits_eq src
  rw [heq, hw.rest]; rfl

theorem State.iss_freezeStr (s : State) (src : Nat) : (s.freezeStr src).iss = s.iss := by
  rw [State.freezeStr_eq]
  refine List.foldlRecOn (motive := fun u : State => u.iss = s.iss) _ _ rfl fun u hu m _ => ?_
  split
  · rw [State.iss_stopWaits, hu]
  · exact hu

theorem State.iss_fatalAt (s : State) (src : Nat) (u : Unit4) (pc : Word) (c : Cause) (info : W32) : (s.fatalAt src u pc c info).iss = s.iss := by
  unfold State.fatalAt
  dsimp only
  have hfailed (t : State) (n : Nat) : (t.failNode n).iss = t.iss := rfl
  have hset (t : State) (x : Ctx) : (t.setCtx src x).iss = t.iss := rfl
  split
  · rw [hfailed, (State.traceStop_traced ..).iss, (State.modDbg_traced ..).iss, State.iss_freezeStr, hset, State.iss_stopWaits]
  · rw [(State.traceStop_traced ..).iss, (State.modDbg_traced ..).iss, State.iss_freezeStr, hset, State.iss_stopWaits]

/-- A context frozen by a cause of codes 20 to 23, with the PC of its producer. -/
def Ctx.damaged (x : Ctx) (u : Unit4) (pc prod : Word) (c : Cause) (info : W32) (keel : Nat) : Ctx :=
  let y := x.frozenBy u pc c info keel
  { y with err := { y.err with prodPc := prod } }

theorem State.me_damage_of_none {s : State} (h : s.me.drogue = []) (c : Cause) (info : W32) :
    (s.damage c info).me = s.me.damaged s.iss.unit s.iss.pc s.iss.pc c info s.keel := by
  have hnone : (s.ctx s.iss.src).drogue = [] := h
  rw [State.damage, State.damageAt, if_pos hnone, State.me_moved, State.me_modCtx_src (State.iss_fatalAt ..), State.me, State.iss_fatalAt,
    State.ctx_fatalAt]
  rfl

-- `TELL`.

/-- The tokens of the step a `TELL` makes. -/
def tellTokens (n : BitVec 4) : Nat := stepTokens (tellFmt n.toNat) (tellFmt n.toNat) (tellPlanes n.toNat)

/-- The state in which a `TELL` compares its constant: its tokens are spent. -/
def State.told (s : State) (n : BitVec 4) : State := (s.asks s.myCell).spend (tellTokens n)

theorem TokensTaken.told (s : State) (n : BitVec 4) : TokensTaken s (s.told n) := (TokensTaken.asks s _).trans (.spend _ _)

theorem exec_tell_of_tokens {s : State} {n : BitVec 4} (h : s.tokensFor (tellTokens n)) : exec (.tell n) s =
    .next (if some (tellCrc n.toNat) = s.iss.xtnd then s.told n else (s.told n).damage .telltale (n.setWidth 32)) := by
  have hiss : (s.told n).iss = s.iss := (TokensTaken.told s n).iss
  have hrun : exec (.tell n) s = .next (s.withTokens (tellTokens n) fun s =>
    if some (tellCrc n.toNat) = (s.spend (tellTokens n)).iss.xtnd then s.spend (tellTokens n)
    else (s.spend (tellTokens n)).damage .telltale (n.setWidth 32)) := rfl
  rw [hrun, State.withTokens_of_tokensFor h, ← State.told, hiss]

/-- The cost of R144 for the tiles of R342. -/
theorem tellTokens_eq (n : BitVec 4) :
    let d := if 8 ≤ n.toNat ∧ n.toNat < 15 then n.toNat - 6 else 8
    tellTokens n = if 7 ≤ n.toNat ∧ n.toNat < 15 ∧ d < 8 then 16 * ((d + 1) / 2) else 96 := by
  revert n; decide

theorem exec_tell_of_right {s : State} {n : BitVec 4} (h : s.tokensFor (tellTokens n)) (hcrc : s.iss.xtnd = some (tellCrc n.toNat)) :
    exec (.tell n) s = .next (s.told n) := by rw [exec_tell_of_tokens h, if_pos hcrc.symm]

theorem exec_tell_of_wrong {s : State} {n : BitVec 4} (h : s.tokensFor (tellTokens n)) (hcrc : s.iss.xtnd ≠ some (tellCrc n.toNat)) :
    exec (.tell n) s = .next ((s.told n).damage .telltale (n.setWidth 32)) := by rw [exec_tell_of_tokens h, if_neg hcrc.symm]

theorem TokensSpent.told (s : State) (n : BitVec 4) : TokensSpent s (s.told n) (tellTokens n) :=
  (State.tokensSpent_spend ..).of_before rfl rfl fun c => by
    obtain ⟨htok, hrate, hat, -⟩ := s.col_asks s.myCell c
    exact ⟨htok, hrate, hat⟩

theorem TokensTaken.keel {s w : State} (h : TokensTaken s w) : w.keel = s.keel := by rw [h.rest]

theorem TokensTaken.drogue {s w : State} (h : TokensTaken s w) : w.me.drogue = s.me.drogue := by rw [h.me]

/-- What `TELL` leaves where it unwinds. -/
def State.toldWrong (s : State) (n : BitVec 4) (e : DrogueE) : State :=
  (((s.told n).unwindBase s.iss.src).setCtx s.iss.src
    ((s.told n).me.unwound e s.iss.unit s.iss.pc s.iss.pc .telltale s.keel)).moved

theorem exec_tell_of_open {s : State} {n : BitVec 4} {e : DrogueE} {rest : List DrogueE} (h : s.tokensFor (tellTokens n))
    (hcrc : s.iss.xtnd ≠ some (tellCrc n.toNat)) (hdrogue : s.me.drogue = e :: rest) : exec (.tell n) s = .next (s.toldWrong n e) := by
  have ht := TokensTaken.told s n
  rw [exec_tell_of_wrong h hcrc, State.damage_of_open (ht.drogue.trans hdrogue), ht.iss, ht.keel]
  rfl

theorem State.toldWrong_bytes (s : State) (n : BitVec 4) (e : DrogueE) :
    (s.toldWrong n e).mem = s.mem ∧ (s.toldWrong n e).spad = s.spad ∧ (s.toldWrong n e).banks = s.banks := by
  have hbase := (s.told n).unwindBase_rest s.iss.src
  have htold := (TokensTaken.told s n).rest
  unfold State.toldWrong
  rw [hbase, htold]
  exact ⟨rfl, rfl, rfl⟩

theorem State.me_setCtx_src {s : State} {src : Nat} (h : s.iss.src = src) (x : Ctx) : (s.setCtx src x).me = x := by
  subst h
  exact (State.ctx_setCtx ..).trans (if_pos rfl)

theorem State.othersKept_toldWrong (s : State) (n : BitVec 4) (e : DrogueE) : OthersKept s (s.toldWrong n e) s.iss.src := by
  intro m hm
  have hset : (s.toldWrong n e).ctx m = ((s.told n).unwindBase s.iss.src).ctx m := by
    exact (State.ctx_setCtx ..).trans (if_neg hm.symm)
  rw [hset, State.ctx_unwindBase _ hm, (TokensTaken.told s n).others m hm]

theorem State.me_toldWrong (s : State) (n : BitVec 4) (e : DrogueE) :
    ∃ qs, (s.toldWrong n e).me = ({ s.me with qwaits := qs } : Ctx).unwound e s.iss.unit s.iss.pc s.iss.pc .telltale s.keel := by
  refine ⟨(s.told n).me.qwaits, ?_⟩
  have hiss : ((s.told n).unwindBase s.iss.src).iss = s.iss := by
    rw [State.unwindBase_rest, (TokensTaken.told s n).iss]
  rw [State.toldWrong, State.me_moved, ← (TokensTaken.told s n).me, State.me_setCtx_src (by rw [hiss])]

theorem Ctx.queue_unwound (c : Ctx) (q : QSel) (e : DrogueE) (u : Unit4) (pc prod : Word) (k : Cause) (keel : Nat) :
    (c.unwound e u pc prod k keel).queue q = (c.queue q).emptied := by
  obtain ⟨store, q⟩ := q
  cases store
  · exact Vector.getElem_map ..
  · exact Vector.getElem_map ..

theorem Ctx.acc_unwound (c : Ctx) (a : BitVec 2) (e : DrogueE) (u : Unit4) (pc prod : Word) (k : Cause) (keel : Nat) :
    (c.unwound e u pc prod k keel).acc a = (c.acc a).cleared := Vector.getElem_map ..

/-- Settles O37. -/
theorem tellAndUnwind : Obligations.TellAndUnwind := by
  unfold Obligations.TellAndUnwind
  intro s n d cost htok
  have hcost : cost = tellTokens n := (tellTokens_eq n).symm
  rw [hcost] at htok ⊢
  have ht := TokensTaken.told s n
  refine ⟨fun hcrc => ⟨_, exec_tell_of_right htok hcrc, ht.me, ht.iss, ht.others, .told s n, ?mem, ?spad, ?banks⟩,
    fun e rest hcrc hunit hdrogue => ⟨_, exec_tell_of_open htok hcrc hdrogue, s.othersKept_toldWrong n e, ?unwound⟩,
    fun hcrc hnone => ⟨_, exec_tell_of_wrong htok hcrc, ?fatal⟩⟩
  case mem => rw [ht.rest]
  case spad => rw [ht.rest]
  case banks => rw [ht.rest]
  case unwound =>
    obtain ⟨hmem, hspad, hbanks⟩ := s.toldWrong_bytes n e
    obtain ⟨qs, hme⟩ := s.me_toldWrong n e
    rw [hunit] at hme
    rw [hme]
    refine ⟨hmem, hspad, hbanks, rfl, rfl, rfl, rfl, rfl, rfl, rfl, rfl, rfl, rfl, rfl, rfl, rfl, fun q => ?_, fun a => ?_,
      rfl, rfl, rfl, rfl, rfl, rfl, rfl, rfl⟩
    · rw [Ctx.queue_unwound]; exact ⟨rfl, rfl⟩
    · rw [Ctx.acc_unwound]; rfl
  case fatal =>
    rw [State.me_damage_of_none (ht.drogue.trans hnone), ht.me]
    exact ⟨rfl, rfl, rfl⟩

end Sys2Proof.Machine
end

section
/-! `ERRQ` (R344), `BLST` (R356) and `EVT` (R400). -/

namespace Sys2Proof.Machine

-- `ERRQ`.

/-- Selector 0 of `ERRQ`: its three fields are disjoint. -/
theorem errWord_eq_or (code : BitVec 8) (unit : BitVec 2) (depth : Nat) :
    w64 (code.toNat + 256 * unit.toNat + 1024 * depth) = BitVec.ofNat 64 depth <<< 10 ||| unit.setWidth 64 <<< 8 ||| code.setWidth 64 := by
  have hcode := code.isLt
  have hunit := unit.isLt
  rw [← BitVec.add_eq_or_of_and_eq_zero _ _ ?low, ← BitVec.add_eq_or_of_and_eq_zero _ _ ?high]
  case low =>
    refine BitVec.eq_of_getLsbD_eq fun i hi => ?_
    by_cases h : i < 8
    · simp [h, Nat.lt_trans h (by decide : 8 < 10)]
    · simp [BitVec.getLsbD_of_ge code i (by omega)]
  case high =>
    refine BitVec.eq_of_getLsbD_eq fun i hi => ?_
    by_cases h : i < 10
    · simp [h]
    · simp [BitVec.getLsbD_of_ge unit (i - 8) (by omega)]
  apply BitVec.eq_of_toNat_eq
  simp [w64, Nat.shiftLeft_eq]
  omega

theorem unwinds_word (n : Nat) : w64 (min n (2 ^ 64 - 1)) = if n < 2 ^ 64 then BitVec.ofNat 64 n else BitVec.allOnes 64 := by
  split
  · next h => rw [Nat.min_eq_left (by omega)]; rfl
  · next h => rw [Nat.min_eq_right (by omega)]; rfl

/-- A register written with a word of a selector. -/
theorem WritesReg.errq (d : Reg) {sel : BitVec 4} {v : State → Word} (h : ∀ s : State, s.errq sel.toNat = v s) : WritesReg (.errq d sel) d v :=
  .of_eq fun s => by rw [← h]; rfl

-- `BLST`.

/-- The ballast word (R356): the bucket is at most 2^20 sixteenths. -/
theorem blst_word (s : State) : s.blst (columnOf s.myCell) = BitVec.ofNat 64
    (min (2 ^ 16) (((s.col (s.iss.src / 4 % 64)).tok +
        (s.col (s.iss.src / 4 % 64)).rate * (s.keel - (s.col (s.iss.src / 4 % 64)).at_)) / 16) +
      2 ^ 32 * (s.col (s.iss.src / 4 % 64)).rate + 2 ^ 44 * s.waitingSteps (s.iss.src / 4 % 64)) := by
  have hmin (x : Nat) : min 1048576 x / 16 = min (2 ^ 16) (x / 16) := by omega
  unfold State.blst State.bucket w64
  dsimp only
  rw [hmin]
  rfl

-- `EVT`.

/-- The record of `EVT` (R404). -/
theorem evtRecord (code : BitVec 16) (x : Option W32) (a : Word) :
    longRec 5 0 (code.toNat + 2 ^ 16 * x.elim 0 (·.toNat)) a.toNat =
      leBytes 16 (11 + 2 ^ 16 * code.toNat + 2 ^ 32 * (x.getD 0).toNat + 2 ^ 64 * a.toNat) := by
  have hcode := code.isLt
  have ha := a.isLt
  have hx : x.elim 0 (·.toNat) = (x.getD 0).toNat := by cases x <;> rfl
  have hxlt := (x.getD 0).isLt
  rw [longRec, hx, Nat.mod_eq_of_lt (a := a.toNat) ha, Nat.mod_eq_of_lt (by omega)]
  congr 1
  omega

/-- A traced record taken by the port where no LOST and no SYNC record comes before it. -/
theorem State.traceRec_of_taken {s : State} {src : Nat} (hlen : (s.dbg src).trlen ≠ 0) (hlost : (s.dbg src).trLost = 0)
    (hsync : (s.dbg src).trRecs % 4096 ≠ 0) (htakes : Config.traceTakes s.choices = true) (pc : Word)
    (bs : Dbg → List Byte × Option Word) (long : Bool) :
    s.traceRec src pc bs long = ({ s with choices := s.choices + 1 } : State).traceBytes src (bs (s.dbg src)).1 (bs (s.dbg src)).2 := by
  unfold State.traceRec
  dsimp only
  rw [if_neg hlen, Nat.add_sub_cancel, htakes, if_pos hlost]
  simp [State.dbg] at hsync ⊢
  simp [hsync]

theorem State.traceRec_of_dropped {s : State} {src : Nat} (hlen : (s.dbg src).trlen ≠ 0) (htakes : Config.traceTakes s.choices = false)
    (pc : Word) (bs : Dbg → List Byte × Option Word) (long : Bool) :
    s.traceRec src pc bs long = ({ s with choices := s.choices + 1 } : State).modDbg src fun d => { d with trLost := d.trLost + 1 } := by
  unfold State.traceRec
  dsimp only
  rw [if_neg hlen, Nat.add_sub_cancel, htakes]
  rfl

theorem State.dbg_traceBytes (s : State) (src n : Nat) (bs : List Byte) (field : Option Word) : (s.traceBytes src bs field).dbg n =
    if src = n then { s.dbg src with tridx := (s.dbg src).tridx + bs.length, trRecs := (s.dbg src).trRecs + 1, trKeel := s.keel, trPc := field.getD (s.dbg src).trPc }
    else s.dbg n := State.dbg_modDbg ..

/-- The bytes of the record that `EVT` writes. -/
def State.evtBytes (s : State) (code : BitVec 16) (a : Reg) : List Byte :=
  longRec 5 0 (code.toNat + 2 ^ 16 * (s.iss.xtnd.elim 0 (·.toNat))) (s.scalar a).toNat

theorem exec_evt (s : State) (a : Reg) (code : BitVec 16) :
    exec (.evt a code) s = .next (s.traceRec s.iss.src s.iss.pc (fun _ => (s.evtBytes code a, none)) true) := rfl

/-- Settles O17. -/
theorem errorAndBallastReads : Obligations.ErrorAndBallastReads := by
  unfold Obligations.ErrorAndBallastReads
  intro d a code
  refine ⟨.errq d fun s => errWord_eq_or .., .errq d fun _ => rfl, .errq d fun _ => rfl, .errq d fun s => unwinds_word _,
    .errq d fun _ => rfl, .errq d fun _ => rfl, .errq d fun _ => rfl, .errq d fun _ => rfl, fun s => ?blst,
    fun s h => congrArg Host.Outcome.next (State.traceRec_of_untraced h ..), fun s => ?evt⟩
  case blst =>
    obtain ⟨hmine, -, hrest, hreg, -⟩ := setScalar_spec s d (s.blst (columnOf s.myCell))
    exact ⟨_, rfl, hmine, hrest, fun hd => (hreg hd).trans (blst_word s)⟩
  case evt =>
    intro b hlen hlost hsync
    have htraced := State.traceRec_traced s s.iss.src s.iss.pc (fun _ => (s.evtBytes code a, none)) true
    refine ⟨_, exec_evt s a code, htraced.me, by rw [htraced], ?_⟩
    cases htakes : Config.traceTakes s.choices with
    | false =>
      rw [State.traceRec_of_dropped hlen htakes]
      refine ⟨fun m hm => (State.dbg_modDbg ..).trans (if_neg hm.symm), rfl, (State.dbg_modDbg ..).trans ((if_pos rfl).trans ?_)⟩
      rw [show (({ s with choices := s.choices + 1 } : State).dbg s.iss.src).trLost = 0 from hlost]
      rfl
    | true =>
      rw [State.traceRec_of_taken hlen hlost hsync htakes]
      have hlength : (s.evtBytes code a).length = 16 := leBytes_length ..
      refine ⟨fun m hm => (State.dbg_traceBytes ..).trans (if_neg hm.symm), _, rfl, ?_, ?_, ?_⟩
      · rw [State.dbg_traceBytes, if_pos rfl, hlength]; rfl
      · rw [State.dbg_traceBytes, if_pos rfl]; rfl
      · dsimp only
        rw [hlength, State.evtBytes, evtRecord]
        rfl

end Sys2Proof.Machine
end

section
/-! The leaf update port (R268 to R271). -/

namespace Sys2Proof.Machine

-- Fields of a page-table entry.

/-- A replaced field lies between the bits above it and those below. -/
theorem setBits_eq (v lo n x : Nat) : setBits v lo n x = (v / 2 ^ lo / 2 ^ n * 2 ^ n + x % 2 ^ n) * 2 ^ lo + v % 2 ^ lo := by
  have hlow := Nat.div_add_mod v (2 ^ lo)
  have hfield := Nat.div_add_mod (v / 2 ^ lo) (2 ^ n)
  have hv : v = bitsOf v lo n * 2 ^ lo + (v / 2 ^ lo / 2 ^ n * 2 ^ n * 2 ^ lo + v % 2 ^ lo) := by
    calc v = 2 ^ lo * (2 ^ n * (v / 2 ^ lo / 2 ^ n) + v / 2 ^ lo % 2 ^ n) + v % 2 ^ lo := by rw [hfield, hlow]
      _ = bitsOf v lo n * 2 ^ lo + (v / 2 ^ lo / 2 ^ n * 2 ^ n * 2 ^ lo + v % 2 ^ lo) := by rw [bitsOf]; ring
  rw [setBits]
  have hsub : v - bitsOf v lo n * 2 ^ lo = v / 2 ^ lo / 2 ^ n * 2 ^ n * 2 ^ lo + v % 2 ^ lo := by omega
  rw [hsub]; ring

/-- The entry that a change of leaf writes: the new software fields, the next GEN, and ACNT. -/
def changedPte (hi lo : Word) (gen acnt : Nat) : BitVec 128 :=
  BitVec.ofNat 128 (setBits (setBits (hi ++ lo : BitVec 128).toNat 64 16 gen) 80 16 acnt)

theorem toNat_append_words (hi lo : Word) : (hi ++ lo : BitVec 128).toNat = hi.toNat * 2 ^ 64 + lo.toNat := by
  rw [BitVec.toNat_append, ← Nat.shiftLeft_add_eq_or_of_lt lo.isLt, Nat.shiftLeft_eq]

theorem toNat_changedPte (hi lo : Word) (gen acnt : Nat) : (changedPte hi lo gen acnt).toNat =
    ((hi.toNat / 2 ^ 32 * 2 ^ 16 + acnt % 2 ^ 16) * 2 ^ 16 + gen % 2 ^ 16) * 2 ^ 64 + lo.toNat := by
  have hlo := lo.isLt
  have hhi := hi.isLt
  rw [changedPte, BitVec.toNat_ofNat, toNat_append_words, setBits_eq, setBits_eq]
  omega

theorem changedPte_fields (hi lo : Word) (gen acnt : Nat) :
    (changedPte hi lo gen acnt).extractLsb' 0 64 = lo ∧ (changedPte hi lo gen acnt).extractLsb' 64 16 = BitVec.ofNat 16 gen ∧
    (changedPte hi lo gen acnt).extractLsb' 80 16 = BitVec.ofNat 16 acnt ∧
    (changedPte hi lo gen acnt).extractLsb' 96 32 = hi.extractLsb' 32 32 := by
  have hlo := lo.isLt
  have hhi := hi.isLt
  have hvalue := toNat_changedPte hi lo gen acnt
  generalize (changedPte hi lo gen acnt) = e at hvalue ⊢
  have hfield (a n : Nat) : (e.extractLsb' a n).toNat = e.toNat / 2 ^ a % 2 ^ n := by
    rw [BitVec.extractLsb'_toNat, Nat.shiftRight_eq_div_pow]
  refine ⟨BitVec.eq_of_toNat_eq ?_, BitVec.eq_of_toNat_eq ?_, BitVec.eq_of_toNat_eq ?_, BitVec.eq_of_toNat_eq ?_⟩
  · rw [hfield, hvalue]; omega
  · rw [hfield, hvalue, BitVec.toNat_ofNat]; omega
  · rw [hfield, hvalue, BitVec.toNat_ofNat]; omega
  · rw [hfield, hvalue, BitVec.extractLsb'_toNat, Nat.shiftRight_eq_div_pow]; omega

-- The port.

/-- LSTAT set, with the job of the start. -/
def State.leafStarted (s : State) (v : Nat) : State := s.modLport s.arg.a fun l => { l with
  lstat := v, job := ⟨l.leaf, l.expGen, l.newLo, l.newHi, s.arg.b / 2 % 2 = 1⟩ }

theorem lstat_leafStarted (s : State) (v : Nat) : ((s.leafStarted v).lport s.arg.a) = { s.lport s.arg.a with
    lstat := v, job := ⟨(s.lport s.arg.a).leaf, (s.lport s.arg.a).expGen, (s.lport s.arg.a).newLo, (s.lport s.arg.a).newHi, s.arg.b / 2 % 2 = 1⟩ } :=
  (State.lport_modLport ..).trans (if_pos rfl)

/-- The entry may be changed by the source of the port (R268): its stack is one of the source's, and it is no table's. -/
abbrev State.leafRight (s : State) (n a : Nat) : Prop :=
  s.mayChange n a = true ∧ ((s.pte a).getLsbD 0 = true → (s.pte a).getLsbD 1 = true)

theorem State.leafRight_iff (s : State) (n a : Nat) :
    ¬ (!(s.mayChange n a) || ((s.pte a).getLsbD 0 && !((s.pte a).getLsbD 1))) = true ↔ s.leafRight n a := by
  unfold State.leafRight
  cases s.mayChange n a <;> cases (s.pte a).getLsbD 0 <;> cases (s.pte a).getLsbD 1 <;> simp

theorem exec_leafUpdateStart_of_right {s : State} (hidle : (s.lport s.arg.a).lstat ≠ 1) (hright : s.leafRight s.arg.a (s.lport s.arg.a).leaf) :
    exec .leafUpdateStart s = .next (if (s.pte (s.lport s.arg.a).leaf).extractLsb' 64 16 ≠ (s.lport s.arg.a).expGen then s.leafStarted 3
      else (s.leafStarted 1).post .leafUpdateCommit { a := s.arg.a }) := by
  simp only [exec, execLeafUpdateStart, if_neg hidle, if_neg ((State.leafRight_iff ..).2 hright)]
  split <;> rfl

theorem exec_leafUpdateStart_of_wrong {s : State} (hidle : (s.lport s.arg.a).lstat ≠ 1) (hmay : s.mayChange s.arg.a (s.lport s.arg.a).leaf = false) :
    exec .leafUpdateStart s = .next (s.leafStarted 4) := by
  simp only [exec, execLeafUpdateStart, if_neg hidle, hmay]
  rfl

-- The commit.

/-- No source at or after `n` has made a change in this nanosecond (R271). -/
theorem State.leafPassed_eq_false {s : State} {n : Nat} (h : ¬ ∃ p ∈ s.lports, n ≤ p.1 ∧ p.2.last = s.keel + 1) : s.leafPassed n = false := by
  simpa [State.leafPassed] using h

theorem State.leafPassed_eq_true {s : State} {n : Nat} (h : ∃ p ∈ s.lports, n ≤ p.1 ∧ p.2.last = s.keel + 1) : s.leafPassed n = true := by
  simpa [State.leafPassed] using h

theorem exec_leafUpdateCommit_of_idle {s : State} (h : (s.lport s.arg.a).lstat ≠ 1 ∨ s.leafPassed s.arg.a = true) :
    exec .leafUpdateCommit s = .next s := by
  simp only [exec, execLeafUpdateCommit]
  rw [if_pos (by simpa using h)]

section
variable {s : State} (hbusy : (s.lport s.arg.a).lstat = 1) (hfirst : s.leafPassed s.arg.a = false)
include hbusy hfirst

theorem exec_leafUpdateCommit_of_wrong (hright : ¬ s.leafRight s.arg.a (s.lport s.arg.a).job.leaf) :
    exec .leafUpdateCommit s = .next (s.modLport s.arg.a fun l => { l with lstat := 4 }) := by
  simp only [exec, execLeafUpdateCommit]
  rw [if_neg (by simp [hbusy, hfirst]), if_pos (not_not.1 fun h => hright ((State.leafRight_iff ..).1 h))]

variable (hright : s.leafRight s.arg.a (s.lport s.arg.a).job.leaf)
include hright

theorem exec_leafUpdateCommit_of_gen (hgen : (s.pte (s.lport s.arg.a).job.leaf).extractLsb' 64 16 ≠ (s.lport s.arg.a).job.expGen) :
    exec .leafUpdateCommit s = .next (s.modLport s.arg.a fun l => { l with lstat := 3 }) := by
  simp only [exec, execLeafUpdateCommit]
  rw [if_neg (by simp [hbusy, hfirst]), if_neg ((State.leafRight_iff ..).2 hright), if_pos hgen]

theorem exec_leafUpdateCommit_of_match (hgen : (s.pte (s.lport s.arg.a).job.leaf).extractLsb' 64 16 = (s.lport s.arg.a).job.expGen) :
    exec .leafUpdateCommit s = .next (if 4096 ≤ (s.changes.filter fun c =>
      c.part = (stackOf (s.lport s.arg.a).job.leaf).elim 0 s.partOfStack).length then s else s.commitLeaf s.arg.a) := by
  simp only [exec, execLeafUpdateCommit]
  rw [if_neg (by simp [hbusy, hfirst]), if_neg ((State.leafRight_iff ..).2 hright), if_neg (not_not.2 hgen)]
  by_cases hfull : 4096 ≤ (s.changes.filter fun c => c.part = (stackOf (s.lport s.arg.a).job.leaf).elim 0 s.partOfStack).length
  · rw [if_pos hfull]; exact if_pos hfull
  · rw [if_neg hfull]; exact if_neg hfull

end

/-- The ACNT that a change writes. -/
def LeafJob.acnt (j : LeafJob) (o : BitVec 128) : Nat := if j.resetCnt then 0 else bitsOf o.toNat 80 16

/-- The partition whose stack holds an entry. -/
def State.leafOwner (s : State) (a : Nat) : Nat := (stackOf a).elim 0 s.partOfStack

/-- The state after the change of a job of port `n`: the entry, the port's registers and the change record. -/
def State.leafChanged (s : State) (n : Nat) (j : LeafJob) : State :=
  { ((s.putPte n (s.leafOwner j.leaf) j.leaf (changedPte j.newHi j.newLo (j.expGen.toNat + 1) (j.acnt (s.pte j.leaf)))).modLport n fun l =>
      { l with
        lstat := 2, tcommit := s.keel
        reuse := s.keel + max (⟨j.leaf, s.pte j.leaf⟩ : Leaf).lease (⟨j.leaf, j.newHi ++ j.newLo⟩ : Leaf).lease + 2 ^ 20 + 64
        last := s.keel + 1 }) with
    changes := s.changes ++ [⟨s.leafOwner j.leaf, j.leaf, s.keel + (⟨j.leaf, s.pte j.leaf⟩ : Leaf).lease⟩] }

theorem State.commitLeaf_of_change {s : State} {n : Nat}
    (h : swFields ((s.lport n).job.newHi ++ (s.lport n).job.newLo) ≠ swFields (s.pte (s.lport n).job.leaf)) :
    s.commitLeaf n = s.leafChanged n (s.lport n).job := by
  unfold State.commitLeaf
  dsimp only
  rw [if_neg h]
  rfl

theorem State.pte_putPte (s : State) (src part a b : Nat) (e : BitVec 128) : (s.putPte src part a e).pte b = if a = b then e else s.pte b :=
  tget_tput ..

theorem State.pte_leafChanged (s : State) (n a : Nat) (j : LeafJob) : (s.leafChanged n j).pte a =
    if j.leaf = a then changedPte j.newHi j.newLo (j.expGen.toNat + 1) (j.acnt (s.pte j.leaf)) else s.pte a := s.pte_putPte n (s.leafOwner j.leaf) ..

theorem State.lport_leafChanged (s : State) (n : Nat) (j : LeafJob) : (s.leafChanged n j).lport n = { s.lport n with
    lstat := 2, tcommit := s.keel
    reuse := s.keel + max (⟨j.leaf, s.pte j.leaf⟩ : Leaf).lease (⟨j.leaf, j.newHi ++ j.newLo⟩ : Leaf).lease + 2 ^ 20 + 64
    last := s.keel + 1 } := tget_tput_self ..

theorem Leaf.lease_eq (l : Leaf) : l.lease = 2 ^ (l.e.extractLsb' 10 4).toNat * 256 := by
  rw [Leaf.lease, Leaf.f, bitsOf, BitVec.extractLsb'_toNat, Nat.shiftRight_eq_div_pow, Nat.pow_add]

theorem lease_newLo (hi lo : Word) : (hi ++ lo : BitVec 128).extractLsb' 10 4 = lo.extractLsb' 10 4 := by
  apply BitVec.eq_of_toNat_eq
  rw [BitVec.extractLsb'_toNat, BitVec.extractLsb'_toNat, Nat.shiftRight_eq_div_pow, Nat.shiftRight_eq_div_pow, toNat_append_words]
  omega

theorem ofNat_acnt (j : LeafJob) (o : BitVec 128) : BitVec.ofNat 16 (j.acnt o) = if j.resetCnt then 0 else o.extractLsb' 80 16 := by
  unfold LeafJob.acnt
  split
  · rfl
  · apply BitVec.eq_of_toNat_eq
    rw [BitVec.toNat_ofNat, BitVec.extractLsb'_toNat, Nat.shiftRight_eq_div_pow, bitsOf, Nat.mod_mod]

/-- Settles O21. -/
theorem leafUpdates : Obligations.LeafUpdates := by
  unfold Obligations.LeafUpdates
  intro s n l e j o owner first right
  refine ⟨fun hidle hmay hleaf hgen => ⟨(s.leafStarted 1).post .leafUpdateCommit { a := n }, ?_, rfl, lstat_leafStarted s 1, rfl⟩,
    fun hidle hmay hleaf hgen => ⟨s.leafStarted 3, ?_, rfl, congrArg LeafPort.lstat (lstat_leafStarted s 3)⟩,
    fun hidle hmay => ⟨s.leafStarted 4, exec_leafUpdateStart_of_wrong hidle hmay, rfl, congrArg LeafPort.lstat (lstat_leafStarted s 4)⟩,
    fun h => exec_leafUpdateCommit_of_idle (h.imp_right fun h => State.leafPassed_eq_true (not_not.1 h)),
    fun hbusy hfirst hright => ⟨_, exec_leafUpdateCommit_of_wrong hbusy (State.leafPassed_eq_false hfirst) hright, rfl, ?_⟩,
    fun hbusy hfirst hright hgen => ⟨_, exec_leafUpdateCommit_of_gen hbusy (State.leafPassed_eq_false hfirst) hright hgen, rfl, ?_⟩,
    fun hbusy hfirst hright hgen hroom hchange => ?commit,
    fun hbusy hfirst hright hgen hfull => ?full⟩
  · rw [exec_leafUpdateStart_of_right hidle ⟨hmay, hleaf⟩, if_neg (not_not.2 hgen)]
  · rw [exec_leafUpdateStart_of_right hidle ⟨hmay, hleaf⟩, if_pos hgen]
  · rw [State.lport_modLport, if_pos rfl]
  · rw [State.lport_modLport, if_pos rfl]
  case full =>
    rw [exec_leafUpdateCommit_of_match hbusy (State.leafPassed_eq_false hfirst) hright hgen, if_pos hfull]
  case commit =>
    have hrun := exec_leafUpdateCommit_of_match hbusy (State.leafPassed_eq_false hfirst) hright hgen
    rw [if_neg (Nat.not_le.2 hroom), State.commitLeaf_of_change hchange] at hrun
    obtain ⟨hlow, hnext, hcount, hhigh⟩ := changedPte_fields j.newHi j.newLo (j.expGen.toNat + 1) (j.acnt o)
    have hpte : (s.leafChanged n j).pte j.leaf = changedPte j.newHi j.newLo (j.expGen.toNat + 1) (j.acnt o) :=
      (s.pte_leafChanged n j.leaf j).trans (if_pos rfl)
    refine ⟨s.leafChanged n j, hrun, rfl, rfl, ?_, ?_, ?_, ?_, fun a ha => (s.pte_leafChanged n a j).trans (if_neg ha.symm), ?_,
      _, s.lport_leafChanged n j, ?_⟩
    · rw [hpte, hlow]
    · rw [hpte, hnext, BitVec.ofNat_add, BitVec.ofNat_toNat, BitVec.setWidth_eq]; rfl
    · rw [hpte, hcount, ofNat_acnt]
    · rw [hpte, hhigh]
    · rw [← Leaf.lease_eq ⟨j.leaf, o⟩]; rfl
    · rw [Leaf.lease_eq, Leaf.lease_eq, lease_newLo]

end Sys2Proof.Machine
end

section
/-! Walks read the tables, the partitions and the geometry of a state, and nothing else of it (R250 to R255, R311). -/

namespace Sys2Proof.Machine

/-- Two states with the same page tables, partitions and geometry. -/
structure SameTables (s t : State) : Prop where
  nparts : t.nparts = s.nparts
  qowner : t.qowner = s.qowner
  parts : t.parts = s.parts
  pt : t.pt = s.pt

namespace SameTables

variable {s t : State} (h : SameTables s t)
include h

theorem stacksPer : t.stacksPer = s.stacksPer := by rw [State.stacksPer, State.stacksPer, h.nparts]

theorem partOfStack (n : Nat) : t.partOfStack n = s.partOfStack n := by
  rw [State.partOfStack, State.partOfStack, h.stacksPer]

theorem partOfCell (n : Nat) : t.partOfCell n = s.partOfCell n := by
  rw [State.partOfCell, State.partOfCell, h.stacksPer]

theorem part (n : Nat) : t.part n = s.part n := by rw [State.part, State.part, h.parts]

theorem pte (a : Nat) : t.pte a = s.pte a := by rw [State.pte, State.pte, h.pt]

theorem ownsHbm (p pa : Nat) : t.ownsHbm p pa = s.ownsHbm p pa := by rw [State.ownsHbm, State.ownsHbm, h.partOfStack]

theorem leafOk (p : Nat) (l : Leaf) : t.leafOk p l = s.leafOk p l := by
  simp only [State.leafOk, h.ownsHbm, h.stacksPer, State.partOfQueue, h.qowner] <;> rfl

theorem checkLeaf (p : Nat) (l : Leaf) : t.checkLeaf p l = s.checkLeaf p l := by simp only [State.checkLeaf, h.leafOk]

theorem leaf3 (p tbl idx : Nat) : t.leaf3 p tbl idx = s.leaf3 p tbl idx := by simp only [State.leaf3, h.checkLeaf, h.pte]

theorem walkFrom (p va fuel lvl tbl : Nat) : t.walkFrom p va fuel lvl tbl = s.walkFrom p va fuel lvl tbl := by
  induction fuel generalizing lvl tbl with
  | zero => rfl
  | succ fuel ih => simp only [State.walkFrom, h.leaf3, h.checkLeaf, h.pte, h.ownsHbm, ih]

theorem walk (p va : Nat) : t.walk p va = s.walk p va := by simp only [State.walk, h.part, h.ownsHbm, h.walkFrom]

theorem canon (p pa : Nat) : t.canon p pa = s.canon p pa := by simp only [State.canon, h.stacksPer]

theorem addrs (p pa n : Nat) : t.addrs p pa n = s.addrs p pa n := by simp only [State.addrs, h.canon]

theorem vaKind (p : Nat) (va : Int) : t.vaKind p va = s.vaKind p va := by simp only [State.vaKind, h.walk]

theorem endKinds (p : Nat) (x : Xfer) : t.endKinds p x = s.endKinds p x := by
  simp only [State.endKinds, h.vaKind, State.objOf, h.part]

theorem promise (hchans : t.chans = s.chans) (ch k : Nat) (x : Xfer) : t.promise ch k x = s.promise ch k x := by
  simp only [State.promise, h.endKinds, State.chan, hchans, State.chanPart, h.partOfCell] <;> rfl

theorem engineWalk (hchanges : t.changes = s.changes) (hkeel : t.keel = s.keel) (hskew : t.skew = s.skew) (p va : Nat) (w : Bool) :
    t.engineWalk p va w = s.engineWalk p va w := by
  simp only [State.engineWalk, h.walk, State.writeLeaseAllowed, hchanges, hkeel, hskew] <;> rfl

end SameTables

end Sys2Proof.Machine
end

section
/-! The copy instructions (R300, R306, R315 to R318). -/

namespace Sys2Proof.Machine

-- Two results.

/-- Two scalars written one after the other. -/
theorem setScalar_setScalar_spec (s : State) (d b : Reg) (x y : Word) :
    let t := (s.setScalar d x).setScalar b y
    t = { s with ctxs := t.ctxs } ∧ OthersKept s t s.iss.src ∧ t.me = { s.me with regs := t.me.regs } ∧
    (b ≠ 0 → t.me.reg (physReg s.iss.rrb b) = y) ∧
    (d ≠ 0 → b = 0 ∨ physReg s.iss.rrb d ≠ physReg s.iss.rrb b → t.me.reg (physReg s.iss.rrb d) = x) := by
  intro t
  obtain ⟨-, hiss, hme, hd, -⟩ := setScalar_spec s d x
  obtain ⟨-, -, hme', hb, hrest⟩ := setScalar_spec (s.setScalar d x) b y
  rw [hiss] at hb hrest
  refine ⟨?_, ?_, by rw [hme', hme], hb, fun hne hother => (hrest _ hother).trans (hd hne)⟩
  · rw [show t = (s.setScalar d x).setScalar b y from rfl, State.setScalar_eq, State.setScalar_eq]
  · have hsecond := othersKept_setScalar (s.setScalar d x) b y
    rw [hiss] at hsecond
    exact (othersKept_setScalar s d x).trans hsecond

-- Submitting (R301, R315).

/-- The packet as the engine's slot holds it: the follow-on's flag, and the id at its end. -/
def packetOf (bytes : List Byte) (w : Nat) (follow : Bool) : List Byte := State.submit.setFlg follow (slice bytes 0 60 ++ leBytes 4 w)

/-- The transfer that a thread submits. -/
def State.ownXfer (s : State) (ch : Nat) (bytes : List Byte) (follow : Bool) : Xfer :=
  { id := (s.chan ch).widx, pkt := packetOf bytes (s.chan ch).widx follow, by_ := some s.iss.src, work := s.me.node, follow := follow }

/-- A packet of the thread is put in the slot at `pa`. -/
def State.submitted (s : State) (ch pa : Nat) (x : Xfer) : State :=
  (s.addAt s.iss.src (s.chanPart ch) 0 ⟨s.keel, s.iss.src⟩ .part pa x.pkt 0 0).modChan ch fun c => ({ c with
    widx := x.id + 1, look := true, subs := c.subs ++ [⟨x.id, x.by_, x.node, x.work, x.follow⟩] } : Chan).promised x.id (s.promise ch s.keel x)

theorem State.submit_of_walk {s : State} {ch pa : Nat} {bytes : List Byte} {follow : Bool}
    (hwalk : s.engineWalk (s.chanPart ch) ((s.chan ch).base + 64 * ((s.chan ch).widx % (s.chan ch).len)) true = some (.ok pa))
    (hzero : (s.ownXfer ch bytes follow).zero = false) :
    s.submit ch bytes s.iss.src (some s.iss.src) none follow =
      some (.ok ((s.chan ch).widx, s.promise ch s.keel (s.ownXfer ch bytes follow), s.submitted ch pa (s.ownXfer ch bytes follow))) := by
  unfold State.submit
  dsimp only
  rw [hwalk]
  dsimp only
  rw [if_neg]
  · rfl
  · rw [Bool.and_eq_true]
    exact fun h => Bool.false_ne_true (hzero.symm.trans h.1)

theorem State.vers_submitted (s : State) (ch pa : Nat) (x : Xfer) : ∃ v, (s.submitted ch pa x).vers = s.vers ++ [v] ∧
    v.cells = (s.addrs (s.chanPart ch) pa x.pkt.length).zip x.pkt := ⟨_, rfl, rfl⟩

theorem State.ctx_submitted (s : State) (ch pa : Nat) (x : Xfer) (n : Nat) : (s.submitted ch pa x).ctx n = s.ctx n := rfl

theorem State.isDone_submitted (s : State) (ch pa : Nat) (x : Xfer) (id : Nat) :
    ((s.submitted ch pa x).chan ch).isDone id = (s.chan ch).isDone id := by
  rw [State.submitted, State.chan_modChan, if_pos rfl]
  rfl

/-- The channels of a cell are of its partition. -/
theorem State.chanPart_own (s : State) (c4 : BitVec 2) : s.chanPart (4 * s.myCell + c4.toNat) = s.myPart := by
  have h : (4 * s.myCell + c4.toNat) / 4 = s.myCell := by
    have := c4.isLt
    omega
  rw [State.chanPart, h]; rfl

-- `COPY` and `COPYF` (R315, R316).

/-- The state in which a `COPY` submits: the regions of its packet are owned, and the thread's stores are published (log 56). -/
def State.copyReady (s : State) (cs : List (Nat × CellSt)) : State := ({ s with cells := cs } : State).publishNow .part

/-- The follow-on's entry, if any, waits in the tensor buffer. -/
def State.followed (s : State) (follow : Option (Instr × Word)) (ch w : Nat) : State :=
  match follow with
  | some (i, word) => s.followEntry i word ch w
  | none => s

/-- The transfer is the thread's to wait for. -/
def State.noteCopy (s : State) (ch w : Nat) : State := s.modMe fun c => { c with copies := c.copies ++ [(ch, w, c.cur.isSome)] }

section
variable (s : State) (cs : List (Nat × CellSt))

theorem State.me_copyReady : (s.copyReady cs).me = { s.me with lastB := s.keel + 1 } := State.me_publishNow ..

theorem State.chan_copyReady (k : Nat) : (s.copyReady cs).chan k = s.chan k := rfl

theorem State.sameTables_copyReady : SameTables s (s.copyReady cs) := ⟨rfl, rfl, rfl, rfl⟩

theorem State.engineWalk_copyReady (part va : Nat) (w : Bool) : (s.copyReady cs).engineWalk part va w = s.engineWalk part va w :=
  (s.sameTables_copyReady cs).engineWalk rfl rfl rfl part va w

theorem State.vers_copyReady : (s.copyReady cs).vers = (s.publish s.iss.src .part).vers := rfl

theorem State.chanPart_copyReady (k : Nat) : (s.copyReady cs).chanPart k = s.chanPart k := rfl

theorem State.promise_copyReady (ch k : Nat) (x : Xfer) : (s.copyReady cs).promise ch k x = s.promise ch k x :=
  (s.sameTables_copyReady cs).promise rfl ch k x

theorem State.keel_copyReady : (s.copyReady cs).keel = s.keel := rfl

theorem State.spadRead_copyReady (cell a n : Nat) : (s.copyReady cs).spadRead (s.copyReady cs).pathL cell a n = s.spadRead s.pathL cell a n := by
  have hpath : (s.copyReady cs).pathL = s.pathL := by rw [State.pathL, State.me_copyReady]; rfl
  rw [hpath]; rfl

theorem State.ownXfer_copyReady (ch : Nat) (bytes : List Byte) (follow : Bool) : (s.copyReady cs).ownXfer ch bytes follow = s.ownXfer ch bytes follow := by
  rw [State.ownXfer, State.me_copyReady]; rfl

end

/-- What a `COPY` does once its thread's stores are published. -/
def State.copyBody (d b : Reg) (ch x : Nat) (follow : Option (Instr × Word)) (s : State) : State :=
  match s.submit ch (s.spadRead s.pathL s.myCell x 64) s.iss.src (some s.iss.src) none follow.isSome with
  | none => s.waitOn 3 (chanSrc ch) none
  | some (.error e) => (s.setScalar d allOnes).setScalar b (w64 e)
  | some (.ok (w, p, s)) =>
    let s := s.followed follow ch w
    let s := if (s.chan ch).isDone w then s else s.noteCopy ch w
    (s.setScalar d (w64 w)).setScalar b (w64 p)

theorem State.copyBody_of_submit {s u : State} {ch x w p : Nat} {follow : Option (Instr × Word)}
    (h : s.submit ch (s.spadRead s.pathL s.myCell x 64) s.iss.src (some s.iss.src) none follow.isSome = some (.ok (w, p, u))) (d b : Reg) :
    State.copyBody d b ch x follow s = (((if ((u.followed follow ch w).chan ch).isDone w = true then u.followed follow ch w
      else (u.followed follow ch w).noteCopy ch w).setScalar d (w64 w)).setScalar b (w64 p)) := by
  rw [State.copyBody, h]

/-- The same from the read of its packet on. -/
def State.copyAt (d b : Reg) (ch x : Nat) (follow : Option (Instr × Word)) (s : State) : State :=
  if s.spadPoisoned s.myCell x 64 then s.poisoned else s.afterPublish .part (State.copyBody d b ch x follow)

theorem State.copyAt_of_clean {s : State} {cs : List (Nat × CellSt)} {d b : Reg} {ch x : Nat} {follow : Option (Instr × Word)}
    (hpoison : s.spadPoisoned s.myCell x 64 = false) (hmay : s.mayBound .part = true) :
    State.copyAt d b ch x follow { s with cells := cs } = State.copyBody d b ch x follow (s.copyReady cs) := by
  have hclean : ¬ ({ s with cells := cs } : State).spadPoisoned ({ s with cells := cs } : State).myCell x 64 = true :=
    fun h => Bool.false_ne_true (hpoison.symm.trans h)
  have hmay' : ({ s with cells := cs } : State).mayBound .part = true := hmay
  rw [State.copyAt, if_neg hclean, State.afterPublish_of_mayBound hmay']
  rfl

theorem State.copyIssue_eq (s : State) (d b a : Reg) (c4 : BitVec 2) (follow : Option (Instr × Word)) : s.copyIssue d b a c4 follow =
    let ch := 4 * s.myCell + c4.toNat
    let x := (s.scalar a).toNat
    if x % 8 ≠ 0 || !(spadOk x 64) then s.fatal .spadRange
    else if (s.chan ch).len = 0 then (s.setScalar d allOnes).setScalar b 0
    else if 1 < (s.chan ch).pend then s.waitOn 3 (chanSrc ch) none
    else if follow.isSome && 4 ≤ s.me.bufT.length then s.stall
    else s.afterAccess fun s => s.withSpad x 64 (State.copyAt d b ch x follow) := rfl

section
variable {s : State} {d b a : Reg} {c4 : BitVec 2} {follow : Option (Instr × Word)}
  (haligned : (s.scalar a).toNat % 8 = 0) (hlen : (s.chan (4 * s.myCell + c4.toNat)).len ≠ 0)
include haligned hlen

theorem State.copyIssue_of_ready {pa : Nat} (hpend : (s.chan (4 * s.myCell + c4.toNat)).pend ≤ 1)
    (hroom : follow.isSome = true → s.me.bufT.length < 4) (haccess : s.me.bufA = []) (hstreams : s.me.streams = [])
    (husable : s.spadUsable (s.scalar a).toNat 64) (hpoison : s.spadPoisoned s.myCell (s.scalar a).toNat 64 = false) (hmay : s.mayBound .part = true)
    (hwalk : s.engineWalk s.myPart ((s.chan (4 * s.myCell + c4.toNat)).base +
      64 * ((s.chan (4 * s.myCell + c4.toNat)).widx % (s.chan (4 * s.myCell + c4.toNat)).len)) true = some (.ok pa))
    (hdone : (s.chan (4 * s.myCell + c4.toNat)).isDone (s.chan (4 * s.myCell + c4.toNat)).widx = false)
    {x : Xfer} (hx : x = s.ownXfer (4 * s.myCell + c4.toNat) (s.spadRead s.pathL s.myCell (s.scalar a).toNat 64) follow.isSome)
    (hzero : x.zero = false) :
    ∃ cs, s.copyIssue d b a c4 follow =
      ((((((s.copyReady cs).submitted (4 * s.myCell + c4.toNat) pa x).followed follow (4 * s.myCell + c4.toNat) x.id).noteCopy
        (4 * s.myCell + c4.toNat) x.id).setScalar d (w64 x.id)).setScalar b (w64 (s.promise (4 * s.myCell + c4.toNat) s.keel x))) := by
  subst hx
  set ch := 4 * s.myCell + c4.toNat with hch
  set x := s.ownXfer ch (s.spadRead s.pathL s.myCell (s.scalar a).toNat 64) follow.isSome with hx
  obtain ⟨cs, hcs⟩ := State.withSpad_of_usable husable
  refine ⟨cs, ?_⟩
  have hrange : spadOk (s.scalar a).toNat 64 = true := decide_eq_true husable.1
  have haccessed : (s.me.bufA.isEmpty && s.me.streams.isEmpty) = true := by rw [haccess, hstreams]; rfl
  have hpart : s.chanPart ch = s.myPart := State.chanPart_own s c4
  have hbytes := s.spadRead_copyReady cs s.myCell (s.scalar a).toNat 64
  have hsubmit := State.submit_of_walk (s := s.copyReady cs) (ch := ch) (pa := pa)
    (bytes := s.spadRead s.pathL s.myCell (s.scalar a).toNat 64) (follow := follow.isSome) (by
      rw [State.engineWalk_copyReady, State.chan_copyReady, State.chanPart_copyReady, hpart]; exact hwalk)
    (by rw [State.ownXfer_copyReady]; exact hzero)
  rw [State.ownXfer_copyReady, State.promise_copyReady, State.keel_copyReady, State.chan_copyReady] at hsubmit
  have hundone : ¬ ((((s.copyReady cs).submitted ch pa x).followed follow ch x.id).chan ch).isDone x.id = true := by
    have hkept : ((((s.copyReady cs).submitted ch pa x).followed follow ch x.id).chan ch) = ((s.copyReady cs).submitted ch pa x).chan ch := by
      cases follow <;> rfl
    rw [hkept, State.isDone_submitted]
    exact fun h => Bool.false_ne_true (hdone.symm.trans h)
  rw [State.copyIssue_eq, if_neg (by simp [haligned, hrange]), if_neg hlen, if_neg (Nat.not_lt.2 hpend),
    if_neg (by rw [Bool.and_eq_true]; exact fun h => Nat.not_le.2 (hroom h.1) (of_decide_eq_true h.2)), State.afterAccess,
    if_pos haccessed, hcs, State.copyAt_of_clean hpoison hmay]
  refine (State.copyBody_of_submit (w := x.id) (p := s.promise ch s.keel x) (u := (s.copyReady cs).submitted ch pa x)
    (by rw [show (s.copyReady cs).myCell = s.myCell from rfl, hbytes]; exact hsubmit) d b).trans ?_
  rw [if_neg hundone]

end

-- What a `COPY` leaves.

/-- The entry of a follow-on (R316). -/
def State.followOnEntry (s : State) (i : Instr) (word : Word) (ch w : Nat) : Entry :=
  { s.entryOf i with word := word &&& ~~~(0xF#64 <<< 52), wake := some (ch, w), xtnd := none, lane := none }

theorem State.me_followEntry (u : State) (i : Instr) (word : Word) (ch w : Nat) : (u.followEntry i word ch w).me =
    { u.me with bufT := u.me.bufT ++ [u.followOnEntry i word ch w] } :=
  State.me_modMe u fun c => { c with bufT := c.bufT ++ [u.followOnEntry i word ch w] }

theorem othersKept_followEntry (u : State) (i : Instr) (word : Word) (ch w : Nat) : OthersKept u (u.followEntry i word ch w) u.iss.src :=
  othersKept_modMe u fun c => { c with bufT := c.bufT ++ [u.followOnEntry i word ch w] }

/-- Only what a submission writes has changed. -/
def Submits (s t : State) : Prop := t = { s with ctxs := t.ctxs, cells := t.cells, vers := t.vers, seq := t.seq, chans := t.chans }

theorem Submits.trans {s t u : State} (h : Submits s t) (k : Submits t u) : Submits s u := by
  unfold Submits at h k ⊢
  rw [k, h]

section
variable (s : State) (cs : List (Nat × CellSt)) (ch pa : Nat) (x : Xfer) (follow : Option (Instr × Word))

/-- The state of a `COPY` before it writes its results. -/
def State.copied : State := (((s.copyReady cs).submitted ch pa x).followed follow ch x.id).noteCopy ch x.id

theorem State.copied_submits : Submits s (s.copied cs ch pa x follow) := by
  have hready : Submits s (s.copyReady cs) := rfl
  have hsubmitted (u : State) : Submits u (u.submitted ch pa x) := rfl
  have hfollowed (u : State) : Submits u (u.followed follow ch x.id) := by cases follow <;> rfl
  have hnoted (u : State) : Submits u (u.noteCopy ch x.id) := rfl
  exact hready.trans ((hsubmitted _).trans ((hfollowed _).trans (hnoted _)))

theorem State.vers_copied : ∃ v, (s.copied cs ch pa x follow).vers = (s.publish s.iss.src .part).vers ++ [v] ∧
    v.cells = (s.addrs (s.chanPart ch) pa x.pkt.length).zip x.pkt := by
  have hkept : (s.copied cs ch pa x follow).vers = ((s.copyReady cs).submitted ch pa x).vers := by cases follow <;> rfl
  obtain ⟨v, hvers, hcells⟩ := (s.copyReady cs).vers_submitted ch pa x
  rw [(s.sameTables_copyReady cs).addrs, State.chanPart_copyReady] at hcells
  exact ⟨v, hkept.trans (hvers.trans (congrArg (· ++ [v]) (s.vers_copyReady cs))), hcells⟩

theorem State.chan_copied : (s.copied cs ch pa x follow).chan ch = ({ s.chan ch with
    widx := x.id + 1, look := true, subs := (s.chan ch).subs ++ [⟨x.id, x.by_, x.node, x.work, x.follow⟩] } : Chan).promised x.id
      (s.promise ch s.keel x) := by
  have hkept : (s.copied cs ch pa x follow).chan ch = ((s.copyReady cs).submitted ch pa x).chan ch := by cases follow <;> rfl
  rw [hkept, State.submitted, State.chan_modChan, if_pos rfl, State.promise_copyReady]
  rfl

theorem othersKept_followed (u : State) (w : Nat) : OthersKept u (u.followed follow ch w) u.iss.src := by
  cases follow with
  | none => exact fun _ _ => rfl
  | some p => exact othersKept_followEntry u p.1 p.2 ch w

theorem State.iss_followed (u : State) (w : Nat) : (u.followed follow ch w).iss = u.iss := by cases follow <;> rfl

theorem othersKept_noteCopy (u : State) (w : Nat) : OthersKept u (u.noteCopy ch w) u.iss.src := othersKept_modMe u _

theorem State.othersKept_copied : OthersKept s (s.copied cs ch pa x follow) s.iss.src := by
  intro n hn
  have hfollowed := othersKept_followed ch follow ((s.copyReady cs).submitted ch pa x) x.id n hn
  have hnoted := othersKept_noteCopy ch (((s.copyReady cs).submitted ch pa x).followed follow ch x.id) x.id n (by rwa [State.iss_followed])
  have hready := othersKept_modMe ({ s with cells := cs }.publish s.iss.src .part) (fun c => { c with lastB := s.keel + 1 }) n hn
  rw [State.copied, hnoted, hfollowed, State.ctx_submitted]
  exact hready

/-- The entries in the tensor buffer, with the follow-on's. -/
def State.bufTAfter : List Entry :=
  match follow with
  | some (i, word) => s.me.bufT ++ [((s.copyReady cs).submitted ch pa x).followOnEntry i word ch x.id]
  | none => s.me.bufT

theorem State.me_copied : (s.copied cs ch pa x follow).me = { s.me with
    lastB := s.keel + 1, bufT := s.bufTAfter cs ch pa x follow, copies := s.me.copies ++ [(ch, x.id, s.me.cur.isSome)] } := by
  have hsub : ((s.copyReady cs).submitted ch pa x).me = { s.me with lastB := s.keel + 1 } := s.me_copyReady cs
  rw [State.copied, State.noteCopy, State.me_modMe]
  cases follow with
  | none =>
    rw [State.followed, hsub]; rfl
  | some p =>
    rw [State.followed, State.me_followEntry, hsub]; rfl

end

theorem seeBytes_length (m : List Host.Cell) (late : List (Nat × Gran)) (p : Path) (c a n : Nat) : (seeBytes m late p c a n).length = n := by
  unfold seeBytes
  split
  · exact mreads_length ..
  · exact slice_length ..

/-- The packet, with the follow-on's flag in its second byte. -/
theorem packetOf_eq {bytes : List Byte} (h : bytes.length = 64) (w : Nat) (follow : Bool) : packetOf bytes w follow =
    (if follow then bytes.take 1 ++ [bytes[1]?.getD 0 ||| 2] ++ bytes.drop 2 else bytes).take 60 ++ leBytes 4 w := by
  obtain ⟨b0, b1, rest, rfl⟩ : ∃ b0 b1 rest, bytes = b0 :: b1 :: rest := by
    match bytes, h with
    | b0 :: b1 :: rest, _ => exact ⟨b0, b1, rest, rfl⟩
  have hslice : slice (b0 :: b1 :: rest) 0 60 = (b0 :: b1 :: rest).take 60 := by
    rw [slice, h, show 60 - (64 - 0) = 0 from rfl, List.replicate_zero, List.append_nil, List.drop_zero]
  rw [packetOf, hslice, State.submit.setFlg]
  cases follow <;> rfl

theorem packetOf_length (bytes : List Byte) (w : Nat) (follow : Bool) : (packetOf bytes w follow).length = 64 := by
  have hlength : (slice bytes 0 60 ++ leBytes 4 w).length = 64 := by rw [List.length_append, slice_length, leBytes_length]
  rw [packetOf, State.submit.setFlg]
  cases follow
  · exact hlength
  · simp only [if_true, List.length_append, List.length_cons, List.length_take, List.length_drop, hlength]
    rfl

/-- A `COPY` that is ready, from the transfer it makes to what it leaves. -/
theorem State.copyIssue_spec {s : State} {d b a : Reg} {c4 : BitVec 2} {follow : Option (Instr × Word)} {pa : Nat} {x : Xfer}
    (hx : x = s.ownXfer (4 * s.myCell + c4.toNat) (s.spadRead s.pathL s.myCell (s.scalar a).toNat 64) follow.isSome)
    (hrun : ∃ cs, s.copyIssue d b a c4 follow = (((s.copied cs (4 * s.myCell + c4.toNat) pa x follow).setScalar d (w64 x.id)).setScalar b
      (w64 (s.promise (4 * s.myCell + c4.toNat) s.keel x)))) :
    let k := 4 * s.myCell + c4.toNat
    let n := s.chan k
    let t := s.copyIssue d b a c4 follow
    ∃ v, t.iss = s.iss ∧ OthersKept s t s.iss.src ∧
      t.mem = s.mem ∧ t.spad = s.spad ∧ t.vers = (s.publish s.iss.src .part).vers ++ [v] ∧
      v.cells = (s.addrs s.myPart pa 64).zip x.pkt ∧ (t.chan k).widx = n.widx + 1 ∧ (t.chan k).look = true ∧
      (t.chan k).prom = s.promise k s.keel x ∧
      t.me = { s.me with regs := t.me.regs, copies := t.me.copies, bufT := t.me.bufT, lastB := s.keel + 1 } ∧
      t.me.copies = s.me.copies ++ [(k, n.widx, s.me.cur.isSome)] ∧
      (b ≠ 0 → t.me.reg (physReg s.iss.rrb b) = w64 (s.promise k s.keel x)) ∧
      (d ≠ 0 → b = 0 ∨ physReg s.iss.rrb d ≠ physReg s.iss.rrb b → t.me.reg (physReg s.iss.rrb d) = w64 n.widx) ∧
      (follow = none → t.me.bufT = s.me.bufT) ∧
      (∀ i word, follow = some (i, word) → ∃ e, t.me.bufT = s.me.bufT ++ [e] ∧ e.instr = i ∧ e.wake = some (k, n.widx)) := by
  intro k n t
  obtain ⟨cs, hcs⟩ := hrun
  have hid : x.id = n.widx := by rw [hx]; rfl
  obtain ⟨hrest, hothers, hme, hb, hd⟩ := setScalar_setScalar_spec (s.copied cs k pa x follow) d b (w64 x.id) (w64 (s.promise k s.keel x))
  have ht : ((s.copied cs k pa x follow).setScalar d (w64 x.id)).setScalar b (w64 (s.promise k s.keel x)) = t := hcs.symm
  rw [ht] at hrest hothers hme hb hd
  have hsub := s.copied_submits cs k pa x follow
  have hiss : (s.copied cs k pa x follow).iss = s.iss := by rw [hsub]
  rw [hiss] at hothers hb hd
  have hchan : t.chan k = (s.copied cs k pa x follow).chan k := by rw [hrest]; rfl
  rw [s.me_copied] at hme
  obtain ⟨v, hvers, hcells⟩ := s.vers_copied cs k pa x follow
  have hbufT : t.me.bufT = s.bufTAfter cs k pa x follow := by rw [hme]
  refine ⟨v, ?_, (s.othersKept_copied cs k pa x follow).trans hothers, ?_, ?_, ?_, ?_, ?_, ?_, ?_, ?_, ?_, hb, fun hne hdiff => ?_, ?_, ?_⟩
  · rw [hrest, hiss]
  · rw [hrest, hsub]
  · rw [hrest, hsub]
  · rw [hrest]; exact hvers
  · rw [hcells, hx, State.ownXfer, packetOf_length, State.chanPart_own]
  · rw [hchan, State.chan_copied, ← hid]; rfl
  · rw [hchan, State.chan_copied]; rfl
  · rw [hchan, State.chan_copied]; rfl
  · rw [hme]
  · rw [hme, ← hid]
  · rw [hd hne hdiff, hid]
  · rintro rfl; exact hbufT
  · rintro i word rfl
    exact ⟨_, hbufT, rfl, by rw [← hid]; rfl⟩

end Sys2Proof.Machine
end

section
/-! `CWAIT`, `CSTAT` and `CCHK` (R317, R318), and a trap that is taken (R330). -/

namespace Sys2Proof.Machine

-- A trap that is taken.

/-- R330: the thread's context `x` has the vector as its PC, and CAUSE and EPC tell of the cause. -/
theorem State.trapAt_of_vector {s : State} {src : Nat} {c : Cause} (hinh : (s.ctx src).tstate.getLsbD 0 = false) (hvec : s.vector src c ≠ 0)
    (u : Unit4) (fpc : Word) (info : W32) :
    ∃ x : Ctx, s.trapAt src u fpc c info = (((s.stopWaits src).setCtx src x).freezeStr src).traceStop src c.code.toNat fpc ∧
      x.pc = s.vector src c ∧ x.cause = causeWord c u info ∧ (u = .c → c ≠ .swtrap → x.epc = fpc) := by
  have hctx : (s.stopWaits src).ctx src = (s.ctx src).stopped := by rw [State.ctx_stopWaits, if_pos rfl]
  have hvec' : (s.stopWaits src).vector src c = s.vector src c := by
    rw [State.vector, State.stvec_stopWaits, State.partOfSrc_stopWaits, hctx]; rfl
  unfold State.trapAt
  dsimp only
  rw [if_neg (by rw [hctx]; exact fun h => Bool.false_ne_true (hinh.symm.trans h)), if_neg (by rw [← hvec'] at hvec; exact hvec)]
  exact ⟨_, rfl, hvec', rfl, fun hu hc => by simp only [hu, if_true, if_neg hc]⟩

theorem State.ctx_trapAt_of_vector {s : State} {src : Nat} {c : Cause} (hinh : (s.ctx src).tstate.getLsbD 0 = false) (hvec : s.vector src c ≠ 0)
    (fpc : Word) (info : W32) (hc : c ≠ .swtrap) :
    ((s.trapAt src .c fpc c info).ctx src).pc = s.vector src c ∧ ((s.trapAt src .c fpc c info).ctx src).cause = causeWord c .c info ∧
      ((s.trapAt src .c fpc c info).ctx src).epc = fpc := by
  obtain ⟨x, heq, hpc, hcause, hepc⟩ := State.trapAt_of_vector hinh hvec .c fpc info
  rw [heq, (State.traceStop_traced ..).ctx, State.ctx_freezeStr_self, State.ctx_setCtx, if_pos rfl]
  exact ⟨hpc, hcause, hepc rfl hc⟩

theorem State.iss_trapAt_of_vector {s : State} {src : Nat} {c : Cause} (hinh : (s.ctx src).tstate.getLsbD 0 = false) (hvec : s.vector src c ≠ 0)
    (u : Unit4) (fpc : Word) (info : W32) : (s.trapAt src u fpc c info).iss = s.iss := by
  have hset (t : State) (x : Ctx) : (t.setCtx src x).iss = t.iss := rfl
  obtain ⟨x, heq, -⟩ := State.trapAt_of_vector hinh hvec u fpc info
  rw [heq, (State.traceStop_traced ..).iss, State.iss_freezeStr, hset, State.iss_stopWaits]

/-- The same of the thread that executes. -/
theorem State.me_trap_of_vector {s : State} {c : Cause} (hunit : s.iss.unit = .c) (hinh : s.me.tstate.getLsbD 0 = false)
    (hvec : s.vector s.iss.src c ≠ 0) (info : W32) (hc : c ≠ .swtrap) :
    (s.trap c info).me.pc = s.vector s.iss.src c ∧ (s.trap c info).me.cause = causeWord c .c info ∧ (s.trap c info).me.epc = s.iss.pc := by
  have hme : (s.trap c info).me = (s.trapAt s.iss.src .c s.iss.pc c info).ctx s.iss.src := by
    rw [State.trap, hunit, State.me_moved, State.me, State.iss_trapAt_of_vector hinh hvec]
  rw [hme]
  exact State.ctx_trapAt_of_vector hinh hvec s.iss.pc info hc

-- The end of a wait.

theorem State.endWait_of_none {s : State} (h : s.me.wait = none) (setter outcome : Nat) : s.endWait setter outcome = s := by
  have h' : (s.ctx s.iss.src).wait = none := h
  rw [State.endWait, State.endWaitOf, h']

theorem State.iss_endWait (s : State) (setter outcome : Nat) : (s.endWait setter outcome).iss = s.iss := by
  unfold State.endWait State.endWaitOf
  split
  · rfl
  · next w _ =>
    have hrec : (s.recordWait s.iss.src w setter outcome).iss = s.iss := by rw [(s.recordWait_recorded s.iss.src w setter outcome).rest]
    exact hrec

/-- A wait that ends is no more in the thread's context. -/
theorem State.me_endWait (s : State) (setter outcome : Nat) : (s.endWait setter outcome).me = { s.me with wait := none } := by
  unfold State.endWait State.endWaitOf
  split
  · next h => rw [← show s.me.wait = none from h]
  · next w _ =>
    have hrec := s.recordWait_recorded s.iss.src w setter outcome
    have hiss : (s.recordWait s.iss.src w setter outcome).iss = s.iss := by rw [hrec.rest]
    rw [State.me_modCtx_src hiss, State.me, hiss, hrec.ctx]
    rfl

theorem State.deliverOr_of_none {s : State} (h : s.me.deliver = []) (p : Nat × Nat × Nat × Nat → Bool) (k : State → State) :
    s.deliverOr p k = k s := by
  rw [State.deliverOr, h]; rfl

/-- A wait noted at the control core. -/
theorem State.me_waitOn_of_core {s : State} (h : s.iss.unit = .c) (kind obj : Nat) (dl : Option Nat) :
    (s.waitOn kind obj dl).me = { s.me with wait := (s.waitOn kind obj dl).me.wait } := by
  rw [State.waitOn, State.me_stall, State.me_modMe, if_pos h]

-- `CWAIT`.

theorem exec_cwait_of_done {s : State} {a : Reg} {ch : BitVec 2} (h : (s.scalar a).toNat < (s.chan (4 * s.myCell + ch.toNat)).done)
    (hdeliver : s.me.deliver = []) : exec (.cwait ch a) s =
      .next (s.waitEnds 3 (chanSrc (4 * s.myCell + ch.toNat)) (chanSrc (4 * s.myCell + ch.toNat)) 0 .part) := by
  simp only [exec, execCwait]
  rw [if_pos h, State.deliverOr_of_none hdeliver]

theorem exec_cwait_of_waiting {s : State} {a : Reg} {ch : BitVec 2} (h : (s.chan (4 * s.myCell + ch.toNat)).done ≤ (s.scalar a).toNat) :
    exec (.cwait ch a) s = .next (s.waitOn 3 (chanSrc (4 * s.myCell + ch.toNat)) none) := by
  simp only [exec, execCwait]
  rw [if_neg (Nat.not_lt.2 h)]

/-- A wait of the control core that ends, before its boundary. -/
def State.waitEnded (s : State) (kind obj setter outcome : Nat) : State := s.modMe fun c => { c with
  wait := some { ((c.wait.getD { since := s.keel, kind := kind, obj := obj }).begun s.keel) with ended := some (setter, outcome) } }

/-- A wait of the control core that ends with its boundary. -/
theorem State.waitEnds_of_mayBound {s : State} {sc : Scope} (hmay : s.mayBound sc = true) (kind obj setter outcome : Nat) :
    let t := s.waitEnds kind obj setter outcome sc
    t = { s.boundary sc with ctxs := t.ctxs } ∧ OthersKept s t s.iss.src ∧ t.me = { (s.boundary sc).me with wait := t.me.wait } := by
  intro t
  have hwait : OnlyRegsAndWait s (s.waitEnded kind obj setter outcome) := onlyRegsAndWait_setWait s _
  have ht : t = (s.waitEnded kind obj setter outcome).boundary sc := State.bound_of_mayBound ((hwait.mayBound sc).trans hmay)
  have hothers : OthersKept s (s.waitEnded kind obj setter outcome) s.iss.src := othersKept_modMe s _
  have hme : (s.waitEnded kind obj setter outcome).me = { s.me with wait := (s.waitEnded kind obj setter outcome).me.wait } := by
    rw [State.waitEnded, State.me_modMe]
  rw [ht]
  refine ⟨rfl, hothers.trans (othersKept_boundary (s.waitEnded kind obj setter outcome) sc), ?_⟩
  rw [State.me_boundary, State.me_boundary, hme]
  rfl

-- `CCHK`.

section
variable {s : State} {a : Reg} {ch : BitVec 2}

theorem exec_cchk_of_done (h : (s.chan (4 * s.myCell + ch.toNat)).isDone (s.scalar a).toNat = true) (hdeliver : s.me.deliver = [])
    (hwait : s.me.wait = none) : exec (.cchk ch a) s = .next s := by
  simp only [exec, execCchk, State.cchk]
  rw [if_pos h, State.endWait_of_none hwait, State.deliverOr_of_none hdeliver]

theorem exec_cchk_of_open (h : (s.chan (4 * s.myCell + ch.toNat)).isDone (s.scalar a).toNat = false) {p : Nat}
    (hp : tfind (s.chan (4 * s.myCell + ch.toNat)).proms (s.scalar a).toNat = some p) : exec (.cchk ch a) s =
      .next (if p ≤ s.keel then (s.endWait 0xFFF 1).trap .promiseMissed ((s.scalar a).setWidth 32)
        else s.waitOn 3 (chanSrc (4 * s.myCell + ch.toNat)) (some p)) := by
  simp only [exec, execCchk, State.cchk]
  rw [if_neg (fun hd => Bool.false_ne_true (h.symm.trans hd)), hp]
  have hover : overdue s.keel (some p) = decide (p ≤ s.keel) := rfl
  rw [hover]
  by_cases hle : p ≤ s.keel
  · rw [if_pos hle, if_pos (decide_eq_true hle)]
  · rw [if_neg hle, if_neg (fun hd => hle (of_decide_eq_true hd))]

end

/-- The cause word of a missed promise (R329). -/
theorem causeWord_promiseMissed (info : W32) : causeWord .promiseMissed .c info = info ++ 4#32 := by
  have hlow : (0#22 ++ Unit4.c.code ++ Cause.promiseMissed.code : BitVec 32) = 4#32 := by decide
  apply BitVec.eq_of_toNat_eq
  rw [← hlow]
  simp only [causeWord, BitVec.toNat_append, Nat.shiftLeft_or_distrib, Nat.or_assoc, ← Nat.shiftLeft_add]

theorem exec_promiseTimeReached_of_goOn {s t : State} {ch : BitVec 2} {a : Reg} (hrun : s.runnable s.arg.a = true)
    (hlate : (s.ctx s.arg.a).lateAt = 0) (hgo : s.goOn s.arg.a = some (.cchk ch a, t)) :
    exec .promiseTimeReached s = .next ((t.cchk ch a).finishC (.cchk ch a) (s.ctx s.arg.a).pc) :=
  congrArg Host.Outcome.next (State.retry_of_goOn (k := fun t => t.cchk ch a) hrun hlate hgo rfl)

theorem exec_copyf_of_followOn {s : State} {d b a c : Reg} {ch : BitVec 2} {i : Instr} (h : followOn (s.scalar c) = some i) :
    exec (.copyf d b a c ch) s = .next (s.copyIssue d b a ch (some (i, s.scalar c))) := by
  simp only [exec, execCopyf, h]

/-- Settles O43. -/
theorem copyInstructions : Obligations.CopyInstructions := by
  unfold Obligations.CopyInstructions
  refine ⟨?copy, fun s d b a ch halign hrange hlen => ?unconfigured, fun s d b a c ch hnone => ?illegal, fun s a ch => ⟨?waits, ?waiting⟩,
    fun d ch => .of_eq fun _ => rfl, fun s a ch => ⟨fun hdone hdeliver hwait => exec_cchk_of_done hdone hdeliver hwait, ?missed, ?early⟩,
    fun s t ch a hrun hlate hgo => ⟨_, rfl, exec_promiseTimeReached_of_goOn hrun hlate hgo⟩⟩
  case copy =>
    intro s d b a c ch pa fo k x n bytes set pkt tr p halign hlen hpend hroom hA hS husable hpoison hmay hwalk hzero hdone hfo
    have hbytes : bytes.length = 64 := seeBytes_length ..
    have htr : tr = s.ownXfer k bytes fo.isSome := by
      rw [State.ownXfer, packetOf_eq hbytes]
    cases fo with
    | none =>
      obtain ⟨v, hiss, hothers, hmem, hspad, hvers, hcells, hwidx, hlook, hprom, hme, hcopies, hb, hd, hbufT, -⟩ :=
        State.copyIssue_spec htr (State.copyIssue_of_ready (d := d) (b := b) (follow := none) halign hlen hpend nofun hA hS husable hpoison
          hmay hwalk hdone htr hzero)
      exact ⟨_, v, rfl, hiss, hothers, hmem, hspad, hvers, hcells, hwidx, hlook, hprom, hme, hcopies, hb, hd, fun _ => hbufT rfl, nofun⟩
    | some i =>
      have hi : followOn (s.scalar c) = some i := (hfo.resolve_left nofun).symm
      obtain ⟨v, hiss, hothers, hmem, hspad, hvers, hcells, hwidx, hlook, hprom, hme, hcopies, hb, hd, -, hentry⟩ :=
        State.copyIssue_spec htr (State.copyIssue_of_ready (d := d) (b := b) (follow := some (i, s.scalar c)) halign hlen hpend (fun _ => hroom rfl)
          hA hS husable hpoison hmay hwalk hdone htr hzero)
      obtain ⟨e, hbufT, hinstr, hwake⟩ := hentry i _ rfl
      refine ⟨_, v, exec_copyf_of_followOn hi, hiss, hothers, hmem, hspad, hvers, hcells, hwidx, hlook, hprom, hme, hcopies, hb, hd, nofun,
        fun _ => ⟨e, hbufT, congrArg some hinstr, hwake⟩⟩
  case unconfigured =>
    have hok : spadOk (s.scalar a).toNat 64 = true := decide_eq_true hrange
    have hidle (fo : Option (Instr × Word)) : s.copyIssue d b a ch fo = (s.setScalar d (BitVec.allOnes 64)).setScalar b 0 := by
      rw [State.copyIssue_eq, if_neg (by simp [halign, hok])]
      exact if_pos hlen
    refine ⟨congrArg Host.Outcome.next (hidle none), fun c hc => ?_⟩
    obtain ⟨i, hi⟩ := Option.ne_none_iff_exists'.1 hc
    rw [exec_copyf_of_followOn hi, hidle]
  case illegal => simp only [exec, execCopyf, hnone]
  case waits =>
    intro hdone hdeliver hwait hmay
    obtain ⟨hrest, hothers, hme⟩ := State.waitEnds_of_mayBound hmay 3 (chanSrc (4 * s.myCell + ch.toNat)) (chanSrc (4 * s.myCell + ch.toNat)) 0
    exact ⟨_, exec_cwait_of_done hdone hdeliver, hrest, hothers, hme⟩
  case waiting =>
    exact fun h hunit => ⟨_, exec_cwait_of_waiting h, rfl, .waitOn .., State.me_waitOn_of_core hunit ..⟩
  case missed =>
    intro p hopen hp hle hinh hvec hunit
    have hrun := exec_cchk_of_open hopen hp
    rw [if_pos hle] at hrun
    have hiss := s.iss_endWait 0xFFF 1
    have hme := s.me_endWait 0xFFF 1
    have hvector : (s.endWait 0xFFF 1).vector (s.endWait 0xFFF 1).iss.src .promiseMissed = s.me.tvec := by
      have h : (s.endWait 0xFFF 1).me.tvec = s.me.tvec := by rw [hme]
      exact h
    have htrap := State.me_trap_of_vector (s := s.endWait 0xFFF 1) (c := .promiseMissed) (by rw [hiss]; exact hunit) (by rw [hme]; exact hinh)
      (by rw [hvector]; exact hvec) ((s.scalar a).setWidth 32) (by decide)
    rw [hvector, causeWord_promiseMissed, hiss] at htrap
    exact ⟨_, hrun, htrap⟩
  case early =>
    intro p hopen hp hlt hunit
    have hrun := exec_cchk_of_open hopen hp
    rw [if_neg (Nat.not_le.2 hlt)] at hrun
    exact ⟨_, hrun, rfl, .waitOn .., State.me_waitOn_of_core hunit ..⟩

end Sys2Proof.Machine
end

section
/-! The steps of a copy engine (R300, R301, R304, R307 to R310). -/

namespace Sys2Proof.Machine

/-- The channel as modified. -/
theorem State.chan_modChan_self (s : State) (ch : Nat) (f : Chan → Chan) : (s.modChan ch f).chan ch = f (s.chan ch) := by
  rw [State.chan_modChan, if_pos rfl]

-- Leases of an engine.

/-- Only the leases held by engines have changed (R311). -/
def HeldOnly (s t : State) : Prop := t = { s with held := t.held }

theorem HeldOnly.refl (s : State) : HeldOnly s s := rfl

theorem HeldOnly.trans {s t u : State} (h : HeldOnly s t) (k : HeldOnly t u) : HeldOnly s u := by
  unfold HeldOnly at h k ⊢
  rw [k, h]

theorem State.holdByte_held (s : State) (key part ep va : Nat) (write : Bool) : HeldOnly s (s.holdByte key part ep va write) := by
  unfold State.holdByte
  dsimp only
  repeat' split
  all_goals rfl

theorem State.holdRange_held (s : State) (key part ep : Nat) (va : Int) (n : Nat) (write : Bool) :
    HeldOnly s (s.holdRange key part ep va n write) := by
  unfold State.holdRange
  split
  · exact .refl s
  · exact List.foldlRecOn (motive := HeldOnly s) _ _ (.refl s) fun u hu p _ => hu.trans (u.holdByte_held ..)

theorem HeldOnly.holdRange {s u : State} (h : HeldOnly s u) (key part ep : Nat) (va : Int) (n : Nat) (write : Bool) :
    HeldOnly s (u.holdRange key part ep va n write) := h.trans (u.holdRange_held ..)

/-- The leases for the source row, then for the destination. -/
theorem State.holdRow_held (s : State) (ch : Nat) (x : Xfer) (n : Nat) : HeldOnly s (s.holdRow ch x n) := by
  unfold State.holdRow
  dsimp only
  repeat' split
  all_goals apply_rules [HeldOnly.holdRange, HeldOnly.refl]

-- Taking a packet (R301).

/-- The next id of a channel. -/
def Chan.nextId (c : Chan) : Nat := c.next (c.early.length + 1) (max c.taken c.done)

theorem exec_copyPacketTake_of_packet {s : State} {pkt : List Byte} (hmay : s.mayTake s.arg.a = true)
    (hbytes : s.engineBytes (s.chanView s.arg.a) (s.chanPart s.arg.a)
      (((s.chan s.arg.a).base + 64 * ((s.chan s.arg.a).nextId % (s.chan s.arg.a).len) : Nat) : Int) 64 = some (.ok pkt))
    (hclaimed : (s.chan s.arg.a).nextId < (s.chan s.arg.a).widx) (hid : fieldAt pkt 60 4 = (s.chan s.arg.a).nextId % 2 ^ 32) :
    ∃ (x : Xfer) (p : Nat), x.id = (s.chan s.arg.a).nextId ∧ x.pkt = pkt ∧ x.begun = false ∧
      exec .copyPacketTake s = .next (s.modChan s.arg.a fun c =>
        (if (tfind c.proms (s.chan s.arg.a).nextId).isSome then c else c.promised (s.chan s.arg.a).nextId p).enter x) := by
  have htaken : (!(s.mayTake s.arg.a)) ≠ true := by rw [hmay]; decide
  have hgood : ¬ ((s.chan s.arg.a).widx ≤ (s.chan s.arg.a).nextId || fieldAt pkt 60 4 ≠ (s.chan s.arg.a).nextId % 2 ^ 32) = true := by
    simp [hclaimed, hid]
  simp only [exec, execCopyPacketTake]
  rw [if_neg htaken, ← Chan.nextId, hbytes]
  dsimp only
  rw [if_neg hgood]
  exact ⟨_, _, rfl, rfl, rfl, rfl⟩

/-- The channel after the take, with no transfer current before it. -/
theorem Chan.enter_of_idle {c : Chan} (hidle : c.cur = none) (x : Xfer) : c.enter x = { c with taken := x.id + 1, cur := some x } := by
  unfold Chan.enter
  dsimp only
  rw [hidle]
  rfl

theorem Chan.promised_rest (b : Bool) (c : Chan) (w p : Nat) : (if b = true then c else c.promised w p) =
    { c with proms := (if b = true then c else c.promised w p).proms, prom := (if b = true then c else c.promised w p).prom } := by
  split <;> rfl

-- Completion (R307, R308).

/-- What has completed stays so as CDONE passes it. -/
theorem Chan.isDone_passed (fuel : Nat) {c : Chan} {id : Nat} (h : c.isDone id = true) : (c.passed fuel).isDone id = true := by
  induction fuel generalizing c with
  | zero => exact h
  | succ fuel ih =>
    rw [Chan.passed]
    split
    · refine ih ?_
      simp only [Chan.isDone, Bool.or_eq_true, decide_eq_true_eq, List.contains_iff_mem, List.mem_filter] at h ⊢
      rcases Nat.lt_or_ge id (c.done + 1) with hlt | hge
      · exact .inl hlt
      · exact .inr ⟨h.resolve_left (by omega), by omega⟩
    · exact h

theorem Chan.done_le_passed (fuel : Nat) (c : Chan) : c.done ≤ (c.passed fuel).done := by
  induction fuel generalizing c with
  | zero => exact Nat.le_refl _
  | succ fuel ih =>
    rw [Chan.passed]
    split
    · have hrest := ih { c with done := c.done + 1, early := c.early.filter (· ≠ c.done) }
      exact Nat.le_trans (Nat.le_succ c.done) hrest
    · exact Nat.le_refl _

theorem Chan.passed_rest (fuel : Nat) (c : Chan) : c.passed fuel = { c with done := (c.passed fuel).done, early := (c.passed fuel).early } := by
  induction fuel generalizing c with
  | zero => rfl
  | succ fuel ih =>
    rw [Chan.passed]
    split
    · rw [ih]
    · rfl

/-- A transfer that completes without a failure. -/
theorem Chan.over_zero (c : Chan) (x : Xfer) : c.over x 0 = c.complete x.id := by
  simp [Chan.over, Chan.failed]

theorem Chan.complete_spec (c : Chan) (id : Nat) : (c.complete id).isDone id = true ∧ c.done ≤ (c.complete id).done ∧
    c.complete id = { c with done := (c.complete id).done, early := (c.complete id).early, subs := (c.complete id).subs } := by
  refine ⟨Chan.isDone_passed _ (by simp [Chan.isDone]), Chan.done_le_passed _ { c with early := c.early ++ [id], subs := _ }, ?_⟩
  rw [Chan.complete]
  dsimp only
  rw [Chan.passed_rest]

theorem State.modThread_rest (s : State) (src : Nat) (f : Ctx → Ctx) : s.modThread src f =
    { s with ctxs := (s.modThread src f).ctxs, slots := (s.modThread src f).slots } := by
  unfold State.modThread
  dsimp only
  split <;> rfl

theorem State.ctx_modThread_of_no_slots {s : State} (h : s.slots = []) (src : Nat) (f : Ctx → Ctx) : (s.modThread src f).ctx src = f (s.ctx src) := by
  have hlive : ¬ ((s.slots.any fun k => !k.restoring && k.members.any fun m => m.1 = src) && (s.ctx src).status = .free) = true := by
    rw [h]; exact Bool.false_ne_true
  unfold State.modThread
  dsimp only
  rw [if_neg hlive, State.ctx_modCtx, if_pos rfl]

/-- What the end of a transfer does to the context of its thread, for a failure code. -/
def Ctx.xferOver (ch id row code : Nat) (c : Ctx) : Ctx :=
  if c.copies.any fun y => y.1 = ch && y.2.1 = id then
    let c := c.copyOver ch id
    if code = 9 || code = 10 then { c with deliver := c.deliver ++ [(ch, id, code, row)] } else c
  else c

/-- The thread waits for the transfer no longer. -/
theorem Ctx.copies_xferOver (c : Ctx) (ch id row code : Nat) : ∀ y ∈ (c.xferOver ch id row code).copies, ¬ (y.1 = ch ∧ y.2.1 = id) := by
  have hover (d : Ctx) : ∀ y ∈ (d.copyOver ch id).copies, ¬ (y.1 = ch ∧ y.2.1 = id) := by
    intro y hy hmatch
    have hkept := (List.mem_filter.1 hy).2
    simp [hmatch.1, hmatch.2] at hkept
  unfold Ctx.xferOver
  split
  · split
    · exact hover c
    · exact hover c
  · next h =>
    intro y hy hmatch
    exact h (List.any_eq_true.2 ⟨y, hy, by simp [hmatch.1, hmatch.2]⟩)

/-- The state after a plain transfer has completed, before the next is current. -/
def State.plainOver (s : State) (ch : Nat) (x : Xfer) : State :=
  let u := ((s.modChan ch fun c => c.over x 0).unhold (chanSrc ch)).mapNodes fun n => n.copyOver ch x.id
  match x.by_ with
  | some t => u.modThread t (Ctx.xferOver ch x.id x.row 0)
  | none => u

theorem State.completeXfer_of_plain {s : State} {ch : Nat} {x : Xfer} (hcode : x.code = 0) (hflag : x.flg 0 = false) (hobj : x.obj = none)
    (hnode : x.node = none) : s.completeXfer ch x = some (s.plainOver ch x) := by
  unfold State.completeXfer
  simp only [hcode, hflag, decide_true, Bool.and_false, Bool.false_eq_true, if_false, Option.map_some]
  unfold State.xferEnds
  simp only [hobj, hnode]
  rfl

theorem State.plainOver_rest (s : State) (ch : Nat) (x : Xfer) : s.plainOver ch x = { s with
    ctxs := (s.plainOver ch x).ctxs, slots := (s.plainOver ch x).slots, launches := (s.plainOver ch x).launches
    held := (s.plainOver ch x).held, chans := (s.modChan ch fun c => c.over x 0).chans } := by
  unfold State.plainOver
  dsimp only
  split
  · rw [State.modThread_rest]; rfl
  · rfl

theorem exec_copyTransferComplete_of_plain {s : State} {x : Xfer} (hruns : s.chanRuns s.arg.a = true) (hcur : (s.chan s.arg.a).cur = some x)
    (hcode : x.code = 0) (hbegun : x.begun = true) (hsteps : x.steps ≤ x.row) (hflag : x.flg 0 = false) (hobj : x.obj = none) (hnode : x.node = none) :
    exec .copyTransferComplete s = .next ((s.plainOver s.arg.a x).modChan s.arg.a fun c => { c with cur := c.shadow, shadow := none }) := by
  have hover : x.isOver = true := by simp [Xfer.isOver, hbegun, hsteps]
  simp only [exec, execCopyTransferComplete, hcur, hruns, hover, State.completeXfer_of_plain hcode hflag hobj hnode]
  rfl

theorem State.chan_plainOver (s : State) (ch : Nat) (x : Xfer) : (s.plainOver ch x).chan ch = (s.chan ch).complete x.id := by
  have h : (s.plainOver ch x).chan ch = (s.modChan ch fun c => c.over x 0).chan ch := by rw [State.plainOver_rest]; rfl
  rw [h, State.chan_modChan, if_pos rfl, Chan.over_zero]

-- A step between scratchpads (R304, R313).

section
variable {s : State} {ch : Nat} {x : Xfer}

theorem findSome_none_of_free {s : State} {cell key : Nat} {rs : List Nat} (h : ∀ r ∈ rs, s.regionBusy cell key r = none) :
    (rs.findSome? fun r => (s.regionBusy cell key r).map fun i => (r, i)) = none :=
  List.findSome?_eq_none_iff.2 fun r hr => by rw [h r hr]; rfl

theorem State.getFrom_of_spad {o : Int} {n : Nat} (hspace : epSpace x.src = 1) (hlow : 0 ≤ epBase x.src + o)
    (hrange : (epBase x.src + o).toNat + n ≤ 0x180000)
    (hfree : ∀ r ∈ regionsOf (epBase x.src + o).toNat n, s.regionBusy (epCell ch x.src) (s.chanKey x.by_) r = none)
    (hpoison : s.spadPoisoned (epCell ch x.src) (epBase x.src + o).toNat n = false) :
    s.getFrom ch x o n = .bytes (s.spadRead (x.path ch) (epCell ch x.src) (epBase x.src + o).toNat n) := by
  have hok : spadOk (epBase x.src + o).toNat n = true := decide_eq_true hrange
  unfold State.getFrom
  rw [hspace]
  dsimp only
  rw [if_neg (by rw [hok]; simpa using hlow), findSome_none_of_free hfree]
  dsimp only
  rw [if_neg (by rw [hpoison]; exact Bool.false_ne_true)]
  rfl

/-- The state in which an engine's write to a scratchpad is made: the regions are its thread's (R348). -/
def State.ownedFor (s : State) (ch : Nat) (x : Xfer) (a n : Nat) : State :=
  if x.by_.isSome then s.own (epCell ch x.dst) (s.chanKey x.by_) (regionsOf a n) else s

theorem State.ownedFor_eq (s : State) (ch : Nat) (x : Xfer) (a n : Nat) : ∃ cs, s.ownedFor ch x a n = { s with cells := cs } := by
  unfold State.ownedFor
  split
  · exact s.own_eq ..
  · exact ⟨_, rfl⟩

theorem State.putTo_of_spad {o : Int} {bs : List Byte} (hspace : epSpace x.dst = 1) (hlow : 0 ≤ epBase x.dst + o)
    (hrange : (epBase x.dst + o).toNat + bs.length ≤ 0x180000)
    (hfree : ∀ r ∈ regionsOf (epBase x.dst + o).toNat bs.length, s.regionBusy (epCell ch x.dst) (s.chanKey x.by_) r = none) :
    s.putTo ch x o bs = .done ((s.ownedFor ch x (epBase x.dst + o).toNat bs.length).spadWrite (x.path ch) (epCell ch x.dst)
      (epBase x.dst + o).toNat bs) := by
  have hok : spadOk (epBase x.dst + o).toNat bs.length = true := decide_eq_true hrange
  unfold State.putTo
  rw [hspace]
  dsimp only
  rw [if_neg (by rw [hok]; simpa using hlow), findSome_none_of_free hfree]
  rfl

/-- The state that a step leaves whose row is written. -/
def State.rowStepped (t : State) (ch : Nat) (y : Xfer) : State := ({ t with choices := t.choices + 1 } : State).modChan ch fun c => { c with cur := some y }

theorem State.stepXfer_of_bytes {bs : List Byte} {u t : State} (hu : u = s.holdRow ch x x.stepLen) (hflag : x.flg 2 = false)
    (hrow : x.row ≠ x.rows) (hin : x.rowInRange x.row = true) (hbytes : u.rowOfXfer ch x x.row x.off x.stepLen = .bytes bs)
    (hput : u.putTo ch x (x.dstOff x.row + x.off) bs = .done t) : s.stepXfer ch x = t.rowStepped ch (x.moved x.stepLen) := by
  unfold State.stepXfer
  dsimp only
  rw [← hu, if_neg (by rw [hflag]; exact Bool.false_ne_true), if_neg hrow, if_neg (by rw [hin]; decide), hbytes]
  dsimp only
  rw [if_neg (by rw [hflag]; exact Bool.false_ne_true), hput]
  rfl

/-- The offsets of a plain copy and of one of rows. -/
theorem Xfer.dstOff_of_plain (hkind : x.kind < 2) (i : Nat) : x.dstOff i = if x.kind = 1 then (i : Int) * x.dstr1 else 0 := by
  unfold Xfer.dstOff
  obtain h | h : x.kind = 0 ∨ x.kind = 1 := by omega
  · rw [h]; rfl
  · rw [h]; rfl

theorem Xfer.srcOff_of_plain (hkind : x.kind < 2) (i : Nat) : x.srcOff i = some (if x.kind = 1 then (i : Int) * x.sstr1 else 0) := by
  unfold Xfer.srcOff
  obtain h | h : x.kind = 0 ∨ x.kind = 1 := by omega
  · rw [h]; rfl
  · rw [h]; rfl

theorem State.rowOfXfer_of_plain (hkind : x.kind < 2) (hold : x.old = []) (i off n : Nat) :
    s.rowOfXfer ch x i off n = s.getFrom ch x ((if x.kind = 1 then (i : Int) * x.sstr1 else 0) + off) n := by
  have hnow : s.rowNow ch x i off n = s.getFrom ch x ((if x.kind = 1 then (i : Int) * x.sstr1 else 0) + off) n := by
    have hsrc := Xfer.srcOff_of_plain hkind i
    unfold State.rowNow
    rw [hsrc]
    obtain h | h : x.kind = 0 ∨ x.kind = 1 := by omega
    · rw [h]; rfl
    · rw [h]; rfl
  unfold State.rowOfXfer
  rw [hnow, hold, List.getElem?_nil]
  cases s.getFrom ch x ((if x.kind = 1 then (i : Int) * x.sstr1 else 0) + off) n <;> rfl

theorem exec_copyPacketStep_of_begun {s : State} {x : Xfer} (hruns : s.chanRuns s.arg.a = true) (hskew : s.skew = false)
    (hcur : (s.chan s.arg.a).cur = some x) (hbegun : x.begun = true) (hover : x.isOver = false) :
    exec .copyPacketStep s = .next (s.stepXfer s.arg.a x) := by
  simp only [exec, execCopyPacketStep, hruns, hskew, hcur, hbegun, hover]
  rfl

end

/-- Settles O44. -/
theorem copyEngineSteps : Obligations.CopyEngineSteps := by
  unfold Obligations.CopyEngineSteps
  refine ⟨fun s pkt => ?take, fun s x => ?step, fun s x => ?complete, fun s => ⟨_, rfl, rfl, State.chan_modChan_self ..⟩, fun s hpend => ?idle,
    fun s hpend => ?pending, fun s => ⟨_, rfl, rfl, State.chan_modChan_self ..⟩⟩
  case take =>
    intro k c w hmay hidle hbytes hclaimed hid
    obtain ⟨x, p, hx, hpkt, hbegun, hrun⟩ := exec_copyPacketTake_of_packet hmay hbytes hclaimed hid
    have hchan := State.chan_modChan_self s k fun c =>
      (if (tfind c.proms (s.chan s.arg.a).nextId).isSome then c else c.promised (s.chan s.arg.a).nextId p).enter x
    have hcur : (if (tfind (s.chan k).proms (s.chan s.arg.a).nextId).isSome then s.chan k
        else (s.chan k).promised (s.chan s.arg.a).nextId p).cur = none := by
      rw [Chan.promised_rest]; exact hidle
    rw [Chan.enter_of_idle hcur, Chan.promised_rest] at hchan
    exact ⟨_, x, hrun, rfl, by rw [hchan], hx, hpkt, hbegun, by rw [hchan, hx]; rfl, by rw [hchan]⟩
  case step =>
    intro k n a b hruns hskew hcur hbegun hcode hkind hflag hrow hfirst hsrc hdst hold hin ha harange hb hbrange hafree hbfree hpoison
    have hover : x.isOver = false := by
      simp [Xfer.isOver, hcode, hbegun, Xfer.steps, hflag, b2n, hrow]
    have hlen : x.stepLen = n := by simp [Xfer.stepLen, hflag, n]
    have hheld := s.holdRow_held k x x.stepLen
    generalize hu : s.holdRow k x x.stepLen = u at hheld
    have hbytes := State.rowOfXfer_of_plain (s := u) (ch := k) hkind hold x.row x.off x.stepLen
    have hbyteslen : (u.spadRead (x.path k) (epCell k x.src) a.toNat n).length = n := seeBytes_length ..
    rw [hlen, State.getFrom_of_spad hsrc ha harange (by rw [hheld]; exact hafree) (by rw [hheld]; exact hpoison)] at hbytes
    have hoff : epBase x.dst + (x.dstOff x.row + x.off) = b := by rw [Xfer.dstOff_of_plain hkind]
    have hput := State.putTo_of_spad (s := u) (ch := k) (x := x) (o := x.dstOff x.row + x.off)
      (bs := u.spadRead (x.path k) (epCell k x.src) a.toNat n) hdst (by rw [hoff]; exact hb) (by rw [hoff, hbyteslen]; exact hbrange)
      (by rw [hoff, hbyteslen, hheld]; exact hbfree)
    have hstep := State.stepXfer_of_bytes hu.symm hflag (Nat.ne_of_lt hrow) hin (by rw [hlen]; exact hbytes) hput
    rw [hoff, hbyteslen] at hstep
    obtain ⟨cs, hcs⟩ := u.ownedFor_eq k x b.toNat n
    have hread : u.spadRead (x.path k) (epCell k x.src) a.toNat n = s.spadRead (x.path k) (epCell k x.src) a.toNat n := by rw [hheld]; rfl
    rw [hcs, hread, hlen] at hstep
    have hrun := exec_copyPacketStep_of_begun hruns hskew hcur hbegun hover
    rw [hstep] at hrun
    have hctxs : u.ctxs = s.ctxs := by rw [hheld]
    have hmem : u.mem = s.mem := by rw [hheld]
    have hbanks : u.banks = s.banks := by rw [hheld]
    have hspad : s.spad = u.spad := by rw [hheld]
    have hlate : s.late = u.late := by rw [hheld]
    have hend : b.toNat + (s.spadRead (x.path k) (epCell k x.src) a.toNat n).length ≤ 2 ^ 21 := by rw [← hread, hbyteslen]; omega
    have hwritten := spadWritten_spadWrite { u with cells := cs } (p := x.path k) rfl (epCell k x.dst) hend
    exact ⟨_, hrun, hctxs, hmem, hbanks, hwritten.congr hspad hlate rfl, congrArg Chan.cur (State.chan_modChan_self ..)⟩
  case complete =>
    intro k hruns hcur hcode hbegun hsteps hflag hobj hnode
    have hrest := s.plainOver_rest k x
    have hchan := State.chan_modChan_self (s.plainOver k x) k fun c => { c with cur := c.shadow, shadow := none }
    rw [State.chan_plainOver] at hchan
    obtain ⟨hdone, hle, hkept⟩ := (s.chan k).complete_spec x.id
    refine ⟨_, exec_copyTransferComplete_of_plain hruns hcur hcode hbegun hsteps hflag hobj hnode, ?_, ?_, ?_, ?_, ?_, ?_, ?_, ?_, ?_⟩
    · have h : (s.plainOver k x).mem = s.mem := by rw [hrest]
      exact h
    · have h : (s.plainOver k x).spad = s.spad := by rw [hrest]
      exact h
    · rw [hchan]; exact hdone
    · rw [hchan]; exact hle
    · rw [hchan, hkept]
    · rw [hchan]
    · rw [hchan, hkept]
    · have h : (s.plainOver k x).vers = s.vers := by rw [hrest]
      exact h
    · intro th hth hslots
      have hctx : ((s.plainOver k x).ctx th) = (s.ctx th).xferOver k x.id x.row 0 := by
        rw [State.plainOver, hth]
        exact State.ctx_modThread_of_no_slots (s := ((s.modChan k fun c => c.over x 0).unhold (chanSrc k)).mapNodes fun n => n.copyOver k x.id)
          hslots th _
      have hover := (s.ctx th).copies_xferOver k x.id x.row 0
      rw [← hctx] at hover
      exact hover
  case idle =>
    have hwrite : chanWrite (s.chan s.arg.a) 0x10 s.arg.b false = { s.chan s.arg.a with
        widx := s.arg.b, done := s.arg.b, taken := s.arg.b, subs := [], proms := [], early := [], fails := [] } := if_pos hpend
    have hchan := State.chan_modChan_self s s.arg.a fun c => chanWrite c 0x10 s.arg.b false
    rw [hwrite] at hchan
    exact ⟨_, rfl, rfl, by rw [hchan], by rw [hchan], by rw [hchan, Chan.pend]; simp⟩
  case pending =>
    have hchan := State.chan_modChan_self s s.arg.a fun c => chanWrite c 0x10 s.arg.b false
    exact ⟨_, rfl, rfl, hchan.trans (if_neg hpend)⟩

end Sys2Proof.Machine
end

section
/-! The flits of a `PUT` (R357, R365): each holds its part of the range, byte by byte as the `PUT` found it or as it stands when the flit
leaves. -/

namespace Sys2Proof.Machine

/-- What a `PUT` sends: its outbound id and offset, its source thread and address, and the bytes as it found them and as they stand. -/
structure PutText where
  wid : Nat
  off : Nat
  src : Nat
  pa : Nat
  bs : List Byte
  now : List Byte

/-- Bytes that begin at `a` of the range are each as found or as they stand. -/
def PutText.Mixed (c : PutText) (a : Nat) (l : List Byte) : Prop := ∀ k, k < l.length → l[k]? = c.bs[a + k]? ∨ l[k]? = c.now[a + k]?

/-- Flit `i` of a `PUT`. -/
structure PutText.Flit (c : PutText) (i : Nat) (f : OutFlit) : Prop where
  type_ : f.type_ = 1
  wid : f.wid = c.wid
  off : f.off = c.off + 224 * i
  length : f.bytes.length = min 224 (c.bs.length - 224 * i)
  last : f.flg = true ↔ c.bs.length ≤ 224 * (i + 1)
  mixed : c.Mixed (224 * i) f.bytes

/-- Flit `i` with the bytes that the `PUT` found. -/
def PutText.found (c : PutText) (flg : Bool) (i n : Nat) : OutFlit where
  type_ := 1
  flg := flg
  wid := c.wid
  off := c.off + 224 * i
  bytes := (c.bs.drop (224 * i)).take n

/-- Flit `i` as it waits, with the source of bytes still to be read. -/
def PutText.Waits (c : PutText) (i : Nat) (e : OutFlit × Option PutSrc) : Prop :=
  c.Flit i e.1 ∧ ∃ o, e.2 = some o ∧ o.src = c.src ∧ o.pa = c.pa + 224 * i

/-- The flits from `i` on wait in order. -/
def PutText.Queue (c : PutText) : Nat → List (OutFlit × Option PutSrc) → Prop
  | _, [] => True
  | i, e :: l => c.Waits i e ∧ c.Queue (i + 1) l

theorem PutText.Mixed.take {c : PutText} {a : Nat} {l : List Byte} (h : c.Mixed a l) (n : Nat) : c.Mixed a (l.take n) := by
  intro k hk
  rw [List.length_take] at hk
  rw [List.getElem?_take_of_lt (by omega)]
  exact h k (by omega)

theorem PutText.Mixed.append {c : PutText} {a : Nat} {l m : List Byte} (h : c.Mixed a l) (k : c.Mixed (a + l.length) m) : c.Mixed a (l ++ m) := by
  intro j hj
  rcases Nat.lt_or_ge j l.length with hlt | hge
  · rw [List.getElem?_append_left hlt]; exact h j hlt
  · rw [List.getElem?_append_right hge]
    have := k (j - l.length) (by rw [List.length_append] at hj; omega)
    rwa [show a + l.length + (j - l.length) = a + j by omega] at this

theorem PutText.Mixed.drop {c : PutText} {a : Nat} {l : List Byte} (h : c.Mixed a l) (n : Nat) : c.Mixed (a + n) (l.drop n) := by
  intro k hk
  rw [List.length_drop] at hk
  rw [List.getElem?_drop, show a + n + k = a + (n + k) by omega]
  exact h (n + k) (by omega)

-- The flits of a range.

/-- The flits that a range is cut into wait in order, none of their bytes read again. -/
theorem PutText.queue_flitsOf (c : PutText) (seed fuel i : Nat) (hfuel : c.bs.length - 224 * i < 224 * fuel) (hi : 224 * i < c.bs.length) :
    c.Queue i (flitsOf c.wid (c.off + 224 * i) (some ⟨c.src, c.pa + 224 * i, seed, 0⟩) fuel (c.bs.drop (224 * i))) ∧
    (flitsOf c.wid (c.off + 224 * i) (some ⟨c.src, c.pa + 224 * i, seed, 0⟩) fuel (c.bs.drop (224 * i))).length =
      (c.bs.length - 224 * i + 223) / 224 := by
  induction fuel generalizing i with
  | zero => omega
  | succ fuel ih =>
    have hrest : (c.bs.drop (224 * i)).length = c.bs.length - 224 * i := List.length_drop
    have hfirst (flg : Bool) (hflg : flg = true ↔ c.bs.length ≤ 224 * (i + 1)) :
        c.Flit i (c.found flg i (min 224 (c.bs.drop (224 * i)).length)) := by
      refine ⟨rfl, rfl, rfl, by rw [PutText.found, List.length_take, hrest]; omega, hflg, ?_⟩
      exact PutText.Mixed.take (fun k _ => .inl List.getElem?_drop) _
    rw [flitsOf]
    by_cases hlast : (c.bs.drop (224 * i)).length ≤ 224
    · rw [if_pos hlast]
      refine ⟨⟨⟨hfirst _ ?_, _, rfl, rfl, rfl⟩, trivial⟩, ?_⟩
      · rw [decide_eq_true_iff, hrest]; omega
      · rw [hrest] at hlast
        show 1 = _
        omega
    · rw [if_neg hlast]
      rw [hrest] at hlast
      obtain ⟨hqueue, hlength⟩ := ih (i + 1) (by omega) (by omega)
      have hmin : min 224 (c.bs.drop (224 * i)).length = 224 := by rw [hrest]; omega
      have hdrop : (c.bs.drop (224 * i)).drop 224 = c.bs.drop (224 * (i + 1)) := by rw [List.drop_drop]; congr 1
      rw [hmin] at hfirst
      rw [hmin, hdrop, Option.map_some, show c.off + 224 * i + 224 = c.off + 224 * (i + 1) by omega]
      dsimp only
      rw [show c.pa + 224 * i + 224 = c.pa + 224 * (i + 1) by omega]
      refine ⟨⟨⟨hfirst _ ?_, _, rfl, rfl, rfl⟩, hqueue⟩, ?_⟩
      · rw [decide_eq_true_iff, hrest]; omega
      · rw [List.length_cons, hlength]
        omega

-- A flit's bytes as it leaves.

/-- The bytes of the range as they stand now are those that the flits may read. -/
def PutText.Reads (c : PutText) (s : State) (part : Nat) : Prop :=
  c.now = s.loadBytes ⟨c.src, some part, some (cellOf c.src), ⟨s.keel + 1, 0⟩, some 0, none⟩ part c.pa c.bs.length

theorem State.getElem?_loadBytes (s : State) (vw : Viewer) (part pa : Nat) {n k : Nat} (h : k < n) :
    (s.loadBytes vw part pa n)[k]? = some (s.loadByte vw (s.canon part (pa + k))) := by
  rw [State.loadBytes, State.addrs, List.getElem?_map, List.getElem?_map, List.getElem?_range h]
  rfl

theorem State.length_flitBytes (s : State) (part : Nat) (o : PutSrc) (l : List Byte) : (s.flitBytes part o l).length = l.length := by
  rw [State.flitBytes, List.length_map, List.length_zipIdx]

/-- Each byte of a flit that leaves is as it was kept or as it stands. -/
theorem State.getElem?_flitBytes (s : State) (part : Nat) (o : PutSrc) {l : List Byte} {k : Nat} (h : k < l.length) :
    (s.flitBytes part o l)[k]? = l[k]? ∨ (s.flitBytes part o l)[k]? =
      some (s.loadByte ⟨o.src, some part, some (cellOf o.src), ⟨s.keel + 1, 0⟩, some 0, none⟩ (s.canon part (o.pa + k))) := by
  rw [State.flitBytes, List.getElem?_map, List.getElem?_zipIdx, List.getElem?_eq_getElem h, Option.map_some, Option.map_some]
  dsimp only
  split
  · exact .inl rfl
  · rw [Nat.zero_add, State.getElem?_loadBytes s _ part o.pa h]
    exact .inr rfl

theorem PutText.Mixed.flitBytes {c : PutText} {s : State} {part a : Nat} {l : List Byte} (h : c.Mixed a l) (hreads : c.Reads s part)
    (hbound : a + l.length ≤ c.bs.length) {o : PutSrc} (hsrc : o.src = c.src) (hpa : o.pa = c.pa + a) :
    c.Mixed a (s.flitBytes part o l) := by
  intro k hk
  rw [State.length_flitBytes] at hk
  rcases s.getElem?_flitBytes part o hk with hkept | hread
  · rw [hkept]
    exact h k hk
  · rw [hread, hreads, State.getElem?_loadBytes s _ part c.pa (show a + k < c.bs.length by omega), hsrc, hpa, Nat.add_assoc]
    exact .inr rfl

theorem PutText.Flit.withBytes {c : PutText} {i : Nat} {f : OutFlit} (h : c.Flit i f) {l : List Byte} (hlength : l.length = f.bytes.length)
    (hmixed : c.Mixed (224 * i) l) : c.Flit i { f with bytes := l } :=
  ⟨h.type_, h.wid, h.off, hlength.trans h.length, h.last, hmixed⟩

theorem PutText.Flit.numbered {c : PutText} {i : Nat} {f : OutFlit} (h : c.Flit i f) (seq ack : Nat) :
    c.Flit i { f with seq := seq, ack := ack } := ⟨h.type_, h.wid, h.off, h.length, h.last, h.mixed⟩

/-- A flit that is read is still its part of the range. -/
theorem PutText.Flit.read {c : PutText} {s : State} {part i : Nat} {f : OutFlit} (h : c.Flit i f) (hreads : c.Reads s part)
    (hi : 224 * i < c.bs.length) {o : PutSrc} (hsrc : o.src = c.src) (hpa : o.pa = c.pa + 224 * i) :
    c.Flit i { f with bytes := s.flitBytes part o f.bytes } :=
  h.withBytes (s.length_flitBytes part o f.bytes) (h.mixed.flitBytes hreads (by rw [h.length]; omega) hsrc hpa)

/-- So is the next one with its first bytes read. -/
theorem PutText.Flit.readFirst {c : PutText} {s : State} {part i : Nat} {f : OutFlit} (h : c.Flit i f) (hreads : c.Reads s part)
    (hi : 224 * i < c.bs.length) {o : PutSrc} (hsrc : o.src = c.src) (hpa : o.pa = c.pa + 224 * i) {k : Nat} (hk : k ≤ f.bytes.length) :
    c.Flit i { f with bytes := s.flitBytes part o (f.bytes.take k) ++ f.bytes.drop k } := by
  have hlength : (f.bytes.take k).length = k := by rw [List.length_take]; omega
  refine h.withBytes ?_ (PutText.Mixed.append ((h.mixed.take k).flitBytes hreads ?_ hsrc hpa) ?_)
  · rw [List.length_append, State.length_flitBytes, hlength, List.length_drop]; omega
  · rw [hlength]
    have := h.length
    omega
  · rw [State.length_flitBytes, hlength]
    exact h.mixed.drop k

/-- What waits after a flit still waits in order once the flit is read. -/
theorem PutText.readFlit_queue {c : PutText} {s : State} {part i : Nat} (hreads : c.Reads s part) {e : OutFlit × Option PutSrc}
    {l : List (OutFlit × Option PutSrc)} (h : c.Queue i (e :: l)) (hi : 224 * (i + l.length) < c.bs.length) :
    ∃ f rest, s.readFlit part (e :: l) = (f, none) :: rest ∧ c.Flit i f ∧ c.Queue (i + 1) rest ∧ rest.length = l.length := by
  obtain ⟨f, src⟩ := e
  obtain ⟨⟨hflit, o, rfl, hsrc, hpa⟩, hqueue⟩ := h
  have hread := hflit.read hreads (by omega) hsrc hpa
  cases l with
  | nil => exact ⟨_, [], rfl, hread, hqueue, rfl⟩
  | cons e l =>
    obtain ⟨g, src⟩ := e
    obtain ⟨⟨hnext, p, rfl, hsrc', hpa'⟩, hrest⟩ := hqueue
    rw [State.readFlit]
    dsimp only
    split
    · rw [List.length_cons] at hi
      exact ⟨_, _, rfl, hread, ⟨⟨hnext.readFirst hreads (by omega) hsrc' hpa' (Nat.min_le_right _ _), _, rfl, hsrc', hpa'⟩, hrest⟩, rfl⟩
    · exact ⟨_, _, rfl, hread, ⟨⟨hnext, p, rfl, hsrc', hpa'⟩, hrest⟩, rfl⟩

-- The flits leave.

/-- The flits `fl` of a `PUT`, from flit `i` on, have left port `n` with numbers from `seq` on. -/
structure PutText.Sent (c : PutText) (n i : Nat) (s t : State) (fl : List OutFlit) : Prop where
  rest : t = { s with ports := t.ports, outbox := t.outbox }
  other : ∀ k, k ≠ n → t.port k = s.port k
  puts : (t.port n).puts = (s.port n).puts
  pairs : (t.port n).pairs = (s.port n).pairs
  outbox : t.outbox = s.outbox ++ fl.map (.flit n)
  replay : (t.port n).replay = (s.port n).replay ++ fl.map (fun f => (f, 0))
  flits : ∀ j f, fl[j]? = some f → c.Flit (i + j) f ∧ f.seq = ((s.port n).txSeq + j) % 65536

theorem PutText.Sent.nil (c : PutText) (n i : Nat) (s : State) : c.Sent n i s s [] where
  rest := rfl
  other _ _ := rfl
  puts := rfl
  pairs := rfl
  outbox := (List.append_nil _).symm
  replay := (List.append_nil _).symm
  flits _ _ h := nomatch h

/-- The first flit that waits leaves. -/
def State.sendFirst (s : State) (n : Nat) (f : OutFlit) (rest : List (OutFlit × Option PutSrc)) : State :=
  (s.emit (.flit n f)).modPort n fun p => { p with
    sendq := rest, replay := p.replay ++ [(f, 0)], txSeq := (p.txSeq + 1) % 65536, ackTx := p.ack
    ackAt := if p.replay.isEmpty then s.keel else p.ackAt }

theorem State.port_sendFirst (s : State) (n : Nat) (f : OutFlit) (rest : List (OutFlit × Option PutSrc)) :
    (s.sendFirst n f rest).port n = { s.port n with
      sendq := rest, replay := (s.port n).replay ++ [(f, 0)], txSeq := ((s.port n).txSeq + 1) % 65536, ackTx := (s.port n).ack
      ackAt := if (s.port n).replay.isEmpty then s.keel else (s.port n).ackAt } := by
  rw [State.sendFirst, State.port_modPort, if_pos rfl]
  rfl

theorem State.port_sendFirst_other (s : State) {n k : Nat} (h : k ≠ n) (f : OutFlit) (rest : List (OutFlit × Option PutSrc)) :
    (s.sendFirst n f rest).port k = s.port k := by
  rw [State.sendFirst, State.port_modPort, if_neg (Ne.symm h)]
  rfl

theorem State.pump_succ {s : State} {n : Nat} (hroom : (s.port n).replay.length < 512) {f : OutFlit} {src : Option PutSrc}
    {rest : List (OutFlit × Option PutSrc)} (hread : s.readFlit (s.partOfPort n) (s.port n).sendq = (f, src) :: rest) (fuel : Nat) :
    State.pump (fuel + 1) n s =
      State.pump fuel n (s.sendFirst n { f with seq := (s.port n).txSeq, ack := (s.port n).ack } rest) := by
  rw [State.pump]
  dsimp only
  rw [if_neg (by omega), hread]
  rfl

theorem State.pump_of_empty {s : State} {n : Nat} (h : (s.port n).sendq = []) (fuel : Nat) : State.pump fuel n s = s := by
  cases fuel with
  | zero => rfl
  | succ fuel =>
    rw [State.pump]
    dsimp only
    rw [h]
    split
    · rfl
    · rfl

theorem PutText.Sent.cons {c : PutText} {n i : Nat} {s t : State} {f : OutFlit} {rest : List (OutFlit × Option PutSrc)}
    {fl : List OutFlit} (hflit : c.Flit i f) (hseq : f.seq = (s.port n).txSeq) (hlt : (s.port n).txSeq < 65536)
    (h : c.Sent n (i + 1) (s.sendFirst n f rest) t fl) : c.Sent n i s t (f :: fl) where
  rest := h.rest
  other k hk := (h.other k hk).trans (s.port_sendFirst_other hk f rest)
  puts := h.puts.trans (by rw [State.port_sendFirst])
  pairs := h.pairs.trans (by rw [State.port_sendFirst])
  outbox := h.outbox.trans (List.append_assoc s.outbox [.flit n f] _)
  replay := by rw [h.replay, State.port_sendFirst, List.append_assoc]; rfl
  flits j g hg := by
    cases j with
    | zero =>
      obtain rfl : f = g := Option.some.inj hg
      exact ⟨hflit, by rw [hseq, Nat.add_zero, Nat.mod_eq_of_lt hlt]⟩
    | succ j =>
      obtain ⟨hf, hs⟩ := h.flits j g hg
      refine ⟨by rwa [Nat.add_assoc, Nat.add_comm 1 j] at hf, ?_⟩
      rw [hs, State.port_sendFirst]
      dsimp only
      omega

/-- Every flit that waits leaves where the replay buffer has room for all. -/
theorem PutText.exists_sent (c : PutText) (n fuel i : Nat) (s : State) (hreads : c.Reads s (s.partOfPort n))
    (hqueue : c.Queue i (s.port n).sendq) (hfuel : (s.port n).sendq.length ≤ fuel)
    (hroom : (s.port n).replay.length + (s.port n).sendq.length ≤ 512) (hlt : (s.port n).txSeq < 65536)
    (hi : 224 * (i + (s.port n).sendq.length) < c.bs.length + 224) :
    ∃ fl, fl.length = (s.port n).sendq.length ∧ c.Sent n i s (State.pump fuel n s) fl := by
  induction fuel generalizing i s with
  | zero => exact ⟨[], (Nat.le_zero.mp hfuel).symm, .nil c n i s⟩
  | succ fuel ih =>
    match hsendq : (s.port n).sendq with
    | [] => exact ⟨[], rfl, by rw [State.pump_of_empty hsendq]; exact .nil c n i s⟩
    | e :: l =>
      rw [hsendq] at hqueue hfuel hroom hi
      rw [List.length_cons] at hfuel hroom hi
      obtain ⟨f, rest, hread, hflit, hrest, hlength⟩ := PutText.readFlit_queue hreads hqueue (by omega)
      rw [← hsendq] at hread
      rw [State.pump_succ (by omega) hread]
      have hport := s.port_sendFirst n { f with seq := (s.port n).txSeq, ack := (s.port n).ack } rest
      obtain ⟨fl, hfl, hsent⟩ := ih (i + 1) (s.sendFirst n { f with seq := (s.port n).txSeq, ack := (s.port n).ack } rest) hreads
        (by rw [hport]; exact hrest) (by rw [hport]; dsimp only; omega)
        (by rw [hport, List.length_append]; dsimp only [List.length_singleton]; omega)
        (by rw [hport]; exact Nat.mod_lt _ (by omega)) (by rw [hport]; dsimp only; omega)
      refine ⟨_ :: fl, ?_, .cons (hflit.numbered _ _) rfl hlt hsent⟩
      rw [List.length_cons, List.length_cons, hfl, hport, hlength]

end Sys2Proof.Machine
end

section
/-! `WREG`, `WDEREG`, `PUT`, `WWAIT` and `WCNT` (R364 to R366). -/

namespace Sys2Proof.Machine

-- `PUT`.

/-- The `PUT` stands in its port's list, its pair has counted it, and its flits wait behind those of before. -/
def State.putQueued (s : State) (agent n wid : Nat) (l : List (OutFlit × Option PutSrc)) : State :=
  (s.modPort n fun p => ({ p with puts := p.puts ++ [⟨wid, ((s.port n).pair wid).issued.n + 1⟩] } : Port).modPair wid fun q => { q with
    issued := q.issued.add ⟨s.keel, agent⟩ 1 }).modPort n fun p => { p with sendq := p.sendq ++ l }

theorem State.issuePut_of_up {s : State} {n : Nat} (h : (s.port n).up = true) (agent wid off : Nat) (bs : List Byte) (src : Option PutSrc) :
    s.issuePut agent n wid off bs src = (((s.port n).pair wid).issued.n + 1,
      State.pump 512 n (s.putQueued agent n wid (flitsOf wid off src (bs.length / 224 + 1) bs))) := by
  rw [State.issuePut, State.port_modPort, if_pos rfl, if_pos (by exact h)]
  rfl

theorem State.port_putQueued (s : State) (agent n wid : Nat) (l : List (OutFlit × Option PutSrc)) :
    (s.putQueued agent n wid l).port n = { (s.port n) with
      puts := (s.port n).puts ++ [⟨wid, ((s.port n).pair wid).issued.n + 1⟩]
      pairs := tput (s.port n).pairs wid { (s.port n).pair wid with issued := ((s.port n).pair wid).issued.add ⟨s.keel, agent⟩ 1 }
      sendq := (s.port n).sendq ++ l } := by
  rw [State.putQueued, State.port_modPort, if_pos rfl, State.port_modPort, if_pos rfl]
  rfl

theorem State.port_putQueued_other (s : State) {n k : Nat} (h : k ≠ n) (agent wid : Nat) (l : List (OutFlit × Option PutSrc)) :
    (s.putQueued agent n wid l).port k = s.port k := by
  rw [State.putQueued, State.port_modPort, if_neg (Ne.symm h), State.port_modPort, if_neg (Ne.symm h)]

/-- A read of memory changes nothing. -/
theorem State.readAt_of_memory {pa : Nat} (h : memoryAt pa) (s : State) (ord : Bool) (n : Nat) :
    s.readAt ord pa n = ((s.readAt ord pa n).1, s) := by
  rcases h with h | h | h <;> simp only [State.readAt, h]

theorem State.length_readAt_of_memory {pa : Nat} (h : memoryAt pa) (s : State) (ord : Bool) (n : Nat) :
    (s.readAt ord pa n).1.length = n := by
  rcases h with h | h | h <;> cases ord <;> simp [State.readAt, h, State.bytesAt, State.loadBytes, State.addrs]

theorem State.tethered_memory {s : State} {th : BitVec 4} {off : Int} {n : Nat} {write stream : Bool}
    (h : s.tethUsable th off n write stream) (hpa : memoryAt (((s.me.teth th).anchor : Int) + off).toNat) (k : Tether → Nat → State) :
    s.tethered th off n write stream k = k (s.me.teth th) (((s.me.teth th).anchor : Int) + off).toNat := by
  rw [State.tethered_of_usable h]
  exact if_neg (by rcases hpa with hpa | hpa | hpa <;> simp [hpa])

theorem State.afterAccess_of_empty {s : State} (hbuf : s.me.bufA = []) (hstreams : s.me.streams = []) (k : State → State) :
    s.afterAccess k = k s := by
  rw [State.afterAccess, hbuf, hstreams]
  rfl

/-- The thread's list names a `PUT`, and the model's next choice is made. -/
def State.putListed (s : State) (oid num : Nat) : State :=
  ({ s with choices := s.choices + 1 }).modMe fun c => { c with puts := c.puts ++ [(oid, num)] }

/-- The thread's `PUT` of the bytes `bs`. -/
def State.putMade (s : State) (n w off pa : Nat) (bs : List Byte) (oid : Nat) : State :=
  let r := s.issuePut s.iss.src n w off bs (some ⟨s.iss.src, pa, s.choices, 0⟩)
  r.2.putListed oid r.1

theorem exec_put_of_ready {s : State} {th : BitVec 4} {a b c : Reg} {wid : BitVec 16}
    (hpart : s.partOfPort (wid.toNat / 4096) = s.myPart) (hpos : 0 < (s.scalar c).toNat) (hmax : (s.scalar c).toNat ≤ 2 ^ 24)
    (hfree : s.me.xlatPending th = false) (husable : s.tethUsable th (s.scalar a).toInt (s.scalar c).toNat false false)
    (hpa : memoryAt (((s.me.teth th).anchor : Int) + (s.scalar a).toInt).toNat)
    (hputs : (s.port (wid.toNat / 4096)).puts.length < 256) (hbuf : s.me.bufA = []) (hstreams : s.me.streams = [])
    (hclean : s.readPoisoned (s.me.teth th).ord (((s.me.teth th).anchor : Int) + (s.scalar a).toInt).toNat (s.scalar c).toNat = false) :
    exec (.put th a b c wid) s = .next (s.putMade (wid.toNat / 4096) (wid.toNat % 4096) (s.scalar b).toNat
      (((s.me.teth th).anchor : Int) + (s.scalar a).toInt).toNat
      (s.readAt (s.me.teth th).ord (((s.me.teth th).anchor : Int) + (s.scalar a).toInt).toNat (s.scalar c).toNat).1 wid.toNat) := by
  have hrun : exec (.put th a b c wid) s = execPut th a b c wid s := rfl
  rw [hrun, execPut]
  dsimp only
  rw [if_neg (not_not.mpr hpart), if_neg (by omega), if_neg (by omega), State.withTeth_of_free hfree, State.tethered_memory husable hpa,
    if_neg (by omega), State.afterAccess_of_empty hbuf hstreams, hclean, if_neg Bool.false_ne_true, State.readAt_of_memory hpa]
  rfl

/-- What the thread's `PUT` of the bytes `bs` of memory from `pa` sends. -/
def State.putText (s : State) (w off pa : Nat) (bs : List Byte) : PutText where
  wid := w
  off := off
  src := s.iss.src
  pa := pa
  bs := bs
  now := s.loadBytes ⟨s.iss.src, some s.myPart, some s.myCell, ⟨s.keel + 1, 0⟩, some 0, none⟩ s.myPart pa bs.length

/-- All flits of a `PUT` leave at once where nothing waits before them and the replay buffer has room. -/
theorem State.exists_sent_putQueued {s : State} {n : Nat} (hpart : s.partOfPort n = s.myPart) (hsendq : (s.port n).sendq = [])
    (hlt : (s.port n).txSeq < 65536) (w off pa seed : Nat) {bs : List Byte} (hpos : 0 < bs.length)
    (hroom : (s.port n).replay.length + (bs.length + 223) / 224 ≤ 512) :
    let q := s.putQueued s.iss.src n w (flitsOf w off (some ⟨s.iss.src, pa, seed, 0⟩) (bs.length / 224 + 1) bs)
    ∃ fl, fl.length = (bs.length + 223) / 224 ∧ (s.putText w off pa bs).Sent n 0 q (State.pump 512 n q) fl := by
  intro q
  have hport := s.port_putQueued s.iss.src n w (flitsOf w off (some ⟨s.iss.src, pa, seed, 0⟩) (bs.length / 224 + 1) bs)
  rw [hsendq, List.nil_append] at hport
  have hreads : (s.putText w off pa bs).Reads q (q.partOfPort n) := by
    have hq : q.partOfPort n = s.myPart := hpart
    rw [hq]
    rfl
  obtain ⟨hqueue, hlength⟩ := (s.putText w off pa bs).queue_flitsOf seed (bs.length / 224 + 1) 0
    (show bs.length - 224 * 0 < _ by omega) hpos
  change PutText.Queue _ 0 (flitsOf w off (some ⟨s.iss.src, pa, seed, 0⟩) (bs.length / 224 + 1) bs) at hqueue
  change (flitsOf w off (some ⟨s.iss.src, pa, seed, 0⟩) (bs.length / 224 + 1) bs).length = (bs.length - 224 * 0 + 223) / 224 at hlength
  obtain ⟨fl, hfl, hsent⟩ := (s.putText w off pa bs).exists_sent n 512 0 q hreads (by rw [hport]; exact hqueue)
    (by rw [hport]; dsimp only; omega) (by rw [hport]; dsimp only; omega) (by rw [hport]; exact hlt)
    (by rw [hport]; show _ < bs.length + 224; dsimp only; omega)
  refine ⟨fl, ?_, hsent⟩
  rw [hfl, hport]
  exact hlength

theorem State.putQueued_rest (s : State) (agent n wid : Nat) (l : List (OutFlit × Option PutSrc)) :
    s.putQueued agent n wid l = { s with ports := (s.putQueued agent n wid l).ports } := rfl

/-- A `PUT` on a link that is up: counted, its flits sent, and nothing else changed. -/
theorem State.putMade_spec {s : State} {n : Nat} (hpart : s.partOfPort n = s.myPart) (hup : (s.port n).up = true)
    (hsendq : (s.port n).sendq = []) (hlt : (s.port n).txSeq < 65536) (w off pa oid : Nat) {bs : List Byte} (hpos : 0 < bs.length)
    (hroom : (s.port n).replay.length + (bs.length + 223) / 224 ≤ 512) :
    let num := ((s.port n).pair w).issued.n + 1
    let t := s.putMade n w off pa bs oid
    ∃ fl : List OutFlit, t.iss = s.iss ∧ OthersKept s t s.iss.src ∧ t.mem = s.mem ∧ t.spad = s.spad ∧
      t.vers = s.vers ∧ t.me = { s.me with puts := s.me.puts ++ [(oid, num)] } ∧ (∀ k, k ≠ n → t.port k = s.port k) ∧
      (t.port n).puts = (s.port n).puts ++ [⟨w, num⟩] ∧
      (t.port n).pair w = { (s.port n).pair w with issued := ((s.port n).pair w).issued.add ⟨s.keel, s.iss.src⟩ 1 } ∧
      (∀ v, v ≠ w → (t.port n).pair v = (s.port n).pair v) ∧ t.outbox = s.outbox ++ fl.map (.flit n) ∧
      (t.port n).replay = (s.port n).replay ++ fl.map (fun f => (f, 0)) ∧
      fl.length = (bs.length + 223) / 224 ∧
      ∀ i f, fl[i]? = some f → (s.putText w off pa bs).Flit i f ∧ f.seq = ((s.port n).txSeq + i) % 65536 := by
  intro num t
  obtain ⟨fl, hfl, hsent⟩ := State.exists_sent_putQueued hpart hsendq hlt w off pa s.choices hpos hroom
  have hport := s.port_putQueued s.iss.src n w (flitsOf w off (some ⟨s.iss.src, pa, s.choices, 0⟩) (bs.length / 224 + 1) bs)
  have hother := fun k (hk : k ≠ n) =>
    s.port_putQueued_other hk s.iss.src w (flitsOf w off (some ⟨s.iss.src, pa, s.choices, 0⟩) (bs.length / 224 + 1) bs)
  have ht : t = State.putListed (s.putQueued s.iss.src n w (flitsOf w off (some ⟨s.iss.src, pa, s.choices, 0⟩) (bs.length / 224 + 1) bs) |>
      State.pump 512 n) oid num := by
    show s.putMade n w off pa bs oid = _
    rw [State.putMade, State.issuePut_of_up hup]
  have hq := s.putQueued_rest s.iss.src n w (flitsOf w off (some ⟨s.iss.src, pa, s.choices, 0⟩) (bs.length / 224 + 1) bs)
  generalize s.putQueued s.iss.src n w (flitsOf w off (some ⟨s.iss.src, pa, s.choices, 0⟩) (bs.length / 224 + 1) bs) = q at *
  generalize State.pump 512 n q = u at *
  have hu : u = { s with ports := u.ports, outbox := u.outbox } := hsent.rest.trans (by rw [hq])
  have hiss : u.iss = s.iss := by rw [hu]
  have hctx (k : Nat) : u.ctx k = s.ctx k := by rw [State.ctx, State.ctx, show u.ctxs = s.ctxs by rw [hu]]
  have hme : u.me = s.me := by rw [State.me, State.me, hctx, hiss]
  have hpair (v : Nat) : (u.port n).pair v = if w = v then
      { (s.port n).pair w with issued := ((s.port n).pair w).issued.add ⟨s.keel, s.iss.src⟩ 1 } else (s.port n).pair v := by
    rw [Port.pair, hsent.pairs, hport]
    exact tget_tput ..
  rw [ht]
  refine ⟨fl, hiss, ?_, show u.mem = s.mem by rw [hu], show u.spad = s.spad by rw [hu], show u.vers = s.vers by rw [hu], ?_,
    fun k hk => (hsent.other k hk).trans (hother k hk), ?_, ?_, fun v hv => ?_, ?_, ?_, hfl, fun i f hf => ?_⟩
  case refine_1 => exact fun k hk => (othersKept_modMe { u with choices := u.choices + 1 } _ k (by rwa [← hiss] at hk)).trans (hctx k)
  case refine_2 => rw [State.putListed, State.me_modMe, show ({ u with choices := u.choices + 1 } : State).me = u.me from rfl, hme]
  case refine_3 => exact hsent.puts.trans (by rw [hport])
  case refine_4 => exact (hpair w).trans (if_pos rfl)
  case refine_5 => exact (hpair v).trans (if_neg (Ne.symm hv))
  case refine_6 => exact hsent.outbox.trans (by rw [hq])
  case refine_7 => exact hsent.replay.trans (by rw [hport])
  case refine_8 =>
    obtain ⟨hflit, hseq⟩ := hsent.flits i f hf
    rw [hport] at hseq
    rw [Nat.zero_add] at hflit
    exact ⟨hflit, hseq⟩

-- `WREG` and `WDEREG`.

theorem any_key_iff {α : Type} (l : List (Nat × α)) (i : Nat) : (l.any fun w => w.1 = i) = (tfind l i).isSome := by
  induction l with
  | nil => rfl
  | cons e l ih =>
    obtain ⟨k, v⟩ := e
    rw [List.any_cons, ih, tfind]
    by_cases h : k = i <;> simp [h]

/-- The lowest entry that is free from `k` on. -/
theorem lowestFree_eq {l : List (Nat × Window)} {i : Nat} (hfree : tfind l i = none) (fuel k : Nat) (hk : k ≤ i) (hi : i < k + fuel)
    (hbelow : ∀ j, k ≤ j → j < i → tfind l j ≠ none) : lowestFree l fuel k = i := by
  induction fuel generalizing k with
  | zero => omega
  | succ fuel ih =>
    rw [lowestFree, any_key_iff]
    rcases Nat.lt_or_ge k i with hlt | hge
    · rw [if_pos (Option.isSome_iff_ne_none.mpr (hbelow k le_rfl hlt))]
      exact ih (k + 1) hlt (by omega) fun j hj => hbelow j (by omega)
    · obtain rfl : k = i := by omega
      rw [hfree]
      rfl

theorem tfind_tdel {α : Type} (l : List (Nat × α)) (n k : Nat) : tfind (tdel l n) k = if n = k then none else tfind l k := by
  induction l with
  | nil => simp [tdel, tfind]
  | cons e l ih =>
    obtain ⟨a, v⟩ := e
    by_cases ha : a = n
    · rw [show tdel ((a, v) :: l) n = tdel l n by simp [tdel, ha], ih, tfind]
      split_ifs with h1 h2
      · rfl
      · omega
      · rfl
    · rw [show tdel ((a, v) :: l) n = (a, v) :: tdel l n by simp [tdel, ha], tfind, tfind, ih]
      split_ifs with h1 h2
      · omega
      · rfl
      · rfl
      · rfl

/-- The entry that `WREG` makes of `len` bytes at `pa` through a tether. -/
def State.newWindow (s : State) (t : Tether) (pa len : Nat) : Window :=
  let va := t.vanc.toNat / pageSize t.sz * pageSize t.sz + (pa - t.pbase)
  { part := s.myPart, va := va, base := pa, len := len, exp := t.exp
    lease := match s.walk s.myPart va with | .ok l => l.lease | .error _ => 0 }

/-- `WREG` of a range with the entry `i` the lowest free one. -/
theorem exec_wreg_of_free {s : State} {d a b : Reg} {th : BitVec 4} {i : Nat} (hlen : (s.scalar b).toNat ≠ 0)
    (hxlat : s.me.xlatPending th = false) (husable : s.tethUsable th (s.scalar a).toInt (s.scalar b).toNat true false)
    (hpa : memoryAt (((s.me.teth th).anchor : Int) + (s.scalar a).toInt).toNat) (hi : i < 4096) (hfree : s.window i = none)
    (hbelow : ∀ j, j < i → s.window j ≠ none) :
    exec (.wreg d th a b) s = .next { (s.setScalar d (w64 i)) with
      windows := tput s.windows i
        (s.newWindow (s.me.teth th) (((s.me.teth th).anchor : Int) + (s.scalar a).toInt).toNat (s.scalar b).toNat) } := by
  have hrun : exec (.wreg d th a b) s = execWreg d th a b s := rfl
  rw [hrun, execWreg]
  dsimp only
  rw [State.withTeth_of_free hxlat, State.tethered_memory husable hpa,
    lowestFree_eq hfree 4096 0 (Nat.zero_le i) (by omega) fun j _ => hbelow j, if_neg (by simp [hlen, hi])]
  rfl

theorem exec_wreg_of_empty {s : State} {d a b : Reg} {th : BitVec 4} (hlen : s.scalar b = 0) (hxlat : s.me.xlatPending th = false)
    (husable : s.tethUsable th (s.scalar a).toInt 0 true false)
    (hpa : memoryAt (((s.me.teth th).anchor : Int) + (s.scalar a).toInt).toNat) :
    exec (.wreg d th a b) s = .next (s.setScalar d (BitVec.allOnes 64)) := by
  have hrun : exec (.wreg d th a b) s = execWreg d th a b s := rfl
  have hzero : (s.scalar b).toNat = 0 := by rw [hlen]; rfl
  rw [hrun, execWreg]
  dsimp only
  rw [hzero, State.withTeth_of_free hxlat, State.tethered_memory husable hpa, if_pos (by rfl)]
  rfl

theorem exec_wreg_of_readonly {s : State} {d a b : Reg} {th : BitVec 4} (hxlat : s.me.xlatPending th = false)
    (hstat : (s.me.teth th).stat = .ok) (hw : (s.me.teth th).w = false) :
    exec (.wreg d th a b) s = .next (s.fatal .badTether (th.setWidth 32)) := by
  have hrun : exec (.wreg d th a b) s = execWreg d th a b s := rfl
  rw [hrun, execWreg]
  dsimp only
  rw [State.withTeth_of_free hxlat, State.tethered]
  dsimp only
  rw [hstat]
  dsimp only
  rw [hw, if_neg (by simp)]

theorem exec_wdereg_of_mine {s : State} {a : Reg} {x : Window} (hx : s.window ((s.scalar a).toNat % 4096) = some x)
    (hpart : x.part = s.myPart) (hidle : s.putInto ((s.scalar a).toNat % 4096) = false) :
    exec (.wdereg a) s = .next { s with windows := tdel s.windows ((s.scalar a).toNat % 4096) } := by
  have hrun : exec (.wdereg a) s = execWdereg a s := rfl
  rw [hrun, execWdereg, hx]
  dsimp only
  rw [if_neg (not_not.mpr hpart), hidle]
  rfl

theorem exec_wdereg_of_other {s : State} {a : Reg} (h : ∀ x, s.window ((s.scalar a).toNat % 4096) = some x → x.part ≠ s.myPart) :
    exec (.wdereg a) s = .next s := by
  have hrun : exec (.wdereg a) s = execWdereg a s := rfl
  rw [hrun, execWdereg]
  cases hx : s.window ((s.scalar a).toNat % 4096) with
  | none => rfl
  | some x => exact if_pos (h x hx)

-- `WWAIT` and `WCNT`.

theorem exec_wwait_of_reached {s : State} {sel : WinSel} {a b : Reg}
    (h : ∀ x ∈ s.winCount sel ((s.scalar a).toNat % 65536), (s.scalar b).toNat ≤ x.1.seen ⟨s.keel, s.iss.src⟩) :
    ∃ setter, exec (.wwait sel a b) s = .next (s.waitEnds 4 ((s.scalar a).toNat % 65536) setter 0 .sys) := by
  have hrun : exec (.wwait sel a b) s = execWwait sel a b s := rfl
  rw [hrun, execWwait]
  cases hn : s.winCount sel ((s.scalar a).toNat % 65536) with
  | none => exact ⟨_, rfl⟩
  | some x => exact ⟨_, if_pos (h x hn)⟩

theorem exec_wwait_of_waiting {s : State} {sel : WinSel} {a b : Reg}
    (h : ∃ x ∈ s.winCount sel ((s.scalar a).toNat % 65536), x.1.seen ⟨s.keel, s.iss.src⟩ < (s.scalar b).toNat) :
    exec (.wwait sel a b) s = .next (s.waitOn 4 ((s.scalar a).toNat % 65536) none) := by
  obtain ⟨x, hx, hlt⟩ := h
  have hrun : exec (.wwait sel a b) s = execWwait sel a b s := rfl
  rw [hrun, execWwait, hx]
  exact if_neg (by omega)

theorem exec_wcnt_of_count {s : State} {sel : WinSel} {d a : Reg} {c : Tally} {e : Bool}
    (h : s.winCount sel ((s.scalar a).toNat % 65536) = some (c, e)) :
    exec (.wcnt sel d a) s =
      .next (s.setScalar d (BitVec.ofNat 64 (c.seen ⟨s.keel, s.iss.src⟩ + if e then 2 ^ 63 else 0))) := by
  have hrun : exec (.wcnt sel d a) s = execWcnt sel d a s := rfl
  rw [hrun, execWcnt, h]
  cases e <;> rfl

theorem exec_wcnt_of_none {s : State} {sel : WinSel} {d a : Reg} (h : s.winCount sel ((s.scalar a).toNat % 65536) = none) :
    exec (.wcnt sel d a) s = .next (s.setScalar d (BitVec.allOnes 64)) := by
  have hrun : exec (.wcnt sel d a) s = execWcnt sel d a s := rfl
  rw [hrun, execWcnt, h]
  rfl

theorem State.winCount_arr_of_mine {s : State} {id : Nat} {w : Window} (h : s.window (id % 4096) = some w) (hpart : w.part = s.myPart) :
    s.winCount .arr id = some (w.arrived, false) := by
  rw [State.winCount, h]
  exact if_pos hpart

theorem State.winCount_arr_of_none {s : State} {id : Nat} (h : s.window (id % 4096) = none) : s.winCount .arr id = none := by
  rw [State.winCount, h]

theorem port_of_id {id : Nat} (h : id < 65536) : id / 4096 % 16 = id / 4096 := by omega

theorem State.winCount_iss_of_mine {s : State} {id : Nat} (hid : id < 65536) (h : s.partOfPort (id / 4096) = s.myPart) :
    s.winCount .iss id = some (((s.port (id / 4096)).pair (id % 4096)).issued, ((s.port (id / 4096)).pair (id % 4096)).err) := by
  rw [State.winCount, port_of_id hid]
  exact if_neg (not_not.mpr h)

theorem State.winCount_cmp_of_mine {s : State} {id : Nat} (hid : id < 65536) (h : s.partOfPort (id / 4096) = s.myPart) :
    s.winCount .cmp id = some (((s.port (id / 4096)).pair (id % 4096)).completed, ((s.port (id / 4096)).pair (id % 4096)).err) := by
  simp [State.winCount, port_of_id hid, h]

theorem State.winCount_of_other {s : State} {id : Nat} (hid : id < 65536) (h : s.partOfPort (id / 4096) ≠ s.myPart) {sel : WinSel}
    (hsel : sel = .iss ∨ sel = .cmp) : s.winCount sel id = none := by
  rcases hsel with rfl | rfl <;> simp [State.winCount, port_of_id hid, h]

/-- A reader whose stamp is later than every write of a count sees the count. -/
theorem Tally.seen_of_later {c : Tally} {st : Stamp} (h : ∀ e ∈ c.fresh, e.1.lt st = true) : c.seen st = c.n % 2 ^ 48 := by
  have hnone : (c.fresh.filter fun f => !(f.1.lt st)) = [] := by
    rw [List.filter_eq_nil_iff]
    intro e he
    simp [h e he]
  rw [Tally.seen, hnone]
  rfl

-- `PUT` refused and of no bytes.

theorem exec_put_of_other_port {s : State} {th : BitVec 4} {a b c : Reg} {wid : BitVec 16}
    (h : s.partOfPort (wid.toNat / 4096) ≠ s.myPart) : exec (.put th a b c wid) s = .next (s.fatal .illegal) := by
  have hrun : exec (.put th a b c wid) s = execPut th a b c wid s := rfl
  rw [hrun, execPut]
  exact if_pos h

theorem exec_put_of_empty {s : State} {th : BitVec 4} {a b c : Reg} {wid : BitVec 16}
    (hpart : s.partOfPort (wid.toNat / 4096) = s.myPart) (hlen : s.scalar c = 0) :
    exec (.put th a b c wid) s = .next (s.emptyPut (wid.toNat / 4096) (wid.toNat % 4096)) := by
  have hrun : exec (.put th a b c wid) s = execPut th a b c wid s := rfl
  rw [hrun, execPut]
  dsimp only
  rw [if_neg (not_not.mpr hpart), if_pos (by rw [hlen]; rfl)]

theorem State.pair_emptyPut (s : State) (n w : Nat) : ((s.emptyPut n w).port n).pair w = { (s.port n).pair w with
    issued := ((s.port n).pair w).issued.add ⟨s.keel, s.iss.src⟩ 1
    completed := ((s.port n).pair w).completed.add ⟨s.keel, s.iss.src⟩ 1 } := by
  rw [State.emptyPut, State.port_modPort, if_pos rfl]
  exact tget_tput_self ..

/-- Settles O46, clause by clause: the lowest free entry for `WREG`, the flits of a `PUT` followed through the port's pump, and the
counts as `WWAIT` and `WCNT` read them. -/
theorem windowInstructions : Obligations.WindowInstructions := by
  unfold Obligations.WindowInstructions
  refine ⟨?registered, ?noBytes, ?readonly, ?freed, ?put, ?putElse, ?wait, ?count⟩
  case registered =>
    intro s d a b th i pa len hlen hxlat husable hpa hi hfree hbelow
    obtain ⟨⟨hrest, _, hothers, _⟩, hiss, hme, hreg, hregs⟩ := setScalar_spec s d (w64 i)
    have hwindow (j : Nat) : tfind (tput s.windows i (s.newWindow (s.me.teth th) pa len)) j = _ := tfind_tput ..
    refine ⟨_, s.newWindow (s.me.teth th) pa len, exec_wreg_of_free hlen hxlat husable hpa hi hfree hbelow, ?_, hothers,
      (hwindow i).trans (if_pos rfl), rfl, rfl, rfl, rfl, rfl, fun j hj => (hwindow j).trans (if_neg (Ne.symm hj)), hme, hreg, hregs⟩
    rw [hiss] at hrest
    generalize s.setScalar d (w64 i) = u at hrest
    rw [hrest]
  case noBytes => exact fun d a b th => .of_eq fun s ⟨hlen, hxlat, husable, hpa⟩ => exec_wreg_of_empty hlen hxlat husable hpa
  case readonly => exact fun s d a b th hxlat hstat hw => exec_wreg_of_readonly hxlat hstat hw
  case freed =>
    refine fun s a => ⟨fun ⟨x, hx, hpart⟩ hidle => ⟨_, exec_wdereg_of_mine hx hpart hidle, rfl, ?_, fun j hj => ?_⟩, exec_wdereg_of_other⟩
    · exact (tfind_tdel ..).trans (if_pos rfl)
    · exact (tfind_tdel ..).trans (if_neg (Ne.symm hj))
  case put =>
    intro s th a b c wid n w p len pa num hpart hpos hmax hxlat husable hpa hputs hbuf hstreams hclean hup hsendq hlt hroom
    have hlen := State.length_readAt_of_memory hpa s (s.me.teth th).ord len
    obtain ⟨fl, hiss, hothers, hmem, hspad, hvers, hme, hports, hlist, hpair, hpairs, hout, hreplay, hfl, hflits⟩ :=
      State.putMade_spec hpart hup hsendq hlt w (s.scalar b).toNat pa wid.toNat (bs := (s.readAt (s.me.teth th).ord pa len).1)
        (by rwa [hlen]) (by rwa [hlen])
    rw [hlen] at hfl
    refine ⟨_, fl, exec_put_of_ready hpart hpos hmax hxlat husable hpa hputs hbuf hstreams hclean, hiss, hothers, hmem, hspad, hvers, hme,
      hports, hlist, hpair, hpairs, hout, hreplay, hfl, fun i f hf => ?_⟩
    have hi : i < fl.length := (List.getElem?_eq_some_iff.mp hf).1
    obtain ⟨hflit, hseq⟩ := hflits i f hf
    have hbytes : f.bytes.length = min 224 (len - 224 * i) := hflit.length.trans (by rw [State.putText, hlen])
    have hlast : f.flg = true ↔ len ≤ 224 * (i + 1) := hflit.last.trans (by rw [State.putText, hlen])
    refine ⟨hflit.type_, hflit.wid, hflit.off, hseq, hbytes, hlast.trans ?_, fun k hk => ?_⟩
    · rw [hfl] at hi ⊢
      omega
    · have := hflit.mixed k hk
      rw [State.putText, hlen] at this
      exact this
  case putElse =>
    refine fun s th a b c wid => ⟨exec_put_of_other_port, fun hpart hlen => ⟨_, exec_put_of_empty hpart hlen, rfl, ?_⟩⟩
    exact s.pair_emptyPut _ _
  case wait =>
    refine fun s sel a b _ => ⟨fun hmay h => ?_, fun hunit h => ?_⟩
    · obtain ⟨setter, hrun⟩ := exec_wwait_of_reached h
      obtain ⟨hrest, hothers, hme⟩ := State.waitEnds_of_mayBound hmay 4 ((s.scalar a).toNat % 65536) setter 0
      exact ⟨_, hrun, hrest, hothers, hme⟩
    · exact ⟨_, exec_wwait_of_waiting h, rfl, .waitOn .., State.me_waitOn_of_core hunit ..⟩
  case count =>
    intro d a w p id mine
    have hid (s : State) : (s.scalar a).toNat % 65536 < 65536 := Nat.mod_lt _ (by omega)
    refine ⟨?_, ?_, ?_, fun c st h => Tally.seen_of_later h, ?_, fun sel hsel => ?_⟩
    · exact .of_eq fun s ⟨hw, hpart⟩ => exec_wcnt_of_count (State.winCount_arr_of_mine hw hpart)
    · exact .of_eq fun s ⟨hpart, hp⟩ => exec_wcnt_of_count ((State.winCount_iss_of_mine (hid s) hpart).trans (by rw [hp]))
    · exact .of_eq fun s ⟨hpart, hp⟩ => exec_wcnt_of_count ((State.winCount_cmp_of_mine (hid s) hpart).trans (by rw [hp]))
    · exact .of_eq fun s h => exec_wcnt_of_none (State.winCount_arr_of_none h)
    · exact .of_eq fun s h => exec_wcnt_of_none (State.winCount_of_other (hid s) h hsel)

end Sys2Proof.Machine
end

section
/-! Boot, images and the partition configuration (R383, R407 to R409). -/

namespace Sys2Proof.Machine

-- Reset.

theorem tget_filter_key (m : List Host.Cell) (p : Nat → Bool) (a : Nat) :
    mread (m.filter fun c => p c.1) a = if p a then mread m a else 0 := by
  induction m with
  | nil => rw [List.filter_nil]; split <;> rfl
  | cons c m ih =>
    rw [List.filter_cons]
    obtain ⟨b, v⟩ := c
    by_cases hb : p b = true
    · rw [if_pos hb]
      by_cases hab : b = a
      · subst hab
        rw [if_pos hb]
        simp [mread, tget]
      · simpa [mread, tget, hab] using ih
    · rw [if_neg hb, ih]
      by_cases hab : b = a
      · subst hab
        rw [if_neg hb, if_neg hb]
      · simp [mread, tget, hab]

theorem State.mread_hostMemory_of_other (s : State) {a : Nat} (h : paKind a ≠ .host) : mread s.hostMemory a = 0 := by
  rw [State.hostMemory, mread_writeCells_other]
  · rw [tget_filter_key s.mem (fun a => paKind a = .host), if_neg (by simp [h])]
  · intro c hc
    rw [List.mem_filter] at hc
    rintro rfl
    exact h (of_decide_eq_true hc.2)

theorem State.mread_hostMemory_of_host {s : State} (hown : ∀ v ∈ s.vers, v.src ≠ 2056) {a : Nat} (h : paKind a = .host) :
    mread s.hostMemory a = mread s.mem a := by
  have hnone : (s.vers.filter fun v => v.src = 2056) = [] := by
    rw [List.filter_eq_nil_iff]
    exact fun v hv => by simpa using hown v hv
  rw [State.hostMemory, hnone]
  exact (tget_filter_key s.mem (fun a => paKind a = .host) a).trans (if_pos (by simp [h]))

theorem overCxl_eq (i : Instr) : overCxl i = decide (i ∈ [.hostRead, .hostWrite, .hostFetchAdd, .registerWrite, .spdmRequest]) := by
  unfold overCxl
  split <;> simp_all

theorem overManagement_eq (i : Instr) : overManagement i = decide (i ∈ [.pldmRequest, .flashUpdate]) := by
  unfold overManagement
  split <;> simp_all

/-- What a device that has booted has kept and lost (R407). -/
def State.Booted (s t : State) : Prop :=
  t.keel = 0 ∧ t.ctxs = [] ∧ t.cells = [] ∧ t.spad = [] ∧ t.banks = [] ∧ t.vers = [] ∧ t.parts = [] ∧ t.chans = [] ∧ t.queues = [] ∧
  t.ports = [] ∧ t.windows = [] ∧ t.launches = [] ∧ t.slots = [] ∧ t.nparts = s.nparts ∧ t.qowner = s.qowner ∧
  t.outbox = s.outbox ++ (s.agenda.filter fun e => e.1 ∈ [.hostRead, .hostWrite, .hostFetchAdd, .registerWrite, .spdmRequest]).map
    (fun _ => .unsupported) ∧ t.agenda = s.agenda.filter (fun e => e.1 ∈ [.pldmRequest, .flashUpdate]) ∧
  t.fw.hashRoot = Config.sha512 (imageOf t.fw.rootFlash) ∧ t.fw.hashService = Config.sha512 (imageOf t.fw.serviceFlash) ∧
  t.fw.failure = imageFault s.fw.minVer t.fw.rootFlash ∧
  (∀ a, paKind a ≠ .host → mread t.mem a = 0) ∧ ((∀ v ∈ s.vers, v.src ≠ 2056) → ∀ a, paKind a = .host → mread t.mem a = mread s.mem a) ∧
  (t.fw.recovery = true ↔ imageOk s.fw.minVer t.fw.rootFlash = false) ∧
  (t.fw.service = true ↔ imageOk s.fw.minVer t.fw.serviceFlash = true) ∧ t.fw.minVer = s.fw.minVer ∧ t.fw.minSeen = s.fw.minVer ∧
  t.fw.cap = 2400

theorem State.booted_boot (s : State) (root service : List Byte) (stagedR stagedS : Option (List Byte)) :
    s.Booted (s.boot root service stagedR stagedS) := by
  have hcxl : (fun e : Instr × EvArg => overCxl e.1) =
      fun e => decide (e.1 ∈ [.hostRead, .hostWrite, .hostFetchAdd, .registerWrite, .spdmRequest]) := funext fun e => overCxl_eq e.1
  have hmanagement : (fun e : Instr × EvArg => overManagement e.1) = fun e => decide (e.1 ∈ [.pldmRequest, .flashUpdate]) :=
    funext fun e => overManagement_eq e.1
  have houtbox : (s.boot root service stagedR stagedS).outbox =
    s.outbox ++ (s.agenda.filter fun e => overCxl e.1).map fun _ => .unsupported := rfl
  have hagenda : (s.boot root service stagedR stagedS).agenda = s.agenda.filter fun e => overManagement e.1 := rfl
  rw [hcxl] at houtbox
  rw [hmanagement] at hagenda
  have hrecovery : (s.boot root service stagedR stagedS).fw.recovery = !(imageOk s.fw.minVer root) := rfl
  refine ⟨rfl, rfl, rfl, rfl, rfl, rfl, rfl, rfl, rfl, rfl, rfl, rfl, rfl, rfl, rfl, houtbox, hagenda, rfl, rfl, rfl,
    fun a h => s.mread_hostMemory_of_other h, fun hown a h => State.mread_hostMemory_of_host hown h, ?_, .rfl, rfl, rfl, rfl⟩
  rw [hrecovery, Bool.not_eq_true']
  rfl

-- Images.

/-- What an image file that passes its check holds (R409). -/
theorem imageOk_iff (min : Nat) (f : List Byte) : imageOk min f = true ↔
    trailerOk f = true ∧ Config.imageSigned (slice (trailerOf f) 0 80) (slice (trailerOf f) 80 512) = true ∧
    BitVec.ofNat 512 (fieldAt (trailerOf f) 16 64) = Config.sha512 (imageOf f) ∧ min ≤ fieldAt (trailerOf f) 4 4 := by
  rw [imageOk, imageFault]
  by_cases htrailer : trailerOk f = true
  · by_cases hsigned : Config.imageSigned (slice (trailerOf f) 0 80) (slice (trailerOf f) 80 512) = true
    · by_cases hhash : BitVec.ofNat 512 (fieldAt (trailerOf f) 16 64) = Config.sha512 (imageOf f)
      · by_cases hversion : fieldAt (trailerOf f) 4 4 < min
        · simp [htrailer, hsigned, hhash, hversion]
        · simp [htrailer, hsigned, hhash, hversion, Nat.not_lt.mp hversion]
      · simp [htrailer, hsigned, hhash]
    · simp [htrailer, hsigned]
  · simp [htrailer]

theorem trailerOk_iff (f : List Byte) : trailerOk f = true ↔ 1024 ≤ f.length ∧ fieldAt (trailerOf f) 0 4 = 0x57494658 ∧
    fieldAt (trailerOf f) 8 8 = f.length - 1024 ∧ ∀ b ∈ (trailerOf f).drop 592, b = 0 := by
  simp [trailerOk, and_assoc]

-- The partition configuration.

/-- The partitions that a change affects (R383). -/
theorem State.contains_affected (s : State) (n : Nat) (own : Nat → Nat) (p : Nat) : (s.affected n own).contains p = true ↔
    (n ≠ s.nparts ∧ p < s.nparts) ∨
      (n = s.nparts ∧ ∃ g, g < 64 ∧ own g ≠ s.partOfQueue (16 * g) ∧ (p = own g ∨ p = s.partOfQueue (16 * g))) := by
  have hgroup (g : Nat) : s.partOfQueue (16 * g) = tget 0 s.qowner g := by
    rw [State.partOfQueue, Nat.mul_div_cancel_left g (by omega)]
  rw [List.contains_iff_mem, State.affected]
  by_cases hn : n = s.nparts
  · rw [if_neg (not_not.mpr hn), List.mem_eraseDups, List.mem_flatMap]
    simp only [hn, ne_eq, not_true_eq_false, false_and, true_and, false_or, List.mem_range, hgroup]
    refine exists_congr fun g => and_congr_right fun _ => ?_
    split <;> simp_all
  · rw [if_pos hn]
    simp [hn]

theorem relay_of_inactive {s : State} (h : ∀ r ∈ s.relays, r.2.active = false) (e : Nat) : (s.relay e).active = false := by
  rw [State.relay]
  generalize s.relays = l at h
  induction l with
  | nil => rfl
  | cons r l ih =>
    rw [tget]
    split
    · exact h r List.mem_cons_self
    · exact ih fun r hr => h r (List.mem_cons_of_mem _ hr)

/-- Relay engines that are idle only lose their claim to have run. -/
theorem State.foldl_relayStop_of_inactive {s : State} (h : ∀ e, (s.relay e).active = false) (l : List Nat) :
    ∃ rs, l.foldl State.relayStop s = { s with relays := rs } := by
  induction l generalizing s with
  | nil => exact ⟨s.relays, rfl⟩
  | cons e l ih =>
    have hstop : s.relayStop e = s.modRelay e fun r => { r with ever := false } := by rw [State.relayStop, h e]; rfl
    obtain ⟨rs, hrs⟩ := ih (s := s.relayStop e) fun k => by
      rw [hstop, State.relay_modRelay]
      split
      · exact h e
      · exact h k
    exact ⟨rs, by rw [List.foldl_cons, hrs, hstop]; rfl⟩

/-- The owners of the queue groups, as the configuration stores them. -/
def ownerTable (own : Nat → Nat) (l : List Nat) : List (Nat × Nat) := l.filterMap fun g => if own g = 0 then none else some (g, own g)

theorem tget_ownerTable (own : Nat → Nat) (l : List Nat) (g : Nat) : tget 0 (ownerTable own l) g = if g ∈ l then own g else 0 := by
  induction l with
  | nil => rfl
  | cons k l ih =>
    rw [ownerTable] at ih
    rw [ownerTable, List.filterMap_cons]
    by_cases hk : own k = 0
    · rw [if_pos hk]
      by_cases hg : g = k
      · subst hg
        simp [ih, hk]
      · simp [ih, hg]
    · rw [if_neg hk]
      by_cases hg : g = k
      · simp [tget, hg]
      · simp [tget, ih, hg, Ne.symm hg]

theorem State.configure_of_idle {s : State} {n : Nat} {own : Nat → Nat}
    (hctxs : ∀ c ∈ s.ctxs, c.2.status = .free ∨ ¬ (s.affected n own).contains (s.partOfSrc c.1) = true)
    (hslots : ∀ k ∈ s.slots, ¬ (s.affected n own).contains k.part = true) (hrelays : ∀ r ∈ s.relays, r.2.active = false) :
    ∃ rs, s.configure n own = { s with
      nparts := n, qowner := ownerTable own (List.range 64), relays := rs, fw := { s.fw with cfgChanges := s.fw.cfgChanges + 1 } } := by
  have hidle : ((s.ctxs.all fun c => c.2.status = .free || !((s.affected n own).contains (s.partOfSrc c.1))) &&
      s.slots.all fun k => !((s.affected n own).contains k.part)) = true := by
    rw [Bool.and_eq_true, List.all_eq_true, List.all_eq_true]
    exact ⟨fun c hc => by simpa using hctxs c hc, fun k hk => by simpa using hslots k hk⟩
  obtain ⟨rs, hrs⟩ := State.foldl_relayStop_of_inactive (relay_of_inactive hrelays)
    ((s.relays.map (·.1)).filter fun e => (s.affected n own).contains (s.partOfStack e))
  refine ⟨rs, ?_⟩
  rw [State.configure]
  dsimp only
  rw [hidle, if_neg (by simp), hrs]
  rfl

theorem State.configure_of_busy {s : State} {n : Nat} {own : Nat → Nat}
    (h : ∃ c ∈ s.ctxs, c.2.status ≠ .free ∧ (s.affected n own).contains (s.partOfSrc c.1) = true) :
    s.configure n own = { s with outbox := s.outbox ++ [.unsupported] } := by
  obtain ⟨c, hc, hbusy, hhit⟩ := h
  have hnot : (s.ctxs.all fun c => c.2.status = .free || !((s.affected n own).contains (s.partOfSrc c.1))) = false := by
    rw [List.all_eq_false]
    exact ⟨c, hc, by rw [hhit]; simp [hbusy]⟩
  rw [State.configure]
  dsimp only
  rw [hnot, Bool.false_and, if_pos (by rfl)]
  rfl

/-- Service firmware's request that root firmware denies changes nothing (R408). -/
theorem State.throughMailbox_of_denied {s : State} (h : (s.fw.service && Config.mailboxGrants s.choices) = false) (k : State → State) :
    s.throughMailbox 2081 k = { s with choices := s.choices + 1 } := by
  rw [State.throughMailbox, if_pos rfl]
  dsimp only
  rw [h, if_neg Bool.false_ne_true]

/-- A request of root firmware, or one that it grants, is carried out. -/
theorem State.throughMailbox_of_granted {s : State} {src : Nat}
    (h : src = 2081 → (s.fw.service && Config.mailboxGrants s.choices) = true) (k : State → State) :
    ∃ c, s.throughMailbox src k = k { s with choices := c } := by
  rw [State.throughMailbox]
  by_cases hsrc : src = 2081
  · rw [if_pos hsrc]
    dsimp only
    rw [h hsrc]
    exact ⟨_, rfl⟩
  · rw [if_neg hsrc]
    exact ⟨s.choices, rfl⟩

theorem State.throughMailbox_of_root {s : State} {src : Nat} (h : src ≠ 2081) (k : State → State) : s.throughMailbox src k = k s :=
  if_neg h

/-- What PARTITION_CONFIGURE is asked for: the number of partitions and the owner of each queue group. -/
def EvArg.parts (a : EvArg) : Nat := 2 ^ (a.a % 4)
def EvArg.owner (a : EvArg) (g : Nat) : Nat := ((a.bytes[g]?).getD 0).toNat % a.parts

theorem exec_partitionConfigure {s : State} (h : s.fw.recovery = false) : exec .partitionConfigure s =
    .next (s.throughMailbox s.arg.c fun s' => s'.configure s.arg.parts s.arg.owner) := by
  have hrun : exec .partitionConfigure s = execPartitionConfigure s := rfl
  rw [hrun, execPartitionConfigure, h]
  rfl

end Sys2Proof.Machine
end

section
/-! Sensors, rates and the stop of every thread when a sensor or the coolant fails (R412). -/

namespace Sys2Proof.Machine

-- A column's RATE.

/-- The RATE that a setting of a column gives. -/
def State.setting (s : State) (col : Nat) : Nat := if s.tooHot then 0 else s.rateFor (s.hottest col) (tget 256 s.fw.wishes col)

theorem State.setRate_rest (s : State) (col r : Nat) : s.setRate col r = { s with cols := (s.setRate col r).cols } := by
  rw [State.setRate]
  split
  · rfl
  · rfl

theorem State.col_setRate_other (s : State) {col k : Nat} (h : k ≠ col) (r : Nat) : (s.setRate col r).col k = s.col k := by
  rw [State.setRate]
  split
  · rfl
  · rw [State.col_modCol, if_neg (Ne.symm h)]

/-- A RATE that is set anew keeps the tokens gained so far (R355). -/
theorem State.col_setRate (s : State) (col r : Nat) : ((s.setRate col r).col col).rate = r ∧
    (((s.setRate col r).col col).rate ≠ (s.col col).rate → ((s.setRate col r).col col).at_ = s.keel ∧
      ((s.setRate col r).col col).tok = min (2 ^ 20) ((s.col col).tok + (s.col col).rate * (s.keel - (s.col col).at_))) := by
  rw [State.setRate]
  split
  · next h => exact ⟨h, fun hne => absurd rfl hne⟩
  · rw [State.col_modCol, if_pos rfl]
    exact ⟨rfl, fun _ => ⟨rfl, rfl⟩⟩

theorem State.setColumn_rest (s : State) (col : Nat) : s.setColumn col = { s with cols := (s.setColumn col).cols } := s.setRate_rest ..

theorem State.setting_of_fw {s t : State} (h : t.fw = s.fw) (k : Nat) : t.setting k = s.setting k := by
  rw [State.setting, State.setting, State.tooHot, State.tooHot, State.rateFor, State.rateFor, State.hottest, State.hottest, h]

/-- Settings of some columns: each of them gets its RATE, and nothing but the columns changes. -/
theorem State.foldl_setColumn (s : State) (l : List Nat) :
    l.foldl State.setColumn s = { s with cols := (l.foldl State.setColumn s).cols } ∧
    ∀ k, (k ∈ l ∨ (s.col k).rate = s.setting k) → ((l.foldl State.setColumn s).col k).rate = s.setting k := by
  induction l generalizing s with
  | nil => exact ⟨rfl, fun k h => h.resolve_left List.not_mem_nil⟩
  | cons c l ih =>
    have hrest := s.setColumn_rest c
    have hfw : (s.setColumn c).fw = s.fw := by rw [hrest]
    obtain ⟨hall, hrates⟩ := ih (s.setColumn c)
    refine ⟨by rw [List.foldl_cons, hall, hrest], fun k hk => ?_⟩
    rw [← State.setting_of_fw hfw k]
    refine hrates k ?_
    rw [State.setting_of_fw hfw k]
    by_cases hkc : k = c
    · exact .inr (hkc ▸ (s.col_setRate c (s.setting c)).1)
    · rcases hk with hk | hk
      · exact .inl ((List.mem_cons.mp hk).resolve_left hkc)
      · exact .inr (by rw [State.setColumn, State.col_setRate_other s hkc]; exact hk)

-- Sensors.

/-- A column's four die sensors, as a list of four readings leaves them. -/
def tempsOf (m : List (Nat × Nat)) (col : Nat) (a b c d : Byte) : List (Nat × Nat) :=
  tput (tput (tput (tput m (4 * col) a.toNat) (4 * col + 1) b.toNat) (4 * col + 2) c.toNat) (4 * col + 3) d.toNat

theorem State.temps_readTemps (s : State) (col : Nat) (a b c d : Byte) :
    (s.readTemps col [a, b, c, d]).fw.temps = tempsOf s.fw.temps col a b c d := rfl

theorem State.readTemps_rest (s : State) (col : Nat) (l : List Byte) :
    s.readTemps col l = { s with fw := { s.fw with temps := (s.readTemps col l).fw.temps } } := rfl

theorem length_eq_four {l : List Byte} (h : l.length = 4) : ∃ a b c d, l = [a, b, c, d] := by
  match l, h with
  | [a, b, c, d], _ => exact ⟨a, b, c, d, rfl⟩

theorem tget_tempsOf (m : List (Nat × Nat)) (col : Nat) (a b c d : Byte) :
    (∀ i x, [a, b, c, d][i]? = some x → tget 0 (tempsOf m col a b c d) (4 * col + i) = x.toNat) ∧
    ∀ k, k / 4 ≠ col → tget 0 (tempsOf m col a b c d) k = tget 0 m k := by
  refine ⟨fun i x hx => ?_, fun k hk => ?_⟩
  · match i, hx with
    | 0, hx => cases hx; simp [tempsOf]
    | 1, hx => cases hx; simp [tempsOf]
    | 2, hx => cases hx; simp [tempsOf]
    | 3, hx => cases hx; simp [tempsOf]
  · simp only [tempsOf, tget_tput]
    rw [if_neg (by omega), if_neg (by omega), if_neg (by omega), if_neg (by omega)]

theorem State.hottest_eq (s : State) (col : Nat) : s.hottest col =
    max (max (max (max 0 (tget 0 s.fw.temps (4 * col))) (tget 0 s.fw.temps (4 * col + 1))) (tget 0 s.fw.temps (4 * col + 2)))
      (tget 0 s.fw.temps (4 * col + 3)) := rfl

/-- The hottest of four readings. -/
theorem State.hottest_of_tempsOf {s : State} {m : List (Nat × Nat)} {col : Nat} {a b c d : Byte} (h : s.fw.temps = tempsOf m col a b c d) :
    s.hottest col = ([a, b, c, d].map (·.toNat)).foldl max 0 := by
  have hget := (tget_tempsOf m col a b c d).1
  rw [State.hottest_eq, h, hget 1 b rfl, hget 2 c rfl, hget 3 d rfl, show tget 0 (tempsOf m col a b c d) (4 * col) = a.toNat from hget 0 a rfl]
  rfl

theorem any_of_tget {m : List (Nat × Nat)} {k n : Nat} (h : n < tget 0 m k) : m.any (fun p => decide (n < p.2)) = true := by
  induction m with
  | nil => exact absurd h (Nat.not_lt_zero n)
  | cons e m ih =>
    obtain ⟨a, v⟩ := e
    rw [tget] at h
    rw [List.any_cons]
    split at h
    · simp [h]
    · simp [ih h]

/-- A reading past 110 degrees stops every column. -/
theorem State.tooHot_of_hottest {s : State} {col : Nat} (h : 110 < s.hottest col) : s.tooHot = true := by
  have hany : s.fw.temps.any (fun p => decide (110 < p.2)) = true := by
    rw [State.hottest_eq] at h
    simp only [lt_max_iff, Nat.not_lt_zero, false_or] at h
    rcases h with ((h | h) | h) | h <;> exact any_of_tget h
  rw [State.tooHot, hany, Bool.or_true]

-- The stop.

/-- Threads have been stopped: a context's status and loops are as before, or it is halted; memory, the columns and firmware are
as before. -/
structure Halts (s t : State) : Prop where
  memories : t.memories = s.memories
  cols : t.cols = s.cols
  fw : t.fw = s.fw
  ctx : ∀ n, ((t.ctx n).status = (s.ctx n).status ∧ (t.ctx n).loops = (s.ctx n).loops) ∨ (t.ctx n).status = .halted

theorem Halts.refl (s : State) : Halts s s := ⟨rfl, rfl, rfl, fun _ => .inl ⟨rfl, rfl⟩⟩

theorem Halts.trans {s t u : State} (h : Halts s t) (k : Halts t u) : Halts s u where
  memories := k.memories.trans h.memories
  cols := k.cols.trans h.cols
  fw := k.fw.trans h.fw
  ctx n := by
    rcases k.ctx n with ⟨hstatus, hloops⟩ | hhalted
    · rcases h.ctx n with ⟨hstatus', hloops'⟩ | hhalted
      · exact .inl ⟨hstatus.trans hstatus', hloops.trans hloops'⟩
      · exact .inr (hstatus.trans hhalted)
    · exact .inr hhalted

theorem Halts.halted {s t : State} (h : Halts s t) {n : Nat} (hn : (s.ctx n).status = .halted) : (t.ctx n).status = .halted :=
  (h.ctx n).elim (fun h => h.1.trans hn) id

theorem Halts.stopWaits (s : State) (src : Nat) : Halts s (s.stopWaits src) := by
  obtain ⟨u, hu, h⟩ := s.stopWaits_eq src
  refine ⟨State.stopWaits_memories .., ?_, ?_, fun n => .inl ?_⟩
  · rw [h]; show u.cols = s.cols; rw [hu.rest]
  · rw [h]; show u.fw = s.fw; rw [hu.rest]
  · rw [State.ctx_stopWaits]
    split
    · next hn => subst hn; exact ⟨rfl, rfl⟩
    · exact ⟨rfl, rfl⟩

theorem Halts.foldl_stopWaits (p : Nat → Bool) (ms : List Nat) (s : State) :
    Halts s (ms.foldl (fun u m => if p m then u.stopWaits m else u) s) := by
  induction ms generalizing s with
  | nil => exact .refl s
  | cons m ms ih =>
    rw [List.foldl_cons]
    refine Halts.trans ?_ (ih _)
    split
    · exact .stopWaits s m
    · exact .refl s

theorem Halts.freezeStr (s : State) (src : Nat) : Halts s (s.freezeStr src) := by
  rw [State.freezeStr_eq]
  have hmark : Halts s (s.markFrozen src) := ⟨rfl, rfl, rfl, fun _ => .inl ⟨rfl, rfl⟩⟩
  exact hmark.trans (.foldl_stopWaits (fun m => (s.markFrozen src).strFrozen m && !(s.strFrozen m)) _ _)

theorem Halts.traceStop (s : State) (src cause : Nat) (pc : Word) : Halts s (s.traceStop src cause pc) := by
  have h := s.traceStop_traced src cause pc
  refine ⟨State.traceStop_memories .., ?_, ?_, fun n => .inl ?_⟩
  · rw [h]
  · rw [h]
  · rw [h.ctx]; exact ⟨rfl, rfl⟩

/-- A halt halts the thread where it stands at no loop iteration to be ended first (R402). -/
theorem Halts.haltCtx (s : State) (src : Nat) (h : (s.ctx src).status = .run ∨ (s.ctx src).status = .sleeping) :
    Halts s (s.haltCtx src) ∧ ((s.haltCtx src).ctx src).status = .halted := by
  have hctx (f : Ctx → Ctx) (hf : ∀ c, (f c).status = .halted) (pc : Word) :
      Halts s ((((s.stopWaits src).modCtx src f).freezeStr src).traceStop src 0 pc) ∧
      (((((s.stopWaits src).modCtx src f).freezeStr src).traceStop src 0 pc).ctx src).status = .halted := by
    have hmod : Halts s ((s.stopWaits src).modCtx src f) := by
      refine (Halts.stopWaits s src).trans ⟨State.modCtx_memories .., rfl, rfl, fun n => ?_⟩
      rw [State.ctx_modCtx]
      split
      · exact .inr (hf _)
      · exact .inl ⟨rfl, rfl⟩
    have hself : (((s.stopWaits src).modCtx src f).ctx src).status = .halted := by
      rw [State.ctx_modCtx, if_pos rfl]
      exact hf _
    have hrest := (Halts.freezeStr ((s.stopWaits src).modCtx src f) src).trans (.traceStop _ src 0 pc)
    exact ⟨hmod.trans hrest, hrest.halted hself⟩
  rw [State.haltCtx]
  dsimp only
  rcases h with h | h
  · rw [h]
    exact hctx _ (fun _ => rfl) _
  · rw [h]
    exact hctx _ (fun _ => rfl) _

/-- A halt reaches a running thread at once, unless it is inside a `LOOPP` body (R402). -/
theorem Halts.halt (s : State) (src : Nat) : Halts s (s.halt src) ∧
    ((s.ctx src).status = .run → (s.ctx src).inLoopp = false → ((s.halt src).ctx src).status = .halted) := by
  rw [State.halt]
  by_cases hidle : (s.ctx src).status ≠ .run && (s.ctx src).status ≠ .sleeping
  · rw [if_pos hidle]
    exact ⟨.refl s, fun hrun => by simp [hrun] at hidle⟩
  · rw [if_neg hidle]
    by_cases hloop : (s.ctx src).inLoopp = true
    · rw [if_pos hloop]
      refine ⟨⟨State.modCtx_memories .., rfl, rfl, fun n => .inl ?_⟩, fun _ h => absurd (hloop.symm.trans h) (by simp)⟩
      rw [State.ctx_modCtx]
      split
      · next hn => subst hn; exact ⟨rfl, rfl⟩
      · exact ⟨rfl, rfl⟩
    · rw [if_neg hloop]
      obtain ⟨hhalts, hhalted⟩ := Halts.haltCtx s src (by simpa [or_iff_not_imp_left] using hidle)
      exact ⟨hhalts, fun _ _ => hhalted⟩

theorem Halts.foldl_halt (l : List Nat) (s : State) : Halts s (l.foldl (fun s src => s.halt src) s) ∧
    ∀ n, (s.ctx n).status = .halted ∨ n ∈ l ∧ (s.ctx n).status = .run ∧ (s.ctx n).inLoopp = false →
      ((l.foldl (fun s src => s.halt src) s).ctx n).status = .halted := by
  induction l generalizing s with
  | nil => exact ⟨.refl s, fun n h => h.resolve_right fun h => List.not_mem_nil h.1⟩
  | cons src l ih =>
    obtain ⟨hhalts, hself⟩ := Halts.halt s src
    obtain ⟨hrest, hall⟩ := ih (s.halt src)
    refine ⟨hhalts.trans hrest, fun n hn => hall n ?_⟩
    rcases hn with hn | ⟨hmem, hrun, hloop⟩
    · exact .inl (hhalts.halted hn)
    · rcases hhalts.ctx n with ⟨hstatus, hloops⟩ | hn
      · by_cases hsrc : n = src
        · exact .inl (by rw [hsrc] at hrun hloop ⊢; exact hself hrun hloop)
        · refine .inr ⟨(List.mem_cons.mp hmem).resolve_left hsrc, hstatus.trans hrun, ?_⟩
          rwa [Ctx.inLoopp, hloops]
      · exact .inl hn

-- RATE_UPDATE.

/-- A setting of root firmware before any RATE is set: the sensors read, the wish and the coolant noted. -/
def State.rateWished (s : State) : State :=
  let t := (s.readTemps (s.arg.a % 64) s.arg.bytes).setWish (s.arg.a % 64) s.arg.b
  { t with fw := { t.fw with coolantLost := s.arg.flg } }

/-- The stop is logged, and every thread halted. -/
def State.stopLogged (s : State) : State :=
  (s.ctxs.map (·.1)).foldl (fun s src => s.halt src) { s with fw := { s.fw with log := s.fw.log ++ [(s.keel, 412)] } }
/-- The stop, with RATE 0 in every column. -/
def State.rateStopped (s : State) : State := ((List.range 64).foldl State.setColumn s).stopLogged

theorem exec_rateUpdate_of_request {s : State} (hroot : s.fw.recovery = false) (h : s.arg.c = 2081) : exec .rateUpdate s =
    .next (s.throughMailbox 2081 fun t => (t.setWish (s.arg.a % 64) t.arg.b).setColumn (s.arg.a % 64)) := by
  have hrun : exec .rateUpdate s = execRateUpdate s := rfl
  rw [hrun, execRateUpdate, hroot, h]
  rfl

theorem exec_rateUpdate_of_root {s : State} (hroot : s.fw.recovery = false) (h : s.arg.c ≠ 2081) : exec .rateUpdate s =
    if s.arg.flg || 110 < s.rateWished.hottest (s.arg.a % 64) then .next s.rateWished.rateStopped
    else .next (s.rateWished.setColumn (s.arg.a % 64)) := by
  have hrun : exec .rateUpdate s = execRateUpdate s := rfl
  rw [hrun, execRateUpdate]
  extract_lets readings fw u v fw' logged
  rw [hroot, if_neg (by simp), if_neg h]
  have hu : u = s.rateWished := rfl
  have hv : v = (List.range 64).foldl State.setColumn s.rateWished := rfl
  have hflg : u.arg.flg = s.arg.flg := rfl
  clear_value u v
  have hlogged : (logged.ctxs.map (·.1)).foldl (fun s src => s.halt src) logged = v.stopLogged := rfl
  rw [hlogged, hflg, hu, hv, State.rateStopped]

/-- After the stop every column stands, the log has its entry, and every running thread is halted unless it ends a loop iteration first. -/
theorem State.rateStopped_spec {s : State} (h : s.tooHot = true) :
    let t := s.rateStopped
    t.mem = s.mem ∧ t.spad = s.spad ∧ (∀ k, k < 64 → (t.col k).rate = 0) ∧ t.fw = { s.fw with log := s.fw.log ++ [(s.keel, 412)] } ∧
      ∀ n ∈ s.ctxs.map (·.1), (s.ctx n).status = .run → (s.ctx n).inLoopp = false → (t.ctx n).status = .halted := by
  intro t
  obtain ⟨hrest, hrates⟩ := s.foldl_setColumn (List.range 64)
  generalize hu : (List.range 64).foldl State.setColumn s = u at hrest hrates
  have ht : t = u.stopLogged := by rw [← hu]; rfl
  clear_value t
  rw [State.stopLogged] at ht
  obtain ⟨⟨hmemories, hcols, hfw, -⟩, hhalted⟩ := Halts.foldl_halt (u.ctxs.map (·.1))
    { u with fw := { u.fw with log := u.fw.log ++ [(u.keel, 412)] } }
  rw [← ht] at hmemories hcols hfw hhalted
  have hmem : t.memories = s.memories := by rw [hmemories, hrest]; rfl
  have hctxs : u.ctxs = s.ctxs := by rw [hrest]
  refine ⟨congrArg Prod.fst hmem, congrArg (·.2.1) hmem, fun k hk => ?_, ?_, fun n hn hrun hloop => hhalted n (.inr ⟨?_, ?_, ?_⟩)⟩
  · have hcol : t.col k = u.col k := by rw [State.col, hcols]; rfl
    rw [hcol, hrates k (.inl (List.mem_range.mpr hk)), State.setting, h]
    rfl
  · rw [hfw, hrest]
  · rwa [hctxs]
  · rw [hrest]; exact hrun
  · rw [hrest]; exact hloop

end Sys2Proof.Machine
end

section
/-! Measurements, management, flash and soft errors, and all of bring-up together (R333, R383, R407 to R413). -/

namespace Sys2Proof.Machine

-- A setting of root firmware.

theorem State.hottest_rateWished {s : State} (h : s.arg.bytes.length = 4) :
    s.rateWished.hottest (s.arg.a % 64) = (s.arg.bytes.map (·.toNat)).foldl max 0 := by
  obtain ⟨a, b, c, d, hbytes⟩ := length_eq_four h
  rw [hbytes]
  refine State.hottest_of_tempsOf (m := s.fw.temps) ?_
  rw [← State.temps_readTemps, ← hbytes]
  rfl

theorem State.rateWished_rest (s : State) : s.rateWished = { s with fw := { s.fw with
    temps := (s.readTemps (s.arg.a % 64) s.arg.bytes).fw.temps, wishes := tput s.fw.wishes (s.arg.a % 64) s.arg.b
    coolantLost := s.arg.flg } } := rfl

theorem State.wish_rateWished (s : State) : tget 256 s.rateWished.fw.wishes (s.arg.a % 64) = s.arg.b := tget_tput_self ..

theorem State.tget_readTemps {s : State} (h : s.arg.bytes.length = 4) (col : Nat) :
    (∀ i b, s.arg.bytes[i]? = some b → tget 0 (s.readTemps col s.arg.bytes).fw.temps (4 * col + i) = b.toNat) ∧
    ∀ k, k / 4 ≠ col → tget 0 (s.readTemps col s.arg.bytes).fw.temps k = tget 0 s.fw.temps k := by
  obtain ⟨a, b, c, d, hbytes⟩ := length_eq_four h
  rw [hbytes, State.temps_readTemps]
  exact tget_tempsOf ..

theorem State.tooHot_rateWished {s : State} (h : s.arg.flg = false) :
    s.rateWished.tooHot = (s.readTemps (s.arg.a % 64) s.arg.bytes).fw.temps.any fun p => decide (110 < p.2) := by
  have hlost : s.rateWished.fw.coolantLost = false := h
  rw [State.tooHot, hlost, Bool.false_or]
  rfl

theorem State.hottest_eq_max (s : State) (k : Nat) : s.hottest k =
    max (max (tget 0 s.fw.temps (4 * k)) (tget 0 s.fw.temps (4 * k + 1)))
      (max (tget 0 s.fw.temps (4 * k + 2)) (tget 0 s.fw.temps (4 * k + 3))) := by
  rw [State.hottest_eq, Nat.zero_max, max_assoc]

theorem State.rate_rateTick {s : State} (hroot : s.fw.recovery = false) (hdue : s.keel % 10000 = 0) {k : Nat} (hk : k < 64) :
    (s.rateTick.col k).rate = s.setting k := by
  rw [State.rateTick, if_pos (by simp [hroot, hdue])]
  exact (s.foldl_setColumn (List.range 64)).2 k (.inl (List.mem_range.mpr hk))

theorem State.rateWished_withFw (s : State) : s.rateWished = { s with fw := s.rateWished.fw } := rfl

/-- A setting of one column, of a state with other firmware values. -/
theorem State.setColumn_withFw (s : State) (f : Firmware) (col : Nat) :
    let w : State := { s with fw := f }
    let t := w.setColumn col
    t = { s with cols := t.cols, fw := f } ∧ t.fw = f ∧ (t.col col).rate = w.setting col ∧
      ((t.col col).rate ≠ (s.col col).rate → (t.col col).at_ = s.keel ∧
        (t.col col).tok = min (2 ^ 20) ((s.col col).tok + (s.col col).rate * (s.keel - (s.col col).at_))) ∧
      ∀ k, k ≠ col → t.col k = s.col k := by
  intro w t
  have hrest : t = { w with cols := t.cols } := w.setColumn_rest col
  obtain ⟨hrate, htokens⟩ := w.col_setRate col (w.setting col)
  exact ⟨hrest, by rw [hrest], hrate, htokens, fun k hk => w.col_setRate_other hk _⟩

/-- The stop, of a state with other firmware values. -/
theorem State.rateStopped_withFw {s : State} {f : Firmware} (h : ({ s with fw := f } : State).tooHot = true) :
    let t := ({ s with fw := f } : State).rateStopped
    t.mem = s.mem ∧ t.spad = s.spad ∧ (∀ k, k < 64 → (t.col k).rate = 0) ∧ t.fw = { f with log := f.log ++ [(s.keel, 412)] } ∧
      ∀ n ∈ s.ctxs.map (·.1), (s.ctx n).status = .run → (s.ctx n).inLoopp = false → (t.ctx n).status = .halted :=
  State.rateStopped_spec h

/-- The setting of a column that is not to stop: its RATE, bounded by its sensors and the cap, and no other column's. -/
theorem State.rateWished_setColumn_spec (s : State) (hflg : s.arg.flg = false) {hot : Nat} (hhot : s.rateWished.hottest (s.arg.a % 64) = hot) :
    let col := s.arg.a % 64
    let t := s.rateWished.setColumn col
    let now := (s.readTemps col s.arg.bytes).fw.temps
    let r := min s.arg.b (rateBound hot)
    t = { s with cols := t.cols, fw := t.fw } ∧
      t.fw = { s.fw with temps := now, wishes := t.fw.wishes, coolantLost := false } ∧ tget 256 t.fw.wishes col = s.arg.b ∧
      (t.col col).rate = (if now.any (fun p => 110 < p.2) then 0 else if s.fw.cap < s.fw.power then r * s.fw.cap / s.fw.power else r) ∧
      ((t.col col).rate ≠ (s.col col).rate → (t.col col).at_ = s.keel ∧
        (t.col col).tok = min (2 ^ 20) ((s.col col).tok + (s.col col).rate * (s.keel - (s.col col).at_))) ∧
      ∀ k, k ≠ col → t.col k = s.col k := by
  intro col t now r
  obtain ⟨hrest, hfw, hrate, htokens, hothers⟩ := s.setColumn_withFw s.rateWished.fw col
  have hwished : s.rateWished.fw = { s.fw with temps := now, wishes := tput s.fw.wishes col s.arg.b, coolantLost := false } := by
    rw [← hflg]
    rfl
  have hsetting : s.rateWished.setting col = if now.any (fun p => 110 < p.2) then 0 else s.rateWished.rateFor hot s.arg.b := by
    rw [State.setting, State.tooHot_rateWished hflg, hhot, s.wish_rateWished]
  rw [← s.rateWished_withFw] at hrest hfw hrate htokens hothers
  have ht : s.rateWished.setColumn col = t := rfl
  rw [ht] at hrest hfw hrate htokens hothers
  clear_value t
  refine ⟨hrest.trans (by rw [hfw]), ?_, ?_, hrate.trans (hsetting.trans ?_), htokens, hothers⟩
  · rw [hfw, hwished]
  · rw [hfw]
    exact s.wish_rateWished
  · rfl

-- Management.

theorem exec_spdmRequest (s : State) : exec .spdmRequest s = if s.fw.recovery then .next (s.emit .unsupported)
    else .next (s.emit (.report (s.measurements ++ s.arg.bytes ++ Config.attestSign (s.measurements ++ s.arg.bytes)))) := rfl

theorem exec_pldmRequest_of_recovery {s : State} (h : s.fw.recovery = true) : exec .pldmRequest s = .next (s.emit .unsupported) := by
  have hrun : exec .pldmRequest s = execPldmRequest s := rfl
  rw [hrun, execPldmRequest, if_pos h]

theorem exec_pldmRequest_of_raise {s : State} (h : s.fw.recovery = false) {v : BitVec 32} {sig : List Byte}
    (hreq : s.arg.pldm = some (.raiseMinimum v sig)) : exec .pldmRequest s = .next (s.raiseMinimum v.toNat sig) := by
  have hrun : exec .pldmRequest s = execPldmRequest s := rfl
  rw [hrun, execPldmRequest, h, hreq]
  rfl

theorem exec_pldmRequest_of_noService {s : State} (h : s.fw.service = false) (hreq : ∀ v sig, s.arg.pldm ≠ some (.raiseMinimum v sig)) :
    exec .pldmRequest s = .next (s.emit .unsupported) := by
  have hrun : exec .pldmRequest s = execPldmRequest s := rfl
  rw [hrun, execPldmRequest]
  split
  · rfl
  · split
    · next v sig hraise => exact absurd hraise (hreq v sig)
    · rw [h]
      rfl

/-- Service firmware's answer to a request of its own (R413). -/
def State.serviceAnswer (s : State) : PldmReq → State
  | .readSensor i => s.emit (.value (tget 0 s.fw.temps i.toNat))
  | .readPower => s.emit (.value s.fw.power)
  | .readCap => s.emit (.value s.fw.cap)
  | .setCap w => if 600 ≤ w && w ≤ 2400 then { s with fw := { s.fw with cap := w } } else s.emit .unsupported
  | .readErrors => s.emit (.report (s.fw.log.flatMap fun e => leBytes 8 e.1 ++ leBytes 8 e.2))
  | .raiseMinimum v sig => s.raiseMinimum v.toNat sig

theorem exec_pldmRequest_of_service {s : State} (hroot : s.fw.recovery = false) (hservice : s.fw.service = true) {r : PldmReq}
    (hreq : s.arg.pldm = some r) : exec .pldmRequest s = .next (s.serviceAnswer r) := by
  have hrun : exec .pldmRequest s = execPldmRequest s := rfl
  rw [hrun, execPldmRequest, hroot, hreq]
  cases r with
  | setCap w =>
    rw [hservice, State.serviceAnswer]
    by_cases hw : (600 ≤ w && w ≤ 2400) = true
    · rw [if_pos hw]
      exact if_pos hw
    · rw [if_neg hw]
      exact if_neg hw
  | readSensor | readPower | readCap | readErrors => rw [hservice]; rfl
  | raiseMinimum => rfl

-- Flash.

theorem exec_flashUpdate_of_root {s : State} (h : s.fw.recovery = true ∨ s.fw.service = true) : exec .flashUpdate s = .next (
    if imageOk s.fw.minVer s.arg.bytes then
      if s.arg.flg then { s with fw := { s.fw with stagedService := some s.arg.bytes } }
      else { s with fw := { s.fw with stagedRoot := some s.arg.bytes } }
    else { s with outbox := s.outbox ++ [.unsupported] }) := by
  have hrun : exec .flashUpdate s = execFlashUpdate s := rfl
  rw [hrun, execFlashUpdate, if_neg (by rcases h with h | h <;> simp [h])]
  cases himage : imageOk s.fw.minVer s.arg.bytes with
  | false => rfl
  | true =>
    cases hflg : s.arg.flg with
    | false => rfl
    | true => rfl

theorem exec_flashUpdate_of_neither {s : State} (hroot : s.fw.recovery = false) (hservice : s.fw.service = false) :
    exec .flashUpdate s = .next (s.emit .unsupported) := by
  have hrun : exec .flashUpdate s = execFlashUpdate s := rfl
  rw [hrun, execFlashUpdate, if_pos (by simp [hroot, hservice])]

-- Soft errors.

theorem exec_softError_of_spad {s : State} {c g : Nat} (h : s.arg.err = some (.spad c g)) :
    exec .softError s = .next (if s.arg.flg then { s with psnSpad := spadKey c (32 * g) / 32 :: s.psnSpad } else s.countCorrected c) := by
  have hrun : exec .softError s = execSoftError s := rfl
  rw [hrun, execSoftError, h]
  rfl

theorem exec_softError_of_mem {s : State} {g : Nat} (h : s.arg.err = some (.mem g)) (hflg : s.arg.flg = true) :
    exec .softError s = .next { s with psnMem := g :: s.psnMem } := by
  have hrun : exec .softError s = execSoftError s := rfl
  rw [hrun, execSoftError, h]
  exact congrArg Host.Outcome.next (if_pos hflg)

/-- A publication whose granule fails is poisoned there (R333). -/
def Ver.poisonedAt (n g : Nat) (v : Ver) : Ver := if v.seq = n && v.cells.any fun c => c.1 / 32 = g then { v with psn := g :: v.psn } else v

theorem exec_softError_of_pub {s : State} {n g : Nat} (h : s.arg.err = some (.pub n g)) (hflg : s.arg.flg = true) :
    exec .softError s = .next { s with vers := s.vers.map (Ver.poisonedAt n g) } := by
  have hrun : exec .softError s = execSoftError s := rfl
  rw [hrun, execSoftError, h]
  exact congrArg Host.Outcome.next (if_pos hflg)

theorem Ver.mem_psn_poisonedAt {n g : Nat} {v : Ver} (hseq : (v.poisonedAt n g).seq = n) (hcell : ∃ e ∈ (v.poisonedAt n g).cells, e.1 / 32 = g) :
    g ∈ (v.poisonedAt n g).psn := by
  rw [Ver.poisonedAt] at hseq hcell ⊢
  by_cases hhit : (v.seq = n && v.cells.any fun c => c.1 / 32 = g) = true
  · rw [if_pos hhit]
    exact List.mem_cons_self
  · rw [if_neg hhit] at hseq hcell
    exact absurd (by simpa [hseq] using hcell) hhit

theorem State.cell_countCorrected (s : State) (c : Nat) : (s.countCorrected c).cell c = { s.cell c with
    corrected := if (s.cell c).corrected = BitVec.allOnes 64 then BitVec.allOnes 64 else (s.cell c).corrected + 1 } := by
  have hcount : (if (s.cell c).corrected = allOnes then (s.cell c).corrected else (s.cell c).corrected + 1) =
      if (s.cell c).corrected = BitVec.allOnes 64 then BitVec.allOnes 64 else (s.cell c).corrected + 1 := by
    split
    · next h => exact h.trans (if_pos h).symm
    · next h => exact (if_neg h).symm
  rw [State.countCorrected, State.cell_modCell, if_pos rfl, ← hcount]

theorem State.cell_countCorrected_other (s : State) {c k : Nat} (h : k ≠ c) : (s.countCorrected c).cell k = s.cell k := by
  rw [State.countCorrected, State.cell_modCell, if_neg (Ne.symm h)]

theorem State.spadPoisoned_cons (s : State) (c g : Nat) (l : List Nat) :
    ({ s with psnSpad := spadKey c (32 * g) / 32 :: l } : State).spadPoisoned c (32 * g) 32 = true := by
  have hkey : 32 * (spadKey c (32 * g) / 32) = spadKey c (32 * g) := by rw [spadKey]; omega
  rw [State.spadPoisoned, List.any_cons, Bool.or_eq_true]
  refine .inl ?_
  simp only [Bool.and_eq_true, decide_eq_true_eq]
  omega

/-- Settles O54, clause by clause: the boot, the image's check, the partition configuration where it is idle and where it is not, a
setting of root firmware with its two outcomes, and the requests of management. -/
theorem firmwareActions : Obligations.FirmwareActions := by
  unfold Obligations.FirmwareActions
  intro booted emits
  refine ⟨fun s => ⟨_, rfl, s.booted_boot .., rfl, rfl, rfl, rfl⟩, fun s => ⟨_, rfl, s.booted_boot .., rfl, rfl, rfl, rfl⟩, fun min f => ?image,
    fun s hroot hservice hdenied => ⟨?denied, ?deniedRate⟩, ?configured, ?rate, ?tick, ?power, ?spdm, ?pldm, ?flash, ?softError⟩
  case image =>
    rw [imageOk_iff, trailerOk_iff]
    simp only [and_assoc]
    rfl
  case denied => rw [exec_partitionConfigure hroot, hservice, State.throughMailbox_of_denied hdenied]
  case deniedRate => rw [exec_rateUpdate_of_request hroot hservice, State.throughMailbox_of_denied hdenied]
  case configured =>
    intro s n own hit asks hroot
    have hhit (p : Nat) : (s.affected n own).contains p = true ↔ hit p := s.contains_affected n own p
    refine ⟨fun hasks hctxs hslots hrelays => ?_, fun hother hbusy => ?_⟩
    · obtain ⟨c, hrun⟩ := State.throughMailbox_of_granted hasks fun s' => s'.configure s.arg.parts s.arg.owner
      obtain ⟨rs, hconfigure⟩ := State.configure_of_idle (s := { s with choices := c }) (n := n) (own := own)
        (fun x hx => (hctxs x hx).imp_right (mt (hhit _).mp)) (fun k hk => mt (hhit _).mp (hslots k hk)) hrelays
      refine ⟨_, (exec_partitionConfigure hroot).trans (congrArg Host.Outcome.next (hrun.trans hconfigure)), rfl, rfl, fun q hq => ?_⟩
      exact (tget_ownerTable ..).trans (if_pos (List.mem_range.mpr (by omega)))
    · obtain ⟨x, hx, hstatus, hpart⟩ := hbusy
      show exec .partitionConfigure s = _
      rw [exec_partitionConfigure hroot, State.throughMailbox_of_root hother]
      exact congrArg Host.Outcome.next (State.configure_of_busy ⟨x, hx, hstatus, (hhit _).mpr hpart⟩)
  case rate =>
    intro s col hot bound r now hroot hother hlength
    obtain ⟨hsensors, hrest⟩ := State.tget_readTemps hlength col
    have hhot : s.rateWished.hottest col = hot := State.hottest_rateWished hlength
    have hrun := exec_rateUpdate_of_root hroot hother
    refine ⟨hsensors, hrest, fun hcool hflg => ?_, fun hstop => ?_⟩
    · have hgo : (s.arg.flg || decide (110 < s.rateWished.hottest col)) = false := by simp [hflg, hhot, hcool]
      exact ⟨_, hrun.trans (if_neg (by rw [hgo]; exact Bool.false_ne_true)), s.rateWished_setColumn_spec hflg hhot⟩
    · have hhalt : (s.arg.flg || decide (110 < s.rateWished.hottest col)) = true := by
        rw [hhot, Bool.or_eq_true, decide_eq_true_iff]
        exact hstop.symm
      have htooHot : s.rateWished.tooHot = true := by
        rcases hstop with h | h
        · exact State.tooHot_of_hottest (hhot.symm ▸ h)
        · rw [State.tooHot, show s.rateWished.fw.coolantLost = true from h, Bool.true_or]
      obtain ⟨hmem, hspad, hrates, hfw, hhalted⟩ := State.rateStopped_withFw (s := s) (f := s.rateWished.fw) htooHot
      rw [← s.rateWished_withFw] at hmem hspad hrates hfw hhalted
      rw [if_pos hhalt] at hrun
      generalize s.rateWished.rateStopped = t at hrun hmem hspad hrates hfw hhalted
      exact ⟨t, hrun, hmem, hspad, hrates, congrArg Firmware.log hfw, congrArg Firmware.coolantLost hfw, hhalted⟩
  case tick =>
    intro s k hroot hdue hk hot
    rw [State.rate_rateTick hroot hdue hk, State.setting, s.hottest_eq_max]
    rfl
  case power =>
    intro s hroot
    have hrun : exec .powerMeasurement s = execPowerMeasurement s := rfl
    rw [hrun, execPowerMeasurement, hroot]
    rfl
  case spdm =>
    refine fun s => ⟨fun hroot => ?_, fun hroot => ?_⟩
    · exact (exec_spdmRequest s).trans (if_neg (by simp [hroot]))
    · exact (exec_spdmRequest s).trans (if_pos hroot)
  case pldm =>
    intro s up
    refine ⟨fun h i hreq => ?_, fun h hreq => ?_, fun h hreq => ?_, fun h hreq => ?_, fun h w hreq => ⟨fun hw => ?_, fun hw => ?_⟩,
      fun h hreq => ?_, fun v sig hreq hroot => ?_⟩
    · exact exec_pldmRequest_of_service h.1 h.2 hreq
    · exact exec_pldmRequest_of_service h.1 h.2 hreq
    · exact exec_pldmRequest_of_service h.1 h.2 hreq
    · exact exec_pldmRequest_of_service h.1 h.2 hreq
    · exact (exec_pldmRequest_of_service h.1 h.2 hreq).trans (congrArg Host.Outcome.next (if_pos (by simpa using hw)))
    · exact (exec_pldmRequest_of_service h.1 h.2 hreq).trans (congrArg Host.Outcome.next (if_neg (by simpa using hw)))
    · cases hroot : s.fw.recovery with
      | true => exact exec_pldmRequest_of_recovery hroot
      | false => exact exec_pldmRequest_of_noService (by simpa [up, hroot] using h) hreq
    · rw [exec_pldmRequest_of_raise hroot hreq, State.raiseMinimum]
      by_cases hraise : Config.requestSigned v.toNat sig = true ∧ s.fw.minVer < v.toNat
      · rw [if_pos hraise, if_pos (by simpa using hraise)]
      · rw [if_neg hraise, if_neg (by simpa using hraise)]
        rfl
  case flash => exact fun s => ⟨exec_flashUpdate_of_root, exec_flashUpdate_of_neither⟩
  case softError =>
    refine fun s c g => ⟨fun herr hflg => ⟨_, ?_, ?_, fun k hk => s.cell_countCorrected_other hk, s.cell_countCorrected c⟩,
      fun herr hflg => ⟨_, ?_, ?_, s.spadPoisoned_cons c g s.psnSpad⟩, exec_softError_of_mem,
      fun herr hflg => ⟨_, exec_softError_of_pub herr hflg, rfl, fun v hv hseq hcell => ?_⟩⟩
    · rw [exec_softError_of_spad herr, hflg]; rfl
    · rfl
    · rw [exec_softError_of_spad herr, hflg]; rfl
    · rfl
    · obtain ⟨w, -, rfl⟩ := List.mem_map.mp hv
      exact Ver.mem_psn_poisonedAt hseq hcell

end Sys2Proof.Machine
end
